-- ==== Sys2Proof/Word.lean ====
section
/-! DEFINITION. The word types of the Wilene model and the sparse tables its state is made of.
Every multi-byte field is little-endian (R5); a register and a command word are 64 bits (R10, R180). -/

namespace Sys2Proof

/-- One byte of memory. -/
abbrev Byte := BitVec 8

/-- A 64-bit word: a register, a word of a command, of a descriptor or of a record. -/
abbrev Word := BitVec 64

/-- A sparse table: keys strictly rising, and no entry equal to what an absent key reads as
(`Machine.Tab.get`, `Machine.Tab.put` in Machine/Bits.lean). -/
abbrev Tab (α : Type) := List (Nat × α)

end Sys2Proof
end

