-- ==== Sys2Proof/Syntax.lean ====
section
/-! DEFINITION. The commands of the block: one constructor of `Instr` per row of spec/opcode_table.json, in the
table's order, with the operands that fix one occurrence of the row (a core, a queue, a channel, a ring, a
register value, a reading). The table gives no bits, so nothing here is an encoding. -/

namespace Sys2Proof

/-- The 64-byte command of R180 and R181: eight little-endian words. -/
structure Cmd where
  w0 : Word := 0
  w1 : Word := 0
  w2 : Word := 0
  w3 : Word := 0
  w4 : Word := 0
  w5 : Word := 0
  w6 : Word := 0
  w7 : Word := 0
  deriving DecidableEq, Repr, Inhabited

/-- Whose ordinary access it is: a read or write of an engine, peer, host or device record; an atomic on the word at its
address (R293); a repair rewrite (R429); a graze read (R437). All enter the same hold queue (R111). -/
inductive AccKind where
  | plain | repair | graze
  | atomic (aop : Nat) (size8 : Bool) (opd cmp : Nat)
  deriving DecidableEq, Repr, Inhabited

/-- An ordinary access to DRAM (R111): the bytes from one address, a read or a write, and who makes it. -/
structure Access where
  /-- bank-linear local address of the first byte -/
  addr : Nat
  len : Nat
  write : Bool
  data : List Byte := []
  /-- the fold whose regulator is charged (R417); none for repairs and graze reads -/
  fold : Option Nat := none
  /-- a write counted on a tally, as (unit, number): unit is a core, or 192 + stack (R249) -/
  tally : Option (Nat × Nat) := none
  /-- what it adds to that tally (R247, R249) -/
  weight : Nat := 0
  kind : AccKind := .plain
  /-- a posted host write: the PCIe function that made it (R286) -/
  host : Option Nat := none
  /-- the bits of a one-byte write that are written (R238) -/
  mask : Byte := 0xFF
  /-- the operation that waits for it, by its number; and the launch whose triple it writes (R283) -/
  ask : Option Nat := none
  launch : Option Nat := none
  deriving DecidableEq, Repr, Inhabited

/-- The message classes of R466. -/
inductive MsgClass where
  | req | rsp | tal | mgt
  deriving DecidableEq, Repr, Inhabited

/-- What a fabric message asks for (R460, R466, R477). -/
inductive MsgOp where
  | read        -- REQ: read LEN bytes
  | write       -- REQ: posted write
  | put         -- REQ: bytes of a DMA.PUT, counted on a tally
  | atomic      -- REQ: a DOMAIN atomic
  | rspData     -- RSP: data or an old value
  | rspError    -- RSP: an access error
  | rspPoison   -- RSP: data that was uncorrectable
  | tallyAdd    -- TAL: a tally-add register write
  | doorbell    -- TAL: a relayed doorbell
  | interrupt   -- TAL: a relayed interrupt
  | degraded    -- TAL: a DEGRADED notice
  | management  -- MGT
  deriving DecidableEq, Repr, Inhabited

/-- A fabric message (R460): header and data. -/
structure Msg where
  dst : Nat
  src : Nat
  cls : MsgClass
  op : MsgOp
  /-- source fold, carried in the header of a REQ (R523) -/
  fold : Nat := 0
  addr : Nat := 0
  data : List Byte := []
  len : Nat := 0
  /-- transaction tag -/
  tag : Nat := 0
  age : Nat := 0
  /-- the tally a PUT or tally-add names: unit (core, or 192 + stack) and number -/
  tallyUnit : Nat := 0
  tallyNum : Nat := 0
  /-- atomic operation and operands (R293), or the SET bit and amount of a tally-add -/
  aop : Nat := 0
  size8 : Bool := false
  operand : Word := 0
  compare : Word := 0
  /-- a request of a host that the lead relays: its outcome at the target is that of R495 (R505) -/
  host : Bool := false
  deriving DecidableEq, Repr, Inhabited

/-- What training and attestation found on one link (R468, R474, R475). -/
structure LinkReport where
  link : Nat
  trained : Bool
  lanes : BitVec 4
  peerDev : Nat
  peerLink : Nat
  /-- the peer's chain reaches the Qualaup root (R520); its measurements 2 and 5, and its DEBUG_SCOPE -/
  chain : Bool
  m2 : Nat
  m5 : Nat
  scope : Nat
  deriving DecidableEq, Repr, Inhabited

/-- The rails of R582 in the power-up order of R564. -/
inductive Rail where
  | vstby | sdsA | sdsB | mem | core
  deriving DecidableEq, Repr, Inhabited

/-- How a firmware image fares in verification (R515, R516, R571). -/
structure ImageCheck where
  present : Bool := true
  headerOk : Bool := true
  keyOk : Bool := true
  sigOk : Bool := true
  kind : Nat := 1
  svn : Nat := 0
  keyIndex : Nat := 0
  version : Nat := 0
  /-- stands for the 384-bit DIGEST -/
  digest : Nat := 0
  deriving DecidableEq, Repr, Inhabited

/-- How a device request to the host ends (R498). -/
inductive HostCpl where
  | ok | ur | ca | ep
  deriving DecidableEq, Repr, Inhabited

/-- The TDI states of TDISP (R501). -/
inductive Tdi where
  | unlocked | locked | run | error
  deriving DecidableEq, Repr, Inhabited

/-- One occurrence of a row of the table. `core` is a logical core, `q` a queue (R175), `g` a global channel, `s` a
stack, `n` the number of repeats performed before the queue yields (a queue stops only at repeat boundaries: R29,
R69, R92), `fn` the PCIe function of a host access (0 the PF, n the VF n), `ring` a ring, `f` a fold, `m` a model. -/
inductive Instr where
  -- matrix arrays (chapter 03)
  | mma (core n : Nat)
  | mmaSlice (core n : Nat)
  | accInit (core n : Nat)
  | accDrain (core n : Nat)
  -- common commands (chapter 07)
  | nop (core q : Nat)
  | hurdle (core q : Nat)
  | hurdlePass (core q : Nat)
  | signal (core q : Nat)
  | wait (core q : Nat)
  | waitPass (core q : Nat)
  | waitTally (core q : Nat)
  | waitTallyPass (core q : Nat)
  | waitTallyTimeout (core q : Nat)
  | resourceWaitTimeout (core q : Nat)
  | arSet (core q : Nat)
  | fence (core q : Nat)
  -- vector engine (chapter 06)
  | vew (core n : Nat)
  | vfunc (core n : Nat)
  | vred (core n : Nat)
  | vcvt (core n : Nat)
  | vperm (core n : Nat)
  | smerge (core n : Nat)
  | topk (core n : Nat)
  | topkMerge (core n : Nat)
  | sliceSplit (core n : Nat)
  | sliceCombine (core n : Nat)
  | bfly4 (core n : Nat)
  -- scalar engine (chapter 06)
  | scAlu (core : Nat)
  | scLd (core : Nat)
  | scSt (core : Nat)
  | scBr (core : Nat)
  | scBlock (core : Nat)
  | scArw (core : Nat)
  | scRdt (core : Nat)
  | scRdtally (core : Nat)
  | scAmo (core : Nat)
  -- DMA engine (chapters 09, 10, 11)
  | dmaCopy (core n : Nat)
  | dmaPerm (core n : Nat)
  | dmaPut (core n : Nat)
  | dmaAmo (core n : Nat)
  | palWrite (core : Nat)
  | palWriteApply (core : Nat)
  -- launches (chapters 05, 12)
  | nbuLaunch (core n : Nat)
  | launchAdmit (id : Nat)
  | launchComplete (core : Nat)
  | launchFaultPropagate (id : Nat)
  | attnDispatch (core n : Nat)
  -- in-bank instructions (chapter 05)
  | nbuNop (g : Nat)
  | nbuEnd (g : Nat)
  | loop (g : Nat)
  | loopb (g : Nat)
  | padd (g : Nat)
  | posadd (g : Nat)
  | lpset (g : Nat)
  | ldw (g : Nat)
  | stw (g : Nat)
  | stp (g : Nat)
  | fill (g : Nat)
  | gath (g : Nat)
  | wres (g : Nat)
  | wresa (g : Nat)
  | dotr (g : Nat)
  | axpy (g : Nat)
  | vop (g : Nat)
  | vfma (g : Nat)
  | vdot (g : Nat)
  | redv (g : Nat)
  | sten7 (g : Nat)
  | ascore (g : Nat)
  | asoft (g : Nat)
  | avsum (g : Nat)
  | ainit (g : Nat)
  -- streams, rings and the drover (chapters 07, 15)
  | fetchDispatch (ring member : Nat)
  | deadlockConfirm (core : Nat)
  | deferredRecordWrite (ring : Nat)
  | irqCoalesceTimeout (ring : Nat)
  | ringDoorbell (fn ring : Nat) (v : Word)
  | cplHeadWrite (fn ring : Nat) (v : Word)
  | ringEnable (fn ring : Nat) (v : Word)
  | ringDisable (fn ring : Nat) (v : Word)
  | switchRequest (core : Nat)
  | ringSwitch (core : Nat)
  | switchWithdraw (core : Nat)
  | class0Takeover (core q : Nat)
  | class0Release (core : Nat)
  | ringSuspend (ring : Nat)
  | ringResume (ring : Nat)
  | ringCancel (ring : Nat)
  | ringRestart (ring : Nat)
  -- the serving engine (chapters 12, 13, 14)
  | poolDefine (ring : Nat)
  | poolDrop (ring : Nat)
  | reqSubmit (ring : Nat)
  | reqCancel (ring : Nat)
  | modelBind (ring : Nat)
  | modelUnbind (ring : Nat)
  | reqChoose (ring : Nat)
  | reqPark (ring : Nat)
  | parkImageDone (req : Nat)
  | reqResume (ring : Nat)
  | srvStepDone (ring m : Nat) (v : Word)
  | stepBoundary (m : Nat)
  | stepTimeout (m : Nat)
  -- security management (chapter 19), folds and regulators (chapter 15)
  | secCommitSvn (ring : Nat)
  | secRevokeKey (ring : Nat)
  | secDebugUnlock (ring : Nat)
  | foldForm (fn f : Nat) (v : Word)
  | foldRelease (fn f : Nat) (v : Word)
  | regulatorRelease (f k s : Nat)
  -- channel modes (chapter 04)
  | capAdmit (s : Nat)
  | boutStart (g : Nat)
  | boutEnd (g : Nat)
  | gapEnd (g : Nat)
  | channelSwitchOut (g : Nat)
  | capUpdate (s cap : Nat)
  | ordinaryAccess (g : Nat) (a : Access)
  | tapDataArrive (g : Nat) (k : Nat)
  | resultDataArrive (g : Nat) (k : Nat)
  | putArrive (k : Nat)
  | tallyAdd (fn unit n : Nat) (v : Word)
  | tallySet (fn unit n : Nat) (v : Word)
  -- stored data integrity (chapters 08, 16)
  | spdCeWriteback (core granule : Nat)
  | dmaStarve (core : Nat)
  | repair (s : Nat)
  | grazeVisit (addr : Nat)
  | grazeLate
  | migrationStart (bank : Nat)
  | spareSwitch (bank : Nat)
  | tsvRemap (g : Nat)
  | fwCodeReload (secondCopyOk : Bool)
  | spareReq (fn : Nat) (v : Word)
  | flipArm (fn unit : Nat) (v : Word)
  -- the fabric (chapter 17)
  | messageReceive (link : Nat) (macOk : Bool) (msg : Msg)
  | nakReplay (link seq : Nat)
  | macGroupClose (link : Nat)
  | ageIncrement
  | laneDrop (link lane : Nat)
  | linkAckTimeout (link : Nat)
  | linkDown (link : Nat)
  | memberMissing (d : Nat)
  | degradedNotice (d : Nat)
  | fabricBringup (topo : Nat) (devices : List Nat) (links : List LinkReport)
  | bringupReportDeadline (reported : List Nat)
  | measurementReport (d m3 m4 : Nat)
  | domainReset (fn : Nat) (v : Word)
  -- the host interface (chapter 18)
  | hostRead (fn bar off len : Nat)
  | hostWrite (fn bar off : Nat) (data : List Byte) (ep : Bool)
  | hostAtomicop (fn bar off aop : Nat) (size : Nat) (operand compare : Word)
  | relayDoorbellForward (d : Nat)
  | relayDeviceRequest (d : Nat) (write : Bool) (haddr : Nat) (data : List Byte) (msix : Option Nat)
  | hostCompletion (id : Nat) (st : HostCpl)
  | devCplTimeout (id : Nat)
  | pcieLinkDown
  | hifWinWrite (fn vf j : Nat) (v : Word)
  | bar2Resize (fn log2 : Nat)
  | msixUnmask (fn vec : Nat)
  | flr (fn : Nat)
  | d3hotEntry (fn : Nat)
  | d0Return (fn : Nat)
  | ideKeyProg (stream : Nat) (secured : Bool)
  | tdiError (vf : Nat)
  -- attestation and management transports (chapters 19, 20, 21)
  | spdmGetCertificate (slot : Nat)
  | spdmChallenge
  | spdmGetMeasurements (index : Nat)
  | spdmKeyExchange
  | spdmHeartbeat (session : Nat)
  | spdmKeyUpdate (session : Nat)
  | doeFlashUpdate (images : List ImageCheck)
  | pldmGetPdr (record : Nat)
  | pldmGetSensorReading (id : Nat)
  | pldmGetStateSensorReadings (id : Nat)
  | pldmSetNumericEffecterValue (id value : Nat)
  | pldmSetEventReceiver (receiver : Nat)
  | telemetryRefresh
  -- power and thermal (chapter 20)
  | powerSample (watts : Nat)
  | knobRaise
  | brakeAssert
  | brakeRelease
  | thermalUpdate (temps : List (Int × Nat)) (rise : List Int)
  | thermalCalibrate (nodes : List (Nat × Int × Int))
  | throttleStep
  | shutdownDeadline
  | analogTrip (body : Nat)
  | thermtripRelease (temps : List Int)
  | lifeLogSummary
  -- clocks, power-up and reset (chapters 01, 21)
  | refLoss
  | coldReset (devid strap : Nat) (refOk altOk : Bool) (images : List ImageCheck)
  | warmReset (hot : Bool) (devid strap : Nat) (refOk altOk : Bool) (images : List ImageCheck)
  | pwrgdFall
  | railSequenceError (rail : Rail)
  | bootReady
  | rcvChunk (fn : Nat) (v : Word)
  | rcvChunkCopied
  | rcvVerify (images : List ImageCheck)
  | rcvRestart (fn : Nat) (v : Word)
  | prefixGroupWrite (fn : Nat) (v : Word)
  | jtagInstruction (ir : Nat)
  | registerWrite (fn addr size : Nat) (v : Word)
  | supplyRailUp (rail : Rail)
  | supplyRailDown (rail : Rail)
  | pcieLinkUp (speed width : Nat) (flit : Bool)
  | laneReequalisation (link lane : Nat)
  | laneReequalisationDone (link : Nat)
  | refresh (g : Nat)
  | referenceToleranceChange (alt inTol : Bool)
  | atsInvalidation (fn : Nat) (page : Nat)
  | tdispRequest (vf : Nat) (st : Tdi)
  | vfEnable (numVfs : Nat)
  | i3cDynamicAddressAssignment (addr : Nat)
  deriving DecidableEq, Repr

end Sys2Proof
end

