-- ==== Sys2Proof/Decode.lean ====
section
/-! DEFINITION. The rows of spec/opcode_table.json carry no bits: no word spells a command, and nothing is decoded. -/

namespace Sys2Proof

/-- The command a word spells by the table's bits: the table gives no row any bits, so every word spells none. -/
def decodeTableWord (_nbits _w : Nat) : Option Instr := none

end Sys2Proof
end

