-- ==== Sys2Proof/Machine/Crypto.lean ====
section
/-! DEFINITION. The cryptographic functions that the spec names by their standards: AES-256 (FIPS 197), its CTR_DRBG with the
derivation function (SP 800-90A, R375), AES-256-GCM (R386), SHA-384 (R515) and HMAC over it (R378). Byte strings are lists,
byte 0 first; a number that holds one has byte 0 in its low bits. -/

namespace Sys2Proof.Machine

/-! ## AES-256 -/

/-- Substitution of the 256 byte values, value 0 in the low bits. -/
def aesBox : Nat := 0x16BB54B00F2D99416842E6BF0D89A18CDF2855CEE9871E9B948ED9691198F8E19E1DC186B95735610EF6034866B53E708A8BBD4B1F74DDE8C6B4A61C2E2578BA08AE7A65EAF4566CA94ED58D6D37C8E779E4959162ACD3C25C2406490A3A32E0DB0B5EDE14B8EE4688902A22DC4F816073195D643D7EA7C41744975FEC130CCDD2F3FF1021DAB6BCF5389D928F40A351A89F3C507F02F94585334D43FBAAEFD0CF584C4A39BECB6A5BB1FC20ED00D153842FE329B3D63B52A05A6E1B1A2C830975B227EBE28012079A059618C323C7041531D871F1E5A534CCF73F362693FDB7C072A49CAFA2D4ADF04759FA7DC982CA76ABD7FE2B670130C56F6BF27B777C63

def aesSub (b : Nat) : Nat := aesBox / 2 ^ (8 * b) % 256

/-- A byte times x modulo x^8 + x^4 + x^3 + x + 1. -/
def aesX (b : Nat) : Nat := if b < 128 then 2 * b else (2 * b) ^^^ 0x11B

def xorBytes (a b : List Nat) : List Nat := List.zipWith (· ^^^ ·) a b

/-- Round constant i, from 1. -/
def aesRcon : Nat → Nat
  | 0 => 1
  | 1 => 1
  | n + 1 => aesX (aesRcon n)

/-- The 60 words of the key schedule, of four bytes each. -/
def aesWords (key : List Nat) : List (List Nat) :=
  let start := ((List.range 8).map fun i => (key.drop (4 * i)).take 4).reverse
  ((rangeFrom 8 52).foldl (fun (ws : List (List Nat)) i =>
    let last := ws.headD []
    let t := if i % 8 = 0 then xorBytes (((last.drop 1) ++ last.take 1).map aesSub) [aesRcon (i / 8), 0, 0, 0]
      else if i % 8 = 4 then last.map aesSub else last
    xorBytes (ws.getD 7 []) t :: ws) start).reverse

/-- One column mixed. -/
def aesMix (c : List Nat) : List Nat :=
  let b (i : Nat) : Nat := c.getD (i % 4) 0
  (List.range 4).map fun i => aesX (b i) ^^^ (aesX (b (i + 1)) ^^^ b (i + 1)) ^^^ b (i + 2) ^^^ b (i + 3)

/-- Substitution and row shifts of a block, column by column. -/
def aesShift (st : List Nat) : List Nat :=
  (List.range 16).map fun i => aesSub (st.getD (4 * ((i / 4 + i % 4) % 4) + i % 4) 0)

/-- A block enciphered under a key schedule. -/
def aesBlock (ws : List (List Nat)) (blk : List Nat) : List Nat :=
  let rk (r : Nat) : List Nat := ((ws.drop (4 * r)).take 4).flatten
  let s := (rangeFrom 1 13).foldl (fun s r =>
    let t := aesShift s
    xorBytes ((List.range 4).flatMap fun c => aesMix ((t.drop (4 * c)).take 4)) (rk r)) (xorBytes blk (rk 0))
  xorBytes (aesShift s) (rk 14)

/-- AES-256 of one block. -/
def aes256 (key blk : List Nat) : List Nat := aesBlock (aesWords key) blk

/-! ## Numbers as big-endian strings -/

/-- n bytes, the most significant first. -/
def beBytes (n v : Nat) : List Nat := ((List.range n).map fun i => v / 256 ^ i % 256).reverse

def beNat (bs : List Nat) : Nat := bs.foldl (fun a b => a * 256 + b) 0

def natsOf (bs : List Byte) : List Nat := bs.map (·.toNat)
def bytesOf (ns : List Nat) : List Byte := ns.map (BitVec.ofNat 8)

/-! ## CTR_DRBG with AES-256 and the derivation function (SP 800-90A 10.2.1, 10.3.2) -/

/-- Key and V. -/
structure Drbg where
  key : List Nat
  v : List Nat
  deriving DecidableEq, Repr

/-- n blocks of output from V on, and the last V. -/
def drbgBlocks (ws : List (List Nat)) : Nat → Nat → List Nat × Nat
  | 0, v => ([], v)
  | n + 1, v =>
    let v1 := (v + 1) % 2 ^ 128
    let r := drbgBlocks ws n v1
    (aesBlock ws (beBytes 16 v1) ++ r.1, r.2)

/-- CTR_DRBG_Update. -/
def drbgUpdate (d : Drbg) (data : List Nat) : Drbg :=
  let t := xorBytes (drbgBlocks (aesWords d.key) 3 (beNat d.v)).1 data
  { key := t.take 32, v := t.drop 32 }

/-- The chaining of BCC over blocks of 16 bytes. -/
def drbgChain (ws : List (List Nat)) (bs : List Nat) : List Nat :=
  (List.range (bs.length / 16)).foldl (fun c i => aesBlock ws (xorBytes c ((bs.drop (16 * i)).take 16))) (List.replicate 16 0)

/-- Block_Cipher_df to 48 bytes. -/
def drbgDf (input : List Nat) : List Nat :=
  let s := beBytes 4 input.length ++ beBytes 4 48 ++ input ++ [0x80]
  let s := s ++ List.replicate ((16 - s.length % 16) % 16) 0
  let ws := aesWords (List.range 32)
  let t := (List.range 3).flatMap fun i => drbgChain ws (beBytes 4 i ++ List.replicate 12 0 ++ s)
  let kw := aesWords (t.take 32)
  let x1 := aesBlock kw (t.drop 32)
  let x2 := aesBlock kw x1
  x1 ++ x2 ++ aesBlock kw x2

/-- Instantiation from entropy input and nonce, with an empty personalisation string. -/
def drbgNew (seed nonce : List Nat) : Drbg :=
  drbgUpdate { key := List.replicate 32 0, v := List.replicate 16 0 } (drbgDf (seed ++ nonce))

/-- One Generate call of 16 bytes without additional input. -/
def drbgGen (d : Drbg) : List Nat × Drbg :=
  let r := drbgBlocks (aesWords d.key) 1 (beNat d.v)
  (r.1, drbgUpdate { d with v := beBytes 16 r.2 } (List.replicate 48 0))

/-- The state after n Generate calls. -/
def drbgAfter (d : Drbg) (n : Nat) : Drbg := (List.range n).foldl (fun t _ => (drbgGen t).2) d

/-- The generator of a seeded request (R375) after n draws. -/
def seededDrbg (seed : BitVec 256) (nonce : Word) (n : Nat) : Drbg :=
  drbgAfter (drbgNew (natsOf (leBytes 32 seed.toNat)) (natsOf (leBytes 8 nonce.toNat))) n

/-- Draw n, counted from 0, of a seeded request: bytes 0 to 3 of its Generate call, little-endian (R375). -/
def ctrDraw (seed : BitVec 256) (nonce : Word) (n : Nat) : Nat :=
  leNat ((bytesOf (drbgGen (seededDrbg seed nonce n)).1).take 4)

/-! ## AES-256-GCM with an IV of 96 bits -/

/-- The product in the field of GCM: bit 0 of a block is its most significant bit. -/
def gcmMul (x y : Nat) : Nat :=
  ((List.range 128).foldl (fun (p : Nat × Nat) i =>
    let z := if x.testBit (127 - i) then p.1 ^^^ p.2 else p.1
    (z, if p.2 % 2 = 1 then (p.2 / 2) ^^^ (0xE1 * 2 ^ 120) else p.2 / 2)) (0, y)).1

/-- Bytes padded with zeros to whole blocks. -/
def gcmPad (bs : List Nat) : List Nat := bs ++ List.replicate ((16 - bs.length % 16) % 16) 0

/-- GHASH of whole blocks. -/
def gcmHash (h : Nat) (bs : List Nat) : Nat :=
  (List.range (bs.length / 16)).foldl (fun y i => gcmMul (y ^^^ beNat ((bs.drop (16 * i)).take 16)) h) 0

/-- The counter block of block n of a message: 1 is the one that masks the tag. -/
def gcmCtr (iv : BitVec 96) (n : Nat) : List Nat := natsOf (leBytes 12 iv.toNat) ++ beBytes 4 n

/-- Bytes enciphered or deciphered. -/
def gcmXor (key : BitVec 256) (iv : BitVec 96) (bs : List Byte) : List Byte :=
  let ws := aesWords (natsOf (leBytes 32 key.toNat))
  let ks := (List.range (cdiv bs.length 16)).flatMap fun i => aesBlock ws (gcmCtr iv (i + 2))
  List.zipWith (· ^^^ ·) bs (bytesOf ks)

/-- The tag over additional data and ciphertext, as a number. -/
def gcmTag (key : BitVec 256) (iv : BitVec 96) (aad ct : List Byte) : BitVec 128 :=
  let ws := aesWords (natsOf (leBytes 32 key.toNat))
  let h := beNat (aesBlock ws (List.replicate 16 0))
  let y := gcmHash h (gcmPad (natsOf aad) ++ gcmPad (natsOf ct) ++ beBytes 8 (8 * aad.length) ++ beBytes 8 (8 * ct.length))
  BitVec.ofNat 128 (leNat (bytesOf (xorBytes (beBytes 16 y) (aesBlock ws (gcmCtr iv 1)))))

/-! ## SHA-384 and HMAC -/

/-- The 80 round constants. -/
def shaK : List Nat :=
  [0x428A2F98D728AE22, 0x7137449123EF65CD, 0xB5C0FBCFEC4D3B2F, 0xE9B5DBA58189DBBC, 0x3956C25BF348B538, 0x59F111F1B605D019, 0x923F82A4AF194F9B, 0xAB1C5ED5DA6D8118] ++
  [0xD807AA98A3030242, 0x12835B0145706FBE, 0x243185BE4EE4B28C, 0x550C7DC3D5FFB4E2, 0x72BE5D74F27B896F, 0x80DEB1FE3B1696B1, 0x9BDC06A725C71235, 0xC19BF174CF692694] ++
  [0xE49B69C19EF14AD2, 0xEFBE4786384F25E3, 0xFC19DC68B8CD5B5, 0x240CA1CC77AC9C65, 0x2DE92C6F592B0275, 0x4A7484AA6EA6E483, 0x5CB0A9DCBD41FBD4, 0x76F988DA831153B5] ++
  [0x983E5152EE66DFAB, 0xA831C66D2DB43210, 0xB00327C898FB213F, 0xBF597FC7BEEF0EE4, 0xC6E00BF33DA88FC2, 0xD5A79147930AA725, 0x6CA6351E003826F, 0x142929670A0E6E70] ++
  [0x27B70A8546D22FFC, 0x2E1B21385C26C926, 0x4D2C6DFC5AC42AED, 0x53380D139D95B3DF, 0x650A73548BAF63DE, 0x766A0ABB3C77B2A8, 0x81C2C92E47EDAEE6, 0x92722C851482353B] ++
  [0xA2BFE8A14CF10364, 0xA81A664BBC423001, 0xC24B8B70D0F89791, 0xC76C51A30654BE30, 0xD192E819D6EF5218, 0xD69906245565A910, 0xF40E35855771202A, 0x106AA07032BBD1B8] ++
  [0x19A4C116B8D2D0C8, 0x1E376C085141AB53, 0x2748774CDF8EEB99, 0x34B0BCB5E19B48A8, 0x391C0CB3C5C95A63, 0x4ED8AA4AE3418ACB, 0x5B9CCA4F7763E373, 0x682E6FF3D6B2B8A3] ++
  [0x748F82EE5DEFB2FC, 0x78A5636F43172F60, 0x84C87814A1F0AB72, 0x8CC702081A6439EC, 0x90BEFFFA23631E28, 0xA4506CEBDE82BDE9, 0xBEF9A3F7B2C67915, 0xC67178F2E372532B] ++
  [0xCA273ECEEA26619C, 0xD186B8C721C0C207, 0xEADA7DD6CDE0EB1E, 0xF57D4F7FEE6ED178, 0x6F067AA72176FBA, 0xA637DC5A2C898A6, 0x113F9804BEF90DAE, 0x1B710B35131C471B] ++
  [0x28DB77F523047D84, 0x32CAAB7B40C72493, 0x3C9EBE0A15C9BEBC, 0x431D67C49C100D4C, 0x4CC5D4BECB3E42B6, 0x597F299CFC657E2A, 0x5FCB6FAB3AD6FAEC, 0x6C44198C4A475817]

/-- The initial hash value of SHA-384. -/
def shaH : List (BitVec 64) :=
  [0xCBBB9D5DC1059ED8, 0x629A292A367CD507, 0x9159015A3070DD17, 0x152FECD8F70E5939,
   0x67332667FFC00B31, 0x8EB44A8768581511, 0xDB0C2E0D64F98FA7, 0x47B5481DBEFA4FA4]

/-- The 80 words of a block's schedule from its 16. -/
def shaWords (blk : List (BitVec 64)) : List (BitVec 64) :=
  ((List.range 64).foldl (fun (w : List (BitVec 64)) _ =>
    let a := w.getD 1 0
    let b := w.getD 14 0
    let s1 := a.rotateRight 19 ^^^ a.rotateRight 61 ^^^ (a >>> 6)
    let s0 := b.rotateRight 1 ^^^ b.rotateRight 8 ^^^ (b >>> 7)
    (s1 + w.getD 6 0 + s0 + w.getD 15 0) :: w) blk.reverse).reverse

/-- One round on the eight working variables. -/
def shaRound (v : List (BitVec 64)) (kw : BitVec 64) : List (BitVec 64) :=
  let g (i : Nat) : BitVec 64 := v.getD i 0
  let e := g 4
  let a := g 0
  let t1 := g 7 + (e.rotateRight 14 ^^^ e.rotateRight 18 ^^^ e.rotateRight 41) + ((e &&& g 5) ^^^ (~~~e &&& g 6)) + kw
  let t2 := (a.rotateRight 28 ^^^ a.rotateRight 34 ^^^ a.rotateRight 39) + ((a &&& g 1) ^^^ (a &&& g 2) ^^^ (g 1 &&& g 2))
  [t1 + t2, a, g 1, g 2, g 3 + t1, e, g 5, g 6]

/-- One block. -/
def shaBlock (h blk : List (BitVec 64)) : List (BitVec 64) :=
  List.zipWith (· + ·) h ((List.zipWith (fun w k => w + BitVec.ofNat 64 k) (shaWords blk) shaK).foldl shaRound h)

/-- SHA-384, 48 bytes. -/
def sha384Bytes (msg : List Nat) : List Nat :=
  let m := msg ++ [0x80]
  let m := m ++ List.replicate ((240 - m.length % 128) % 128) 0 ++ beBytes 16 (8 * msg.length)
  let word (i : Nat) : BitVec 64 := BitVec.ofNat 64 (beNat ((m.drop (8 * i)).take 8))
  let h := (List.range (m.length / 128)).foldl (fun h j => shaBlock h ((List.range 16).map fun i => word (16 * j + i))) shaH
  (h.take 6).flatMap fun w => beBytes 8 w.toNat

/-- SHA-384 as a number, byte 0 least significant. -/
def sha384 (msg : List Byte) : BitVec 384 := BitVec.ofNat 384 (leNat (bytesOf (sha384Bytes (natsOf msg))))

/-- HMAC-SHA-384 under a key of 48 bytes. -/
def hmac384 (key : BitVec 384) (msg : List Byte) : BitVec 384 :=
  let k := natsOf (leBytes 48 key.toNat) ++ List.replicate 80 0
  let inner := sha384Bytes (k.map (· ^^^ 0x36) ++ natsOf msg)
  BitVec.ofNat 384 (leNat (bytesOf (sha384Bytes (k.map (· ^^^ 0x5C) ++ inner))))

end Sys2Proof.Machine
end

