-- ==== Sys2Proof/Config.lean ====
section
/-! DEFINITION. What the part fixes per grade, and the free values: what the spec leaves open, as constants without
a body. A free value that is drawn anew each time takes the state's counter `free` as its first argument. -/

namespace Sys2Proof.Config

/-- The two grades of R1 and R2. -/
inductive Grade where
  | f | e
  deriving DecidableEq, Repr, Inhabited

/-- CORES_PER_PDK (R2). -/
def coresPerPdk : Grade → Nat
  | .f => 48
  | .e => 40

/-- The number of logical cores (R3). -/
def cores (g : Grade) : Nat := 4 * coresPerPdk g

/-- BW_MASK (R2). -/
def bwMask : Grade → Nat
  | .f => 0xF
  | .e => 0x3

/-- DEV_TIME ticks in a microsecond (chapter 00, Conventions). -/
def tick : Nat := 475

/-- STEP_MAJOR and STEP_MINOR of GLB_PART_ID: fused, no value given (R2). -/
opaque stepping : BitVec 8

/-- A byte the spec leaves unspecified: the n-th draw, at position i. -/
opaque freeByte : Nat → Nat → Byte

/-- A number the spec leaves unspecified: the n-th draw. -/
opaque freeNat : Nat → Nat

/-- A 64-bit word the spec leaves unspecified or draws from the DRBG (R526, R534): the n-th draw. -/
opaque freeWord : Nat → Word

/-- The byte of host memory at a host address, read by the n-th device request (R278: the host's, not the part's). -/
opaque hostByte : Nat → Nat → Byte

/-- The outcome of the n-th device request to host memory: 0 success, 1 UR, CA or timeout, 2 EP set (R498). -/
opaque hostOutcome : Nat → BitVec 2

/-- A byte another member returns to the n-th read of its address (R273, R476). -/
opaque peerByte : Nat → Nat → Byte

/-- The outcome of the n-th request to another member: 0 success, 1 access error, 2 poisoned, 3 the link or the
member is lost (R476, R478, R523). -/
opaque peerOutcome : Nat → BitVec 2

/-- Draw number i of the stochastic-rounding stream of a core in an epoch that begins at each reset (R54). -/
opaque srDraw : Nat → Nat → Nat → BitVec 16

/-- How a stored DRAM word with four or more bad symbols is read (R425: not covered): 0 good, 1 corrected, 2
uncorrectable; with the error pattern. -/
opaque overBad : Nat → BitVec 288 → BitVec 2

/-- The data such a word reads as, where it is not reported uncorrectable (R425). -/
opaque overBadData : Nat → BitVec 288 → BitVec 256

/-- SHA-384 of the boot ROM (R517): fixed at manufacture. -/
opaque romDigest : BitVec 384

/-- The unique device secret in the fuses (R513). -/
opaque uds : BitVec 384

/-- The ECDSA P-384 private key that TCG DICE derives from a secret (R513: the spec leaves the derivation to that
standard), and the bytes of the public key of a private one. -/
opaque eccPrivate : BitVec 384 → BitVec 384
opaque eccPublic : BitVec 384 → List Byte

/-- Byte i of the certificate chain (R513, R514): the DeviceID and the alias public key, and the TcbInfo extension of the
alias certificate, which holds the stage-1 digest, its SVN and the debug flag. -/
opaque certByte : List Byte → List Byte → Nat → Nat → Bool → Nat → Byte

/-- LEN of a life-log record of a type with so many payload numbers (R555): the spec gives no payload a length. -/
opaque recordLen : Nat → Nat → Nat

/-- Byte i of the life-log flash as stored (R554, R562): record payloads have no layout in the spec; the first argument
is the number of records. -/
opaque norByte : Nat → Nat → Byte

/-- Verification of a debug token's signature (R528, R529), the fused hash of the authority's key included: key index,
message, signature. -/
opaque ecdsaOk : Nat → List Byte → List Byte → Bool

/-- A candidate the vector or in-bank unit may return for exp, log or rsqrt: operation, format width, operand
encoding. Taken only where it lies within the accuracy the spec states (R158, R136). -/
opaque approx : Nat → Nat → Nat → Nat

/-- A cycle count within the bound the spec gives for it (R103, R104, R109, R112): the n-th draw. -/
opaque cycles : Nat → Nat

end Sys2Proof.Config
end

