-- ==== Sys2Proof/Machine/Num.lean ====
section
/-! DEFINITION. Number formats, rounding, special values, block scaling (chapter 02). Values are exact: a float is
decoded to NaN, an infinity or a signed dyadic number, computed on exactly, and narrowed by ONE rounding. -/

namespace Sys2Proof.Machine

/-- An exact value. `fin neg m e` is (-1)^neg * m * 2^e; both signed zeros are kept (R40). -/
inductive XVal where
  | nan
  | inf (neg : Bool)
  | fin (neg : Bool) (m : Nat) (e : Int)
  deriving DecidableEq, Repr, Inhabited

/-- How a format spends its top exponent (R39). -/
inductive Specials where
  | ieee     -- infinities and NaNs
  | e4m3     -- S.1111.111 is NaN, no infinity
  | none     -- every encoding is finite
  deriving DecidableEq, Repr

/-- A floating-point format of R38: exponent bits, mantissa bits, bias. -/
structure FFmt where
  eb : Nat
  mb : Nat
  bias : Nat
  sp : Specials
  deriving DecidableEq, Repr

def fp64 : FFmt := ⟨11, 52, 1023, .ieee⟩
def fp32 : FFmt := ⟨8, 23, 127, .ieee⟩
def bf16 : FFmt := ⟨8, 7, 127, .ieee⟩
def fp16 : FFmt := ⟨5, 10, 15, .ieee⟩
def e4m3 : FFmt := ⟨4, 3, 7, .e4m3⟩
def e5m2 : FFmt := ⟨5, 2, 15, .ieee⟩
def e3m2 : FFmt := ⟨3, 2, 3, .none⟩
def e2m3 : FFmt := ⟨2, 3, 1, .none⟩
def e2m1 : FFmt := ⟨2, 1, 1, .none⟩

/-- The width of a format in bits. -/
def FFmt.bits (f : FFmt) : Nat := 1 + f.eb + f.mb

/-- The value of an encoding (R38, R39, R40). -/
def fdec (f : FFmt) (w : Nat) : XVal :=
  let neg := nfld w (f.eb + f.mb) (f.eb + f.mb) == 1
  let e := nfld w (f.eb + f.mb - 1) f.mb
  let m := w % 2 ^ f.mb
  let top := 2 ^ f.eb - 1
  if f.sp = .ieee ∧ e = top then (if m = 0 then .inf neg else .nan)
  else if f.sp = .e4m3 ∧ e = top ∧ m = 2 ^ f.mb - 1 then .nan
  else if e = 0 then .fin neg m (1 - (f.bias : Int) - f.mb)
  else .fin neg (2 ^ f.mb + m) ((e : Int) - f.bias - f.mb)

/-- The canonical NaN the device writes (R39). For a format without NaN: +0 (R55). -/
def canonNaN (f : FFmt) : Nat :=
  match f.sp with
  | .ieee => ((2 ^ f.eb - 1) <<< f.mb) + 2 ^ (f.mb - 1)
  | .e4m3 => 2 ^ (f.eb + f.mb) - 1
  | .none => 0

/-- The encoding, sign aside, of the largest finite value (R38). -/
def maxEnc (f : FFmt) : Nat :=
  match f.sp with
  | .ieee => ((2 ^ f.eb - 1) <<< f.mb) - 1
  | .e4m3 => 2 ^ (f.eb + f.mb) - 2
  | .none => 2 ^ (f.eb + f.mb) - 1

/-- The magnitude of an exact value, compared as naturals on a common exponent: is a*2^ea < b*2^eb? -/
def magLt (a : Nat) (ea : Int) (b : Nat) (eb : Int) : Bool :=
  if ea ≤ eb then a < b <<< (eb - ea).toNat else a <<< (ea - eb).toNat < b

/-- The sticky numerical exceptions of CORE_NUM_STATUS (R57), bits 6:0 of the register. -/
abbrev NumFlags := BitVec 7

def nfInvalid : NumFlags := 1
def nfOvf : NumFlags := 2
def nfNanLost : NumFlags := 4
def nfInfLost : NumFlags := 8
def nfMxNan : NumFlags := 16
def nfSlice : NumFlags := 32
def nfDivZero : NumFlags := 64

/-- m * 2^e rounded to a multiple of 2^q: the multiple. `draw` none: nearest even (R52); some r: stochastic with the
draw r (R53). -/
def roundMag (draw : Option (BitVec 16)) (m : Nat) (e q : Int) : Nat :=
  if q ≤ e then m <<< (e - q).toNat
  else
    let s := (q - e).toNat
    let n := m >>> s
    let r := m % 2 ^ s
    match draw with
    | none => if 2 * r > 2 ^ s ∨ (2 * r = 2 ^ s ∧ n % 2 = 1) then n + 1 else n
    | some d => if (r * 65536) >>> s > d.toNat then n + 1 else n

/-- floor(log2 (m * 2^e)) for m ≠ 0. -/
def xlog2 (m : Nat) (e : Int) : Int := (Nat.log2 m : Int) + e

/-- The exponent of the spacing of a format at m * 2^e (R53: the subnormal spacing included). -/
def spacing (f : FFmt) (m : Nat) (e : Int) : Int :=
  max (xlog2 m e - f.mb) (1 - (f.bias : Int) - f.mb)

/-- The encoding of n * 2^q (sign aside), n at most 2^(mb+1), q the spacing of R53. -/
def packMag (f : FFmt) (n : Nat) (q : Int) : Nat :=
  if n < 2 ^ f.mb then n
  else ((q + f.mb + f.bias).toNat <<< f.mb) + (n - 2 ^ f.mb)

/-- Exact magnitude at least max + half an ulp (R55, the overflow of RNE). -/
def ovfRne (f : FFmt) (m : Nat) (e : Int) : Bool :=
  match fdec f (maxEnc f) with
  | .fin _ mm me => !(magLt m e (2 * mm + 1) (me - 1))
  | _ => false

/-- A magnitude n * 2^q beyond the largest finite value. -/
def beyondMax (f : FFmt) (n : Nat) (q : Int) : Bool :=
  match fdec f (maxEnc f) with
  | .fin _ mm me => magLt mm me n q
  | _ => false

/-- A conversion to a floating-point target (R52, R53, R55, R56): the encoding and the flags it sets. -/
def fenc (f : FFmt) (draw : Option (BitVec 16)) (satn : Bool) (v : XVal) : Nat × NumFlags :=
  let sgn (neg : Bool) (x : Nat) : Nat := if neg then x + 2 ^ (f.eb + f.mb) else x
  let infEnc : Nat := if f.sp = .ieee then (2 ^ f.eb - 1) <<< f.mb else maxEnc f
  match v with
  | .nan => (canonNaN f, if f.sp = .none then nfNanLost else 0)
  | .inf neg => (sgn neg infEnc, if f.sp = .ieee then 0 else nfInfLost)
  | .fin neg m e =>
    if m = 0 then (sgn neg 0, 0)
    else
      let q := spacing f m e
      let n := roundMag draw m e q
      let ov := match draw with
        | none => ovfRne f m e
        | some _ => beyondMax f n q
      if ov then (sgn neg (if satn then maxEnc f else infEnc), nfOvf)
      else (sgn neg (packMag f n q), 0)

/-- Rounding an exact value to an integer with RND (R56); none for NaN and the infinities. -/
def xround (draw : Option (BitVec 16)) : XVal → Option Int
  | .fin neg m e =>
    let n := roundMag draw m e 0
    some (if neg then -(n : Int) else n)
  | _ => none

/-- A float to an integer target with bounds lo and hi (R55): NaN gives 0 and NAN_LOST, an infinity the bound and
INF_LOST, an overflow the bound and OVF. -/
def xToInt (lo hi : Int) (draw : Option (BitVec 16)) (v : XVal) : Int × NumFlags :=
  match v with
  | .nan => (0, nfNanLost)
  | .inf neg => (if neg then lo else hi, nfInfLost)
  | .fin .. =>
    match xround draw v with
    | none => (0, 0)
    | some n => if n < lo then (lo, nfOvf) else if hi < n then (hi, nfOvf) else (n, 0)

/-- An integer saturated into bounds (R55, integer to integer). -/
def intSat (lo hi n : Int) : Int × NumFlags :=
  if n < lo then (lo, nfOvf) else if hi < n then (hi, nfOvf) else (n, 0)

/-- An integer as an exact value. -/
def xOfInt (n : Int) : XVal := .fin (n < 0) n.natAbs 0

/-- Sign of an exact value (NaN counts as positive). -/
def xneg? : XVal → Bool
  | .nan => false
  | .inf s => s
  | .fin s _ _ => s

def xNeg : XVal → XVal
  | .nan => .nan
  | .inf s => .inf (!s)
  | .fin s m e => .fin (!s) m e

def xAbs : XVal → XVal
  | .nan => .nan
  | .inf _ => .inf false
  | .fin _ m e => .fin false m e

def xIsNaN : XVal → Bool
  | .nan => true
  | _ => false

def xIsInf : XVal → Bool
  | .inf _ => true
  | _ => false

def xIsZero : XVal → Bool
  | .fin _ 0 _ => true
  | _ => false

def xIsFin : XVal → Bool
  | .fin .. => true
  | _ => false

/-- The signed mantissa of a finite value moved to the exponent e' ≤ e. -/
def xInt (s : Bool) (m : Nat) (e e' : Int) : Int :=
  let n : Int := ((m <<< (e - e').toNat : Nat) : Int)
  if s then -n else n

/-- Exact addition; INVALID where NaN arises from operands that are not NaN (R51, R57). A zero sum is +0 unless both
addends are negative (IEEE 754). -/
def xAdd (a b : XVal) : XVal × NumFlags :=
  match a, b with
  | .nan, _ => (.nan, 0)
  | _, .nan => (.nan, 0)
  | .inf s, .inf t => if s = t then (.inf s, 0) else (.nan, nfInvalid)
  | .inf s, _ => (.inf s, 0)
  | _, .inf t => (.inf t, 0)
  | .fin s m e, .fin t k d =>
    let e' := min e d
    let n := xInt s m e e' + xInt t k d e'
    if n = 0 then (.fin (s && t) 0 e', 0) else (.fin (n < 0) n.natAbs e', 0)

/-- Exact multiplication (R51, R57). -/
def xMul (a b : XVal) : XVal × NumFlags :=
  match a, b with
  | .nan, _ => (.nan, 0)
  | _, .nan => (.nan, 0)
  | .inf s, .inf t => (.inf (s != t), 0)
  | .inf s, .fin t k _ => if k = 0 then (.nan, nfInvalid) else (.inf (s != t), 0)
  | .fin s m _, .inf t => if m = 0 then (.nan, nfInvalid) else (.inf (s != t), 0)
  | .fin s m e, .fin t k d => (.fin (s != t) (m * k) (e + d), 0)

/-- The flags of ONE operation on the operands vs (R57): INVALID is for a NaN that arose from operands none of which
was NaN. A fused operation (a multiply-add, a dot product into an accumulator, a component of a complex product) is one
operation (DEDUCED, log entry 87). -/
def opFlags (vs : List XVal) (f : NumFlags) : NumFlags := if vs.any xIsNaN then f &&& ~~~nfInvalid else f

/-- Exact a*b + c. -/
def xFma (a b c : XVal) : XVal × NumFlags :=
  let p := xMul a b
  let r := xAdd p.1 c
  (r.1, opFlags [a, b, c] (p.2 ||| r.2))

/-- The exact sum of a list, from +0 (each partial sum exact). -/
def xSum : List XVal → XVal × NumFlags
  | [] => (.fin false 0 0, 0)
  | [v] => (v, 0)
  | v :: t =>
    let r := xSum t
    let u := xAdd v r.1
    (u.1, u.2 ||| r.2)

/-- The quotient, exact to at least 140 bits with a sticky last bit, so that one rounding of it to any format of R38,
nearest or stochastic, is the rounding of the exact quotient. DIV_ZERO and INVALID as R51. -/
def xDiv (a b : XVal) : XVal × NumFlags :=
  match a, b with
  | .nan, _ => (.nan, 0)
  | _, .nan => (.nan, 0)
  | .inf _, .inf _ => (.nan, nfInvalid)
  | .inf s, .fin t _ _ => (.inf (s != t), 0)
  | .fin s _ _, .inf t => (.fin (s != t) 0 0, 0)
  | .fin s m e, .fin t k d =>
    if k = 0 then (if m = 0 then (.nan, nfInvalid) else (.inf (s != t), nfDivZero))
    else if m = 0 then (.fin (s != t) 0 0, 0)
    else
      let sh := 140 + Nat.log2 k
      let n := m <<< sh
      (.fin (s != t) (2 * (n / k) + (if n % k = 0 then 0 else 1)) (e - d - sh - 1), 0)

/-- Integer square root, one result bit at a time from bit i down. -/
def isqrtFrom : Nat → Nat → Nat → Nat
  | 0, _, r => r
  | i + 1, n, r =>
    let c := r + 2 ^ i
    isqrtFrom i n (if c * c ≤ n then c else r)

/-- floor(sqrt n). -/
def isqrt (n : Nat) : Nat := isqrtFrom (Nat.log2 n / 2 + 1) n 0

/-- The square root, exact to at least 140 bits with a sticky last bit (R51). The root of -0 is -0. -/
def xSqrt (a : XVal) : XVal × NumFlags :=
  match a with
  | .nan => (.nan, 0)
  | .inf false => (.inf false, 0)
  | .inf true => (.nan, nfInvalid)
  | .fin s m e =>
    if m = 0 then (.fin s 0 0, 0)
    else if s then (.nan, nfInvalid)
    else
      let sh := 300 + (if e % 2 = 0 then 0 else 1)
      let n := m <<< sh
      let r := isqrt n
      (.fin false (2 * r + (if r * r = n then 0 else 1)) ((e - sh) / 2 - 1), 0)

/-- Order of two values that are not NaN: is a < b (the two zeros equal)? -/
def xLt (a b : XVal) : Bool :=
  match a, b with
  | .nan, _ => false
  | _, .nan => false
  | .inf s, .inf t => s && !t
  | .inf s, _ => s
  | _, .inf t => !t
  | .fin s m e, .fin t k d =>
    let e' := min e d
    decide (xInt s m e e' < xInt t k d e')

/-- Equality of two values as numbers: NaN equals nothing, the two zeros are equal. -/
def xEq (a b : XVal) : Bool :=
  match a, b with
  | .nan, _ => false
  | _, .nan => false
  | _, _ => !(xLt a b) && !(xLt b a)

/-- E8M0 (R41): the scale 2^(e-127), or NaN for 0xFF. -/
def e8m0 (b : Nat) : XVal := if b = 255 then .nan else .fin false 1 ((b : Int) - 127)

/-- The largest magnitude of a block of finite values, as an exact value (+0 for a block of zeros). -/
def xAmax : List XVal → XVal
  | [] => .fin false 0 0
  | v :: t => let r := xAmax t; let a := xAbs v; if xLt r a then a else r

/-- The shared exponent of a block (R48): clamp(floor(log2 amax) - emax, -127, 127). -/
def mxShared (emax : Int) (amax : XVal) : Int :=
  match amax with
  | .fin _ m e => clampI (-127) 127 (xlog2 m e - emax)
  | _ => 0

/-- v / 2^k, exactly. -/
def xScale (v : XVal) (k : Int) : XVal :=
  match v with
  | .fin s m e => .fin s m (e + k)
  | w => w

/-- The scale of a block written in an MX format (R48), and the flags the block itself sets. -/
def mxScale (emax : Int) (vs : List XVal) : Nat × NumFlags :=
  if vs.any (fun v => xIsNaN v || xIsInf v) then
    (255, nfMxNan ||| (if vs.any xIsNaN then nfNanLost else 0) ||| (if vs.any xIsInf then nfInfLost else 0))
  else if xIsZero (xAmax vs) then (0, 0)
  else ((mxShared emax (xAmax vs) + 127).toNat, 0)

/-- The exact value that is narrowed to the element of a block with scale byte sc: v / 2^(sc-127); zero for a NaN
scale and for a block of zeros (R48). -/
def mxElem (sc : Nat) (allZero : Bool) (v : XVal) : XVal :=
  if sc = 255 ∨ allZero then .fin false 0 0 else xScale v (127 - (sc : Int))

end Sys2Proof.Machine
end

