-- ==== Sys2Proof/Machine/Approx.lean ====
section
/-! DEFINITION. exp, natural log and reciprocal square root with the accuracies of R133 and R158: a free candidate is
the result wherever it lies within the accuracy stated, and the correctly rounded value otherwise. -/

namespace Sys2Proof.Machine

/-- Fraction bits of the fixed-point series. -/
def fxP : Nat := 256

/-- 2 * atanh(1/n) = ln((n+1)/(n-1)) summed to the fixed-point precision: terms i of (1/n)^(2i+1)/(2i+1). -/
def atanhInv (n : Nat) : Nat → Nat → Nat → Nat
  | 0, _, _ => 0
  | t + 1, i, p => 2 * p / (2 * i + 1) + atanhInv n t (i + 1) (p / (n * n))

/-- ln 2 = 2 atanh(1/3), in fixed point. -/
def fxLn2 : Nat := atanhInv 3 90 0 (2 ^ fxP / 3)

/-- The Taylor series of exp from term i on: `p` is the current term. -/
def expSeries (r : Nat) : Nat → Nat → Nat → Nat
  | 0, _, _ => 0
  | t + 1, i, p => p + expSeries r t (i + 1) (p * r / 2 ^ fxP / (i + 1))

/-- exp of a finite value as an exact dyadic number within 2^-200 of it, relatively; far beyond every format's range a
power of two of the same side. -/
def refExp (v : XVal) : XVal :=
  match v with
  | .fin s m e =>
    if m = 0 then .fin false 1 0
    else if 12 < xlog2 m e then (if s then .fin false 1 (-5000) else .fin false 1 5000)
    else
      let x : Int := (if s then -1 else 1) *
        (((if 0 ≤ e + fxP then m <<< (e + fxP).toNat else m >>> (-(e + fxP)).toNat : Nat)) : Int)
      let k : Int := x / fxLn2
      let r : Nat := (x - k * fxLn2).toNat
      .fin false (expSeries r 60 0 (2 ^ fxP)) (k - fxP)
  | w => w

/-- The series of 2 atanh(z) from term i on, z2 the square of z in fixed point. -/
def atanhSeries (z2 : Nat) : Nat → Nat → Nat → Nat
  | 0, _, _ => 0
  | t + 1, i, p => 2 * p / (2 * i + 1) + atanhSeries z2 t (i + 1) (p * z2 / 2 ^ fxP)

/-- log of a positive finite value within 2^-240 absolutely. -/
def refLog (v : XVal) : XVal :=
  match v with
  | .fin _ m e =>
    let l := xlog2 m e
    let f : Nat := (m <<< fxP) >>> Nat.log2 m
    let z : Nat := ((f - 2 ^ fxP) <<< fxP) / (f + 2 ^ fxP)
    let y : Int := (atanhSeries (z * z / 2 ^ fxP) 90 0 z : Nat) + l * (fxLn2 : Nat)
    .fin (y < 0) y.natAbs (-(fxP : Int))
  | w => w

/-- 1 / sqrt of a positive finite value, relatively within 2^-130. -/
def refRsqrt (v : XVal) : XVal := (xDiv (.fin false 1 0) (xSqrt v).1).1

/-- |a - b| at most 2^-n * |b|, or at most 2^k. -/
def within (a b : XVal) (n : Nat) (k : Option Int) : Bool :=
  match a, b with
  | .fin .., .fin _ m e =>
    let d := xAbs (xAdd a (xNeg b)).1
    !(xLt (.fin false m (e - n)) d) || (match k with | some j => !(xLt (.fin false 1 j) d) | none => false)
  | _, _ => false

/-- Bits of relative accuracy: exp and log 22 or 50, rsqrt 23 or 51 (R158); in-bank exp 21 (R133). -/
def accBits (op : Nat) (wide : Bool) : Nat :=
  match op with
  | 2 => if wide then 51 else 23
  | 3 => 21
  | _ => if wide then 50 else 22

/-- The result in format f of operation op (0 exp, 1 log, 2 rsqrt, 3 in-bank exp) of an operand whose encoding is raw
and whose reference value is ref: the free candidate where it lies within the stated accuracy (for log below 1 the
absolute one; for results in the subnormal range one step), the rounded reference otherwise. -/
def approxPick (op : Nat) (f : FFmt) (wide satn : Bool) (raw : Nat) (ref : XVal) : Nat × NumFlags :=
  let r := fenc f none satn ref
  let c := Config.approx op (f.bits * 2 + (if wide then 1 else 0)) raw
  let step : Int := 1 - (f.bias : Int) - f.mb
  let abs_ : Option Int :=
    if op = 1 ∧ xLt (xAbs ref) (.fin false 1 0) then some (-(accBits op wide : Int)) else some step
  if r.2 = 0 && c < 2 ^ f.bits && within (fdec f c) ref (accBits op wide) abs_ &&
      (xneg? (fdec f c) == xneg? ref || op == 1) then (c, 0) else r

/-- exp with the special results of R158. exp(0) is 1: R326 and R374 state results that hold only so (log entry 89). -/
def fExp (op : Nat) (f : FFmt) (wide satn : Bool) (raw : Nat) (v : XVal) : Nat × NumFlags :=
  match v with
  | .nan => (canonNaN f, 0)
  | .inf true => (0, 0)
  | .inf false => fenc f none satn (.inf false)
  | .fin _ m _ => if m = 0 then fenc f none satn (.fin false 1 0) else approxPick op f wide satn raw (refExp v)

/-- Natural log with the special results of R158. log(1) is +0, as the LSE of R326 has it (log entry 89). -/
def fLog (f : FFmt) (wide satn : Bool) (raw : Nat) (v : XVal) : Nat × NumFlags :=
  match v with
  | .nan => (canonNaN f, 0)
  | .inf true => (canonNaN f, nfInvalid)
  | .inf false => fenc f none satn (.inf false)
  | .fin s m _ =>
    if m = 0 then ((fenc f none satn (.inf true)).1, nfDivZero)
    else if s then (canonNaN f, nfInvalid)
    else if xEq v (.fin false 1 0) then (0, 0)
    else approxPick 1 f wide satn raw (refLog v)

/-- Reciprocal square root with the special results of R158. -/
def fRsqrt (f : FFmt) (wide satn : Bool) (raw : Nat) (v : XVal) : Nat × NumFlags :=
  match v with
  | .nan => (canonNaN f, 0)
  | .inf true => (canonNaN f, nfInvalid)
  | .inf false => (0, 0)
  | .fin s m _ =>
    if m = 0 then ((fenc f none satn (.inf s)).1, nfDivZero)
    else if s then (canonNaN f, nfInvalid)
    else approxPick 2 f wide satn raw (refRsqrt v)

end Sys2Proof.Machine
end

