-- ==== Sys2Proof/Machine/Addr.lean ====
section
/-! DEFINITION. The address map (R273-R279, R97-R100, R215, R276), channel and bank numbering (R17, R96), and the
addresses of register blocks. A LOCATION is the local address that names a byte canonically: a DRAM byte by its
bank-linear address (R99, R100), every other byte by its own local address. -/

namespace Sys2Proof.Machine

open Sys2Proof.Config (Grade cores)

/-- Device number of a global address (R273). -/
def gDev (a : Nat) : Nat := nfld a 55 50

/-- Local address of a global address (R273). -/
def gLoc (a : Nat) : Nat := a % 2 ^ 50

def ilvEnd : Nat := 0x012000000000
def blinBase : Nat := 0x100000000000
def blinEnd : Nat := 0x118000000000
def spdBase : Nat := 0x200000000000
def spdEnd : Nat := 0x210000000000
def cmnBase : Nat := 0x210000000000
def cmnEnd : Nat := 0x210008000000
def csrBase : Nat := 0x300000000000
def csrEnd : Nat := 0x300E00000000
def aprBase : Nat := 0x380000000000
def aprEnd : Nat := 0x400000000000

/-- The interleaved map of R98: the bank-linear address of interleaved address a. -/
def ilvToLin (a : Nat) : Nat :=
  let l := a >>> 8
  let w := a % 256
  let q := l / 384
  let r := l % 384
  let h := (q ^^^ (q >>> 7) ^^^ (q >>> 14)) % 512
  let gch := (r + h) % 384
  let row := q / 32
  let bank := (q % 32) ^^^ (row % 32)
  let g := gch * 32 + bank
  let o := row * 256 + w
  blinBase + g * 0x8000000 + o

/-- The bank-linear address of byte o of global bank g (R99). -/
def bankAddr (g o : Nat) : Nat := blinBase + g * 0x8000000 + o

/-- What a local address names (R275, R276). -/
inductive Region where
  | dram | spd | cmn | csr | aperture | noCore | unpopulated
  deriving DecidableEq, Repr

/-- The region of a local address (R97, R99, R215, R275, R276). -/
def region (gr : Grade) (a : Nat) : Region :=
  if a < ilvEnd then .dram
  else if a < blinBase then .unpopulated
  else if a < blinEnd then (if (a - blinBase) % 0x8000000 < 0x6000000 then .dram else .unpopulated)
  else if a < spdBase then .unpopulated
  else if a < spdEnd then
    (if cores gr ≤ (a - spdBase) / 0x800000 then .noCore
     else if (a - spdBase) % 0x800000 < 0x600000 then .spd else .unpopulated)
  else if a < cmnEnd then .cmn
  else if a < csrBase then .unpopulated
  else if a < csrEnd then
    (if 0x300100000000 ≤ a ∧ a < 0x300200000000 ∧ cores gr ≤ (a - 0x300100000000) / 0x100000 then .noCore else .csr)
  else if a < aprBase then .unpopulated
  else if a < aprEnd then .aperture
  else .unpopulated

/-- The location of a local address (R100): DRAM by its bank-linear address. -/
def locOf (a : Nat) : Nat := if a < ilvEnd then ilvToLin a else a

/-- Is this location a DRAM byte? -/
def isDramLoc (l : Nat) : Bool := blinBase ≤ l && l < blinEnd

/-- Is this location a scratchpad byte? -/
def isSpdLoc (l : Nat) : Bool := spdBase ≤ l && l < spdEnd

/-- Global bank of a DRAM location (R99). -/
def locBank (l : Nat) : Nat := (l - blinBase) / 0x8000000

/-- Bank offset of a DRAM location (R99). -/
def locOff (l : Nat) : Nat := (l - blinBase) % 0x8000000

/-- Global channel of a DRAM location (R17). -/
def locChan (l : Nat) : Nat := locBank l / 32

/-- Core of a scratchpad location (R215). -/
def locCore (l : Nat) : Nat := (l - spdBase) / 0x800000

/-- Scratchpad offset of a scratchpad location. -/
def locSpdOff (l : Nat) : Nat := (l - spdBase) % 0x800000

/-- Window of core c (R215). -/
def spdWin (c : Nat) : Nat := spdBase + c * 0x800000

/-- Stack of a global channel, paddock of a stack (R17, R96). -/
def chanStack (g : Nat) : Nat := g / 32
def stackPdk (s : Nat) : Nat := s / 3

/-- Paddock of a logical core (R16). -/
def corePdk (gr : Grade) (c : Nat) : Nat := c / Config.coresPerPdk gr

/-- The stored unit a location lies in: the 32-byte DRAM word (R423) or the 8-byte SRAM granule (R224, R596). -/
def unitOf (l : Nat) : Nat := if isDramLoc l then l / 32 * 32 else l / 8 * 8

/-- Bytes in the unit of a location. -/
def unitLen (l : Nat) : Nat := if isDramLoc l then 32 else 8

/-- Register addresses (R276 and the chapters' strides). -/
def glbReg (o : Nat) : Nat := 0x300000000000 + o
def coreReg (c o : Nat) : Nat := 0x300100000000 + c * 0x100000 + o
def pdkReg (o : Nat) : Nat := 0x300200000000 + o
def stkReg (s o : Nat) : Nat := 0x300300000000 + s * 0x100000 + o
def chnReg (g o : Nat) : Nat := 0x300301000000 + g * 0x1000 + o
def srvReg (o : Nat) : Nat := 0x300400000000 + o
def drvReg (o : Nat) : Nat := 0x300500000000 + o
def ringReg (n w : Nat) : Nat := 0x300500100000 + 64 * n + 8 * w
def dbReg (n o : Nat) : Nat := 0x300501000000 + 64 * n + o
def fldReg (f o : Nat) : Nat := 0x300600000000 + f * 0x1000 + o
def swvReg (o : Nat) : Nat := 0x300700000000 + o
def hifReg (o : Nat) : Nat := 0x300800000000 + o
def secReg (o : Nat) : Nat := 0x300900000000 + o
def thmReg (o : Nat) : Nat := 0x300A00000000 + o
def eccReg (o : Nat) : Nat := 0x300B00000000 + o
def lifReg (o : Nat) : Nat := 0x300C00000000 + o
def crkReg (o : Nat) : Nat := 0x300D00000000 + o

end Sys2Proof.Machine
end

