-- ==== Sys2Proof/Machine/State.lean ====
section
/-! DEFINITION. The state of the block as plain data, the reasons a step can stop, and the state after reset.
Stored registers live in `regs` under their local addresses (R276); a register that shows other state (a tally, a
flag, a channel's status) is computed from that state when it is read (Machine/Regs.lean). -/

namespace Sys2Proof.Machine

open Sys2Proof.Config (Grade)

/-- Why the machine stops with a fault. -/
inductive Fault where
  /-- Raised by a command whose operand names a unit the package does not have (a core, queue, channel, stack,
  link, ring, fold or function number out of the ranges of R3, R17, R96, R393, R415, R458, R488): no such
  occurrence exists. Safe: the machine stops where the hardware has nothing to go on with. -/
  | noSuchUnit
  deriving DecidableEq, Repr

/-- Why a command has no meaning here. -/
inductive Refusal where
  /-- Raised by an arm of Machine/Dispatch.lean whose command is not modelled. Safe. -/
  | notModelled (mnemonic : String)
  deriving DecidableEq, Repr

/-- The answer of every meaning. -/
abbrev Out (σ : Type) := Host.Outcome σ Fault Refusal

/-- The type of an accumulator entry (R65). -/
inductive AccTy where
  | unset | fp32 | int32 | int48
  deriving DecidableEq, Repr, Inhabited

/-- An address register (R184). -/
structure AReg where
  origin : BitVec 56 := 0
  off : BitVec 64 := 0
  istr : BitVec 32 := 0
  ostr : BitVec 32 := 0
  wrap : BitVec 48 := 0
  wlo : BitVec 56 := 0
  whi : BitVec 56 := 0
  deriving DecidableEq, Repr, Inhabited

/-- A completion record before it is written (R208): PHASE and STAMP are added when it is. -/
structure Rec where
  tag : Nat
  status : Nat
  engine : Nat
  context : Nat
  core : Nat
  kind : Nat := 0
  inner : Nat := 0
  outer : Nat := 0
  count : Nat := 0
  irq : Bool := false
  /-- an output record of the serving engine carries its words here (R355) -/
  words : Option (Word × Word × Word) := none
  deriving DecidableEq, Repr, Inhabited

/-- The expander's recursion over the blocks of an MMA (R269): t, S, and the r of the last four blocks of each port,
newest first. -/
structure ExpSt where
  t : Int := -24
  s : Int := 0
  ra : List Int := []
  rb : List Int := []
  deriving DecidableEq, Repr, Inhabited

/-- One write of a transfer's repeat in the order of R235: a global address, the bytes, the bits of a single byte that
are written (R238), its weight in COUNT and on a tally (R247), and whether an element goes on in the next piece (R255). -/
structure Piece where
  addr : Nat
  data : List Byte
  mask : Byte := 0xFF
  weight : Nat := 0
  cont : Bool := false
  deriving DecidableEq, Repr, Inhabited

/-- A run of bytes of a DMA.PUT on its way inside the device (R249, R250): local address, data, what it adds to which
tally, for which fold. -/
structure PutB where
  addr : Nat
  data : List Byte
  mask : Byte := 0xFF
  weight : Nat
  unit : Nat
  num : Nat
  fold : Nat
  /-- the repeat that issued it: runs of one repeat that name a byte take effect on it in order (R239) -/
  key : Nat := 0
  /-- toward host memory: Relaxed Ordering is permitted (R287, R299) -/
  relaxed : Bool := true
  deriving DecidableEq, Repr, Inhabited

/-- Whose operation has sent ordinary accesses and waits for them (R111, R253): a command of a queue, its posted writes,
the launch unit, a ring member's fetch, a service ring, a model's firmware work, a request's, a core's context change, a
write that counts as a whole on a tally, a host read or atomic, a request of another member. -/
inductive Owner where
  | queue (c q x : Nat)
  | posted (c q x : Nat)
  | unit (c x : Nat)
  | fetch (ring member : Nat)
  | service (ring : Nat)
  | model (m : Nat)
  | request (req : Nat)
  | core (c : Nat)
  | tally (unit num weight : Nat)
  | host (fn a len : Nat)
  | hostAtomic (size : Nat)
  | peer (m : Msg)
  deriving DecidableEq, Repr

/-- A DRAM word as a held read found it when its channel served it: its location, its bytes as held, and what its codeword
differs in (R113). -/
structure Cap where
  unit : Nat
  data : List Byte
  err : BitVec 288
  deriving DecidableEq, Repr

/-- The ordinary accesses of one operation, from their sending to the operation's end: its number, the fold, the byte runs
it reads, requests not sent yet (R252), how many are in hold queues, what the others found, an atomic's old value (none
where its word was uncorrectable), and whether a write of it was dropped (R427). -/
structure Ask where
  id : Nat
  owner : Owner
  fold : Option Nat := none
  runs : List (Nat × Nat) := []
  todo : List (Nat × Nat) := []
  left : Nat := 0
  got : List Cap := []
  old : Option (Option Nat) := none
  dropped : Bool := false
  deriving DecidableEq, Repr

/-- A command of a queue between its issue and its end (R186). -/
structure Run where
  cmd : Cmd
  /-- repeats done, counted over inner and outer -/
  pos : Nat := 0
  /-- COUNT so far, in the unit of R209 -/
  count : Nat := 0
  /-- DEV_TIME at issue -/
  issued : Nat := 0
  /-- a resource wait: when it began, and its limit in ticks, 0 none (R199, R213) -/
  waiting : Option (Nat × Nat) := none
  /-- held at a WAIT, HURDLE, WAIT_TALLY or resource -/
  held : Bool := false
  /-- HURDLE: which arrival this is (R191); WAIT: when another WAIT last took counts it waits for (R201) -/
  aux : Nat := 0
  /-- SC.BLOCK: the command of the block that is held, and when it issued -/
  sub : Option Cmd := none
  subAt : Nat := 0
  /-- bytes of a layout descriptor read at issue (R232) -/
  desc : List Byte := []
  /-- a transfer's repeat in progress: it has begun, what is left of it, the COUNT of what it has written, and the
  status it ends with where a source byte could not be read (R255) -/
  begun : Bool := false
  todo : List Piece := []
  moved : Nat := 0
  fail : Option Nat := none
  exp : ExpSt := {}
  /-- the number of the transfer's repeat in progress (R239) -/
  key : Nat := 0
  /-- types that accumulator entries had when it issued, where it has changed them (R95) -/
  tys : List (Nat × AccTy) := []
  deriving DecidableEq, Repr, Inhabited

/-- A command of the launch unit between its issue and its record (R139-R150, R313). -/
structure LRun where
  /-- AR0 as the command found it, and as the whole command leaves it in its queue (R186) -/
  ar : AReg := {}
  arEnd : AReg := {}
  /-- AR1 of an attention dispatch, likewise -/
  ar1 : AReg := {}
  ar1End : AReg := {}
  /-- items of the repeats launched (R320) -/
  items : Nat := 0
  /-- repeats launched so far, and the launches of each -/
  pos : Nat := 0
  ids : List (List Nat) := []
  /-- the repeat that ends it, with status and CAUSE (R150, R199) -/
  stop : Option (Nat × Nat × Nat) := none
  cancel : Bool := false
  issued : Nat := 0
  waiting : Option (Nat × Nat) := none
  deriving DecidableEq, Repr, Inhabited

/-- A command dispatched before others whose record is not written yet: R178 keeps the records in dispatch order
while a launch runs on beside later transfers (R139). -/
structure Open where
  cmd : Cmd
  /-- its record once it has ended -/
  fin : Option Rec := none
  /-- its record while writes of the queue are still in hold queues (R111, R283) -/
  post : Option Rec := none
  /-- it is the transfer that runs now, ahead of a launch that has been passed to the launch unit (R139) -/
  runs : Bool := false
  /-- the launch unit's work on it -/
  lu : Option LRun := none
  deriving DecidableEq, Repr, Inhabited

/-- A staged SC.ARW write: register, field, value (R174). -/
structure Staged where
  reg : Nat
  field : Nat
  value : Word
  deriving DecidableEq, Repr, Inhabited

/-- The block buffer of a scalar context (R172, R173): how many commands it takes, those fetched so far, the next
position, the last one executed, and how many have been executed. -/
structure Blk where
  need : Nat := 0
  cmds : List Cmd := []
  pos : Nat := 0
  last : Nat := 0
  done : Nat := 0
  deriving DecidableEq, Repr, Inhabited

/-- One of the eight contexts of a queue (R176). -/
structure QCtx where
  bound : Bool := false
  ring : Nat := 0
  member : Nat := 0
  /-- the input buffer, oldest first, at most 32 (R177), and when it last became full -/
  buf : List Cmd := []
  fullAt : Nat := 0
  run : Option Run := none
  opens : List Open := []
  /-- records that wait for room in the completion area (R399) -/
  waiting : List Rec := []
  halted : Bool := false
  suspended : Bool := false
  /-- the last finished command carried YMARK and the next has not issued (R402) -/
  atMark : Bool := false
  /-- tag of the last finished command, and the index of the next command (R405) -/
  lastTag : Nat := 0
  nextIdx : Nat := 0
  /-- HURDLE n: how many of this queue have been reached (R191) -/
  hurdles : Tab Nat := []
  staged : List Staged := []
  blk : Option Blk := none
  /-- it has passed a FENCE: its writes to host memory stay behind the earlier ones (R299) -/
  fenced : Bool := false
  deriving DecidableEq, Repr, Inhabited

/-- A service command between its acceptance and its record: records follow ring order (R334, R347). -/
structure SOpen where
  id : Nat
  tag : Nat
  irq : Bool
  fin : Option Rec := none
  deriving DecidableEq, Repr, Inhabited

/-- The runtime state of a ring (R394-R400). Its descriptor words lie in `regs`. -/
structure RingSt where
  /-- 0 DISABLED, 1 ENABLED, 2 SUSPENDED, 3 HALTED, 4 STOPPING -/
  state : Nat := 0
  err : Nat := 0
  /-- per member: fetch position and TAIL -/
  fetch : List Nat := []
  tail : List Nat := []
  /-- per member: halted, suspended, and, for a member that a switch has displaced, the live ranges in its save slot
  (R404, R405): local address and length -/
  halted : List Bool := []
  suspended : List Bool := []
  saved : List (Option (List (Nat × Nat))) := []
  /-- completion write position, PHASE, CPL_HEAD -/
  wpos : Nat := 0
  phase : Bool := true
  cplHead : Nat := 0
  /-- pending interrupt records and the time of the first (R400) -/
  pendIrq : Nat := 0
  firstIrq : Nat := 0
  /-- records of a service ring that wait for room (R355, R399) -/
  waiting : List Rec := []
  /-- a service ring: the RING.SUSPEND that waits for launches to end, under its number (R412) -/
  acting : Option (Nat × Cmd) := none
  /-- per member: the command line that the fetch unit has read and could not dispatch yet (R177) -/
  line : List (List Byte) := []
  /-- accepted service commands whose records are not written yet -/
  opens : List SOpen := []
  deriving DecidableEq, Repr, Inhabited

/-- A core as the drover and its queues see it. -/
structure CoreSt where
  /-- the ring of classes 1-3 that has the core, and its context -/
  running : Option (Nat × Nat) := none
  /-- the ring of classes 1-3 whose context had the matrix queue last (R68) -/
  matrixRing : Option Nat := none
  /-- per queue: the context that runs now -/
  cur : List (Option Nat) := [none, none, none, none]
  /-- per queue: the context a class-0 context displaced (R408) -/
  displaced : List (Option (Option Nat)) := [none, none, none, none]
  /-- a switch request: the incoming ring and when it was made (R402, R406) -/
  request : Option (Nat × Nat) := none
  /-- when the running ring's quantum began (R402) -/
  quantum : Nat := 0
  /-- no switch request before this time (R406) -/
  retry : Nat := 0
  /-- when the contexts of its queues last changed, or what else is ready there (R200, R201) -/
  changed : Nat := 0
  /-- draws taken from the stochastic-rounding stream (R54) -/
  draws : Nat := 0
  /-- until when the matrix and the vector engine wait out the issue rate (R540) -/
  slow : List Nat := [0, 0]
  /-- register parity errors in this graze period (R444) -/
  parErrs : Nat := 0
  /-- the last MMA's final t of R269 less its stall-free length -/
  expLast : Int := -24
  deriving DecidableEq, Repr, Inhabited

/-- Data on its way up from a bank to a scratchpad: a tapped word or a result word (R116, R137). -/
structure Up where
  launch : Nat
  isTap : Bool
  /-- local address of its first byte, and the bytes -/
  addr : Nat
  data : List Byte
  core : Nat
  tally : Nat
  deriving DecidableEq, Repr, Inhabited

/-- One level of a slot's loop stack (R127). -/
structure LoopF where
  first : Nat
  last : Nat
  iter : Nat
  total : Nat
  /-- LOOPB: the count of each bank that was active at entry; none for LOOP -/
  counts : Option (List (Nat × Nat)) := none
  deriving DecidableEq, Repr, Inhabited

/-- A channel (R101, R102, R111, R117, R121, R123). -/
structure Chan where
  mode : Nat := 0
  slot : Nat := 0
  /-- hold queue, at most 64, and the accesses kept at the hub behind it -/
  hold : List Access := []
  spill : List Access := []
  /-- since when the hold queue has been full (R122) -/
  fullAt : Option Nat := none
  /-- launch queue in arrival order, at most 8; its head runs -/
  launches : List Nat := []
  /-- the head launch has loaded its bank records -/
  started : Bool := false
  /-- program memory, broadcast buffer, uniform arguments -/
  prog : List Word := []
  bcast : List Byte := []
  u : List (BitVec 32) := [0, 0, 0, 0]
  /-- per power slot: PC, loop stack, ended -/
  pc : List Nat := [0, 0]
  loops : List (List LoopF) := [[], []]
  ended : List Bool := [false, false]
  /-- NBU cycles used of the bout's 3,800, and bytes in the tap buffer (R109, R117) -/
  used : Nat := 0
  tapBytes : Nat := 0
  up : List Up := []
  /-- rows tapped so far in the launch, per bank in the order first read (R116) -/
  rows : Tab (List Nat) := []
  /-- a fault of the running program: its status (R149) -/
  fault : Option Nat := none
  /-- committed to leave (R108); order of arrival or of interruption (R107) -/
  committed : Bool := false
  interrupted : Bool := false
  order : Nat := 0
  /-- launches to be dropped at the bout's end (R145, R150) -/
  dropping : List Nat := []
  /-- spare TSVs used (R443) -/
  tsvs : Nat := 0
  /-- NBU cycles that the next bout spends on moving a bank's NBU state to its spare (R128, R441) -/
  move : Nat := 0
  deriving DecidableEq, Repr, Inhabited

/-- An accumulator set of an NBU (R123): 128 FP32 lanes, M, L, LP. -/
structure AccSet where
  o : Tab (BitVec 32) := []
  m : BitVec 32 := 0
  l : BitVec 32 := 0
  lp : Nat := 0
  deriving DecidableEq, Repr, Inhabited

/-- The registers of one NBU (R123). -/
structure Nbu where
  v : List (BitVec 256) := List.replicate 8 0
  acc : List AccSet := List.replicate 4 {}
  p : List (BitVec 32) := List.replicate 8 0
  pos : BitVec 24 := 0
  deriving DecidableEq, Repr, Inhabited

/-- A bank of a segment (R317, R318): its number in the channel, the index of its triples, and its pages: block and bank
offset. -/
structure AttnBank where
  bank : Nat
  j : Nat
  pages : List (Nat × Nat)
  deriving DecidableEq, Repr, Inhabited

/-- What a launch of ATTN.DISPATCH computes (R314-R318): item, queries as (qpos', W', EMPTY) each token, G, the query
bytes, SC, the pool's KFMT, D and T, the triple array, TRIMAX, the tally. -/
structure AttnJob where
  item : Nat
  toks : List (Nat × Nat × Bool)
  g : Nat
  q : List Byte
  sc : BitVec 32
  kfmt : Nat
  d : Nat
  t : Nat
  tri : Nat
  trimax : Nat
  unit : Nat
  num : Nat
  deriving DecidableEq, Repr, Inhabited

/-- One entry of a launch's channel table with its bank records (R141). -/
structure LaunchCh where
  chan : Nat
  tapBase : Nat
  resBase : Nat
  /-- per bank: P0-P7 and POS -/
  recs : List (List (BitVec 32) × BitVec 24) := []
  /-- an attention dispatch: its banks, and the cycles each slot still needs -/
  attn : List AttnBank := []
  work : List Nat := []
  /-- 0 waiting or running, 1 finished, 2 dropped, 3 faulted; and the status of the fault -/
  state : Nat := 0
  status : Nat := 0
  deriving DecidableEq, Repr, Inhabited

/-- A launch from its validation to its end (R139-R145). -/
structure Launch where
  core : Nat := 0
  ctx : Nat := 0
  ring : Nat := 0
  fold : Nat := 0
  tag : Nat := 0
  /-- repeat of its command -/
  rep : Nat := 0
  prog : List Word := []
  bcast : List Byte := []
  mask : Nat := 0
  hdim : Nat := 0
  u : List (BitVec 32) := []
  tapEn : Bool := false
  tapBs : Nat := 0
  tapTally : Nat := 0
  resEn : Bool := false
  /-- result bank stride in bytes -/
  resBs : Nat := 0
  resTally : Nat := 0
  chans : List LaunchCh := []
  /-- holds staging places and has entered its channels (R142) -/
  admitted : Bool := false
  /-- an attention dispatch (R317) -/
  attn : Option AttnJob := none
  /-- order of its arrival (R107) -/
  arr : Nat := 0
  /-- its fault has reached the launch unit (R150) -/
  told : Bool := false
  deriving DecidableEq, Repr, Inhabited

/-- A stack (R428, R438). -/
structure Stack where
  /-- repair queue: word locations with the time they entered -/
  repairs : List (Nat × Nat) := []
  deriving DecidableEq, Repr, Inhabited

/-- Power-up and reset (chapters 01, 21, 22). -/
structure Boot where
  /-- rails within tolerance, in the order VSTBY, VIN_SDS_A, VIN_SDS_B, VIN_MEM, VIN_CORE (R564) -/
  rails : List Bool := [true, true, true, true, true]
  pwrgd : Bool := true
  perst : Bool := true
  /-- THERMTRIP_N is asserted (R549) -/
  thermtrip : Bool := false
  /-- STATE of GLB_BOOT_STATUS (R563): 0 while it cannot be read -/
  state : Nat := 1
  /-- STEP, CAUSE, EXH_PDK, RESET_CAUSE, SEQ_ERR and STRAP_BOOT of R566 and R577 -/
  step : Nat := 1
  cause : Nat := 0
  exh : Nat := 0
  /-- a cold reset whose life-log scan is still to come, since no reference qualified (R30, R567) -/
  scan : Bool := false
  resetCause : Nat := 1
  seqErr : Bool := false
  strap : Nat := 0
  /-- the images that verified, in the order of the bundle (R570), and those in the SPI flash (R573) -/
  images : List ImageCheck := []
  flash : List ImageCheck := []
  /-- step 6 of R567 has ended -/
  joined : Bool := false
  /-- the recovery window (R572): NEXT_OFF, OVER, the chunk being copied with its LAST bit, a bundle being verified, the
  bytes of the buffer -/
  rcvNext : Nat := 0
  rcvOver : Bool := false
  rcvJob : Option (Nat × Bool) := none
  rcvCheck : Bool := false
  rcvBuf : Tab Byte := []
  /-- the rails came up out of order, and PWRGD has not been cycled since (R564) -/
  stuck : Bool := false
  /-- the next cold reset follows a shutdown or trip (R549, R577) -/
  tripped : Bool := false
  /-- the JTAG instruction in effect: 0 BYPASS, 1 IDCODE, 2 boundary scan, another -/
  jtag : Nat := 1
  /-- I3C dynamic address (R590) -/
  i3c : Option Nat := none
  deriving DecidableEq, Repr, Inhabited

/-- A link beside its SWV_LINK_STATUS (R459-R465, R552). -/
structure LinkSt where
  /-- keys are installed (R462) -/
  keys : Bool := false
  /-- a group was NAKed for its tag (R462) -/
  macMiss : Bool := false
  /-- the flit last replayed, and how often in a row (R464) -/
  replaySeq : Nat := 0
  replays : Nat := 0
  /-- groups closed under the present keys (R462) -/
  groups : Nat := 0
  /-- lane out for re-equalisation, and when the last one began (R551) -/
  reeq : Option Nat := none
  reeqAt : Option Nat := none
  /-- lanes that the governor holds idle (R465) -/
  idle : BitVec 4 := 0
  deriving DecidableEq, Repr, Inhabited

/-- A member's read of host memory that the lead has issued for it (R498, R506). -/
structure HostReq where
  id : Nat
  dev : Nat
  fn : Nat
  addr : Nat
  len : Nat
  issued : Nat
  deriving DecidableEq, Repr, Inhabited

/-- The fabric (chapter 17). -/
structure Fab where
  links : Tab LinkSt := []
  /-- when bring-up or a domain reset began (R474, R479) -/
  began : Nat := 0
  /-- relayed doorbells and tally-adds that the lead holds, oldest first (R505) -/
  doors : List Msg := []
  /-- members of which a DEGRADED notice came during bring-up: it leaves them out (R480) -/
  noticed : List Nat := []
  /-- ACCEPT_DEBUG_PEER as it stood when bring-up or the domain reset began (R520, R533) -/
  acceptDebug : Bool := false
  deriving DecidableEq, Repr, Inhabited

/-- A response or event that leaves through SPDM, PLDM or PCIe's own protocols (R499, R502, R517-R519, R553). -/
inductive MgtMsg where
  | atsDone (fn page : Nat)
  /-- a report through AER: an Unsupported Request error, or a received Poisoned TLP (R495) -/
  | aer (fn : Nat) (poisoned : Bool)
  | certificate (slot : Nat) (debugAlias : Bool)
  | challengeAuth (debugAlias : Bool)
  | measurement (index : Nat) (value : Nat) (debugAlias : Bool)
  | keyExchange (session : Nat)
  | busy
  | heartbeat (session : Nat)
  | keyUpdate (session : Nat)
  | error
  | flashDone (ok : Bool)
  | pdr (record : Nat)
  | sensor (id : Nat) (value : Int)
  | stateSensor (id : Nat) (value : Nat)
  | effecterDone
  | receiverSet (receiver : Nat)
  | event (receiver id value : Nat)
  | i3cAddress (old new : Nat)
  deriving DecidableEq, Repr

/-- What the host gets back for a read or an AtomicOp (R495): UR, or data with or without EP. -/
structure HostAns where
  ur : Bool := false
  ep : Bool := false
  data : List Byte := []
  deriving DecidableEq, Repr, Inhabited

/-- Attestation (chapter 19). -/
structure Trust where
  /-- number of the draw that gave SEC_DEBUG_NONCE_0; the next draw gave SEC_DEBUG_NONCE_1 (R534) -/
  nonce : Nat := 0
  /-- open SPDM sessions with the number of key updates of each (R519), and the last session number -/
  sessions : List (Nat × Nat) := []
  nextSession : Nat := 0
  /-- the boot ROM has used and locked the UDS (R513) -/
  udsLocked : Bool := false
  /-- DIGEST and SVN of the stage 1 from which the alias keys were derived: the TcbInfo of their certificates (R513) -/
  stage1 : Option (Nat × Nat) := none
  /-- the private keys that stage 1 holds: the alias key, until a debug unlock erases it, and the debug alias key (R513,
  R530). The DeviceID private key lives only within the boot step that derives it. -/
  aliasKey : Option (BitVec 384) := none
  debugKey : Option (BitVec 384) := none
  deriving DecidableEq, Repr, Inhabited

/-- The governor and the thermal model (chapter 20). -/
structure Power where
  /-- E of R538 in units of 10 µJ -/
  e : Nat := 0
  /-- values the power loop asks for: issue rate, CAP (R539) -/
  rate : Nat := 16
  cap : Nat := 32
  /-- when the loop last raised the knobs -/
  raised : Nat := 0
  /-- samples of the last 10 ms, newest first (R560) -/
  samples : List Nat := []
  /-- the constraint of each body in, or after, THROTTLE (R544): issue rate, CAP, or 1 for the held links -/
  thr : Tab (Option Nat) := []
  /-- when the last throttle step was made -/
  stepped : Nat := 0
  /-- an orderly shutdown: when it began, and the body (R547) -/
  sd : Option (Nat × Nat) := none
  /-- when a body last entered WARN (key 2 * body) and THROTTLE (key 2 * body + 1), for the records of R555 -/
  since : Tab Nat := []
  /-- PWRBRAKE_N is low (R541, R587) -/
  pin : Bool := false
  /-- PLDM: registered receiver; readings of sensors 1 and 2, of the bodies, and states as last sent (R553) -/
  receiver : Option Nat := none
  readings : List Int := []
  sent : List Nat := [0, 0, 0]
  /-- events sent in the present second, and when it began -/
  events : Nat := 0
  eventsAt : Nat := 0
  refreshed : Nat := 0
  deriving DecidableEq, Repr, Inhabited

/-- A life-log record (R555): its TYPE, SEQ and BOOT, the number it is about and the numbers of its payload; the SEQ
under which it was first written (a record copied forward keeps it, R556), and the erase block it lies in, counted on
without end: block b is block b mod 1,008 of the log area (R554). -/
structure LogRec where
  kind : Nat
  seq : Nat
  boot : Nat
  detail : Nat
  data : List Nat := []
  first : Nat := 0
  block : Nat := 0
  deriving DecidableEq, Repr, Inhabited

/-- What the summary records tell (R555), counted over the device's life: ticks per body class * 16 + temperature bin,
ticks per power bin, corrected words and uncorrectable events per channel, event records dropped per type. -/
structure Sums where
  temps : Tab Nat := []
  watts : Tab Nat := []
  ce : Tab Nat := []
  ue : Tab Nat := []
  dropped : Tab Nat := []
  deriving DecidableEq, Repr, Inhabited

/-- The life log (R554-R556): every record written, in order, of which the flash holds those whose block is not erased
(`head` is the block being written, `used` the bytes written in it, `tail` the oldest block not erased); SEQ, boot count,
records per event type in this hour; the summaries' counts now and as last written, and up to when time is counted. -/
structure Life where
  recs : List LogRec := []
  seq : Nat := 0
  boot : Nat := 0
  head : Nat := 0
  used : Nat := 0
  tail : Nat := 0
  hour : Nat := 0
  counts : Tab Nat := []
  now : Sums := {}
  saved : Sums := {}
  tempsAt : Nat := 0
  wattsAt : Nat := 0
  summary : Nat := 0
  deriving DecidableEq, Repr, Inhabited

/-- Stored data integrity (chapter 16). -/
structure Ecc where
  /-- corrected scratchpad granules whose write-back is due (R226) -/
  writeback : List Nat := []
  /-- per bank: distinct word offsets corrected, uncorrectable events, in this graze period (R438) -/
  bankCe : Tab (List Nat) := []
  bankUe : Tab Nat := []
  /-- spare banks used per DRAM die, key stack * 16 + die (R438) -/
  sparesUsed : Tab Nat := []
  /-- start of the graze pass (R436) -/
  passStart : Nat := 0
  /-- banks whose migration the physical function has requested (R452) -/
  requests : List Nat := []
  deriving DecidableEq, Repr, Inhabited

/-- The host interface (chapter 18). -/
structure Hif where
  linkUp : Bool := false
  /-- MSI-X vectors unmasked and pending, key function * 2048 + vector (R500) -/
  unmasked : List Nat := []
  pend : List Nat := []
  /-- functions in D3hot; functions whose entry waits for their rings' launches (R504) -/
  d3 : List Nat := []
  d3Wait : List Nat := []
  /-- log2 of the BAR2 size per function, default 28 (R492, R493) -/
  bar2 : Tab Nat := []
  /-- HIF_WIN_j by function * 16 + j, where written since the reset of R493 -/
  wins : Tab (Option Word) := []
  tdi : Tab Tdi := []
  /-- IDE streams with keys: stream, secure (R501, R521), and how often each has been programmed -/
  ide : List (Nat × Bool) := []
  ideKeys : Tab Nat := []
  /-- relayed reads of host memory that are outstanding, and the last number given (R498, R506) -/
  outst : List HostReq := []
  nextReq : Nat := 0
  deriving DecidableEq, Repr, Inhabited

/-- A token bucket (R417): level in 1 / (256 * 475) of its unit, and the time it was last brought up to date. -/
structure Bucket where
  level : Int := 0
  at_ : Nat := 0
  deriving DecidableEq, Repr, Inhabited

/-- A fill of a fold that was released, or, with `again`, reset (R524): when it ends, and words 0 to 14 of the fold's FLD_CFG as
they stood. -/
structure Fill where
  fold : Nat
  again : Bool
  due : Nat
  cfg : List Word
  deriving DecidableEq, Repr, Inhabited

/-- Folds (R415-R417): the access units a regulator holds, in arrival order: fold, regulator, stack, access. -/
structure Folds where
  /-- folds whose memory is being filled (R524) -/
  fills : List Fill := []
  buckets : Tab Bucket := []
  held : List (Nat × Nat × Nat × Access) := []
  deriving DecidableEq, Repr, Inhabited

/-- A defined pool (R304-R306): firmware's copy of the channel table. -/
structure Pool where
  chans : List Nat := []
  deriving DecidableEq, Repr, Inhabited

/-- A batch of the open step (R349, R352). -/
structure Batch where
  req : Nat
  /-- 0 PREFILL, 1 DECODE, 2 DRAFT -/
  kind : Nat
  pos0 : Nat
  ntok : Nat
  last : Bool
  /-- number of its first output, and how many it has -/
  out0 : Nat
  outs : Nat
  /-- input tokens of DECODE and DRAFT batches -/
  toks : List Nat := []
  /-- its record index, and PMAX -/
  idx : Nat
  pmax : Nat
  deriving DecidableEq, Repr, Inhabited

/-- A model (R344-R354). -/
structure Model where
  bound : Bool := false
  fold : Nat := 0
  pool : Nat := 0
  nparts : Nat := 0
  /-- STEP_TALLY: unit (core, or 192 + stack) and number -/
  unit : Nat := 0
  num : Nat := 0
  lfmt : Nat := 0
  vocab : Nat := 0
  budget : Nat := 0
  chunk : Nat := 0
  age : Nat := 0
  sheet : Nat := 0
  res : Nat := 0
  limit : Nat := 0
  /-- steps published so far; the last of them is open; a closed one whose boundary has not run, with its status; a
  boundary is under way, from a close to the next publication (R346) -/
  steps : Nat := 0
  isOpen : Bool := false
  closing : Option Nat := none
  bnd : Bool := false
  pubTime : Nat := 0
  parts : Nat := 0
  stray : Bool := false
  /-- a failed step and the done writes of it still awaited (R354) -/
  failed : Nat := 0
  late : Nat := 0
  batches : List Batch := []
  /-- the step that has been planned and waits for the done writes of a failed one (R354), with the requests that were
  eligible -/
  planned : Option (List Batch × List Nat) := none
  /-- slots of the requests of a failed step, held out of FREE (R354) -/
  kept : List Nat := []
  deriving DecidableEq, Repr, Inhabited

/-- A fleece image: local address, size, in the fold's park area, the PARK command (ring, command id) while it is
being written (R385). -/
structure Image where
  addr : Nat
  size : Nat
  area : Bool
  job : Option (Nat × Nat) := none
  /-- its number under the fold's key, DEV_TIME and the request's entry at park (R386) -/
  iv : Nat := 0
  parked : Nat := 0
  entry : List Byte := []
  deriving DecidableEq, Repr, Inhabited

/-- The outputs of a batch handed to the host (R376): the step, the input tokens from x_1 on, whether the batch ended the
prompt, and the allowed tokens of each output. -/
structure Hand where
  step : Nat
  xs : List Nat
  last : Bool
  counts : List Nat
  deriving DecidableEq, Repr, Inhabited

/-- What firmware holds about a request beside its table entry (chapters 13, 14). -/
structure Req where
  pool : Nat := 0
  /-- block to slot, and the slots of its reservation, ascending -/
  pages : Tab (Option Nat) := []
  resv : List Nat := []
  /-- blocks below this one were matched or restored: never inserted (R380) -/
  noInsert : Nat := 0
  /-- hashes of its full blocks in order (R378) -/
  hashes : List (BitVec 128) := []
  /-- tokens emitted so far: those of positions P and on -/
  out : List Nat := []
  /-- its sampling block, once validated (R365) -/
  samp : Option (List Word) := none
  /-- draws taken from its seeded stream (R375) -/
  draws : Nat := 0
  /-- the outputs handed to the host (R376) -/
  hand : Option Hand := none
  /-- records for its output ring that wait for room (R355) -/
  waiting : List Rec := []
  /-- reason of its END record; its slots stay out of FREE when it lets go of them (R354) -/
  reason : Nat := 0
  keep : Bool := false
  image : Option Image := none
  /-- a RESUME that has restored its blocks: ring, command id, size (R387) -/
  resume : Option (Nat × Nat × Nat) := none
  /-- cancels that complete after its END record: ring, command id, status (R358) -/
  jobs : List (Nat × Nat × Nat) := []
  deriving DecidableEq, Repr, Inhabited

/-- An entry of the prefix table (R379). -/
structure PEntry where
  hash : BitVec 128
  parent : BitVec 128
  pool : Nat
  slot : Nat
  toks : List Nat
  fold : Nat
  deriving DecidableEq, Repr, Inhabited

/-- An accepted command that is applied at a boundary (R347, R357, R377, R384). -/
structure SCmd where
  ring : Nat
  id : Nat
  req : Nat
  model : Nat
  cmd : Cmd
  /-- accepted after the close of the step whose boundary runs next -/
  after : Bool
  deriving DecidableEq, Repr, Inhabited

/-- The serving engine (chapters 12 to 14). -/
structure Srv where
  pools : Tab (Option Pool) := []
  models : Tab Model := []
  reqs : Tab (Option Req) := []
  /-- accepted commands in order of acceptance; the last command number -/
  cmds : List SCmd := []
  nextCmd : Nat := 0
  /-- ADMIT_SEQ last given -/
  admitSeq : Nat := 0
  /-- the prefix table, least recently inserted or matched first -/
  prefixes : List PEntry := []
  /-- folds whose share group has changed since the last boundary (R382) -/
  groups : List Nat := []
  deriving DecidableEq, Repr, Inhabited

/-- The keys of folds and share groups (R526), and the folds' image counters. -/
structure Keys where
  sealKey : Tab (Option (BitVec 256)) := []
  prefixKey : Tab (Option (BitVec 384)) := []
  group : Tab (Option (BitVec 384)) := []
  images : Tab Nat := []
  deriving DecidableEq, Repr, Inhabited

/-- A message that left the device for a host vector (R500): function, vector, and how many of the writes in `hostOut`
went before it (R287). -/
structure MsixMsg where
  fn : Nat
  vec : Nat
  after : Nat
  deriving DecidableEq, Repr, Inhabited

/-- A posted write that left for host memory: host address, bytes, and whether Relaxed Ordering is permitted (R287). -/
structure HostWr where
  addr : Nat
  data : List Byte
  relaxed : Bool := false
  /-- the requester (R498) -/
  fn : Nat := 0
  deriving DecidableEq, Repr, Inhabited

/-- The state of the block. -/
structure State where
  /-- fused grade (R2) and the fused set of bad physical cores (R19, R20) -/
  grade : Grade := .f
  badCores : List Nat := []
  /-- DRAM that firmware reserved at power-up (R379, R433): bank offsets of every bank, first byte and length -/
  fwRanges : List (Nat × Nat) := [(0x5FF0000, 0x10000)]
  /-- field remaps of the life log, in the order in which they were applied: logical cores (R20, R23) -/
  remaps : List Nat := []
  /-- DEVID latched at reset (R274) -/
  devid : Nat := 0
  /-- DEV_TIME (R33) -/
  time : Nat := 0
  /-- stored registers by local address -/
  regs : Tab Word := []
  /-- bytes of DRAM (by bank-linear address), scratchpads and commons -/
  mem : List Host.Cell := []
  /-- stored codeword against the encoding of the data held: per DRAM word, per SRAM granule (R423, R596) -/
  errs : Tab (BitVec 288) := []
  gerrs : Tab (BitVec 72) := []
  /-- flags (R192), key core * 256 + flag -/
  flags : Tab (BitVec 16) := []
  /-- tallies (R288), key unit * 64 + number; unit is a core, or 192 + stack -/
  tallies : Tab (BitVec 48) := []
  /-- accumulator cells (R65), key ((core * 64 + entry) * 128 + i) * 128 + j; entry types, key core * 64 + entry -/
  acc : Tab (BitVec 48) := []
  accTy : Tab AccTy := []
  /-- cells of register files whose parity is bad (R434): entries, scalar registers, banks -/
  parAcc : List Nat := []
  parX : List Nat := []
  parNbu : List Nat := []
  /-- banks whose NBU's next encoding does not match its predicted parity (R148) -/
  encBad : List Nat := []
  /-- contexts, key (core * 4 + queue) * 8 + context; their address registers, key * 16 + register -/
  ctxs : Tab QCtx := []
  ars : Tab AReg := []
  /-- scalar registers (R170), key (core * 8 + context) * 32 + register -/
  xs : Tab Word := []
  cores : Tab CoreSt := []
  rings : Tab RingSt := []
  chans : Tab Chan := []
  nbus : Tab Nbu := []
  launches : Tab (Option Launch) := []
  nextLaunch : Nat := 0
  /-- the last order number given (R107, R102) -/
  seq : Nat := 0
  stks : Tab Stack := []
  boot : Boot := {}
  srv : Srv := {}
  keys : Keys := {}
  /-- the crook's write positions per core (R527) -/
  crk : Tab Nat := []
  ecc : Ecc := {}
  hif : Hif := {}
  folds : Folds := {}
  fab : Fab := {}
  trust : Trust := {}
  power : Power := {}
  life : Life := {}
  /-- what left the device: MSI-X messages, management messages, completions to the host, writes to
  host memory, fabric messages -/
  msix : List MsixMsg := []
  mgtOut : List MgtMsg := []
  hostAns : List HostAns := []
  hostOut : List HostWr := []
  fabOut : List Msg := []
  /-- bytes of DMA.PUTs on their way to this device's own memory (R249) -/
  puts : List PutB := []
  /-- operations that wait for ordinary accesses, and the last number given to one or to a transfer's repeat -/
  asks : List Ask := []
  nextAsk : Nat := 0
  /-- the model's own: how many free values have been drawn, and the reset epoch of the DRBG draws -/
  free : Nat := 2
  epoch : Nat := 0
  /-- the model's own: what the bytes of a scratchpad are that a switch left unspecified (R407): key core * 3 + area of
  R409, the draw of free bytes they are read with, 0 for none -/
  lost : Tab Nat := []
  /-- the model's own: the commands that wait, first in first out -/
  pending : List Instr := []
  deriving DecidableEq, Repr, Inhabited

/-- The block right after a cold reset: BOOT, STEP 1 (R563, R567, R577), every store zero-filled (R435), nothing
commanded. -/
def State.reset : State := {}

end Sys2Proof.Machine
end

