-- ==== Sys2Proof/Machine/Regs.lean ====
section
/-! DEFINITION. The registers that are stored as words: their reset values, and reading and changing them by local
address (R276). Which agent may write which bits is Machine/RegSpec.lean's. -/

namespace Sys2Proof.Machine

open Sys2Proof.Config (Grade)

/-- The reset value of the stored register at a local address; a register the list does not name resets to zero.
R120, R213, R394, R415, R421, R450, R508, R512, R32 (REF_OK: log entry 5), R557, R559. -/
def regReset (gr : Grade) (a : Nat) : Word :=
  if 0x300300000000 ≤ a ∧ a < 0x300301000000 then
    (if (a - 0x300300000000) % 0x100000 = 0x100 then 32 else 0)
  else if 0x300100000000 ≤ a ∧ a < 0x300200000000 then
    (if (a - 0x300100000000) % 0x100000 = 0x888 then 100000 else 0)
  else if 0x300500100000 ≤ a ∧ a < 0x300500500000 then
    (if (a - 0x300500100000) % 64 = 0 then 0x1000000 else 0)
  else if 0x300600000000 ≤ a ∧ a < 0x300600010000 then
    (if (a - 0x300600000000) % 0x1000 = 0x68 then 8 else 0)
  else if a = drvReg 0 then 0x32000A
  else if a = eccReg 0 then 0x1080018
  else if a = hifReg 0 then 0x100002710
  else if a = hifReg 0x20 then 0x200010000
  else if hifReg 0x200 ≤ a ∧ a < hifReg 0x400 then 0x100
  else if a = srvReg 0x100 then 131072
  else if a = glbReg 0x40 then 0xA
  else if a = thmReg 0 then
    (match gr with | .f => 0x808108E10 | .e => 0x808108C1C)
  else if a = thmReg 0x20 then 0x1010
  else 0

/-- The stored register at a local address. -/
def rget (s : State) (a : Nat) : Word := tget (regReset s.grade a) s.regs a

/-- The stored register at a local address replaced. -/
def rset (s : State) (a : Nat) (v : Word) : State := { s with regs := tput (regReset s.grade a) s.regs a v }

/-- Bits or-ed into a stored register: the way hardware sets sticky bits (R7). -/
def ror (s : State) (a : Nat) (v : Word) : State := rset s a (rget s a ||| v)

/-- A field of a stored register replaced. -/
def rfld (s : State) (a hi lo x : Nat) : State := rset s a (setFld (rget s a) hi lo x)

/-- A 64-bit counter advanced. -/
def rinc (s : State) (a n : Nat) : State := rset s a (rget s a + BitVec.ofNat 64 n)

/-- The global address of one of the device's own local addresses (R273, R274). -/
def gOwn (s : State) (a : Nat) : Nat := a + 2 ^ 50 * s.devid

/-- A fresh free value: its number, and the state that has drawn it. -/
def draw (s : State) : Nat × State := (s.free, { s with free := s.free + 1 })

end Sys2Proof.Machine
end

