-- ==== Sys2Proof/Machine/Mem.lean ====
section
/-! DEFINITION. Stored bytes and their codes (chapters 08, 16): reading with correction, writing with encoding, the
flip masks, the repair queue, the uncorrectable log, and messages toward the host. A DRAM word or SRAM granule
is held as its data in `mem` and, where its stored codeword differs from the encoding of that data, the
difference in `errs` or `gerrs`: both codes are linear, so decoding depends on the difference alone. -/

namespace Sys2Proof.Machine

/-- The area of R409 that a scratchpad offset lies in: 1 the urgent window, 2 the firmware area, 0 the rest. -/
def spdArea (o : Nat) : Nat := if o < 0x4C0000 then 0 else if o < 0x500000 then 1 else 2

/-- What a listed byte differs from the byte that is held in: a free value where a switch has left the area
unspecified (R407), else nothing. -/
def lostMask (s : State) (l : Nat) : Byte :=
  if isSpdLoc l then
    match tget 0 s.lost (locCore l * 3 + spdArea (locSpdOff l)) with
    | 0 => 0
    | n + 1 => Config.freeByte n l
  else 0

/-- One byte by its location; an unlisted byte holds the zero that the initial fill wrote (R435), or a free value
(R407). -/
def memGet (s : State) (l : Nat) : Byte := tget 0 s.mem l ^^^ lostMask s l

/-- One byte written by its location. -/
def memPut (s : State) (l : Nat) (b : Byte) : State := { s with mem := tput 0 s.mem l (b ^^^ lostMask s l) }

/-! ## The DRAM word code (R423, R424) -/

/-- Multiplication in GF(2^8) with the polynomial x^8 + x^4 + x^3 + x^2 + 1 (R423), over the low n bits of b. -/
def gfMulFrom : Nat → Nat → Nat → Nat
  | 0, _, _ => 0
  | n + 1, a, b =>
    let a2 := if 128 ≤ a then (2 * a) ^^^ 0x11D else 2 * a
    (if b % 2 = 1 then a else 0) ^^^ gfMulFrom n a2 (b / 2)

def gfMul (a b : Nat) : Nat := gfMulFrom 8 a b

/-- Data symbol d_j of a difference pattern: bit n of it is the bit of pin 2j + n mod 2 in beat n div 2 (R424). -/
def dsym (e : BitVec 288) (j : Nat) : Nat :=
  (List.range 8).foldl (fun a n => a + (e.getLsbD (64 * (n / 2) + 2 * j + n % 2)).toNat * 2 ^ n) 0

/-- Check symbol p_j of a difference pattern. -/
def psym (e : BitVec 288) (j : Nat) : Nat := fld e (256 + 8 * j + 7) (256 + 8 * j)

/-- The 36 symbols in the order of ascending power of x: p_0 to p_3, then d_0 to d_31 (R423). -/
def symbols (e : BitVec 288) : List Nat := (List.range 4).map (psym e) ++ (List.range 32).map (dsym e)

/-- How many symbols of a stored word are bad (R425). -/
def badSyms (e : BitVec 288) : Nat := ((symbols e).filter (· ≠ 0)).length

/-- S_j = r(a^j) of a difference pattern (R454), by Horner's rule from the highest power. -/
def synd (e : BitVec 288) (j : Nat) : Nat :=
  (symbols e).foldr (fun c acc => (gfMul acc (2 ^ j)) ^^^ c) 0

/-- SYNDROME of a DRAM word (R454). -/
def dramSyndrome (e : BitVec 288) : Nat :=
  synd e 0 + synd e 1 * 2 ^ 8 + synd e 2 * 2 ^ 16 + synd e 3 * 2 ^ 24

/-! ## The SRAM granule code (R596) -/

/-- The columns of d_0 to d_63. -/
def secCols : List Nat :=
  (List.range 256).filter (fun c => popc 8 c == 3) ++ [0x1F, 0x2F, 0x37, 0x3B, 0x3D, 0x3E, 0x4F, 0x57]

/-- The column of stored bit i: data bits 0-63, check bits 64-71. -/
def secCol (i : Nat) : Nat := if i < 64 then secCols.getD i 0 else 2 ^ (i - 64)

/-- The syndrome of a stored granule's difference pattern. -/
def secSyndrome (e : BitVec 72) : Nat :=
  (List.range 72).foldl (fun a i => if e.getLsbD i then a ^^^ secCol i else a) 0

/-- What a reader makes of a stored unit: whether it is uncorrectable or corrected, what the data it returns differs
in from the data held, and the syndrome it reports. -/
structure View where
  ue : Bool := false
  ce : Bool := false
  mask : Nat := 0
  syn : Nat := 0
  deriving DecidableEq, Repr, Inhabited

/-- R425. With four or more bad symbols the outcome is a free value. -/
def dramView (free : Nat) (e : BitVec 288) : View :=
  let n := badSyms e
  if n = 0 then {}
  else if n = 1 then { ce := true, syn := dramSyndrome e }
  else if n ≤ 3 then { ue := true, syn := dramSyndrome e }
  else
    match (Config.overBad free e).toNat with
    | 0 => { mask := e.toNat % 2 ^ 256 }
    | 1 => { ce := true, mask := (Config.overBadData free e).toNat, syn := dramSyndrome e }
    | _ => { ue := true, syn := dramSyndrome e }

/-- The outcome table of R596. -/
def sramView (e : BitVec 72) : View :=
  let sy := secSyndrome e
  if sy = 0 then { mask := e.toNat % 2 ^ 64 }
  else
    match (List.range 72).find? (fun i => secCol i == sy) with
    | some i => { ce := true, mask := (e.toNat ^^^ 2 ^ i) % 2 ^ 64, syn := sy }
    | none => { ue := true, syn := sy }

/-- The reader's view of the unit that begins at location u; a codeword without an error reads as it was encoded. -/
def unitView (s : State) (u : Nat) : View :=
  if isDramLoc u then (if tget 0 s.errs u = 0 then {} else dramView s.free (tget 0 s.errs u))
  else if tget 0 s.gerrs u = 0 then {} else sramView (tget 0 s.gerrs u)

/-- One byte as a reader gets it (R425, R596). -/
def viewByte (s : State) (l : Nat) : Byte :=
  memGet s l ^^^ BitVec.ofNat 8 ((unitView s (unitOf l)).mask >>> (8 * (l - unitOf l)))

/-- The bytes from a local address on, as a reader gets them. -/
def viewBytes (s : State) (a len : Nat) : List Byte := (List.range len).map fun i => viewByte s (locOf (a + i))

/-- Consecutive repetitions dropped. -/
def dedup : List Nat → List Nat
  | [] => []
  | [x] => [x]
  | x :: y :: t => if x = y then dedup (y :: t) else x :: dedup (y :: t)

/-- The stored units that a range of local addresses touches, in ascending address order. -/
def unitsOf (a len : Nat) : List Nat := dedup ((List.range len).map fun i => unitOf (locOf (a + i)))

/-! ## Interrupts and the uncorrectable log -/

/-- A member without a host link of its own reaches the host through the lead (R478, R506). -/
def relays (s : State) : Bool :=
  let st := fld (rget s (swvReg 0)) 1 0
  s.devid != 0 && (st == 2 || st == 3) && bit (rget s (swvReg 8)) 0 && !(bit (rget s (swvReg 0x10)) 0)

/-- A message for a vector of a function (R500): sent where unmasked, else kept pending, as in D3hot (R504). A member
without a link of its own relays it through the lead (R506). Before READY no message is sent (R568). -/
def sendMsix (s : State) (fn vec : Nat) : State :=
  let k := fn * 2048 + vec % 2048
  if s.boot.state ≠ 4 then s
  else if !s.hif.linkUp && relays s then
    { s with fabOut := s.fabOut ++ [{ dst := 0, src := s.devid, cls := .tal, op := .interrupt, operand := BitVec.ofNat 64 (vec % 2048) }] }
  else if k ∈ s.hif.unmasked ∧ !(s.hif.d3.contains fn) then
    (if s.hif.linkUp then { s with msix := s.msix ++ [{ fn := fn, vec := vec % 2048, after := s.hostOut.length }] } else s)
  else if k ∈ s.hif.pend then s
  else { s with hif := { s.hif with pend := s.hif.pend ++ [k] } }

/-- The PF's error vector (R500, R512). -/
def raiseErr (s : State) : State := sendMsix s 0 (fld (rget s (hifReg 0x20)) 10 0)

/-- The PF's fabric vector. -/
def raiseFab (s : State) : State := sendMsix s 0 (fld (rget s (hifReg 0x20)) 26 16)

/-- The PF's thermal vector. -/
def raiseThm (s : State) : State := sendMsix s 0 (fld (rget s (hifReg 0x20)) 42 32)

/-- ALERT_N is asserted (R545): some body in WARN, or a bit of THM_ALERT set. -/
def alertN (s : State) : Bool := (rget s (thmReg 8) &&& 2) != 0 || rget s (thmReg 0x10) != 0

/-- A change that may assert ALERT_N: each assertion raises the thermal vector (R545). -/
def alerting (s t : State) : State := if !(alertN s) && alertN t then raiseThm t else t

/-- Bits of THM_ALERT set (R559). -/
def setAlert (s : State) (w : Word) : State := alerting s (ror s (thmReg 0x10) w)

/-- The classes of R555. -/
def logPermanent (kind : Nat) : Bool := [0x0010, 0x0011, 0x0012, 0x0013, 0x0040].contains kind
def logSummary (kind : Nat) : Bool := [0x0002, 0x0003, 0x0004, 0x00F0].contains kind
def logEvent (kind : Nat) : Bool := !(logPermanent kind) && !(logSummary kind)

/-- Bytes of a record: a 16-byte header and at most 4,080 bytes of payload, 16-byte aligned (R555). -/
def logSize (r : LogRec) : Nat := 16 + cdiv (min 4080 (Config.recordLen r.kind r.data.length)) 16 * 16

/-- The records that the flash holds: those whose block is not erased. -/
def Life.held (l : Life) : List LogRec := l.recs.filter fun r => l.tail ≤ r.block

/-- Blocks that are not erased. -/
def Life.inUse (l : Life) : Nat := l.head - l.tail + (if l.used = 0 then 0 else 1)

/-- A record written at the end of the log with the next SEQ; it never crosses an erase block (R555, R556). -/
def logPut (l : Life) (r : LogRec) : Life :=
  let z := logSize r
  let next := 65536 < l.used + z
  { l with recs := l.recs ++ [{ r with seq := l.seq, block := if next then l.head + 1 else l.head }], seq := l.seq + 1,
           head := if next then l.head + 1 else l.head, used := if next then z else l.used + z }

/-- A record that outlives the erase of its block: a permanent one, the latest of its summary type, an event record among
the newest 65,536 (R556). -/
def logSurvives (l : Life) (r : LogRec) : Bool :=
  logPermanent r.kind ||
  (logSummary r.kind && !(l.held.any fun x => x.kind == r.kind && r.seq < x.seq)) ||
  (logEvent r.kind && (l.held.filter fun x => logEvent x.kind && r.first < x.first).length < 65536)

/-- The oldest block erased, after the records that outlive it are copied forward (R556). -/
def logErase (l : Life) : Life :=
  let l' := ((l.held.filter fun r => r.block == l.tail).filter (logSurvives l)).foldl logPut l
  { l' with tail := l.tail + 1 }

/-- Oldest blocks erased while fewer than 16 are free (R556). -/
def logTrim : Nat → Life → Life
  | 0, l => l
  | n + 1, l => if l.inUse ≤ 992 then l else logTrim n (logErase l)

/-- A record appended, and blocks freed. A log of fewer than 992 records fills fewer than 992 blocks. -/
def logAppend (l : Life) (r : LogRec) : Life :=
  let l := logPut l r
  if l.recs.length < 992 then l else logTrim 1008 l

/-- A life-log record appended (R555, R556): an event type writes at most 256 an hour, the rest are counted. -/
def lifeAdd (s : State) (event : Bool) (kind detail : Nat) (data : List Nat := []) : State :=
  let l := s.life
  let fresh := 3600000000 * Config.tick + l.hour ≤ s.time
  let l := if fresh then { l with hour := s.time, counts := [] } else l
  let n := tget 0 l.counts kind
  if event && 256 ≤ n then
    { s with life := { l with now := { l.now with dropped := tput 0 l.now.dropped kind (tget 0 l.now.dropped kind + 1) } } }
  else
    let r : LogRec := { kind := kind, seq := l.seq, boot := l.boot, detail := detail, data := data, first := l.seq }
    { s with life := { logAppend l r with counts := if event then tput 0 l.counts kind (n + 1) else l.counts } }

/-- The counts of a type-0x0004 record (R555): corrected words, uncorrectable events of channel g. -/
def lifeCe (s : State) (g : Nat) : State :=
  { s with life := { s.life with now := { s.life.now with ce := tput 0 s.life.now.ce g (tget 0 s.life.now.ce g + 1) } } }
def lifeUe (s : State) (g : Nat) : State :=
  { s with life := { s.life with now := { s.life.now with ue := tput 0 s.life.now.ue g (tget 0 s.life.now.ue g + 1) } } }

/-- Physical cores of a paddock's logical cores, and its unused good ones (R19, R20): the fused map with the field remaps
applied in their order. DESIGN CHOICE (log entry 102): the spec leaves to the fuses which good core each logical number
gets; the model takes the paddock's good cores in ascending order. -/
def paddockMap (s : State) (p : Nat) : List Nat × List Nat :=
  let good := (rangeFrom (50 * p) 50).filter fun x => !(s.badCores.contains x)
  let n := Config.coresPerPdk s.grade
  s.remaps.foldl (fun (m : List Nat × List Nat) c =>
    if corePdk s.grade c = p then
      match m.2 with
      | x :: t => (lset m.1 (c % n) x, t)
      | [] => m
    else m) (good.take n, good.drop n)

/-- The physical core of logical core c (R18, R19). -/
def physCore (s : State) (c : Nat) : Nat := (paddockMap s (corePdk s.grade c)).1.getD (c % Config.coresPerPdk s.grade) 0

/-- Firmware records logical core c as failed (R444, R453); the life-log record holds its physical number (R18). -/
def coreFail (s : State) (c : Nat) : State :=
  let a := eccReg (0x100 + 8 * (c / 64))
  if bit (rget s a) (c % 64) then s else lifeAdd (ror s a (BitVec.ofNat 64 (2 ^ (c % 64)))) false 0x0010 c [physCore s c]

/-- Who meets an uncorrectable unit: PATH of R454, and the tag, core and ring of the command. -/
structure Meet where
  path : Nat
  tag : Nat := 0
  core : Nat := 255
  ring : Nat := 0
  deriving DecidableEq, Repr, Inhabited

/-- A record of the uncorrectable log (R432, R454), with UE_SEEN, the count, and its copy in the life log. -/
def logUeRec (s : State) (m : Meet) (addr syn : Nat) : State :=
  let n := (rget s (eccReg 0x10)).toNat % 64
  let e := eccReg (0x1000 + 32 * n)
  let s := rset s e (BitVec.ofNat 64 (addr % 2 ^ 56 + m.path * 2 ^ 56))
  let s := rset s (e + 8) (BitVec.ofNat 64 (m.tag % 2 ^ 32 + (m.core % 256) * 2 ^ 32 + (m.ring % 65536) * 2 ^ 40))
  let s := rset s (e + 16) (BitVec.ofNat 64 s.time)
  let s := rset s (e + 24) (BitVec.ofNat 64 (syn % 2 ^ 36))
  let s := rinc s (eccReg 0x10) 1
  let s := ror s (eccReg 8) 1
  lifeAdd s true 0x0005 n ((List.range 4).map fun i => (rget s (e + 8 * i)).toNat)

/-- An uncorrectable unit met: its record, its channel's and bank's counts, and the error interrupt (R432, R438, R456). -/
def logUe (s : State) (m : Meet) (addr syn : Nat) : State :=
  let s := logUeRec s m addr syn
  let s := if isDramLoc addr then
      let s := lifeUe (rinc s (chnReg (locChan addr) 0x38) 1) (locChan addr)
      { s with ecc := { s.ecc with bankUe := tput 0 s.ecc.bankUe (locBank addr) (tget 0 s.ecc.bankUe (locBank addr) + 1) } }
    else s
  raiseErr s

/-- A word offered to its stack's repair queue (R428). -/
def offerRepair (s : State) (u : Nat) : State :=
  let k := chanStack (locChan u)
  let st := tget {} s.stks k
  if st.repairs.any (fun e => e.1 == u) then s
  else if 256 ≤ st.repairs.length then ror (rinc s (stkReg k 0x128) 1) (eccReg 8) 4
  else { s with stks := tput {} s.stks k { st with repairs := st.repairs ++ [(u, s.time)] } }

/-- A correction of a reader counted (R425): CHN_CE_COUNT, the bank's distinct words of R438, the repair queue. -/
def countCe (s : State) (u : Nat) : State :=
  let s := lifeCe (rinc s (chnReg (locChan u) 0x30) 1) (locChan u)
  let b := locBank u
  let l := tget [] s.ecc.bankCe b
  if locOff u ∈ l then s
  else { s with ecc := { s.ecc with bankCe := tput [] s.ecc.bankCe b (l ++ [locOff u]) } }

/-- The flip mask of a channel consumed by a write of the word at u (R445, R456). -/
def flipDram (s : State) (u : Nat) : State × BitVec 288 :=
  let g := locChan u
  let c := rget s (chnReg g 0x60)
  if bit c 32 && (!(bit c 33) || (fld c 38 34 == locBank u % 32 && fld c 61 40 == locOff u / 32)) then
    let w i := (rget s (chnReg g (0x40 + 8 * i))).toNat
    let m := w 0 + w 1 * 2 ^ 64 + w 2 * 2 ^ 128 + w 3 * 2 ^ 192 + (fld c 31 0) * 2 ^ 256
    (rset s (chnReg g 0x60) (setBit c 32 false), BitVec.ofNat 288 m)
  else (s, 0)

/-- The flip mask of a scratchpad consumed by a write of the granule at u (R445, R457). -/
def flipSram (s : State) (u : Nat) : State × BitVec 72 :=
  if isSpdLoc u then
    let k := locCore u
    let c := rget s (coreReg k 0xD48)
    if bit c 8 && (!(bit c 9) || fld c 35 16 == locSpdOff u / 8) then
      (rset s (coreReg k 0xD48) (setBit c 8 false),
        BitVec.ofNat 72 ((rget s (coreReg k 0xD40)).toNat + fld c 7 0 * 2 ^ 64))
    else (s, 0)
  else (s, 0)

/-- The data of a unit as a reader corrects it, put back (R226, R422, R429, R437). -/
def applyView (s : State) (u : Nat) : State :=
  let m := (unitView s u).mask
  if m = 0 then s
  else (List.range (unitLen u)).foldl (fun t i => memPut t (u + i) (memGet s (u + i) ^^^ BitVec.ofNat 8 (m >>> (8 * i)))) s

/-- A granule rewritten with its corrected data (R226, R422). -/
def rewriteSram (s : State) (u : Nat) : State :=
  let r := flipSram (applyView s u) u
  { r.1 with gerrs := tput 0 r.1.gerrs u r.2, ecc := { r.1.ecc with writeback := r.1.ecc.writeback.filter (· ≠ u) } }

/-- A DRAM word rewritten with its corrected data (R429, R437). -/
def rewriteDram (s : State) (u : Nat) : State :=
  let r := flipDram (applyView s u) u
  { r.1 with errs := tput 0 r.1.errs u r.2 }

/-- A corrected granule noted on its core (R225, R229, R230): CE_COUNT, CE_SEEN, LAST_CE_OFF. -/
def noteCe (s : State) (u : Nat) : State :=
  if isSpdLoc u then
    let c := locCore u
    let s := rinc s (coreReg c 0xD08) 1
    rset s (coreReg c 0xD00) (setFld (rget s (coreReg c 0xD00) ||| 1) 38 16 (locSpdOff u))
  else s

/-- A read, a merge or the graze met an uncorrectable granule (R229): UE_SEEN. -/
def noteUe (s : State) (u : Nat) : State := if isSpdLoc u then ror s (coreReg (locCore u) 0xD00) 8 else s

/-- A correction in a scratchpad or the commons (R225, R226, R422): noted on the core; a scratchpad granule waits
for its write-back, a commons granule is written back at once. A granule already corrected in the same cycle counts
once. -/
def correctSram (s : State) (u : Nat) : State :=
  if isSpdLoc u then
    if u ∈ s.ecc.writeback then s
    else
      let s := noteCe s u
      { s with ecc := { s.ecc with writeback := s.ecc.writeback ++ [u] } }
  else rewriteSram s u

/-- The write-backs that are due: they come ahead of every later request (R219, R226). -/
def flushWb (s : State) : State := s.ecc.writeback.foldl rewriteSram s

/-- What reading one unit does to the state (R425, R428, R225): counts and repairs a correction. An uncorrectable
unit changes nothing here; its reader logs it. -/
def touchUnit (s : State) (u : Nat) : State :=
  let v := unitView s u
  if v.ce then (if isDramLoc u then offerRepair (countCe s u) u else correctSram s u) else s

/-- The first uncorrectable unit of a list. -/
def firstUe (s : State) (us : List Nat) : Option Nat := us.find? fun u => (unitView s u).ue

/-- No stored unit differs from the encoding of its data. -/
def clean (s : State) : Bool := s.errs.isEmpty && s.gerrs.isEmpty

/-- The outcome of a read by some reader: the state with its corrections counted and an uncorrectable unit logged
(R432), and that unit. A scratchpad's UE_SEEN (R229) is set too. -/
def eccTouch (s : State) (m : Meet) (us : List Nat) : State × Option Nat :=
  if clean s then (s, none)
  else
    let s := flushWb s
    let us := dedup us
    match firstUe s us with
    | none => (us.foldl touchUnit s, none)
    | some u =>
      let v := unitView s u
      (logUe (noteUe ((us.takeWhile (· ≠ u)).foldl touchUnit s) u) m u v.syn, some u)

/-! ## Writing -/

/-- A unit encoded anew (R224, R426): its stored codeword agrees with its data but for a flip mask that applies. -/
def encodeUnit (s : State) (u : Nat) : State :=
  if isDramLoc u then
    let r := flipDram s u
    { r.1 with errs := tput 0 r.1.errs u r.2 }
  else
    let r := flipSram s u
    { r.1 with gerrs := tput 0 r.1.gerrs u r.2,
               ecc := { r.1.ecc with writeback := r.1.ecc.writeback.filter (· ≠ u) } }

/-- Bytes put at consecutive local addresses where the predicate on locations allows it. -/
def putBytes (ok : Nat → Bool) : State → Nat → List Byte → State
  | s, _, [] => s
  | s, a, b :: t => putBytes ok (if ok (locOf a) then memPut s (locOf a) b else s) (a + 1) t

/-- The read of a merge (R224, R225, R426): a unit covered in part is read, its correction counted and kept. -/
def mergeRead (s : State) (u : Nat) : State :=
  let v := unitView s u
  if v.ue then noteUe s u
  else if v.ce then applyView (if isDramLoc u then offerRepair (countCe s u) u else noteCe s u) u
  else applyView s u

/-- The write of a run of bytes (R224, R227, R426, R427): a unit covered in full is encoded directly; a unit covered
in part is read, corrected, merged and encoded, or, where it is uncorrectable, left as it is with its bytes
dropped. Answers the state and the first unit whose bytes were dropped (logged with path 8). -/
def writeBytes (s : State) (m : Meet) (a : Nat) (bs : List Byte) : State × Option Nat :=
  let s := if clean s then s else flushWb s
  let us := unitsOf a bs.length
  let full (u : Nat) : Bool := ((List.range bs.length).filter fun i => unitOf (locOf (a + i)) == u).length == unitLen u
  let bad := if clean s then [] else us.filter fun u => !(full u) && (unitView s u).ue
  let s1 := if clean s then s else us.foldl (fun t u => if full u then t else mergeRead t u) s
  let s2 := putBytes (fun l => !(bad.contains (unitOf l))) s1 a bs
  let s3 := (us.filter fun u => !(bad.contains u)).foldl encodeUnit s2
  -- a scratchpad granule still uncorrectable after a full write (R444)
  let s3 := if clean s ∨ s3.gerrs.isEmpty then s3
    else (us.filter fun u => isSpdLoc u && full u && (unitView s u).ue && (unitView s3 u).ue).foldl (fun t u => coreFail t (locCore u)) s3
  match bad with
  | [] => (s3, none)
  | u :: _ => (bad.foldl (fun t b => logUe t { m with path := 8 } b (unitView s b).syn) s3, some u)

/-- An external write, from a peer, the host, another core or a PUT, that may be dropped in part (R227, R427): nothing is
counted then, and a scratchpad records PWR_DROP. Answers whether it was whole. -/
def extWrite (s : State) (a : Nat) (bs : List Byte) (m : Meet := { path := 8 }) : State × Bool :=
  let r := writeBytes s m a bs
  match r.2 with
  | none => (r.1, true)
  | some u => (if isSpdLoc u then ror r.1 (coreReg (locCore u) 0xD00) 4 else r.1, false)

/-- The bytes a write leaves at a local address: a byte's unmasked bits are kept (R238). -/
def maskBytes (s : State) (a : Nat) (mask : Byte) (bs : List Byte) : List Byte :=
  if mask = 0xFF then bs else bs.map fun b => (viewByte s (locOf a) &&& ~~~mask) ||| (b &&& mask)

/-! ## Atomics at their home (R292-R297) -/

/-- The units that an atomic's write encodes (R223, R226): of a scratchpad the word's own and each corrected granule of
its line, of DRAM and the commons the word's own. -/
def atomicUnits (s : State) (a n : Nat) : List Nat :=
  let own := unitsOf a n
  if isSpdLoc a then
    ((List.range 8).map fun i => a / 64 * 64 + 8 * i).filter fun u => own.contains u || ((unitView s u).ce && !(unitView s u).ue)
  else own

/-- The bytes a local range holds, for device logic that reads its own structures. -/
def readLe (s : State) (a n : Nat) : Nat := leNat (viewBytes s a n)

/-- A 64-bit word of memory. -/
def readW (s : State) (a : Nat) : Word := BitVec.ofNat 64 (readLe s a 8)

/-- A little-endian number written by device logic. -/
def writeLe (s : State) (a n v : Nat) : State := (writeBytes s { path := 8 } a (leBytes n v)).1

/-- A 64-bit word written by device logic. -/
def writeW (s : State) (a : Nat) (v : Word) : State := writeLe s a 8 v.toNat

end Sys2Proof.Machine
end

