-- ==== Sys2Proof/Machine/Ops.lean ====
section
/-! DEFINITION. The named operations over registers, flags, tallies, folds, rings and completion records that the
meanings share (chapters 07, 11, 15, 18, 19). -/

namespace Sys2Proof.Machine

open Sys2Proof.Config (Grade cores)

/-! ## Status codes (R203) -/

def stOk : Nat := 0x00
def stAlready : Nat := 0x01
def stCancelled : Nat := 0x02
def stSuspended : Nat := 0x03
def stRejState : Nat := 0x10
def stRejFull : Nat := 0x11
def stRejQuota : Nat := 0x12
def stFormat : Nat := 0x20
def stAbsent : Nat := 0x21
def stBound : Nat := 0x22
def stOverlap : Nat := 0x23
def stAccess : Nat := 0x24
def stUncorr : Nat := 0x25
def stDeadlock : Nat := 0x26
def stTimeout : Nat := 0x27
def stLink : Nat := 0x28
def stThermal : Nat := 0x29

/-! ## Units -/

def coreOk (s : State) (c : Nat) : Bool := c < cores s.grade
def chanOk (g : Nat) : Bool := g < 384
def stackOk (k : Nat) : Bool := k < 12

def getCore (s : State) (c : Nat) : CoreSt := tget {} s.cores c
def setCore (s : State) (c : Nat) (v : CoreSt) : State := { s with cores := tput {} s.cores c v }
def getChan (s : State) (g : Nat) : Chan := tget {} s.chans g
def setChan (s : State) (g : Nat) (v : Chan) : State := { s with chans := tput {} s.chans g v }
def getRing (s : State) (n : Nat) : RingSt := tget {} s.rings n
def setRing (s : State) (n : Nat) (v : RingSt) : State := { s with rings := tput {} s.rings n v }
def ctxKey (c q x : Nat) : Nat := (c * 4 + q) * 8 + x
def getCtx (s : State) (c q x : Nat) : QCtx := tget {} s.ctxs (ctxKey c q x)
def setCtx (s : State) (c q x : Nat) (v : QCtx) : State := { s with ctxs := tput {} s.ctxs (ctxKey c q x) v }
def getAr (s : State) (c q x r : Nat) : AReg := tget {} s.ars (ctxKey c q x * 16 + r)
def setAr (s : State) (c q x r : Nat) (v : AReg) : State :=
  { s with ars := tput {} s.ars (ctxKey c q x * 16 + r) v }
def getX (s : State) (c x r : Nat) : Word := tget 0 s.xs ((c * 8 + x) * 32 + r)
def setX (s : State) (c x r : Nat) (v : Word) : State := { s with xs := tput 0 s.xs ((c * 8 + x) * 32 + r) v }

/-! ## Flags and tallies (R192-R196, R288-R291) -/

def getFlag (s : State) (c f : Nat) : BitVec 16 := tget 0 s.flags (c * 256 + f)
def setFlag (s : State) (c f : Nat) (v : BitVec 16) : State := { s with flags := tput 0 s.flags (c * 256 + f) v }

/-- A SIGNAL of n on flag f (R195): it saturates at 65,535, and the first saturation since FLAG_SAT was clear is
recorded in CORE_SYNC_STATUS (R212). -/
def signalFlag (s : State) (c f n : Nat) : State :=
  let v := (getFlag s c f).toNat + n
  if v ≤ 65535 then setFlag s c f (BitVec.ofNat 16 v)
  else
    let a := coreReg c 0x880
    let w := rget s a
    let w' := if bit w 0 then w else setFld (w ||| 1) 15 8 f
    rset (setFlag s c f 65535) a w'

/-- The register of WRAP bits of a tally unit: a core's (R302) or, for 192 + stack, a stack hub's (R303). -/
def wrapReg (unit : Nat) : Nat := if unit < 192 then coreReg unit 0x890 else stkReg (unit - 192) 0x110

def getTally (s : State) (unit n : Nat) : BitVec 48 := tget 0 s.tallies (unit * 64 + n)
def setTally (s : State) (unit n : Nat) (v : BitVec 48) : State :=
  { s with tallies := tput 0 s.tallies (unit * 64 + n) v }

/-- Addition to a tally (R290): modulo 2^48, a carry sets the tally's WRAP bit. -/
def addTally (s : State) (unit n amount : Nat) : State :=
  let v := (getTally s unit n).toNat + amount
  let s' := setTally s unit n (BitVec.ofNat 48 v)
  if 2 ^ 48 ≤ v then ror s' (wrapReg unit) (BitVec.ofNat 64 (2 ^ n)) else s'

/-! ## Folds and functions (R393, R415, R488, R523) -/

def fldW (s : State) (f w : Nat) : Word := rget s (fldReg f (8 * w))
def foldActive (s : State) (f : Nat) : Bool := f < 16 && bit (fldW s f 0) 1
def foldCore (s : State) (f c : Nat) : Bool := bit (fldW s f 1) (c / 4)
def foldChan (s : State) (f g : Nat) : Bool := bit (fldW s f (2 + g / 64)) (g % 64)
def foldRing (s : State) (f n : Nat) : Bool :=
  fld (fldW s f 8) 15 0 ≤ n && n < fld (fldW s f 8) 15 0 + fld (fldW s f 8) 32 16
def foldHubTally (s : State) (f n : Nat) : Bool := bit (fldW s f 10) n

/-- The number of virtual functions in effect (R509). -/
def numVf (s : State) : Nat := fld (rget s (hifReg 8)) 23 19

/-- The function of fold f (R488): VF f + 1, or the PF where there is no such VF. -/
def foldFn (s : State) (f : Nat) : Nat := if f + 1 ≤ numVf s then f + 1 else 0

/-- The fold a ring belongs to (R393); none for ring 65,535 and for a ring in no active fold's range. -/
def ringFold (s : State) (n : Nat) : Option Nat :=
  if n = 65535 then none else (List.range 16).find? fun f => foldActive s f && foldRing s f n

/-- Fold f is being filled (R524, R532). -/
def foldFilling (s : State) (f : Nat) : Bool := bit (rget s (secReg 0)) (16 + f)

/-- A bank-linear location inside a range that firmware reserves (R523; which bytes: log entry 62). -/
def fwReserved (s : State) (l : Nat) : Bool := s.fwRanges.any fun r => r.1 ≤ l % 2 ^ 27 && l % 2 ^ 27 < r.1 + r.2

/-- The commons area of fold f in bytes: offset and length (R535). -/
def foldCmn (s : State) (f : Nat) : Nat × Nat :=
  let w := rget s (secReg (0x400 + 8 * f))
  (fld w 14 0 * 4096, fld w 46 32 * 4096)

/-- The request table's place in the commons (R336) and its entries: 128 bytes each, 131,072 of them. -/
def rtBase : Nat := cmnBase
def rtEntry (n : Nat) : Nat := rtBase + 128 * n

/-- The SRV_ registers a fold reaches (R489, R362, R390): those of the models it has bound, every done doorbell, whose
writes from other folds are ignored, and SRV_PREFIX_GROUP to read. -/
def srvReach (s : State) (f o : Nat) (write : Bool) : Bool :=
  let own (m : Nat) : Bool := s.srv.models.any fun e => e.1 == m && e.2.bound && e.2.fold == f
  if 0x2000 ≤ o ∧ o < 0x3000 then o % 16 ≥ 8 || own ((o - 0x2000) / 16)
  else if 0x4000 ≤ o ∧ o < 0x4800 then own ((o - 0x4000) / 8)
  else 0x200 ≤ o && o < 0x208 && !write

/-- Registers a fold reaches as commands do (R489, R523, R536): its cores' CORE_ blocks and CRK_ registers, its rings'
descriptors and doorbells, its FLD_CFG block, the hub tallies assigned to it, SRV_ registers. A write is refused to the
read-only ones and to those reserved for the physical function (R390, R415, R446, R450, R452, R483). -/
def csrReach (s : State) (f a : Nat) (write : Bool) : Bool :=
  if 0x300100000000 ≤ a ∧ a < 0x300200000000 then
    let o := (a - 0x300100000000) % 0x100000
    foldCore s f ((a - 0x300100000000) / 0x100000) && !(write && (o / 8 = 0xD40 / 8 || o / 8 = 0xD48 / 8))
  else if 0x300500100000 ≤ a ∧ a < 0x300500500000 then foldRing s f ((a - 0x300500100000) / 64)
  else if 0x300501000000 ≤ a ∧ a < 0x300501400000 then foldRing s f ((a - 0x300501000000) / 64)
  else if 0x300600000000 ≤ a ∧ a < 0x300600010000 then !write && (a - 0x300600000000) / 0x1000 = f
  else if 0x300300000000 ≤ a ∧ a < 0x300300C00000 then
    let o := (a - 0x300300000000) % 0x100000
    (0x200 ≤ o && o < 0x400 && foldHubTally s f ((o - 0x200) / 8)) ||
      (0x400 ≤ o && o < 0x600 && foldHubTally s f ((o - 0x400) / 8))
  else if 0x300400000000 ≤ a ∧ a < 0x300500000000 then srvReach s f (a - 0x300400000000) write
  else if 0x300D00000000 ≤ a ∧ a < 0x300D00010000 then
    (a - 0x300D00000000) % 0x100 < 8 && foldCore s f ((a - 0x300D00000000) / 0x100)
  else false

/-- The populated run that holds a local address: the address after its last byte (R97, R99, R215, R275). -/
def runEnd (gr : Grade) (a : Nat) : Nat :=
  match region gr a with
  | .dram => if a < ilvEnd then ilvEnd else a - (a - blinBase) % 0x8000000 + 0x6000000
  | .spd => a - (a - spdBase) % 0x800000 + 0x600000
  | .cmn => cmnEnd
  | .csr => csrEnd
  | .aperture => aprEnd
  | _ => a

/-- Every byte of a local range is populated and lies in one region. -/
def populated (gr : Grade) (a len : Nat) : Bool := len == 0 || a + len ≤ runEnd gr a

/-- Some byte of a local range lies in the window or block of a core that does not exist (R188 check 1). -/
def touchesAbsent (gr : Grade) (a len : Nat) : Bool :=
  let hits (lo hi : Nat) : Bool := a < hi && lo < a + len
  len != 0 &&
    (hits (spdBase + cores gr * 0x800000) spdEnd ||
      hits (0x300100000000 + cores gr * 0x100000) 0x300200000000)

/-- The channels a local DRAM range touches. -/
def chansOf (a len : Nat) : List Nat :=
  if len = 0 then []
  else if a < ilvEnd then
    (List.range ((a + len - 1) / 256 + 1 - a / 256)).map fun i => locChan (ilvToLin ((a / 256 + i) * 256))
  else [locChan a]

/-- The 256-byte lines of a local DRAM range, by location. -/
def linesOf (a len : Nat) : List Nat :=
  if len = 0 then []
  else (List.range ((a + len - 1) / 256 + 1 - a / 256)).map fun i => locOf ((a / 256 + i) * 256)

/-- The part of a byte run that lies in the i-th z-byte line it touches: its offset in the run, and its length. -/
def linePart (z a n i : Nat) : Nat × Nat :=
  let lo := max a ((a / z + i) * z)
  let hi := min (a + n) ((a / z + i + 1) * z)
  (lo - a, hi - lo)

/-- How many z-byte lines a byte run touches. -/
def lineCount (z a n : Nat) : Nat := if n = 0 then 0 else (a + n - 1) / z + 1 - a / z

/-- What fold f reaches of a populated local range (R523). -/
def foldReach (s : State) (f a len : Nat) (write : Bool) : Bool :=
  match region s.grade a with
  | .dram => (chansOf a len).all (foldChan s f) && (linesOf a len).all (fun l => !(fwReserved s l))
  | .spd => foldCore s f ((a - spdBase) / 0x800000)
  | .cmn =>
    let r := foldCmn s f
    (r.1 ≤ a - cmnBase && a - cmnBase + len ≤ r.1 + r.2) ||
      (!write && a - cmnBase + len ≤ 131072 * 128 &&
        -- the fold's own request-table entries (R337): FOLD in word 0 [19:16], STATE other than FREE
        (List.range ((a - cmnBase + len - 1) / 128 + 1 - (a - cmnBase) / 128)).all fun i =>
          let w := readW s (rtEntry ((a - cmnBase) / 128 + i))
          fld w 3 0 != 0 && fld w 19 16 == f)
  | .csr => (List.range (lineCount 8 a len)).all fun i => csrReach s f (a + 8 * i) write
  | .aperture => true
  | _ => false

/-! ## Bandwidth regulators (R417, R418) -/

/-- The scale of a bucket's level: 256 * 475 parts of a unit, so that a tick's gain is a whole number. -/
def bktScale : Nat := 256 * Config.tick

/-- Gain per tick of regulator k at RATE 1, in the scale of the level: C of R417. -/
def bktGain : Nat → Nat
  | 0 => 2918000 | 1 => 32 | 2 => 3580000 | 3 => 3580000 | _ => 256000

def bktKey (f k st : Nat) : Nat := (f * 8 + k) * 16 + st
def regW (s : State) (f k : Nat) : Word := rget s (fldReg f (0x100 + 8 * k))

/-- The level of a bucket now. -/
def bktLevel (s : State) (f k st : Nat) : Int :=
  let w := regW s f k
  let b := tget {} s.folds.buckets (bktKey f k st)
  let cap : Int := ((fld w 47 16 * (if k = 1 then 1 else 4096) * bktScale : Nat) : Int)
  min cap (b.level + (((s.time - b.at_) * min 256 (fld w 8 0) * bktGain k : Nat) : Int))

/-- A unit of work of fold f may proceed: its bucket's level is not negative, or the resource is not regulated. -/
def regGo (s : State) (f k st : Nat) : Bool := 15 < f || !(bit (regW s f k) 9) || 0 ≤ bktLevel s f k st

/-- A unit of work of size n charged. -/
def regCharge (s : State) (f k st n : Nat) : State :=
  if 15 < f || !(bit (regW s f k) 9) then s
  else
    let b : Bucket := { level := bktLevel s f k st - ((n * bktScale : Nat) : Int), at_ := s.time }
    { s with folds := { s.folds with buckets := tput {} s.folds.buckets (bktKey f k st) b } }

/-- The regulators that an access of n bytes at a global address is charged to: regulator, stack, bytes. External DRAM is
charged to the stack of each 256-byte line, another member or the host to the interface it crosses (R417). -/
def regFor (s : State) (ga n : Nat) (write : Bool) : List (Nat × Nat × Nat) :=
  if gDev ga ≠ s.devid then [(if write then 2 else 3, 0, n)]
  else
    let a := gLoc ga
    match region s.grade a with
    | .dram => (List.range (lineCount 256 a n)).map fun i =>
        let p := linePart 256 a n i
        (0, chanStack (locChan (locOf (a + p.1))), p.2)
    | .aperture => [(if write then 4 else 5, 0, n)]
    | _ => []

/-- The access may proceed under its fold's regulators. -/
def regOk (s : State) (f ga n : Nat) (write : Bool) : Bool := (regFor s ga n write).all fun r => regGo s f r.1 r.2.1

/-- The access charged. -/
def regPay (s : State) (f ga n : Nat) (write : Bool) : State :=
  (regFor s ga n write).foldl (fun t r => regCharge t f r.1 r.2.1 r.2.2) s

/-! ## Rings (R394-R400) -/

def ringW (s : State) (n w : Nat) : Word := rget s (ringReg n w)
def ringClass (s : State) (n : Nat) : Nat := fld (ringW s n 0) 5 4
def ringTarget (s : State) (n : Nat) : Nat := fld (ringW s n 0) 7 6
def ringCompat (s : State) (n : Nat) : Bool := bit (ringW s n 0) 8
def ringWeight (s : State) (n : Nat) : Nat := max 1 (fld (ringW s n 0) 31 24)
def cmdBase (s : State) (n : Nat) : Nat := fld (ringW s n 1) 55 0
def cmdLen (s : State) (n : Nat) : Nat := 2 ^ fld (ringW s n 1) 60 56
def cplBase (s : State) (n : Nat) : Nat := fld (ringW s n 2) 55 0
def cplLen (s : State) (n : Nat) : Nat := 2 ^ fld (ringW s n 2) 60 56
def ringFirst (s : State) (n : Nat) : Nat := fld (ringW s n 3) 7 0
def ringN (s : State) (n : Nat) : Nat := fld (ringW s n 3) 15 8
def ringMsix (s : State) (n : Nat) : Nat := fld (ringW s n 3) 26 16
def coalCount (s : State) (n : Nat) : Nat := fld (ringW s n 3) 39 32
def coalTime (s : State) (n : Nat) : Nat := fld (ringW s n 3) 55 40
def saveBase (s : State) (n : Nat) : Nat := fld (ringW s n 4) 55 0
def saveStride (s : State) (n : Nat) : Nat := fld (ringW s n 5) 31 0

/-- Members of a ring: the cores of its set, or the one stream of a service ring. -/
def ringMembers (s : State) (n : Nat) : Nat := if ringTarget s n = 0 then ringN s n else 1

/-- Member cores of a core-set ring (R394). -/
def memberCores (s : State) (n : Nat) : List Nat := if ringTarget s n = 0 then rangeFrom (ringFirst s n) (ringN s n) else []

/-- The contexts of a ring's member core: its context number in all four queues (R176). -/
def ringCtx (s : State) (c n : Nat) : Option Nat :=
  (List.range 8).find? fun x => (getCtx s c 0 x).bound && (getCtx s c 0 x).ring == n

/-- The function whose MSI-X table and host requests a ring uses (R413, R500). -/
def ringFn (s : State) (n : Nat) : Nat := match ringFold s n with | some f => foldFn s f | none => 0

/-- The completion area has room (R399). -/
def cplRoom (s : State) (n : Nat) : Bool :=
  let r := getRing s n
  let len := cplLen s n
  (r.wpos + len - r.cplHead) % len < len - 1

/-- The MSI-X message of a ring (R400, R410). -/
def ringIrq (s : State) (n : Nat) : State := sendMsix s (ringFn s n) (ringMsix s n)

/-! ## Writes by the device to memory, through the channel modes -/

/-- A channel whose ordinary accesses are held now: states 1, 2 and 4, and a gap with accesses held before (R101,
R111, R113). -/
def chanHolds (s : State) (g : Nat) : Bool :=
  let ch := getChan s g
  ch.mode == 1 || ch.mode == 2 || ch.mode == 4 || (ch.mode == 3 && !ch.hold.isEmpty)

/-- Some channel of a local range holds ordinary accesses now. -/
def rangeHeld (s : State) (a len : Nat) : Bool :=
  region s.grade a == .dram && (chansOf a len).any (chanHolds s)

/-- An access into the hold queue of its channel, or behind it at the hub (R111). -/
def holdPush (s : State) (g : Nat) (x : Access) : State :=
  let ch := getChan s g
  if ch.spill.isEmpty && ch.hold.length < 64 then
    setChan s g { ch with hold := ch.hold ++ [x], fullAt := if ch.hold.length = 63 then some s.time else ch.fullAt }
  else setChan s g { ch with spill := ch.spill ++ [x] }

/-! ### Operations that wait for their accesses (R111, R113, R252, R253) -/

/-- The requests of a DRAM run, of up to 64 bytes each (R252), by location. -/
def reqsOf (r : Nat × Nat) : List (Nat × Nat) :=
  (List.range (lineCount 64 r.1 r.2)).map fun i => let p := linePart 64 r.1 r.2 i; (locOf (r.1 + p.1), p.2)

/-- The words of a request as they are stored now. -/
def wordCaps (s : State) (r : Nat × Nat) : List Cap :=
  (unitsOf r.1 r.2).map fun u => { unit := u, data := (List.range 32).map fun i => memGet s (u + i), err := tget 0 s.errs u }

/-- Captured words put into their places. -/
def putCaps (s : State) (cs : List Cap) : State :=
  cs.foldl (fun t c => let t := putBytes (fun _ => true) t c.unit c.data; { t with errs := tput 0 t.errs c.unit c.err }) s

/-- What an operation does that reads words as its held accesses found them: the words themselves stay as they are. -/
def onCaps {α : Type} (s : State) (cs : List Cap) (f : State → State × α) : State × α :=
  if cs.isEmpty then f s
  else
    let now := cs.flatMap fun c => wordCaps s (c.unit, 32)
    let r := f (putCaps s cs)
    (putCaps r.1 now, r.2)

/-- Requests of an operation go out while fewer than 256 of its own wait (R252): into the hold queue of a channel that
computes, else they are served at once. -/
def sendReqs : List (Nat × Nat) → State → Ask → State × Ask
  | [], s, k => (s, { k with todo := [] })
  | r :: t, s, k =>
    if 256 ≤ k.left then (s, { k with todo := r :: t })
    else if chanHolds s (locChan r.1) then
      sendReqs t (holdPush s (locChan r.1) { addr := r.1, len := r.2, write := false, fold := k.fold, ask := some k.id })
        { k with left := k.left + 1 }
    else sendReqs t s { k with got := k.got ++ wordCaps s r }

/-- An operation's record replaced. -/
def putAsk (s : State) (k : Ask) : State := { s with asks := s.asks.filter (fun x => x.id != k.id) ++ [k] }

/-- The operation of a number is over. -/
def dropAsk (s : State) (id : Nat) : State := { s with asks := s.asks.filter fun k => k.id != id }

/-- The operations of an owner are over: nothing waits for their accesses any more. -/
def dropAsks (s : State) (o : Owner) : State :=
  if s.asks.isEmpty then s else { s with asks := s.asks.filter fun k => k.owner != o }

/-- All accesses of an operation have been served. -/
def askOver (k : Ask) : Bool := k.left == 0 && k.todo.isEmpty

/-- A new operation that reads local byte runs: its requests go out. -/
def askStart (s : State) (o : Owner) (fold : Option Nat) (runs : List (Nat × Nat)) : State :=
  let k : Ask := { id := s.nextAsk + 1, owner := o, fold := fold, runs := runs }
  let r := sendReqs ((runs.filter fun r => region s.grade r.1 == .dram).flatMap reqsOf) { s with nextAsk := s.nextAsk + 1 } k
  putAsk r.1 r.2

/-- The read of local byte runs by an operation (R111): where some channel of them computes its requests go to the hold
queues, and it waits until all are served. Answers what they found once it may read; the empty list where nothing was
held. -/
def askRead (s : State) (o : Owner) (fold : Option Nat) (runs : List (Nat × Nat)) : State × Option (List Cap) :=
  match s.asks.find? fun k => k.owner == o && k.runs == runs with
  | some k => (s, if askOver k then some k.got else none)
  | none =>
    if !(runs.any fun r => rangeHeld s r.1 r.2) then (s, some [])
    else (askStart s o fold runs, none)

/-- The operation of an owner, if one is in progress. -/
def askOf (s : State) (o : Owner) : Option Ask := s.asks.find? fun k => k.owner == o

/-- One more access of operation k goes to the hold queue of its channel. -/
def askMore (s : State) (k : Ask) (x : Access) : State :=
  holdPush (putAsk s { k with left := k.left + 1 }) (locChan x.addr) { x with fold := k.fold, ask := some k.id }

/-- A new operation of one access that does not read (a posted write, an atomic). -/
def askNew (s : State) (o : Owner) (fold : Option Nat) (x : Access) : State :=
  askMore { s with nextAsk := s.nextAsk + 1 } { id := s.nextAsk + 1, owner := o, fold := fold } x

/-- One more such access of an owner's operation, which begins where none is in progress. -/
def askPush (s : State) (o : Owner) (fold : Option Nat) (x : Access) : State :=
  match askOf s o with
  | some k => askMore s k x
  | none => askNew s o fold x

/-- A command's posted writes wait in hold queues (R111, R171, R283). -/
def postedOf (s : State) (c q x : Nat) : Option Ask := askOf s (.posted c q x)

/-- A posted write to this device's own DRAM, line by line: performed, or held where a channel computes (R111). A tally
counts each line's bytes as they are performed (R289); a weight that is not the number of bytes (R247) counts once all
lines are. -/
def dramWrite (s : State) (fold : Option Nat) (tally : Option (Nat × Nat × Nat)) (a : Nat) (bs : List Byte)
    (host : Option Nat := none) (mask : Byte := 0xFF) (launch : Option Nat := none) : State :=
  let whole := match tally with | some t => t.2.2 != bs.length | none => false
  let id := s.nextAsk + 1
  let count (t : State) (n : Nat) : State := match tally with | some v => if whole then t else addTally t v.1 v.2.1 n | none => t
  let r := (List.range (lineCount 256 a bs.length)).foldl (fun (t : State × Nat × Bool) i =>
    let p := linePart 256 a bs.length i
    let l := locOf (a + p.1)
    let piece := (bs.drop p.1).take p.2
    if chanHolds s (locChan l) then
      let x : Access := { addr := l, len := p.2, write := true, data := piece, fold := fold, host := host, mask := mask,
                          launch := launch, tally := if whole then none else tally.map fun v => (v.1, v.2.1), weight := p.2,
                          ask := if whole then some id else none }
      (holdPush t.1 (locChan l) x, t.2.1 + 1, t.2.2)
    else
      let w := extWrite t.1 (a + p.1) (maskBytes t.1 (a + p.1) mask piece)
      (if w.2 then count w.1 p.2 else w.1, t.2.1, t.2.2 || !w.2)) (s, 0, false)
  match tally with
  | none => r.1
  | some v =>
    if !whole then r.1
    else if r.2.1 = 0 then (if r.2.2 then r.1 else addTally r.1 v.1 v.2.1 v.2.2)
    else putAsk { r.1 with nextAsk := id } { id := id, owner := .tally v.1 v.2.1 v.2.2, left := r.2.1, dropped := r.2.2 }

/-- A message of this device to another member (R460). -/
def sendFab (s : State) (m : Msg) : State := { s with fabOut := s.fabOut ++ [m] }

/-- A posted write toward the host (R278, R287, R498, R506): over the own link, or through the lead; dropped where there is
neither. Answers whether it went out. -/
def hostPost (s : State) (fold : Nat) (ha : Nat) (bs : List Byte) (relaxed : Bool := false) : State × Bool :=
  if s.hif.linkUp then ({ s with hostOut := s.hostOut ++ [{ addr := ha, data := bs, relaxed := relaxed, fn := foldFn s fold }] }, true)
  else if relays s then
    (sendFab s { dst := 0, src := s.devid, cls := .req, op := .write, fold := fold, addr := aprBase + ha, data := bs }, true)
  else (s, false)

/-- A write of device logic to a global address: local memory, the host aperture, or another member. -/
def devWrite (s : State) (fold : Option Nat) (ga : Nat) (bs : List Byte) : State × Bool :=
  let a := gLoc ga
  if gDev ga ≠ s.devid then
    (sendFab s { dst := gDev ga, src := s.devid, cls := .req, op := .write, fold := fold.getD 0, addr := a, data := bs }, true)
  else
    match region s.grade a with
    | .aperture => hostPost s (fold.getD 0) (a - aprBase) bs
    | .dram => (dramWrite s fold none a bs, true)
    | .spd => ((extWrite s a bs).1, true)
    | .cmn => ((extWrite s a bs).1, true)
    | _ => (s, false)

/-- A write of device logic for a fold that its regulators govern (R417): a write to this device's DRAM that they hold back
waits in arrival order, any other goes on; both are charged. -/
def regWrite (s : State) (f ga : Nat) (bs : List Byte) : State :=
  let a := gLoc ga
  let st := chanStack (locChan (locOf a))
  let before := s.folds.held.any fun h => h.1 == f && h.2.1 == 0 && h.2.2.1 == st
  if (before || !(regOk s f ga bs.length true)) && gDev ga == s.devid && region s.grade a == .dram then
    { s with folds := { s.folds with held := s.folds.held ++
      [(f, 0, st, { addr := locOf a, len := bs.length, write := true, data := bs, fold := some f })] } }
  else (devWrite (regPay s f ga bs.length true) (some f) ga bs).1

/-! ## Answers (R460, R495) -/

/-- An answer to the host. -/
def answer (s : State) (r : HostAns) : State := { s with hostAns := s.hostAns ++ [r] }

/-- Data that the spec leaves unspecified, with EP set (R495). -/
def answerEp (s : State) (len : Nat) : State :=
  answer { s with free := s.free + 1 } { ep := true, data := (List.range len).map (Config.freeByte s.free) }

/-- A RSP to the sender of a request. -/
def respond (s : State) (m : Msg) (op : MsgOp) (data : List Byte) : State :=
  sendFab s { dst := m.src, src := s.devid, cls := .rsp, op := op, fold := m.fold, data := data, len := data.length, tag := m.tag }

/-- A read of the host performed at this device's memory (R431, R495). -/
def hostReads (s : State) (a len : Nat) : State :=
  let t := eccTouch s { path := 9 } (unitsOf a len)
  match t.2 with
  | some _ => answerEp t.1 len
  | none => answer t.1 { data := viewBytes s a len }

/-- A read of another member performed at this device's memory (R431, R476). -/
def peerReads (s : State) (m : Msg) : State :=
  let t := eccTouch s { path := 10 } (unitsOf m.addr m.len)
  match t.2 with
  | some _ => respond t.1 m .rspPoison []
  | none => respond t.1 m .rspData (viewBytes s m.addr m.len)

/-! ## Completion records (R208, R399, R400) -/

/-- The four words of a record (R208). An output record of the serving engine brings words 1 to 3 (R355). -/
def recWords (s : State) (phase : Bool) (r : Rec) : List Nat :=
  let w0 := r.tag % 2 ^ 32 + (r.status % 256) * 2 ^ 32 + (r.engine % 8) * 2 ^ 40 + (r.context % 8) * 2 ^ 43
    + phase.toNat * 2 ^ 47 + (r.core % 256) * 2 ^ 48 + (r.kind % 256) * 2 ^ 56
  match r.words with
  | some (a, b, c) => [w0, a.toNat, b.toNat, c.toNat]
  | none => [w0, r.inner % 2 ^ 20 + (r.outer % 2 ^ 20) * 2 ^ 20, r.count % 2 ^ 48, s.time % 2 ^ 64]

/-- The contexts of a core's queues, or what else is ready there, change now (R200, R201). -/
def stir (s : State) (c : Nat) : State := setCore s c { getCore s c with changed := s.time }

/-- Every member of ring n halts with its contexts, and STATE becomes HALTED (R498); a STOPPING ring goes on stopping. -/
def haltRing (s : State) (n : Nat) : State :=
  let r := getRing s n
  let s := setRing s n { r with state := if r.state = 4 then 4 else 3, halted := List.replicate (ringMembers s n) true }
  (memberCores s n).foldl (fun t c => match ringCtx t c n with
    | some x => (List.range 4).foldl (fun u q => setCtx u c q x { getCtx u c q x with halted := true }) (stir t c)
    | none => t) s

/-- A record of ring n put into the next slot of its completion area, with its interrupt (R399, R400). A record whose
write to host memory is dropped halts the ring (R498). -/
def writeRec (s : State) (n : Nat) (r : Rec) : State :=
  let rg := getRing s n
  let bs := (recWords s rg.phase r).flatMap (leBytes 8)
  let ga := cplBase s n + 32 * rg.wpos
  let w := devWrite (regPay s ((ringFold s n).getD 16) ga 32 true) (ringFold s n) ga bs
  let s := w.1
  let wrap := rg.wpos + 1 = cplLen s n
  let rg := { rg with wpos := if wrap then 0 else rg.wpos + 1, phase := if wrap then !rg.phase else rg.phase }
  if !w.2 then haltRing (setRing s n rg) n
  else if r.irq then
    let p := rg.pendIrq + 1
    if coalCount s n ≤ p then ringIrq (setRing s n { rg with pendIrq := 0 }) n
    else setRing s n { rg with pendIrq := p, firstIrq := if rg.pendIrq = 0 then s.time else rg.firstIrq }
  else setRing s n rg

/-- A record of ring n may be written now: its area has room (R399), and the fold's regulators let the write go (R417). -/
def recGo (s : State) (n : Nat) : Bool :=
  cplRoom s n && regOk s ((ringFold s n).getD 16) (cplBase s n + 32 * (getRing s n).wpos) 32 true

/-- A record of a queue: written, or kept in the queue while the area has no room (R399). -/
def emitRec (s : State) (c q x : Nat) (r : Rec) : State :=
  let k := getCtx s c q x
  if k.waiting.isEmpty && recGo s k.ring then writeRec s k.ring r
  else setCtx s c q x { k with waiting := k.waiting ++ [r] }

/-- A record of a service ring: written, or kept while the area has no room (R355, R399). -/
def emitSvc (s : State) (n : Nat) (r : Rec) : State :=
  let rg := getRing s n
  if rg.waiting.isEmpty && recGo s n then writeRec s n r
  else setRing s n { rg with waiting := rg.waiting ++ [r] }

end Sys2Proof.Machine
end

