-- ==== Sys2Proof/Machine/Operands.lean ====
section
/-! DEFINITION. The command header, address registers, repeats and the range checks before each repeat (R180, R181,
R184-R188, R409, R523). -/

namespace Sys2Proof.Machine

open Sys2Proof.Config (Grade cores)

/-! ## The header (R180, R181) -/

/-- Word i of a command. -/
def cmdW (k : Cmd) : Nat → Word
  | 0 => k.w0 | 1 => k.w1 | 2 => k.w2 | 3 => k.w3 | 4 => k.w4 | 5 => k.w5 | 6 => k.w6 | 7 => k.w7 | _ => 0

def opcode (k : Cmd) : Nat := fld k.w0 7 0
def cEngine (k : Cmd) : Nat := fld k.w0 10 8
def cSigen (k : Cmd) : Bool := bit k.w0 16
def cIrq (k : Cmd) : Bool := bit k.w0 17
def cYmark (k : Cmd) : Bool := bit k.w0 18
def cTrace (k : Cmd) : Bool := bit k.w0 19
def cSigflag (k : Cmd) : Nat := fld k.w0 31 24
def cTag (k : Cmd) : Nat := fld k.w0 63 32
def cInner (k : Cmd) : Nat := fld k.w1 43 24
def cOuter (k : Cmd) : Nat := fld k.w1 63 44

/-- Register of role r, and its NOINC bit. -/
def cSel (k : Cmd) (r : Nat) : Nat := fld k.w1 (5 * r + 3) (5 * r)
def cNoinc (k : Cmd) (r : Nat) : Bool := bit k.w1 (5 * r + 4)

/-- The queue that owns flag f (R192). -/
def flagOwner (f : Nat) : Nat := f / 64

/-- Opcodes of R76, R156, R170-R174, R231, R265, R139, R294, R183 on each engine. -/
def opcodeDefined (q op : Nat) : Bool :=
  (0xF0 ≤ op && op ≤ 0xF6) ||
  match q with
  | 0 => 1 ≤ op && op ≤ 4
  | 1 => (1 ≤ op && op ≤ 5) || (8 ≤ op && op ≤ 12)
  | 2 => (1 ≤ op && op ≤ 4) || op == 0x10 || op == 0x30 || op == 0x31
  | 3 => 1 ≤ op && op ≤ 9
  | _ => false

/-- The format check of the header at the queue (R182, R9): reserved bits of words 0 and 1, an undefined opcode, a
SIGFLAG the queue does not own. -/
def headerBad (q : Nat) (k : Cmd) : Bool :=
  fld k.w0 15 11 != 0 || fld k.w0 23 20 != 0 || fld k.w1 23 20 != 0 ||
  opcode k == 0 || !(opcodeDefined q (opcode k)) || (cSigen k && flagOwner (cSigflag k) != q)

/-! ## Address registers (R184-R186) -/

/-- The address of a register: (ORIGIN + OFF) mod 2^56. -/
def arAddr (r : AReg) : Nat := (r.origin.toNat + r.off.toNat) % 2 ^ 56

/-- wrap(OFF) of R186: OFF mod WRAP in 0 to WRAP - 1 where WRAP is not 0. -/
def arWrap (r : AReg) (off : Int) : BitVec 64 :=
  if r.wrap = 0 then BitVec.ofInt 64 off else BitVec.ofInt 64 (off % (r.wrap.toNat : Int))

/-- One advance after a repeat (R186); `last` after the last inner repeat of an outer iteration. -/
def arAdvance (r : AReg) (last : Bool) : AReg :=
  let r1 := { r with off := arWrap r (r.off.toInt + r.istr.toInt) }
  if last then { r1 with off := arWrap r1 (r1.off.toInt + r1.ostr.toInt) } else r1

/-- The distinct registers that some used role names with NOINC = 0 (R186). -/
def advancing (k : Cmd) (roles : List Nat) : List Nat :=
  ((roles.filter fun r => !(cNoinc k r)).map (cSel k)).eraseDups

/-- Every register named by a used role with NOINC = 0 advances once (R186). -/
def advanceAll (s : State) (c q x : Nat) (k : Cmd) (roles : List Nat) (last : Bool) : State :=
  (advancing k roles).foldl (fun t a => setAr t c q x a (arAdvance (getAr t c q x a) last)) s

/-! ## Who runs a command, and range checks (R188) -/

/-- The queue context a command runs in. -/
structure Who where
  core : Nat
  q : Nat
  ctx : Nat
  ring : Nat
  fold : Nat
  cls : Nat
  deriving DecidableEq, Repr, Inhabited

/-- A context as a Who; a context whose ring lies in no fold has fold 16, which reaches nothing. -/
def whoOf (s : State) (c q x : Nat) : Who :=
  let k := getCtx s c q x
  { core := c, q := q, ctx := x, ring := k.ring, fold := (ringFold s k.ring).getD 16,
    cls := if x = 6 then 0 else if x = 7 then 4 else ringClass s k.ring }

/-- The address register of role r. -/
def roleAr (s : State) (w : Who) (k : Cmd) (r : Nat) : AReg := getAr s w.core w.q w.ctx (cSel k r)

/-- A range a repeat touches: where it begins, its length, the register it was formed from, whether it is written,
whether it must lie in the core's own scratchpad window (R70, R152), whether it may name another device, the host
aperture (R278) and registers (R277, R523). -/
structure Rng where
  addr : Nat
  len : Nat
  ar : Option AReg := none
  write : Bool := false
  own : Bool := false
  remote : Bool := false
  aperture : Bool := false
  csr : Bool := false
  deriving DecidableEq, Repr, Inhabited

def meets (a len lo hi : Nat) : Bool := len != 0 && a < hi && lo < a + len

/-- The areas of R409 of a scratchpad window: the urgent window where the core is in the set of an enabled class-0
ring, the firmware area where the fold has a bound model. -/
def urgentCore (s : State) (c : Nat) : Bool := (getCtx s c 0 6).bound

/-- Check of the reserved areas (R409): the range lies in core c's window at offset o. -/
def reservedOk (s : State) (w : Who) (fwArea : Bool) (c o len : Nat) : Bool :=
  if w.ctx = 6 then
    0x4C0000 ≤ o && o + len ≤ 0x500000 && (getCtx s c 0 6).bound && (getCtx s c 0 6).ring == w.ring
  else if w.ctx = 7 then true
  else
    !(urgentCore s c && meets o len 0x4C0000 0x500000) && !(fwArea && meets o len 0x500000 0x600000)

/-- The fold has a bound model (R344, R409): its firmware areas are reserved. -/
def foldHasModel (s : State) (f : Nat) : Bool := s.srv.models.any fun e => e.2.bound && e.2.fold == f

/-- Check 1 of R188. Another member has at most the cores of the larger grade. -/
def rngAbsent (s : State) (r : Rng) : Bool :=
  touchesAbsent (if gDev r.addr = s.devid then s.grade else .f) (gLoc r.addr) r.len

/-- Check 2 of R188. -/
def rngBound (r : Rng) : Bool :=
  match r.ar with
  | none => false
  | some a => r.len != 0 && !(a.wlo.toNat ≤ r.addr && r.addr + r.len ≤ a.whi.toNat)

/-- A device that is a member of the domain (R476, R481). -/
def isMember (s : State) (d : Nat) : Bool := d == s.devid || bit (rget s (swvReg 8)) d

/-- Check 3 of R188: unpopulated, outside the fold's reach, outside the own-window rule, in a reserved area. -/
def rngAccess (s : State) (w : Who) (r : Rng) : Bool :=
  let a := gLoc r.addr
  if r.len = 0 then false
  else if gDev r.addr ≠ s.devid then
    -- one member holds the whole range (R241), and none of it is a hole
    !(r.remote && isMember s (gDev r.addr)) || !(populated .f a r.len) ||
      (match region .f a with | .aperture => !r.aperture | .csr => !r.csr | _ => false)
  else if !(populated s.grade a r.len) then true
  else if r.own && !(spdWin w.core ≤ a && a + r.len ≤ spdWin w.core + 0x600000) then true
  else
    match region s.grade a with
    | .spd =>
      let c := (a - spdBase) / 0x800000
      !(foldReach s w.fold a r.len r.write) ||
        !(reservedOk s w (foldHasModel s w.fold) c ((a - spdBase) % 0x800000) r.len)
    | .aperture => !r.aperture
    | .csr => !(r.csr && foldReach s w.fold a r.len r.write)
    | _ => !(foldReach s w.fold a r.len r.write)

/-- The first failing check over all ranges of a repeat, in the order of R188; then ST_FLT_LINK where the domain is
DEGRADED and a range names another device (R478). A tally that the repeat names may fail the first and the third. -/
def checkRanges (s : State) (w : Who) (rs : List Rng) (noTally : Bool := false) (farTally : Bool := false) : Option Nat :=
  if noTally || rs.any (rngAbsent s) then some stAbsent
  else if rs.any rngBound then some stBound
  else if farTally || rs.any (rngAccess s w) then some stAccess
  else if rs.any (fun r => r.len != 0 && gDev r.addr != s.devid) && fld (rget s (swvReg 0)) 1 0 == 3 then some stLink
  else none

/-- The runs of ranges that lie on this device, by local address. -/
def ownRuns (s : State) (rs : List (Nat × Nat)) : List (Nat × Nat) :=
  (rs.filter fun r => gDev r.1 == s.devid).map fun r => (gLoc r.1, r.2)

end Sys2Proof.Machine
end

