-- ==== Sys2Proof/Machine/Engine.lean ====
section
/-! DEFINITION. What every engine queue does with a command: issue, repeats, completion, faults, cancellation
(R12, R178, R182, R186, R197, R206-R209, R211, R399, R410, R527). -/

namespace Sys2Proof.Machine

open Sys2Proof.Config (Grade cores)

/-- A command goes on only where the core exists. -/
def onCore (s : State) (c : Nat) (k : Out State) : Out State := if coreOk s c then k else .fault .noSuchUnit

/-- The context that runs in queue q of core c. -/
def curCtx (s : State) (c q : Nat) : Option Nat := ((getCore s c).cur.getD q none)

/-- A queue of the running ring that stands at a mark while a switch is requested holds there (R403). -/
def heldAtMark (s : State) (c x : Nat) (k : QCtx) : Bool :=
  k.atMark && x < 6 && (getCore s c).request.isSome

/-- A member that a switch has displaced has not got its live ranges back (R403 step 5). -/
def notRestored (s : State) (n m : Nat) : Bool := ((getRing s n).saved.getD m none).isSome

/-- Issue rate of core c in sixteenths: that of its compute die (R539, R560). -/
def issueRate (s : State) (c : Nat) : Nat :=
  let v := rget s (thmReg 0x20)
  if corePdk s.grade c < 2 then fld v 4 0 else fld v 12 8

/-- The engine of queue q waits out the issue rate (R540). -/
def rests (s : State) (c q : Nat) : Bool := decide (s.time < (getCore s c).slow.getD q 0)

/-- A repeat that occupied its engine for cyc cycles has ended: at n/16 a matrix or vector engine waits ceil(cyc * (16 - n) / n)
cycles, four to a tick, before it issues again (R28, R540). -/
def engineRest (s : State) (w : Who) (cyc : Nat) : State :=
  let n := issueRate s w.core
  let k := getCore s w.core
  if 2 ≤ w.q ∨ 16 ≤ n then s
  else setCore s w.core { k with slow := lset k.slow w.q (s.time + cdiv (cdiv (cyc * (16 - n)) n) 4) }

/-- The context may issue its next command in queue q: the engine does not wait out the issue rate, the context is bound, not
halted, not stopped, not held at a mark, its live ranges restored, and its ring's completion area has room (R206, R399, R403,
R412, R540). -/
def mayIssue (s : State) (c q x : Nat) (k : QCtx) : Bool :=
  !(rests s c q) && k.bound && !k.halted && !k.suspended && !(heldAtMark s c x k) && !(notRestored s k.ring k.member) && cplRoom s k.ring &&
  k.waiting.isEmpty

/-- The crook's record of a command (R527), at issue or at completion. -/
def trace (s : State) (w : Who) (k : Cmd) (status : Nat) (done : Bool) : State :=
  let a := crkReg (0x100 * w.core)
  let v := rget s a
  let lg := fld v 54 50
  if cTrace k && bit v 0 && 12 ≤ lg && lg ≤ 30 then
    let pos := tget 0 s.crk w.core
    let base := fld v 49 6 * 64
    let w0 := cTag k + status * 2 ^ 32 + (w.q % 8) * 2 ^ 40 + (w.ctx % 8) * 2 ^ 43 + done.toNat * 2 ^ 46 + w.core * 2 ^ 48
    let bs := leBytes 8 w0 ++ leBytes 8 w.ring ++ leBytes 8 s.time ++ leBytes 8 0
    if populated s.grade base 32 && foldReach s w.fold base (2 ^ lg) true then
      let s := regWrite s w.fold (gOwn s (base + pos)) bs
      if pos + 32 < 2 ^ lg then { s with crk := tput 0 s.crk w.core (pos + 32) }
      else ror { s with crk := tput 0 s.crk w.core 0 } a 2
    else s
  else s

/-- The record of a finished command takes effect (R178, R195, R197): its signal where it ended with ST_OK, the
mark it leaves, then its record. -/
def settle (s : State) (w : Who) (k : Cmd) (r : Rec) : State :=
  let s := if r.status = stOk ∧ cSigen k then signalFlag s w.core (cSigflag k) 1 else s
  let s := trace s w k r.status true
  let x := getCtx s w.core w.q w.ctx
  let s := setCtx s w.core w.q w.ctx { x with atMark := cYmark k, lastTag := r.tag }
  emitRec s w.core w.q w.ctx r

/-- The records at the head of a queue whose commands have ended (R178). -/
def drainOpens (w : Who) : Nat → State → State
  | 0, s => s
  | n + 1, s =>
    let x := getCtx s w.core w.q w.ctx
    match x.opens with
    | o :: t => match o.fin with
      | some r => drainOpens w n (settle (setCtx s w.core w.q w.ctx { x with opens := t }) w o.cmd r)
      | none => s
    | [] => s

/-- Writes of a queue's native commands wait in hold queues: no record of the queue is written before them (R283); a ring
in compatibility mode does not wait (R284). -/
def postWaits (s : State) (w : Who) : Bool := (postedOf s w.core w.q w.ctx).isSome && !(ringCompat s w.ring)

/-- The address registers of a queue as the launch-unit commands passed beside its transfer leave them (R139, R186). -/
def luCommit (s : State) (w : Who) (os : List Open) : State :=
  os.foldl (fun t o => match o.lu with
    | some l =>
      let t := setAr t w.core w.q w.ctx (cSel o.cmd 0) l.arEnd
      if opcode o.cmd = 0x31 then setAr t w.core w.q w.ctx (cSel o.cmd 1) l.ar1End else t
    | none => t) s

/-- The end of a command: its record takes effect now, or behind the earlier commands of the queue that have not
ended (R178) and the queue's writes that are still held (R283). -/
def endCmd (s : State) (w : Who) (k : Cmd) (tag status inner outer count : Nat) : State :=
  let r : Rec := { tag := tag, status := status, engine := w.q, context := w.ctx, core := w.core, inner := inner,
                   outer := outer, count := count, irq := cIrq k }
  let s := dropAsks s (.queue w.core w.q w.ctx)
  let x := getCtx s w.core w.q w.ctx
  let o : Open := if postWaits s w then { cmd := k, post := some r } else { cmd := k, fin := some r }
  match x.opens.findIdx? (·.runs) with
  | some i =>
    let s := if status = stOk then luCommit s w (x.opens.drop (i + 1)) else s
    drainOpens w (x.opens.length + 1) (setCtx s w.core w.q w.ctx { x with run := none, opens := lset x.opens i o })
  | none =>
    if x.opens.isEmpty && o.fin.isSome then settle (setCtx s w.core w.q w.ctx { x with run := none }) w k r
    else setCtx s w.core w.q w.ctx { x with run := none, opens := x.opens ++ [o] }

/-- Indices and count of a command that is cancelled where it stands (R209): the first repeat not performed; zero
for a command that does not repeat; for a block its last position and the commands executed (R173). -/
def stopIdx (x : QCtx) (r : Run) : Nat × Nat × Nat :=
  if opcode r.cmd = 0x05 ∧ cEngine r.cmd = 3 then ((x.blk.getD {}).last, 0, (x.blk.getD {}).done)
  else if 0xF0 ≤ opcode r.cmd then (0, 0, 0)
  else (r.pos % max 1 (cInner r.cmd), r.pos / max 1 (cInner r.cmd), r.count + r.moved)

/-- A launch that has not begun leaves a channel's queue; a DEFERRED channel with no launch left is in MEM mode again
(R101). -/
def unqueue (ch : Chan) (id : Nat) : Chan :=
  let head := ch.launches.head? = some id
  let rest := ch.launches.filter (· ≠ id)
  { ch with launches := rest, started := ch.started && !head, interrupted := ch.interrupted && !head,
            mode := if ch.mode = 5 ∧ rest.isEmpty then 0 else ch.mode }

/-- A launch is dropped (R145, R150): at once on a channel where it has not started or has been put off, at the end of
the current bout where it runs. -/
def dropLaunch (s : State) (id : Nat) : State :=
  match tget none s.launches id with
  | none => s
  | some l =>
    l.chans.foldl (fun t e =>
      if e.state ≠ 0 then t
      else
        let ch := getChan t e.chan
        if ch.launches.head? = some id ∧ ch.started ∧ ch.mode ≠ 5 then setChan t e.chan { ch with dropping := ch.dropping ++ [id] }
        else
          let t := setChan t e.chan (unqueue ch id)
          match tget none t.launches id with
          | none => t
          | some m =>
            let cs := m.chans.map fun c => if c.chan = e.chan then { c with state := 2 } else c
            { t with launches := tput none t.launches id (some { m with chans := cs }) }) s

/-- CANCEL on the launch unit's commands of a context (R145): no further repeat, and their launches are dropped. -/
def dropLaunches (s : State) (w : Who) : State :=
  let x := getCtx s w.core w.q w.ctx
  let s := x.opens.foldl (fun t o => match o.lu with
    | some lr => if o.fin.isSome then t else lr.ids.flatten.foldl dropLaunch t
    | none => t) s
  let s := dropAsks s (.unit w.core w.ctx)
  let x := getCtx s w.core w.q w.ctx
  setCtx s w.core w.q w.ctx { x with opens := x.opens.map fun o => { o with lu := o.lu.map fun lr => { lr with cancel := true } } }

/-- CORE_QFAULT of a queue (R211): the first fault since VALID was clear. -/
def qfault (s : State) (w : Who) (tag status otherTag otherQ detail cause : Nat) : State :=
  let a := coreReg w.core (0x800 + 16 * w.q)
  if bit (rget s a) 16 then s
  else
    let s := rset s a (BitVec.ofNat 64 (w.ring % 65536 + 2 ^ 16 + (w.ctx % 8) * 2 ^ 21 + (status % 256) * 2 ^ 24 + (tag % 2 ^ 32) * 2 ^ 32))
    rset s (a + 8) (BitVec.ofNat 64 (cause % 16 + (detail % 256) * 2 ^ 8 + (otherQ % 4) * 2 ^ 30 + (otherTag % 2 ^ 32) * 2 ^ 32))

/-- The commands of one context on one core end with a status (R206 steps 3 and 4, R412, R547): the running one at its
repeat boundary with its progress, those still in the input buffer with zero indices and zero count. -/
def endCtx (s : State) (c q x st : Nat) : State :=
  let w := whoOf s c q x
  let k := getCtx s c q x
  let s := dropLaunches s w
  -- a status of the Faulted class is recorded as the queue's fault (R211)
  let s := if 0x20 ≤ st then
      match k.run, k.buf with
      | some r, _ => qfault s w (cTag r.cmd) st 0 0 0 0
      | none, b :: _ => qfault s w (cTag b) st 0 0 0 0
      | none, [] => s
    else s
  let s := match k.run with
    | none => s
    | some r => let i := stopIdx k r; endCmd s w r.cmd (cTag r.cmd) st i.1 i.2.1 i.2.2
  let k1 := getCtx s c q x
  let s := setCtx s c q x { k1 with buf := [], staged := [], blk := none }
  k.buf.foldl (fun t b => endCmd t w b (cTag b) st 0 0 0) s

/-- They end with ST_CANCELLED. -/
def cancelCtx (s : State) (c q x : Nat) : State := endCtx s c q x stCancelled

/-- A context has nothing left to end: no command, no record that waits. -/
def ctxEmpty (k : QCtx) : Bool := k.run.isNone && k.buf.isEmpty && k.opens.isEmpty && k.waiting.isEmpty

/-- The contexts of a ring on one core, in all four queues, are released (R395); a queue they held has none. -/
def releaseCtx (s : State) (c n x : Nat) : State :=
  let s := (List.range 4).foldl (fun t q => setCtx t c q x {}) s
  let k := getCore s c
  let drop1 (v : Option Nat) : Option Nat := if v = some x then none else v
  setCore s c { k with
    running := if k.running = some (n, x) then none else k.running
    cur := k.cur.map drop1
    displaced := k.displaced.map fun d => d.map drop1
    request := match k.request with | some (r, t) => if r = n then none else some (r, t) | none => none
    changed := s.time }

/-- A STOPPING ring whose last record has been written releases its contexts and is DISABLED (R395). -/
def finishStop (s : State) (n : Nat) : State :=
  let r := getRing s n
  if r.state ≠ 4 then s
  else
    let done := (memberCores s n).all fun c => match ringCtx s c n with
      | some x => (List.range 4).all fun q => ctxEmpty (getCtx s c q x)
      | none => true
    if done && r.waiting.isEmpty && r.opens.isEmpty then
      let s := (memberCores s n).foldl (fun t c => match ringCtx t c n with | some x => releaseCtx t c n x | none => t) s
      setRing s n { err := r.err }
    else s

/-- The member of ring n on its core halts: fetch stops there, the ring's STATE becomes HALTED and its vector is sent
at once (R206 step 2, R410). -/
def haltMember (s : State) (n m : Nat) : State :=
  let r := getRing s n
  ringIrq (setRing s n { r with state := if r.state = 4 then 4 else 3, halted := lset r.halted m true }) n

/-- What wait a fault ended (R211). -/
structure Why where
  otherTag : Nat := 0
  otherQ : Nat := 0
  detail : Nat := 0
  cause : Nat := 0
  deriving DecidableEq, Repr, Inhabited

/-- A fault's own queue (R206 step 1): the context halts and the record is written. -/
def faultQueue (s : State) (w : Who) (k : Cmd) (tag status inner outer count : Nat) (why : Why) : State :=
  let s := qfault s w tag status why.otherTag why.otherQ why.detail why.cause
  let x := getCtx s w.core w.q w.ctx
  let s := setCtx s w.core w.q w.ctx { x with halted := true, staged := [], blk := none }
  endCmd s w k tag status inner outer count

/-- The rest of R206 after the faulting queues have written their records: fetch stops, the other queues of the ring
on the core are cancelled, and every command in an input buffer ends with ST_CANCELLED. -/
def faultRing (s : State) (w : Who) (faulting : List Nat) : State :=
  let x := getCtx s w.core w.q w.ctx
  let s := haltMember (stir s w.core) w.ring x.member
  (List.range 4).foldl (fun t q =>
    if faulting.contains q then
      let k := getCtx t w.core q w.ctx
      let t := setCtx t w.core q w.ctx { k with buf := [] }
      k.buf.foldl (fun u b => endCmd u { w with q := q } b (cTag b) stCancelled 0 0 0) t
    else cancelCtx t w.core q w.ctx) s

/-- A command faults on its queue (R206). -/
def faultCmd (s : State) (w : Who) (k : Cmd) (tag status inner outer count : Nat) (why : Why := {}) : State :=
  faultRing (faultQueue s w k tag status inner outer count why) w [w.q]

/-- A queue's held writes have all been performed (R283): the records that waited for them are written. Where one was
dropped in part, the first command that waits with ST_OK, else the one that runs, faults with ST_FLT_UNCORR (R427). -/
def postServed (s : State) (c q x : Nat) (dropped : Bool) : State :=
  let w := whoOf s c q x
  let k := getCtx s c q x
  let done (o : Open) : Open := match o.post with | some r => { o with fin := some r, post := none } | none => o
  let all := k.opens.map done
  let drain (t : State) (os : List Open) : State := drainOpens w (os.length + 1) (setCtx t c q x { getCtx t c q x with opens := os })
  if !dropped then drain s all
  else
    match k.opens.findIdx? fun o => match o.post with | some r => r.status == stOk | none => false with
    | some i =>
      let o := all.getD i { cmd := {} }
      let s := qfault s w (cTag o.cmd) stUncorr 0 0 0 0
      let s := setCtx s c q x { getCtx s c q x with halted := true, staged := [] }
      let s := drain s (lset all i { o with fin := o.fin.map fun r => { r with status := stUncorr } })
      faultRing (cancelCtx s c q x) w [q]
    | none =>
      match k.run with
      | some r => let i := stopIdx k r; faultCmd (drain s all) w r.cmd (cTag r.cmd) stUncorr i.1 i.2.1 i.2.2
      | none => drain s all

/-! ## Issue and repeats -/

/-- What one repeat comes to: done with so much more COUNT, a fault with so much of it, a resource wait, a part of it
done, or the end of a command whose descriptor makes it empty (R236). -/
inductive RepOut where
  | done (s : State) (inc : Nat)
  | fault (s : State) (status : Nat) (inc : Nat)
  | wait (s : State)
  | more (s : State)
  | void (s : State)

/-- What an engine command is made of. -/
structure Eng where
  /-- roles of AR0-AR3 the command uses -/
  roles : Cmd → List Nat
  /-- the checks at issue on the command's own words and the core's state (R186) -/
  check : State → Who → Cmd → Option Nat
  /-- a command-specific count is zero -/
  zero : Cmd → Bool
  /-- one repeat -/
  rep : State → Who → Cmd → Run → RepOut
  /-- cycles that a repeat occupies a matrix or vector engine for (R88, R156) -/
  cycles : Cmd → Nat := fun _ => 0

/-- INNER times OUTER. -/
def total (k : Cmd) : Nat := cInner k * cOuter k

/-- A running command's record in its context. -/
def setRun (s : State) (w : Who) (r : Run) : State :=
  setCtx s w.core w.q w.ctx { getCtx s w.core w.q w.ctx with run := some r }

/-- A resource wait of the running command begins, or goes on (R199, R213). -/
def markWait (s : State) (w : Who) : State :=
  match (getCtx s w.core w.q w.ctx).run with
  | some r =>
    match r.waiting with
    | some _ => s
    | none => setRun s w { r with waiting := some (s.time, Config.tick * fld (rget s (coreReg w.core 0x888)) 31 0) }
  | none => s

/-- Up to n repeats of the running command (R186): each repeat, then the advances; after the last one ST_OK with
(0, OUTER). The queue may stop between two repeats and nowhere else (R29, R69, R92); it stops there where the issue rate has it wait (R540). -/
def repeats (e : Eng) (w : Who) : Nat → State → State
  | 0, s => s
  | n + 1, s =>
    match (getCtx s w.core w.q w.ctx).run with
    | none => s
    | some r =>
      let k := r.cmd
      match e.rep s w k r with
      | .wait s' => markWait s' w
      | .more s' => repeats e w n s'
      | .void s' => endCmd s' w k (cTag k) stOk 0 0 0
      | .fault s' st inc =>
        faultCmd s' w k (cTag k) st (r.pos % max 1 (cInner k)) (r.pos / max 1 (cInner k)) (r.count + inc)
      | .done u inc =>
        let s' := engineRest u w (e.cycles k)
        let s1 := advanceAll s' w.core w.q w.ctx k (e.roles k) ((r.pos + 1) % max 1 (cInner k) == 0)
        let rr := (getCtx s' w.core w.q w.ctx).run.getD r
        let r1 := { rr with pos := r.pos + 1, count := r.count + inc, waiting := none, begun := false, todo := [], moved := 0 }
        if r1.pos = total k then endCmd s1 w k (cTag k) stOk 0 (cOuter k) r1.count
        else
          let s2 := setRun s1 w r1
          if rests s2 w.core w.q then s2 else repeats e w n s2

/-- The front command leaves the input buffer and becomes the running one (R178). -/
def issue (s : State) (w : Who) (k : Cmd) : State :=
  let x := getCtx s w.core w.q w.ctx
  let s := setCtx s w.core w.q w.ctx
    { x with buf := x.buf.drop 1, run := some { cmd := k, issued := s.time }, atMark := false, nextIdx := x.nextIdx + 1 }
  trace s w k 0 false

/-- The next command a queue would issue: the front of its input buffer. -/
def front (x : QCtx) : Option Cmd := match x.run with | none => x.buf.head? | some _ => none

/-- One occurrence of an engine command's row: the command of opcode op (and of sub-case `isIt`) that runs in queue q,
or is next there, goes on by up to n repeats; a next command whose opcode the engine does not define faults (R182). Where
no such command can go on, the row has nothing to act on. -/
def engineRow (e : Eng) (q op : Nat) (isIt : Cmd → Bool) (c n : Nat) (s : State) : Out State :=
  onCore s c <|
  match curCtx s c q with
  | none => .next s
  | some x =>
    let k := getCtx s c q x
    let w := whoOf s c q x
    if k.suspended then .next s
    else
      match k.run with
      | some r => if opcode r.cmd = op ∧ isIt r.cmd ∧ !r.held ∧ !(rests s c q) then .next (repeats e w n s) else .next s
      | none =>
        match k.buf.head? with
        | none => .next s
        | some m =>
          if ((opcode m = op ∧ isIt m) ∨ !(opcodeDefined q (opcode m))) ∧ mayIssue s c q x k then
            let s := issue s w m
            if headerBad q m then .next (faultCmd s w m (cTag m) stFormat 0 0 0)
            else
              match e.check s w m with
              | some st => .next (faultCmd s w m (cTag m) st 0 0 0)
              | none =>
                if total m = 0 ∨ e.zero m then .next (endCmd s w m (cTag m) stOk 0 0 0)
                else .next (repeats e w n s)
          else .next s

end Sys2Proof.Machine
end

