-- ==== Sys2Proof/Machine/Flags.lean ====
section
/-! DEFINITION. Exception flags of the engines and the stochastic-rounding stream (R53, R54, R57, R90). -/

namespace Sys2Proof.Machine

/-- Exceptions of a command into CORE_NUM_STATUS (R57, R58). -/
def raiseNum (s : State) (c : Nat) (f : NumFlags) : State := ror s (coreReg c 0xC00) (f.setWidth 64)

/-- The i-th draw from here of core c's stochastic stream, where RND selects it (R52, R54). -/
def srAt (s : State) (c : Nat) (rnd i : Nat) : Option (BitVec 16) :=
  if rnd = 1 then some (Config.srDraw c s.epoch ((getCore s c).draws + i)) else none

/-- n draws taken from the stream. -/
def srTake (s : State) (c rnd n : Nat) : State :=
  if rnd = 1 then setCore s c { getCore s c with draws := (getCore s c).draws + n } else s

/-- An INT32 or INT48 accumulator saturated (R90): ACC_SAT, and SAT_ENTRY where ACC_SAT was clear. -/
def accSat (s : State) (c e : Nat) : State :=
  let a := coreReg c 0xC40
  let v := rget s a
  if bit v 0 then s else rset s a (setFld (v ||| 1) 13 8 e)

/-- The flags of a list of results, together. -/
def orFlags (l : List (Nat × NumFlags)) : NumFlags := l.foldl (fun a p => a ||| p.2) 0

end Sys2Proof.Machine
end

