-- ==== Sys2Proof/Machine/Elems.lean ====
section
/-! DEFINITION. Element formats by their codes (R41, R42, R77, R130, R155), packed streams of elements, and
zero-skip blocks (R256-R262). -/

namespace Sys2Proof.Machine

/-- Width in bits of the element format with a code of R77 or R155; 0 for an invalid code. -/
def eltBits : Nat → Nat
  | 0x0 => 8 | 0x1 => 8 | 0x2 => 6 | 0x3 => 6 | 0x4 => 4 | 0x5 => 8 | 0x6 => 4 | 0x7 => 8
  | 0x8 => 16 | 0x9 => 16 | 0xA => 32 | 0xB => 32 | 0xC => 48 | 0xD => 64 | _ => 0

/-- The floating-point format of a code, if it is one. -/
def fltOf : Nat → Option FFmt
  | 0x0 => some e4m3 | 0x1 => some e5m2 | 0x2 => some e3m2 | 0x3 => some e2m3 | 0x4 => some e2m1
  | 0x8 => some bf16 | 0x9 => some fp16 | 0xA => some fp32 | 0xD => some fp64 | _ => none

def isFlt (c : Nat) : Bool := (fltOf c).isSome

/-- Formats that an MX block may hold (R45, R77). -/
def mxAllowed (c : Nat) : Bool := c ≤ 5

/-- emax of an MX element format (R45). -/
def mxEmax : Nat → Int
  | 0x0 => 8 | 0x1 => 15 | 0x2 => 4 | 0x3 => 2 | 0x4 => 2 | _ => 0

/-- Bounds of an integer format (R41). -/
def intBounds : Nat → Int × Int
  | 0x5 => (-128, 127) | 0x6 => (-8, 7) | 0x7 => (0, 255)
  | 0xB => (-2147483648, 2147483647) | _ => (-140737488355328, 140737488355327)

/-- The integer an encoding of an integer format holds. -/
def intVal (c raw : Nat) : Int := if c = 0x7 then (raw % 256 : Nat) else sx (eltBits c) raw

/-- The exact value of an element (R38, R41). -/
def eltVal (c raw : Nat) : XVal :=
  match fltOf c with
  | some f => fdec f raw
  | none => xOfInt (intVal c raw)

/-- The value of an MX element before its scale: an INT8 element carries 2^-6 (R45). -/
def mxVal (c raw : Nat) : XVal := if c = 5 then xScale (eltVal 5 raw) (-6) else eltVal c raw

/-- An element encoded (R55, R56), from a float or integer value. -/
def eltEnc (c : Nat) (draw : Option (BitVec 16)) (satn : Bool) (v : XVal) : Nat × NumFlags :=
  match fltOf c with
  | some f => fenc f draw satn v
  | none =>
    let b := intBounds c
    let r := xToInt b.1 b.2 draw v
    (wrapN (eltBits c) r.1, r.2)

/-- An MX element encoded: always saturating (R48). DESIGN CHOICE (log entry 88): R48 saturates to ±maximum what exceeds
the element format's maximum, and R41 and R55 let INT8 hold -128: an MXINT8 element that rounds to -128 stays -128,
without OVF; only what rounds below -128 saturates. -/
def mxEnc (c : Nat) (draw : Option (BitVec 16)) (v : XVal) : Nat × NumFlags :=
  if c = 5 then eltEnc 5 draw true (xScale v 6) else eltEnc c draw true v

/-- Element i of a packed stream of w-bit elements (R42): a little-endian run of bits. -/
def unpackAt (w : Nat) (n : Nat) (i : Nat) : Nat := (n >>> (w * i)) % 2 ^ w

/-- The first n elements of packed bytes. -/
def unpack (w n : Nat) (bs : List Byte) : List Nat :=
  let v := leNat bs
  (List.range n).map (unpackAt w v)

/-- Bytes of a packed row of n elements (R42). -/
def rowBytes (w n : Nat) : Nat := cdiv (n * w) 8

/-- The number whose bits are the elements side by side. -/
def packNat (w : Nat) : List Nat → Nat
  | [] => 0
  | x :: t => x % 2 ^ w + 2 ^ w * packNat w t

/-- A packed row; padding bits are zero (R43). -/
def pack (w : Nat) (xs : List Nat) : List Byte := leBytes (rowBytes w xs.length) (packNat w xs)

/-- FP32 value of 4 bytes at position i of a byte list. -/
def f32At (bs : List Byte) (i : Nat) : XVal := fdec fp32 (leNat ((bs.drop (4 * i)).take 4))

/-- An exact value rounded to nearest even to FP32 (the encoding and its flags). -/
def rne32 (v : XVal) : Nat × NumFlags := fenc fp32 none false v

/-- Bytes the spec leaves unspecified after a fault (R91, R431): free values in the given local ranges, but for stored units
that cannot be read. -/
def scramble (s : State) (rs : List (Nat × Nat)) : State :=
  rs.foldl (fun t r =>
    let us := (unitsOf r.1 r.2).filter fun u => !(unitView t u).ue
    let v := us.foldl applyView { t with free := t.free + 1 }
    us.foldl encodeUnit (putBytes (fun l => us.contains (unitOf l)) v r.1 ((List.range r.2).map (Config.freeByte t.free)))) s

/-! ## Zero-skip blocks -/

/-- Map code of block i of a map that begins at a local address (R256, R257). -/
def mapCode (s : State) (base i : Nat) : Nat := ((viewByte s (locOf (base + i / 4))).toNat >>> (2 * (i % 4))) % 4

/-- Number of 1 bits of a byte list. -/
def popBytes (bs : List Byte) : Nat := bs.foldl (fun a b => a + popc 8 b.toNat) 0

/-- Expansion of a PACKED place of 512 bytes (R259). -/
def unpackedFrom (place : List Byte) : Nat → Nat → Nat → List Byte
  | 0, _, _ => []
  | n + 1, b, k =>
    if ((place.getD (8 + b / 8) 0).toNat >>> (b % 8)) % 2 = 1 then
      (if 72 + k < 512 then place.getD (72 + k) 0 else 0) :: unpackedFrom place n (b + 1) (k + 1)
    else 0 :: unpackedFrom place n (b + 1) k

def unpackPacked (place : List Byte) : List Byte := unpackedFrom place 512 0 0

/-- Stored bytes of a PACKED place (R256). -/
def packedLen (place : List Byte) : Nat := min 512 (72 + popBytes ((place.drop 8).take 64))

/-- SLOT and W of a PALETTE place (R260). -/
def palSlot (place : List Byte) : Nat := (place.getD 0 0).toNat % 8
def palW (place : List Byte) : Nat := ((place.getD 0 0).toNat / 8) % 2

/-- Entry e of palette n of core c (R272), and its width bit (R271). -/
def palEntry (s : State) (c n e : Nat) : Nat := fld (rget s (coreReg c (0xE40 + 32 * n + 8 * (e / 4)))) (16 * (e % 4) + 15) (16 * (e % 4))
def palEw (s : State) (c n : Nat) : Nat := fld (rget s (coreReg c 0xE10)) n n

/-- Expansion of a PALETTE place with core c's palettes (R260). -/
def unpackPalette (s : State) (c : Nat) (place : List Byte) : List Byte :=
  let slot := palSlot place
  let idx (e : Nat) : Nat := ((place.getD (8 + e / 2) 0).toNat >>> (4 * (e % 2))) % 16
  if palW place = 0 then (List.range 512).map fun e => BitVec.ofNat 8 (palEntry s c slot (idx e))
  else (List.range 256).flatMap fun e => leBytes 2 (palEntry s c slot (idx e))

/-- Stored bytes of a block of some kind (R256). -/
def storedLen (kind : Nat) (place : List Byte) : Nat :=
  match kind with
  | 0 => 512
  | 1 => 0
  | 2 => packedLen place
  | _ => if palW place = 0 then 264 else 136

/-- Expander cycles of a block (R268). -/
def expCycles (kind : Nat) (place : List Byte) : Nat :=
  match kind with
  | 2 => cdiv (packedLen place) 256
  | 3 => if palW place = 0 then 4 else 2
  | _ => 0

/-- The compressor (R262): the map code and the stored bytes of a block of 512. -/
def compress (bs : List Byte) : Nat × List Byte :=
  let nz := bs.filter (· ≠ 0)
  if nz.isEmpty then (1, [])
  else if nz.length ≤ 440 then
    let bm := (List.range 64).map fun j => BitVec.ofNat 8
      ((List.range 8).foldl (fun a i => a + (if bs.getD (8 * j + i) 0 = 0 then 0 else 2 ^ i)) 0)
    (2, leBytes 8 nz.length ++ bm ++ nz)
  else (0, bs)

end Sys2Proof.Machine
end

