-- ==== Sys2Proof/Machine/InBank.lean ====
section
/-! DEFINITION. In-bank programs (chapter 05): the fields of an instruction (R129), its validation (R127, R128, R130,
R132, R143), the sequencer with loops, activity and the cycle budget (R125-R128, R109, R117), and what each bank
checks before an instruction takes effect (R131, R138, R149). -/

namespace Sys2Proof.Machine

/-! ## Fields (R129) -/

def iOp (i : Word) : Nat := fld i 63 56
def iFmt (i : Word) : Nat := fld i 55 52
def iFa (i : Word) : Nat := fld i 51 48
def iFb (i : Word) : Nat := fld i 47 44
def iPb (i : Word) : Nat := fld i 43 41
def iT (i : Word) : Bool := bit i 40
def iInc (i : Word) : Bool := bit i 39
def iRep (i : Word) : Nat := fld i 38 28
def iX (i : Word) : Nat := fld i 27 14
def iOffw (i : Word) : Nat := fld i 13 0
def iImm (i : Word) : Int := sfld i 27 0
def iCmp (i : Word) : Bool := bit i 45
def iLpi (i : Word) : Bool := bit i 44
/-- H of AVSUM, and the V register that holds p (R132). -/
def iH (i : Word) : Nat := fld i 17 17
def iPv (i : Word) : Nat := fld i 16 14

/-- Width in bits of an element of an in-bank format code (R130); 0 where the code is none. -/
def nbits : Nat → Nat
  | 0x0 => 8 | 0x1 => 8 | 0x4 => 4 | 0x8 => 16 | 0xA => 32 | 0xD => 64 | 0xE => 4 | 0xF => 8 | _ => 0

def isMxCode (f : Nat) : Bool := f == 0xE || f == 0xF

/-- The element format of a code: MXFP4 holds E2M1, MXFP8 holds E4M3. -/
def nElt : Nat → Nat
  | 0xE => 4 | 0xF => 0 | f => f

/-- The floating-point format of an arithmetic code: FP64, FP32 or BF16 (R132). -/
def nFmt : Nat → FFmt
  | 0xD => fp64 | 0xA => fp32 | _ => bf16

/-- Elements per word, bytes per element (R130). -/
def nPerWord (f : Nat) : Nat := 256 / max 1 (nbits f)
def nSize (f : Nat) : Nat := nbits f / 8

/-- Bytes and scale bytes of a key or value row (R136): HDIM counts 32 elements. -/
def rowLen (f hdim : Nat) : Nat := hdim * 4 * nbits f
def rowScales (f hdim : Nat) : Nat := if isMxCode f then hdim else 0

/-- n of R136: value elements of half h. -/
def halfLen (hdim h : Nat) : Nat := min 128 (32 * hdim - 128 * h)

/-! ## Validation (R143) -/

/-- The fields an instruction uses, as a mask over its word; the others must be zero (R129). -/
def usedMask (op : Nat) : Nat :=
  let m (hi lo : Nat) : Nat := (2 ^ (hi + 1 - lo) - 1) * 2 ^ lo
  let fmt := m 55 52
  let fa := m 51 48
  let fb := m 47 44
  let pb := m 43 41
  let t := m 40 40
  let inc := m 39 39
  let rep := m 38 28
  let x := m 27 14
  let o := m 13 0
  m 63 56 + match op with
    | 0x02 => rep + m 22 14
    | 0x03 => pb + m 22 14
    | 0x04 => pb + m 27 0
    | 0x05 => m 27 0
    | 0x06 => fa + m 20 14
    | 0x10 => fa + pb + t + o
    | 0x11 => fb + pb + o
    | 0x12 => fb + pb + o + m 24 14
    | 0x13 => fb + pb + o + rep + inc
    | 0x14 => fmt + fa + fb + pb + o
    | 0x15 => fb + m 17 14 + o
    | 0x16 => fb + o
    | 0x20 => fmt + fa + m 45 44 + pb + x + rep + t + inc + o
    | 0x21 => fmt + fa + pb + x + rep + inc + o
    | 0x22 => fmt + fa + fb + m 16 14
    | 0x23 => fmt + fa + fb + x
    | 0x24 => fmt + fa + fb + pb + rep + inc + o
    | 0x25 => fmt + fa + fb
    | 0x26 => fmt + fa + pb + x + rep + inc + o
    | 0x30 => fmt + fa + m 45 45 + pb + x + t + inc + o
    | 0x31 => fa + fb
    | 0x32 => fmt + fa + m 45 45 + m 17 14 + pb + t + inc + o
    | 0x33 => fa
    | _ => 0

def isV (r : Nat) : Bool := r < 8
def isA (r : Nat) : Bool := 8 ≤ r && r < 12
def arithFmt (f : Nat) : Bool := f == 0x8 || f == 0xA || f == 0xD
def dotFmt (f : Nat) : Bool := f == 0x0 || f == 0x1 || f == 0x4 || f == 0x8 || f == 0xE || f == 0xF
def attnFmt (f : Nat) : Bool := f == 0x0 || f == 0x8 || f == 0xE

/-- Opcode, FMT and register kinds of R132. -/
def formOk (i : Word) : Bool :=
  let fa := iFa i
  let fb := iFb i
  let f := iFmt i
  match iOp i with
  | 0x00 => true
  | 0x01 => true
  | 0x02 => 1 ≤ fld i 22 14 && fld i 22 14 ≤ 256
  | 0x03 => 1 ≤ fld i 22 14 && fld i 22 14 ≤ 256
  | 0x04 => true
  | 0x05 => true
  | 0x06 => isA fa
  | 0x10 => isV fa
  | 0x11 => isV fb
  | 0x12 => isV fb && 1 ≤ fld i 24 19 && fld i 18 14 + fld i 24 19 ≤ 32
  | 0x13 => isV fb
  | 0x14 => (f == 0xA || f == 0xD) && isV fa && isV fb
  | 0x15 => (isV fb && fld i 17 14 == 0) || isA fb
  | 0x16 => isA fb
  | 0x20 => dotFmt f && isA fa && (iRep i * nPerWord f) % (if isMxCode f then 32 else 1) == 0
  | 0x21 => arithFmt f && isV fa
  | 0x22 => arithFmt f && isV fa && isV fb && fld i 16 14 ≤ 6
  | 0x23 => arithFmt f && isV fa && isV fb
  | 0x24 => arithFmt f && isV fa && isV fb
  | 0x25 => arithFmt f && isV fa && isV fb
  | 0x26 => (f == 0xA || f == 0xD) && isV fa
  | 0x30 => attnFmt f && isV fa
  | 0x31 => isA fa && isV fb
  | 0x32 => attnFmt f && isA fa
  | 0x33 => isA fa
  | _ => false

/-- Scale bytes of an instruction (R132). -/
def scaleBytes (i : Word) (hdim : Nat) : Nat :=
  if isMxCode (iFmt i) then
    match iOp i with
    | 0x20 => iRep i * nPerWord (iFmt i) / 32
    | 0x30 => 8 * hdim
    | 0x32 => 8 * (halfLen hdim (iH i) / 32)
    | _ => 0
  else 0

/-- Compressed blocks of an instruction (R138); an attention instruction takes the whole blocks of its eight rows, AVSUM
both halves of them (log entry 93). -/
def cmpBlocks (i : Word) (hdim : Nat) : Nat :=
  if iCmp i then
    match iOp i with
    | 0x20 => cdiv (iRep i) 16
    | 0x30 => cdiv (rowLen (iFmt i) hdim) 64
    | 0x32 => cdiv (rowLen (iFmt i) hdim) 64
    | _ => 0
  else 0

/-- Words of the value data that an instruction reads; compressed blocks count as RAW. -/
def valWords (i : Word) (hdim : Nat) : Nat :=
  let plain (n : Nat) : Nat := if iCmp i then 16 * cmpBlocks i hdim else n
  match iOp i with
  | 0x10 => 1
  | 0x20 => plain (iRep i)
  | 0x30 => plain (8 * cdiv (rowLen (iFmt i) hdim) 32)
  | 0x32 => plain (8 * cdiv (halfLen hdim (iH i) * nbits (iFmt i)) 256)
  | _ => 0

/-- The cycle count of R132 for a given number of scale words; every block of compressed data counts as RAW plus one
(R138). REP = 0 takes one cycle (R129). -/
def iCycles (i : Word) (hdim sw : Nat) : Nat :=
  let r := iRep i
  let repd (n : Nat) : Nat := if r = 0 then 1 else n
  match iOp i with
  | 0x12 => 3
  | 0x13 => repd (r + 4)
  | 0x14 => nPerWord (iFmt i) + 4
  | 0x16 => 17
  | 0x20 => repd (valWords i hdim + cmpBlocks i hdim + sw + 8)
  | 0x21 => repd (3 * r + 8)
  | 0x24 => repd (2 * r + 8)
  | 0x25 => 4
  | 0x26 => repd (7 * r + 8)
  | 0x30 => valWords i hdim + cmpBlocks i hdim + sw + 8
  | 0x31 => 16
  | 0x32 => valWords i hdim + cmpBlocks i hdim + sw + 8
  | _ => 1

/-- The most scale words validation counts (R132). -/
def worstSw (i : Word) (hdim : Nat) : Nat := if scaleBytes i hdim = 0 then 0 else cdiv (scaleBytes i hdim) 32 + 1

/-- Words an instruction sends upstream from each bank, at most. -/
def worstUp (i : Word) (hdim : Nat) : Nat :=
  (if iT i then valWords i hdim + worstSw i hdim else 0) +
  match iOp i with | 0x15 => 1 | 0x16 => 17 | _ => 0

/-- Bytes of the broadcast buffer an instruction needs from its start (R132-R136). -/
def bcastNeed (i : Word) (hdim : Nat) : Nat :=
  let x := 4 * iX i
  match iOp i with
  | 0x20 => if iRep i = 0 then 0 else x + 2 * nPerWord (iFmt i) * iRep i
  | 0x21 => if iRep i = 0 then 0 else x + nSize (iFmt i)
  | 0x23 => x + nSize (iFmt i)
  | 0x26 => if iRep i = 0 then 0 else x + 7 * nSize (iFmt i)
  | 0x30 => x + 16 + 64 * hdim
  | _ => 0

/-- The launch's fields that validation needs. -/
structure Limits where
  hdim : Nat
  bcastLen : Nat
  tapEn : Bool
  resEn : Bool
  /-- in units of 32 bytes -/
  resBs : Nat
  /-- the larger number of mask banks of a slot -/
  width : Nat

/-- One instruction passes R143. -/
def instrOk (lim : Limits) (i : Word) : Bool :=
  formOk i && i.toNat &&& (usedMask (iOp i)) == i.toNat &&
  (!(iOp i == 0x30 || iOp i == 0x31 || iOp i == 0x32) || lim.hdim != 0) &&
  (!(iOp i == 0x32 && iH i == 1) || 4 < lim.hdim) &&
  iCycles i lim.hdim (worstSw i lim.hdim) + cdiv (worstUp i lim.hdim * lim.width) 3 ≤ 2048 &&
  bcastNeed i lim.hdim ≤ lim.bcastLen &&
  (!(iT i) || lim.tapEn) &&
  (!(iOp i == 0x15) || (lim.resEn && iOffw i < lim.resBs)) &&
  (!(iOp i == 0x16) || (lim.resEn && iOffw i + 16 < lim.resBs))

/-- Loops nest to at most four levels, an inner body lies inside its outer body, and every body inside the program
(R127): `opens` are the last positions of the bodies around position n, innermost first. -/
def loopsOk (len : Nat) : List Word → Nat → List Nat → Bool
  | [], _, _ => true
  | i :: t, n, opens =>
    let here := opens.filter (n ≤ ·)
    if iOp i = 0x02 ∨ iOp i = 0x03 then
      let last := n + fld i 22 14
      last < len && here.length < 4 && (match here with | [] => true | o :: _ => last ≤ o) && loopsOk len t (n + 1) (last :: here)
    else loopsOk len t (n + 1) here

/-- The program passes R143. -/
def progOk (lim : Limits) (p : List Word) : Bool := p.all (instrOk lim) && loopsOk p.length p 0 []

/-! ## Registers of a bank (R123) -/

def getNbu (s : State) (b : Nat) : Nbu := tget {} s.nbus b
def setNbu (s : State) (b : Nat) (v : Nbu) : State := { s with nbus := tput {} s.nbus b v }
def nV (n : Nbu) (r : Nat) : BitVec 256 := n.v.getD r 0
def nSetV (n : Nbu) (r : Nat) (v : BitVec 256) : Nbu := { n with v := lset n.v r v }
def nP (n : Nbu) (r : Nat) : Nat := (n.p.getD r 0).toNat
def nSetP (n : Nbu) (r v : Nat) : Nbu := { n with p := lset n.p r (BitVec.ofNat 32 v) }
def nAcc (n : Nbu) (r : Nat) : AccSet := n.acc.getD (r - 8) {}
def nSetAcc (n : Nbu) (r : Nat) (a : AccSet) : Nbu := { n with acc := lset n.acc (r - 8) a }
def accLane (a : AccSet) (i : Nat) : BitVec 32 := tget 0 a.o i
def accSetLane (a : AccSet) (i v : Nat) : AccSet := { a with o := tput 0 a.o i (BitVec.ofNat 32 v) }

/-- Lane j of w bits, and a register made of lanes. -/
def lane (w : Nat) (v : BitVec 256) (j : Nat) : Nat := fld v (w * j + w - 1) (w * j)
def ofLanes (w : Nat) (l : List Nat) : BitVec 256 := BitVec.ofNat 256 (packNat w l)
def lanes (w : Nat) (v : BitVec 256) : List Nat := (List.range (256 / w)).map (lane w v)
def vBytes (v : BitVec 256) : List Byte := leBytes 32 v.toNat

/-- The negative infinity of FP32. -/
def ninf32 : BitVec 32 := 0xFF800000

/-- A bank at the start of a launch (R124). -/
def nbuStart (r : List (BitVec 32) × BitVec 24) : Nbu :=
  { acc := List.replicate 4 { m := ninf32 }, p := r.1, pos := r.2 }

/-! ## The sequencer -/

/-- What an instruction meets: channel, its launch and the launch's entry for it, the instruction. -/
structure NCtx where
  g : Nat
  ch : Chan
  id : Nat
  l : Launch
  e : LaunchCh
  i : Word
  pc : Nat

/-- Mask banks of a slot, ascending (R105, R106). -/
def slotBanks (mask slot : Nat) : List Nat := (List.range 32).filter fun b => mask.testBit b && b % 2 == slot

/-- Position of a bank among the mask banks (R116). -/
def bankIndex (mask b : Nat) : Nat := ((List.range b).filter (mask.testBit ·)).length

/-- Banks of the slot that are active under the loops around the position (R127). -/
def activeBanks (n : NCtx) : List Nat :=
  (slotBanks n.l.mask n.ch.slot).filter fun b =>
    (n.ch.loops.getD n.ch.slot []).all fun f =>
      match f.counts with
      | none => true
      | some cs => match cs.find? fun (q : Nat × Nat) => q.1 == b with | some q => f.iter < q.2 | none => false

/-- The position after one that lies at `next`: at a body's end the next iteration, or out of the loop (R127). -/
def loopNext : List LoopF → Nat → List LoopF × Nat
  | [], next => ([], next)
  | f :: t, next =>
    if next = f.last + 1 then
      if f.iter + 1 < f.total then ({ f with iter := f.iter + 1 } :: t, f.first) else loopNext t next
    else (f :: t, next)

/-- The slot goes on at a position, with these loops; at PROG_LEN it ends (R125). -/
def goTo (s : State) (n : NCtx) (loops : List LoopF) (next : Nat) : State :=
  let ch := getChan s n.g
  let q := loopNext loops next
  setChan s n.g { ch with pc := lset ch.pc ch.slot q.2, loops := lset ch.loops ch.slot q.1,
                          ended := if n.l.prog.length ≤ q.2 then lset ch.ended ch.slot true else ch.ended }

/-- What an instruction asks of one bank, and does there. -/
structure Fx where
  /-- addresses checked before issue (R131): offset, length, alignment -/
  need : List (Nat × Nat × Nat) := []
  /-- bytes read: offset, length -/
  reads : List (Nat × Nat) := []
  /-- words that are tapped where T = 1 -/
  taps : List Nat := []
  /-- result words: slot, bytes (R137) -/
  sends : List (Nat × List Byte) := []
  /-- scale words touched -/
  sw : Nat := 0
  /-- compressed data: the cycles of its blocks (R138) -/
  blk : Option Nat := none
  /-- a PALETTE block among the data (R138) -/
  palette : Bool := false
  /-- compressed data that does not start on a block or cover whole ones (R138) -/
  ragged : Bool := false
  /-- it writes words of the bank -/
  writes : Bool := false
  run : State → State := fun s => s

/-- A bank offset computed in 32 bits. -/
def a32 (x : Int) : Nat := wrapN 32 x

def needBad (x : Nat × Nat × Nat) : Bool := x.2.1 != 0 && (0x6000000 < x.1 + x.2.1 || x.1 % x.2.2 != 0)

/-- Global bank of bank b of a channel. -/
def gBank (n : NCtx) (b : Nat) : Nat := n.g * 32 + b

/-- Bytes of a bank as its unit reads them. -/
def bankBytes (s : State) (n : NCtx) (b o len : Nat) : List Byte := viewBytes s (bankAddr (gBank n b) o) len

/-- The tapped rows of a bank after it reads these words (R116). -/
def rowsAfter (rows : List Nat) (taps : List Nat) : List Nat :=
  taps.foldl (fun l o => if o / 1024 ∈ l then l else l ++ [o / 1024]) rows

/-- Words the data of R116 and R137 send up from one bank. -/
def upsOf (s : State) (n : NCtx) (b : Nat) (fx : Fx) : List Up :=
  let k := bankIndex n.l.mask b
  let rows := rowsAfter (tget [] n.ch.rows b) fx.taps
  (fx.taps.map fun o =>
    { launch := n.id, isTap := true,
      addr := n.e.tapBase + k * n.l.tapBs + (rows.findIdx (· == o / 1024)) * 1024 + o % 1024,
      data := bankBytes s n b o 32, core := locCore n.e.tapBase, tally := n.l.tapTally }) ++
  (fx.sends.map fun x =>
    { launch := n.id, isTap := false, addr := n.e.resBase + k * n.l.resBs + 32 * x.1, data := x.2,
      core := locCore n.e.resBase, tally := n.l.resTally })

/-- A fault of the running program: the bout is over for it (R110, R149), CHN_NBU_FAULT keeps the first (R151). -/
def nbuFault (s : State) (n : NCtx) (b st cause : Nat) : State :=
  let ch := getChan s n.g
  let s := setChan s n.g { ch with fault := some st }
  let a := chnReg n.g 0x20
  let s := if bit (rget s a) 0 then s
    else rset s a (BitVec.ofNat 64 (1 + n.pc * 2 ^ 5 + b * 2 ^ 14 + ch.slot * 2 ^ 19 + cause * 2 ^ 20 + st * 2 ^ 24 + (n.l.tag % 2 ^ 32) * 2 ^ 32))
  match tget none s.launches n.id with
  | none => s
  | some l =>
    let cs := l.chans.map fun c => if c.chan = n.g then { c with state := 3, status := st } else c
    { s with launches := tput none s.launches n.id (some { l with chans := cs }) }

/-- NBU cycles of a bout (R109), bytes of the tap buffer and of its drain per cycle (R117). -/
def boutLimit : Nat := 3800
def tapCap : Nat := 32768
def tapRate : Nat := 96

/-- Stall for room in the tap buffer (R117, R128), and what the buffer then holds. -/
def tapStall (held bytes cyc : Nat) : Nat := cdiv (held + bytes - tapRate * cyc - tapCap) tapRate
def tapAfter (held bytes cyc : Nat) : Nat := held + bytes - tapRate * cyc

/-- The instruction the channel's sequencer would issue now in its slot: BOUT, no fault, the slot not ended. -/
def nbuAt (s : State) (g : Nat) : Option NCtx :=
  let ch := getChan s g
  if ch.mode ≠ 2 ∨ ch.fault.isSome ∨ ch.ended.getD ch.slot true then none
  else
    match ch.launches with
    | [] => none
    | id :: _ =>
      match tget none s.launches id with
      | none => none
      | some l =>
        let pc := ch.pc.getD ch.slot 0
        match l.prog[pc]?, l.chans.find? (·.chan == g) with
        | some i, some e => some { g := g, ch := ch, id := id, l := l, e := e, i := i, pc := pc }
        | _, _ => none

/-- Bytes that the active banks send upstream. -/
def nbuBytes (fxs : List (Nat × Fx)) : Nat := 32 * fxs.foldl (fun m p => m + p.2.taps.length + p.2.sends.length) 0

/-- The instruction's budget (R128): its cycle count, every compressed block taken as RAW plus one (R138), and its stall. -/
def nbuBudget (n : NCtx) (fxs : List (Nat × Fx)) : Nat :=
  let cyc := iCycles n.i n.l.hdim (fxs.foldl (fun m p => max m p.2.sw) 0)
  cyc + tapStall n.ch.tapBytes (nbuBytes fxs) cyc

/-- Cycles the instruction takes from issue to completion in every active bank (R126, R138), its stall included. -/
def nbuCost (n : NCtx) (fxs : List (Nat × Fx)) : Nat :=
  let cyc := iCycles n.i n.l.hdim (fxs.foldl (fun m p => max m p.2.sw) 0)
  let cyc := match fxs.filterMap (·.2.blk) with
    | [] => cyc
    | l => cyc - 17 * cmpBlocks n.i n.l.hdim + l.foldl max 0
  cyc + tapStall n.ch.tapBytes (nbuBytes fxs) cyc

/-- The next instruction's budget ends within the bout (R109, R128). -/
def nbuFits (n : NCtx) (fxs : List (Nat × Fx)) : Bool := n.ch.used + nbuBudget n fxs ≤ boutLimit

/-- A tapped word would land beyond its checked range (R119). -/
def tapOver (n : NCtx) (b : Nat) (fx : Fx) : Bool :=
  max n.l.tapBs 1024 < (rowsAfter (tget [] n.ch.rows b) fx.taps).length * 1024 && !fx.taps.isEmpty

/-- The instruction reads registers of the bank: all but NOP, END, LOOP, LPSET and AINIT, and none with REP = 0 (R129). -/
def readsRegs (i : Word) : Bool :=
  !([0x00, 0x01, 0x02, 0x06, 0x33].contains (iOp i)) &&
    !([0x13, 0x20, 0x21, 0x24, 0x26].contains (iOp i) && iRep i == 0)

/-- The effect in one bank: corrections counted, then the instruction, or nothing where a register's parity is bad (R434),
a word it reads is uncorrectable (R147, R149), or the encoder's predicted parity does not match (R148). Answers the CAUSE
of R151 where it was one of these; a parity error of a register counts as an uncorrectable read. -/
def bankDo (s : State) (n : NCtx) (b : Nat) (fx : Fx) : State × Option Nat :=
  let m : Meet := { path := 3, tag := n.l.tag, core := n.l.core, ring := n.l.ring }
  if readsRegs n.i && s.parNbu.contains (gBank n b) then
    (logUe { s with parNbu := s.parNbu.filter (· ≠ gBank n b) } { m with path := 14 } 0 0, some 2)
  else
    let us := fx.reads.flatMap fun r => unitsOf (bankAddr (gBank n b) r.1) r.2
    let t := eccTouch s m us
    match t.2 with
    | some _ => (t.1, some 2)
    | none =>
      if fx.writes && t.1.encBad.contains (gBank n b) then
        ({ t.1 with encBad := t.1.encBad.filter (· ≠ gBank n b) }, some 3)
      else
        let ups := upsOf t.1 n b fx
        let s := fx.run t.1
        let ch := getChan s n.g
        (setChan s n.g { ch with up := ch.up ++ ups, rows := tput [] ch.rows b (rowsAfter (tget [] ch.rows b) fx.taps) }, none)

/-- The effect in all active banks, with the cycles counted; the first bank that met a fault of R149, and its CAUSE. -/
def nbuAll (s : State) (g : Nat) (fx : State → NCtx → Nat → Fx) (n : NCtx) : State × Option (Nat × Nat) :=
  let fxs := (activeBanks n).map fun b => (b, fx s n b)
  let cost := nbuCost n fxs
  let s := setChan s g { n.ch with used := n.ch.used + cost, tapBytes := tapAfter n.ch.tapBytes (nbuBytes fxs) cost }
  fxs.foldl (fun q p =>
    let t := bankDo q.1 n p.1 p.2
    (t.1, q.2.or (t.2.map fun c => (p.1, c)))) (s, none)

/-- One issue of an in-bank instruction of opcode op (R126): its checks over all active banks, its effect in each,
its cycles, and the position after it. Compressed data that does not start on a block or cover whole ones ends as an address
that fails R131 does (log entry 93). -/
def nbuIssue (op : Nat) (fx : State → NCtx → Nat → Fx) (next : State → NCtx → State) (g : Nat) (s : State) : Out State :=
  if !(chanOk g) then .fault .noSuchUnit
  else
    match nbuAt s g with
    | none => .next s
    | some n =>
      if iOp n.i ≠ op then .next s
      else
        let fxs := (activeBanks n).map fun b => (b, fx s n b)
        if !(nbuFits n fxs) then .next s
        else
          let bad (p : Nat × Fx) : Bool := p.2.need.any needBad || p.2.ragged || tapOver n p.1 p.2
          match fxs.find? bad, fxs.find? fun p => p.2.palette with
          | some p, _ => .next (nbuFault s n p.1 stBound 1)
          | none, some p => .next (nbuFault s n p.1 stFormat 4)
          | none, none =>
            let r := nbuAll s g fx n
            match r.2 with
            | some b => .next (nbuFault r.1 n b.1 stUncorr b.2)
            | none => .next (next r.1 n)

/-- The plain successor. -/
def nbuNext (s : State) (n : NCtx) : State := goTo s n (n.ch.loops.getD n.ch.slot []) (n.pc + 1)

/-- An instruction that falls through. -/
def nbuRow (op : Nat) (fx : State → NCtx → Nat → Fx) (g : Nat) (s : State) : Out State := nbuIssue op fx nbuNext g s

/-- An effect on one bank's registers. -/
def onNbu (n : NCtx) (b : Nat) (f : Nbu → Nbu) (s : State) : State := setNbu s (gBank n b) (f (getNbu s (gBank n b)))

/-- REP = 0 makes an instruction without effect (R129). -/
def unlessRep0 (i : Word) (x : Fx) : Fx := if iRep i = 0 then {} else x

/-- Base address through PB (R131). -/
def pbBase (s : State) (n : NCtx) (b : Nat) : Nat :=
  a32 ((nP (getNbu s (gBank n b)) (iPb n.i) : Int) + 32 * (iOffw n.i : Int))

/-- A word written by a bank (R147). -/
def bankWrite (s : State) (n : NCtx) (b o : Nat) (bs : List Byte) : State :=
  (writeBytes s { path := 3, tag := n.l.tag, core := n.l.core, ring := n.l.ring } (bankAddr (gBank n b) o) bs).1

/-- A pointer register advanced in 32 bits. -/
def bumpP (x : Nbu) (r d : Nat) : Nbu := nSetP x r ((nP x r + d) % 2 ^ 32)

/-- INC of R131: the bytes stepped to P[PB], the scale bytes consumed to P[PB xor 1]. -/
def incP (i : Word) (vals scales : Nat) (x : Nbu) : Nbu :=
  if iInc i then
    let x := bumpP x (iPb i) vals
    if scales = 0 then x else bumpP x (iPb i ^^^ 1) scales
  else x

/-! ## Control and pointer instructions -/

def fxNone (_ : State) (_ : NCtx) (_ : Nat) : Fx := {}

/-- NOP: no effect. -/
def execNbuNop (g : Nat) (s : State) : Out State := nbuRow 0x00 fxNone g s

/-- END: the slot's program ends. -/
def execNbuEnd (g : Nat) (s : State) : Out State :=
  nbuIssue 0x01 (fun _ _ _ => {}) (fun s n =>
    let ch := getChan s n.g
    setChan s n.g { ch with ended := lset ch.ended ch.slot true }) g s

/-- LOOP (R127). -/
def execLoop (g : Nat) (s : State) : Out State :=
  nbuIssue 0x02 (fun _ _ _ => {}) (fun s n =>
    let ls := n.ch.loops.getD n.ch.slot []
    let body := fld n.i 22 14
    if iRep n.i = 0 then goTo s n ls (n.pc + 1 + body)
    else goTo s n ({ first := n.pc + 1, last := n.pc + body, iter := 0, total := iRep n.i, counts := none } :: ls) (n.pc + 1)) g s

/-- LOOPB (R127). -/
def execLoopb (g : Nat) (s : State) : Out State :=
  nbuIssue 0x03 (fun _ _ _ => {}) (fun s n =>
    let ls := n.ch.loops.getD n.ch.slot []
    let body := fld n.i 22 14
    let cs := (activeBanks n).map fun b => (b, nP (getNbu s (gBank n b)) (iPb n.i))
    let most := cs.foldl (fun m p => max m p.2) 0
    if most = 0 then goTo s n ls (n.pc + 1 + body)
    else goTo s n ({ first := n.pc + 1, last := n.pc + body, iter := 0, total := most, counts := some cs } :: ls) (n.pc + 1)) g s

def fxPadd (_ : State) (n : NCtx) (b : Nat) : Fx := { run := onNbu n b fun x => nSetP x (iPb n.i) (a32 ((nP x (iPb n.i) : Int) + iImm n.i)) }

/-- The row of that instruction. -/
def execPadd (g : Nat) (s : State) : Out State := nbuRow 0x04 fxPadd g s

def fxPosadd (_ : State) (n : NCtx) (b : Nat) : Fx := { run := onNbu n b fun x => { x with pos := x.pos + BitVec.ofInt 24 (iImm n.i) } }

/-- The row of that instruction. -/
def execPosadd (g : Nat) (s : State) : Out State := nbuRow 0x05 fxPosadd g s

def fxLpset (_ : State) (n : NCtx) (b : Nat) : Fx := { run := onNbu n b fun x => nSetAcc x (iFa n.i) { nAcc x (iFa n.i) with lp := fld n.i 20 14 } }

/-- The row of that instruction. -/
def execLpset (g : Nat) (s : State) : Out State := nbuRow 0x06 fxLpset g s

/-! ## Loads, stores, results -/

def fxLdw (s : State) (n : NCtx) (b : Nat) : Fx :=
    let a := pbBase s n b
    { need := [(a, 32, 32)], reads := [(a, 32)], taps := if iT n.i then [a] else [],
      run := fun u => onNbu n b (fun x => nSetV x (iFa n.i) (BitVec.ofNat 256 (leNat (bankBytes u n b a 32)))) u }

/-- The row of that instruction. -/
def execLdw (g : Nat) (s : State) : Out State := nbuRow 0x10 fxLdw g s

def fxStw (s : State) (n : NCtx) (b : Nat) : Fx :=
    let a := pbBase s n b
    { need := [(a, 32, 32)], writes := true,
      run := fun u => bankWrite u n b a (vBytes (nV (getNbu u (gBank n b)) (iFb n.i))) }

/-- The row of that instruction. -/
def execStw (g : Nat) (s : State) : Out State := nbuRow 0x11 fxStw g s

/-- STP (R132, R147): the word is read, corrected, merged and encoded anew. -/
def fxStp (s : State) (n : NCtx) (b : Nat) : Fx :=
    let a := pbBase s n b
    let first := fld n.i 18 14
    let count := fld n.i 24 19
    { need := [(a, 32, 32)], reads := [(a, 32)], writes := true,
      run := fun u =>
        let old := bankBytes u n b a 32
        let new := vBytes (nV (getNbu u (gBank n b)) (iFb n.i))
        bankWrite u n b a ((List.range 32).map fun j => if first ≤ j ∧ j < first + count then new.getD j 0 else old.getD j 0) }

/-- The row of that instruction. -/
def execStp (g : Nat) (s : State) : Out State := nbuRow 0x12 fxStp g s

def fxFill (s : State) (n : NCtx) (b : Nat) : Fx :=
    let a := pbBase s n b
    unlessRep0 n.i
      { need := [(a, 32 * iRep n.i, 32)], writes := true,
        run := fun u =>
          let v := vBytes (nV (getNbu u (gBank n b)) (iFb n.i))
          let u := (List.range (iRep n.i)).foldl (fun t j => bankWrite t n b (a + 32 * j) v) u
          onNbu n b (incP n.i (32 * iRep n.i) 0) u }

/-- The row of that instruction. -/
def execFill (g : Nat) (s : State) : Out State := nbuRow 0x13 fxFill g s

def fxGath (s : State) (n : NCtx) (b : Nat) : Fx :=
    let sz := nSize (iFmt n.i)
    let base := pbBase s n b
    let idx := nV (getNbu s (gBank n b)) (iFb n.i)
    let as := (List.range (nPerWord (iFmt n.i))).map fun j => a32 ((base : Int) + sz * (lane 32 idx j : Int))
    { need := as.map fun a => (a, sz, sz), reads := as.map fun a => (a, sz),
      run := fun u => onNbu n b (fun x =>
        nSetV x (iFa n.i) (ofLanes (8 * sz) (as.map fun a => leNat (bankBytes u n b a sz)))) u }

/-- The row of that instruction. -/
def execGath (g : Nat) (s : State) : Out State := nbuRow 0x14 fxGath g s

/-- WRES (R137). -/
def fxWres (s : State) (n : NCtx) (b : Nat) : Fx :=
    let x := getNbu s (gBank n b)
    let bs := if isV (iFb n.i) then vBytes (nV x (iFb n.i))
      else (List.range 8).flatMap fun j => leBytes 4 (accLane (nAcc x (iFb n.i)) (8 * fld n.i 17 14 + j)).toNat
    { sends := [(iOffw n.i, bs)] }

/-- The row of that instruction. -/
def execWres (g : Nat) (s : State) : Out State := nbuRow 0x15 fxWres g s

/-- WRESA (R137). -/
def fxWresa (s : State) (n : NCtx) (b : Nat) : Fx :=
    let a := nAcc (getNbu s (gBank n b)) (iFb n.i)
    let head := leBytes 4 a.m.toNat ++ leBytes 4 a.l.toNat ++ List.replicate 24 0
    let body := (List.range 16).map fun k =>
      (iOffw n.i + 1 + k, (List.range 8).flatMap fun j => leBytes 4 (accLane a (8 * k + j)).toNat)
    { sends := (iOffw n.i, head) :: body }

/-- The row of that instruction. -/
def execWresa (g : Nat) (s : State) : Out State := nbuRow 0x16 fxWresa g s

/-! ## Arithmetic -/

/-- An element of the broadcast buffer. -/
def bcastAt (n : NCtx) (o sz : Nat) : Nat := leNat ((n.l.bcast.drop o).take sz)

/-- One correctly rounded operation in a format (R133). -/
def nRound (f : FFmt) (v : XVal) : Nat := (fenc f none false v).1
def nFma (f : FFmt) (a b c : Nat) : Nat := nRound f (xFma (fdec f a) (fdec f b) (fdec f c)).1
def nAdd (f : FFmt) (a b : Nat) : Nat := nRound f (xAdd (fdec f a) (fdec f b)).1
def nSub (f : FFmt) (a b : Nat) : Nat := nRound f (xAdd (fdec f a) (xNeg (fdec f b))).1
def nMul (f : FFmt) (a b : Nat) : Nat := nRound f (xMul (fdec f a) (fdec f b)).1

/-- The larger of two encodings: a NaN where one is (log entry 45), -0 below +0. -/
def nMax (f : FFmt) (a b : Nat) : Nat :=
  let x := fdec f a
  let y := fdec f b
  if xIsNaN x || xIsNaN y then canonNaN f
  else if xLt x y then b else if xLt y x then a else if xneg? x then b else a

def nMin (f : FFmt) (a b : Nat) : Nat :=
  let x := fdec f a
  let y := fdec f b
  if xIsNaN x || xIsNaN y then canonNaN f
  else if xLt x y then a else if xLt y x then b else if xneg? x then a else b

/-- AXPY (R132): element order, one rounding each. -/
def fxAxpy (s : State) (n : NCtx) (b : Nat) : Fx :=
    let f := nFmt (iFmt n.i)
    let w := nbits (iFmt n.i)
    let xb := pbBase s n b
    let yb := nP (getNbu s (gBank n b)) (iFa n.i)
    let r := iRep n.i
    let a := bcastAt n (4 * iX n.i) (nSize (iFmt n.i))
    unlessRep0 n.i
      { need := [(xb, 32 * r, 32), (yb, 32 * r, 32)], reads := [(xb, 32 * r), (yb, 32 * r)], writes := true,
        run := fun u =>
          let u := (List.range r).foldl (fun t j =>
            let xs := unpack w (256 / w) (bankBytes t n b (xb + 32 * j) 32)
            let ys := unpack w (256 / w) (bankBytes t n b (yb + 32 * j) 32)
            bankWrite t n b (yb + 32 * j) (pack w ((xs.zip ys).map fun p => nFma f a p.1 p.2))) u
          onNbu n b (fun x =>
            let x := incP n.i (32 * r) 0 x
            if iInc n.i then bumpP x (iFa n.i) (32 * r) else x) u }

/-- The row of that instruction. -/
def execAxpy (g : Nat) (s : State) : Out State := nbuRow 0x21 fxAxpy g s

/-- VOP (R132). -/
def fxVop (_ : State) (n : NCtx) (b : Nat) : Fx :=
    let f := nFmt (iFmt n.i)
    let w := nbits (iFmt n.i)
    let op (x y : Nat) : Nat :=
      match fld n.i 16 14 with
      | 0 => nAdd f x y | 1 => nSub f x y | 2 => nMul f x y | 3 => nMax f x y | 4 => nMin f x y | 5 => y | _ => 0
    { run := onNbu n b fun x =>
        nSetV x (iFa n.i) (ofLanes w (((lanes w (nV x (iFa n.i))).zip (lanes w (nV x (iFb n.i)))).map fun p => op p.1 p.2)) }

/-- The row of that instruction. -/
def execVop (g : Nat) (s : State) : Out State := nbuRow 0x22 fxVop g s

/-- VFMA (R132): FA := fma(FB, s, FA). -/
def fxVfma (_ : State) (n : NCtx) (b : Nat) : Fx :=
    let f := nFmt (iFmt n.i)
    let w := nbits (iFmt n.i)
    let k := bcastAt n (4 * iX n.i) (nSize (iFmt n.i))
    { run := onNbu n b fun x =>
        nSetV x (iFa n.i) (ofLanes w (((lanes w (nV x (iFa n.i))).zip (lanes w (nV x (iFb n.i)))).map fun p => nFma f p.2 k p.1)) }

/-- The row of that instruction. -/
def execVfma (g : Nat) (s : State) : Out State := nbuRow 0x23 fxVfma g s

/-- VDOT (R132): into lane 0 of FA, in element order. -/
def fxVdot (s : State) (n : NCtx) (b : Nat) : Fx :=
    let f := nFmt (iFmt n.i)
    let w := nbits (iFmt n.i)
    let xb := pbBase s n b
    let yb := nP (getNbu s (gBank n b)) (iFb n.i)
    let r := iRep n.i
    unlessRep0 n.i
      { need := [(xb, 32 * r, 32), (yb, 32 * r, 32)], reads := [(xb, 32 * r), (yb, 32 * r)],
        run := fun u =>
          let xs := unpack w (r * (256 / w)) (bankBytes u n b xb (32 * r))
          let ys := unpack w (r * (256 / w)) (bankBytes u n b yb (32 * r))
          onNbu n b (fun x =>
            let v := nV x (iFa n.i)
            let l0 := (xs.zip ys).foldl (fun a p => nFma f p.1 p.2 a) (lane w v 0)
            let x := nSetV x (iFa n.i) (setFld v (w - 1) 0 l0)
            let x := incP n.i (32 * r) 0 x
            if iInc n.i then bumpP x (iFb n.i) (32 * r) else x) u }

/-- The row of that instruction. -/
def execVdot (g : Nat) (s : State) : Out State := nbuRow 0x24 fxVdot g s

/-- A pairwise tree over adjacent elements. -/
def pairUp (f : FFmt) : List Nat → List Nat
  | a :: b :: t => nAdd f a b :: pairUp f t
  | l => l

def treeSum (f : FFmt) : Nat → List Nat → Nat
  | 0, l => l.headD 0
  | n + 1, l => treeSum f n (pairUp f l)

/-- REDV (R132). -/
def fxRedv (_ : State) (n : NCtx) (b : Nat) : Fx :=
    let w := nbits (iFmt n.i)
    { run := onNbu n b fun x =>
        nSetV x (iFa n.i) (BitVec.ofNat 256 (treeSum (nFmt (iFmt n.i)) 4 (lanes w (nV x (iFb n.i))))) }

/-- The row of that instruction. -/
def execRedv (g : Nat) (s : State) : Out State := nbuRow 0x25 fxRedv g s

/-- STEN7 (R135): point after point, a later point sees what an earlier one wrote. R131 asks no alignment of its elements
(log entry 63). -/
def fxSten7 (s : State) (n : NCtx) (b : Nat) : Fx :=
    let f := nFmt (iFmt n.i)
    let sz := nSize (iFmt n.i)
    let c0 := pbBase s n b
    let ob := nP (getNbu s (gBank n b)) (iFa n.i)
    let u0 := (n.l.u.getD 0 0).toNat
    let u1 := (n.l.u.getD 1 0).toNat
    let pts := iRep n.i * nPerWord (iFmt n.i)
    let offs : List Int := [0, -(sz : Int), (sz : Int), -(u0 : Int), (u0 : Int), -(u1 : Int), (u1 : Int)]
    let lines := offs.map fun d => a32 ((c0 : Int) + d)
    let k (j : Nat) : Nat := bcastAt n (4 * iX n.i + sz * j) sz
    unlessRep0 n.i
      { need := (ob, sz * pts, 1) :: lines.map fun a => (a, sz * pts, 1), writes := true,
        -- words written in part are read as STP reads its word
        reads := (lines.map fun a => (a, sz * pts)) ++ (if ob % 32 = 0 then [] else [(ob, 1), (ob + sz * pts - 1, 1)]),
        run := fun u =>
          let outs := (List.range pts).foldl (fun (o : List Nat) i =>
            -- byte a of the bank, with the points written so far laid over it
            let at_ (a : Nat) : Nat := leNat ((List.range sz).map fun j =>
              if ob ≤ a + j ∧ a + j < ob + sz * i then
                BitVec.ofNat 8 (o.getD (i - 1 - (a + j - ob) / sz) 0 >>> (8 * ((a + j - ob) % sz)))
              else viewByte u (bankAddr (gBank n b) (a + j)))
            let c (j : Nat) : Nat := at_ (lines.getD j 0 + sz * i)
            let v0 := nMul f (k 0) (c 0)
            ((List.range 6).foldl (fun v j => nFma f (k (j + 1)) (c (j + 1)) v) v0) :: o) []
          let u := bankWrite u n b ob (outs.reverse.flatMap (leBytes sz))
          onNbu n b (fun x =>
            if iInc n.i then bumpP (bumpP x (iPb n.i) u0) (iFa n.i) u0 else x) u }

/-- The row of that instruction. -/
def execSten7 (g : Nat) (s : State) : Out State := nbuRow 0x26 fxSten7 g s

/-! ## Stored data of DOTR, ASCORE and AVSUM -/

/-- A byte with whether a compressed block leaves it out (R138). -/
abbrev CByte := Byte × Bool

/-- Data of an instruction in one bank: bytes read, the words that hold them, the values, a PALETTE block, and the cycles
of compressed blocks. -/
structure NData where
  reads : List (Nat × Nat) := []
  words : List Nat := []
  vals : List CByte := []
  palette : Bool := false
  cyc : Nat := 0

/-- Words of a byte run. -/
def wordsOf (a n : Nat) : List Nat := if n = 0 then [] else (List.range ((a + n - 1) / 32 + 1 - a / 32)).map fun i => (a / 32 + i) * 32

/-- Plain data. -/
def plainData (s : State) (n : NCtx) (b a len : Nat) : NData :=
  { reads := [(a, len)], words := wordsOf a len, vals := (bankBytes s n b a len).map fun x => (x, false) }

/-- The shape-map bytes of len bytes of data at bank offset a, where the map begins at `map`: entry i is that of the block
at bank offset 512 i (R257). -/
def mapBytes (a len map : Nat) : Nat × Nat := (a32 ((map + a / 2048 : Nat) : Int), lineCount 2048 a len)

/-- The code of the block at bank offset p, where its map word can be read. -/
def bankCode (s : State) (n : NCtx) (b map p : Nat) : Option Nat :=
  let o := a32 ((map + p / 2048 : Nat) : Int)
  if (unitView s (unitOf (locOf (bankAddr (gBank n b) o)))).ue then none
  else some (((bankBytes s n b o 1).headD 0).toNat >>> (2 * (p / 512 % 4)) % 4)

/-- Compressed data of whole blocks from `a` on, with the shape map at `map` (R138). A block whose map word is
uncorrectable has no data: the instruction will not act in this bank. -/
def packedData (s : State) (n : NCtx) (b a len map : Nat) : NData :=
  let one (p : Nat) : NData :=
    match bankCode s n b map p with
    | none => {}
    | some 0 => { reads := [(p, 512)], words := wordsOf p 512, vals := (bankBytes s n b p 512).map fun x => (x, false), cyc := 16 }
    | some 1 => { vals := List.replicate 512 (0, true), cyc := 1 }
    | some 2 =>
      let place := bankBytes s n b p 512
      let ws := wordsOf p (packedLen place)
      { reads := [(p, packedLen place)], words := ws, vals := (unpackPacked place).map fun x => (x, x == 0), cyc := ws.length + 1 }
    | some _ => { palette := true }
  (List.range (len / 512)).foldl (fun d j =>
    let o := one (a + 512 * j)
    { reads := d.reads ++ o.reads, words := d.words ++ o.words, vals := d.vals ++ o.vals, palette := d.palette || o.palette,
      cyc := d.cyc + o.cyc })
    { reads := [mapBytes a len map] }

/-- Elements of w bits from bytes: the encoding, and whether it is left out. -/
def cElems (w : Nat) (l : List CByte) : List (Nat × Bool) :=
  let v := leNat (l.map (·.1))
  (List.range (8 * l.length / w)).map fun e =>
    (unpackAt w v e, ((l.drop (e * w / 8)).take (max 1 (w / 8))).all (·.2))

/-- The exact dot product of elements with values, left-out elements apart. -/
def cDot (fmt : Nat) (es : List (Nat × Bool)) (qs : List XVal) : XVal :=
  (xSum ((es.zip qs).filterMap fun p => if p.1.2 then none else some (xMul (eltVal (nElt fmt) p.1.1) p.2).1)).1

/-- Scale words a run of scale bytes touches (R132). -/
def swOf (a n : Nat) : Nat := (wordsOf a n).length

/-- Address checks of data: words, scales, and the shape map (log entry 93). -/
def dataNeed (i : Word) (a len sa slen map : Nat) : List (Nat × Nat × Nat) :=
  let m := mapBytes a len map
  [(a, len, 32), (sa, slen, 1)] ++ (if iCmp i then [(m.1, m.2, 1)] else [])

/-- DOTR (R134). The bank first reads all value words, then the scale words (R116, log entry 94). -/
def fxDotr (s : State) (n : NCtx) (b : Nat) : Fx :=
    let fmt := iFmt n.i
    let x := getNbu s (gBank n b)
    let a := pbBase s n b
    let len := 32 * iRep n.i
    let sa := nP x (iPb n.i ^^^ 1)
    let sl := scaleBytes n.i n.l.hdim
    let map := nP x (iPb n.i ^^^ 2)
    let need := dataNeed n.i a len sa sl map
    let ragged := iCmp n.i && (a % 512 != 0 || len % 512 != 0)
    let d : NData := if ragged || need.any needBad then {}
      else if iCmp n.i then packedData s n b a len map else plainData s n b a len
    let mx := isMxCode fmt
    -- elements that are added together: an MX block or a word
    let e := if mx then 32 else nPerWord fmt
    unlessRep0 n.i
      { need := need, ragged := ragged, palette := d.palette,
        reads := d.reads ++ [(sa, sl)], sw := swOf sa sl, blk := if iCmp n.i then some d.cyc else none,
        taps := if iT n.i then d.words ++ wordsOf sa sl else [],
        run := fun u => onNbu n b (fun x =>
          let es := cElems (nbits fmt) d.vals
          let acc := nAcc x (iFa n.i)
          let v := (List.range (es.length / e)).foldl (fun (v : Nat) k =>
            let grp := (es.drop (e * k)).take e
            if grp.all (·.2) then v
            else
              let qs := (List.range e).map fun j => fdec bf16 (bcastAt n (4 * iX n.i + 2 * (e * k + j)) 2)
              let dot := cDot fmt grp qs
              let dot := if mx then (xMul (e8m0 ((bankBytes u n b (sa + k) 1).headD 0).toNat) dot).1 else dot
              nRound fp32 (xAdd (fdec fp32 v) dot).1) (accLane acc acc.lp).toNat
          let acc := accSetLane acc acc.lp v
          let x := nSetAcc x (iFa n.i) (if iLpi n.i then { acc with lp := (acc.lp + 1) % 128 } else acc)
          incP n.i len sl x) u }

/-- The row of that instruction. -/
def execDotr (g : Nat) (s : State) : Out State := nbuRow 0x20 fxDotr g s

/-! ## Attention (R136) -/

/-- The eight rows an attention instruction reads: their data, and the bytes of the part of each row it uses. Of plain data
it reads, and checks, the words of that part alone (R131, R136); of compressed data whole blocks (log entry 93). The bank
first reads all value words, then the scale words (R116, log entry 94). -/
def attnFx (s : State) (n : NCtx) (b part partLen sPart sPartLen : Nat)
    (run : (Nat → List CByte) → (Nat → List Byte) → State → State) : Fx :=
  let fmt := iFmt n.i
  let x := getNbu s (gBank n b)
  let a := pbBase s n b
  let rl := rowLen fmt n.l.hdim
  let sl := rowScales fmt n.l.hdim
  let sa := nP x (iPb n.i ^^^ 1)
  let map := nP x (iPb n.i ^^^ 2)
  let rows := List.range 8
  let at_ (t : Nat) : Nat := a32 ((a + t * rl + part : Nat) : Int)
  let sAt (t : Nat) : Nat := a32 ((sa + t * sl + sPart : Nat) : Int)
  let sruns := if sl = 0 then [] else rows.map fun t => (sAt t, sPartLen)
  let need := (if iCmp n.i then dataNeed n.i a (8 * rl) sa 0 map
      else (a % 32, 32, 32) :: rows.map fun t => (at_ t, partLen, 1)) ++ sruns.map fun r => (r.1, r.2, 1)
  let ragged := iCmp n.i && (a % 512 != 0 || 8 * rl % 512 != 0)
  let d : NData := if ragged || need.any needBad then {}
    else if iCmp n.i then packedData s n b a (8 * rl) map
    else { reads := rows.map fun t => (at_ t, partLen), words := (rows.flatMap fun t => wordsOf (at_ t) partLen).eraseDups }
  let swords := (sruns.flatMap fun r => wordsOf r.1 r.2).eraseDups
  let row (u : State) (t : Nat) : List CByte :=
    if iCmp n.i then (d.vals.drop (t * rl + part)).take partLen
    else (bankBytes u n b (at_ t) partLen).map fun y => (y, false)
  let scl (u : State) (t : Nat) : List Byte := if sl = 0 then [] else bankBytes u n b (sAt t) sPartLen
  { need := need, ragged := ragged, palette := d.palette, reads := d.reads ++ sruns, sw := swords.length,
    blk := if iCmp n.i then some d.cyc else none,
    taps := if iT n.i then d.words ++ swords else [],
    run := fun u =>
      let v := run (row u) (scl u) u
      onNbu n b (incP n.i (8 * rl) (8 * sl)) v }

/-- The exact value of element e of a row of an attention format with its scales. -/
def rowVal (fmt : Nat) (es : List (Nat × Bool)) (sc : List Byte) (e : Nat) : Option XVal :=
  let q := es.getD e (0, true)
  if q.2 then none
  else
    let v := eltVal (nElt fmt) q.1
    some (if isMxCode fmt then (xMul (e8m0 ((sc.getD (e / 32) 0).toNat)) v).1 else v)

/-- The score of one key row (R136): −∞ where position p is not allowed, else its two roundings. -/
def nScore (fmt dim qpos win : Nat) (sc : XVal) (q : Nat → XVal) (p : Nat) (es : List (Nat × Bool)) (scl : List Byte) : Nat :=
  if qpos < p ∨ (win ≠ 0 ∧ p + win ≤ qpos) then ninf32.toNat
  else
    let dot := (xSum ((List.range dim).filterMap fun e => (rowVal fmt es scl e).map fun v => (xMul v (q e)).1)).1
    nRound fp32 (xMul sc (fdec fp32 (nRound fp32 dot))).1

/-- ASCORE (R136). -/
def fxAscore (s : State) (n : NCtx) (b : Nat) : Fx :=
    let fmt := iFmt n.i
    let q := 4 * iX n.i
    let qpos := bcastAt n q 4 % 2 ^ 24
    let win := bcastAt n (q + 4) 4
    let sc := fdec fp32 (bcastAt n (q + 8) 4)
    let dim := 32 * n.l.hdim
    attnFx s n b 0 (rowLen fmt n.l.hdim) 0 (rowScales fmt n.l.hdim) fun row scl u =>
      onNbu n b (fun x =>
        let pos := x.pos.toNat
        let score (t : Nat) : Nat := nScore fmt dim qpos win sc (fun e => fdec bf16 (bcastAt n (q + 16 + 2 * e) 2)) (pos + t)
          (cElems (nbits fmt) (row t)) (scl t)
        let x := nSetV x (iFa n.i) (ofLanes 32 ((List.range 8).map score))
        if iInc n.i then { x with pos := x.pos + 8 } else x) u

/-- The row of that instruction. -/
def execAscore (g : Nat) (s : State) : Out State := nbuRow 0x30 fxAscore g s

/-- exp of the exact difference of two FP32 values, in the accuracy of R133. -/
def nExpDiff (a b : Nat) : Nat :=
  let d := (xAdd (fdec fp32 a) (xNeg (fdec fp32 b))).1
  (fExp 3 fp32 false false (nRound fp32 d) d).1

/-- One step of the running softmax over eight scores (R136): the set, and the lanes of FB after it. -/
def softStep (acc : AccSet) (ss : List Nat) : AccSet × List Nat :=
  let mn := ss.foldl (nMax fp32) acc.m.toNat
  if mn = ninf32.toNat then (acc, List.replicate 8 0)
  else
    let f := if acc.m = ninf32 then 0 else nExpDiff acc.m.toNat mn
    let es := ss.map fun v => if v = ninf32.toNat then 0 else nExpDiff v mn
    let l := es.foldl (nAdd fp32) (nMul fp32 acc.l.toNat f)
    let acc' := (List.range 128).foldl (fun a i => accSetLane a i (nMul fp32 (accLane a i).toNat f)) acc
    ({ acc' with m := BitVec.ofNat 32 mn, l := BitVec.ofNat 32 l }, es)

/-- ASOFT (R136). -/
def fxAsoft (_ : State) (n : NCtx) (b : Nat) : Fx :=
    { run := onNbu n b fun x =>
        let r := softStep (nAcc x (iFa n.i)) (lanes 32 (nV x (iFb n.i)))
        nSetAcc (nSetV x (iFb n.i) (ofLanes 32 r.2)) (iFa n.i) r.1 }

/-- The row of that instruction. -/
def execAsoft (g : Nat) (s : State) : Out State := nbuRow 0x31 fxAsoft g s

/-- Weighted value rows added to the first m lanes, one rounding a lane (R136). -/
def sumStep (fmt m : Nat) (acc : AccSet) (ps : List XVal) (rows : List (List (Nat × Bool) × List Byte)) : AccSet :=
  (List.range m).foldl (fun a i =>
    let sum := (xSum (fdec fp32 (accLane a i).toNat :: ((rows.zip ps).filterMap fun p =>
      (rowVal fmt p.1.1 p.1.2 i).map fun v => (xMul p.2 v).1))).1
    accSetLane a i (nRound fp32 sum)) acc

/-- AVSUM (R136). -/
def fxAvsum (s : State) (n : NCtx) (b : Nat) : Fx :=
    let fmt := iFmt n.i
    let h := iH n.i
    let m := halfLen n.l.hdim h
    attnFx s n b (128 * h * nbits fmt / 8) (m * nbits fmt / 8) (4 * h) (if isMxCode fmt then m / 32 else 0) fun row scl u =>
      onNbu n b (fun x =>
        let ps := (lanes 32 (nV x (iPv n.i))).map (fdec fp32)
        let rows := (List.range 8).map fun t => (cElems (nbits fmt) (row t), scl t)
        nSetAcc x (iFa n.i) (sumStep fmt m (nAcc x (iFa n.i)) ps rows)) u

/-- The row of that instruction. -/
def execAvsum (g : Nat) (s : State) : Out State := nbuRow 0x32 fxAvsum g s

/-- AINIT (R132). -/
def fxAinit (_ : State) (n : NCtx) (b : Nat) : Fx :=
    { run := onNbu n b fun x => nSetAcc x (iFa n.i) { nAcc x (iFa n.i) with m := ninf32, l := 0, o := [] } }

/-- The row of that instruction. -/
def execAinit (g : Nat) (s : State) : Out State := nbuRow 0x33 fxAinit g s

/-- What the instruction at a position asks and does, by its opcode. -/
def fxOf (s : State) (n : NCtx) (b : Nat) : Fx :=
  match iOp n.i with
  | 0x04 => fxPadd s n b
  | 0x05 => fxPosadd s n b
  | 0x06 => fxLpset s n b
  | 0x10 => fxLdw s n b
  | 0x11 => fxStw s n b
  | 0x12 => fxStp s n b
  | 0x13 => fxFill s n b
  | 0x14 => fxGath s n b
  | 0x15 => fxWres s n b
  | 0x16 => fxWresa s n b
  | 0x21 => fxAxpy s n b
  | 0x22 => fxVop s n b
  | 0x23 => fxVfma s n b
  | 0x24 => fxVdot s n b
  | 0x25 => fxRedv s n b
  | 0x26 => fxSten7 s n b
  | 0x20 => fxDotr s n b
  | 0x30 => fxAscore s n b
  | 0x31 => fxAsoft s n b
  | 0x32 => fxAvsum s n b
  | 0x33 => fxAinit s n b
  | _ => {}

/-- The bout's instruction fits no more (R110): it would end past the limit of R109. -/
def nbuOverruns (s : State) (g : Nat) : Bool :=
  match nbuAt s g with
  | none => false
  | some n => !(nbuFits n ((activeBanks n).map fun b => (b, fxOf s n b)))

end Sys2Proof.Machine
end

