-- ==== Sys2Proof/Machine/AttnCore.lean ====
section
/-! DEFINITION. The in-bank work of ATTN.DISPATCH (R315-R318, R324, R598): what the dispatcher's program computes in a
bank, and how it advances bout by bout. -/

namespace Sys2Proof.Machine

/-- The launch's entry for a channel changed. -/
def setLaunchCh (s : State) (id g : Nat) (f : LaunchCh → LaunchCh) : State :=
  match tget none s.launches id with
  | none => s
  | some l =>
    { s with launches := tput none s.launches id (some { l with chans := l.chans.map fun c => if c.chan = g then f c else c }) }

/-- Banks of a launch on a channel: its bank mask, or the banks of a dispatch. -/
def chanMask (l : Launch) (g : Nat) : Nat :=
  if l.attn.isNone then l.mask
  else match l.chans.find? (·.chan == g) with
    | some e => e.attn.foldl (fun m b => m ||| 2 ^ b.bank) 0
    | none => 0

/-- Bytes of a K or V row, of its scales, and of a page (R305). -/
def AttnJob.rb (j : AttnJob) : Nat := match j.kfmt with | 0x0 => j.d | 0x8 => 2 * j.d | _ => j.d / 2
def AttnJob.sb (j : AttnJob) : Nat := if j.kfmt = 0xE then j.d / 32 else 0

/-- Halves of a head vector (R598), and the elements of one. -/
def AttnJob.halves (j : AttnJob) : Nat := if 128 < j.d then 2 else 1
def AttnJob.half (j : AttnJob) (h : Nat) : Nat := min 128 (j.d - 128 * h)

/-- Position p is allowed to a query (R315). -/
def tokAllows (q : Nat × Nat × Bool) (p : Nat) : Bool := !q.2.2 && p ≤ q.1 && (q.2.1 == 0 || q.1 < p + q.2.1)

/-- Some query of the item may attend position p; a row that none may is never read (R322). -/
def AttnJob.live (j : AttnJob) (p : Nat) : Bool := j.toks.any fun q => tokAllows q p

/-- Offsets in a page of the K row, V row and scales of row r (R307). -/
def AttnJob.kRow (j : AttnJob) (r : Nat) : Nat := r * j.rb
def AttnJob.vRow (j : AttnJob) (r : Nat) : Nat := (j.t + r) * j.rb
def AttnJob.kScl (j : AttnJob) (r : Nat) : Nat := 2 * j.t * j.rb + r * j.sb
def AttnJob.vScl (j : AttnJob) (r : Nat) : Nat := 2 * j.t * j.rb + j.t * j.sb + r * j.sb

/-- Elements of len bytes at a bank offset; none of a row that is not read. -/
def attnElems (s : State) (j : AttnJob) (gb : Nat) (live : Bool) (o len : Nat) : List (Nat × Bool) :=
  if live then cElems (nbits j.kfmt) ((viewBytes s (bankAddr gb o) len).map fun y => (y, false)) else []

/-- Eight rows of a page at row r0 for one query: score, softmax, and the sums of each half (R136, R317). -/
def attnRows (s : State) (j : AttnJob) (gb k po r0 : Nat) (q : Nat × Nat × Bool) (qe : Nat → XVal) (accs : List AccSet) : List AccSet :=
  let rows := List.range 8
  let p (t : Nat) : Nat := k * j.t + r0 + t
  let score (t : Nat) : Nat :=
    let l := j.live (p t)
    nScore j.kfmt j.d q.1 q.2.1 (fdec fp32 j.sc.toNat) qe (p t) (attnElems s j gb l (po + j.kRow (r0 + t)) j.rb)
      (if l then viewBytes s (bankAddr gb (po + j.kScl (r0 + t))) j.sb else [])
  let ss := rows.map score
  (accs.zip (List.range accs.length)).map fun e =>
    let st := softStep e.1 ss
    let h := e.2
    let m := j.half h
    let vals := rows.map fun t =>
      let l := j.live (p t)
      (attnElems s j gb l (po + j.vRow (r0 + t) + 128 * h * nbits j.kfmt / 8) (m * nbits j.kfmt / 8),
        if l then viewBytes s (bankAddr gb (po + j.vScl (r0 + t) + 4 * h)) (if j.sb = 0 then 0 else m / 32) else [])
    sumStep j.kfmt m st.1 (st.2.map (fdec fp32)) vals

/-- The sets of one query after a bank's pages, in ascending block and position (R317). -/
def attnQuery (s : State) (j : AttnJob) (gb : Nat) (pages : List (Nat × Nat)) (u : Nat) : List AccSet :=
  let q := j.toks.getD (u / max 1 j.g) (0, 0, true)
  let qe (e : Nat) : XVal := fdec bf16 (leNat ((j.q.drop (2 * (u * j.d + e))).take 2))
  let init : List AccSet := List.replicate j.halves { m := ninf32 }
  pages.foldl (fun a pg => (List.range (j.t / 8)).foldl (fun a g8 => attnRows s j gb pg.1 pg.2 (8 * g8) q qe a) a) init

/-- The 544 bytes of a set (R137, R162). -/
def accTriple (a : AccSet) : List Byte :=
  leBytes 4 a.m.toNat ++ leBytes 4 a.l.toNat ++ leBytes 24 0 ++ (List.range 128).flatMap fun i => leBytes 4 (accLane a i).toNat

/-- Where triple i of query u and half h lies (R318, R598). -/
def AttnJob.triple (j : AttnJob) (u h i : Nat) : Nat := j.tri + ((j.halves * u + h) * j.trimax + i) * 544

/-- The words that a bank sends up for the item (R137, R317). -/
def attnUps (s : State) (id : Nat) (j : AttnJob) (gb : Nat) (b : AttnBank) : List Up :=
  (List.range (j.toks.length * j.g)).flatMap fun u =>
    if (j.toks.getD (u / max 1 j.g) (0, 0, true)).2.2 then []
    else
      (((attnQuery s j gb b.pages u).zip (List.range j.halves))).flatMap fun a =>
        let bs := accTriple a.1
        (List.range 17).map fun w =>
          { launch := id, isTap := false, addr := j.triple u a.2 b.j + 32 * w, data := (bs.drop (32 * w)).take 32,
            core := j.unit, tally := j.num }

/-- The stored units a bank reads: the rows that some query may attend. -/
def attnUnits (j : AttnJob) (gb : Nat) (b : AttnBank) : List Nat :=
  b.pages.flatMap fun pg => (List.range j.t).flatMap fun r =>
    if j.live (pg.1 * j.t + r) then
      [(j.kRow r, j.rb), (j.vRow r, j.rb), (j.kScl r, j.sb), (j.vScl r, j.sb)].flatMap fun x => unitsOf (bankAddr gb (pg.2 + x.1)) x.2
    else []

/-- The bound of R324 and R598 on a bank's cycles. -/
def attnBound (j : AttnJob) (pages : Nat) : Nat :=
  let u := j.toks.length * j.g
  let sw (n : Nat) : Nat := if j.sb = 0 then 0 else cdiv n 128
  let kw (n : Nat) : Nat := n * nbits j.kfmt / 256
  let row (n : Nat) : Nat := 8 * kw n + sw n + 8
  let c := if j.halves = 1 then j.t / 8 * (2 * row j.d + 16) else j.t / 8 * (row j.d + row (j.half 0) + row (j.half 1) + 33)
  pages * (u * c + 8) + u * 18 * j.halves + 32

/-- The dispatch that the channel's head launch runs in BOUT, with its entry. -/
def attnAt (s : State) (g : Nat) : Option (Nat × Launch × AttnJob × LaunchCh) :=
  let ch := getChan s g
  if ch.mode ≠ 2 ∨ ch.fault.isSome then none
  else ch.launches.head?.bind fun id => (tget none s.launches id).bind fun l => l.attn.bind fun j =>
    (l.chans.find? (·.chan == g)).map fun e => (id, l, j, e)

/-- The cycles a slot's banks take at most, each a free value under its bound, drawn as the launch starts. -/
def attnWork (s : State) (j : AttnJob) (e : LaunchCh) : List Nat × State :=
  (List.range 2).foldl (fun (a : List Nat × State) k =>
    let b := ((e.attn.filter (·.bank % 2 == k)).map fun x => attnBound j x.pages.length).foldl max 0
    let d := draw a.2
    (a.1 ++ [Config.cycles d.1 % (b + 1)], d.2)) ([], s)

/-- One bank's part of a slot: an uncorrectable word or a register with bad parity (R434) is a fault of the program, whose
position is the firmware's own (a free value). -/
def attnBank (g id : Nat) (l : Launch) (j : AttnJob) (e : LaunchCh) (s : State) (b : AttnBank) : State :=
  if (getChan s g).fault.isSome then s
  else
    let m : Meet := { path := 3, tag := l.tag, core := l.core, ring := l.ring }
    let gb := g * 32 + b.bank
    let t := if s.parNbu.contains gb then
        (logUe { s with parNbu := s.parNbu.filter (· ≠ gb) } { m with path := 14 } 0 0, some gb)
      else eccTouch s m (attnUnits j gb b)
    match t.2 with
    | some _ =>
      let d := draw t.1
      let n : NCtx := { g := g, ch := getChan s g, id := id, l := l, e := e, i := 0, pc := Config.freeNat d.1 % 512 }
      nbuFault d.2 n b.bank stUncorr 2
    | none =>
      let ch := getChan t.1 g
      setChan t.1 g { ch with up := ch.up ++ attnUps t.1 id j (g * 32 + b.bank) b }

/-- A bout of a dispatch: its slot works off cycles of the bout; with the last of them its banks have their triples. -/
def attnBout (s : State) (g : Nat) : State :=
  match attnAt s g with
  | none => s
  | some (id, l, j, e) =>
    let ch := getChan s g
    if ch.ended.getD ch.slot true then s
    else
      -- the first bout of the launch fixes the work of both slots
      let w := if e.work.isEmpty then attnWork s j e else (e.work, s)
      let s := w.2
      let left := w.1.getD ch.slot 0
      let room := boutLimit - ch.used
      if left ≤ room then
        let s := setLaunchCh s id g fun c => { c with work := w.1 }
        let s := (e.attn.filter (·.bank % 2 == ch.slot)).foldl (attnBank g id l j e) s
        let c2 := getChan s g
        if c2.fault.isSome then setChan s g { c2 with used := ch.used + left }
        else setChan s g { c2 with used := ch.used + left, ended := lset c2.ended c2.slot true }
      else
        let s := setLaunchCh s id g fun c => { c with work := lset w.1 ch.slot (left - room) }
        setChan s g { getChan s g with used := boutLimit }

end Sys2Proof.Machine
end

