-- ==== Sys2Proof/Machine/Slots.lean ====
section
/-! DEFINITION. The command a queue acts on when it does not run repeats: the front of its input buffer, or the
command at the position of the block its scalar queue is in (R172, R173). Issue, completion and fault of both. -/

namespace Sys2Proof.Machine

/-- What a queue acts on: the command, whether it stands in a block, and whether it has issued and goes on: a scalar command
with repeats left, or one that waits for its access. -/
structure Slot where
  w : Who
  cmd : Cmd
  blk : Bool
  cont : Bool := false
  deriving DecidableEq, Repr, Inhabited

/-- A scalar command other than SC.BLOCK repeats as engine commands do (R186); the common commands run once (R183). -/
def scRepeats (k : Cmd) : Bool := cEngine k == 3 && opcode k < 0xF0 && opcode k != 0x05

/-- The command context x of queue q of core c would act on now; none where it is suspended, busy or empty, or halted
with nothing under way. -/
def slotAt (s : State) (c q x : Nat) : Option Slot :=
  let k := getCtx s c q x
  if k.suspended then none
  else
    match k.run with
    | none => if mayIssue s c q x k then k.buf.head?.map fun m => { w := whoOf s c q x, cmd := m, blk := false } else none
    | some r =>
      if q = 3 ∧ opcode r.cmd = 0x05 ∧ !r.held then
        (k.blk.bind fun b => b.cmds[b.pos]?).map fun m =>
          { w := whoOf s c q x, cmd := m, blk := true, cont := r.pos != 0 || r.waiting.isSome }
      else if q = 3 ∧ scRepeats r.cmd ∧ !r.held then some { w := whoOf s c q x, cmd := r.cmd, blk := false, cont := true }
      else none

/-- The command queue q of core c would act on now. -/
def slotOf (s : State) (c q : Nat) : Option Slot := (curCtx s c q).bind (slotAt s c q)

/-- The command a queue is held at: in a block, the command of the block (R173). -/
def heldCmd (r : Run) : Cmd := r.sub.getD r.cmd

/-- A slot's command issues: it leaves the input buffer, or its turn in the block comes. -/
def slotBegin (s : State) (t : Slot) : State :=
  if t.cont then s else if t.blk then trace s t.w t.cmd 0 false else issue s t.w t.cmd

/-- Repeats of the command that stands in a context done so far. -/
def slotPos (s : State) (t : Slot) : Nat := match (getCtx s t.w.core t.w.q t.w.ctx).run with | some r => r.pos | none => 0

/-- It faults (R173, R206): in a block the record carries its tag, its position and the commands executed, else the repeat
at which it faults. -/
def slotFault (s : State) (t : Slot) (st count : Nat) (why : Why := {}) : State :=
  if t.blk then
    let x := getCtx s t.w.core t.w.q t.w.ctx
    let b := x.blk.getD {}
    match x.run with
    | some r => faultCmd s t.w r.cmd (cTag t.cmd) st b.pos 0 b.done why
    | none => s
  else
    let i := slotPos s t
    faultCmd s t.w t.cmd (cTag t.cmd) st (i % max 1 (cInner t.cmd)) (i / max 1 (cInner t.cmd)) count why

/-- The command of a block at its position ends without a fault (R172, R173): its signal, the next position, and the
end of the block where that lies past its last command. -/
def blkDone (s : State) (t : Slot) (next : Option Nat) : State :=
  let s := if cSigen t.cmd then signalFlag s t.w.core (cSigflag t.cmd) 1 else s
  let s := trace s t.w t.cmd stOk true
  let x := getCtx s t.w.core t.w.q t.w.ctx
  match x.blk, x.run with
  | some b, some r =>
    let b' := { b with last := b.pos, done := b.done + 1, pos := next.getD (b.pos + 1) }
    let r := { r with held := false, sub := none, pos := 0, waiting := none }
    let s := setCtx s t.w.core t.w.q t.w.ctx { x with blk := some b', run := some r }
    if b.need ≤ b'.pos then
      let s := setCtx s t.w.core t.w.q t.w.ctx { x with blk := none, run := some r }
      endCmd s t.w r.cmd (cTag r.cmd) stOk b.pos 0 b'.done
    else s
  | _, _ => s

/-- A slot's command has run once: a scalar command with repeats left goes on (R186), but a branch that is taken leaves its
command (log entry 90); else it completes with ST_OK, with COUNT `count` outside a block and (0, OUTER) where it repeats
(R209). -/
def slotDone (s : State) (t : Slot) (next : Option Nat) (count : Nat) : State :=
  if scRepeats t.cmd && slotPos s t + 1 < total t.cmd && next.isNone then
    match (getCtx s t.w.core t.w.q t.w.ctx).run with
    | some r => setRun s t.w { r with pos := r.pos + 1, waiting := none }
    | none => s
  else if t.blk then blkDone s t next
  else endCmd s t.w t.cmd (cTag t.cmd) stOk 0 (if scRepeats t.cmd then cOuter t.cmd else 0) count

/-- A scalar command of zero repeats completes with no side effect (R186, R209). -/
def slotVoid (s : State) (t : Slot) : State := if t.blk then blkDone s t none else endCmd s t.w t.cmd (cTag t.cmd) stOk 0 0 0

/-- A slot's command is held where it stands. -/
def slotHold (s : State) (t : Slot) (aux : Nat) : State :=
  match (getCtx s t.w.core t.w.q t.w.ctx).run with
  | some r => setRun s t.w { r with held := true, aux := aux, sub := if t.blk then some t.cmd else none, subAt := s.time }
  | none => s

/-- The held command of queue q of core c, as a slot with its Run. -/
def heldOf (s : State) (c q : Nat) : Option (Slot × Run) :=
  (curCtx s c q).bind fun x =>
    let k := getCtx s c q x
    if k.suspended then none
    else k.run.bind fun r => if r.held then some ({ w := whoOf s c q x, cmd := heldCmd r, blk := r.sub.isSome }, r) else none

/-- When a held command was issued. -/
def heldSince (r : Run) : Nat := if r.sub.isSome then r.subAt else r.issued

/-- A slot's command of opcode op in queue q (R175) begins or goes on: the state after its issue and its header check
(R182). `bad` is the check of its own words at issue: the status it faults with. -/
def beginAt (op q : Nat) (bad : State → Slot → Option Nat) (go : Slot → State → State) (slot : Option Slot) (s : State) : Out State :=
  match slot with
  | none => .next s
  | some t =>
    if opcode t.cmd = op ∨ (!t.blk && !(opcodeDefined q (opcode t.cmd))) then
      let s := slotBegin s t
      if t.cont then .next (go t s)
      else if headerBad q t.cmd then .next (slotFault s t stFormat 0)
      else
        match bad s t with
        | some st => .next (slotFault s t st 0)
        | none => .next (go t s)
    else .next s

/-- A command of opcode op in queue q of core c begins or goes on. -/
def beginOp (op q : Nat) (bad : State → Slot → Option Nat) (go : Slot → State → State) (c : Nat) (s : State) : Out State :=
  onCore s c <| if 4 ≤ q then .fault .noSuchUnit else beginAt op q bad go (slotOf s c q) s

end Sys2Proof.Machine
end

