-- ==== Sys2Proof/Machine/Common.lean ====
section
/-! DEFINITION. The commands every engine has (R183-R199, R298, R299): NOP, HURDLE, SIGNAL, WAIT, WAIT_TALLY, AR.SET,
FENCE, with the passages and timeouts that end their waits. -/

namespace Sys2Proof.Machine

/-- Words 3 to 7 are zero. -/
def tailZero (k : Cmd) : Bool := k.w3 == 0 && k.w4 == 0 && k.w5 == 0 && k.w6 == 0 && k.w7 == 0

def fmtIf (b : Bool) : Option Nat := if b then some stFormat else none

/-! ## NOP -/

/-- NOP (R183): no effect but its record. Its words 2-7 name no field (log entry 31). -/
def execNop (c q : Nat) (s : State) : Out State :=
  beginOp 0xF0 q (fun _ t => fmtIf (t.cmd.w2 != 0 || !(tailZero t.cmd))) (fun t s => slotDone s t none 0) c s

/-! ## HURDLE (R189-R191) -/

def hurId (k : Cmd) : Nat := fld k.w2 7 0
def hurMask (k : Cmd) : Nat := fld k.w2 11 8

/-- The contexts of one ring on a core have one number in all queues (R176): the queues of context x that are held at
HURDLE n now. -/
def hurHeld (s : State) (c x q n : Nat) : Option Run :=
  (getCtx s c q x).run.bind fun r => if r.held && opcode (heldCmd r) == 0xF1 && hurId (heldCmd r) == n then some r else none

/-- The fault of HURDLE commands whose masks differ (R191): each queue writes its record, then R206 goes on. -/
def hurdleClash (s : State) (t : Slot) (others : List Nat) : State :=
  let why : Why := { cause := 2, detail := hurId t.cmd }
  let one (u : State) (w : Who) : State :=
    match (getCtx u w.core w.q w.ctx).run with
    | some r =>
      let b := ((getCtx u w.core w.q w.ctx).blk.getD {})
      let inBlk := opcode r.cmd == 0x05 && w.q == 3
      if inBlk then faultQueue u w r.cmd (cTag (heldCmd r)) stFormat b.pos 0 b.done why
      else faultQueue u w r.cmd (cTag r.cmd) stFormat 0 0 0 why
    | none => u
  let s := slotHold s t 0
  let qs := t.w.q :: others
  faultRing (qs.foldl (fun u q => one u { t.w with q := q }) s) t.w qs

/-- HURDLE (R189-R191): the queue reaches it. -/
def execHurdle (c q : Nat) (s : State) : Out State :=
  beginOp 0xF1 q (fun _ t => fmtIf (fld t.cmd.w2 63 12 != 0 || !(tailZero t.cmd) || !((hurMask t.cmd).testBit q)))
    (fun t s =>
      let n := hurId t.cmd
      let k := getCtx s c t.w.q t.w.ctx
      let a := tget 0 k.hurdles n + 1
      let s := setCtx s c t.w.q t.w.ctx { k with hurdles := tput 0 k.hurdles n a }
      let clash := (List.range 4).filter fun p =>
        p ≠ t.w.q && (match hurHeld s c t.w.ctx p n with | some r => hurMask (heldCmd r) != hurMask t.cmd | none => false)
      if clash.isEmpty then slotHold s t a else hurdleClash s t clash) c s

/-- Every earlier command of a context has ended, and its writes have been performed (R195, R283). -/
def ended (s : State) (c q x : Nat) : Bool :=
  ((getCtx s c q x).opens.all fun o => o.fin.isSome) && !(postWaits s (whoOf s c q x))

/-- Every named queue has reached the hurdle, and none has a command before it that has not ended (R190). -/
def hurdleOpen (s : State) (c x n a mask : Nat) : Bool :=
  (List.range 4).all fun p =>
    !(mask.testBit p) ||
      (a ≤ tget 0 (getCtx s c p x).hurdles n &&
        !((hurHeld s c x p n).isSome && !(ended s c p x)))

/-- One staged SC.ARW write applied to an address register (R184). -/
def arwApply (r : AReg) (field : Nat) (v : Word) : AReg :=
  match field with
  | 0 => { r with origin := v.setWidth 56, off := 0 }
  | 1 => { r with istr := v.setWidth 32 }
  | 2 => { r with ostr := v.setWidth 32 }
  | _ => let r := { r with wrap := v.setWidth 48 }; { r with off := arWrap r r.off.toInt }

/-- The staged writes of a ring's scalar context to one queue are applied together (R174). -/
def arwFlush (s : State) (c x p : Nat) : State :=
  let k := getCtx s c 3 x
  let mine := k.staged.filter fun g => g.reg / 16 == p
  let s := mine.foldl (fun t g => setAr t c p x (g.reg % 16) (arwApply (getAr t c p x (g.reg % 16)) g.field g.value)) s
  setCtx s c 3 x { k with staged := k.staged.filter fun g => g.reg / 16 != p }

/-- Passage of a hurdle (R190): all the named queues held at it complete; where the scalar queue is one of them, the
writes it staged for the others take effect (R174). -/
def execHurdlePass (c q : Nat) (s : State) : Out State :=
  onCore s c <|
  match heldOf s c q with
  | none => .next s
  | some (t, r) =>
    let n := hurId t.cmd
    let mask := hurMask t.cmd
    if opcode t.cmd = 0xF1 ∧ hurdleOpen s c t.w.ctx n r.aux mask then
      let s := if mask.testBit 3 && (hurHeld s c t.w.ctx 3 n).any (·.aux == r.aux) then
          ((List.range 3).filter (mask.testBit ·)).foldl (fun u p => arwFlush u c t.w.ctx p) s
        else s
      .next ((List.range 4).foldl (fun u p =>
        match hurHeld u c t.w.ctx p n with
        | some r' =>
          if mask.testBit p ∧ r'.aux = r.aux then
            slotDone u { w := { t.w with q := p }, cmd := heldCmd r', blk := r'.sub.isSome } none 0
          else u
        | none => u) s)
    else .next s

/-! ## Flags (R194-R196) -/

def flN (k : Cmd) : Nat := fld k.w2 31 16

/-- SIGNAL (R195): it acts once every earlier command of its queue has finished. -/
def execSignal (c q : Nat) (s : State) : Out State :=
  match slotOf s c q with
  | some t =>
    if opcode t.cmd = 0xF2 ∧ !(ended s c q t.w.ctx) then onCore s c (.next s)
    else
      beginOp 0xF2 q (fun _ t => fmtIf (fld t.cmd.w2 15 8 != 0 || fld t.cmd.w2 63 32 != 0 || !(tailZero t.cmd) ||
          flagOwner (fld t.cmd.w2 7 0) != q))
        (fun t s => slotDone (if flN t.cmd = 0 then s else signalFlag s c (fld t.cmd.w2 7 0) (flN t.cmd)) t none 0) c s
  | none => beginOp 0xF2 q (fun _ _ => none) (fun _ s => s) c s

/-- WAIT (R194, R196): N = 0 completes; any other holds until WAIT_PASS. -/
def execWait (c q : Nat) (s : State) : Out State :=
  beginOp 0xF3 q (fun _ t => fmtIf (fld t.cmd.w2 15 8 != 0 || fld t.cmd.w2 63 33 != 0 || !(tailZero t.cmd)))
    (fun t s => if flN t.cmd = 0 then slotDone s t none 0 else slotHold s t 0) c s

/-- A held WAIT whose flag has reached its threshold. -/
def waitReady (s : State) (c q : Nat) : Option Slot :=
  match heldOf s c q with
  | some (t, _) => if opcode t.cmd = 0xF3 ∧ flN t.cmd ≤ (getFlag s c (fld t.cmd.w2 7 0)).toNat then some t else none
  | none => none

/-- A WAIT of queue q takes n counts of flag f (R196). The edge of each other WAIT that the flag had satisfied until now
forms anew (R201). -/
def takeCounts (s : State) (c q f n : Nat) : State :=
  let old := (getFlag s c f).toNat
  let s := setFlag s c f (getFlag s c f - BitVec.ofNat 16 n)
  (List.range 4).foldl (fun t p =>
    match heldOf t c p with
    | some (u, r) =>
      if p ≠ q ∧ opcode u.cmd = 0xF3 ∧ fld u.cmd.w2 7 0 = f ∧ flN u.cmd ≤ old then setRun t u.w { r with aux := t.time } else t
    | none => t) s

/-- A WAIT passes (R196): waits passable together are served in ascending engine code. -/
def execWaitPass (c q : Nat) (s : State) : Out State :=
  onCore s c <|
  match waitReady s c q with
  | some t =>
    if (List.range q).any fun p => (waitReady s c p).isSome then .next s
    else
      let f := fld t.cmd.w2 7 0
      .next (slotDone (if bit t.cmd.w2 32 then takeCounts s c q f (flN t.cmd) else s) t none 0)
  | none => .next s

/-! ## WAIT_TALLY (R198) -/

def wtUnit (c : Nat) (k : Cmd) : Nat := if bit k.w2 6 then 192 + fld k.w2 11 8 else c
def wtNum (k : Cmd) : Nat := fld k.w2 5 0
def wtN (k : Cmd) : Nat := fld k.w3 47 0
def wtTimeout (k : Cmd) : Nat := fld k.w4 47 0

def wtBad (k : Cmd) : Bool :=
  bit k.w2 7 || fld k.w2 63 12 != 0 || fld k.w3 63 48 != 0 || fld k.w4 63 48 != 0 || k.w5 != 0 || k.w6 != 0 || k.w7 != 0 ||
  11 < fld k.w2 11 8 || (!(bit k.w2 6) && fld k.w2 11 8 != 0)

/-- A tally the fold may name (R523). -/
def tallyReach (s : State) (f unit n : Nat) : Bool := if unit < 192 then foldCore s f unit else foldHubTally s f n

/-- WAIT_TALLY (R198): it is held until WAIT_TALLY_PASS or WAIT_TALLY_TIMEOUT. -/
def execWaitTally (c q : Nat) (s : State) : Out State :=
  beginOp 0xF4 q
    (fun s t => if wtBad t.cmd then some stFormat
      else if !(tallyReach s t.w.fold (wtUnit c t.cmd) (wtNum t.cmd)) then some stAccess else none)
    (fun t s => slotHold s t 0) c s

/-- The tally has reached N (R198): COUNT is its value. -/
def execWaitTallyPass (c q : Nat) (s : State) : Out State :=
  onCore s c <|
  match heldOf s c q with
  | some (t, _) =>
    let v := (getTally s (wtUnit c t.cmd) (wtNum t.cmd)).toNat
    if opcode t.cmd = 0xF4 ∧ wtN t.cmd ≤ v then .next (slotDone s t none v) else .next s
  | none => .next s

/-- TIMEOUT ticks have passed with the tally below N (R198). -/
def execWaitTallyTimeout (c q : Nat) (s : State) : Out State :=
  onCore s c <|
  match heldOf s c q with
  | some (t, r) =>
    let v := (getTally s (wtUnit c t.cmd) (wtNum t.cmd)).toNat
    if opcode t.cmd = 0xF4 ∧ v < wtN t.cmd ∧ wtTimeout t.cmd ≠ 0 ∧ r.issued + wtTimeout t.cmd ≤ s.time then
      .next (slotFault s t stTimeout v { cause := 4, detail := wtNum t.cmd })
    else .next s
  | none => .next s

/-! ## AR.SET (R185) -/

def arsBad (k : Cmd) : Bool :=
  fld k.w2 63 4 != 0 || fld k.w3 63 56 != 0 || fld k.w5 63 48 != 0 || fld k.w6 63 56 != 0 || fld k.w7 63 56 != 0 ||
  fld k.w7 55 0 < fld k.w6 55 0

/-- The register AR.SET writes. -/
def arsReg (k : Cmd) : AReg :=
  { origin := k.w3.setWidth 56, off := 0, istr := k.w4.setWidth 32, ostr := (k.w4 >>> 32).setWidth 32,
    wrap := k.w5.setWidth 48, wlo := k.w6.setWidth 56, whi := k.w7.setWidth 56 }

/-- AR.SET (R185). -/
def execArSet (c q : Nat) (s : State) : Out State :=
  beginOp 0xF5 q (fun _ t => fmtIf (arsBad t.cmd))
    (fun t s => slotDone (setAr s c q t.w.ctx (fld t.cmd.w2 3 0) (arsReg t.cmd)) t none 0) c s

/-! ## FENCE (R298, R299) -/

/-- FENCE: a write that has been performed has been so for every observer (log entry 32), so it waits for the earlier
commands of its context that have not ended, and for the writes of the core's commands that hold queues still keep: those
of its context, and those that a wait may have made visible to it. Its context's later writes to host memory go without
Relaxed Ordering. -/
def execFence (c q : Nat) (s : State) : Out State :=
  let held : Bool := s.asks.any fun k => match k.owner with | .posted d _ _ => d == c | _ => false
  match slotOf s c q with
  | some t =>
    if opcode t.cmd = 0xF6 ∧ (held || !(ended s c q t.w.ctx)) then onCore s c (.next s)
    else
      beginOp 0xF6 q (fun _ t => fmtIf (fld t.cmd.w2 63 2 != 0 || !(tailZero t.cmd)))
        (fun t s => slotDone (setCtx s c q t.w.ctx { getCtx s c q t.w.ctx with fenced := true }) t none 0) c s
  | none => beginOp 0xF6 q (fun _ _ => none) (fun _ s => s) c s

end Sys2Proof.Machine
end

