-- ==== Sys2Proof/Machine/Dma.lean ====
section
/-! DEFINITION. The transfer unit (chapters 09, 10, 11): DMA.COPY, DMA.PERM, DMA.PUT with their layout descriptor,
compressed blocks and tallies (R231-R255), DMA.AMO with the atomics it shares (R292-R297), PAL.WRITE (R264-R266).
A row's count n is here the number of elements, blocks or atomics after which the queue yields: a transfer stops
between any two of them (R254, R255). -/

namespace Sys2Proof.Machine

/-! ## The layout descriptor (R233, R234) -/

/-- Dimension block d: the destination fields of destination dimension d, the source fields of source dimension d. -/
structure Dim where
  n : Nat
  plo : Nat
  phi : Nat
  sx : Nat
  soff : Int
  sstr : Int
  dstr : Int
  deriving DecidableEq, Repr, Inhabited

/-- A layout descriptor's 24 words. -/
abbrev Lay := List Nat

def layOf (bs : List Byte) : Lay := (List.range 24).map fun i => leNat ((bs.drop (8 * i)).take 8)
def lw (l : Lay) (i : Nat) : Nat := l.getD i 0
def lEsize (l : Lay) : Nat := nfld (lw l 0) 2 0
def lNdim (l : Lay) : Nat := nfld (lw l 0) 6 4
def lPerm (l : Lay) (d : Nat) : Nat := nfld (lw l 0) (3 * d + 10) (3 * d + 8)
def lFill (l : Lay) : Bool := (lw l 0).testBit 24
def lZmode (l : Lay) : Nat := nfld (lw l 0) 29 28
def lPad (l : Lay) : Nat := lw l 1
def lSmapS (l : Lay) : Nat := nfld (lw l 2) 55 0
def lSmapD (l : Lay) : Nat := nfld (lw l 3) 55 0

/-- Element width in bits. -/
def lBits (l : Lay) : Nat := ([4, 6, 8, 16, 32, 64]).getD (lEsize l) 8

/-- Dimension d; those from NDIM on count as extent 1 (R234). -/
def lDim (l : Lay) (d : Nat) : Dim :=
  if lNdim l ≤ d then { n := 1, plo := 0, phi := 0, sx := 1, soff := 0, sstr := 0, dstr := 0 }
  else
    let w (i : Nat) : Nat := lw l (4 + 4 * d + i)
    { n := nfld (w 0) 23 0, plo := nfld (w 0) 39 24, phi := nfld (w 0) 55 40, sx := nfld (w 1) 23 0,
      soff := sx 24 (nfld (w 1) 47 24), sstr := sx 48 (w 2), dstr := sx 48 (w 3) }

/-- M[d], the interior extent (R235). -/
def dM (x : Dim) : Nat := x.n - x.plo - x.phi

/-- The destination dimension fed by source dimension s. -/
def fedBy (l : Lay) (s : Nat) : Nat := ((List.range 5).find? fun d => lPerm l d == s).getD s

/-- clamp(i, 0, sx - 1). -/
def clampIx (x : Nat) (i : Int) : Nat := (clampI 0 ((x : Int) - 1) i).toNat

/-- Some interior exists. -/
def hasInterior (l : Lay) : Bool := (List.range 5).all fun d => 0 < dM (lDim l d)

/-- The descriptor faults of R236 and R246, the alignment of AR0 and AR1 included. -/
def layBad (op : Nat) (l : Lay) (a0 a1 : Nat) : Bool :=
  let nd := lNdim l
  let perm := (List.range nd).map (lPerm l)
  let ident := (List.range nd).all fun d => lPerm l d == d
  let sub := lEsize l < 2
  let z := lZmode l
  let d0 := lDim l 0
  -- reserved fields and invalid codes
  nfld (lw l 0) 3 3 != 0 || nfld (lw l 0) 7 7 != 0 || nfld (lw l 0) 23 23 != 0 || nfld (lw l 0) 27 25 != 0 ||
  nfld (lw l 0) 63 30 != 0 || 5 < lEsize l || nd == 0 || 5 < nd || z == 3 ||
  lPad l / 2 ^ lBits l != 0 || nfld (lw l 2) 63 56 != 0 || nfld (lw l 3) 63 56 != 0 ||
  (z == 0 && (lw l 2 != 0 || lw l 3 != 0)) ||
  ((List.range 5).any fun d =>
    let w (i : Nat) : Nat := lw l (4 + 4 * d + i)
    if nd ≤ d then (List.range 4).any (fun i => w i != 0) || lPerm l d != d
    else nfld (w 0) 63 56 != 0 || nfld (w 1) 63 48 != 0 || nfld (w 2) 63 48 != 0 || nfld (w 3) 63 48 != 0) ||
  -- the permutation
  !((List.range nd).all (perm.contains ·)) || (op != 2 && !ident) || (op == 2 && ident) ||
  -- extents
  ((List.range nd).any fun d => (lDim l d).n < (lDim l d).plo + (lDim l d).phi) ||
  (hasInterior l && (List.range nd).any fun s => (lDim l s).sx == 0) ||
  (sub && (lPerm l 0 != 0 || d0.sstr != 0 || d0.dstr != 0)) ||
  -- compressed blocks
  (z != 0 && (op == 2 || lEsize l != 2 || nd != 1 || d0.plo != 0 || d0.phi != 0 || d0.soff != 0 || d0.sx < d0.n ||
    d0.sstr != 1 || d0.dstr != 1 || d0.n % 2048 != 0 || a0 % 512 != 0 || a1 % 512 != 0))

/-! ## Spans (R240) -/

/-- A span from an address: its least and greatest byte offset past it, both included. -/
def spanRng (base : Nat) (lo hi : Int) (ar : AReg) (write : Bool) : Rng :=
  { addr := wrapN 56 ((base : Int) + lo), len := (hi - lo + 1).toNat, ar := some ar, write := write }

/-- Least and greatest of the products of a stride with the indices a and b. -/
def ext (st : Int) (a b : Nat) : Int × Int :=
  let x := st * (a : Int)
  let y := st * (b : Int)
  (min x y, max x y)

/-- The source span (R240); none without an interior. -/
def srcSpan (l : Lay) (a0 : Nat) (r0 : AReg) : Option Rng :=
  if !(hasInterior l) then none
  else
    let sub := lEsize l < 2
    let part (s : Nat) : Int × Int :=
      let x := lDim l s
      let m := dM (lDim l (fedBy l s))
      let a := clampIx x.sx x.soff
      let b := clampIx x.sx (x.soff + (m : Int) - 1)
      if s = 0 ∧ sub then (((a * lBits l / 8 : Nat) : Int), ((rowBytes (lBits l) x.sx : Nat) : Int) - 1) else ext x.sstr a b
    let e := (List.range 5).foldl (fun (q : Int × Int) s => let p := part s; (q.1 + p.1, q.2 + p.2)) (0, 0)
    some (spanRng a0 e.1 (e.2 + (if sub then 0 else ((lBits l / 8 : Nat) : Int) - 1)) r0 false)

/-- The destination span (R240); none under PAD_SKIP without an interior, or where an extent is zero. -/
def dstSpan (l : Lay) (a1 : Nat) (r1 : AReg) : Option Rng :=
  if (List.range 5).any (fun d => (lDim l d).n == 0) || (!(lFill l) && !(hasInterior l)) then none
  else
    let sub := lEsize l < 2
    let part (d : Nat) : Int × Int :=
      let x := lDim l d
      let a := if lFill l then 0 else x.plo
      let b := if lFill l then x.n - 1 else x.n - x.phi - 1
      if d = 0 ∧ sub then (((a * lBits l / 8 : Nat) : Int), ((rowBytes (lBits l) x.n : Nat) : Int) - 1) else ext x.dstr a b
    let e := (List.range 5).foldl (fun (q : Int × Int) d => let p := part d; (q.1 + p.1, q.2 + p.2)) (0, 0)
    some (spanRng a1 e.1 (e.2 + (if sub then 0 else ((lBits l / 8 : Nat) : Int) - 1)) r1 true)

/-- The locations of two spans of this device intersect (R243): DRAM by DRAM byte across the views, 256-byte line by
line; every other region by address. -/
def spansMeet (s : State) (a b : Rng) : Bool :=
  let x := gLoc a.addr
  let y := gLoc b.addr
  let dram (v : Nat) : Bool := region s.grade v == .dram
  gDev a.addr == gDev b.addr && a.len != 0 && b.len != 0 &&
  (if dram x != dram y then false
   else if gDev a.addr ≠ s.devid ∨ !(dram x) ∨ (x < ilvEnd ↔ y < ilvEnd) then x < y + b.len && y < x + a.len
   else
    -- pieces of both that lie in one line of one bank
    let pieces (v n : Nat) : List (Nat × Nat) := (List.range ((v + n - 1) / 256 + 1 - v / 256)).map fun i =>
      let lo := max v ((v / 256 + i) * 256)
      let hi := min (v + n) ((v / 256 + i + 1) * 256)
      (locOf lo, hi - lo)
    (pieces x a.len).any fun p => (pieces y b.len).any fun q => p.1 < q.1 + q.2 && q.1 < p.1 + p.2)

/-! ## The pieces of a repeat, in the order of R235 -/

/-- A destination index from its number in that order. -/
def idxOf (l : Lay) (m : Nat) : List Nat :=
  ((List.range 5).foldl (fun (q : List Nat × Nat) d => (q.1 ++ [q.2 % max 1 (lDim l d).n], q.2 / max 1 (lDim l d).n)) ([], m)).1

/-- Dimensions from lo on: the index lies in the interior. -/
def interior (l : Lay) (j : List Nat) (lo : Nat) : Bool :=
  (List.range 5).all fun d => d < lo || ((lDim l d).plo ≤ j.getD d 0 && j.getD d 0 < (lDim l d).n - (lDim l d).phi)

/-- The clamped source index of source dimension s (R235, R237). -/
def srcIx (l : Lay) (j : List Nat) (s : Nat) : Nat :=
  let d := fedBy l s
  clampIx (lDim l s).sx ((lDim l s).soff + (j.getD d 0 : Int) - ((lDim l d).plo : Int))

/-- Source address over the dimensions from lo on. -/
def srcAddr (l : Lay) (a0 : Nat) (j : List Nat) (lo : Nat) : Nat :=
  wrapN 56 ((List.range 5).foldl (fun (a : Int) s => if s < lo then a else a + (srcIx l j s : Int) * (lDim l s).sstr) (a0 : Int))

/-- Destination address over the dimensions from lo on. -/
def dstAddr (l : Lay) (a1 : Nat) (j : List Nat) (lo : Nat) : Nat :=
  wrapN 56 ((List.range 5).foldl (fun (a : Int) d => if d < lo then a else a + (j.getD d 0 : Int) * (lDim l d).dstr) (a1 : Int))

/-- What is still to be read: where it goes, the bits of each byte that are written (all where none are named), its source
runs (address, length), and how its bytes come from them. -/
structure Plan where
  addr : Nat
  mask : List Byte := []
  weight : Nat
  srcs : List (Nat × Nat)
  make : List (List Byte) → List Byte

/-- Whole-byte elements: one piece per written position. -/
def plainPlans (l : Lay) (a0 a1 : Nat) : List Plan :=
  let nb := lBits l / 8
  let total := (List.range 5).foldl (fun a d => a * (lDim l d).n) 1
  (List.range total).filterMap fun m =>
    let j := idxOf l m
    if interior l j 0 then
      some { addr := dstAddr l a1 j 0, weight := nb, srcs := [(srcAddr l a0 j 0, nb)], make := fun r => r.headD [] }
    else if lFill l then some { addr := dstAddr l a1 j 0, weight := nb, srcs := [], make := fun _ => leBytes nb (lPad l) }
    else none

/-- Sub-byte rows (R42, R43, R238): the destination bytes in the smallest whole-byte groups that cut no element (one byte of
4-bit elements, three of 6-bit elements: R255), where an element of them is written; a row's last byte gets its padding
bits as zero. -/
def subPlans (l : Lay) (a0 a1 : Nat) : List Plan :=
  let w := lBits l
  let n0 := (lDim l 0).n
  let z := if w = 6 then 3 else 1
  let rows := (List.range 4).foldl (fun a d => a * (lDim l (d + 1)).n) 1
  (List.range rows).flatMap fun m =>
    let j := idxOf l (m * max 1 n0)
    let outer := interior l j 1
    let inn (e : Nat) : Bool := outer && (lDim l 0).plo ≤ e && e < n0 - (lDim l 0).phi
    (List.range (cdiv (rowBytes w n0) z)).filterMap fun b =>
      let size := min z (rowBytes w n0 - z * b)
      let bits := List.range (8 * size)
      let elt (t : Nat) : Nat := (8 * z * b + t) / w
      let isW (t : Nat) : Bool := elt t < n0 && (inn (elt t) || lFill l)
      if !(bits.any isW) then none
      else
        let mask := bits.foldl (fun a t => if isW t || n0 ≤ elt t then a + 2 ^ t else a) 0
        -- the source bit of each written bit, as a bit position past the row's address
        let srcBit (t : Nat) : Option Nat :=
          if elt t < n0 ∧ inn (elt t) then some (srcIx l ((j.drop 1).cons (elt t)) 0 * w + (8 * z * b + t) % w) else none
        let rowA := srcAddr l a0 j 1
        let bytes : List Nat := (bits.filterMap fun t => (srcBit t).map (· / 8)).eraseDups
        some { addr := wrapN 56 ((dstAddr l a1 j 1 : Int) + ((z * b : Nat) : Int)), mask := leBytes size mask, weight := size,
               srcs := bytes.map fun x => ((rowA + x) % 2 ^ 56, 1),
               make := fun r =>
                 leBytes size (bits.foldl (fun a t =>
                   let v : Nat := match srcBit t with
                     | some p =>
                       ((((bytes.zip r).find? fun (q : Nat × List Byte) => q.1 == p / 8).map fun (q : Nat × List Byte) => q.2.headD 0).getD 0).toNat >>> (p % 8) % 2
                     | none => if elt t < n0 then (lPad l >>> ((8 * z * b + t) % w)) % 2 else 0
                   a + v * 2 ^ t) 0) }

/-- The pieces of a plan with its bytes: one, or one for each byte of which some bit is written. -/
def planPieces (p : Plan) (bs : List Byte) : List Piece :=
  if p.mask.all (· == 0xFF) then [{ addr := p.addr, data := bs, weight := p.weight }]
  else
    let ps := (((List.range bs.length).zip (bs.zip p.mask)).filter fun e => e.2.2 != 0).map fun e =>
      ({ addr := (p.addr + e.1) % 2 ^ 56, data := [e.2.1], mask := e.2.2, weight := 1, cont := true } : Piece)
    ps.dropLast ++ (ps.getLast?.map fun q => { q with cont := false }).toList

/-- Writes in the order of R235 gathered into requests of up to 64 bytes of one 64-byte block (R224, R252; log entry 91). A
register is written element by element. -/
def gather (s : State) (ps : List Piece) : List Piece :=
  (ps.foldl (fun (out : List Piece) p =>
    match out with
    | q :: t =>
      if q.mask = 0xFF ∧ p.mask = 0xFF ∧ p.addr = q.addr + q.data.length ∧ q.addr / 64 = (p.addr + p.data.length - 1) / 64 ∧
          !(gDev p.addr == s.devid && region s.grade (gLoc p.addr) == .csr) then
        { q with data := q.data ++ p.data, weight := q.weight + p.weight, cont := p.cont } :: t
      else p :: out
    | [] => [p]) []).reverse

/-- What a repeat reads: a byte of this device, of host memory or of another member. `f` numbers the free reads. -/
def srcByte (s : State) (f a : Nat) : Byte :=
  if gDev a ≠ s.devid then Config.peerByte f a
  else if region s.grade (gLoc a) = .aperture then Config.hostByte f (gLoc a - aprBase)
  else viewByte s (locOf (gLoc a))

def srcBytes (s : State) (f : Nat) (r : Nat × Nat) : List Byte := (List.range r.2).map fun i => srcByte s f ((r.1 + i) % 2 ^ 56)

/-- The plans of a compressed repeat (R246, R247): the blocks in order, each group of four followed by its map byte. -/
def zPlans (s : State) (f : Nat) (l : Lay) (a0 a1 : Nat) : List Plan :=
  let nb := (lDim l 0).n / 512
  let code (i : Nat) : Nat := ((srcByte s f (lSmapS l + i / 4)).toNat >>> (2 * (i % 4))) % 4
  let form (i : Nat) : Nat × List Byte :=
    let place := srcBytes s f (a0 + 512 * i, 512)
    if lZmode l = 1 then (code i, place.take (storedLen (code i) place)) else compress place
  (List.range (nb / 4)).flatMap fun g =>
    ((List.range 4).map fun q =>
      let i := 4 * g + q
      let fm := form i
      ({ addr := a1 + 512 * i, weight := 512,
         srcs := if lZmode l = 1 then [(lSmapS l + g, 1), (a0 + 512 * i, fm.2.length)] else [(a0 + 512 * i, 512)],
         make := fun _ => fm.2 } : Plan)) ++
    [{ addr := lSmapD l + g, weight := 1, srcs := [],
       make := fun _ => [BitVec.ofNat 8 ((List.range 4).foldl (fun a q => a + (form (4 * g + q)).1 * 2 ^ (2 * q)) 0)] }]

/-- The stored units of this device's memory that a run of source bytes touches. -/
def srcUnits (s : State) (r : Nat × Nat) : List Nat :=
  if gDev r.1 ≠ s.devid ∨ region s.grade (gLoc r.1) = .aperture then [] else unitsOf (gLoc r.1) r.2

/-- How the transfer unit reads and writes registers of this device (R277, R523): fold, local address, size; fold, ring,
address, size, value. The register file stands behind it (Machine/Transfer.lean). -/
structure RegIo where
  load : State → Nat → Nat → Nat → Nat
  store : State → Nat → Nat → Nat → Nat → Nat → State

/-- The bytes of a source run, which may lie in the registers. -/
def ioBytes (io : RegIo) (s : State) (w : Who) (f : Nat) (r : Nat × Nat) : List Byte :=
  if gDev r.1 = s.devid ∧ region s.grade (gLoc r.1) = .csr then leBytes r.2 (io.load s w.fold (gLoc r.1) r.2) else srcBytes s f r

/-- Runs with those that continue one another joined. -/
def joinRuns (rs : List (Nat × Nat)) : List (Nat × Nat) :=
  (rs.foldl (fun (out : List (Nat × Nat)) r =>
    match out with
    | q :: t => if r.1 = q.1 + q.2 then (q.1, q.2 + r.2) :: t else r :: out
    | [] => [r]) []).reverse

/-- A run that leaves the device for its bytes (R278, R473). -/
def runOut (s : State) (r : Nat × Nat) : Bool := gDev r.1 != s.devid || region s.grade (gLoc r.1) == .aperture

/-- How the requests of a repeat that leave the device end (R476, R498, R523): none where all succeed. -/
def outFail (s : State) (f : Nat) (rs : List (Nat × Nat)) : Option Nat :=
  match rs.find? (runOut s) with
  | none => none
  | some r =>
    if gDev r.1 ≠ s.devid then
      (match (Config.peerOutcome f).toNat with
       | 0 => none | 1 => some stAccess | 2 => some stUncorr | _ => some stLink)
    else if !s.hif.linkUp && !(relays s) then some stAccess
    else
      (match (Config.hostOutcome f).toNat with
       | 0 => none | 2 => some stUncorr | _ => some stAccess)

/-- The read phase of a repeat (R242: the values its source held when it began): the pieces before the first that
takes an unreadable byte (R255), with the status that ends the command there. -/
def readPlans (io : RegIo) (s : State) (w : Who) (k : Cmd) (ps : List Plan) : State × List Piece × Option Nat :=
  let f := s.free
  let rs := ps.flatMap (·.srcs)
  let of_ := outFail s f rs
  let ue := ps.map fun p => p.srcs.any fun r => (srcUnits s r).any fun u => (unitView s u).ue
  let cut := if clean s then ps.length else (ue.findIdx? (· == true)).getD ps.length
  let cut := match of_ with
    | none => cut
    | some _ => min cut (Config.freeNat f % max 1 ps.length)
  let t := eccTouch s (meetOfDma w k) ((ps.take (cut + 1)).flatMap fun p => p.srcs.flatMap (srcUnits s))
  let fail := match of_ with
    | some st => if cut < ps.length then some (if (ue.getD cut false) then stUncorr else st) else some st
    | none => if cut < ps.length then some stUncorr else none
  let s1 := ((ps.take cut).flatMap (·.srcs)).foldl (fun u r => regPay u w.fold r.1 r.2 false) t.1
  ({ s1 with free := f + 1 }, (ps.take cut).flatMap fun p => planPieces p (p.make (p.srcs.map (ioBytes io s w f))), fail)
where
  /-- DMA read (R454). -/
  meetOfDma (w : Who) (k : Cmd) : Meet := { path := 6, tag := cTag k, core := w.core, ring := w.ring }

/-! ## Writing a piece -/

/-- The writes of a context to host memory may pass one another (R287), until it has passed a FENCE (R299). -/
def mayRelax (s : State) (w : Who) : Bool := !((getCtx s w.core w.q w.ctx).fenced)

/-- One write of a command to this device's memory, host memory or a register: performed, or its status. The part of it in
a channel that computes goes to the hold queue (R111, R253); into another core's scratchpad it is an external write
(R216, R227). -/
def copyPiece (io : RegIo) (s : State) (w : Who) (k : Cmd) (p : Piece) : State × Option Nat :=
  let a := gLoc p.addr
  let m : Meet := { path := 8, tag := cTag k, core := w.core, ring := w.ring }
  match region s.grade a with
  | .aperture =>
    let r := hostPost s w.fold (a - aprBase) (maskBytes s a p.mask p.data) (mayRelax s w)
    (r.1, if r.2 then none else some stAccess)
  | .csr => (io.store s w.fold w.ring a p.data.length (leNat p.data), none)
  | .dram =>
    (List.range (lineCount 256 a p.data.length)).foldl (fun (t : State × Option Nat) i =>
      let q := linePart 256 a p.data.length i
      let l := locOf (a + q.1)
      let bs := (p.data.drop q.1).take q.2
      if chanHolds s (locChan l) then
        (askPush t.1 (.posted w.core w.q w.ctx) (some w.fold)
          { addr := l, len := q.2, write := true, data := bs, mask := p.mask }, t.2)
      else
        let r := writeBytes t.1 m (a + q.1) (maskBytes t.1 (a + q.1) p.mask bs)
        (r.1, t.2.or (r.2.map fun _ => stUncorr))) (s, none)
  | _ =>
    let bs := maskBytes s a p.mask p.data
    if spdWin w.core ≤ a ∧ a < spdWin (w.core + 1) then
      let r := writeBytes s m a bs
      (r.1, r.2.map fun _ => stUncorr)
    else
      let r := extWrite s a bs m
      (r.1, if r.2 then none else some stUncorr)

/-- PUT fields (R248). -/
def putTally (k : Cmd) : Nat := fld k.w2 5 0
def putHub (k : Cmd) : Bool := bit k.w2 6
def putUnitNo (k : Cmd) : Nat := fld k.w2 15 8
def putUnit (k : Cmd) : Nat := if putHub k then 192 + putUnitNo k else putUnitNo k

/-- One piece of a DMA.PUT: issued into the device or onto the fabric (R249, R250). -/
def putPiece (s : State) (w : Who) (k : Cmd) (key : Nat) (p : Piece) : State × Option Nat :=
  if gDev p.addr = s.devid then
    let q : PutB := { addr := gLoc p.addr, data := p.data, mask := p.mask, weight := p.weight, unit := putUnit k,
                      num := putTally k, fold := w.fold, key := key, relaxed := mayRelax s w }
    ({ s with puts := s.puts ++ [q] }, none)
  else
    let m : Msg := { dst := gDev p.addr, src := s.devid, cls := .req, op := .put, fold := w.fold, addr := gLoc p.addr,
                     data := p.data, len := p.data.length, tallyUnit := putUnit k, tallyNum := putTally k,
                     operand := BitVec.ofNat 64 p.weight, compare := p.mask.setWidth 64 }
    (sendFab s m, none)

/-! ## A transfer's repeat -/

/-- The ranges of a repeat (R240, R246): spans and shape-map spans. An uncompressed transfer may name registers (R277). -/
def xferRngs (op : Nat) (l : Lay) (a0 a1 : Nat) (r0 r1 : AReg) : List Rng :=
  let z := lZmode l != 0
  let nm := (lDim l 0).n / 2048
  ((srcSpan l a0 r0).map fun r => { r with remote := op != 3, aperture := !z, csr := !z }).toList ++
  ((dstSpan l a1 r1).map fun r => { r with remote := op == 3, aperture := !z, csr := !z }).toList ++
  (if z then
    [{ addr := lSmapS l, len := nm, ar := some r0, remote := op != 3 },
     { addr := lSmapD l, len := nm, ar := some r1, write := true, remote := op == 3 }]
   else [])

/-- The range of the layout descriptor (R232). -/
def descRng (s : State) (w : Who) (k : Cmd) : Rng :=
  let r := roleAr s w k 2
  { addr := arAddr r, len := 192, ar := some r, remote := true, aperture := true }

/-- The descriptor read at issue (R232): the state, its bytes, or the status. -/
def readDesc (io : RegIo) (s : State) (w : Who) (k : Cmd) : State × Except Nat (List Byte) :=
  let a := arAddr (roleAr s w k 2)
  let r := readPlans io s w k [{ addr := 0, weight := 0, srcs := [(a, 192)], make := fun l => l.headD [] }]
  match r.2.2 with
  | some st => (r.1, .error st)
  | none => (r.1, .ok ((r.2.1.map (·.data)).headD []))

/-- The tally a DMA.PUT names does not exist on the destination's device (R205, R248); the fold may not reach it (R523). Another
member has at most the cores of the larger grade, and judges the fold's reach itself. -/
def putAbsent (s : State) (w : Who) (k : Cmd) : Bool :=
  !(putHub k) && Config.cores (if gDev (arAddr (roleAr s w k 1)) = s.devid then s.grade else .f) ≤ putUnitNo k
def putFar (s : State) (w : Who) (k : Cmd) : Bool :=
  gDev (arAddr (roleAr s w k 1)) == s.devid && !(tallyReach s w.fold (putUnit k) (putTally k))

/-- The plans of a repeat. -/
def xferPlans (s : State) (l : Lay) (a0 a1 : Nat) : List Plan :=
  if lZmode l ≠ 0 then zPlans s s.free l a0 a1 else if lEsize l < 2 then subPlans l a0 a1 else plainPlans l a0 a1

/-- What a repeat may read: the source runs of its plans, or the places of its blocks and their shape map. -/
def xferReads (l : Lay) (a0 : Nat) (ps : List Plan) : List (Nat × Nat) :=
  if lZmode l = 0 then joinRuns (ps.flatMap (·.srcs))
  else (a0, (lDim l 0).n) :: (if lZmode l = 1 then [(lSmapS l, (lDim l 0).n / 2048)] else [])

/-- The start of a repeat: checks, then the reads (R235-R243); those in a channel that computes wait (R253). The cycles in
which a request waits for a scratchpad bank are free (R230, log entry 92). -/
def xferBegin (io : RegIo) (op : Nat) (s : State) (w : Who) (k : Cmd) (r : Run) : RepOut :=
  let r0 := roleAr s w k 0
  let r1 := roleAr s w k 1
  let a0 := arAddr r0
  let a1 := arAddr r1
  let l := layOf r.desc
  if layBad op l a0 a1 then .fault s stFormat 0
  else if r.pos = 0 && (List.range (lNdim l)).any (fun d => (lDim l d).n == 0) then .void s
  else
    match checkRanges s w (xferRngs op l a0 a1 r0 r1) (op == 3 && putAbsent s w k) (op == 3 && putFar s w k) with
    | some st => .fault s st 0
    | none =>
      let clash := match srcSpan l a0 r0, dstSpan l a1 r1 with
        | some x, some y => op == 2 && spansMeet s x y
        | _, _ => false
      if clash then .fault s stOverlap 0
      else
        let ps := xferPlans s l a0 a1
        let rs := xferReads l a0 ps
        if !((ps.flatMap (·.srcs)).all fun x => regOk s w.fold x.1 x.2 false) then .more s
        else
          match askRead s (.queue w.core w.q w.ctx) (some w.fold) (ownRuns s rs) with
          | (s, none) => .wait s
          | (s, some got) =>
            let t := onCaps s got fun u => readPlans io u w k (xferPlans u l a0 a1)
            let key := t.1.nextAsk + 1
            let d := draw (dropAsks { t.1 with nextAsk := key } (.queue w.core w.q w.ctx))
            let s := rinc d.2 (coreReg w.core 0xD18) (Config.freeNat d.1)
            let todo := if lZmode l = 0 then gather s t.2.1 else t.2.1
            .more (setRun s w { r with begun := true, todo := todo, fail := t.2.2, waiting := none, key := key })

/-- The pieces that are issued together: up to the first after which no element goes on (R255); and the rest. -/
def nextPieces : List Piece → List Piece × List Piece
  | [] => ([], [])
  | p :: t => if p.cont then let r := nextPieces t; (p :: r.1, r.2) else ([p], t)

/-- One request of a transfer: the descriptor read, the start of a repeat, or its next write. While 256 of its writes wait
in hold queues it stalls (R253); a native repeat is done when the last of them has been performed (R251, R283). -/
def xferRep (io : RegIo) (op : Nat) (s : State) (w : Who) (k : Cmd) (r : Run) : RepOut :=
  let o : Owner := .queue w.core w.q w.ctx
  if r.desc = [] then
    match checkRanges s w [descRng s w k] with
    | some st => .fault s st 0
    | none =>
      match askRead s o (some w.fold) (ownRuns s [(arAddr (roleAr s w k 2), 192)]) with
      | (s, none) => .wait s
      | (s, some got) =>
        match onCaps s got fun u => readDesc io u w k with
        | (s, .error st) => .fault s st 0
        | (s, .ok bs) => .more (setRun (dropAsks s o) w { r with desc := bs, waiting := none })
  else if !r.begun then xferBegin io op s w k r
  else if r.todo.isEmpty then
    match r.fail with
    | some st => .fault s st r.moved
    | none => if postWaits s w then .wait s else .done s r.moved
  else if op ≠ 3 && (match postedOf s w.core w.q w.ctx with | some a => 256 ≤ a.left | none => false) then .wait s
  else
    let g := nextPieces r.todo
    if !(g.1.all fun p => regOk s w.fold p.addr p.data.length true) then .more s
    else
      let q := g.1.foldl (fun (t : State × Option Nat × Nat) p =>
        match t.2.1 with
        | some _ => t
        | none =>
          let q := if op = 3 then putPiece t.1 w k r.key p else copyPiece io t.1 w k p
          (regPay q.1 w.fold p.addr p.data.length true, q.2, t.2.2 + p.weight)) (s, none, 0)
      match q.2.1 with
      | some st => .fault q.1 st r.moved
      | none => .more (setRun q.1 w { r with todo := g.2, moved := r.moved + q.2.2, waiting := none })

/-- The checks of a transfer on its words and AR2 at issue (R231, R232, R248). -/
def xferCheck (op : Nat) (s : State) (w : Who) (k : Cmd) : Option Nat :=
  fmtIf ((if op = 3 then bit k.w2 7 || fld k.w2 63 16 != 0 || !(tailZero k) || (putHub k && 11 < putUnitNo k)
    else k.w2 != 0 || !(tailZero k)) || arAddr (roleAr s w k 2) % 32 != 0)

def xferEng (io : RegIo) (op : Nat) : Eng :=
  { roles := fun _ => [0, 1, 2], check := xferCheck op, zero := fun _ => false, rep := xferRep io op }

/-- A byte run of a PUT arrives at its destination in this device (R249, R289): written, then counted; a partial write
that is dropped is not counted (R227, R427). A run waits for an earlier one of its repeat that names a byte of it (R239). -/
def putArrive (io : RegIo) (k : Nat) (s : State) : State :=
  match s.puts[k]? with
  | none => s
  | some p =>
    if (s.puts.take k).any fun q => q.key == p.key && q.addr < p.addr + p.data.length && p.addr < q.addr + q.data.length then s
    else
      let s := { s with puts := s.puts.take k ++ s.puts.drop (k + 1) }
      match region s.grade p.addr with
      | .dram => dramWrite s (some p.fold) (some (p.unit, p.num, p.weight)) p.addr p.data none p.mask
      | .aperture =>
        let r := hostPost s p.fold (p.addr - aprBase) p.data p.relaxed
        if r.2 then addTally r.1 p.unit p.num p.weight else r.1
      | .csr => addTally (io.store s p.fold 65535 p.addr p.data.length (leNat p.data)) p.unit p.num p.weight
      | _ =>
        let r := extWrite s p.addr (maskBytes s p.addr p.mask p.data)
        if r.2 then addTally r.1 p.unit p.num p.weight else r.1

/-! ## Atomics (R292-R297) -/

/-- The new value of a word (R293). -/
def atomicOp (aop : Nat) (size8 : Bool) (old opd cmp : Nat) : Nat :=
  let n := if size8 then 64 else 32
  let m := 2 ^ n
  let o := old % m
  let x := opd % m
  match aop with
  | 0 => (o + x) % m
  | 1 => o &&& x
  | 2 => o ||| x
  | 3 => o ^^^ x
  | 4 => x
  | 5 => if o = cmp % m then x else o
  | 6 => if sx n o ≤ sx n x then o else x
  | 7 => if sx n x ≤ sx n o then o else x
  | 8 => min o x
  | 9 => max o x
  | _ =>
    let f := if size8 then fp64 else fp32
    (fenc f none false (xAdd (fdec f o) (fdec f x)).1).1

/-- An atomic at its home on a word of this device: the state, the old value or the status. A scratchpad's line is read, and
one write puts the word and every granule that the read corrected (R223, R226). -/
def atomicAt (s : State) (m : Meet) (a : Nat) (size8 : Bool) (aop opd cmp : Nat) : State × Except Nat Nat :=
  let n := if size8 then 8 else 4
  let t := eccTouch s { m with path := 7 } (if clean s then unitsOf a n else atomicUnits s a n)
  match t.2 with
  | some _ => (t.1, .error stUncorr)
  | none =>
    let us := if clean s then unitsOf a n else atomicUnits t.1 a n
    let old := readLe t.1 a n
    let s := us.foldl applyView t.1
    (us.foldl encodeUnit (putBytes (fun _ => true) s a (leBytes n (atomicOp aop size8 old opd cmp))), .ok old)

/-- The range of an atomic's word under its scope (R278, R292): its own scratchpad, its device, or any member. -/
def atomicRng (scope a n : Nat) (ar : Option AReg) : Rng :=
  { addr := a, len := n, ar := ar, write := true, own := scope == 0, remote := scope == 3 }

/-- An atomic by a command: on this device, or at the home of another member (R292). -/
def atomicDo (s : State) (w : Who) (k : Cmd) (a : Nat) (size8 : Bool) (aop : Nat) (opd cmp : Word) : State × Except Nat Nat :=
  let m : Meet := { path := 7, tag := cTag k, core := w.core, ring := w.ring }
  if gDev a = s.devid then atomicAt s m (gLoc a) size8 aop opd.toNat cmp.toNat
  else
    let f := s.free
    let q : Msg := { dst := gDev a, src := s.devid, cls := .req, op := .atomic, fold := w.fold, addr := gLoc a,
                     len := if size8 then 8 else 4, aop := aop, size8 := size8, operand := opd, compare := cmp, tag := f }
    let s := sendFab { s with free := f + 1 } q
    match (Config.peerOutcome f).toNat with
    | 0 => (s, .ok (leNat ((List.range (if size8 then 8 else 4)).map fun i => Config.peerByte f (a + i))))
    | 1 => (s, .error stAccess)
    | 2 => (s, .error stUncorr)
    | _ => (s, .error stLink)

def amoOp (k : Cmd) : Nat := fld k.w2 3 0
def amoSize8 (k : Cmd) : Bool := bit k.w2 4
def amoScope (k : Cmd) : Nat := fld k.w2 6 5
def amoRet (k : Cmd) : Bool := bit k.w2 7

def amoCheck (_ : State) (_ : Who) (k : Cmd) : Option Nat :=
  fmtIf (fld k.w2 63 8 != 0 || 10 < amoOp k || (amoOp k != 5 && k.w4 != 0) || k.w5 != 0 || k.w6 != 0 || k.w7 != 0)

/-- An atomic of a queue's command: on this device at once, or behind the accesses that its channel holds (R111, R113); at
the home of another member (R292). None while it waits. -/
def queueAtomic (s : State) (w : Who) (k : Cmd) (a : Nat) (size8 : Bool) (aop : Nat) (opd cmp : Word) :
    State × Option (Except Nat Nat) :=
  let o : Owner := .queue w.core w.q w.ctx
  let n := if size8 then 8 else 4
  match askOf s o with
  | some q => (match q.old with
    | none => (s, none)
    | some none => (dropAsks s o, some (.error stUncorr))
    | some (some v) => (dropAsks s o, some (.ok v)))
  | none =>
    if gDev a = s.devid ∧ rangeHeld s (gLoc a) n then
      (askPush s o (some w.fold) { addr := locOf (gLoc a), len := n, write := true, kind := .atomic aop size8 opd.toNat cmp.toNat }, none)
    else
      let r := atomicDo s w k a size8 aop opd cmp
      (r.1, some r.2)

/-- The ranges of a repeat of DMA.AMO (R292, R294): its word, and where its old value goes. -/
def amoRngs (s : State) (w : Who) (k : Cmd) : List Rng :=
  let r0 := roleAr s w k 0
  let r1 := roleAr s w k 1
  let n := if amoSize8 k then 8 else 4
  [atomicRng (amoScope k) (arAddr r1) n (some r1)] ++
  (if amoRet k then [{ addr := arAddr r0, len := n, ar := some r0, write := true, aperture := true, csr := true }] else [])

/-- One repeat of DMA.AMO (R294). -/
def amoRep (io : RegIo) (s : State) (w : Who) (k : Cmd) (_ : Run) : RepOut :=
  let r0 := roleAr s w k 0
  let r1 := roleAr s w k 1
  let n := if amoSize8 k then 8 else 4
  match checkRanges s w (amoRngs s w k) with
  | some st => .fault s st 0
  | none =>
    if arAddr r1 % n ≠ 0 then .fault s stFormat 0
    else if !(regOk s w.fold (arAddr r1) n true && (!(amoRet k) || regOk s w.fold (arAddr r0) n true)) then .more s
    else
      match queueAtomic s w k (arAddr r1) (amoSize8 k) (amoOp k) k.w3 k.w4 with
      | (s, none) => .wait s
      | (s, some (.error st)) => .fault s st 0
      | (s, some (.ok old)) =>
        let s := regPay s w.fold (arAddr r1) n true
        if amoRet k then
          let q := copyPiece io (regPay s w.fold (arAddr r0) n true) w k { addr := arAddr r0, data := leBytes n old, weight := n }
          match q.2 with
          | some st => .fault q.1 st 1
          | none => .done q.1 1
        else .done s 1

def amoEng (io : RegIo) : Eng :=
  { roles := fun k => if amoRet k then [0, 1] else [1], check := amoCheck, zero := fun _ => false, rep := amoRep io }

/-! ## PAL.WRITE (R264-R266, R271, R272) -/

def palSlotNo (k : Cmd) : Nat := fld k.w2 2 0
def palWide (k : Cmd) : Bool := bit k.w2 4

/-- Reserved bits, the high bytes of 8-bit entries included (R265). -/
def palBad (k : Cmd) : Bool :=
  bit k.w2 3 || fld k.w2 63 5 != 0 || k.w7 != 0 ||
  (!(palWide k) && ([k.w3, k.w4, k.w5, k.w6].any fun v => (List.range 4).any fun e => fld v (16 * e + 15) (16 * e + 8) != 0))

/-- A PAL.WRITE of the core that waits for its slot (R266, R271): in whichever context it is held. -/
def palPending (s : State) (c : Nat) : Option Cmd :=
  (List.range 8).findSome? fun x => (getCtx s c 2 x).run.bind fun r => if r.held && opcode r.cmd == 0x10 then some r.cmd else none

/-- PAL.WRITE issues and waits for its slot (R266). -/
def execPalWrite (c : Nat) (s : State) : Out State :=
  beginOp 0x10 2 (fun _ t => fmtIf (palBad t.cmd)) (fun t s => markWait (slotHold s t 0) t.w) c s

/-- No block of the slot is in flight: the palette is replaced in one step (R266). An MMA of this model expands its
blocks within one repeat, so between two steps no block is in flight. -/
def execPalWriteApply (c : Nat) (s : State) : Out State :=
  onCore s c <|
  match heldOf s c 2 with
  | some (t, _) =>
    if opcode t.cmd = 0x10 then
      let n := palSlotNo t.cmd
      let s := ((List.range 4).zip [t.cmd.w3, t.cmd.w4, t.cmd.w5, t.cmd.w6]).foldl
        (fun u p => rset u (coreReg c (0xE40 + 32 * n + 8 * p.1)) p.2) s
      .next (slotDone (rset s (coreReg c 0xE10) (setBit (rget s (coreReg c 0xE10)) n (palWide t.cmd))) t none 0)
    else .next s
  | none => .next s

end Sys2Proof.Machine
end

