-- ==== Sys2Proof/Machine/Channel.lean ====
section
/-! DEFINITION. Channel modes (R101-R122): launches entering channels, bouts, gaps, switches, the compute cap, ordinary
accesses and the hold queue, and the arrival of tapped and result data (R118, R137). -/

namespace Sys2Proof.Machine

/-! ## Ordinary accesses -/

/-- A repair (R429): the stored word is decoded and, with one bad symbol, written back. Its own decode is not counted. -/
def repairWord (s : State) (u : Nat) : State :=
  let v := unitView s u
  if v.ue then logUe s { path := 11 } u v.syn
  else if v.ce then rinc (rewriteDram s u) (stkReg (chanStack (locChan u)) 0x130) 1
  else s

/-- A graze visit of a DRAM word or an SRAM granule (R437): a correction is counted and written back. -/
def grazeUnit (s : State) (u : Nat) : State :=
  let s := flushWb s
  let v := unitView s u
  if v.ue then logUe (noteUe s u) { path := 12 } u v.syn
  else if v.ce then
    (if isDramLoc u then rewriteDram (countCe s u) u
     else rewriteSram (correctSram s u) u)
  else s

/-- Who an operation's access is logged for (R454). -/
def askMeet (s : State) (k : Ask) (path : Nat) : Meet :=
  let of_ (c q x : Nat) : Meet :=
    let r := getCtx s c q x
    { path := path, tag := (r.run.map fun t => cTag t.cmd).getD r.lastTag, core := c, ring := r.ring }
  match k.owner with
  | .queue c q x => of_ c q x
  | .posted c q x => of_ c q x
  | _ => { path := path }

/-- All accesses of an operation have been served: what ends with them ends; a requester that acts by a row of its own
finds the operation complete. -/
def askEnd (s : State) (k : Ask) : State :=
  match k.owner with
  | .posted c q x => postServed (dropAsk s k.id) c q x k.dropped
  | .tally unit num w => if k.dropped then dropAsk s k.id else addTally (dropAsk s k.id) unit num w
  | .host _ a len => (onCaps (dropAsk s k.id) k.got fun u => (hostReads u a len, ())).1
  | .hostAtomic n =>
    match k.old with
    | some (some v) => answer (dropAsk s k.id) { data := leBytes n v }
    | _ => answerEp (dropAsk s k.id) n
  | .peer m =>
    if m.op = .atomic then
      match k.old with
      | some (some v) => respond (dropAsk s k.id) m .rspData (leBytes (if m.size8 then 8 else 4) v)
      | _ => respond (dropAsk s k.id) m .rspPoison []
    else (onCaps (dropAsk s k.id) k.got fun u => (peerReads u m, ())).1
  | _ => putAsk s k

/-- One access of an operation has been served, with what it brings; requests that were not sent yet follow (R252). -/
def askServed (s : State) (k : Ask) : State :=
  let r := sendReqs k.todo s { k with left := k.left - 1, todo := [] }
  if askOver r.2 then askEnd r.1 r.2 else putAsk r.1 r.2

/-- An ordinary access is served (R111-R113): a read brings its words to the operation that waits for it, an atomic
acts at its home (R292), an external write may drop a part (R427) and is then not counted. A read whose operation has ended
meanwhile counts and repairs what it corrects. -/
def serveAccess (s : State) (x : Access) : State :=
  let k? := x.ask.bind fun id => s.asks.find? fun k => k.id == id
  match x.kind with
  | .repair => repairWord s (unitOf x.addr)
  | .graze => grazeUnit s (unitOf x.addr)
  | .atomic aop size8 opd cmp =>
    let m : Meet := match k? with | some k => askMeet s k 7 | none => { path := 7 }
    let r := atomicAt s m x.addr size8 aop opd cmp
    match k? with
    | some k => askServed r.1 { k with old := some (match r.2 with | .ok v => some v | .error _ => none) }
    | none => r.1
  | .plain =>
    if x.write then
      let m : Meet := match k? with | some k => askMeet s k 8 | none => { path := 8 }
      let r := extWrite s x.addr (maskBytes s x.addr x.mask x.data) m
      let s := match x.tally with
        | some t => if r.2 then addTally r.1 t.1 t.2 x.weight else r.1
        | none => r.1
      match k? with
      | some k => askServed s { k with dropped := k.dropped || !r.2 }
      | none => s
    else
      match k? with
      | some k => askServed s { k with got := k.got ++ wordCaps s (x.addr, x.len) }
      | none => (eccTouch s { path := 6 } (unitsOf x.addr x.len)).1

/-- Up to n held accesses of a channel served in arrival order; the hub refills the queue (R111, R112). -/
def serveHeld : Nat → State → Nat → State
  | 0, s, _ => s
  | n + 1, s, g =>
    let ch := getChan s g
    match ch.hold with
    | [] => s
    | x :: t =>
      let hold := t ++ ch.spill.take 1
      let s := setChan s g { ch with hold := hold, spill := ch.spill.drop 1 }
      serveHeld n (serveAccess s x) g

/-- Every held access of a channel is served, with the requests that follow when an operation's earlier ones are over
(R104, R252). -/
def serveAll (s : State) (g : Nat) : State :=
  let ch := getChan s g
  serveHeld (ch.hold.length + ch.spill.length + (s.asks.map (·.todo.length)).foldl (· + ·) 0) s g

/-- The hold queue is no longer full: CHN_HOLD_FULL_CYC has counted two NBU cycles per tick (R122). -/
def holdRelease (s : State) (g : Nat) : State :=
  let ch := getChan s g
  match ch.fullAt with
  | none => s
  | some t =>
    if 64 ≤ ch.hold.length then s
    else setChan (rinc s (chnReg g 0x18) (2 * (s.time - t))) g { ch with fullAt := none }

/-- Bytes of an access. -/
def accessLen (a : Access) : Nat :=
  match a.kind with
  | .atomic _ size8 _ _ => if size8 then 8 else 4
  | _ => if a.write then a.data.length else a.len

/-- It is made by a repair or by the graze. -/
def innerAccess (a : Access) : Bool := a.kind == .repair || a.kind == .graze

/-- The access of a row names bytes of one DRAM line of the channel, an atomic an aligned word (R292); the operation and the
launch that an access can belong to are the device's own. -/
def accessOk (s : State) (g : Nat) (a : Access) : Bool :=
  let n := accessLen a
  region s.grade a.addr == .dram && blinBase ≤ a.addr && populated s.grade a.addr n && locChan a.addr == g &&
    a.ask.isNone && a.launch.isNone &&
    (match a.kind with | .atomic _ _ _ _ => a.addr % n == 0 | _ => true)

/-- An access reaches its channel (R111): served in MEM mode and in DEFERRED, kept in states 1, 2 and 4. In a gap it
joins the queue that the gap serves. -/
def channelTakes (s : State) (g : Nat) (a : Access) : State :=
  let m := (getChan s g).mode
  if m = 0 ∨ m = 5 then serveAccess s a else holdPush s g a

/-- ORDINARY_ACCESS (R111, R417): the fold's regulator first, then the channel. -/
def execOrdinaryAccess (g : Nat) (a : Access) (s : State) : Out State :=
  if !(chanOk g && accessOk s g a) then .fault .noSuchUnit
  else
    let n := accessLen a
    match a.fold with
    | none => .next (channelTakes s g a)
    | some f =>
      let st := chanStack g
      let waits := s.folds.held.any fun h => h.1 == f && h.2.1 == 0 && h.2.2.1 == st
      if !(innerAccess a) ∧ (waits || !(regGo s f 0 st)) then
        .next { s with folds := { s.folds with held := s.folds.held ++ [(f, 0, st, a)] } }
      else .next (channelTakes (if innerAccess a then s else regCharge s f 0 st n) g a)

/-! ## The compute cap (R107, R108, R120) -/

def capOf (s : State) (st : Nat) : Nat := min 32 (fld (rget s (stkReg st 0x100)) 5 0)

/-- Channels of a stack that satisfy p. -/
def stackChans (s : State) (st : Nat) (p : Chan → Bool) : List Nat :=
  (rangeFrom (32 * st) 32).filter fun g => p (getChan s g)

def inStates14 (c : Chan) : Bool := 1 ≤ c.mode && c.mode ≤ 4

def computeNow (s : State) (st : Nat) : Nat := (stackChans s st inStates14).length

/-- A channel becomes DEFERRED (R101, R120). -/
def toDeferred (s : State) (g : Nat) : State :=
  ror (setChan s g { getChan s g with mode := 5 }) (stkReg (chanStack g) 0x100) 0x1000000

/-- A channel with a launch waiting and nothing running: SWITCH_IN under the cap, else DEFERRED. -/
def startOrDefer (s : State) (g : Nat) : State :=
  if computeNow s (chanStack g) < capOf s (chanStack g) then setChan s g { getChan s g with mode := 1 } else toDeferred s g

/-- Admission order of a DEFERRED channel (R107): interrupted programs by time of interruption, then by arrival. -/
def deferKey (s : State) (g : Nat) : Nat × Nat :=
  let ch := getChan s g
  if ch.interrupted then (0, ch.order)
  else (1, match ch.launches.head?.bind fun id => tget none s.launches id with | some l => l.arr | none => 0)

/-- CAP_ADMIT (R107): the first DEFERRED channel of the stack begins SWITCH_IN; of channels with one launch arrival the
lowest (log entry 95). -/
def execCapAdmit (st : Nat) (s : State) : Out State :=
  if !(stackOk st) then .fault .noSuchUnit
  else if capOf s st ≤ computeNow s st then .next s
  else
    let le (a b : Nat) : Bool :=
      let x := deferKey s a
      let y := deferKey s b
      x.1 < y.1 || (x.1 == y.1 && x.2 ≤ y.2)
    match sortBy le (stackChans s st fun c => c.mode == 5) with
    | g :: _ => .next (setChan s g { getChan s g with mode := 1, interrupted := false })
    | [] => .next s

/-- CAP_UPDATE (R108, R120): firmware writes CAP; channels over it commit to leave at their bout ends. -/
def execCapUpdate (st cap : Nat) (s : State) : Out State :=
  if !(stackOk st && cap < 64) then .fault .noSuchUnit
  else .next (rfld s (stkReg st 0x100) 5 0 cap)

/-! ## Bouts and gaps -/

/-- The head launch of a channel loads its program and its bank records (R124, R125). -/
def loadHead (s : State) (g id : Nat) (l : Launch) : State :=
  let ch := getChan s g
  let recs := match l.chans.find? (·.chan == g) with | some e => e.recs | none => []
  let none_ (k : Nat) : Bool := (slotBanks (chanMask l g) k).isEmpty
  let s := setChan s g { ch with started := true, prog := l.prog, bcast := l.bcast, u := l.u, pc := [0, 0], loops := [[], []],
                                 ended := [none_ 0, none_ 1], slot := if none_ 0 then 1 else 0, rows := [], fault := none }
  let s := (List.range 32).foldl (fun t b => if l.mask.testBit b then setNbu t (g * 32 + b) (nbuStart (recs.getD b ([], 0))) else t) s
  -- every register of these banks has been written anew
  let s := { s with parNbu := s.parNbu.filter fun gb => !(gb / 32 == g && (chanMask l g).testBit (gb % 32)) }
  setLaunchCh s id g fun c => c

/-- The power slot of the channel's current or next bout (R106, R121): a launch that has not started begins with slot 0
where its mask has a bank of it. -/
def nextSlot (s : State) (g : Nat) : Nat :=
  let ch := getChan s g
  if ch.mode = 2 then ch.slot
  else
    match ch.launches.filter fun id => !(ch.dropping.contains id) with
    | [] => ch.slot
    | id :: _ =>
      if ch.started ∧ ch.launches.head? = some id then ch.slot
      else match tget none s.launches id with
        | some l => if (slotBanks (chanMask l g) 0).isEmpty then 1 else 0
        | none => ch.slot

/-- A bout begins (R109): its overhead is the switch or the tap tail, refresh, in a launch's first bout the loads of
R128, and a move of NBU state to a spare bank (R441). The lengths of switch and refresh are free within their bounds. -/
def beginBout (s : State) (g : Nat) (fromGap : Bool) : State :=
  let ch := getChan s g
  match ch.launches with
  | [] => setChan s g { ch with mode := 4 }
  | id :: _ =>
    match tget none s.launches id with
    | none => setChan s g { ch with mode := 4 }
    | some l =>
      let first := !ch.started
      let tail := cdiv ch.tapBytes tapRate
      let s := if first then loadHead s g id l else s
      let d1 := draw s
      let d2 := draw d1.2
      let refresh := Config.cycles d1.1 % 381
      let cost := (if fromGap then tail else Config.cycles d2.1 % 286) + refresh + ch.move +
        (if first then cdiv l.bcast.length 128 + (if fromGap then 96 else 0) else 0)
      let s := d2.2
      setChan s g { getChan s g with mode := 2, used := cost, tapBytes := 0, move := 0 }

/-- BOUT_START (R103, R109): SWITCH_IN completes. -/
def startFromSwitch (s : State) (g : Nat) : State := beginBout s g false

/-- The conditions of R110. -/
def boutOver (s : State) (g : Nat) : Bool :=
  let ch := getChan s g
  ch.fault.isSome || ch.launches.isEmpty || ch.ended.getD ch.slot true || nbuOverruns s g || (attnAt s g).isSome

/-- The head launch leaves the channel's queue. -/
def popHead (s : State) (g : Nat) : State :=
  let ch := getChan s g
  setChan s g { ch with launches := ch.launches.drop 1, started := false, fault := none, dropping := [] }

/-- A head launch that was cancelled since the last bout leaves (R145). -/
def popDropped (s : State) (g : Nat) : State :=
  let ch := getChan s g
  match ch.launches.head? with
  | some id => if id ∈ ch.dropping then popHead (setLaunchCh s id g fun c => { c with state := 2 }) g else s
  | none => s

/-- BOUT_END (R110): a faulted, dropped or ended program leaves the launch queue, the slots alternate (R106), the
bout is counted and charged (R122, R417), and a channel over the cap commits to leave (R108). -/
def execBoutEnd (g : Nat) (s : State) : Out State :=
  if !(chanOk g) then .fault .noSuchUnit
  else
    let ch := getChan s g
    if ch.mode ≠ 2 ∨ !(boutOver s g) then .next s
    else
      let s := attnBout s g
      let ch := getChan s g
      let s := rinc s (chnReg g 0x10) 1
      let s := match ch.launches with
        | [] => s
        | id :: _ =>
          let fold := match tget none s.launches id with | some l => l.fold | none => 16
          -- used cycles are used * 128 parts of a channel-microsecond in the scale of the bucket
          let s := if 15 < fold ∨ !(bit (regW s fold 1) 9) then s
            else
              let b : Bucket := { level := bktLevel s fold 1 (chanStack g) - ((ch.used * 128 : Nat) : Int), at_ := s.time }
              { s with folds := { s.folds with buckets := tput {} s.folds.buckets (bktKey fold 1 (chanStack g)) b } }
          if ch.fault.isSome then popHead s g
          else if ch.ended.all (· == true) then popHead (setLaunchCh s id g fun c => { c with state := 1 }) g
          else if id ∈ ch.dropping then popHead (setLaunchCh s id g fun c => { c with state := 2 }) g
          else
            let other := 1 - ch.slot
            if ch.ended.getD other true then s else setChan s g { getChan s g with slot := other }
      let st := chanStack g
      let past := capOf s st < (stackChans s st fun c => inStates14 c && !c.committed).length
      let ch2 := getChan s g
      let s := setChan s g { ch2 with mode := 3, committed := past, interrupted := past && ch2.started, order := s.seq + 1 }
      .next { s with seq := s.seq + 1 }

/-- The gap ends (R112): its accesses are served, then the channel goes on or leaves (R101, R108). -/
def gapEnd (s : State) (g : Nat) : State :=
  let s := popDropped (holdRelease (serveHeld 64 s g) g) g
  let ch := getChan s g
  if ch.committed ∨ ch.launches.isEmpty then setChan s g { ch with mode := 4, tapBytes := 0 }
  else beginBout s g true

/-- GAP_END (R112). -/
def execGapEnd (g : Nat) (s : State) : Out State :=
  if !(chanOk g) then .fault .noSuchUnit
  else if (getChan s g).mode ≠ 3 then .next s
  else .next (gapEnd s g)

/-- BOUT_START (R109): a switch ends into its first bout, or a gap into the next. -/
def execBoutStart (g : Nat) (s : State) : Out State :=
  if !(chanOk g) then .fault .noSuchUnit
  else
    let ch := getChan s g
    if ch.mode = 1 then .next (startFromSwitch s g)
    else if ch.mode = 3 ∧ !ch.committed ∧ !ch.launches.isEmpty then .next (gapEnd s g)
    else .next s

/-- CHANNEL_SWITCH_OUT (R104): what was held is served, then MEM or DEFERRED; a launch that waits meanwhile starts
again from MEM. -/
def execChannelSwitchOut (g : Nat) (s : State) : Out State :=
  if !(chanOk g) then .fault .noSuchUnit
  else if (getChan s g).mode ≠ 4 then .next s
  else
    let s := popDropped (holdRelease (serveAll s g) g) g
    let ch := getChan s g
    let s := setChan s g { ch with mode := 0, committed := false, interrupted := ch.committed && ch.started }
    if ch.launches.isEmpty then .next s
    else if ch.committed then .next (toDeferred s g)
    else .next (startOrDefer s g)

/-! ## Tapped and result data (R118, R137) -/

/-- The k-th word on its way up from a channel arrives: written, then counted on the tally of the core whose window
holds its base (R141, R289). None crosses the channel while a gap's accesses wait (R112, R117). -/
def upArrive (isTap : Bool) (g k : Nat) (s : State) : Out State :=
  if !(chanOk g) then .fault .noSuchUnit
  else
    let ch := getChan s g
    match ch.up[k]? with
    | none => .next s
    | some u =>
      if u.isTap ≠ isTap ∨ (ch.mode = 3 ∧ !ch.hold.isEmpty) then .next s
      else
        let s := setChan s g { ch with up := ch.up.take k ++ ch.up.drop (k + 1) }
        -- a triple area in a channel that computes takes the word when the channel serves it
        if rangeHeld s u.addr u.data.length then
          .next (dramWrite s none (some (u.core, u.tally, u.data.length)) u.addr u.data (launch := some u.launch))
        else
        let r := extWrite s u.addr u.data
        .next (if r.2 then addTally r.1 u.core u.tally u.data.length else r.1)

/-- TAP_DATA_ARRIVE (R118). -/
def execTapDataArrive (g k : Nat) (s : State) : Out State := upArrive true g k s

/-- RESULT_DATA_ARRIVE (R137). -/
def execResultDataArrive (g k : Nat) (s : State) : Out State := upArrive false g k s

end Sys2Proof.Machine
end

