-- ==== Sys2Proof/Machine/Launch.lean ====
section
/-! DEFINITION. NBU.LAUNCH (R139-R150): the launch unit of a DMA queue reads and validates a launch, admits it to its
channels, and ends the command. A command that the launch unit has taken stands among the queue's open commands. -/

namespace Sys2Proof.Machine

open Sys2Proof.Config (Grade)

/-! ## Reading a launch (R140-R143) -/

/-- What the launch unit finds: a status, a wait for a channel that computes, or a value, with the state in which the
reads are counted. -/
inductive Got (α : Type) where
  | bad (s : State) (st : Nat)
  | held (s : State)
  | ok (s : State) (v : α)

def Got.bind {α β : Type} (x : Got α) (f : State → α → Got β) : Got β :=
  match x with
  | .bad s st => .bad s st
  | .held s => .held s
  | .ok s v => f s v

def Got.guard (s : State) (bad : Bool) (st : Nat) : Got Unit := if bad then .bad s st else .ok s ()

/-- Bytes of launch input at a local address, in a range that the fold may read (R142); a read in a channel that computes
waits like any ordinary access. -/
def launchRead (s : State) (w : Who) (k : Cmd) (ar : Option AReg) (ga len : Nat) : Got (List Byte) :=
  match checkRanges s w [{ addr := ga, len := len, ar := ar }] with
  | some st => .bad s st
  | none =>
    match askRead s (.unit w.core w.ctx) (some w.fold) [(gLoc ga, len)] with
    | (s, none) => .held s
    | (s, some got) =>
      match onCaps s got fun u =>
          let t := eccTouch u { path := 2, tag := cTag k, core := w.core, ring := w.ring } (unitsOf (gLoc ga) len)
          (t.1, if t.2.isSome then none else some (viewBytes t.1 (gLoc ga) len)) with
      | (s, none) => .bad s stUncorr
      | (s, some bs) => .ok s bs

def wordsAt (bs : List Byte) : List Word := (List.range (bs.length / 8)).map fun i => BitVec.ofNat 64 (leNat ((bs.drop (8 * i)).take 8))

/-- Descriptor fields (R140). -/
structure LDesc where
  prog : Nat
  len : Nat
  bcast : Nat
  bcastLen : Nat
  hdim : Nat
  mask : Nat
  chtab : Nat
  nch : Nat
  u : List (BitVec 32)
  tapBs : Nat
  tapTally : Nat
  tapEn : Bool
  resTally : Nat
  resEn : Bool
  resBs : Nat

def lDescOf (d : List Word) : LDesc :=
  let w (i : Nat) : Word := d.getD i 0
  { prog := fld (w 0) 49 0, len := fld (w 0) 59 50, bcast := fld (w 1) 49 0, bcastLen := fld (w 2) 16 0,
    hdim := fld (w 2) 27 24, mask := fld (w 2) 63 32, chtab := fld (w 3) 49 0, nch := fld (w 3) 58 50 + 1,
    u := [(w 4).setWidth 32, (w 4 >>> 32).setWidth 32, (w 5).setWidth 32, (w 5 >>> 32).setWidth 32],
    tapBs := fld (w 6) 31 0, tapTally := fld (w 6) 37 32, tapEn := bit (w 6) 38,
    resTally := fld (w 6) 45 40, resEn := bit (w 6) 46, resBs := fld (w 6) 63 48 }

/-- Reserved bits, ranges and alignments of the descriptor (R140, R143). -/
def lDescBad (d : List Word) : Bool :=
  let w (i : Nat) : Word := d.getD i 0
  let x := lDescOf d
  fld (w 0) 63 60 != 0 || fld (w 1) 63 50 != 0 || fld (w 2) 23 17 != 0 || fld (w 2) 31 28 != 0 || fld (w 3) 63 59 != 0 ||
  bit (w 6) 39 || bit (w 6) 47 || (d.drop 7).any (· != 0) ||
  x.len == 0 || 512 < x.len || 65536 < x.bcastLen || x.bcastLen % 32 != 0 || 8 < x.hdim ||
  x.prog % 8 != 0 || x.bcast % 32 != 0 || x.chtab % 32 != 0

/-- An entry of the channel table (R141). -/
structure LEntry where
  chan : Nat
  tapBase : Nat
  resBase : Nat
  recs : Nat

def lEntryOf (d : List Word) (c : Nat) : LEntry :=
  let w (i : Nat) : Word := d.getD (4 * c + i) 0
  { chan := fld (w 0) 8 0, tapBase := fld (w 1) 49 0, resBase := fld (w 2) 49 0, recs := fld (w 3) 49 0 }

def lTableBad (d : List Word) (n : Nat) : Bool :=
  let es := (List.range n).map (lEntryOf d)
  (List.range n).any (fun c =>
    let w (i : Nat) : Word := d.getD (4 * c + i) 0
    fld (w 0) 63 9 != 0 || fld (w 1) 63 50 != 0 || fld (w 2) 63 50 != 0 || fld (w 3) 63 50 != 0) ||
  es.any (fun e => 383 < e.chan || e.recs % 64 != 0) || (es.map (·.chan)).eraseDups.length != n

/-- Several reads in order, stopping at the first that fails. -/
def readAll (rd : State → Nat → Got (List Byte)) : List Nat → State → List (List Byte) → Got (List (List Byte))
  | [], s, acc => .ok s acc.reverse
  | a :: t, s, acc =>
    match rd s a with
    | .bad s st => .bad s st
    | .held s => .held s
    | .ok s v => readAll rd t s (v :: acc)

/-- A buffer range in the scratchpad window of its core: ABSENT, BOUND or ACCESS (R119, R143, R409); a base in no window is
no destination the fold may write (log entry 64). -/
def destBad (s : State) (w : Who) (base stride least k : Nat) : Option Nat :=
  let a := base + k * stride
  let n := max stride least
  let c := (base - spdBase) / 0x800000
  if base < spdBase ∨ spdEnd ≤ base then some stAccess
  else if Config.cores s.grade ≤ c then some stAbsent
  else if !(foldCore s w.fold c) then some stAccess
  else if spdWin c + 0x600000 < a + n then some stBound
  else if !(reservedOk s w (foldHasModel s w.fold) c (a - spdWin c) n) then some stAccess
  else none

/-- The buffers a launch may write, entry by entry: its tap and result buffers, as far as they are enabled (R143). -/
def launchDests (s : State) (w : Who) (x : LDesc) (es : List LEntry) : List (Option Nat) :=
  let nb := ((List.range 32).filter (x.mask.testBit ·)).length
  es.flatMap fun e =>
    (if x.tapEn then (List.range nb).map (destBad s w e.tapBase x.tapBs 1024) else []) ++
    (if x.resEn then (List.range nb).map (destBad s w e.resBase (32 * x.resBs) 0) else [])

/-- The addresses of a launch's register records, entry by entry and bank by bank (R141). -/
def launchRecs (x : LDesc) (es : List LEntry) : List Nat :=
  es.flatMap fun e => ((List.range 32).filter (x.mask.testBit ·)).map fun b => e.recs + 64 * b

/-- The program or a register record of a launch is no valid one (R143, R147). -/
def launchBad (x : LDesc) (prog : List Word) (rs : List (List Byte)) : Bool :=
  let lim : Limits := { hdim := x.hdim, bcastLen := x.bcastLen, tapEn := x.tapEn, resEn := x.resEn, resBs := x.resBs,
                        width := max (slotBanks x.mask 0).length (slotBanks x.mask 1).length }
  (rs.any fun r => (r.drop 35).any (· != 0)) || !(progOk lim prog)

/-- The launch that a descriptor, its channel table, register records, program and broadcast block give (R140-R143). -/
def launchMk (w : Who) (k : Cmd) (rep : Nat) (x : LDesc) (es : List LEntry) (rs : List (List Byte)) (prog : List Word) (bb : List Byte) :
    Launch :=
  let nb := ((List.range 32).filter (x.mask.testBit ·)).length
  let recOf (j b : Nat) : List (BitVec 32) × BitVec 24 :=
    let r := rs.getD (j * nb + bankIndex x.mask b) []
    ((List.range 8).map fun p => BitVec.ofNat 32 (leNat ((r.drop (4 * p)).take 4)), BitVec.ofNat 24 (leNat ((r.drop 32).take 3)))
  let chs := ((List.range es.length).zip es).map fun e =>
    ({ chan := e.2.chan, tapBase := e.2.tapBase, resBase := e.2.resBase,
       recs := (List.range 32).map fun b => if x.mask.testBit b then recOf e.1 b else ([], 0) } : LaunchCh)
  { core := w.core, ctx := w.ctx, ring := w.ring, fold := w.fold, tag := cTag k, rep := rep, prog := prog,
    bcast := bb, mask := x.mask, hdim := x.hdim, u := x.u, tapEn := x.tapEn, tapBs := x.tapBs,
    tapTally := x.tapTally, resEn := x.resEn, resBs := 32 * x.resBs, resTally := x.resTally, chans := chs }

/-- The launch of one repeat from its descriptor at an address (R142, R143); none where BANK_MASK is zero. -/
def launchOf (s : State) (w : Who) (k : Cmd) (ar : AReg) (rep : Nat) : Got (Option Launch) :=
  let own (a : Nat) : Nat := gOwn s a
  (launchRead s w k (some ar) (arAddr ar) 128).bind fun s db =>
  let d := wordsAt db
  let x := lDescOf d
  (Got.guard s (lDescBad d) stFormat).bind fun s _ =>
  if x.mask = 0 then .ok s none
  else
    (launchRead s w k none (own x.chtab) (32 * x.nch)).bind fun s tb =>
    let td := wordsAt tb
    (Got.guard s (lTableBad td x.nch) stFormat).bind fun s _ =>
    let es := (List.range x.nch).map (lEntryOf td)
    (readAll (fun s a => launchRead s w k none (own a) 64) (launchRecs x es) s []).bind fun s rs =>
    (launchRead s w k none (own x.prog) (8 * x.len)).bind fun s pb =>
    (launchRead s w k none (own x.bcast) x.bcastLen).bind fun s bb =>
    let prog := wordsAt pb
    (Got.guard s (launchBad x prog rs) stFormat).bind fun s _ =>
    let found := launchDests s w x es
    if found.contains (some stAbsent) then .bad s stAbsent
    else if es.any (fun e => !(foldChan s w.fold e.chan)) || found.contains (some stAccess) then .bad s stAccess
    else if found.contains (some stBound) then .bad s stBound
    else .ok s (some (launchMk w k rep x es rs prog bb))

/-! ## The launch unit's commands -/

/-- Address registers of a launch unit's command: AR0, and AR1 for ATTN.DISPATCH (R139, R313). -/
def luRoles (k : Cmd) : List Nat := if opcode k = 0x31 then [0, 1] else [0]

/-- A register after `n` repeats more, `m` of them last in their outer iteration (R186): the single advances add up, and
WRAP is applied to the sum as to each. -/
def arOn (r : AReg) (n m : Nat) : AReg :=
  if n = 0 then r else { r with off := arWrap r (r.off.toInt + (n : Int) * r.istr.toInt + (m : Int) * r.ostr.toInt) }

/-- The register of role q after n repeats of a command of the launch unit. -/
def arAfter (k : Cmd) (q : Nat) (r : AReg) (n : Nat) : AReg :=
  if (advancing k (luRoles k)).contains (cSel k q) then arOn r n (n / max 1 (cInner k)) else r

/-- Roles of the registers that a command of the transfer unit advances. -/
def xferRoles (k : Cmd) : List Nat :=
  match opcode k with
  | 4 => if amoRet k then [0, 1] else [1]
  | 0x10 => []
  | _ => [0, 1, 2]

/-- Register a of a queue as the command that runs and those passed beside it will leave it (R139, R186). -/
def luAr (s : State) (w : Who) (x : QCtx) (a : Nat) : AReg :=
  let v := getAr s w.core w.q w.ctx a
  let v := match x.run with
    | some r => if (advancing r.cmd (xferRoles r.cmd)).contains a then
        arOn v (total r.cmd - r.pos) (cOuter r.cmd - r.pos / max 1 (cInner r.cmd)) else v
    | none => v
  (x.opens.dropWhile fun o => !o.runs).foldl (fun v o => match o.lu with
    | some l => if opcode o.cmd = 0x31 ∧ cSel o.cmd 1 = a then l.ar1End else if cSel o.cmd 0 = a then l.arEnd else v
    | none => v) v

/-- The command that runs is one of the transfer unit, and a launch-unit command may pass it (R139): what it leaves in the
registers that the command names is known (log entry 22). -/
def mayPass (x : QCtx) (r : Run) (k : Cmd) : Bool :=
  [1, 2, 3, 4, 0x10].contains (opcode r.cmd) &&
    (!((luRoles k).any fun q => (advancing r.cmd (xferRoles r.cmd)).contains (cSel k q)) ||
      opcode r.cmd == 4 || (r.desc != [] && (r.pos != 0 || r.begun ||
        !((List.range (lNdim (layOf r.desc))).any fun d => (lDim (layOf r.desc) d).n == 0)))) && x.bound

/-- A command leaves the input buffer for the launch unit (R178). -/
def luIssue (s : State) (w : Who) (k : Cmd) : State :=
  let x := getCtx s w.core w.q w.ctx
  trace (setCtx s w.core w.q w.ctx { x with buf := x.buf.drop 1, atMark := false, nextIdx := x.nextIdx + 1 }) w k 0 false

/-- The DMA queue hands a command of its launch unit on (R139): the queue's registers stand as the whole command leaves
them, once the transfer that runs beside it has ended. Its record follows that transfer's (R178). -/
def luTake (s : State) (w : Who) (k : Cmd) : State :=
  let x := getCtx s w.core w.q w.ctx
  let r := luAr s w x (cSel k 0)
  let e := arAfter k 0 r (total k)
  let r1 := luAr s w x (cSel k 1)
  let e1 := arAfter k 1 r1 (total k)
  let o : Open := { cmd := k, lu := some { ar := r, arEnd := e, ar1 := r1, ar1End := e1, issued := s.time } }
  let place : List Open := match x.run with
    | some t => if x.opens.any (·.runs) then [] else [{ cmd := t.cmd, runs := true }]
    | none => []
  let s := setCtx s w.core w.q w.ctx { x with opens := x.opens ++ place ++ [o] }
  if x.run.isSome then s else luCommit s w [o]

/-- Position of the launch unit's command that launches now: the first that has repeats left. -/
def luActive (op : Nat) (x : QCtx) : Option (Nat × Cmd × LRun) :=
  let p (o : Open) : Bool := o.fin.isNone && (match o.lu with
    | some l => l.pos < total o.cmd && l.stop.isNone && !l.cancel
    | none => false)
  match x.opens.findIdx? p with
  | none => none
  | some i => (x.opens[i]?).bind fun o => o.lu.bind fun l => if opcode o.cmd = op then some (i, o.cmd, l) else none

/-- What a launch unit that waits for its reads has done: its requests have gone out. -/
def heldOnly (s t : State) : State := { s with asks := t.asks, nextAsk := t.nextAsk, chans := t.chans }

def setLu (s : State) (w : Who) (i : Nat) (f : LRun → LRun) : State :=
  let x := getCtx s w.core w.q w.ctx
  setCtx s w.core w.q w.ctx { x with opens := (x.opens.zip (List.range x.opens.length)).map fun o =>
    if o.2 = i then { o.1 with lu := o.1.lu.map f } else o.1 }

/-- Some launch of a core waits for admission. -/
def luStaged (s : State) (c : Nat) : Bool :=
  s.launches.any fun e => match e.2 with | some l => l.core == c && !l.admitted && l.chans.any (·.state == 0) | none => false

/-- RES_LIMIT of a core in ticks (R213). -/
def resLimit (s : State) (c : Nat) : Nat := Config.tick * fld (rget s (coreReg c 0x888)) 31 0

/-- A new launch of repeat `rep`. -/
def addLaunch (s : State) (l : Launch) : State :=
  { s with launches := tput none s.launches s.nextLaunch (some l), nextLaunch := s.nextLaunch + 1 }

/-- Up to n repeats are launched, each once the one before it has entered its channels. -/
def luRepeats (op : Nat) (w : Who) (mk : State → Who → Cmd → AReg → AReg → Nat → Got (List Launch × Nat)) : Nat → State → State
  | 0, s => s
  | n + 1, s =>
    match luActive op (getCtx s w.core w.q w.ctx) with
    | none => s
    | some (i, k, l) =>
      if luStaged s w.core then s
      else
        let o : Owner := .unit w.core w.ctx
        match mk s w k (arAfter k 0 l.ar l.pos) (arAfter k 1 l.ar1 l.pos) l.pos with
        | .bad t st => setLu (dropAsks t o) w i fun l => { l with stop := some (l.pos, st, 0), waiting := none }
        | .held t =>
          let fresh := (askOf s o).isNone
          setLu (heldOnly s t) w i fun l => if fresh then { l with waiting := some (s.time, resLimit s w.core) } else l
        | .ok t (ls, items) =>
          let u := ls.foldl addLaunch (dropAsks t o)
          -- the writes of an attention dispatch itself go under a number of their own
          let ids := rangeFrom s.nextLaunch (u.nextLaunch - s.nextLaunch)
          let t0 := if ls.isEmpty then none else some (s.time, resLimit s w.core)
          let s := u
          luRepeats op w mk n (setLu s w i fun l => { l with pos := l.pos + 1, ids := l.ids ++ [ids], waiting := t0, items := l.items + items })

/-- A row of the launch unit (R139): the front command of opcode op passes to it, beside a transfer that runs, then repeats
are launched. A halted or suspended context passes none, and what was passed before goes on (R145, R206). -/
def luRow (op : Nat) (check : State → Who → Cmd → Option Nat) (mk : State → Who → Cmd → AReg → AReg → Nat → Got (List Launch × Nat))
    (c n : Nat) (s : State) : Out State :=
  onCore s c <|
  match curCtx s c 2 with
  | none => .next s
  | some x =>
    let q := getCtx s c 2 x
    let w := whoOf s c 2 x
    let go : State → State := luRepeats op w mk n
    match q.buf.head? with
    | none => .next (go s)
    | some m =>
      if !(mayIssue s c 2 x q) ∨ !(opcode m = op ∨ !(opcodeDefined 2 (opcode m))) then .next (go s)
      else
        let s' := luIssue s w m
        match q.run with
        | some r =>
          if mayPass q r m && opcode m == op && !(headerBad 2 m) && (check s w m).isNone && total m != 0 then .next (go (luTake s' w m))
          else .next (go s)
        | none =>
          if headerBad 2 m then .next (faultCmd s' w m (cTag m) stFormat 0 0 0)
          else
            match check s' w m with
            | some st => .next (faultCmd s' w m (cTag m) st 0 0 0)
            | none => if total m = 0 then .next (endCmd s' w m (cTag m) stOk 0 0 0) else .next (go (luTake s' w m))

/-- NBU.LAUNCH (R139-R143): words 2-7 are reserved. -/
def execNbuLaunch (c n : Nat) (s : State) : Out State :=
  luRow 0x30 (fun _ _ k => fmtIf (k.w2 != 0 || !(tailZero k)))
    (fun s w k ar _ rep => (launchOf s w k ar rep).bind fun s l => .ok s (l.toList, 0)) c n s

/-! ## Admission (R102, R142, R415, R417) -/

/-- The launch holds its staging places: it is admitted and has not ended on every channel. -/
def launchLive (l : Launch) : Bool := l.admitted && l.chans.any (·.state == 0)

def liveLaunches (s : State) : List Launch := s.launches.filterMap fun e => match e.2 with
  | some l => if launchLive l then some l else none
  | none => none

def touchesPdk (l : Launch) (p : Nat) : Bool := l.chans.any fun c => stackPdk (chanStack c.chan) == p

/-- LAUNCH_MAX of a fold (R415). -/
def launchMax (s : State) (f : Nat) : Nat := fld (rget s (fldReg f 0x68)) 7 0

/-- The dispatches of a core that hold a place of its launch unit until they complete (R313): the numbers of the launches of
each. -/
def dispatches (s : State) (c : Nat) : List (List Nat) :=
  ((List.range 8).flatMap fun x => (getCtx s c 2 x).opens.filterMap fun o => match o.lu with
    | some l => if opcode o.cmd = 0x31 ∧ o.fin.isNone then some l.ids.flatten else none
    | none => none).filter fun ids => ids.any fun id => match tget none s.launches id with | some l => l.admitted | none => false

/-- A place of the launch unit for launch `id` (R139, R313): one for each launch of an NBU.LAUNCH, one for a whole dispatch. -/
def luPlace (s : State) (id : Nat) (l : Launch) : Bool :=
  let ds := dispatches s l.core
  ds.any (·.contains id) || ((liveLaunches s).filter fun m => m.core == l.core && m.attn.isNone).length + ds.length < 8

/-- Everything launch `id` waits for before it enters its channels. -/
def mayAdmit (s : State) (id : Nat) (l : Launch) : Bool :=
  let live := liveLaunches s
  let sts := (l.chans.map fun c => chanStack c.chan).eraseDups
  !l.admitted && l.chans.any (·.state == 0) &&
  (List.range 4).all (fun p => !(touchesPdk l p) || (live.filter (touchesPdk · p)).length < 16) &&
  (live.filter (·.fold == l.fold)).length < launchMax s l.fold &&
  sts.all (fun st => regGo s l.fold 1 st) &&
  luPlace s id l &&
  l.chans.all fun c => (getChan s c.chan).launches.length < 8

/-- Launch `id` waits for a place (R142), or is DEFERRED on a channel before its start (R107, R199). -/
def launchWaits (s : State) (id : Nat) : Bool :=
  match tget none s.launches id with
  | none => false
  | some l => l.chans.any fun c => c.state == 0 && (!l.admitted ||
      (let ch := getChan s c.chan; ch.mode == 5 && !ch.started && ch.launches.head? == some id))

/-- LAUNCH_ADMIT: the launch enters all its channels together (R102), those of one stack in the order of the channel
table (log entry 95). -/
def execLaunchAdmit (id : Nat) (s : State) : Out State :=
  match tget none s.launches id with
  | none => .next s
  | some l =>
    if !(mayAdmit s id l) then .next s
    else
      let s := { s with seq := s.seq + 1, launches := tput none s.launches id (some { l with admitted := true, arr := s.seq + 1 }) }
      let s := l.chans.foldl (fun t c =>
        let ch := getChan t c.chan
        let t := setChan t c.chan { ch with launches := ch.launches ++ [id] }
        if ch.mode = 0 then startOrDefer t c.chan else t) s
      -- its command no longer waits for a place
      let x := getCtx s l.core 2 l.ctx
      match x.opens.findIdx? fun o => match o.lu with | some r => r.ids.flatten.contains id | none => false with
      | some i =>
        let waits := match (x.opens[i]?).bind (·.lu) with | some r => r.ids.flatten.any (launchWaits s) | none => false
        .next (if waits then s else setLu s (whoOf s l.core 2 l.ctx) i fun r => { r with waiting := none })
      | none => .next s

/-! ## The end of a launch unit's command (R144, R145, R150) -/

/-- A write of launch `id` waits in a hold queue (R111, R283). -/
def launchHeld (s : State) (id : Nat) : Bool := s.chans.any fun e => (e.2.hold ++ e.2.spill).any fun x => x.launch == some id

/-- A launch has ended, with every word it sent up arrived and written, and a fault of it told to the launch unit. -/
def launchEnded (s : State) (id : Nat) : Bool :=
  !(launchHeld s id) &&
  match tget none s.launches id with
  | none => true
  | some l => (l.told || !(l.chans.any (·.state == 3))) && l.chans.all fun c => c.state != 0 && !((getChan s c.chan).up.any (·.launch == id))

/-- Channels on which a launch finished its program. -/
def finishedOn (s : State) (id : Nat) : Nat :=
  match tget none s.launches id with
  | none => 0
  | some l => (l.chans.filter (·.state == 1)).length

def finishedAll (s : State) (id : Nat) : Bool :=
  match tget none s.launches id with
  | none => true
  | some l => l.chans.all (·.state == 1)

/-- Items of a dispatch some launch of which has not finished everywhere (R320, R323). -/
def unfinishedItems (s : State) (ids : List Nat) : Nat :=
  ((ids.filter fun id => !(finishedAll s id)).filterMap fun id => match tget none s.launches id with
    | some l => l.attn.map fun j => (l.rep, j.item)
    | none => none).eraseDups.length

/-- The context of a core's DMA queue whose first unfinished launch-unit command may end now. -/
def luDone (s : State) (c : Nat) : Option (Who × Nat × Cmd × LRun) :=
  (List.range 8).findSome? fun x =>
    let q := getCtx s c 2 x
    match q.opens.findIdx? fun o => o.fin.isNone && o.lu.isSome with
    | none => none
    | some i => (q.opens[i]?).bind fun o => o.lu.bind fun l =>
      if (l.pos = total o.cmd ∨ l.stop.isSome ∨ l.cancel) ∧ l.ids.flatten.all (launchEnded s) then some (whoOf s c 2 x, i, o.cmd, l)
      else none

/-- LAUNCH_COMPLETE: the command's record (R144, R145, R150; R547 in an orderly shutdown), behind those of earlier commands of the queue. -/
def execLaunchComplete (c : Nat) (s : State) : Out State :=
  onCore s c <|
  match luDone s c with
  | none => .next s
  | some (w, i, k, l) =>
    let inner := max 1 (cInner k)
    let count := if opcode k = 0x31 then l.items - unfinishedItems s l.ids.flatten
      else (l.ids.flatten.map (finishedOn s)).foldl (· + ·) 0
    let firstOpen := (l.ids.findIdx? fun ids => !(ids.all (finishedAll s))).getD l.pos
    let end_ : Nat × Nat × Nat × Nat := match l.stop with
      | some (rep, st, cause) => (st, rep, cause, count)
      | none => if l.cancel then (if s.power.sd.isSome then stThermal else stCancelled, firstOpen, 0, count) else (stOk, total k, 0, count)
    let idx : Nat × Nat := if end_.1 = stOk then (0, cOuter k) else (end_.2.1 % inner, end_.2.1 / inner)
    let r : Rec := { tag := cTag k, status := end_.1, engine := 2, context := w.ctx, core := c, inner := idx.1, outer := idx.2,
                     count := count, irq := cIrq k }
    -- the repeats not done leave AR0 where they stood, unless a later command has moved it
    let s := if end_.1 ≠ stOk ∧ getAr s c 2 w.ctx (cSel k 0) = l.arEnd then
        setAr s c 2 w.ctx (cSel k 0) (arAfter k 0 l.ar end_.2.1) else s
    let s := if end_.1 ≠ stOk ∧ opcode k = 0x31 ∧ getAr s c 2 w.ctx (cSel k 1) = l.ar1End then
        setAr s c 2 w.ctx (cSel k 1) (arAfter k 1 l.ar1 end_.2.1) else s
    let s := l.ids.flatten.foldl (fun t id => { t with launches := tput none t.launches id none }) s
    let x := getCtx s c 2 w.ctx
    -- beside a transfer that still runs, the registers are set when it ends
    let kept : Option LRun := if x.opens.any (·.runs) then
        some { ar := l.ar, ar1 := l.ar1,
               arEnd := if end_.1 = stOk then l.arEnd else arAfter k 0 l.ar end_.2.1,
               ar1End := if end_.1 = stOk then l.ar1End else arAfter k 1 l.ar1 end_.2.1 }
      else none
    let s := setCtx s c 2 w.ctx { x with opens := (x.opens.zip (List.range x.opens.length)).map fun o =>
      if o.2 = i then { o.1 with fin := some r, lu := kept } else o.1 }
    let s := if 0x20 ≤ end_.1 then qfault s w (cTag k) end_.1 0 0 0 end_.2.2.1 else s
    let s := if l.stop.isSome then
        let x := getCtx s c 2 w.ctx
        setCtx s c 2 w.ctx { x with halted := true, staged := [] }
      else s
    let s := drainOpens w (x.opens.length + 1) s
    if l.stop.isSome then .next (finishStop (faultRing (cancelCtx s c 2 w.ctx) w [2]) w.ring) else .next (finishStop s w.ring)

/-- LAUNCH_FAULT_PROPAGATE (R150, R323): a channel's fault reaches the launch unit; the other channels drop the launch, and
the launches of later repeats, or of the same dispatch, are dropped. The lowest faulting repeat, and in it the first told, names the status. -/
def execLaunchFaultPropagate (id : Nat) (s : State) : Out State :=
  match tget none s.launches id with
  | none => .next s
  | some l =>
    let faults := sortBy (fun (a b : LaunchCh) => a.chan ≤ b.chan) (l.chans.filter (·.state == 3))
    match l.told, faults with
    | true, _ => .next s
    | _, [] => .next s
    | false, f :: _ =>
      let s := { s with launches := tput none s.launches id (some { l with told := true }) }
      let s := dropLaunch s id
      let x := getCtx s l.core 2 l.ctx
      match x.opens.findIdx? fun o => match o.lu with | some r => r.ids.flatten.contains id | none => false with
      | none => .next s
      | some i =>
        let w := whoOf s l.core 2 l.ctx
        let lower (q : LRun) : Bool := match q.stop with | some (r, _, _) => l.rep < r | none => true
        let s := setLu s w i fun q => if lower q then { q with stop := some (l.rep, f.status, 0) } else q
        let later := match (x.opens[i]?).bind (·.lu) with | some q => (q.ids.drop (if l.attn.isSome then l.rep else l.rep + 1)).flatten | none => []
        .next (later.foldl dropLaunch s)

/-! ## Resource waits (R199, R213) -/

/-- A wait is over its limit. -/
def waitOver (s : State) (x : Option (Nat × Nat)) : Bool :=
  match x with | some (t, lim) => lim != 0 && t + lim ≤ s.time | none => false

/-- The first repeat of a launch-unit command that waits for a resource: one with a launch that waits, or the next, which
waits for its reads. -/
def luWaits (s : State) (w : Who) (l : LRun) : Option Nat :=
  (l.ids.findIdx? fun ids => ids.any (launchWaits s)).or
    (if (askOf s (.unit w.core w.ctx)).isSome then some l.pos else none)

/-- The launch unit's command that waits ends at the repeat that waits (R199): the launches of that repeat and of later ones
are dropped. -/
def luTimeout (s : State) (w : Who) (i rep : Nat) : State :=
  match ((getCtx s w.core w.q w.ctx).opens[i]?).bind (·.lu) with
  | none => s
  | some l =>
    let s := (l.ids.drop rep).flatten.foldl dropLaunch (dropAsks s (.unit w.core w.ctx))
    setLu s w i fun l => { l with stop := some (rep, stTimeout, 5), waiting := none }

/-- The position of a context's launch-unit command whose wait is over its limit, and the repeat that waits. -/
def luOver (s : State) (w : Who) : Option (Nat × Nat) :=
  let os := (getCtx s w.core w.q w.ctx).opens
  (List.range os.length).findSome? fun i => (os[i]?).bind fun o => o.lu.bind fun l =>
    if o.fin.isNone && waitOver s l.waiting && l.stop.isNone && !l.cancel then (luWaits s w l).map fun r => (i, r) else none

/-- The command of a context that is over its limit ends (R199): its transfer, its scalar command, its PAL.WRITE, or one of
its launch unit. None where nothing is. -/
def ctxTimeout (s : State) (c q x : Nat) : Option State :=
  let k := getCtx s c q x
  let w := whoOf s c q x
  let why : Why := { cause := 5 }
  match k.run.bind fun r => if waitOver s r.waiting then some r else none with
  | some r =>
    if r.held then some (slotFault s { w := w, cmd := heldCmd r, blk := r.sub.isSome } stTimeout (r.count + r.moved) why)
    else if q = 3 then (slotAt s c q x).map fun t => slotFault s t stTimeout (r.count + r.moved) why
    else
      let inner := max 1 (cInner r.cmd)
      some (faultCmd s w r.cmd (cTag r.cmd) stTimeout (r.pos % inner) (r.pos / inner) (r.count + r.moved) why)
  | none => if q = 2 then (luOver s w).map fun p => luTimeout s w p.1 p.2 else none

/-- RESOURCE_WAIT_TIMEOUT (R199): the command of a queue that has waited too long faults with CAUSE 5, in whichever of its
contexts it stands (R408). -/
def execResourceWaitTimeout (c q : Nat) (s : State) : Out State :=
  onCore s c <|
  if 4 ≤ q then .fault .noSuchUnit
  else .next (((List.range 8).findSome? (ctxTimeout s c q)).getD s)

end Sys2Proof.Machine
end

