-- ==== Sys2Proof/Machine/Matrix.lean ====
section
/-! DEFINITION. The matrix arrays (chapter 03, with the rounding of R46-R50, the expander of R267-R269):
MMA, MMA.SLICE, ACC.INIT, ACC.DRAIN. -/

namespace Sys2Proof.Machine

/-! ## The accumulator file (R65, R67) -/

def accKey (c e : Nat) : Nat := c * 64 + e
def accGet (s : State) (c e i j : Nat) : BitVec 48 := tget 0 s.acc ((accKey c e * 128 + i) * 128 + j)
def accTyOf (s : State) (c e : Nat) : AccTy := tget .unset s.accTy (accKey c e)
def setTy (s : State) (c e : Nat) (t : AccTy) : State := { s with accTy := tput .unset s.accTy (accKey c e) t }

/-- All 16,384 cells of an entry, row after row, replaced. -/
def accPut (s : State) (c e : Nat) (vs : List (BitVec 48)) : State :=
  let b := accKey c e * 16384
  let mid := ((List.range 16384).zip vs).filterMap fun p => if p.2 = 0 then none else some (b + p.1, p.2)
  { s with acc := s.acc.filter (fun x => x.1 < b) ++ mid ++ s.acc.filter (fun x => b + 16384 ≤ x.1) }

/-- An entry set to zero with a type. -/
def accZero (s : State) (c e : Nat) (t : AccTy) : State := setTy (accPut s c e []) c e t

/-- The cells of an entry, row after row. -/
def accAll (s : State) (c e : Nat) : List (BitVec 48) :=
  (List.range 16384).map fun n => accGet s c e (n / 128) (n % 128)

/-- The entry set of a context (R66): urgent entries for class 0, general entries for every other. -/
def inSet (x e : Nat) : Bool := if x = 6 then 60 ≤ e && e < 64 else e < 60

/-- Saturating addition of an n-bit two's complement accumulator (R90): the result and whether it saturated. -/
def satAddI (n : Nat) (a b : Int) : Int × Bool :=
  let hi : Int := (2 ^ (n - 1) : Nat) - 1
  let lo : Int := -((2 ^ (n - 1) : Nat) : Int)
  if hi < a + b then (hi, true) else if a + b < lo then (lo, true) else (a + b, false)

/-! ## Pairings (R72, R73) -/

/-- How a pairing accumulates (R50): two products a cycle, one product, one product per pair of cells, MX blocks,
integers. -/
inductive Pair where
  | two | one | half | block | int
  deriving DecidableEq, Repr

def isLow (f : Nat) : Bool := f == 2 || f == 3 || f == 4
def isF8 (f : Nat) : Bool := f == 0 || f == 1
def isHalf (f : Nat) : Bool := f == 8 || f == 9

/-- The pairing of two operand formats with their MX bits; none where the array does not accept it. With it: k-steps
per cycle as the pair (two, half), and the KLEN limit. -/
def pairing (a b : Nat) (amx bmx : Bool) : Option Pair :=
  let fl := isLow a || isF8 a
  let fb := isLow b || isF8 b
  if fl && fb then
    (if amx || bmx then some .block else if isLow a && isLow b then some .two else some .one)
  else if a == 5 && b == 5 && amx && bmx then some .block
  else if (a == 5 || a == 6) && (b == 5 || b == 6) && !amx && !bmx then some .int
  else if isHalf a && isHalf b && !amx && !bmx then some .half
  else none

/-- The accumulator type of a pairing (R72). -/
def pairTy (p : Pair) : AccTy := if p = .int then .int32 else .fp32

/-- k-steps per two cycles: 4, 2 or 1 (R72); an MX pairing keeps the rate of its element formats. -/
def pairRate (a b : Nat) : Nat := if isLow a && isLow b then 4 else if isHalf a then 1 else 2

/-- The KLEN limit of R72. -/
def pairLimit (p : Pair) : Nat := if p = .half then 2048 else 4096

/-- Array cycles of a repeat of KLEN k-steps (R88). -/
def repCycles (a b klen : Nat) : Nat := cdiv (2 * klen) (pairRate a b)

/-! ## MMA (R78, R79) -/

def mmaA (k : Cmd) : Nat := fld k.w2 3 0
def mmaB (k : Cmd) : Nat := fld k.w2 7 4
def mmaAmx (k : Cmd) : Bool := bit k.w2 8
def mmaBmx (k : Cmd) : Bool := bit k.w2 9
def mmaAcmp (k : Cmd) : Bool := bit k.w2 10
def mmaBcmp (k : Cmd) : Bool := bit k.w2 11
def mmaInit (k : Cmd) : Bool := bit k.w2 12
def mmaEntry (k : Cmd) : Nat := fld k.w2 21 16
def mmaKlen (k : Cmd) : Nat := fld k.w2 47 32

/-- Bytes per k-vector (R71). -/
def kvec (f : Nat) : Nat := 16 * eltBits f

/-- The checks of MMA at issue (R9, R66, R72, R73, R77, R79, R267). -/
def mmaCheck (s : State) (w : Who) (k : Cmd) : Option Nat :=
  let a := mmaA k
  let b := mmaB k
  if fld k.w2 15 13 != 0 || fld k.w2 31 22 != 0 || fld k.w2 63 48 != 0 || fld k.w5 31 23 != 0 || fld k.w5 63 55 != 0
      || k.w6 != 0 || k.w7 != 0 then some stFormat
  else
    match pairing a b (mmaAmx k) (mmaBmx k) with
    | none => some stFormat
    | some p =>
      if pairLimit p < mmaKlen k then some stFormat
      else if !(inSet w.ctx (mmaEntry k)) then some stAccess
      else if !(mmaInit k) && accTyOf s w.core (mmaEntry k) != pairTy p then some stFormat
      else if mmaAcmp k && (fld k.w3 31 0 != kvec a || mmaKlen k * kvec a % 512 != 0) then some stFormat
      else if mmaBcmp k && (fld k.w3 63 32 != kvec b || mmaKlen k * kvec b % 512 != 0) then some stFormat
      else none

def mmaRoles (k : Cmd) : List Nat := [0, 1] ++ (if mmaAmx k then [2] else []) ++ (if mmaBmx k then [3] else [])

/-- One operand of MMA: role of its values, its format, k-step stride, MX bit, role and stride of its scales,
compression bit, map offset. -/
structure Opnd where
  role : Nat
  fmt : Nat
  stride : Nat
  mx : Bool
  srole : Nat
  sstride : Nat
  cmp : Bool
  map : Nat

def mmaOpA (k : Cmd) : Opnd := ⟨0, mmaA k, fld k.w3 31 0, mmaAmx k, 2, fld k.w4 31 0, mmaAcmp k, fld k.w5 22 0⟩
def mmaOpB (k : Cmd) : Opnd := ⟨1, mmaB k, fld k.w3 63 32, mmaBmx k, 3, fld k.w4 63 32, mmaBcmp k, fld k.w5 54 32⟩

/-- The ranges of an operand in a repeat (R70): its values and its scale vectors. -/
def opndRngs (s : State) (w : Who) (k : Cmd) (klen : Nat) (o : Opnd) : List Rng :=
  let r := roleAr s w k o.role
  let q := roleAr s w k o.srole
  { addr := arAddr r, len := (klen - 1) * o.stride + kvec o.fmt, ar := some r, own := true } ::
    (if o.mx then [{ addr := arAddr q, len := (cdiv klen 32 - 1) * o.sstride + 128, ar := some q, own := true }] else [])

/-- Index of the first block of a compressed operand in its map, and the number of blocks (R257). -/
def opndBlocks (s : State) (w : Who) (k : Cmd) (klen : Nat) (o : Opnd) : Nat × Nat :=
  let r := roleAr s w k o.role
  (((arAddr r + 2 ^ 56 - r.origin.toNat) % 2 ^ 56) / 512, klen * kvec o.fmt / 512)

/-- A compressed operand's map bytes of a repeat lie beyond 0x60_0000 or in a reserved area (R267 under check 3, R409). -/
def opndMapBad (s : State) (w : Who) (k : Cmd) (klen : Nat) (o : Opnd) : Bool :=
  let b := opndBlocks s w k klen o
  let last := (b.1 + b.2 - 1) / 4
  o.cmp && (0x600000 ≤ o.map + last ||
    rngAccess s w { addr := gOwn s (spdWin w.core + o.map + b.1 / 4), len := last - b.1 / 4 + 1, own := true })

/-- Its ORIGIN or OFF is no multiple of 512 (R267 under check 4). -/
def opndAlignBad (s : State) (w : Who) (k : Cmd) (o : Opnd) : Bool :=
  let r := roleAr s w k o.role
  o.cmp && (r.origin.toNat % 512 != 0 || r.off.toNat % 512 != 0)

/-- The conditions of R267 on both operands at a repeat, in the order of R188. -/
def opndCheck (s : State) (w : Who) (k : Cmd) (klen : Nat) (oa ob : Opnd) : Option Nat :=
  if opndMapBad s w k klen oa || opndMapBad s w k klen ob then some stAccess
  else if opndAlignBad s w k oa || opndAlignBad s w k ob then some stFormat
  else none

/-- A block of a compressed operand that no array may expand (R267). -/
def badPalette (s : State) (c fmt : Nat) (place : List Byte) : Bool :=
  eltBits fmt < 8 || (if palW place = 0 then eltBits fmt != 8 else eltBits fmt != 16) ||
    palEw s c (palSlot place) != palW place

/-- What an operand port delivers in a repeat: the raw elements of each k-vector, the kinds and places of its blocks, and
what it reads piece by piece: the first k-step that needs it, its stored units, and whether it is a PALETTE block that the
port may not expand. -/
structure Port where
  vecs : List (List Nat)
  blocks : List (Nat × List Byte)
  reads : List (Nat × List Nat × Bool)

def readPort (s : State) (w : Who) (k : Cmd) (klen : Nat) (o : Opnd) : Port :=
  let a := gLoc (arAddr (roleAr s w k o.role))
  let n := kvec o.fmt
  if o.cmp then
    let b := opndBlocks s w k klen o
    let m := spdWin w.core + o.map
    let bl := (List.range b.2).map fun i => (mapCode s m (b.1 + i), viewBytes s (a + 512 * i) 512)
    let bytes := bl.flatMap fun p =>
      match p.1 with
      | 0 => p.2
      | 1 => List.replicate 512 0
      | 2 => unpackPacked p.2
      | _ => unpackPalette s w.core p.2
    { vecs := (List.range klen).map fun i => unpack (eltBits o.fmt) 128 ((bytes.drop (i * n)).take n)
      blocks := bl
      reads := ((List.range b.2).zip bl).map fun p =>
        let bad := p.2.1 == 3 && badPalette s w.core o.fmt p.2.2
        (p.1 * 512 / n,
          unitsOf (m + (b.1 + p.1) / 4) 1 ++ unitsOf (a + 512 * p.1) (if bad then 8 else storedLen p.2.1 p.2.2), bad) }
  else
    { vecs := (List.range klen).map fun i => unpack (eltBits o.fmt) 128 (viewBytes s (a + i * o.stride) n)
      blocks := []
      reads := (List.range klen).map fun i => (i, unitsOf (a + i * o.stride) n, false) }

/-- The scale vectors of an operand in a repeat, and their reads; none means scale 2^0 everywhere (R73). -/
def readScales (s : State) (w : Who) (k : Cmd) (klen : Nat) (o : Opnd) :
    Option (List (List Byte)) × List (Nat × List Nat × Bool) :=
  if o.mx then
    let a := gLoc (arAddr (roleAr s w k o.srole))
    (some ((List.range (cdiv klen 32)).map fun b => viewBytes s (a + b * o.sstride) 128),
      (List.range (cdiv klen 32)).map fun b => (32 * b, unitsOf (a + b * o.sstride) 128, false))
  else (none, [])

/-- The reads of a repeat in need order, A before B, values before scales (R267, R269; log entry 96), up to the first PALETTE
block that may not be expanded: their stored units, and whether there is such a block. -/
def needUnits (ls : List (List (Nat × List Nat × Bool))) : List Nat × Bool :=
  let all := ((List.range ls.length).zip ls).flatMap fun p => p.2.map fun e => (e.1, p.1, e.2)
  let evs := sortBy (fun x y => x.1 < y.1 || (x.1 == y.1 && x.2.1 ≤ y.2.1)) all
  let cut := match evs.findIdx? (·.2.2.2) with | some i => i + 1 | none => evs.length
  ((evs.take cut).flatMap (·.2.2.1), evs.any (·.2.2.2))

/-- The scale of row or column i in block b; 2^0 where the operand carries none. -/
def scaleAt (sc : Option (List (List Byte))) (b i : Nat) : XVal :=
  match sc with
  | none => .fin false 1 0
  | some l => e8m0 (((l.getD b []).getD i 0).toNat)

/-- An FP32 accumulator plus an exact value, one rounding (R50). -/
def accAdd (acc : Nat × NumFlags) (v : XVal × NumFlags) : Nat × NumFlags :=
  let a := fdec fp32 acc.1
  let t := xAdd a v.1
  let r := fenc fp32 none false t.1
  (r.1, acc.2 ||| opFlags [a] (v.2 ||| t.2 ||| r.2))

/-- The exact dot product of a run of pairs. -/
def dotX (val : Nat → Nat → XVal) (fa fb : Nat) (ps : List (Nat × Nat)) : XVal × NumFlags :=
  let ms := ps.map fun p => xMul (val fa p.1) (val fb p.2)
  let t := xSum (ms.map (·.1))
  (t.1, opFlags (ps.flatMap fun p => [val fa p.1, val fb p.2]) ((ms.foldl (fun f m => f ||| m.2) 0) ||| t.2))

/-- A list cut into pieces of n. -/
def chunks {α : Type} (n : Nat) : Nat → List α → List (List α)
  | 0, _ => []
  | m + 1, l => if l.isEmpty then [] else l.take n :: chunks n m (l.drop n)

/-- One cell over one repeat (R50, R73): its value and flags after the k-steps whose pairs are ps. -/
def cellRun (p : Pair) (fa fb : Nat) (sa sb : Option (List (List Byte))) (i j : Nat) (acc : Nat)
    (ps : List (Nat × Nat)) : Nat × NumFlags :=
  match p with
  | .block =>
    ((chunks 32 (ps.length) ps).zip (List.range ps.length)).foldl (fun a bp =>
      let d := dotX mxVal fa fb bp.1
      let x := scaleAt sa bp.2 i
      let y := scaleAt sb bp.2 j
      let m := xMul d.1 x
      let n := xMul m.1 y
      let nf := if xIsNaN x || xIsNaN y then nfMxNan else 0
      accAdd a (n.1, if xIsNaN x || xIsNaN y then nf else d.2 ||| m.2 ||| n.2)) (acc, 0)
  | .two => (chunks 2 ps.length ps).foldl (fun a c => accAdd a (dotX eltVal fa fb c)) (acc, 0)
  | _ => ps.foldl (fun a q => accAdd a (xMul (eltVal fa q.1) (eltVal fb q.2))) (acc, 0)

/-- One integer cell over one repeat (R50, R90): its value, and the first k-step whose addition saturated. -/
def cellInt (fa fb : Nat) (n : Nat) (acc : Int) (ps : List (Nat × Nat)) : Int × Option Nat :=
  ((List.range ps.length).zip ps).foldl (fun a q =>
    let r := satAddI n a.1 (intVal fa q.2.1 * intVal fb q.2.2)
    (r.1, a.2.or (if r.2 then some q.1 else none))) (acc, none)

/-- The pairs that meet in cell (i, j) in a repeat, in ascending k. -/
def cellPairs (va vb : List (List Nat)) (i j : Nat) : List (Nat × Nat) :=
  (va.zip vb).map fun p => (p.1.getD i 0, p.2.getD j 0)

/-- One step of the recursion of R269 for a block of a port: its need, and its x. -/
def expStep (e : ExpSt) (isA : Bool) (need x : Nat) : ExpSt :=
  let hist := if isA then e.ra else e.rb
  let push (r : Int) (e : ExpSt) : ExpSt :=
    if isA then { e with ra := (r :: e.ra).take 4 } else { e with rb := (r :: e.rb).take 4 }
  if x = 0 then push ((need : Int) + e.s) e
  else
    let rb := (hist.getD 3 (-24))
    let t := max e.t rb + x
    let s := if (need : Int) + e.s < t then t - need else e.s
    push ((need : Int) + s) { e with t := t, s := s }

/-- The blocks of a repeat in need order, A before B at equal need (R269). -/
def expRun (e : ExpSt) (base ra : Nat) (fa fb : Nat) (pa pb : Port) : ExpSt :=
  let need (kv i : Nat) : Nat := base + 2 * (i * 512 / kv) / ra
  let la := ((List.range pa.blocks.length).zip pa.blocks).map fun p => (need (kvec fa) p.1, true, expCycles p.2.1 p.2.2)
  let lb := ((List.range pb.blocks.length).zip pb.blocks).map fun p => (need (kvec fb) p.1, false, expCycles p.2.1 p.2.2)
  (sortBy (fun x y => x.1 < y.1 || (x.1 == y.1 && (x.2.1 || !y.2.1))) (la ++ lb)).foldl
    (fun e b => expStep e b.2.1 b.1 b.2.2) e

/-- Entries zero and UNSET, as an uncorrectable operand or an unusable palette leaves them (R91, R267). -/
def accKill (s : State) (c : Nat) (es : List Nat) : State := es.foldl (fun t e => accZero t c e .unset) s

/-- Who meets an uncorrectable array operand (R431, R454). -/
def meetOf (w : Who) (k : Cmd) (path : Nat) : Meet := { path := path, tag := cTag k, core := w.core, ring := w.ring }

/-- A register parity error met by a command (R434, R444): logged with path REGISTER and counted on the core. -/
def parityHit (s : State) (w : Who) (k : Cmd) : State :=
  let c := getCore s w.core
  let s := logUe (setCore s w.core { c with parErrs := c.parErrs + 1 }) (meetOf w k 14) 0 0
  if 4 ≤ c.parErrs + 1 then coreFail s w.core else s

/-- Where the recursion of R269 begins for a command: at -24, or where it follows another without an idle cycle, which is
free, behind the previous command's expansion. -/
def expStart (s : State) (c : Nat) : ExpSt :=
  { t := if Config.freeNat s.free % 2 = 0 then -24 else max (-24) (getCore s c).expLast }

/-- The cycles of a repeat that ends in a fault after some k-steps have issued: a part of them, and of its stall, that is free
(R94, R270; log entry 96). -/
def partCycles (s : State) (c cyc stall : Nat) : State :=
  let d := draw s
  let e := draw d.2
  rinc (rinc e.2 (coreReg c 0xC48) (Config.cycles d.1 % (cyc + 1))) (coreReg c 0xE00) (Config.cycles e.1 % (stall + 1))

/-- The types that a command's entries had when it issued (R95). -/
def tysOf (s : State) (c : Nat) (es : List Nat) : List (Nat × AccTy) := es.map fun e => (accKey c e, accTyOf s c e)

/-- A PAL.WRITE of the core waits for a slot that a block of the repeat names: the expander begins no such block (R266). -/
def palBlocks (s : State) (c : Nat) (ps : List Port) : Bool :=
  match palPending s c with
  | none => false
  | some m => ps.any fun p => p.blocks.any fun b => b.1 == 3 && palSlot b.2 == palSlotNo m

/-- One repeat of MMA (R79). A range of a core that does not exist is found, as R188 places it, before the repeat that would
touch it (log entry 99). -/
def mmaRep (s : State) (w : Who) (k : Cmd) (r : Run) : RepOut :=
  let c := w.core
  let e := mmaEntry k
  let kl := mmaKlen k
  match pairing (mmaA k) (mmaB k) (mmaAmx k) (mmaBmx k) with
  | none => .fault s stFormat 0
  | some p =>
    let oa := mmaOpA k
    let ob := mmaOpB k
    let fresh := r.pos = 0 && mmaInit k
    if !fresh && accTyOf s c e != pairTy p then .fault s stFormat 0
    else
      match checkRanges s w (opndRngs s w k kl oa ++ opndRngs s w k kl ob) with
      | some st => .fault s st 0
      | none =>
        match opndCheck s w k kl oa ob with
        | some st => .fault s st 0
        | none =>
        let pa := readPort s w k kl oa
        let pb := readPort s w k kl ob
        if palBlocks s c [pa, pb] then .more s
        else
          let tys := if fresh then tysOf s c [e] else r.tys
          let s := if fresh then accZero s c e (pairTy p) else s
          if s.parAcc.contains (accKey c e) then
            .fault (accKill (parityHit { s with parAcc := s.parAcc.filter (· ≠ accKey c e) } w k) c [e]) stUncorr 0
          else
            let sa := readScales s w k kl oa
            let sb := readScales s w k kl ob
            let cyc := repCycles (mmaA k) (mmaB k) kl
            let x0 := if r.pos = 0 then expStart s c else r.exp
            let x1 := expRun x0 (r.pos * cyc) (pairRate (mmaA k) (mmaB k)) (mmaA k) (mmaB k) pa pb
            let nu := needUnits [pa.reads, pb.reads, sa.2, sb.2]
            let t := eccTouch { s with free := s.free + 1 } (meetOf w k 4) nu.1
            match t.2 with
            | some _ => .fault (accKill (partCycles t.1 c cyc (x1.s - x0.s).toNat) c [e]) stUncorr 0
            | none =>
              let s := t.1
              if nu.2 then .fault (accKill (partCycles s c cyc (x1.s - x0.s).toNat) c [e]) stFormat 0
              else
                let s := rinc s (coreReg c 0xC48) cyc
                let s := rinc s (coreReg c 0xE00) (x1.s - x0.s).toNat
                let s := setCore s c { getCore s c with expLast := x1.t - ((r.pos + 1) * cyc : Nat) }
                let s := setRun s w { r with exp := x1, tys := tys }
                let cells := (List.range 16384).map fun n => (n / 128, n % 128, accGet s c e (n / 128) (n % 128))
                match p with
                | .int =>
                  let vs := cells.map fun q =>
                    cellInt (mmaA k) (mmaB k) 32 (sx 32 q.2.2.toNat) (cellPairs pa.vecs pb.vecs q.1 q.2.1)
                  let s := accPut s c e (vs.map fun v => BitVec.ofNat 48 (wrapN 32 v.1))
                  .done (if vs.any (·.2.isSome) then accSat s c e else s) kl
                | _ =>
                  let vs := cells.map fun q =>
                    cellRun p (mmaA k) (mmaB k) sa.1 sb.1 q.1 q.2.1 (q.2.2.toNat % 2 ^ 32) (cellPairs pa.vecs pb.vecs q.1 q.2.1)
                  .done (raiseNum (accPut s c e (vs.map fun v => BitVec.ofNat 48 v.1)) c (orFlags vs)) kl

def mmaEng : Eng :=
  { roles := mmaRoles, check := mmaCheck, zero := fun k => mmaKlen k == 0, rep := mmaRep,
    cycles := fun k => repCycles (mmaA k) (mmaB k) (mmaKlen k) }

/-- MMA (R79). -/
def execMma (c n : Nat) (s : State) : Out State := engineRow mmaEng 0 0x01 (fun _ => true) c n s

/-! ## MMA.SLICE (R80-R82) -/

def slS (k : Cmd) : Nat := fld k.w2 3 0

/-- P(s), the number of pairs (R60). -/
def pairCount (n : Nat) : Nat := n * (n + 1) / 2

/-- p(t, u) (R81). -/
def pairIx (n t u : Nat) : Nat := (t - 1) * (n + 1) - t * (t - 1) / 2 + (u - 1)

/-- The pairs (t, u) with t + u ≤ s + 1, in ascending p. -/
def slicePairs (n : Nat) : List (Nat × Nat) :=
  (List.range n).flatMap fun t => (List.range (n - t)).map fun u => (t + 1, u + 1)

/-- The entries of the command. -/
def slEntries (k : Cmd) : List Nat := rangeFrom (mmaEntry k) (pairCount (slS k))

def slCheck (s : State) (w : Who) (k : Cmd) : Option Nat :=
  if fld k.w2 11 4 != 0 || fld k.w2 15 13 != 0 || fld k.w2 31 22 != 0 || fld k.w2 63 48 != 0 || k.w5 != 0 || k.w6 != 0
      || k.w7 != 0 then some stFormat
  else if slS k < 4 ∨ 9 < slS k then some stFormat
  else if 4096 / pairCount (slS k) < mmaKlen k then some stFormat
  else if !((slEntries k).all (inSet w.ctx)) then some stAccess
  else if !(mmaInit k) && !((slEntries k).all fun e => accTyOf s w.core e == .int48) then some stFormat
  else none

/-- The slice planes of an operand: s slices of KLEN k-vectors of 128 INT8 values. -/
def slRead (s : State) (a n kl kst tst : Nat) : List (List (List Nat)) :=
  (List.range n).map fun t => (List.range kl).map fun i => unpack 8 128 (viewBytes s (a + t * tst + i * kst) 128)

/-- Their stored units, k-step after k-step, those of A before those of B. -/
def slUnits (a b n kl akst atst bkst btst : Nat) : List Nat :=
  (List.range kl).flatMap fun i =>
    ((List.range n).flatMap fun t => unitsOf (a + t * atst + i * akst) 128) ++
    ((List.range n).flatMap fun t => unitsOf (b + t * btst + i * bkst) 128)

/-- The first saturation of a repeat (R82, R90): of the earliest k-step, and in it of the lowest entry. -/
def firstSat (sats : List (Nat × Nat)) : Option Nat :=
  (sats.foldl (fun (b : Option (Nat × Nat)) x => match b with
    | some y => if x.1 < y.1 || (x.1 == y.1 && x.2 < y.2) then some x else b
    | none => some x) none).map (·.2)

/-- The two ranges of a repeat of MMA.SLICE (R80). -/
def slRngs (s : State) (w : Who) (k : Cmd) : List Rng :=
  let ra := roleAr s w k 0
  let rb := roleAr s w k 1
  let span (kst tst : Nat) : Nat := (slS k - 1) * tst + (mmaKlen k - 1) * kst + 128
  [{ addr := arAddr ra, len := span (fld k.w3 31 0) (fld k.w4 31 0), ar := some ra, own := true },
   { addr := arAddr rb, len := span (fld k.w3 63 32) (fld k.w4 63 32), ar := some rb, own := true }]

/-- One repeat of MMA.SLICE (R82). In each k-step every pair adds once, in ascending p. A range of a core that does not exist
is found before the repeat that would touch it (log entry 99). -/
def slRep (s : State) (w : Who) (k : Cmd) (r : Run) : RepOut :=
  let c := w.core
  let n := slS k
  let kl := mmaKlen k
  let ra := roleAr s w k 0
  let rb := roleAr s w k 1
  let fresh := r.pos = 0 && mmaInit k
  if !fresh && !((slEntries k).all fun e => accTyOf s c e == .int48) then .fault s stFormat 0
  else
    match checkRanges s w (slRngs s w k) with
    | some st => .fault s st 0
    | none =>
      let tys := if fresh then tysOf s c (slEntries k) else r.tys
      let s := if fresh then (slEntries k).foldl (fun t e => accZero t c e .int48) s else s
      if (slEntries k).any fun e => s.parAcc.contains (accKey c e) then
        .fault (accKill (parityHit { s with parAcc := s.parAcc.filter fun x => !((slEntries k).map (accKey c)).contains x }
          w k) c (slEntries k)) stUncorr 0
      else
        let a := gLoc (arAddr ra)
        let b := gLoc (arAddr rb)
        let cyc := pairCount n * kl
        let x := if r.pos = 0 then expStart s c else r.exp
        let t := eccTouch { s with free := s.free + 1 } (meetOf w k 4)
          (slUnits a b n kl (fld k.w3 31 0) (fld k.w4 31 0) (fld k.w3 63 32) (fld k.w4 63 32))
        match t.2 with
        | some _ => .fault (accKill (partCycles t.1 c cyc 0) c (slEntries k)) stUncorr 0
        | none =>
          let s := rinc t.1 (coreReg c 0xC48) cyc
          let s := setCore s c { getCore s c with expLast := x.t - ((r.pos + 1) * cyc : Nat) }
          let s := setRun s w { r with exp := x, tys := tys }
          let va := slRead s a n kl (fld k.w3 31 0) (fld k.w4 31 0)
          let vb := slRead s b n kl (fld k.w3 63 32) (fld k.w4 63 32)
          let q := (slicePairs n).foldl (fun (q : State × List (Nat × Nat)) tu =>
            let e := mmaEntry k + pairIx n tu.1 tu.2
            let pa := va.getD (tu.1 - 1) []
            let pb := vb.getD (tu.2 - 1) []
            let vs := (List.range 16384).map fun m =>
              cellInt 5 5 48 (sx 48 (accGet q.1 c e (m / 128) (m % 128)).toNat) (cellPairs pa pb (m / 128) (m % 128))
            (accPut q.1 c e (vs.map fun v => BitVec.ofInt 48 v.1), q.2 ++ vs.filterMap fun v => v.2.map fun i => (i, e))) (s, [])
          .done (match firstSat q.2 with | some e => accSat q.1 c e | none => q.1) kl

def slEng : Eng :=
  { roles := fun _ => [0, 1], check := slCheck, zero := fun k => mmaKlen k == 0, rep := slRep,
    cycles := fun k => pairCount (slS k) * mmaKlen k }

/-- MMA.SLICE (R80-R82). -/
def execMmaSlice (c n : Nat) (s : State) : Out State := engineRow slEng 0 0x02 (fun _ => true) c n s

/-! ## ACC.INIT (R83) -/

def aiFmt (k : Cmd) : Nat := fld k.w2 3 0
def aiZero (k : Cmd) : Bool := bit k.w2 4
def accTrans (k : Cmd) : Bool := bit k.w2 5
def accStride (k : Cmd) : Nat := fld k.w2 63 32

/-- The type a source format gives (R83); none where it is no source. -/
def aiTy : Nat → Option AccTy
  | 0x8 => some .fp32 | 0xA => some .fp32 | 0xB => some .int32 | 0xC => some .int48 | _ => none

def aiCheck (_ : State) (_ : Who) (k : Cmd) : Option Nat :=
  if fld k.w2 15 6 != 0 || fld k.w2 31 22 != 0 || k.w3 != 0 || k.w4 != 0 || k.w5 != 0 || k.w6 != 0 || k.w7 != 0 then some stFormat
  else if (aiTy (aiFmt k)).isNone then some stFormat
  else none

/-- The 48-bit cell an element of a source format loads (R83): BF16 widens to FP32 exactly, a NaN to the canonical one
(R55). -/
def aiCell (f raw : Nat) : BitVec 48 :=
  match f with
  | 0x8 => BitVec.ofNat 48 (rne32 (fdec bf16 raw)).1
  | _ => BitVec.ofNat 48 raw

/-- The entry a repeat names: past 63 it is out of bounds, outside the set it may not be named (R66, R83, R84). -/
def entryAt (x e m : Nat) : Option Nat :=
  if 63 < e + m then some stBound else if !(inSet x (e + m)) then some stAccess else none

/-- The range of a repeat of ACC.INIT (R83). -/
def aiRng (s : State) (w : Who) (k : Cmd) : Rng :=
  let ra := roleAr s w k 0
  { addr := arAddr ra, len := 127 * accStride k + 16 * eltBits (aiFmt k), ar := some ra, own := true }

/-- The 128 rows that a repeat loads. -/
def aiRows (s : State) (w : Who) (k : Cmd) : List (List Nat) :=
  (List.range 128).map fun i =>
    unpack (eltBits (aiFmt k)) 128 (viewBytes s (gLoc (arAddr (roleAr s w k 0)) + i * accStride k) (16 * eltBits (aiFmt k)))

/-- The cell that element (i, j) of the entry receives, transposed where the command says so. -/
def aiAt (k : Cmd) (rows : List (List Nat)) (i j : Nat) : BitVec 48 :=
  aiCell (aiFmt k) (if accTrans k then (rows.getD j []).getD i 0 else (rows.getD i []).getD j 0)

/-- One repeat of ACC.INIT (R83, R91). The checks of its entry come before those of its range (log entry 97). -/
def aiRep (s : State) (w : Who) (k : Cmd) (r : Run) : RepOut :=
  let c := w.core
  let e := mmaEntry k + r.pos
  let f := aiFmt k
  let ty := (aiTy f).getD .unset
  match entryAt w.ctx (mmaEntry k) r.pos with
  | some st => .fault s st 0
  | none =>
    let r' := { r with tys := r.tys ++ tysOf s c [e] }
    if aiZero k then .done (accZero (setRun s w r') c e ty) 1
    else
      let n := 16 * eltBits f
      match checkRanges s w [aiRng s w k] with
      | some st => .fault s st 0
      | none =>
        let a := gLoc (arAddr (roleAr s w k 0))
        let t := eccTouch s (meetOf w k 5) ((List.range 128).flatMap fun i => unitsOf (a + i * accStride k) n)
        match t.2 with
        | some _ => .fault (accZero t.1 c e .unset) stUncorr 0
        | none =>
          let rows := aiRows s w k
          .done (setTy (accPut (setRun t.1 w r') c e ((List.range 16384).map fun m => aiAt k rows (m / 128) (m % 128))) c e ty) 1

def aiEng : Eng :=
  { roles := fun k => if aiZero k then [] else [0], check := aiCheck, zero := fun _ => false, rep := aiRep,
    cycles := fun _ => 128 }

/-- ACC.INIT (R83). -/
def execAccInit (c n : Nat) (s : State) : Out State := engineRow aiEng 0 0x03 (fun _ => true) c n s

/-! ## ACC.DRAIN (R84-R87) -/

def adFmt (k : Cmd) : Nat := fld k.w2 3 0
def adMx (k : Cmd) : Bool := bit k.w2 4
def adRnd (k : Cmd) : Nat := fld k.w2 7 6
def adSatn (k : Cmd) : Bool := bit k.w2 8
def adRs (k : Cmd) : Bool := bit k.w2 9
def adCs (k : Cmd) : Bool := bit k.w2 10
def adBias (k : Cmd) : Nat := fld k.w2 12 11

/-- The combinations of R86 for one entry's type. -/
def adTyBad (k : Cmd) (t : AccTy) : Bool :=
  let mods := adRs k || adCs k || adBias k != 0
  match t with
  | .unset => true
  | .int48 => adFmt k != 0xC || mods
  | .int32 => adFmt k == 0xC || (adFmt k == 0xB && mods)
  | .fp32 => adFmt k == 0xC || adFmt k == 0xB

/-- The entries a drain reads, as far as they exist and lie in its set; the first one also for a zero count (R76). -/
def adEntries (x : Nat) (k : Cmd) : List Nat :=
  (rangeFrom (mmaEntry k) (min 64 (max 1 (total k)))).filter (inSet x)

def adCheck (s : State) (w : Who) (k : Cmd) : Option Nat :=
  if fld k.w2 15 13 != 0 || fld k.w2 31 22 != 0 || k.w3 != 0 || k.w4 != 0 || k.w5 != 0 || k.w6 != 0 || k.w7 != 0 then some stFormat
  else if 0xC < adFmt k || 1 < adRnd k || adBias k = 3 || (adMx k && !(mxAllowed (adFmt k))) then some stFormat
  else if (adEntries w.ctx k).any fun e => adTyBad k (accTyOf s w.core e) then some stFormat
  else none

/-- Steps 1 to 3 of R85 for one cell: the exact value that step 4 narrows. -/
def adValue (k : Cmd) (t : AccTy) (cell : BitVec 48) (rs cs bias : XVal) : XVal × NumFlags :=
  let v : XVal := match t with
    | .fp32 => fdec fp32 (cell.toNat % 2 ^ 32)
    | .int32 => xOfInt (sx 32 cell.toNat)
    | _ => xOfInt (sx 48 cell.toNat)
  let one : XVal := .fin false 1 0
  let v2 : XVal × NumFlags :=
    if adRs k || adCs k then
      let x := if adRs k then rs else one
      let y := if adCs k then cs else one
      let m := xMul v x
      let n := xMul m.1 y
      let r := rne32 n.1
      (fdec fp32 r.1, opFlags [v, x, y] (m.2 ||| n.2 ||| r.2))
    else if t = .int32 ∧ (isFlt (adFmt k) ∨ adBias k ≠ 0) then
      let r := rne32 v
      (fdec fp32 r.1, r.2)
    else (v, 0)
  if adBias k ≠ 0 then
    let a := xAdd v2.1 bias
    let r := rne32 a.1
    (fdec fp32 r.1, v2.2 ||| a.2 ||| r.2)
  else v2

/-- The 128 narrowed elements of one row of an entry, their four MX scales, and the flags (R85 step 4, R87). -/
def adRow (s : State) (c : Nat) (k : Cmd) (i : Nat) (vs : List XVal) : List Nat × List Nat × NumFlags :=
  if adMx k then
    let bl := chunks 32 4 vs
    let rs := ((List.range 4).zip bl).map fun p =>
      let sc := mxScale (mxEmax (adFmt k)) p.2
      let z := xIsZero (xAmax p.2)
      let es := ((List.range 32).zip p.2).map fun q =>
        mxEnc (adFmt k) (srAt s c (adRnd k) (i * 128 + p.1 * 32 + q.1)) (mxElem sc.1 z q.2)
      (es.map (·.1), sc.1, sc.2 ||| orFlags es)
    (rs.flatMap (·.1), rs.map (·.2.1), rs.foldl (fun f r => f ||| r.2.2) 0)
  else
    let es := ((List.range 128).zip vs).map fun q => eltEnc (adFmt k) (srAt s c (adRnd k) (i * 128 + q.1)) (adSatn k) q.2
    (es.map (·.1), [], orFlags es)

/-- Rows written in ascending order, a later one over an earlier (R87); the first unit whose bytes were dropped. -/
def writeRows (m : Meet) : List (Nat × List Byte) → State → State × Option Nat
  | [], s => (s, none)
  | (a, bs) :: t, s =>
    let r := writeBytes s m a bs
    let q := writeRows m t r.1
    (q.1, r.2.or q.2)

/-- The 512-byte parts of the parameter block that a drain reads (R85): row scales, column scales, bias. -/
def adParts (k : Cmd) : List Nat :=
  (if adRs k then [0] else []) ++ (if adCs k then [512] else []) ++ (if adBias k ≠ 0 then [1024] else [])

/-- The ranges of a repeat of ACC.DRAIN (R84, R85, R87). -/
def adRngs (s : State) (w : Who) (k : Cmd) : List Rng :=
  let r0 := roleAr s w k 0
  let r1 := roleAr s w k 1
  let r2 := roleAr s w k 2
  [{ addr := arAddr r0, len := 127 * accStride k + 16 * eltBits (adFmt k), ar := some r0, write := true, own := true }] ++
  (if adMx k then [{ addr := arAddr r1, len := 512, ar := some r1, write := true, own := true }] else []) ++
  (adParts k).map fun o => { addr := (arAddr r2 + o) % 2 ^ 56, len := 512, ar := some r2, own := true }

/-- The narrowed rows of entry e, with their scales and flags (R85). -/
def adRows (s : State) (w : Who) (k : Cmd) (e : Nat) : List (List Nat × List Nat × NumFlags) :=
  let pb := viewBytes s (gLoc (arAddr (roleAr s w k 2))) 1536
  let ty := accTyOf s w.core e
  (List.range 128).map fun i =>
    let vs := (List.range 128).map fun j => adValue k ty (accGet s w.core e i j) (f32At pb i) (f32At pb (128 + j))
      (f32At pb (256 + (if adBias k = 2 then i else j)))
    let q := adRow s w.core k i (vs.map (·.1))
    (q.1, q.2.1, q.2.2 ||| vs.foldl (fun f v => f ||| v.2) 0)

/-- What a repeat writes: the rows in ascending order, transposed where the command says so, then the MX scales (R87; log
entry 98). -/
def adWrites (s : State) (w : Who) (k : Cmd) (rows : List (List Nat × List Nat × NumFlags)) : List (Nat × List Byte) :=
  let elt (i j : Nat) : Nat := ((rows.getD i ([], [], 0)).1).getD j 0
  let out := (List.range 128).map fun a =>
    (gLoc (arAddr (roleAr s w k 0)) + a * accStride k,
      pack (eltBits (adFmt k)) ((List.range 128).map fun b => if accTrans k then elt b a else elt a b))
  let scs : List Byte := (List.range 512).map fun x =>
    let ib := if accTrans k then (x % 128, x / 128) else (x / 4, x % 4)
    BitVec.ofNat 8 (((rows.getD ib.1 ([], [], 0)).2.1).getD ib.2 0)
  out ++ (if adMx k then [(gLoc (arAddr (roleAr s w k 1)), scs)] else [])

/-- One repeat of ACC.DRAIN (R84-R87). The checks of its entry come before those of its ranges (log entry 97), its MX scales
are written after its rows (log entry 98). Where it faults after them its destination bytes are unspecified (R91). -/
def adRep (s : State) (w : Who) (k : Cmd) (r : Run) : RepOut :=
  let c := w.core
  let e := mmaEntry k + r.pos
  match entryAt w.ctx (mmaEntry k) r.pos with
  | some st => .fault s st 0
  | none =>
    let ty := accTyOf s c e
    if adTyBad k ty then .fault s stFormat 0
    else
      let r0 := roleAr s w k 0
      let r1 := roleAr s w k 1
      let n := 16 * eltBits (adFmt k)
      match checkRanges s w (adRngs s w k) with
      | some st => .fault s st 0
      | none =>
        let p := gLoc (arAddr (roleAr s w k 2))
        let lost (s : State) : State := scramble s
          (((List.range 128).map fun i => (gLoc (arAddr r0) + i * accStride k, n)) ++ (if adMx k then [(gLoc (arAddr r1), 512)] else []))
        let t := eccTouch s (meetOf w k 5) ((adParts k).flatMap fun o => unitsOf (p + o) 512)
        match t.2 with
        | some _ => .fault (lost t.1) stUncorr 0
        | none =>
          let s := t.1
          if s.parAcc.contains (accKey c e) then
            .fault (accKill (lost (parityHit { s with parAcc := s.parAcc.filter (· ≠ accKey c e) } w k)) c [e]) stUncorr 0
          else
            let rows := adRows s w k e
            let s := raiseNum s c (rows.foldl (fun f q => f ||| q.2.2) 0)
            let s := srTake s c (adRnd k) 16384
            let o := writeRows (meetOf w k 8) (adWrites s w k rows) s
            match o.2 with
            | some _ => .fault (lost o.1) stUncorr 0
            | none => .done o.1 1

def adRoles (k : Cmd) : List Nat :=
  [0] ++ (if adMx k then [1] else []) ++ (if adRs k || adCs k || adBias k != 0 then [2] else [])

def adEng : Eng := { roles := adRoles, check := adCheck, zero := fun _ => false, rep := adRep, cycles := fun _ => 128 }

/-- ACC.DRAIN (R84-R87). -/
def execAccDrain (c n : Nat) (s : State) : Out State := engineRow adEng 0 0x04 (fun _ => true) c n s

end Sys2Proof.Machine
end

