-- ==== Sys2Proof/Machine/Drover.lean ====
section
/-! DEFINITION. Rings, their doorbells and completion areas (R393-R400), fetch and dispatch (R177-R182, R207), the
drover's switches between rings (R402-R407), class-0 take-over (R408), and deadlock detection (R200-R202). -/

namespace Sys2Proof.Machine

open Sys2Proof.Config (Grade cores)

/-! ## Records of service rings (R334) -/

/-- The fetch position moves past one slot. -/
def fetchNext (s : State) (n m : Nat) : State :=
  let r := getRing s n
  setRing s n { r with fetch := lset r.fetch m ((r.fetch.getD m 0 + 1) % cmdLen s n), line := lset r.line m [] }

/-- Records of a service ring whose commands have ended, in ring order (R334). -/
def svcDrain (n : Nat) : Nat → State → State
  | 0, s => s
  | k + 1, s =>
    let r := getRing s n
    match r.opens with
    | { id := _, tag := _, irq := _, fin := some rec_ } :: t => svcDrain n k (emitSvc (setRing s n { r with opens := t }) n rec_)
    | _ => s

/-- The record of a service command (R208, R355): CONTEXT 0, CORE 0xFF. -/
def svcRec (s : State) (n tag status count : Nat) (irq : Bool) : Rec :=
  { tag := tag, status := status, engine := if ringTarget s n = 1 then 4 else 5, context := 0, core := 255, count := count, irq := irq }

/-- A service command ends: its record follows those of the ring's earlier commands. A fault halts the ring (R12,
R410). -/
def svcEnd (s : State) (n id status count : Nat) : State :=
  let r := getRing s n
  let opens := r.opens.map fun o => if o.id = id then { o with fin := some (svcRec s n o.tag status count o.irq) } else o
  let s := svcDrain n (opens.length + 1) (setRing s n { r with opens := opens })
  finishStop (if 0x20 ≤ status then haltMember s n 0 else s) n

/-- The front command of a service ring leaves the stream under a number of its own. -/
def svcTake (s : State) (n : Nat) (k : Cmd) : State × Nat :=
  let id := s.srv.nextCmd
  let s := fetchNext { s with srv := { s.srv with nextCmd := id + 1 } } n 0
  let r := getRing s n
  (setRing s n { r with opens := r.opens ++ [{ id := id, tag := cTag k, irq := cIrq k }] }, id)

/-! ## Ring descriptors (R394, R395) -/

/-- A fold may use a range of global addresses as a ring's area: memory of this device that it reaches, host memory, or
a member of the domain. Ring 65,535 uses what the physical function reaches (R413). -/
def areaOk (s : State) (n ga len : Nat) (write : Bool) : Bool :=
  let a := gLoc ga
  if gDev ga ≠ s.devid then isMember s (gDev ga)
  else
    populated s.grade a len && region s.grade a != .csr &&
    match ringFold s n with
    | some f => foldReach s f a len write
    | none => n == 65535

/-- ERR 1 (R394, R395, R401, R413): fields out of range, reserved bits. -/
def descBad (s : State) (n : Nat) : Bool :=
  let w (i : Nat) : Word := ringW s n i
  let tgt := ringTarget s n
  let nc := ringN s n
  tgt == 3 || fld (w 1) 63 61 != 0 || fld (w 2) 63 61 != 0 || fld (w 3) 31 27 != 0 || fld (w 3) 63 56 != 0 ||
  fld (w 4) 63 56 != 0 || fld (w 5) 63 32 != 0 ||
  fld (w 1) 60 56 < 6 || 20 < fld (w 1) 60 56 || fld (w 2) 60 56 < 6 || 20 < fld (w 2) 60 56 ||
  cmdBase s n % 4096 != 0 || cplBase s n % 4096 != 0 || saveBase s n % 256 != 0 || saveStride s n % 256 != 0 ||
  (tgt == 0 && (nc == 0 || 192 < nc || 192 < ringFirst s n + nc)) || (tgt != 0 && nc != 0) ||
  (tgt != 0 && ringClass s n != 1) || (n == 65535 && tgt != 2)

/-- ERR 2: cores and areas outside the fold's reach; a ring of no fold. -/
def reachBad (s : State) (n : Nat) : Bool :=
  let tgt := ringTarget s n
  let savers := tgt == 0 && ringClass s n != 0
  (match ringFold s n with
   | some f => tgt == 0 && (memberCores s n).any (fun c => !(coreOk s c && foldCore s f c))
   | none => n != 65535) ||
  !(areaOk s n (cmdBase s n) (64 * cmdLen s n * ringMembers s n) false) ||
  !(areaOk s n (cplBase s n) (32 * cplLen s n) true) ||
  (savers && (gDev (saveBase s n) != s.devid || region s.grade (gLoc (saveBase s n)) == .aperture || !(areaOk s n (saveBase s n) (saveStride s n * ringN s n) true)))

/-- A free context of the ring's class on a core (R396). -/
def freeCtx (s : State) (n c : Nat) : Option Nat :=
  if ringClass s n = 0 then (if (getCtx s c 0 6).bound then none else some 6)
  else (List.range 6).find? fun x => !(getCtx s c 0 x).bound

/-- A core is in the set of an enabled class-0 ring. -/
def inUrgentSet (s : State) (c : Nat) : Bool :=
  (getCtx s c 0 6).bound && (getRing s (getCtx s c 0 6).ring).state != 4

/-- The first check of R395 that fails, 0 where none does. -/
def enableErr (s : State) (n : Nat) : Nat :=
  let cls0 := ringClass s n == 0 && ringTarget s n == 0
  if descBad s n then 1
  else if reachBad s n then 2
  else if ringTarget s n == 0 && (memberCores s n).any (fun c => !(cls0 && inUrgentSet s c) && (freeCtx s n c).isNone) then 3
  else if cls0 && (memberCores s n).any (inUrgentSet s) then 4
  else if ringTarget s n == 0 && !cls0 && saveStride s n < 256 then 5
  else 0

/-- A member context is bound in every queue of its core, its registers cleared (R170, R184, R395). -/
def bindMember (s : State) (n c m : Nat) : State :=
  match freeCtx s n c with
  | none => s
  | some x =>
    let s := (List.range 4).foldl (fun t q =>
      let t := (List.range 16).foldl (fun u r => setAr u c q x r {}) t
      setCtx t c q x { bound := true, ring := n, member := m }) s
    (List.range 32).foldl (fun t r => setX t c x r 0) s

/-- ENABLE goes from 0 to 1 (R395). -/
def ringEnable (s : State) (n : Nat) : State :=
  match enableErr s n with
  | 0 =>
    let s := (List.range (memberCores s n).length).foldl (fun t m => bindMember t n ((memberCores s n).getD m 0) m) s
    let k := ringMembers s n
    setRing s n { state := 1, fetch := List.replicate k 0, tail := List.replicate k 0, halted := List.replicate k false,
                  suspended := List.replicate k false, saved := List.replicate k none, line := List.replicate k [],
                  err := (getRing s n).err }
  | e => setRing s n { getRing s n with err := e }

/-- Unfetched commands of a member (R398). -/
def unfetched (s : State) (n m : Nat) : Nat :=
  let r := getRing s n
  (r.tail.getD m 0 + cmdLen s n - r.fetch.getD m 0) % cmdLen s n

/-- The unfetched commands of a member are discarded (R412). -/
def discard (s : State) (n m : Nat) : State :=
  let r := getRing s n
  dropAsks (setRing s n { r with fetch := lset r.fetch m (r.tail.getD m 0), line := lset r.line m [] }) (.fetch n m)

/-- The commands of one member end or are discarded (R395, R412); a RING.SUSPEND that waits ends with ST_CANCELLED. -/
def cancelMember (s : State) (n m : Nat) : State :=
  let s := discard s n m
  if ringTarget s n ≠ 0 then
    match (getRing s n).acting with
    | some a => svcEnd (setRing s n { getRing s n with acting := none }) n a.1 stCancelled 0
    | none => s
  else
    let c := ringFirst s n + m
    match ringCtx s c n with
    | none => s
    | some x => (List.range 4).foldl (fun t q => cancelCtx t c q x) (stir s c)

/-- A write of ENABLE = 0 (R395): every member is cancelled, the ring stops, and is DISABLED after its last record. -/
def ringDisable (s : State) (n : Nat) : State :=
  let r := getRing s n
  if r.state = 0 ∨ r.state = 4 then s
  else
    let s := setRing s n { r with state := 4 }
    finishStop ((List.range (ringMembers s n)).foldl (fun t m => cancelMember t n m) s) n

/-- A write of word w of ring n's descriptor (R394, R395): v holds the new value of the whole word. While ENABLE = 1 only
WEIGHT, COAL_COUNT, COAL_TIME, MSIX and ENABLE take it; while the ring is STOPPING the first four alone (log entry 103). -/
def descWrite (s : State) (n w : Nat) (v : Word) : State :=
  let a := ringReg n w
  let old := rget s a
  let stopping := (getRing s n).state == 4
  let en := bit (ringW s n 0) 0 || stopping
  match w with
  | 0 =>
    let keep := if en then setFld old 31 24 (fld v 31 24)
      else setFld (setFld (setFld old 8 8 (fld v 8 8)) 7 4 (fld v 7 4)) 31 24 (fld v 31 24)
    let new := if stopping then keep else setFld keep 0 0 (fld v 0 0)
    let s := rset s a new
    if stopping then s else if !en && bit v 0 then ringEnable s n else if en && !(bit v 0) then ringDisable s n else s
  | 3 => rset s a (if en then setFld (setFld (setFld old 26 16 (fld v 26 16)) 39 32 (fld v 39 32)) 55 40 (fld v 55 40) else v)
  | _ => if en || 6 ≤ w then s else rset s a v

/-- What word w of a descriptor reads as (R394): STATE, CPL_FULL, FOLD and ERR are the drover's. -/
def descRead (s : State) (n w : Nat) : Word :=
  let v := ringW s n w
  match w with
  | 0 =>
    let r := getRing s n
    let full := r.state != 0 && !(cplRoom s n)
    let v := setFld (setFld v 3 1 r.state) 9 9 full.toNat
    setFld (setFld v 19 16 ((ringFold s n).getD 0)) 39 32 r.err
  | 1 => setFld v 63 61 0
  | 2 => setFld v 63 61 0
  | 3 => setFld (setFld v 31 27 0) 63 56 0
  | 4 => setFld v 63 56 0
  | 5 => setFld v 63 32 0
  | _ => 0

/-! ## Doorbells (R397, R398) -/

def dbErr (s : State) : State := ror s (drvReg 8) 1

/-- A TAIL write. -/
def doorbell (s : State) (n : Nat) (v : Word) : State :=
  let r := getRing s n
  let len := cmdLen s n
  let t := fld v 19 0
  let m := fld v 27 20
  if r.state = 0 ∨ r.state = 4 ∨ len ≤ t ∨ ringMembers s n ≤ m then dbErr s
  else
    let old := r.tail.getD m 0
    let f := r.fetch.getD m 0
    if (t + len - old) % len ≤ (f + 2 * len - 1 - old) % len then setRing s n { r with tail := lset r.tail m t }
    else dbErr s

/-- A CPL_HEAD write. -/
def cplHead (s : State) (n : Nat) (v : Word) : State :=
  let r := getRing s n
  if r.state = 0 then dbErr s else setRing s n { r with cplHead := fld v 19 0 % cplLen s n }

/-- The interrupt of coalesced records is due (R400). -/
def execIrqCoalesceTimeout (n : Nat) (s : State) : Out State :=
  let r := getRing s n
  if r.pendIrq ≠ 0 ∧ coalTime s n ≠ 0 ∧ r.firstIrq + Config.tick * coalTime s n ≤ s.time then
    .next (ringIrq (setRing s n { r with pendIrq := 0 }) n)
  else .next s

/-- The contexts of a ring on its member cores, queue by queue. -/
def ringCtxs (s : State) (n : Nat) : List (Nat × Nat × Nat) :=
  (memberCores s n).flatMap fun c => match ringCtx s c n with
    | some x => (List.range 4).map fun q => (c, q, x)
    | none => []

/-- The first record of a ring that waits is written. -/
def deferredRec (s : State) (n : Nat) : State :=
  let r := getRing s n
  match r.waiting with
  | w :: t => writeRec (setRing s n { r with waiting := t }) n w
  | [] =>
    match (ringCtxs s n).find? fun p => !(getCtx s p.1 p.2.1 p.2.2).waiting.isEmpty with
    | none => s
    | some (c, q, x) =>
      let k := getCtx s c q x
      match k.waiting with
      | [] => s
      | w :: t => writeRec (setCtx s c q x { k with waiting := t }) n w

/-- A record that waited for room, or for the fold's regulators, is written (R399, R417). -/
def execDeferredRecordWrite (n : Nat) (s : State) : Out State :=
  .next (if recGo s n then finishStop (deferredRec s n) n else s)

/-- Up to k of a ring's records that wait, as long as its area has room. -/
def flushRecs (n : Nat) : Nat → State → State
  | 0, s => s
  | k + 1, s => if cplRoom s n then flushRecs n k (deferredRec s n) else s

/-! ## Fetch (R177-R182, R207) -/

/-- Global address of the next line of a member's stream (R397). -/
def lineAddr (s : State) (n m : Nat) : Nat :=
  cmdBase s n + 64 * (m * cmdLen s n + (getRing s n).fetch.getD m 0)

/-- A line as the fetch unit finds it: its bytes, or none with the status of the failed read (R431, R498). -/
def readLine (s : State) (n a : Nat) : State × Except Nat (List Byte) :=
  let f := s.free
  match outFail s f [(a, 64)] with
  | some st => ({ s with free := f + 1 }, .error st)
  | none =>
    let t := eccTouch { s with free := f + 1 } { path := 1, ring := n } (srcUnits s (a, 64))
    match t.2 with
    | some _ => (t.1, .error stUncorr)
    | none => (t.1, .ok (srcBytes t.1 f (a, 64)))

/-- The next command line of a member, read as one unit (R179) under its fold's regulators (R417): the one that the fetch
unit has already read, or one that may first wait behind a channel that computes (R111). -/
def fetchLine (s : State) (n m : Nat) : Got (List Byte) :=
  let a := lineAddr s n m
  let f := (ringFold s n).getD 16
  match (getRing s n).line.getD m [] with
  | b :: t => .ok s (b :: t)
  | [] =>
    if !(regOk s f a 64 false) then .held s
    else
      match askRead s (.fetch n m) (ringFold s n) (ownRuns s [(a, 64)]) with
      | (s, none) => .held s
      | (s, some got) =>
        match onCaps (regPay s f a 64 false) got fun u => readLine u n a with
        | (s, .error st) => .bad (dropAsks s (.fetch n m)) st
        | (s, .ok bs) => .ok (dropAsks s (.fetch n m)) bs

/-- The fetch unit keeps a line that it cannot dispatch yet (R177). -/
def keepLine (s : State) (n m : Nat) (bs : List Byte) : State :=
  setRing s n { getRing s n with line := lset (getRing s n).line m bs }

def cmdOf (bs : List Byte) : Cmd :=
  let w (i : Nat) : Word := BitVec.ofNat 64 (leNat ((bs.drop (8 * i)).take 8))
  { w0 := w 0, w1 := w 1, w2 := w 2, w3 := w 3, w4 := w 4, w5 := w 5, w6 := w 6, w7 := w 7 }

/-- A fault of the fetch unit (R207): its record, then R206 for the member. -/
def fetchFault (s : State) (n m c : Nat) (tag status count : Nat) (irq : Bool) : State :=
  let r : Rec := { tag := tag, status := status, engine := 7, context := 0, core := c, count := count, irq := irq }
  let s := match ringCtx s c n with
    | some x => emitRec s c 0 x r
    | none => emitSvc s n r
  let s := haltMember (stir s c) n m
  match ringCtx s c n with
  | some x =>
    let s := (List.range 4).foldl (fun t q => setCtx t c q x { getCtx t c q x with halted := true }) s
    (List.range 4).foldl (fun t q => cancelCtx t c q x) s
  | none => s

/-- A fetched command goes to its input buffer, or into the block that the scalar context collects (R172, R177): none
where there is no room for it yet. -/
def dispatch (s : State) (n m c x : Nat) (k : Cmd) : Option State :=
  let sc := getCtx s c 3 x
  let filling : Bool := match sc.blk with | some b => b.cmds.length < b.need | none => false
  if filling then
    let b := sc.blk.getD {}
    some (fetchNext (setCtx s c 3 x { sc with blk := some { b with cmds := b.cmds ++ [k] } }) n m)
  else if 4 ≤ cEngine k then some (fetchFault s n m c (cTag k) stFormat 0 (cIrq k))
  else
    let q := cEngine k
    let b := getCtx s c q x
    let need := fld k.w2 40 32
    let blk := q == 3 && opcode k == 0x05 && 1 ≤ need && need ≤ 256
    if 32 ≤ b.buf.length ∨ (blk ∧ sc.blk.isSome) then none
    else
      let b := { b with buf := b.buf ++ [k], fullAt := if b.buf.length = 31 then s.time else b.fullAt }
      let b := if blk then { b with blk := some { need := need } } else b
      some (fetchNext (setCtx s c q x b) n m)

/-- A member may fetch: no orderly shutdown is under way (R547), it has unfetched commands, its ring is enabled, it is neither halted nor suspended, and the
ring is the one that runs on its core, or the class-0 ring (R402, R408). -/
def mayFetch (s : State) (n m : Nat) : Bool :=
  let r := getRing s n
  let c := ringFirst s n + m
  s.power.sd.isNone && (1 ≤ r.state && r.state ≤ 3) && r.fetch.getD m 0 != r.tail.getD m 0 && !(r.halted.getD m false) && !(r.suspended.getD m false) &&
  match ringCtx s c n with
  | some x => x == 6 || (getCore s c).running == some (n, x)
  | none => false

/-- FETCH_DISPATCH (R177, R179, R398). -/
def execFetchDispatch (n m : Nat) (s : State) : Out State :=
  if ringTarget s n ≠ 0 ∨ !(mayFetch s n m) then .next s
  else
    let c := ringFirst s n + m
    match ringCtx s c n with
    | none => .next s
    | some x =>
      match fetchLine s n m with
      | .held s' => .next s'
      | .bad s' st =>
        .next (fetchFault s' n m c 0 st ((getRing s n).fetch.getD m 0) false)
      | .ok s' bs =>
        match dispatch s' n m c x (cmdOf bs) with
        | some t => .next t
        | none => .next (keepLine s' n m bs)

/-! ## Switches between rings (R402-R407) -/

/-- A queue holds nothing of a context: it is idle (R402). -/
def idleQ (k : QCtx) : Bool := k.run.isNone && k.buf.isEmpty && k.opens.isEmpty

def quiescent (s : State) (c x : Nat) : Bool := (List.range 4).all fun q => idleQ (getCtx s c q x)

/-- RING.SUSPEND has stopped the queue and its launches have ended (R412). -/
def stoppedQ (k : QCtx) : Bool := k.suspended && k.opens.all fun o => o.runs || o.fin.isSome

/-- Every queue stands at a mark or is idle, or stands where RING.SUSPEND has stopped it (log entry 104). -/
def fullMark (s : State) (c x : Nat) : Bool :=
  (List.range 4).all fun q =>
    let k := getCtx s c q x
    idleQ k || stoppedQ k || (k.atMark && k.run.isNone && k.opens.isEmpty)

/-- A ring is ready on a core (R402): its member there is ENABLED and has unfetched commands (log entry 47). -/
def readyOn (s : State) (n c : Nat) : Bool :=
  let r := getRing s n
  let m := c - ringFirst s n
  (1 ≤ r.state && r.state ≤ 3) && !(r.halted.getD m false) && !(r.suspended.getD m false) && r.fetch.getD m 0 != r.tail.getD m 0

/-- The rings of classes 1-3 bound to a core, with their contexts. -/
def boundRings (s : State) (c : Nat) : List (Nat × Nat) :=
  (List.range 6).filterMap fun x => let k := getCtx s c 0 x; if k.bound then some (k.ring, x) else none

/-- The ready ring that a core would run next: the lowest class, and within it the next in turn after `last`. -/
def nextRing (s : State) (c last : Nat) : Option (Nat × Nat) :=
  let rs := (boundRings s c).filter fun p => readyOn s p.1 c
  let turn (n : Nat) : Nat := (n + 65536 - (last + 1) % 65536) % 65536
  let key (p : Nat × Nat) : Nat := ringClass s p.1 * 65536 + turn p.1
  (sortBy (fun a b => key a ≤ key b) rs).head?

/-- Ticks of a ring's quantum (R402, R421). -/
def quantumOf (s : State) (n : Nat) : Nat := Config.tick * ringWeight s n * max 1 (fld (rget s (drvReg 0)) 15 0)

/-- The ring the drover asks a core to switch to now (R402). -/
def wantSwitch (s : State) (c : Nat) : Option Nat :=
  let k := getCore s c
  match k.running with
  | none => (nextRing s c 65535).map (·.1)
  | some (n, x) =>
    match nextRing s c n with
    | none => none
    | some (m, _) =>
      if m ≠ n ∧ ringClass s m < ringClass s n then some m
      else if m ≠ n ∧ ringClass s m = ringClass s n ∧ k.quantum + quantumOf s n ≤ s.time then some m
      -- a ring that is not ready never holds a switch back
      else if m ≠ n ∧ !(readyOn s n c) ∧ ((List.range 4).all fun q => idleQ (getCtx s c q x) || stoppedQ (getCtx s c q x)) then some m
      else none

/-- SWITCH_REQUEST (R402). -/
def execSwitchRequest (c : Nat) (s : State) : Out State :=
  onCore s c <|
  let k := getCore s c
  if k.request.isSome ∨ s.time < k.retry then .next s
  else
    match wantSwitch s c with
    | some n => .next (setCore s c { k with request := some (n, s.time) })
    | none => .next s

/-- The parts of a core's scratchpad window that no area of R409 is reserved in, for a ring of fold f: area, first
offset, end. -/
def openAreas (s : State) (c f : Nat) : List (Nat × Nat × Nat) :=
  (0, 0, 0x4C0000) :: ((if urgentCore s c then [] else [(1, 0x4C0000, 0x500000)]) ++
    if foldHasModel s f then [] else [(2, 0x500000, 0x600000)])

/-- The open areas of a core for the ring of its context x. -/
def ctxAreas (s : State) (c x : Nat) : List (Nat × Nat × Nat) := openAreas s c ((ringFold s (getCtx s c 2 x).ring).getD 16)

/-- The live ranges of a member (R404): the windows of A8-A15 of its DMA context, clipped to the core's window less the
reserved areas: local address and length. -/
def liveRanges (s : State) (c x : Nat) : List (Nat × Nat) :=
  (rangeFrom 8 8).flatMap fun r => (ctxAreas s c x).filterMap fun p =>
    let a := getAr s c 2 x r
    let lo := max a.wlo.toNat (gOwn s (spdWin c + p.2.1))
    let hi := min a.whi.toNat (gOwn s (spdWin c + p.2.2))
    if lo < hi then some (gLoc lo, hi - lo) else none

/-- Total bytes of the live ranges. -/
def liveLen (s : State) (c x : Nat) : Nat := ((liveRanges s c x).map (·.2)).foldl (· + ·) 0

/-- The 256 bytes of a switch record (R405). -/
def switchRecord (s : State) (c x n m cause : Nat) (live : Nat) : List Byte :=
  let head := leBytes 8 s.time ++ leBytes 2 n ++ leBytes 2 m ++ leBytes 1 cause ++ leBytes 19 0
  let part (q : Nat) : List Byte :=
    let k := getCtx s c q x
    let i := match k.run with | some r => stopIdx k r | none => (0, 0, 0)
    leBytes 4 k.nextIdx ++ leBytes 4 i.1 ++ leBytes 4 i.2.1 ++ leBytes 4 k.lastTag ++ leBytes 8 (if q = 2 then live else 0) ++ leBytes 24 0
  head ++ (List.range 4).flatMap part ++ leBytes 32 0

/-- Global address of member m's save slot (R405). -/
def saveSlot (s : State) (n m : Nat) : Nat := saveBase s n + m * saveStride s n

/-- Bytes of a save slot written, line by line, under the fold's regulators (R403, R417). -/
def saveBytes (s : State) (n ga : Nat) (bs : List Byte) : State :=
  (List.range (lineCount 256 (gLoc ga) bs.length)).foldl (fun t i =>
    let p := linePart 256 (gLoc ga) bs.length i
    regWrite t ((ringFold s n).getD 16) (ga + p.1) ((bs.drop p.1).take p.2)) s

/-- A switch record written. -/
def writeSwitch (s : State) (c x n cause live : Nat) : State :=
  let m := (getCtx s c 0 x).member
  saveBytes s n (saveSlot s n m) (switchRecord s c x n m cause live)

/-- Member m of ring n is displaced: its live ranges, where its class keeps any, are copied out of the scratchpad (R403
step 2, R407). -/
def saveLive (s : State) (c x n : Nat) : State :=
  let m := (getCtx s c 0 x).member
  let rs := if 2 ≤ ringClass s n then liveRanges s c x else []
  let bs := rs.flatMap fun r => viewBytes s r.1 r.2
  let r := getRing s n
  let s := setRing s n { r with saved := lset r.saved m (some rs) }
  saveBytes s n (saveSlot s n m + 256) bs

/-- Every byte of a core's window outside the reserved areas becomes a free value (R407). -/
def loseSpd (s : State) (c x : Nat) : State :=
  let ps := ctxAreas s c x
  let gone (l : Nat) : Bool := ps.any fun p => spdWin c + p.2.1 ≤ l && l < spdWin c + p.2.2
  { s with mem := tdrop gone s.mem, lost := ps.foldl (fun t p => tput 0 t (c * 3 + p.1) (s.free + 1)) s.lost, free := s.free + 1 }

/-- A write of the fold's ring to the save slot is still held by a regulator. -/
def saveHeld (s : State) (n a len : Nat) : Bool :=
  s.folds.held.any fun h => some h.1 == ringFold s n && h.2.2.2.write && (List.range (lineCount 256 a len)).any fun i =>
    let p := linePart 256 a len i
    meets (locOf (a + p.1)) p.2 h.2.2.2.addr (h.2.2.2.addr + h.2.2.2.len)

/-- The live ranges of a member copied back out of its save slot, at local address a. -/
def copyBack (s : State) (c x a : Nat) (rs : List (Nat × Nat)) : State :=
  let from_ := s
  let isOpen (rg : Nat × Nat) : Bool := (ctxAreas s c x).any fun p => spdWin c + p.2.1 ≤ rg.1 && rg.1 + rg.2 ≤ spdWin c + p.2.2
  (rs.foldl (fun (q : State × Nat) rg =>
    let bs := viewBytes from_ (a + q.2) rg.2
    (if isOpen rg then (writeBytes q.1 { path := 8 } rg.1 bs).1 else q.1, q.2 + rg.2)) (s, 0)).1

/-- A displaced member that has the core again gets its live ranges back (R403 step 4, R407), once the saved bytes have
arrived in memory, and the reads of them have been served where a channel computes. -/
def restoreLive (s : State) (c x n : Nat) : State :=
  let m := (getCtx s c 0 x).member
  let ga := saveSlot s n m + 256
  match (getRing s n).saved.getD m none with
  | none => s
  | some rs =>
    let len := (rs.map (·.2)).foldl (· + ·) 0
    let f := (ringFold s n).getD 16
    if saveHeld s n (gLoc ga) len || !(regOk s f ga len false) then s
    else
      match askRead s (.core c) (ringFold s n) (ownRuns s [(ga, len)]) with
      | (s, none) => s
      | (s, some got) =>
        let s := (onCaps (regPay s f ga len false) got fun u => (copyBack u c x (gLoc ga) rs, ())).1
        dropAsks (setRing s n { getRing s n with saved := lset (getRing s n).saved m none }) (.core c)

/-- The incoming context of classes 1-3 takes every queue, under a class-0 context where one holds it. -/
def bindQueues (s : State) (c x : Nat) : State :=
  let k := getCore s c
  setCore s c { k with
    cur := (k.cur.zip k.displaced).map fun p => if p.2.isSome then p.1 else some x
    displaced := k.displaced.map fun d => d.map fun _ => some x
    changed := s.time }

/-- What a suspended command found in the general entries is gone for its reader too (R68, R95). -/
def forgetTypes (s : State) (c : Nat) : State :=
  (List.range 6).foldl (fun t x =>
    let k := getCtx t c 0 x
    match k.run with
    | some r => setCtx t c 0 x { k with run := some { r with tys := r.tys.filter fun p => p.1 < accKey c 0 || accKey c 59 < p.1 } }
    | none => t) s

/-- General entries zero and UNSET, and GEN_CLEARED (R68). -/
def clearGeneral (s : State) (c : Nat) : State :=
  ror (forgetTypes (accKill s c (List.range 60)) c) (coreReg c 0xC40) 8

/-- Bytes of live ranges that the displacement of the member of context y saves (R401, R404). -/
def liveSaved (s : State) (c y o : Nat) : Nat := if 2 ≤ ringClass s o then liveLen s c y else 0

/-- The live ranges of the member of context y and its switch record fit its save slot (R404). -/
def liveFits (s : State) (c y o : Nat) : Bool := 256 + liveSaved s c y o ≤ saveStride s o

/-- The incoming ring n has the core in context x (R403 steps 3 and 4): where another ring's context had the matrix queue
before, the general entries are cleared (R68), and a member that was displaced before finds every byte but its live ranges
unspecified (R407). -/
def switchIn (s : State) (c n x : Nat) : State :=
  let s := if (getCore s c).matrixRing.getD n = n then s else clearGeneral s c
  let s := bindQueues s c x
  let s := setCore s c { getCore s c with running := some (n, x), matrixRing := some n, request := none, quantum := s.time }
  let s := if notRestored s n (getCtx s c 0 x).member then loseSpd s c x else s
  restoreLive s c x n

/-- RING_SWITCH (R403): at a full mark or a quiescent point the core goes to the ring that it would ask for now (R402); a
core that runs none takes that ring at once; a ring that waits for its live ranges gets them. -/
def execRingSwitch (c : Nat) (s : State) : Out State :=
  onCore s c <|
  let k := getCore s c
  match k.running with
  | none =>
    match nextRing s c 65535 with
    | some (n, x) => .next (switchIn s c n x)
    | none => .next s
  | some (o, y) =>
    if notRestored s o (getCtx s c 0 y).member then .next (restoreLive s c y o)
    else if k.request.isNone || !(fullMark s c y) then .next s
    else
      match (wantSwitch s c).bind fun n => (ringCtx s c n).map fun x => (n, x) with
      | none => .next (setCore s c { k with request := none })
      | some (n, x) =>
        if !(liveFits s c y o) then .next (ror s (drvReg 8) 2)
        else
          let s := writeSwitch s c y o (if quiescent s c y then 2 else 1) (liveSaved s c y o)
          .next (rinc (switchIn (saveLive s c y o) c n x) (drvReg 0x10) 1)

/-- SWITCH_WITHDRAW (R406): a switch point that has been reached wins (R414). -/
def execSwitchWithdraw (c : Nat) (s : State) : Out State :=
  onCore s c <|
  let k := getCore s c
  let w := Config.tick * fld (rget s (drvReg 0)) 31 16
  match k.request with
  | none => .next s
  | some (_, t) =>
    let reached := match k.running with | some (o, y) => fullMark s c y && liveFits s c y o | none => true
    if w ≠ 0 ∧ t + w ≤ s.time ∧ !reached then
      let q := match k.running with | some (n, _) => quantumOf s n | none => 0
      .next (rinc (setCore s c { k with request := none, retry := s.time + q }) (drvReg 0x20) 1)
    else .next s

/-! ## Class-0 take-over (R408) -/

/-- The queue stands at a take-over point for the context that it would displace; the firmware context stops at the points
of class 1. -/
def takePoint (s : State) (c q : Nat) : Bool :=
  match curCtx s c q with
  | none => true
  | some y =>
    let k := getCtx s c q y
    let cls := ringClass s k.ring
    q == 0 || q == 2 || cls == 1 || y == 7 || (k.run.isNone && (k.buf.isEmpty || k.atMark))

/-- The context that takes queue q: the class-0 context where it has a command, else the firmware context (R396, R408). -/
def taker (s : State) (c q : Nat) : Option Nat :=
  [6, 7].find? fun x => let z := getCtx s c q x; z.bound && !z.halted && !z.suspended && (!z.buf.isEmpty || z.run.isSome)

/-- CLASS0_TAKEOVER: the class-0 or the firmware context takes a queue for which it has a command; the displaced context's
positions go into a switch record with cause 3. -/
def execClass0Takeover (c q : Nat) (s : State) : Out State :=
  onCore s c <|
  if 4 ≤ q then .fault .noSuchUnit
  else
    let k := getCore s c
    match taker s c q with
    | none => .next s
    | some z =>
      if curCtx s c q = some z ∨ curCtx s c q = some 6 ∨ !(takePoint s c q) then .next s
      else
        let s := match curCtx s c q with
          | some y => if y < 6 then writeSwitch s c y (getCtx s c q y).ring 3 0 else s
          | none => s
        let below := (k.displaced.getD q none).getD (k.cur.getD q none)
        -- the first command of a class-0 take-over issues without the wait of the issue rate (R540)
        let slow := if z = 6 then lset k.slow q 0 else k.slow
        let k' := { k with displaced := lset k.displaced q (some below), cur := lset k.cur q (some z), changed := s.time, slow := slow }
        .next (if z = 6 then rinc (setCore s c k') (drvReg 0x18) 1 else setCore s c k')

/-- CLASS0_RELEASE: a taking context whose queues are all idle gives each queue back to the context it was taken from; the
urgent entries are cleared (R69). -/
def execClass0Release (c : Nat) (s : State) : Out State :=
  onCore s c <|
  let k := getCore s c
  let done (v : Option Nat) : Bool := (v == some 6 && quiescent s c 6) || (v == some 7 && quiescent s c 7)
  let ps := k.cur.zip k.displaced
  if !(ps.any fun p => p.2.isSome && done p.1) then .next s
  else
    let s := if (k.displaced.getD 0 none).isSome && quiescent s c 6 && k.cur.getD 0 none == some 6 then accKill s c (rangeFrom 60 4) else s
    let cur := ps.map fun p => match p.2 with | some v => if done p.1 then v else p.1 | none => p.1
    let dis := ps.map fun p => if done p.1 then none else p.2
    .next (setCore s c { k with cur := cur, displaced := dis, changed := s.time })

/-! ## Deadlock detection (R200-R202) -/

/-- How a queue is blocked: the queues its edges lead to, since when, its cause and detail, and whether it holds a
command. -/
structure Block where
  edges : List Nat
  since : Nat
  cause : Nat
  detail : Nat
  holds : Bool

/-- Another context of the queue is ready to run. -/
def otherReady (s : State) (c q x : Nat) : Bool :=
  (List.range 8).any fun y =>
    y != x &&
    let k := getCtx s c q y
    k.bound && !k.halted && !k.suspended && (!k.buf.isEmpty || k.run.isSome || readyOn s k.ring c)

/-- The queue whose full buffer stops the fetch of a context's stream (R177): the one that the command line which the fetch
unit holds names. -/
def stallQ (s : State) (c x : Nat) : Option Nat :=
  let k := getCtx s c 0 x
  let line := (getRing s k.ring).line.getD k.member []
  let e := cEngine (cmdOf line)
  if mayFetch s k.ring k.member && !line.isEmpty && e < 4 && 32 ≤ (getCtx s c e x).buf.length then some e else none

/-- The time since which a held WAIT's edge stands. -/
def edgeSince (r : Run) : Nat := if opcode (heldCmd r) = 0xF3 then max (heldSince r) r.aux else heldSince r

/-- How queue q is blocked (R200). One that runs a launch, holds a waiting record (R399) or stands at a mark of a switch
(R406) is not. -/
def blockOf (s : State) (c q : Nat) : Option Block :=
  match curCtx s c q with
  | none => none
  | some x =>
    let k := getCtx s c q x
    if k.halted || k.suspended || !k.opens.isEmpty || !k.waiting.isEmpty || heldAtMark s c x k || otherReady s c q x then none
    else
      match k.run with
      | some r =>
        let m := heldCmd r
        if !r.held then none
        else if opcode m = 0xF3 then
          let f := fld m.w2 7 0
          if flN m ≤ (getFlag s c f).toNat then none
          else some { edges := [flagOwner f], since := edgeSince r, cause := 1, detail := f, holds := true }
        else if opcode m = 0xF1 then
          let n := hurId m
          let es := (List.range 4).filter fun p => (hurMask m).testBit p && tget 0 (getCtx s c p x).hurdles n < r.aux
          if es.isEmpty then none else some { edges := es, since := edgeSince r, cause := 2, detail := n, holds := true }
        else none
      | none =>
        if !k.buf.isEmpty then none
        else (stallQ s c x).map fun e => { edges := [e], since := (getCtx s c e x).fullAt, cause := 3, detail := 0, holds := false }

/-- Queues that n steps along the edges reach from q. -/
def reachQ (bs : List (Option Block)) : Nat → List Nat → List Nat
  | 0, l => l
  | n + 1, l =>
    reachQ bs n ((l ++ l.flatMap fun q => match bs.getD q none with | some b => b.edges.filter (fun p => (bs.getD p none).isSome) | none => []).eraseDups)

/-- The tag at which the next queue of the cycle stands (R201). -/
def standTag (s : State) (c : Nat) (bs : List (Option Block)) (p : Nat) : Nat :=
  match curCtx s c p with
  | none => 0
  | some x =>
    let k := getCtx s c p x
    match bs.getD p none, k.run with
    | some b, some r => if b.holds then cTag (heldCmd r) else 0
    | some b, none => match b.edges.head? with
      | some e => match (getCtx s c e x).buf.getLast? with | some m => cTag m | none => 0
      | none => 0
    | _, _ => 0

/-- A held command faults where it stands, without the rest of R206. -/
def faultHeld (s : State) (w : Who) (status : Nat) (why : Why) : State :=
  let x := getCtx s w.core w.q w.ctx
  match x.run with
  | none => s
  | some r =>
    let b := x.blk.getD {}
    if opcode r.cmd = 0x05 ∧ w.q = 3 then faultQueue s w r.cmd (cTag (heldCmd r)) status b.pos 0 b.done why
    else faultQueue s w r.cmd (cTag r.cmd) status 0 0 0 why

/-- DEADLOCK_CONFIRM (R201): a cycle of blocked queues that has held for 1 µs since its last edge formed or the contexts of
the core's queues last changed; each of its queues that holds a command
faults it. -/
def execDeadlockConfirm (c : Nat) (s : State) : Out State :=
  onCore s c <|
  let bs := (List.range 4).map (blockOf s c)
  let after (q : Nat) : List Nat := match bs.getD q none with | some b => reachQ bs 4 (b.edges.filter fun p => (bs.getD p none).isSome) | none => []
  let cyc := (List.range 4).filter fun q => (after q).contains q
  match cyc with
  | [] => .next s
  | q0 :: _ =>
    -- the queues on cycles through the first of them
    let mem := cyc.filter fun q => q == q0 || ((after q0).contains q && (after q).contains q0)
    let old := mem.all fun q => match bs.getD q none with | some b => Config.tick + max b.since (getCore s c).changed ≤ s.time | none => false
    if !old then .next s
    else
      let holders := mem.filter fun q => match bs.getD q none with | some b => b.holds | none => false
      let one (t : State) (q : Nat) : State :=
        match bs.getD q none, curCtx s c q with
        | some b, some x =>
          let p := (b.edges.find? (mem.contains ·)).getD 0
          -- a fetch edge names the last command of the full buffer
          faultHeld t (whoOf s c q x) stDeadlock { otherTag := standTag s c bs p, otherQ := p, detail := b.detail, cause := b.cause }
        | _, _ => t
      let s1 := ror (holders.foldl one s) (coreReg c 0x880) 2
      let xs := (holders.filterMap (curCtx s c)).eraseDups
      .next (xs.foldl (fun t x =>
        let mine := holders.filter fun q => curCtx s c q == some x
        faultRing t (whoOf s c (mine.headD 0) x) mine) s1)

end Sys2Proof.Machine
end

