-- ==== Sys2Proof/Machine/Service.lean ====
section
/-! DEFINITION. Commands of service rings (R334, R411): their acceptance in ring order and their records, and the ring
commands of R412. -/

namespace Sys2Proof.Machine

/-! ## Acceptance and records -/

/-- FW_FATAL is set: no service command is accepted (R433). -/
def fwFatal (s : State) : Bool := bit (rget s (eccReg 8)) 4

/-- A service command as firmware has it: its ring, the fold of the ring (none for ring 65,535), and its words. -/
structure Svc where
  ring : Nat
  fold : Option Nat
  cmd : Cmd

/-- What serving a command comes to. -/
inductive SvcOut where
  /-- it ends with a status and a COUNT -/
  | done (s : State) (status count : Nat)
  /-- it is accepted and ends later under its number -/
  | accept (s : State) (go : State → Nat → State)
  /-- it waits where it stands: of its state only the reads that have gone out remain -/
  | wait (s : State)

/-- Opcodes of the serving engine (R334, R377, R384, R411) and of the management engine (R412, R518, R529). -/
def svcDefined (tgt op : Nat) : Bool :=
  if tgt = 1 then (0x10 ≤ op && op ≤ 0x16) || op == 0x18 || op == 0x19
  else (0x20 ≤ op && op ≤ 0x23) || (0x30 ≤ op && op ≤ 0x32)

/-- The checks on words 0 and 1 that every service command has (R180, R182, R334, R411). -/
def svcHeaderBad (tgt : Nat) (k : Cmd) : Bool :=
  cEngine k != (if tgt = 1 then 4 else 5) || !(svcDefined tgt (opcode k)) || cSigen k || cYmark k || cTrace k || cSigflag k != 0 ||
  fld k.w0 15 11 != 0 || fld k.w0 23 20 != 0 || k.w1 != 0

/-- The ring may have its next command served: no earlier one is under way in the drover (R411), it is enabled, its member neither halted nor suspended, it has unfetched
commands, room for records (R399), and firmware serves (R433, R546). -/
def svcReady (s : State) (n : Nat) : Bool :=
  let r := getRing s n
  (r.state == 1 || r.state == 3) && !(r.halted.getD 0 false) && !(r.suspended.getD 0 false) && r.fetch.getD 0 0 != r.tail.getD 0 0 &&
  r.acting.isNone && r.waiting.isEmpty && cplRoom s n && !(fwFatal s) && s.power.sd.isNone

/-- An uncorrectable command line on a service ring (R207, R431): the record of the fetch unit, and the halt. -/
def svcFetchFault (s : State) (n st : Nat) : State :=
  let r : Rec := { tag := 0, status := st, engine := 7, context := 0, core := 255, count := (getRing s n).fetch.getD 0 0 }
  haltMember (emitSvc s n r) n 0

/-- Of an operation that cannot go on, its reads that have gone out remain. -/
def heldReads (o : Owner) (s t : State) : State :=
  (t.asks.filter fun k => k.owner == o && !(s.asks.any fun j => j.id == k.id)).foldl (fun u k => askStart u o k.fold k.runs) s

/-- A row of a service command: the front command of ring n, of target tgt and opcode op (R334, R411). `bad` is its
format, `go` its effect. -/
def svcRow (tgt op : Nat) (bad : Cmd → Bool) (go : State → Svc → SvcOut) (n : Nat) (s : State) : Out State :=
  if ringTarget s n ≠ tgt ∨ !(svcReady s n) then .next s
  else
    match fetchLine s n 0 with
    | .held s' => .next s'
    | .bad s' st => .next (svcFetchFault s' n st)
    | .ok s' bs =>
      let k := cmdOf bs
      if opcode k ≠ op ∧ svcDefined tgt (opcode k) ∧ cEngine k = (if tgt = 1 then 4 else 5) then .next s
      else if svcHeaderBad tgt k ∨ bad k then
        let t := svcTake s' n k
        .next (svcEnd t.1 n t.2 stFormat 0)
      else
        match go s' { ring := n, fold := if n = 65535 then none else ringFold s' n, cmd := k } with
        | .wait s'' => .next (keepLine (heldReads (.service n) s' s'') n 0 bs)
        | .done s'' st c =>
          let t := svcTake (dropAsks s'' (.service n)) n k
          .next (svcEnd t.1 n t.2 st c)
        | .accept s'' f =>
          let t := svcTake (dropAsks s'' (.service n)) n k
          .next (f t.1 t.2)

/-! ## Ring commands (R412, R414) -/

def rcRing (k : Cmd) : Nat := fld k.w2 15 0
def rcBad (k : Cmd) : Bool := fld k.w2 63 25 != 0 || !(tailZero k)

/-- The members that a ring command names. -/
def rcMembers (s : State) (k : Cmd) : List Nat :=
  if bit k.w2 24 then List.range (ringMembers s (rcRing k)) else [fld k.w2 23 16]

/-- The checks that the ring commands share, in the order of R412. -/
def rcCheck (s : State) (v : Svc) : Option Nat :=
  let n := rcRing v.cmd
  let r := getRing s n
  if v.ring ≠ 65535 ∧ (ringFold s n).isNone ∨ (v.fold.isSome ∧ ringFold s n ≠ v.fold) then some stAccess
  else if !(bit v.cmd.w2 24) ∧ ringMembers s n ≤ fld v.cmd.w2 23 16 then some stFormat
  else if r.state = 0 ∨ r.state = 4 ∨ n = v.ring then some stRejState
  else none

/-- STATE of a ring whose members' conditions have changed: HALTED where one is halted, else SUSPENDED where one is
suspended, else ENABLED (log entry 48). -/
def ringRestate (s : State) (n : Nat) : State :=
  let r := getRing s n
  if r.state = 0 ∨ r.state = 4 then s
  else setRing s n { r with state := if r.halted.any id then 3 else if r.suspended.any id then 2 else 1 }

/-- The contexts of one member, per queue. -/
def memberCtxs (s : State) (n m : Nat) : List (Nat × Nat × Nat) :=
  if ringTarget s n ≠ 0 then []
  else match ringCtx s (ringFirst s n + m) n with
    | some x => (List.range 4).map fun q => (ringFirst s n + m, q, x)
    | none => []

/-- Something of a member's queues still runs in the launch unit (R145, R412). -/
def launchesRun (s : State) (n m : Nat) : Bool :=
  (memberCtxs s n m).any fun p => (getCtx s p.1 p.2.1 p.2.2).opens.any fun o => o.fin.isNone && !o.runs

def setSuspended (s : State) (n m : Nat) (b : Bool) : State :=
  let s := setRing s n { getRing s n with suspended := lset (getRing s n).suspended m b }
  (memberCtxs s n m).foldl (fun t p => setCtx (stir t p.1) p.1 p.2.1 p.2.2 { getCtx t p.1 p.2.1 p.2.2 with suspended := b }) s

/-- RING.SUSPEND (R412): the named members stop at once at the points where they stand between the rows of the model;
the command ends when their launches have completed. -/
def execRingSuspend (n : Nat) (s : State) : Out State :=
  match (getRing s n).acting with
  | some (id, k) =>
    let ms := rcMembers s k
    if ms.any (launchesRun s (rcRing k)) then .next s
    else .next (svcEnd (setRing s n { getRing s n with acting := none }) n id stSuspended ms.length)
  | none =>
    svcRow 2 0x20 rcBad (fun s v =>
      match rcCheck s v with
      | some st => .done s st 0
      | none =>
        let g := rcRing v.cmd
        let ms := rcMembers s v.cmd
        if ms.all (fun m => (getRing s g).suspended.getD m false) then .done s stAlready 0
        else
          let s := ringRestate (ms.foldl (fun t m => setSuspended t g m true) s) g
          if ms.any (launchesRun s g) then
            .accept s fun s id => setRing s n { getRing s n with acting := some (id, v.cmd) }
          else .done s stSuspended ms.length) n s

/-- RING.RESUME (R412). -/
def execRingResume (n : Nat) (s : State) : Out State :=
  svcRow 2 0x21 rcBad (fun s v =>
    match rcCheck s v with
    | some st => .done s st 0
    | none =>
      let g := rcRing v.cmd
      let ms := rcMembers s v.cmd
      if !(ms.any fun m => (getRing s g).suspended.getD m false) then .done s stAlready 0
      else .done (ringRestate (ms.foldl (fun t m => setSuspended t g m false) s) g) stOk 0) n s

/-- RING.CANCEL (R412, R414): commands end or are discarded, and a suspended member becomes ENABLED and empty. -/
def execRingCancel (n : Nat) (s : State) : Out State :=
  svcRow 2 0x22 rcBad (fun s v =>
    match rcCheck s v with
    | some st => .done s st 0
    | none =>
      let g := rcRing v.cmd
      let ms := rcMembers s v.cmd
      let count := (ms.map (unfetched s g)).foldl (· + ·) 0
      let s := ms.foldl (fun t m => setSuspended (cancelMember t g m) g m false) s
      .done (ringRestate s g) stOk count) n s

/-- RING.RESTART (R412): for the halted members among those named. -/
def execRingRestart (n : Nat) (s : State) : Out State :=
  svcRow 2 0x23 rcBad (fun s v =>
    match rcCheck s v with
    | some st => .done s st 0
    | none =>
      let g := rcRing v.cmd
      let ms := (rcMembers s v.cmd).filter fun m => (getRing s g).halted.getD m false
      if ms.isEmpty then .done s stAlready 0
      else
        let count := (ms.map (unfetched s g)).foldl (· + ·) 0
        let one (t : State) (m : Nat) : State :=
          let r := getRing t g
          let t := setRing (discard t g m) g { getRing (discard t g m) g with halted := lset r.halted m false }
          (memberCtxs t g m).foldl (fun u p => setCtx u p.1 p.2.1 p.2.2 { getCtx u p.1 p.2.1 p.2.2 with halted := false }) t
        .done (ringRestate (ms.foldl one s) g) stOk count) n s

end Sys2Proof.Machine
end

