-- ==== Sys2Proof/Machine/Vector.lean ====
section
/-! DEFINITION. The vector engine's elementwise commands (R51-R57, R152-R161, R168, R597): VEW, VFUNC, VRED, VCVT,
VPERM, and the plan every vector command is made of. -/

namespace Sys2Proof.Machine

/-! ## Word 2 (R155) -/

def vSub (k : Cmd) : Nat := fld k.w2 7 0
def vSf (k : Cmd) : Nat := fld k.w2 11 8
def vDf (k : Cmd) : Nat := fld k.w2 15 12
def vRnd (k : Cmd) : Nat := fld k.w2 17 16
def vSatn (k : Cmd) : Bool := bit k.w2 18
def vSmx (k : Cmd) : Bool := bit k.w2 19
def vDmx (k : Cmd) : Bool := bit k.w2 20
def vCplx (k : Cmd) : Bool := bit k.w2 21
def vLen (k : Cmd) : Nat := fld k.w2 55 32

/-- What every vector command refuses (R52, R155): reserved bits, format codes 0xE and 0xF, RND 2 and 3. -/
def vBase (k : Cmd) : Bool :=
  fld k.w2 31 22 != 0 || fld k.w2 63 56 != 0 || 13 < vSf k || 13 < vDf k || 1 < vRnd k

/-- FP64, FP32, BF16 and FP16, the formats of VEW and VRED (R157, R159). -/
def vFloat (c : Nat) : Bool := c == 0xD || c == 0xA || c == 0x8 || c == 0x9

/-- The lanes of R153. -/
def vLanes (a b : Nat) : Nat := if a = 0xD ∨ b = 0xD then 32 else if isHalf a && isHalf b then 128 else 64

/-- The floating-point format of a code that has one. -/
def ffmt (c : Nat) : FFmt := (fltOf c).getD fp32

/-! ## Plans -/

/-- What a repeat writes: rows in order, the exceptions raised, the draws taken, its COUNT (R597). -/
structure VOut where
  writes : List (Nat × List Byte)
  flags : NumFlags := 0
  draws : Nat := 0
  count : Nat

/-- One repeat of a vector command: the ranges checked (R152), the byte runs it loads and stores (local address and
length), and what it does; a fault of its own comes before anything is written. -/
structure VPlan where
  rngs : List Rng
  loads : List (Nat × Nat)
  stores : List (Nat × Nat)
  run : State → Except Nat VOut

/-- A range of a vector command: it must lie in the core's own window (R152). -/
def vRng (s : State) (w : Who) (k : Cmd) (role len : Nat) (write : Bool) : Rng :=
  let r := roleAr s w k role
  { addr := arAddr r, len := len, ar := some r, write := write, own := true }

/-- Local address of a role. -/
def vAt (s : State) (w : Who) (k : Cmd) (role : Nat) : Nat := gLoc (arAddr (roleAr s w k role))

/-- One repeat: the checks, the loads with their codes (R431), the result, the stores (R227), the exceptions (R57). -/
def vecRep (plan : State → Who → Cmd → VPlan) (s : State) (w : Who) (k : Cmd) (_ : Run) : RepOut :=
  let p := plan s w k
  match checkRanges s w p.rngs with
  | some st => .fault s st 0
  | none =>
    let t := eccTouch s (meetOf w k 5) (p.loads.flatMap fun l => unitsOf l.1 l.2)
    match t.2 with
    | some _ => .fault (scramble t.1 p.stores) stUncorr 0
    | none =>
      match p.run t.1 with
      | .error st => .fault t.1 st 0
      | .ok o =>
        let s := srTake (raiseNum t.1 w.core o.flags) w.core (vRnd k) o.draws
        let r := writeRows (meetOf w k 8) o.writes s
        match r.2 with
        | some _ => .fault r.1 stUncorr 0
        | none => .done r.1 o.count

/-- Lanes of VPERM, set by the element's width (R161). -/
def permLanes (k : Cmd) : Nat := if vSf k = 0xD then 32 else if isHalf (vSf k) then 128 else 64

/-- Cycles of a repeat (R156, R168); LEN is that of the command, k of TOPK and s of the slices the fields of their own words. -/
def vecCycles (k : Cmd) : Nat :=
  let n := vLen k
  let w := vLanes (vSf k) (vDf k)
  let s := fld k.w4 35 32
  match opcode k with
  | 0x01 => if vCplx k then cdiv (2 * n) w * (if 12 ≤ vSub k then 2 else 1) else cdiv n w * (if vSub k = 8 ∨ vSub k = 9 then 8 else 1)
  | 0x02 => cdiv n w * 4
  | 0x03 => cdiv n w + 8
  | 0x04 => cdiv n w
  | 0x05 => n / permLanes k
  | 0x08 => 4 * n + 16 + (if bit k.w2 1 then 8 else 0)
  | 0x09 => 2 * cdiv n 64 + 4 * fld k.w5 10 0 + 64
  | 0x0A => if vSub k = 1 then 4 * (s + 2) * n else 4 * n
  | 0x0B => 512 * (pairCount s + 2)
  | _ => 5 * cdiv n (if vSf k = 0xD then 8 else 16)

/-- A vector command from its own format check, its roles and its plan (R155, R156). -/
def vecEng (bad : Cmd → Bool) (roles : Cmd → List Nat) (plan : State → Who → Cmd → VPlan) : Eng :=
  { roles := roles
    check := fun _ _ k => if vBase k || bad k then some stFormat else none
    zero := fun k => vLen k == 0
    rep := vecRep plan
    cycles := vecCycles }

/-- n elements of format c at local address a. -/
def vGet (s : State) (c a n : Nat) : List Nat := unpack (eltBits c) n (viewBytes s a (rowBytes (eltBits c) n))

/-- Exact values encoded one after another with RND and SATN (R153): the encodings and flags. -/
def vPut (s : State) (core : Nat) (k : Cmd) (vs : List (XVal × NumFlags)) : List (Nat × NumFlags) :=
  ((List.range vs.length).zip vs).map fun p =>
    let r := eltEnc (vDf k) (srAt s core (vRnd k) p.1) (vSatn k) p.2.1
    (r.1, p.2.2 ||| r.2)

/-! ## VEW (R157, R168) -/

/-- Some operand is NaN, the greater or the lesser otherwise, -0 below +0 (R157). -/
def vMax (a b : XVal) : XVal :=
  if xIsNaN a || xIsNaN b then .nan
  else if xLt a b then b
  else if xLt b a then a
  else if xneg? a then b else a

def vMin (a b : XVal) : XVal :=
  if xIsNaN a || xIsNaN b then .nan
  else if xLt a b then a
  else if xLt b a then b
  else if xneg? a then a else b

def vewUsesB (k : Cmd) : Bool := !(vSub k == 5 || vSub k == 9 || vSub k == 10 || vSub k == 11)

def vewRoles (k : Cmd) : List Nat :=
  [0] ++ (if vewUsesB k then [1] else []) ++ (if vSub k = 3 then [2] else []) ++ [3]

def vewBad (k : Cmd) : Bool :=
  13 < vSub k || !(vFloat (vSf k)) || !(vFloat (vDf k)) || vSmx k || vDmx k ||
  (vCplx k && (!([0, 1, 4, 5, 12, 13].contains (vSub k)) || (vSf k != 0xA && vSf k != 0xD) || (vDf k != 0xA && vDf k != 0xD))) ||
  (!(vCplx k) && (vSub k == 12 || vSub k == 13)) ||
  (k.w3 != 0 && vSub k != 4 && vSub k != 5) || (k.w4 != 0 && vSub k != 5) || k.w5 != 0 || k.w6 != 0 || k.w7 != 0

/-- The exact result of one real element (R157). -/
def vewElt (k : Cmd) (a b c : XVal) : XVal × NumFlags :=
  let ia := fdec fp64 k.w3.toNat
  let ib := fdec fp64 k.w4.toNat
  match vSub k with
  | 0 => xAdd a b
  | 1 => xAdd a (xNeg b)
  | 2 => xMul a b
  | 3 => xFma a b c
  | 4 => xFma ia a b
  | 5 => xFma ia a ib
  | 6 => (vMax a b, 0)
  | 7 => (vMin a b, 0)
  | 8 => xDiv a b
  | 9 => xSqrt a
  | 10 => (xAbs a, 0)
  | _ => (xNeg a, 0)

/-- The exact complex product, of conj(b) where asked (R168). -/
def cMul (conj : Bool) (ar ai br bi : XVal) : List (XVal × NumFlags) :=
  let bi := if conj then xNeg bi else bi
  let p (x y z t : XVal) (neg : Bool) : XVal × NumFlags :=
    let m := xMul x y
    let n := xMul z t
    let r := xAdd m.1 (if neg then xNeg n.1 else n.1)
    (r.1, opFlags [x, y, z, t] (m.2 ||| n.2 ||| r.2))
  [p ar br ai bi true, p ar bi ai br false]

def vewPlan (s : State) (w : Who) (k : Cmd) : VPlan :=
  let n := if vCplx k then 2 * vLen k else vLen k
  let sb := rowBytes (eltBits (vSf k)) n
  let db := rowBytes (eltBits (vDf k)) n
  let ins := [0] ++ (if vewUsesB k then [1] else []) ++ (if vSub k = 3 then [2] else [])
  { rngs := ins.map (fun r => vRng s w k r sb false) ++ [vRng s w k 3 db true]
    loads := ins.map fun r => (vAt s w k r, sb)
    stores := [(vAt s w k 3, db)]
    run := fun s =>
      let src (r : Nat) : List XVal := (vGet s (vSf k) (vAt s w k r) n).map (eltVal (vSf k))
      let a := src 0
      let b := if vewUsesB k then src 1 else a
      let c := if vSub k = 3 then src 2 else a
      let vs :=
        if vSub k = 12 ∨ vSub k = 13 then
          (List.range (vLen k)).flatMap fun i =>
            cMul (vSub k == 13) (a.getD (2 * i) .nan) (a.getD (2 * i + 1) .nan) (b.getD (2 * i) .nan) (b.getD (2 * i + 1) .nan)
        else (a.zip (b.zip c)).map fun q => vewElt k q.1 q.2.1 q.2.2
      let es := vPut s w.core k vs
      .ok { writes := [(vAt s w k 3, pack (eltBits (vDf k)) (es.map (·.1)))], flags := orFlags es, draws := n,
            count := vLen k } }

/-- VEW (R157, R168). -/
def execVew (c n : Nat) (s : State) : Out State := engineRow (vecEng vewBad vewRoles vewPlan) 1 0x01 (fun _ => true) c n s

/-! ## VFUNC (R158) -/

def vfuncBad (k : Cmd) : Bool :=
  2 < vSub k || (vSf k != 0xA && vSf k != 0xD) || !(vFloat (vDf k)) || vRnd k != 0 || vSmx k || vDmx k || vCplx k ||
  k.w3 != 0 || k.w4 != 0 || k.w5 != 0 || k.w6 != 0 || k.w7 != 0

/-- One result of VFUNC: computed with the accuracy of the source format, in the wider of the two formats, and
narrowed to DFMT where that is the narrower. -/
def vfuncElt (k : Cmd) (raw : Nat) : Nat × NumFlags :=
  let sf := ffmt (vSf k)
  let df := ffmt (vDf k)
  let mid := if sf.bits ≤ df.bits then df else sf
  let wide := vSf k == 0xD
  let v := fdec sf raw
  let r := match vSub k with
    | 0 => fExp 0 mid wide (vSatn k) raw v
    | 1 => fLog mid wide (vSatn k) raw v
    | _ => fRsqrt mid wide (vSatn k) raw v
  if mid = df then r
  else
    let e := fenc df none (vSatn k) (fdec mid r.1)
    (e.1, r.2 ||| e.2)

def vfuncPlan (s : State) (w : Who) (k : Cmd) : VPlan :=
  let n := vLen k
  let sb := rowBytes (eltBits (vSf k)) n
  let db := rowBytes (eltBits (vDf k)) n
  { rngs := [vRng s w k 0 sb false, vRng s w k 3 db true]
    loads := [(vAt s w k 0, sb)]
    stores := [(vAt s w k 3, db)]
    run := fun s =>
      let es := (vGet s (vSf k) (vAt s w k 0) n).map (vfuncElt k)
      .ok { writes := [(vAt s w k 3, pack (eltBits (vDf k)) (es.map (·.1)))], flags := orFlags es, count := n } }

/-- VFUNC (R158). -/
def execVfunc (c n : Nat) (s : State) : Out State :=
  engineRow (vecEng vfuncBad (fun _ => [0, 3]) vfuncPlan) 1 0x02 (fun _ => true) c n s

/-! ## VRED (R159) -/

def vredBad (k : Cmd) : Bool :=
  3 < vSub k || !(vFloat (vSf k)) || !(vFloat (vDf k)) || vSmx k || vDmx k || vCplx k ||
  k.w3 != 0 || k.w4 != 0 || k.w5 != 0 || k.w6 != 0 || k.w7 != 0

/-- A partial reduction: the value of a lane or node (none where it is empty), its flags, the roundings so far. -/
abbrev Red := Option XVal × NumFlags × Nat

/-- One rounding in the accumulation format. -/
def redRound (s : State) (core : Nat) (rnd : Nat) (acc : FFmt) (i : Nat) (v : XVal × NumFlags) : XVal × NumFlags :=
  let e := fenc acc (srAt s core rnd i) false v.1
  (fdec acc e.1, v.2 ||| e.2)

/-- The combination of two values: sum, max or min. -/
def redOp (sub : Nat) (a b : XVal) : XVal × NumFlags :=
  match sub with
  | 1 => (vMax a b, 0)
  | 2 => (vMin a b, 0)
  | _ => xAdd a b

/-- One lane over its elements in ascending order, from draw number d (R159). -/
def redLane (s : State) (core rnd sub : Nat) (acc : FFmt) : List XVal → Red → Red
  | [], r => r
  | x :: t, (cur, fl, d) =>
    let v : XVal × NumFlags := if sub = 3 then xMul x x else (x, 0)
    let u : XVal × NumFlags := match cur with
      | none => v
      | some a => let o := redOp sub a v.1; (o.1, v.2 ||| o.2)
    let r := redRound s core rnd acc d u
    redLane s core rnd sub acc t (some r.1, fl ||| r.2, d + 1)

/-- One level of the pairwise tree (R159). -/
def redLevel (s : State) (core rnd sub : Nat) (acc : FFmt) : List (Option XVal) → NumFlags × Nat → List (Option XVal) × NumFlags × Nat
  | a :: b :: t, (fl, d) =>
    match a, b with
    | some x, some y =>
      let r := redRound s core rnd acc d (redOp sub x y)
      let q := redLevel s core rnd sub acc t (fl ||| r.2, d + 1)
      (some r.1 :: q.1, q.2)
    | x, y =>
      let q := redLevel s core rnd sub acc t (fl, d)
      (x.or y :: q.1, q.2)
  | l, fd => (l, fd)

/-- The tree over at most 2^n lanes. -/
def redTree (s : State) (core rnd sub : Nat) (acc : FFmt) : Nat → List (Option XVal) → NumFlags × Nat → Red
  | 0, l, (fl, d) => (l.head?.join, fl, d)
  | n + 1, l, fd => let q := redLevel s core rnd sub acc l fd; redTree s core rnd sub acc n q.1 q.2

/-- Elements l, l + W, l + 2W, ... of a list. -/
def everyNth {α : Type} (w l : Nat) (xs : List α) : List α :=
  (List.range (cdiv (xs.length - l) w)).filterMap fun i => xs[l + i * w]?

/-- The reduction of R159 over w lanes; an element that is none takes no part (R164). -/
def reduce (s : State) (core rnd sub : Nat) (acc : FFmt) (w : Nat) (xs : List (Option XVal)) : Red :=
  let ls := (List.range w).foldl (fun (a : List (Option XVal) × NumFlags × Nat) l =>
    let r := redLane s core rnd sub acc ((everyNth w l xs).filterMap id) (none, a.2)
    (a.1 ++ [r.1], r.2)) ([], 0, 0)
  redTree s core rnd sub acc 7 ls.1 ls.2

def vredPlan (s : State) (w : Who) (k : Cmd) : VPlan :=
  let n := vLen k
  let sb := rowBytes (eltBits (vSf k)) n
  let db := eltBits (vDf k) / 8
  { rngs := [vRng s w k 0 sb false, vRng s w k 3 db true]
    loads := [(vAt s w k 0, sb)]
    stores := [(vAt s w k 3, db)]
    run := fun s =>
      let xs := (vGet s (vSf k) (vAt s w k 0) n).map fun r => some (eltVal (vSf k) r)
      let r := reduce s w.core (vRnd k) (vSub k) (if vSf k = 0xD then fp64 else fp32) (vLanes (vSf k) (vDf k)) xs
      let e := eltEnc (vDf k) (srAt s w.core (vRnd k) r.2.2) (vSatn k) (r.1.getD (.fin false 0 0))
      .ok { writes := [(vAt s w k 3, leBytes db e.1)], flags := r.2.1 ||| e.2, draws := r.2.2 + 1, count := 1 } }

/-- VRED (R159). -/
def execVred (c n : Nat) (s : State) : Out State :=
  engineRow (vecEng vredBad (fun _ => [0, 3]) vredPlan) 1 0x03 (fun _ => true) c n s

/-! ## VCVT (R160) -/

def vcvtBad (k : Cmd) : Bool :=
  vSub k != 0 || (vSmx k && vDmx k) || (vSmx k && !(mxAllowed (vSf k))) || (vDmx k && !(mxAllowed (vDf k))) || vCplx k ||
  k.w3 != 0 || k.w4 != 0 || k.w5 != 0 || k.w6 != 0 || k.w7 != 0

def vcvtRoles (k : Cmd) : List Nat := if vSmx k || vDmx k then [0, 2, 3] else [0, 3]

/-- The source values (R46, R47): each in its block's scale where the source is MX. -/
def vcvtSrc (s : State) (w : Who) (k : Cmd) (n : Nat) : List (XVal × NumFlags) :=
  let raws := vGet s (vSf k) (vAt s w k 0) n
  if vSmx k then
    let sc := viewBytes s (vAt s w k 2) (cdiv n 32)
    ((List.range n).zip raws).map fun p =>
      let x := e8m0 ((sc.getD (p.1 / 32) 0).toNat)
      if xIsNaN x then (.nan, nfMxNan) else ((xMul (mxVal (vSf k) p.2) x).1, 0)
  else raws.map fun r => (eltVal (vSf k) r, 0)

def vcvtPlan (s : State) (w : Who) (k : Cmd) : VPlan :=
  let n := vLen k
  let sb := rowBytes (eltBits (vSf k)) n
  let db := rowBytes (eltBits (vDf k)) n
  let nb := cdiv n 32
  { rngs := [vRng s w k 0 sb false] ++ (if vSmx k || vDmx k then [vRng s w k 2 nb (vDmx k)] else []) ++ [vRng s w k 3 db true]
    loads := [(vAt s w k 0, sb)] ++ (if vSmx k then [(vAt s w k 2, nb)] else [])
    stores := [(vAt s w k 3, db)] ++ (if vDmx k then [(vAt s w k 2, nb)] else [])
    run := fun s =>
      let vs := vcvtSrc s w k n
      if vDmx k then
        let bl := (List.range nb).zip (chunks 32 nb vs)
        let rs := bl.map fun p =>
          let xs := p.2.map (·.1)
          let sc := mxScale (mxEmax (vDf k)) xs
          let z := xIsZero (xAmax xs)
          let es := ((List.range 32).zip xs).map fun q =>
            mxEnc (vDf k) (srAt s w.core (vRnd k) (32 * p.1 + q.1)) (mxElem sc.1 z q.2)
          (es.map (·.1), sc.1, sc.2 ||| orFlags es ||| p.2.foldl (fun f v => f ||| v.2) 0)
        .ok { writes := [(vAt s w k 3, pack (eltBits (vDf k)) (rs.flatMap (·.1))),
                         (vAt s w k 2, rs.map fun r => BitVec.ofNat 8 r.2.1)]
              flags := rs.foldl (fun f r => f ||| r.2.2) 0, draws := n, count := n }
      else
        let es := vPut s w.core k vs
        .ok { writes := [(vAt s w k 3, pack (eltBits (vDf k)) (es.map (·.1)))], flags := orFlags es, draws := n, count := n } }

/-- VCVT (R160). -/
def execVcvt (c n : Nat) (s : State) : Out State := engineRow (vecEng vcvtBad vcvtRoles vcvtPlan) 1 0x04 (fun _ => true) c n s

/-! ## VPERM (R161) -/

/-- W of R161, from the element width alone. -/
def vpermW (c : Nat) : Nat := match eltBits c with | 16 => 128 | 32 => 64 | 64 => 32 | _ => 0

def vpermBad (k : Cmd) : Bool :=
  vSub k != 0 || vDf k != vSf k || vpermW (vSf k) == 0 || vLen k % max 1 (vpermW (vSf k)) != 0 || vSmx k || vDmx k || vCplx k ||
  k.w3 != 0 || k.w4 != 0 || k.w5 != 0 || k.w6 != 0 || k.w7 != 0

def vpermPlan (s : State) (w : Who) (k : Cmd) : VPlan :=
  let n := vLen k
  let wd := vpermW (vSf k)
  let nb := rowBytes (eltBits (vSf k)) n
  { rngs := [vRng s w k 0 nb false, vRng s w k 1 wd false, vRng s w k 3 nb true]
    loads := [(vAt s w k 0, nb), (vAt s w k 1, wd)]
    stores := [(vAt s w k 3, nb)]
    run := fun s =>
      let idx := (viewBytes s (vAt s w k 1) wd).map (·.toNat)
      let out := (chunks wd n (vGet s (vSf k) (vAt s w k 0) n)).flatMap fun v =>
        idx.map fun i => if i < wd then v.getD i 0 else 0
      .ok { writes := [(vAt s w k 3, pack (eltBits (vSf k)) out)], count := n } }

/-- VPERM (R161). -/
def execVperm (c n : Nat) (s : State) : Out State :=
  engineRow (vecEng vpermBad (fun _ => [0, 1, 3]) vpermPlan) 1 0x05 (fun _ => true) c n s

end Sys2Proof.Machine
end

