-- ==== Sys2Proof/Machine/VecMerge.lean ====
section
/-! DEFINITION. Softmax merge and masked top-k (R162-R165): SMERGE, TOPK and its merge form. The functions on triples,
candidates and log-sums are shared with the attention dispatcher and token choice (chapters 12, 14). -/

namespace Sys2Proof.Machine

/-! ## FP32 steps, each rounded to nearest even (R162) -/

/-- An FP32 value with the exceptions met on the way to it. -/
abbrev F32 := XVal × NumFlags

def f32R (v : F32) : F32 := let e := rne32 v.1; (fdec fp32 e.1, v.2 ||| e.2)
def f32Add (a b : F32) : F32 := let r := xAdd a.1 b.1; f32R (r.1, a.2 ||| b.2 ||| r.2)
def f32Sub (a b : F32) : F32 := f32Add a (xNeg b.1, b.2)
def f32Mul (a b : F32) : F32 := let r := xMul a.1 b.1; f32R (r.1, a.2 ||| b.2 ||| r.2)

/-- The encoding of an FP32 value. -/
def f32Enc (a : XVal) : Nat := (rne32 a).1

def f32Exp (a : F32) : F32 := let e := fExp 0 fp32 false false (f32Enc a.1) a.1; (fdec fp32 e.1, a.2 ||| e.2)
def f32Log (a : F32) : F32 := let e := fLog fp32 false false (f32Enc a.1) a.1; (fdec fp32 e.1, a.2 ||| e.2)

def negInf : XVal := .inf true
def f0 : XVal := .fin false 0 0

/-! ## SMERGE (R162, R163) -/

/-- A partial softmax triple: M, L and 128 lanes. -/
structure Triple where
  m : XVal
  l : XVal
  o : List XVal

/-- The triple in 544 bytes (R162). -/
def tripleOf (bs : List Byte) : Triple :=
  { m := f32At bs 0, l := f32At bs 1, o := (List.range 128).map fun i => f32At bs (8 + i) }

def tripleBytes (t : Triple) : List Byte :=
  leBytes 4 (f32Enc t.m) ++ leBytes 4 (f32Enc t.l) ++ leBytes 24 0 ++ t.o.flatMap fun v => leBytes 4 (f32Enc v)

def tripleInit : Triple := { m := negInf, l := f0, o := List.replicate 128 f0 }

/-- One triple joined to the running one (R162). -/
def mergeStep (a : Triple × NumFlags) (t : Triple) : Triple × NumFlags :=
  if t.m = negInf then a
  else
    let r := a.1
    let mn := vMax r.m t.m
    let f := f32Exp (f32Sub (r.m, 0) (mn, 0))
    let g := f32Exp (f32Sub (t.m, 0) (mn, 0))
    let l := f32Add (f32Mul (r.l, 0) f) (f32Mul (t.l, 0) g)
    let o := (r.o.zip t.o).map fun p => f32Add (f32Mul (p.1, 0) f) (f32Mul (p.2, 0) g)
    ({ m := mn, l := l.1, o := o.map (·.1) }, o.foldl (fun x v => x ||| v.2) (a.2 ||| l.2))

def smInit (k : Cmd) : Bool := bit k.w2 0
def smFinal (k : Cmd) : Bool := bit k.w2 1
def smStride (k : Cmd) : Nat := fld k.w5 31 0

def smergeBad (k : Cmd) : Bool :=
  3 < vSub k || vRnd k != 0 || vSf k != 0xA || !(vDf k == 0xA || (smFinal k && vDf k == 0x8)) || vSmx k || vDmx k || vCplx k ||
  k.w3 != 0 || k.w4 != 0 || fld k.w5 63 32 != 0 || k.w6 != 0 || k.w7 != 0

def smergeRoles (k : Cmd) : List Nat := if smFinal k then [0, 1, 3] else [0, 3]

/-- The outputs, LSE and EMPTY of a finished triple (R163), outputs encoded in the format of code df. -/
def smFinish (df : Nat) (satn : Bool) (t : Triple) : List Nat × Nat × Bool × NumFlags :=
  if t.m = negInf ∨ xIsZero t.l then (List.replicate 128 0, f32Enc negInf, true, 0)
  else
    let es := t.o.map fun v => let q := xDiv v t.l; let e := eltEnc df none satn q.1; (e.1, q.2 ||| e.2)
    let lse := f32Add (t.m, 0) (f32Log (t.l, 0))
    (es.map (·.1), f32Enc lse.1, false, orFlags es ||| lse.2)

def smergePlan (s : State) (w : Who) (k : Cmd) : VPlan :=
  let n := vLen k
  let st := smStride k
  let db := if smFinal k then 16 * eltBits (vDf k) else 544
  { rngs := [vRng s w k 0 ((n - 1) * st + 544) false] ++ (if smInit k then [] else [vRng s w k 3 544 false]) ++
      (if smFinal k then [vRng s w k 1 8 true] else []) ++ [vRng s w k 3 db true]
    loads := (List.range n).map (fun i => (vAt s w k 0 + i * st, 544)) ++ (if smInit k then [] else [(vAt s w k 3, 544)])
    stores := [(vAt s w k 3, db)] ++ (if smFinal k then [(vAt s w k 1, 8)] else [])
    run := fun s =>
      let start := if smInit k then tripleInit else tripleOf (viewBytes s (vAt s w k 3) 544)
      let r := ((List.range n).map fun i => tripleOf (viewBytes s (vAt s w k 0 + i * st) 544)).foldl mergeStep (start, 0)
      if smFinal k then
        let f := smFinish (vDf k) (vSatn k) r.1
        .ok { writes := [(vAt s w k 3, pack (eltBits (vDf k)) f.1), (vAt s w k 1, leBytes 8 (f.2.1 + f.2.2.1.toNat * 2 ^ 32))]
              flags := r.2 ||| f.2.2.2, count := 128 }
      else .ok { writes := [(vAt s w k 3, tripleBytes r.1)], flags := r.2, count := 1 } }

/-- SMERGE (R162, R163). -/
def execSmerge (c n : Nat) (s : State) : Out State :=
  engineRow (vecEng smergeBad smergeRoles smergePlan) 1 0x08 (fun _ => true) c n s

/-! ## TOPK (R164, R165) -/

def tkK (k : Cmd) : Nat := fld k.w5 10 0
def tkMask (k : Cmd) : Bool := bit k.w5 16
def tkBase (k : Cmd) : Nat := fld k.w6 31 0
def tkG (k : Cmd) : Nat := vLen k / max 1 (tkK k)

/-- The checks of R164 and R165 that both forms share. -/
def topkBase (k : Cmd) : Bool :=
  vDf k != 0xA || tkK k == 0 || 1024 < tkK k || fld k.w5 15 11 != 0 || fld k.w5 63 17 != 0 || fld k.w6 63 32 != 0 ||
  vSmx k || vDmx k || vCplx k || k.w3 != 0 || k.w4 != 0 || k.w7 != 0

def topkBad (k : Cmd) : Bool :=
  topkBase k || vSub k != 0 || (vSf k != 0xA && vSf k != 0x8) || 1048576 < vLen k

def topkMergeBad (k : Cmd) : Bool :=
  topkBase k || vSub k != 1 || vSf k != 0xA || vLen k == 0 || vLen k % max 1 (tkK k) != 0 || tkMask k || tkBase k != 0

/-- A candidate: logit and token. -/
abbrev Cand := XVal × Nat

/-- Descending logit, equal logits by ascending token (R164). -/
def candLe (a b : Cand) : Bool := xLt b.1 a.1 || (!(xLt a.1 b.1) && a.2 ≤ b.2)

/-- k pairs: the best candidates, then fillers (R164). -/
def topPairs (k : Nat) (cs : List Cand) : List Cand :=
  let t := (sortBy candLe cs).take k
  t ++ List.replicate (k - t.length) (negInf, 0xFFFFFFFF)

def pairBytes (l : List Cand) : List Byte := l.flatMap fun p => leBytes 4 (f32Enc p.1) ++ leBytes 4 p.2

/-- The greatest of some values that are not NaN; -∞ of none. -/
def xMaxOf (l : List XVal) : XVal := l.foldl (fun a v => if xLt a v then v else a) negInf

/-- The LSE over allowed logits, position by position (none: takes no part), reduced in the order of R159 over 64
lanes (R164): the greatest subtracted first, -∞ where nothing is allowed. -/
def lseLanes (s : State) (core : Nat) (xs : List (Option XVal)) : XVal × NumFlags :=
  let m := xMaxOf (xs.filterMap id)
  if xIsInf m then (m, 0)
  else
    let es : List (Option F32) := xs.map fun o => o.map fun v => f32Exp (f32Sub (v, 0) (m, 0))
    let r := reduce s core 0 0 fp32 64 (es.map fun o => o.map (·.1))
    let fl := es.foldl (fun f o => match o with | some v => f ||| v.2 | none => f) r.2.1
    let l := f32Add (m, 0) (f32Log (r.1.getD f0, fl))
    (l.1, l.2)

/-- The LSE of a list in its own order (R165). -/
def lseList (xs : List XVal) : XVal × NumFlags :=
  let m := if xs.any xIsNaN then .nan else xMaxOf xs
  if m = negInf then (negInf, 0)
  else f32Add (m, 0) (f32Log (xs.foldl (fun a v => f32Add a (f32Exp (f32Sub (v, 0) (m, 0)))) (f0, 0)))

/-- The selection of R164 over logits in token order with an allowed bit each: the pairs, LSE, allowed and NaN
counts. -/
def topkSelect (s : State) (core k base : Nat) (xs : List (XVal × Bool)) : List Cand × (XVal × NumFlags) × Nat × Nat :=
  let ok : List (Option XVal) := xs.map fun p => if p.2 && !(xIsNaN p.1) then some p.1 else none
  let cs := ((List.range ok.length).zip ok).filterMap fun p => p.2.map fun v => (v, p.1)
  ((topPairs k cs).map fun p => if p.2 = 0xFFFFFFFF then p else (p.1, (p.2 + base) % 2 ^ 32),
    lseLanes s core ok, cs.length, (xs.filter fun p => xIsNaN p.1).length)

/-- The record of R164. -/
def topkRecord (lse : XVal) (allowed nans : Nat) : List Byte :=
  leBytes 4 (f32Enc lse) ++ leBytes 4 (allowed % 2 ^ 32) ++ leBytes 4 (nans % 2 ^ 32) ++ leBytes 4 0

def topkPlan (s : State) (w : Who) (k : Cmd) : VPlan :=
  let n := vLen k
  let sb := rowBytes (eltBits (vSf k)) n
  let mb := cdiv n 8
  { rngs := [vRng s w k 0 sb false] ++ (if tkMask k then [vRng s w k 1 mb false] else []) ++
      [vRng s w k 2 16 true, vRng s w k 3 (8 * tkK k) true]
    loads := [(vAt s w k 0, sb)] ++ (if tkMask k then [(vAt s w k 1, mb)] else [])
    stores := [(vAt s w k 3, 8 * tkK k), (vAt s w k 2, 16)]
    run := fun s =>
      let xs := (vGet s (vSf k) (vAt s w k 0) n).map (eltVal (vSf k))
      let bm := if tkMask k then leNat (viewBytes s (vAt s w k 1) mb) else 2 ^ n - 1
      let r := topkSelect s w.core (tkK k) (tkBase k) ((xs.zip (List.range n)).map fun p => (p.1, bm.testBit p.2))
      .ok { writes := [(vAt s w k 3, pairBytes r.1), (vAt s w k 2, topkRecord r.2.1.1 r.2.2.1 r.2.2.2)]
            flags := r.2.1.2, count := tkK k } }

/-- TOPK with SUB = 0 (R164); any SUB but 1 is this row's. -/
def execTopk (c n : Nat) (s : State) : Out State :=
  engineRow (vecEng topkBad (fun k => if tkMask k then [0, 1, 2, 3] else [0, 2, 3]) topkPlan) 1 0x09 (fun k => vSub k != 1) c n s

def topkMergePlan (s : State) (w : Who) (k : Cmd) : VPlan :=
  let n := vLen k
  let g := tkG k
  { rngs := [vRng s w k 0 (8 * n) false, vRng s w k 1 (16 * g) false, vRng s w k 2 16 true, vRng s w k 3 (8 * tkK k) true]
    loads := [(vAt s w k 0, 8 * n)] ++ (List.range g).map fun i => (vAt s w k 1 + 16 * i, 12)
    stores := [(vAt s w k 3, 8 * tkK k), (vAt s w k 2, 16)]
    run := fun s =>
      let raw := unpack 64 n (viewBytes s (vAt s w k 0) (8 * n))
      let cs : List Cand := (raw.map fun p => (fdec fp32 (p % 2 ^ 32), p / 2 ^ 32)).filter fun p => !(xIsNaN p.1)
      let rec_ := unpack 128 g (viewBytes s (vAt s w k 1) (16 * g))
      let al := rec_.foldl (fun a r => a + nfld r 63 32) 0
      let nn := rec_.foldl (fun a r => a + nfld r 95 64) 0
      let l := lseList (rec_.map fun r => fdec fp32 (r % 2 ^ 32))
      let best := (topPairs (tkK k) cs).take al
      let ps := best ++ List.replicate (tkK k - best.length) (negInf, 0xFFFFFFFF)
      .ok { writes := [(vAt s w k 3, pairBytes ps), (vAt s w k 2, topkRecord l.1 al nn)], flags := l.2, count := tkK k } }

/-- TOPK with SUB = 1 (R165). -/
def execTopkMerge (c n : Nat) (s : State) : Out State :=
  engineRow (vecEng topkMergeBad (fun _ => [0, 1, 2, 3]) topkMergePlan) 1 0x09 (fun k => vSub k == 1) c n s

end Sys2Proof.Machine
end

