-- ==== Sys2Proof/Machine/Pools.lean ====
section
/-! DEFINITION. KV pools (R304-R312), bundle slots and who holds them, the request table's entries (R336), prefix
sharing (R378-R383), and the commands POOL.DEFINE, POOL.DROP, MODEL.BIND, MODEL.UNBIND and REQ.SUBMIT. -/

namespace Sys2Proof.Machine

open Sys2Proof.Config (Grade)

/-! ## Reads and writes that firmware makes for a fold -/

/-- The fold reaches a local range that is no register (R523); an empty range is reached. -/
def fwCan (s : State) (f a len : Nat) (write : Bool) : Bool :=
  len == 0 || (populated s.grade a len && region s.grade a != .csr && foldReach s f a len write)

/-- Bytes as firmware finds them (R431, R498): ST_FLT_UNCORR for an uncorrectable unit. -/
def fwReads (s : State) (a len : Nat) : State × Except Nat (List Byte) :=
  let ga := gOwn s a
  let f := s.free
  match outFail s f [(ga, len)] with
  | some st => ({ s with free := f + 1 }, .error st)
  | none =>
    let t := eccTouch { s with free := f + 1 } { path := 6 } (srcUnits s (ga, len))
    match t.2 with
    | some _ => (t.1, .error stUncorr)
    | none => (t.1, .ok (srcBytes t.1 f (ga, len)))

/-- Bytes read for a fold by the operation of an owner, which may first wait behind a channel that computes (R111). -/
def fwRead (s : State) (o : Owner) (a len : Nat) : Got (List Byte) :=
  if len = 0 then .ok s []
  else
    match askRead s o none [(a, len)] with
    | (s, none) => .held s
    | (s, some got) =>
      match onCaps s got fun u => fwReads u a len with
      | (s, .error st) => .bad s st
      | (s, .ok bs) => .ok s bs

/-- 32-bit words read for a fold. -/
def fwRead32 (s : State) (o : Owner) (a n : Nat) : Got (List Nat) := (fwRead s o a (4 * n)).bind fun s bs => .ok s (unpack 32 n bs)

/-- Bytes written for a fold at a local address. -/
def fwWrite (s : State) (f a : Nat) (bs : List Byte) : State := (devWrite s (some f) (gOwn s a) bs).1

/-! ## Pools (R304-R309) -/

def getPool (s : State) (p : Nat) : Option Pool := tget none s.srv.pools p

/-- Geometry of a pool from its eight descriptor words (R304, R305). -/
structure Geo where
  l : Nat
  h : Nat
  dq : Nat
  kfmt : Nat
  tsel : Nat
  fold : Nat
  mask : Nat
  nch : Nat
  chtab : Nat
  slots : Nat
  pbase : Nat

def geoOf (w : Nat → Word) : Geo :=
  { l := fld (w 0) 15 8, h := fld (w 0) 22 16, dq := fld (w 0) 27 24, kfmt := fld (w 0) 31 28, tsel := fld (w 0) 33 32,
    fold := fld (w 0) 39 36, mask := fld (w 1) 31 0, nch := fld (w 1) 40 32 + 1, chtab := fld (w 2) 49 0,
    slots := fld (w 3) 31 0, pbase := fld (w 4) 26 0 }

/-- The descriptor of pool p as accepted (R331). -/
def poolGeo (s : State) (p : Nat) : Geo := geoOf fun i => rget s (srvReg (0x1000 + 64 * p + 8 * i))

def Geo.banks (g : Geo) : List Nat := (List.range 32).filter (g.mask.testBit ·)
def Geo.d (g : Geo) : Nat := 32 * g.dq
def Geo.t (g : Geo) : Nat := 32 * 2 ^ g.tsel
def Geo.lh (g : Geo) : Nat := g.l * g.h
def Geo.b (g : Geo) : Nat := g.nch * g.banks.length
def Geo.k (g : Geo) : Nat := g.b / max 1 g.lh
/-- RB and SB of R305. -/
def Geo.rb (g : Geo) : Nat := match g.kfmt with | 0x0 => g.d | 0x8 => 2 * g.d | _ => g.d / 2
def Geo.sb (g : Geo) : Nat := if g.kfmt = 0xE then g.d / 32 else 0
def Geo.page (g : Geo) : Nat := 2 * g.t * (g.rb + g.sb)
def Geo.pstride (g : Geo) : Nat := cdiv g.page 512 * 512
def Geo.perBank (g : Geo) : Nat := g.slots / max 1 g.b * g.lh

/-- Reserved bits, ranges, and the conditions of R305. -/
def geoBad (w : Nat → Word) (chans : List Nat) : Bool :=
  let g := geoOf w
  fld (w 0) 7 5 != 0 || bit (w 0) 23 || fld (w 0) 35 34 != 0 || fld (w 0) 63 40 != 0 || fld (w 1) 63 41 != 0 ||
  fld (w 2) 63 50 != 0 || fld (w 3) 63 32 != 0 || fld (w 4) 63 27 != 0 || w 5 != 0 || w 6 != 0 || w 7 != 0 ||
  g.l == 0 || g.h == 0 || 64 < g.h || g.dq == 0 || 8 < g.dq || !(g.kfmt == 0 || g.kfmt == 8 || g.kfmt == 0xE) || g.tsel == 3 ||
  g.chtab % 2 != 0 || g.pbase % 512 != 0 || g.mask == 0 || g.b < g.lh || g.slots == 0 || g.slots % max 1 g.b != 0 ||
  0x6000000 < g.pbase + g.perBank * g.pstride || g.rb % 32 != 0 ||
  chans.any (fun c => 383 < c) || chans.eraseDups.length != chans.length

/-- Bank number of position beta of the bank list (R305). -/
def geoBank (g : Geo) (chans : List Nat) (beta : Nat) : Nat :=
  let n := max 1 g.banks.length
  chans.getD (beta / n) 0 * 32 + g.banks.getD (beta % n) 0

/-- Position in the bank list, and page index, of page (slot, q) with q = l * H + h (R309). -/
def pageAt (g : Geo) (slot q : Nat) : Nat × Nat :=
  ((slot + q * g.k) % max 1 g.b, slot / max 1 g.b * g.lh + q)

/-- Local address of a page (R309). -/
def pageBase (g : Geo) (chans : List Nat) (slot q : Nat) : Nat :=
  let p := pageAt g slot q
  bankAddr (geoBank g chans p.1) (g.pbase + p.2 * g.pstride)

/-! ## The request table (R336, R337) -/

def nReq : Nat := 131072

/-- Word w of entry i, and a field of it. -/
def eW (s : State) (i w : Nat) : Word := readW s (rtEntry i + 8 * w)
def eF (s : State) (i w hi lo : Nat) : Nat := fld (eW s i w) hi lo
def eSet (s : State) (i w hi lo v : Nat) : State := writeW s (rtEntry i + 8 * w) (setFld (eW s i w) hi lo v)

def eState (s : State) (i : Nat) : Nat := eF s i 0 3 0
def ePrio (s : State) (i : Nat) : Nat := eF s i 0 7 4
def eModel (s : State) (i : Nat) : Nat := eF s i 0 15 8
def eFold (s : State) (i : Nat) : Nat := eF s i 0 19 16
def eSod (s : State) (i : Nat) : Bool := bit (eW s i 0) 20
def eNoPrefix (s : State) (i : Nat) : Bool := bit (eW s i 0) 21
def eHostWait (s : State) (i : Nat) : Bool := bit (eW s i 0) 22
def eOutWait (s : State) (i : Nat) : Bool := bit (eW s i 0) 23
def eGen (s : State) (i : Nat) : Nat := eF s i 0 46 32
def eC (s : State) (i : Nat) : Nat := eF s i 1 24 0
def eP (s : State) (i : Nat) : Nat := eF s i 1 56 32
def eMaxNew (s : State) (i : Nat) : Nat := eF s i 2 24 0
def eEmitted (s : State) (i : Nat) : Nat := eF s i 2 56 32
def eDraft (s : State) (i : Nat) : Nat := eF s i 2 60 57
def ePlist (s : State) (i : Nat) : Nat := eF s i 3 49 0
def ePlLen (s : State) (i : Nat) : Nat := eF s i 4 19 0
def eSeq (s : State) (i : Nat) : Nat := (eW s i 11).toNat
def ePrompt (s : State) (i : Nat) : Nat := eF s i 10 49 0
def handleOf (s : State) (i : Nat) : Nat := i + eGen s i * 2 ^ 17

def getReq (s : State) (i : Nat) : Req := (tget none s.srv.reqs i).getD {}
def setReq (s : State) (i : Nat) (r : Req) : State := { s with srv := { s.srv with reqs := tput none s.srv.reqs i (some r) } }
def dropReq (s : State) (i : Nat) : State := { s with srv := { s.srv with reqs := tput none s.srv.reqs i none } }

/-- The requests whose entries are not FREE, in ascending index. -/
def liveReqs (s : State) : List Nat := s.srv.reqs.filterMap fun e => e.2.map fun _ => e.1

def getModel (s : State) (m : Nat) : Model := tget {} s.srv.models m
def setModel (s : State) (m : Nat) (v : Model) : State := { s with srv := { s.srv with models := tput {} s.srv.models m v } }

/-- SRV_RT_COUNT (R360): DRAINING and terminal entries, FREE entries. -/
def rtCount (s : State) : State :=
  let d := ((liveReqs s).filter fun i => 5 ≤ eState s i).length
  rset s (srvReg 0x100) (BitVec.ofNat 64 (nReq - (liveReqs s).length + d * 2 ^ 32))

/-! ## Slots (R310, R312, R332, R339) -/

/-- Slots in a request's page list. -/
def reqPages (r : Req) : List Nat := r.pages.filterMap (·.2)

/-- The slots of pool p that are not FREE, one entry for each holder; those of failed steps included. -/
def heldSlots (s : State) (p : Nat) : List Nat :=
  (liveReqs s).flatMap (fun i => let r := getReq s i; if r.pool = p then reqPages r ++ r.resv else []) ++
    s.srv.models.flatMap (fun e => if e.2.bound && e.2.pool == p then e.2.kept else [])

/-- How many page lists of pool p name a slot. -/
def slotRefs (s : State) (p slot : Nat) : Nat :=
  ((liveReqs s).filter fun i => let r := getReq s i; r.pool == p && (reqPages r).contains slot).length

/-- Holders of a slot, as (ADMIT_SEQ, fold): the lowest decides whose quota it is (R341, R381). -/
def slotFold (s : State) (p slot : Nat) : Option Nat :=
  let hs := (liveReqs s).filterMap fun i =>
    let r := getReq s i
    if r.pool = p ∧ ((reqPages r).contains slot ∨ r.resv.contains slot) then some (eSeq s i, eFold s i) else none
  ((sortBy (fun a b => a.1 ≤ b.1) hs).head?).map (·.2)

/-- Bundles that count against a fold's quota (R415). -/
def foldBundles (s : State) (f : Nat) : Nat :=
  (s.srv.pools.map fun e => (((heldSlots s e.1).eraseDups).filter fun x =>
    match slotFold s e.1 x with
    | some g => g == f
    | none => s.srv.models.any fun m => m.2.bound && m.2.pool == e.1 && m.2.kept.contains x && m.2.fold == f).length).foldl (· + ·) 0

def kvQuota (s : State) (f : Nat) : Nat := fld (fldW s f 9) 63 32
def rtShare (s : State) (f : Nat) : Nat := fld (fldW s f 9) 17 0

/-- The gaps of FREE slots: first slot and length, from a sorted list of used ones. -/
def gapsFrom : Nat → Nat → List Nat → List (Nat × Nat)
  | lo, top, [] => if lo < top then [(lo, top - lo)] else []
  | lo, top, u :: t => (if lo < u then [(lo, u - lo)] else []) ++ gapsFrom (u + 1) top t

def freeGaps (s : State) (p : Nat) : List (Nat × Nat) :=
  gapsFrom 0 (poolGeo s p).slots (sortBy (fun a b => a ≤ b) (heldSlots s p).eraseDups)

def freeSlots (s : State) (p : Nat) : Nat := ((freeGaps s p).map (·.2)).foldl (· + ·) 0

/-- Slots out of gaps in order until n are taken. -/
def takeSlots : Nat → List (Nat × Nat) → List Nat
  | 0, _ => []
  | _, [] => []
  | n, g :: t => rangeFrom g.1 (min n g.2) ++ takeSlots (n - g.2) t

/-- n FREE slots (R310): one run where some gap is long enough, which one and where in it left open (a free value); the
longest gaps in turn otherwise. Ascending. -/
def pickSlots (s : State) (p n : Nat) : List Nat × State :=
  let gs := freeGaps s p
  let fit := gs.filter fun g => n ≤ g.2
  match fit with
  | [] => (sortBy (fun a b => a ≤ b) (takeSlots n (sortBy (fun a b => b.2 ≤ a.2) gs)), s)
  | _ =>
    let d := draw s
    let d2 := draw d.2
    let g := fit.getD (Config.freeNat d.1 % fit.length) (0, 0)
    (rangeFrom (g.1 + Config.freeNat d2.1 % (g.2 - n + 1)) n, d2.2)

/-- The registers of R332 brought up to date. -/
def poolStat (s : State) (p : Nat) : State :=
  match getPool s p with
  | none => rset (rset s (srvReg (0x1800 + 16 * p)) 0) (srvReg (0x1808 + 16 * p)) 0
  | some _ =>
    let rs := ((liveReqs s).filter fun i => (getReq s i).pool == p)
    let resv := (rs.map fun i => (getReq s i).resv.length).foldl (· + ·) 0
    let kept := (s.srv.models.filter fun e => e.2.bound && e.2.pool == p).flatMap fun e => e.2.kept
    let pages := (rs.flatMap (fun i => reqPages (getReq s i)) ++ kept).eraseDups
    let shared := (pages.filter fun x => 1 < slotRefs s p x).length
    let free := freeSlots s p
    rset (rset s (srvReg (0x1800 + 16 * p)) (BitVec.ofNat 64 (free + resv * 2 ^ 32)))
      (srvReg (0x1808 + 16 * p)) (BitVec.ofNat 64 (pages.length - shared + shared * 2 ^ 32 + 2 ^ 63))

/-! ## The prefix table (R378-R382) -/

/-- Share group of fold f in a value of SRV_PREFIX_GROUP. -/
def groupOf (w : Word) (f : Nat) : Nat := fld w (4 * f + 3) (4 * f)

/-- Two folds may name each other's pools (R382). -/
def sameGroup (s : State) (f g : Nat) : Bool :=
  let w := rget s (srvReg 0x200)
  f == g || (groupOf w f != 0 && groupOf w f == groupOf w g)

/-- The key a fold hashes with (R378, R382). -/
def prefixKeyOf (s : State) (f : Nat) : BitVec 384 :=
  let g := groupOf (rget s (srvReg 0x200)) f
  if g = 0 then (tget none s.keys.prefixKey f).getD 0 else (tget none s.keys.group g).getD 0

/-- The first 16 bytes of a digest, byte 0 least significant. -/
def first16 (d : BitVec 384) : BitVec 128 := d.setWidth 128

/-- h(k) from h(k - 1) and the block's tokens (R378). -/
def blockHash (s : State) (f pool tsel : Nat) (parent : BitVec 128) (toks : List Nat) : BitVec 128 :=
  first16 (hmac384 (prefixKeyOf s f)
    (leBytes 16 parent.toNat ++ leBytes 1 pool ++ leBytes 1 tsel ++ leBytes 6 0 ++ toks.flatMap (leBytes 4)))

/-- The entry that verifies a block (R381). -/
def prefixFind (s : State) (pool : Nat) (h parent : BitVec 128) (toks : List Nat) : Option PEntry :=
  s.srv.prefixes.find? fun e => e.hash == h && e.pool == pool && e.parent == parent && e.toks == toks

/-- The matched slots and hashes of a prompt's first blocks (R341, R381): up to n blocks. -/
def prefixMatch (s : State) (f pool tsel t : Nat) (toks : List Nat) : Nat → Nat → BitVec 128 → List (Nat × BitVec 128)
  | 0, _, _ => []
  | n + 1, k, parent =>
    let b := (toks.drop (k * t)).take t
    let h := blockHash s f pool tsel parent b
    match prefixFind s pool h parent b with
    | some e => (e.slot, h) :: prefixMatch s f pool tsel t toks n (k + 1) h
    | none => []

/-- Entries that a match has used become the most recently used, in the order in which they matched (R379, R381). -/
def prefixTouch (s : State) (hs : List (BitVec 128)) : State :=
  let touch (es : List PEntry) (h : BitVec 128) : List PEntry := es.filter (·.hash != h) ++ es.filter (·.hash == h)
  { s with srv := { s.srv with prefixes := hs.foldl touch s.srv.prefixes } }

/-- SRV_PREFIX_STAT (R391). -/
def prefixStat (s : State) : State := rset s (srvReg 0x208) (BitVec.ofNat 64 s.srv.prefixes.length)

/-- An entry inserted into its set of eight (R379). -/
def prefixInsert (s : State) (e : PEntry) : State :=
  let sameSet (x : PEntry) : Bool := x.hash.toNat % 131072 == e.hash.toNat % 131072
  let full := 8 ≤ (s.srv.prefixes.filter sameSet).length
  let old := if full then s.srv.prefixes.find? sameSet else none
  let rest := match old with | some o => s.srv.prefixes.erase o | none => s.srv.prefixes
  let s := { s with srv := { s.srv with prefixes := rest ++ [e] } }
  let s := rinc s (srvReg 0x218) 1
  prefixStat (if full then rinc s (srvReg 0x220) 1 else s)

/-- Table entries whose slot has become FREE are lost (R381). -/
def prefixSweep (s : State) (p : Nat) : State :=
  let held := heldSlots s p
  prefixStat { s with srv := { s.srv with prefixes := s.srv.prefixes.filter fun e => e.pool != p || held.contains e.slot } }

/-! ## POOL.DEFINE and POOL.DROP (R306) -/

def poolOverlap (s : State) (p : Nat) (g : Geo) (chans : List Nat) : Bool :=
  s.srv.pools.any fun e =>
    match e.2 with
    | none => false
    | some o =>
      let h := poolGeo s e.1
      e.1 != p && (h.mask &&& g.mask) != 0 && chans.any (o.chans.contains ·) &&
        meets g.pbase (g.perBank * g.pstride) h.pbase (h.pbase + h.perBank * h.pstride)

/-- Slots of every pool a fold has defined (R306). -/
def foldSlots (s : State) (f : Nat) : Nat :=
  (s.srv.pools.map fun e => match e.2 with
    | some _ => if (poolGeo s e.1).fold = f then (poolGeo s e.1).slots else 0
    | none => 0).foldl (· + ·) 0

/-- The checks and the effect of POOL.DEFINE once its descriptor has been read. -/
def poolDefine (s : State) (f : Nat) (ws : List Word) (chans : List Nat) : State × Nat :=
  let w (i : Nat) : Word := ws.getD i 0
  let g := geoOf w
  let p := fld (w 0) 4 0
  if geoBad w chans then (s, stFormat)
  else if chans.any (fun c => !(foldChan s f c)) ∨ g.fold ≠ f then (s, stAccess)
  else if (getPool s p).isSome then (s, stRejState)
  else if poolOverlap s p g chans then (s, stRejState)
  else if kvQuota s f < foldSlots s f + g.slots then (s, stRejQuota)
  else
    let s := (List.range 8).foldl (fun t i => rset t (srvReg (0x1000 + 64 * p + 8 * i)) (w i)) s
    (poolStat { s with srv := { s.srv with pools := tput none s.srv.pools p (some { chans := chans }) } } p, stOk)

/-- The status of a POOL.DEFINE whose descriptor at address a could not be read (R306): a channel table that the fold may not
read comes first, where the words that name it could be read. -/
def descFail (s : State) (f a st : Nat) : Nat :=
  let named := !((srcUnits s (gOwn s (a + 8), 16)).any fun u => (unitView s u).ue)
  let g := geoOf fun i => (wordsAt (viewBytes s a 64)).getD i 0
  if st = stUncorr ∧ region s.grade a ≠ .aperture ∧ named ∧ !(fwCan s f g.chtab (2 * g.nch) false) then stAccess else st

/-- POOL.DEFINE (R306). -/
def execPoolDefine (n : Nat) (s : State) : Out State :=
  svcRow 1 0x18 (fun k => fld k.w2 63 50 != 0 || !(tailZero k)) (fun s v =>
    let f := v.fold.getD 16
    let a := fld v.cmd.w2 49 0
    if !(fwCan s f a 64 false) then .done s stAccess 0
    else
      match fwRead s (.service n) a 64 with
      | .held s => .wait s
      | .bad s st => .done s (descFail s f a st) 0
      | .ok s bs =>
        let ws := wordsAt bs
        let g := geoOf fun i => ws.getD i 0
        if !(fwCan s f g.chtab (2 * g.nch) false) then .done s stAccess 0
        else
          match fwRead s (.service n) g.chtab (2 * g.nch) with
          | .held s => .wait s
          | .bad s st => .done s st 0
          | .ok s tb => let r := poolDefine s f ws (unpack 16 g.nch tb); .done r.1 r.2 0) n s

/-- A pool becomes undefined (R306, R331). -/
def poolForget (s : State) (p : Nat) : State :=
  let s := (List.range 8).foldl (fun t i => rset t (srvReg (0x1000 + 64 * p + 8 * i)) 0) s
  let s := { s with srv := { s.srv with pools := tput none s.srv.pools p none } }
  poolStat (prefixStat { s with srv := { s.srv with prefixes := s.srv.prefixes.filter fun e => e.pool != p } }) p

/-- POOL.DROP (R306). -/
def execPoolDrop (n : Nat) (s : State) : Out State :=
  svcRow 1 0x19 (fun k => fld k.w2 63 5 != 0 || !(tailZero k)) (fun s v =>
    let p := fld v.cmd.w2 4 0
    match getPool s p with
    | none => .done s stAlready 0
    | some _ =>
      if v.fold ≠ some (poolGeo s p).fold then .done s stAccess 0
      else if !(heldSlots s p).isEmpty then .done s stRejState 0
      else .done (poolForget s p) stOk 0) n s

/-! ## MODEL.BIND and MODEL.UNBIND (R344, R345) -/

/-- MODEL.BIND names a core that does not exist (R3, R205). -/
def mbAbsent (s : State) (k : Cmd) : Bool := !(bit k.w2 30) && Config.cores s.grade ≤ fld k.w2 39 32

def mbUnit (k : Cmd) : Nat := if bit k.w2 30 then 192 + fld k.w2 39 32 else fld k.w2 39 32

def mbBad (k : Cmd) : Bool :=
  let vocab := fld k.w3 20 0
  let budget := fld k.w3 41 32
  let chunk := fld k.w3 51 42
  fld k.w2 15 13 != 0 || fld k.w2 63 40 != 0 || fld k.w3 31 21 != 0 || fld k.w3 63 60 != 0 || fld k.w4 63 50 != 0 ||
  fld k.w5 63 50 != 0 || fld k.w6 63 32 != 0 || k.w7 != 0 ||
  fld k.w2 23 16 == 0 || vocab == 0 || 1048576 < vocab || budget < 4 || 512 < budget ||
  (chunk != 0 && (chunk < 4 || 256 < chunk)) || (bit k.w2 30 && 11 < fld k.w2 39 32) ||
  fld k.w4 49 0 % 4096 != 0 || fld k.w5 49 0 % 64 != 0

/-- B_T and SHEET_SIZE (R349, R350). -/
def tokBudget (b : Nat) : Nat := 64 * b
def sheetSize (b : Nat) : Nat := 4096 * cdiv (64 + 132 * tokBudget b) 4096

/-- Bytes of a logit. -/
def lfBytes (lfmt : Nat) : Nat := if lfmt = 0 then 2 else 4

/-- MODEL.BIND (R344); the logit area holds one vector per token of the step budget (log entry 49). -/
def execModelBind (n : Nat) (s : State) : Out State :=
  svcRow 1 0x12 mbBad (fun s v =>
    let k := v.cmd
    let f := v.fold.getD 16
    let m := fld k.w2 7 0
    let p := fld k.w2 12 8
    let b := fld k.w3 41 32
    let vocab := fld k.w3 20 0
    let u := mbUnit k
    let poolOk := (getPool s p).isSome && sameGroup s f (poolGeo s p).fold
    if mbAbsent s k then .done s stAbsent 0
    else if !poolOk || !(tallyReach s f u (fld k.w2 29 24)) || !(fwCan s f (fld k.w4 49 0) (2 * sheetSize b) true) ||
        !(fwCan s f (fld k.w5 49 0) (tokBudget b * vocab * lfBytes (fld k.w2 31 31)) true) then .done s stAccess 0
    else if (getModel s m).bound then .done s stRejState 0
    else
      let c := fld k.w3 51 42
      .done (setModel s m { bound := true, fold := f, pool := p, nparts := fld k.w2 23 16, unit := u, num := fld k.w2 29 24,
                            lfmt := fld k.w2 31 31, vocab := vocab, budget := b, chunk := if c = 0 then 32 else c,
                            age := fld k.w3 59 52, sheet := fld k.w4 49 0, res := fld k.w5 49 0, limit := fld k.w6 31 0,
                            stray := (getModel s m).stray }) stOk 0) n s

/-- The requests of a model. -/
def modelReqs (s : State) (m : Nat) : List Nat := (liveReqs s).filter fun i => eModel s i == m

/-- A model is unbound; slots held for a failed step become FREE (R354). -/
def modelForget (s : State) (m : Nat) : State :=
  let p := (getModel s m).pool
  prefixSweep (setModel s m { stray := (getModel s m).stray }) p

/-- MODEL.UNBIND (R345); of another fold's model it faults (log entry 50). -/
def execModelUnbind (n : Nat) (s : State) : Out State :=
  svcRow 1 0x13 (fun k => fld k.w2 63 8 != 0 || !(tailZero k)) (fun s v =>
    let m := fld v.cmd.w2 7 0
    let d := getModel s m
    if !d.bound then .done s stAlready 0
    else if v.fold ≠ some d.fold then .done s stAccess 0
    else if !(modelReqs s m).isEmpty || d.isOpen then .done s stRejState 0
    else .done (modelForget s m) stOk 0) n s

/-! ## REQ.SUBMIT (R340, R341) -/

def rqBad (k : Cmd) : Bool :=
  let p := fld k.w4 24 0
  let mx := fld k.w4 56 32
  let d := fld k.w2 35 32
  fld k.w2 15 14 != 0 || fld k.w2 63 36 != 0 || fld k.w3 63 50 != 0 || fld k.w4 31 25 != 0 || fld k.w4 63 57 != 0 ||
  fld k.w5 63 48 != 0 || fld k.w6 63 50 != 0 || fld k.w7 63 50 != 0 ||
  fld k.w3 49 0 % 4 != 0 || fld k.w6 49 0 % 4 != 0 || fld k.w7 49 0 % 8 != 0 ||
  p == 0 || mx == 0 || 8 < d || 16777216 < p + mx + d

/-- A FREE entry; which one is left open (a free value): the first one at or after a free index. -/
def pickEntry (s : State) : Nat × State :=
  let d := draw s
  let c := Config.freeNat d.1 % nReq
  let used := liveReqs s
  let e := used.foldl (fun a k => if k = a then a + 1 else a) c
  (if e < nReq then e else used.foldl (fun a k => if k = a then a + 1 else a) 0, d.2)

/-- REQ.SUBMIT passes its checks: the entry is written and its reservation taken (R341). -/
def admitReq (s : State) (f : Nat) (k : Cmd) (m p t plen : Nat) (hits : List (Nat × BitVec 128)) : State × Nat :=
  let e := pickEntry s
  let i := e.1
  let n := hits.length
  let sl := pickSlots e.2 p (plen - n)
  let gen := eGen s i
  let seq := s.srv.admitSeq + 1
  let s := sl.2
  let pages : Tab (Option Nat) := (List.range n).zip (hits.map fun h => some h.1)
  let s := setReq { s with srv := { s.srv with admitSeq := seq } } i
    { pool := p, pages := pages, resv := sl.1, noInsert := n, hashes := hits.map (·.2) }
  let s := rinc (prefixTouch s (hits.map (·.2))) (srvReg 0x210) n
  let list := (List.range plen).flatMap fun j => leBytes 4 (match hits[j]? with | some h => h.1 | none => 0xFFFFFFFF)
  let s := fwWrite s f (fld k.w6 49 0) list
  let w0 := 1 + fld k.w2 11 8 * 2 ^ 4 + m * 2 ^ 8 + f * 2 ^ 16 + fld k.w2 13 12 * 2 ^ 20 + gen * 2 ^ 32
  let rel := fld k.w5 47 0
  let ws : List Nat :=
    [w0, n * t + fld k.w4 24 0 * 2 ^ 32, fld k.w4 56 32 + fld k.w2 35 32 * 2 ^ 57, fld k.w6 49 0, plen + (plen - n) * 2 ^ 32,
     if rel = 0 then 0 else s.time + rel, fld k.w7 49 0, 0, 0xFFFFFFFF * 2 ^ 32, fld k.w2 31 16, fld k.w3 49 0, seq, 0, 0, 0, 0]
  (rtCount ((writeBytes s { path := 8 } (rtEntry i) (ws.flatMap (leBytes 8))).1), i + gen * 2 ^ 17)

/-- REQ.SUBMIT (R341). -/
def execReqSubmit (n : Nat) (s : State) : Out State :=
  svcRow 1 0x10 rqBad (fun s v =>
    let k := v.cmd
    let f := v.fold.getD 16
    let m := fld k.w2 7 0
    let d := getModel s m
    let g := poolGeo s d.pool
    let p := fld k.w4 24 0
    let plen := cdiv (p + fld k.w4 56 32 + fld k.w2 35 32) g.t
    let bound := d.bound && d.fold == f
    let listOk := !bound || fwCan s f (fld k.w6 49 0) (4 * plen) true
    if !(fwCan s f (fld k.w3 49 0) (4 * p) false) || !(fwCan s f (fld k.w7 49 0) 128 false) || !listOk ||
        !(foldRing s f (fld k.w2 31 16)) then .done s stAccess 0
    else if !bound || (getPool s d.pool).isNone then .done s stRejState 0
    else if rtShare s f ≤ ((liveReqs s).filter fun i => eFold s i == f).length then .done s stRejQuota 0
    else if nReq ≤ (liveReqs s).length then .done s stRejFull 0
    else
      let lim := if bit k.w2 13 then 0 else (p - 1) / g.t
      match fwRead32 s (.service n) (fld k.w3 49 0) (lim * g.t) with
      | .held s => .wait s
      | .bad s st => .done s st 0
      | .ok s toks =>
        let hits := prefixMatch s f d.pool g.tsel g.t toks lim 0 0
        let r := plen - hits.length
        if kvQuota s f < foldBundles s f + r then .done s stRejQuota 0
        else if freeSlots s d.pool < r then .done s stRejFull 0
        else let e := admitReq s f k m d.pool g.t plen hits; .done e.1 stOk e.2) n s

end Sys2Proof.Machine
end

