-- ==== Sys2Proof/Machine/Attn.lean ====
section
/-! DEFINITION. ATTN.DISPATCH (R313-R323, R598): its descriptor and items, which blocks are dispatched, segments, the
order of triples, the checks of R319, and the launches of one repeat. -/

namespace Sys2Proof.Machine

/-- The header (R314). -/
structure AHead where
  pool : Nat
  layer : Nat
  nitem : Nat
  sc : BitVec 32
  win : Nat
  num : Nat
  hub : Bool
  unit : Nat

def aHeadOf (d : List Word) : AHead :=
  let w (i : Nat) : Word := d.getD i 0
  { pool := fld (w 0) 4 0, layer := fld (w 0) 15 8, nitem := fld (w 0) 24 16, sc := (w 0 >>> 32).setWidth 32, win := fld (w 1) 23 0,
    num := fld (w 1) 29 24, hub := bit (w 1) 30, unit := fld (w 1) 39 32 }

def aHeadBad (d : List Word) : Bool :=
  let w (i : Nat) : Word := d.getD i 0
  fld (w 0) 7 5 != 0 || fld (w 0) 31 25 != 0 || bit (w 1) 31 || fld (w 1) 63 40 != 0 || (rangeFrom 2 6).any (fun i => w i != 0) ||
  256 < fld (w 0) 24 16 || (bit (w 1) 30 && 11 < fld (w 1) 39 32)

/-- An item (R314). -/
structure AItem where
  plist : Nat
  qpos : Nat
  kend : Nat
  kvh : Nat
  g : Nat
  ntok : Nat
  trimax : Nat
  qaddr : Nat
  toff : Nat

def aItemOf (d : List Word) : AItem :=
  let w (i : Nat) : Word := d.getD i 0
  { plist := fld (w 0) 49 0, qpos := fld (w 1) 23 0, kend := fld (w 1) 56 32, kvh := fld (w 2) 5 0, g := fld (w 2) 11 8 + 1,
    ntok := fld (w 2) 15 12 + 1, trimax := fld (w 2) 63 32, qaddr := fld (w 3) 49 0, toff := fld (w 4) 31 0 }

def aItemBad (d : List Word) : Bool :=
  let w (i : Nat) : Word := d.getD i 0
  let x := aItemOf d
  fld (w 0) 63 50 != 0 || fld (w 1) 31 24 != 0 || fld (w 1) 63 57 != 0 || fld (w 2) 7 6 != 0 || fld (w 2) 31 16 != 0 ||
  fld (w 3) 63 50 != 0 || fld (w 4) 63 32 != 0 || (rangeFrom 5 3).any (fun i => w i != 0) ||
  16777215 < x.qpos + x.ntok - 1 || 16777216 < x.kend || x.trimax == 0 || x.toff % 32 != 0

/-- Query token i as (qpos', W', EMPTY) (R315). -/
def aTok (win : Nat) (x : AItem) (i : Nat) : Nat × Nat × Bool :=
  let qpos := x.qpos + i
  let q' := min qpos (x.kend - 1)
  let d := qpos - q'
  if x.kend = 0 then (0, 0, true)
  else if win = 0 then (q', 0, false)
  else (q', win - d, win ≤ d)

/-- Some query has an allowed position in block k (R316). -/
def aDispatched (toks : List (Nat × Nat × Bool)) (t k : Nat) : Bool :=
  toks.any fun q => !q.2.2 && k * t ≤ q.1 && (q.2.1 == 0 || q.1 < (k + 1) * t - 1 + q.2.1)

/-- The dispatched blocks of an item, ascending. -/
def aBlocks (toks : List (Nat × Nat × Bool)) (t : Nat) : List Nat :=
  let hi := toks.foldl (fun m q => if q.2.2 then m else max m (q.1 / t + 1)) 0
  (List.range hi).filter (aDispatched toks t)

/-- Segments (R317): maximal runs of consecutive blocks whose slots are consecutive. -/
def aSegments : List (Nat × Nat) → List (List (Nat × Nat))
  | [] => []
  | x :: t =>
    match aSegments t with
    | (y :: r) :: rest => if y.1 = x.1 + 1 ∧ y.2 = x.2 + 1 then (x :: y :: r) :: rest else [x] :: (y :: r) :: rest
    | l => [x] :: l

/-- The banks of a segment by ascending beta, each with its pages (block, bank offset) (R309, R318). -/
def aSegBanks (g : Geo) (chans : List Nat) (q : Nat) (seg : List (Nat × Nat)) : List (Nat × List (Nat × Nat)) :=
  let betas := sortBy (fun a b => a ≤ b) (seg.map fun x => (pageAt g x.2 q).1).eraseDups
  betas.map fun b => (geoBank g chans b,
    (seg.filter fun x => (pageAt g x.2 q).1 == b).map fun x => (x.1, g.pbase + (pageAt g x.2 q).2 * g.pstride))

/-- An item that has passed its checks: its job and its segments' banks in order. -/
structure APlan where
  job : AttnJob
  segs : List (List (Nat × List (Nat × Nat)))

/-- The item's query tokens (R315). -/
def AItem.toks (win : Nat) (x : AItem) : List (Nat × Nat × Bool) := (List.range x.ntok).map (aTok win x)

/-- The triples of an item (R318, R320). -/
def aTriRng (g : Geo) (ar1 : AReg) (x : AItem) : Rng :=
  { addr := (arAddr ar1 + x.toff) % 2 ^ 56, len := (if 128 < g.d then 2 else 1) * (x.g * x.ntok) * x.trimax * 544, ar := some ar1,
    write := true }

/-- Item i with its queries and the slots of its dispatched blocks (R316-R318). -/
def aPlanMk (h : AHead) (g : Geo) (chans : List Nat) (ar1 : AReg) (i : Nat) (x : AItem) (qb : List Byte) (slots : List Nat) : APlan :=
  { segs := (aSegments ((aBlocks (x.toks h.win) g.t).zip slots)).map (aSegBanks g chans (h.layer * g.h + x.kvh))
    job := { item := i, toks := x.toks h.win, g := x.g, q := qb, sc := h.sc, kfmt := g.kfmt, d := g.d, t := g.t,
             tri := gLoc (aTriRng g ar1 x).addr, trimax := x.trimax, unit := if h.hub then 192 + h.unit else h.unit, num := h.num } }

/-- Pairs of a segment and a bank: the triples each query of the item gets (R318). -/
def APlan.pairs (p : APlan) : Nat := (p.segs.map List.length).foldl (· + ·) 0

/-- One item read and checked (R319). -/
def aItem (w : Who) (k : Cmd) (h : AHead) (g : Geo) (chans : List Nat) (ar1 : AReg) (i : Nat) (d : List Word) (s : State) : Got APlan :=
  let x := aItemOf d
  let own (a : Nat) : Nat := gOwn s a
  (Got.guard s (g.h ≤ x.kvh) stFormat).bind fun s _ =>
  (launchRead s w k none (own x.qaddr) (2 * (x.g * x.ntok) * g.d)).bind fun s qb =>
  (readAll (fun s b => launchRead s w k none (own (x.plist + 4 * b)) 4) (aBlocks (x.toks h.win) g.t) s []).bind fun s es =>
  let slots := es.map leNat
  (Got.guard s (slots.any fun v => g.slots ≤ v) stBound).bind fun s _ =>
  let p := aPlanMk h g chans ar1 i x qb slots
  (Got.guard s (x.trimax < p.pairs) stBound).bind fun s _ =>
  match checkRanges s w [aTriRng g ar1 x] with
  | some st => .bad s st
  | none => .ok s p

/-- The items of a dispatch, all checked before any launch. -/
def aItems (w : Who) (k : Cmd) (h : AHead) (g : Geo) (chans : List Nat) (ar1 : AReg) (db : List Word) :
    List Nat → State → Got (List APlan)
  | [], s => .ok s []
  | i :: t, s =>
    let d := (db.drop (8 + 8 * i)).take 8
    (Got.guard s (aItemBad d) stFormat).bind fun s _ =>
    (aItem w k h g chans ar1 i d s).bind fun s p => (aItems w k h g chans ar1 db t s).bind fun s l => .ok s (p :: l)

/-- The empty triple (R318). -/
def emptyTriple : List Byte := leBytes 4 ninf32.toNat ++ leBytes 540 0

/-- The empty triples of an item, each written and counted (R318, R320): the slots past its pairs, and every slot of an
EMPTY query. Those that a hold queue keeps are writes of number `id` (R283). -/
def aEmpties (s : State) (fold id : Nat) (p : APlan) : State :=
  let j := p.job
  let n := p.pairs
  (List.range (j.toks.length * j.g)).foldl (fun s u =>
    let empty := (j.toks.getD (u / max 1 j.g) (0, 0, true)).2.2
    (List.range j.halves).foldl (fun s hf =>
      (List.range j.trimax).foldl (fun s i =>
        if i < n ∧ !empty then s
        else
          let a := j.triple u hf i
          if region s.grade a = .dram then
            dramWrite s (some fold) (some (j.unit, j.num, 544)) a emptyTriple (launch := some id)
          else
            let r := extWrite s a emptyTriple
            if r.2 then addTally r.1 j.unit j.num 544 else r.1) s) s) s

/-- The launches of an item, one for each segment (R317), its banks grouped by channel; j counts the pairs before. -/
def aLaunches (w : Who) (k : Cmd) (rep : Nat) (job : AttnJob) : List (List (Nat × List (Nat × Nat))) → Nat → List Launch
  | [], _ => []
  | seg :: t, j =>
    let bs := (seg.zip (rangeFrom j seg.length)).map fun e => (e.1.1 / 32, ({ bank := e.1.1 % 32, j := e.2, pages := e.1.2 } : AttnBank))
    let chs := (bs.map (·.1)).eraseDups
    let l : Launch := { core := w.core, ctx := w.ctx, ring := w.ring, fold := w.fold, tag := cTag k, rep := rep, attn := some job,
                        chans := chs.map fun c => { chan := c, tapBase := 0, resBase := 0, attn := (bs.filter (·.1 == c)).map (·.2) } }
    l :: aLaunches w k rep job t (j + seg.length)

/-- One dispatch (R313-R320): its launches and its items. -/
def attnOf (s : State) (w : Who) (k : Cmd) (ar ar1 : AReg) (rep : Nat) : Got (List Launch × Nat) :=
  (launchRead s w k (some ar) (arAddr ar) 64).bind fun s hb =>
  let h := aHeadOf (wordsAt hb)
  (Got.guard s (aHeadBad (wordsAt hb)) stFormat).bind fun s _ =>
  if h.nitem = 0 then .ok s ([], 0)
  else
    let unit := if h.hub then 192 + h.unit else h.unit
    (Got.guard s (!h.hub && Config.cores s.grade ≤ h.unit) stAbsent).bind fun s _ =>
    (Got.guard s (!(tallyReach s w.fold unit h.num)) stAccess).bind fun s _ =>
    match getPool s h.pool with
    | none => .bad s stAccess
    | some p =>
      let g := poolGeo s h.pool
      (Got.guard s (g.fold != w.fold) stAccess).bind fun s _ =>
      (Got.guard s (g.l ≤ h.layer) stFormat).bind fun s _ =>
      (launchRead s w k (some ar) (arAddr ar) (64 + 64 * h.nitem)).bind fun s db =>
      (aItems w k h g p.chans ar1 (wordsAt db) (List.range h.nitem) s).bind fun s ps =>
      let id := s.nextLaunch
      let s := ps.foldl (fun t q => aEmpties t w.fold id q) { s with nextLaunch := id + 1 }
      .ok s (ps.flatMap fun q => aLaunches w k rep q.job q.segs 0, h.nitem)

/-- ATTN.DISPATCH (R313): words 2-7 are reserved. -/
def execAttnDispatch (c n : Nat) (s : State) : Out State :=
  luRow 0x31 (fun _ _ k => fmtIf (k.w2 != 0 || !(tailZero k))) attnOf c n s

end Sys2Proof.Machine
end

