-- ==== Sys2Proof/Machine/Tokens.lean ====
section
/-! DEFINITION. Token choice (R364-R377): the sampling block, masks, candidate selection, and the draw of a token. A
`.bad` answer carries the END_STATUS of the request it concerns. -/

namespace Sys2Proof.Machine

/-! ## The sampling block (R364, R365) -/

/-- A value of a block's FP32 field lies in [0, hi], or in [0, hi) where `open_`. -/
def spRange (raw : Nat) (hi : XVal) (open_ : Bool) : Bool :=
  let v := fdec fp32 raw
  !(xIsNaN v) && !(xIsInf v) && !(xLt v f0) && (if open_ then xLt v hi else !(xLt hi v))

def one32 : XVal := .fin false 1 0

def spTemp (b : List Word) : Nat := fld (b.getD 0 0) 31 0
def spTopp (b : List Word) : Nat := fld (b.getD 0 0) 63 32
def spMinp (b : List Word) : Nat := fld (b.getD 1 0) 31 0
def spTopk (b : List Word) : Nat := let k := fld (b.getD 1 0) 42 32; if k = 0 then 1024 else k
def spSeeded (b : List Word) : Bool := bit (b.getD 1 0) 48
def spMaskk (b : List Word) : Nat := fld (b.getD 1 0) 57 56
def spMask (b : List Word) : Nat := fld (b.getD 2 0) 49 0
def spMstate (b : List Word) : Nat := fld (b.getD 3 0) 21 0
def spCand (b : List Word) : Nat := fld (b.getD 4 0) 49 0
/-- The stop tokens; 0xFFFF_FFFF is none. -/
def spStops (b : List Word) : List Nat :=
  [fld (b.getD 5 0) 31 0, fld (b.getD 5 0) 63 32, fld (b.getD 6 0) 31 0, fld (b.getD 6 0) 63 32].filter (· ≠ 0xFFFFFFFF)
def spNonce (b : List Word) : Word := b.getD 7 0
def spSeed (b : List Word) : BitVec 256 :=
  BitVec.ofNat 256 ((rangeFrom 8 4).foldl (fun a i => a + (b.getD i 0).toNat * 2 ^ (64 * (i - 8))) 0)

/-- A reserved bit, or a value out of range (R364). -/
def spBad (b : List Word) : Bool :=
  let w (i : Nat) : Word := b.getD i 0
  !(spRange (spTemp b) (.inf false) true) || !(spRange (spTopp b) one32 false) || !(spRange (spMinp b) one32 true) ||
  fld (w 1) 47 43 != 0 || fld (w 1) 55 49 != 0 || fld (w 1) 63 58 != 0 || 1024 < fld (w 1) 42 32 || spMaskk b == 3 ||
  fld (w 2) 63 50 != 0 || fld (w 3) 63 22 != 0 || fld (w 4) 63 50 != 0 || spMask b % 64 != 0 || spCand b % 64 != 0 ||
  (rangeFrom 12 4).any fun i => w i != 0

/-! ## Masks (R366-R368) -/

/-- The header of a mask automaton (R367). -/
structure Auto where
  n : Nat
  states : Nat
  trans : Nat
  bms : Nat

/-- Bytes a mask needs, in a range that the fold may read: ST_FLT_ACCESS otherwise. -/
def maskRead (s : State) (o : Owner) (f a len : Nat) : Got (List Byte) :=
  if fwCan s f a len false then fwRead s o a len else .bad s stAccess

/-- The header read and checked. -/
def autoHeader (s : State) (o : Owner) (f vocab a : Nat) : Got Auto :=
  (maskRead s o f a 64).bind fun s bs =>
  let w (i : Nat) : Word := (wordsAt bs).getD i 0
  let n := fld (w 0) 22 0
  let bad := fld (w 0) 63 23 != 0 || fld (w 1) 63 50 != 0 || fld (w 2) 63 50 != 0 || fld (w 3) 63 50 != 0 || fld (w 4) 63 21 != 0 ||
    w 5 != 0 || w 6 != 0 || w 7 != 0 || n == 0 || 4194304 < n || fld (w 1) 49 0 % 16 != 0 || fld (w 2) 49 0 % 8 != 0 ||
    fld (w 3) 49 0 % 64 != 0 || fld (w 4) 20 0 != vocab
  (Got.guard s bad stFormat).bind fun s _ =>
  .ok s { n := n, states := fld (w 1) 49 0, trans := fld (w 2) 49 0, bms := fld (w 3) 49 0 }

/-- A state record: BMIDX, DEFAULT, TFIRST, NTRANS (R367); a state number out of range or a reserved bit is a fault. -/
def autoState (s : State) (o : Owner) (f : Nat) (h : Auto) (st : Nat) : Got (Nat × Nat × Nat × Nat) :=
  if h.n ≤ st then .bad s stFormat
  else
    (maskRead s o f (h.states + 16 * st) 16).bind fun s bs =>
    let w (i : Nat) : Word := (wordsAt bs).getD i 0
    (Got.guard s (fld (w 0) 63 54 != 0 || fld (w 1) 63 53 != 0 || 1048576 < fld (w 1) 52 32) stFormat).bind fun s _ =>
    .ok s (fld (w 0) 31 0, fld (w 0) 53 32, fld (w 1) 31 0, fld (w 1) 52 32)

/-- Binary search of a token among n transitions from index lo (R368): the next state, if it is found. `above` and `below`
bound the tokens that may follow; a record outside them is out of order. -/
def autoSearch (o : Owner) (f tok trans : Nat) : Nat → Nat → Nat → Nat → Nat → State → Got (Option Nat)
  | 0, _, _, _, _, s => .ok s none
  | fuel + 1, lo, n, above, below, s =>
    if n = 0 then .ok s none
    else
      let mid := lo + n / 2
      (maskRead s o f (trans + 8 * mid) 8).bind fun s bs =>
      let w : Word := (wordsAt bs).getD 0 0
      let t := fld w 31 0
      (Got.guard s (fld w 63 54 != 0 || t < above || below ≤ t) stFormat).bind fun s _ =>
      if t = tok then .ok s (some (fld w 53 32))
      else if tok < t then autoSearch o f tok trans fuel lo (n / 2) above t s
      else autoSearch o f tok trans fuel (mid + 1) (n - n / 2 - 1) (t + 1) below s

/-- The mask that a request's entry names (R365): 0 none, 1 bitmap, 2 automaton; and for whom it is read. -/
structure MaskSpec where
  own : Owner
  kind : Nat
  addr : Nat
  fold : Nat
  vocab : Nat

/-- The state after a token (R368). Only an automaton has states. -/
def maskNext (s : State) (m : MaskSpec) (st tok : Nat) : Got Nat :=
  if m.kind ≠ 2 then .ok s st
  else
    (autoHeader s m.own m.fold m.vocab m.addr).bind fun s h =>
    (autoState s m.own m.fold h st).bind fun s r =>
    (autoSearch m.own m.fold tok h.trans 22 r.2.2.1 r.2.2.2 0 (2 ^ 32) s).bind fun s o =>
    let nx := o.getD r.2.1
    (Got.guard s (h.n ≤ nx) stFormat).bind fun s _ => .ok s nx

/-- The allowed tokens of a state as the bits of a number; none where every token is allowed (R366, R367). -/
def maskBits (s : State) (m : MaskSpec) (st : Nat) : Got (Option Nat) :=
  let nb := cdiv m.vocab 8
  match m.kind with
  | 0 => .ok s none
  | 1 => (maskRead s m.own m.fold m.addr nb).bind fun s bs => .ok s (some (leNat bs))
  | _ =>
    (autoHeader s m.own m.fold m.vocab m.addr).bind fun s h =>
    (autoState s m.own m.fold h st).bind fun s r =>
    if r.1 = 0xFFFFFFFF then .ok s none
    else
      (maskRead s m.own m.fold (h.bms + r.1 * (64 * cdiv m.vocab 512)) nb).bind fun s bs => .ok s (some (leNat bs))

/-- States through the inputs of a batch: state i masks output i (R369). -/
def maskStates (m : MaskSpec) : List Nat → Nat → State → Got (List Nat)
  | [], st, s => .ok s [st]
  | x :: t, st, s => (maskNext s m st x).bind fun s n => (maskStates m t n s).bind fun s l => .ok s (st :: l)

/-! ## Candidates (R369) -/

/-- The candidates of one output: k pairs, LSE with its flags, allowed and NaN counts. -/
structure Cands where
  pairs : List Cand
  lse : XVal
  allowed : Nat
  nans : Nat

/-- TOPK over pieces of 65,536 logits and its merge (R369); the numerical flags are core's. -/
def selectCands (s : State) (core k : Nat) (xs : List (XVal × Bool)) : Cands × NumFlags :=
  let g := cdiv xs.length 65536
  if g ≤ 1 then
    let r := topkSelect s core k 0 xs
    ({ pairs := r.1, lse := r.2.1.1, allowed := r.2.2.1, nans := r.2.2.2 }, r.2.1.2)
  else
    let rs := (List.range g).map fun j => topkSelect s core k (65536 * j) ((xs.drop (65536 * j)).take 65536)
    let al := (rs.map fun r => r.2.2.1).foldl (· + ·) 0
    let l := lseList (rs.map fun r => r.2.1.1)
    let best := (topPairs k ((rs.flatMap (·.1)).filter fun p => !(xIsNaN p.1))).take al
    ({ pairs := best ++ List.replicate (k - best.length) (negInf, 0xFFFFFFFF), lse := l.1, allowed := al,
       nans := (rs.map fun r => r.2.2.2).foldl (· + ·) 0 }, rs.foldl (fun a r => a ||| r.2.1.2) l.2)

/-- The logits of an output with their mask bits. -/
def readLogits (s : State) (o : Owner) (m : Model) (out : Nat) (bm : Option Nat) : Got (List (XVal × Bool)) :=
  let b := lfBytes m.lfmt
  let code := if m.lfmt = 0 then 0x8 else 0xA
  (fwRead s o (m.res + out * m.vocab * b) (m.vocab * b)).bind fun s bs =>
  .ok s (((unpack (8 * b) m.vocab bs).zip (List.range m.vocab)).map fun p =>
    (eltVal code p.1, match bm with | some n => n.testBit p.2 | none => true))

/-- Cores of a fold in ascending order (R369). -/
def foldCores (s : State) (f : Nat) : List Nat := (List.range (Config.cores s.grade)).filter (foldCore s f)

/-- The core that runs output o. -/
def outCore (s : State) (f o : Nat) : Nat := let l := foldCores s f; l.getD (o % max 1 l.length) 0

/-- The pieces, bitmaps and candidate lists of an output lie in the firmware area of the core that selects (R369, R409), whose
bytes become free values: the spec gives them no places (log entry 107). -/
def useArea (s : State) (c : Nat) : State :=
  let a := spdWin c + 0x500000
  { s with mem := tdrop (fun l => a ≤ l && l < a + 0x100000) s.mem, lost := tput 0 s.lost (c * 3 + 2) (s.free + 1), free := s.free + 1 }

/-- The candidates of a batch's outputs, from output o on, with the mask states given. -/
def batchCands (m : Model) (ms : MaskSpec) (k : Nat) : List Nat → Nat → State → Got (List Cands)
  | [], _, s => .ok s []
  | st :: t, o, s =>
    (maskBits s ms st).bind fun s bm =>
    (readLogits s ms.own m o bm).bind fun s xs =>
    let c := outCore s m.fold o
    let r := selectCands s c k xs
    (batchCands m ms k t (o + 1) (useArea (raiseNum s c r.2) c)).bind fun s l => .ok s (r.1 :: l)

/-! ## The draw (R374, R375) -/

/-- Probabilities of the candidates: exp((l_j - l_0) / TEMP), with p[0] = 1. -/
def drawProbs (temp : XVal) (ls : List XVal) : List XVal :=
  match ls with
  | [] => []
  | l0 :: t => one32 :: t.map fun l => (f32Exp (f32R (xDiv (f32Sub (l, 0) (l0, 0)).1 temp))).1

/-- Running sums in FP32. -/
def runSums : XVal → List XVal → List XVal
  | _, [] => []
  | a, x :: t => let v := (f32Add (a, 0) (x, 0)).1; v :: runSums v t

/-- The token of a draw r from the candidates (R374), best first. -/
def drawToken (b : List Word) (r : Nat) (cs : List Cand) : Nat :=
  let ps := drawProbs (fdec fp32 (spTemp b)) (cs.map (·.1))
  let minp := fdec fp32 (spMinp b)
  let keep1 := ((List.range ps.length).takeWhile fun j => j == 0 || (!(xIsNaN (ps.getD j f0)) && !(xLt (ps.getD j f0) minp))).length
  let p1 := ps.take keep1
  let topp := fdec fp32 (spTopp b)
  let p2 :=
    if xLt f0 topp ∧ xLt topp one32 then
      let sums := runSums f0 p1
      let lim := (f32Mul (topp, 0) (sums.getLastD f0, 0)).1
      let n := (sums.takeWhile fun v => xLt v lim).length
      p1.take (n + 1)
    else p1
  let ss := runSums f0 p2
  let rr := (f32R (.fin false r (-32), 0)).1
  let target := (f32Mul (rr, 0) (ss.getLastD f0, 0)).1
  let j := (ss.takeWhile fun v => !(xLt target v)).length
  (cs.getD (min j (ss.length - 1)) (negInf, 0)).2

/-- TEMP is zero: greedy. -/
def greedy (b : List Word) : Bool := xIsZero (fdec fp32 (spTemp b))

/-- The next r of a request (R375): from its own seeded stream, or a free value of the device DRBG. -/
def nextR (s : State) (b : List Word) (draws : Nat) : Nat × State :=
  if spSeeded b then (ctrDraw (spSeed b) (spNonce b) draws, s)
  else let d := draw s; (Config.freeNat d.1 % 2 ^ 32, d.2)

/-- What choosing from the outputs of a batch came to (R370, R371, R356): the tokens in order, the END reason where they
end the request, the draws taken. -/
structure Chosen where
  toks : List Nat := []
  ends : Option Nat := none
  used : Nat := 0

/-- R370 on the device: outputs in order, `xs` the inputs from x_1 on; n tokens may still be emitted. -/
def chooseSod (b : List Word) (draws : Nat) : List Cands → List Nat → Nat → State → Chosen × State
  | [], _, _, s => ({}, s)
  | c :: cs, xs, n, s =>
    if c.allowed = 0 then ({ ends := some 1 }, s)
    else
      let best := c.pairs.take (min c.pairs.length c.allowed)
      let g := greedy b
      let r := if g then (0, s) else nextR s b draws
      let t := if g then (best.headD (negInf, 0)).2 else drawToken b r.1 best
      let u := if g then 0 else 1
      if (spStops b).contains t then ({ toks := [t], ends := some 1, used := u }, r.2)
      else if n ≤ 1 then ({ toks := [t], ends := some 0, used := u }, r.2)
      else
        match xs with
        | x :: xt =>
          if x = t then
            let q := chooseSod b (draws + u) cs xt (n - 1) r.2
            ({ toks := t :: q.1.toks, ends := q.1.ends, used := u + q.1.used }, q.2)
          else ({ toks := [t], used := u }, r.2)
        | [] => ({ toks := [t], used := u }, r.2)

/-- R370 with the host's tokens (R377): none where a token used is not allowed. `bms` are the mask bits of the outputs,
`counts` their allowed tokens (R371). -/
def chooseHost (b : List Word) (vocab : Nat) : List (Option Nat) → List Nat → List Nat → List Nat → Nat → Option Chosen
  | bm :: bms, c :: counts, t :: ts, xs, n =>
    let ok := t < vocab && (match bm with | some v => v.testBit t | none => true)
    if c = 0 then some { ends := some 1 }
    else if !ok then none
    else if (spStops b).contains t then some { toks := [t], ends := some 1 }
    else if n ≤ 1 then some { toks := [t], ends := some 0 }
    else
      match xs, ts with
      | x :: xt, _ :: _ =>
        if x = t then (chooseHost b vocab bms counts ts xt (n - 1)).map fun q => { q with toks := t :: q.toks }
        else some { toks := [t] }
      | _, _ => some { toks := [t] }
  | _, _, _, _, _ => some {}

end Sys2Proof.Machine
end

