-- ==== Sys2Proof/Machine/Image.lean ====
section
/-! DEFINITION. Fleece images (R386-R388): their layout, their conversions, and their sealing. -/

namespace Sys2Proof.Machine

/-! ## The image (R386) -/

/-- NB, and the first block of the exact tail. -/
def imgNb (g : Geo) (c : Nat) : Nat := cdiv c g.t
def imgTail (g : Geo) (c : Nat) : Nat := max 1 (imgNb g c - 4)
def imgExact (g : Geo) (c k : Nat) : Bool := k == 0 || imgTail g c ≤ k

/-- Bytes of a page in the image. -/
def imgPage (g : Geo) (exact : Bool) : Nat := if exact then g.page else g.t * 17 * g.d / 16

/-- Sum of the page bytes, and Z. -/
def imgPages (g : Geo) (c : Nat) : Nat := ((List.range (imgNb g c)).map fun k => g.lh * imgPage g (imgExact g c k)).foldl (· + ·) 0
def imgSize (g : Geo) (c : Nat) : Nat := 128 + 256 + imgPages g c + 16

/-- Element code of a pool's format, for conversions. -/
def kvCode (g : Geo) : Nat := match g.kfmt with | 0x0 => 0x0 | 0x8 => 0x8 | _ => 0x4

/-- A run of 32 elements as one MX block of MXFP4 (R48): the scale byte and 16 bytes of elements. -/
def mxRun (vs : List XVal) : Nat × List Byte :=
  let sc := (mxScale 2 vs).1
  let z := xIsZero (xAmax vs)
  (sc, pack 4 (vs.map fun v => (mxEnc 4 none (mxElem sc z v)).1))

/-- The elements of a row of a page: K rows, then V rows (R307). -/
def rowElems (g : Geo) (page : List Byte) (row : Nat) : List XVal :=
  (unpack (eltBits (kvCode g)) g.d ((page.drop (row * g.rb)).take g.rb)).map (eltVal (kvCode g))

/-- The stored form of a page in an image: exact bytes, or MXFP4 (R386); rows at positions of C and beyond are zero. -/
def imgEncode (g : Geo) (exact : Bool) (rows : Nat) (page : List Byte) : List Byte :=
  let live (r : Nat) : Bool := r % g.t < rows
  let two := List.range (2 * g.t)
  if exact || g.kfmt == 0xE then
    (two.flatMap fun r => if live r then (page.drop (r * g.rb)).take g.rb else List.replicate g.rb 0) ++
    (two.flatMap fun r => if live r then (page.drop (2 * g.t * g.rb + r * g.sb)).take g.sb else List.replicate g.sb 0)
  else
    let runs (r : Nat) : List (Nat × List Byte) := (chunks 32 (g.d / 32) (rowElems g page r)).map mxRun
    (two.flatMap fun r => if live r then (runs r).flatMap (·.2) else List.replicate (g.d / 2) 0) ++
    (two.flatMap fun r => if live r then (runs r).map fun x => BitVec.ofNat 8 x.1 else List.replicate (g.d / 32) 0)

/-- A page restored from an image (R387): quantised elements are converted to KFMT, nearest even, SATN = 0. -/
def imgDecode (g : Geo) (exact : Bool) (bs : List Byte) : List Byte :=
  if exact || g.kfmt == 0xE then bs
  else
    let vals := unpack 4 (2 * g.t * g.d) bs
    let sc (i : Nat) : Nat := (bs.getD (g.t * g.d + i / 32) 0).toNat
    pack (eltBits (kvCode g)) (((List.range vals.length).zip vals).map fun p =>
      let v := (xMul (e8m0 (sc p.1)) (mxVal 4 p.2)).1
      (eltEnc (kvCode g) none false v).1)

/-- The header of an image (R386). -/
def imgHeader (s : State) (i : Nat) (g : Geo) (pool : Nat) (iv : Nat) (at_ : Nat) : List Byte :=
  let c := eC s i
  leBytes 8 (0x45434C46 + 1 * 2 ^ 32 + eFold s i * 2 ^ 48 + pool * 2 ^ 52) ++
  leBytes 8 (g.l + g.h * 2 ^ 8 + g.dq * 2 ^ 16 + g.kfmt * 2 ^ 20 + g.tsel * 2 ^ 24) ++
  leBytes 8 (handleOf s i + c * 2 ^ 32) ++
  leBytes 8 (imgNb g c + (imgNb g c - min (imgNb g c) (imgTail g c)) * 2 ^ 20) ++
  leBytes 8 (256 + imgPages g c) ++ leBytes 8 iv ++ leBytes 8 0 ++ leBytes 8 at_ ++ leBytes 64 0

/-- Pages of an image in its order: block, page of the bundle. -/
def imgOrder (g : Geo) (c : Nat) : List (Nat × Nat) := (List.range (imgNb g c)).flatMap fun k => (List.range g.lh).map fun q => (k, q)

/-- The state of a seeded stream (R375, R386): V, Key, counter; zero for a request without one. -/
def rngBytes (r : Req) : List Byte :=
  match r.samp with
  | some b =>
    if spSeeded b then
      let d := seededDrbg (spSeed b) (spNonce b) r.draws
      bytesOf (d.v ++ d.key) ++ leBytes 8 (r.draws + 1)
    else leBytes 56 0
  | none => leBytes 56 0

/-- Local address of page q of the bundle of block k of request i. -/
def imgAddr (s : State) (i k q : Nat) : Nat :=
  let p := (getReq s i).pool
  let chans := match getPool s p with | some x => x.chans | none => []
  pageBase (poolGeo s p) chans ((tget none (getReq s i).pages k).getD 0) q

/-- The image of a PARKED request, from the bytes of its pages in their order (R386). -/
def imgBytes (s : State) (i : Nat) (im : Image) (pages : List (List Byte)) : List Byte :=
  let r := getReq s i
  let g := poolGeo s r.pool
  let c := eC s i
  let body := ((imgOrder g c).zip pages).flatMap fun e => imgEncode g (imgExact g c e.1.1) (min g.t (c - e.1.1 * g.t)) e.2
  let key := (tget none s.keys.sealKey (eFold s i)).getD 0
  let iv := BitVec.ofNat 96 im.iv
  let head := imgHeader s i g r.pool im.iv im.parked
  let ct := gcmXor key iv (im.entry ++ rngBytes r ++ leBytes 72 0 ++ body)
  head ++ ct ++ leBytes 16 (gcmTag key iv head ct).toNat

/-- The pages of a request's image as memory holds them now. -/
def imgPagesNow (s : State) (i : Nat) : List (List Byte) :=
  let g := poolGeo s (getReq s i).pool
  (imgOrder g (eC s i)).map fun e => viewBytes s (imgAddr s i e.1 e.2) g.page

end Sys2Proof.Machine
end

