-- ==== Sys2Proof/Machine/Requests.lean ====
section
/-! DEFINITION. What happens to a request at a boundary (R338, R339, R355-R359, R370, R380): output records, commit,
draining and freeing; and the acceptance of REQ.CANCEL and REQ.CHOOSE. -/

namespace Sys2Proof.Machine

/-! ## Output records (R355) -/

/-- An output ring takes a record: it is bound and its area has room. -/
def outRoom (s : State) (n : Nat) : Bool := (getRing s n).state != 0 && (getRing s n).waiting.isEmpty && cplRoom s n

/-- A record about request i: no command of it carries IRQ (log entry 51). -/
def outRec (s : State) (i kind status : Nat) (a b c : Nat) : Rec :=
  { tag := handleOf s i, status := status, engine := 4, context := 0, core := 255, count := 0, kind := kind,
    words := some (BitVec.ofNat 64 a, BitVec.ofNat 64 b, BitVec.ofNat 64 c) }

/-- Records of a request written while its ring has room; OUTWAIT says that some are left. -/
def outFlush (i : Nat) : Nat → State → State
  | 0, s => s
  | n + 1, s =>
    let r := getReq s i
    match r.waiting with
    | [] => eSet s i 0 23 23 0
    | w :: t =>
      let o := eF s i 9 15 0
      if outRoom s o then outFlush i n (writeRec (setReq s i { r with waiting := t }) o w) else eSet s i 0 23 23 1

/-- Records queued for a request's output ring, and written as far as there is room. -/
def outPush (s : State) (i : Nat) (rs : List Rec) : State :=
  let r := getReq s i
  let l := r.waiting ++ rs
  outFlush i (l.length + 1) (setReq s i { r with waiting := l })

/-- The TOKENS records of tokens emitted at one boundary, the first at position p (R355). -/
def tokenRecs (s : State) (i step p : Nat) (toks : List Nat) : List Rec :=
  (List.range (cdiv toks.length 4)).map fun j =>
    let l := (toks.drop (4 * j)).take 4
    let w (x : Nat) : Nat := l.getD x 0xFFFFFFFF
    outRec s i 1 stOk (w 0 + w 1 * 2 ^ 32) (w 2 + w 3 * 2 ^ 32)
      ((p + 4 * j) % 2 ^ 24 + l.length * 2 ^ 24 + step % 2 ^ 32 * 2 ^ 32)

/-! ## Slots of a request (R330, R339, R342) -/

/-- A request's reservation and page list changed, with RESV of its entry. -/
def setSlots (s : State) (i : Nat) (pages : Tab (Option Nat)) (resv : List Nat) : State :=
  eSet (setReq s i { getReq s i with pages := pages, resv := resv }) i 4 51 32 resv.length

/-- One entry of a page list. -/
def plistWrite (s : State) (i k v : Nat) : State := fwWrite s (eFold s i) (ePlist s i + 4 * k) (leBytes 4 v)

/-- Every slot the request holds is released (R339), or kept for a failed step (R354). -/
def releaseSlots (s : State) (i : Nat) (keep : Bool) : State :=
  let r := getReq s i
  let m := eModel s i
  let s := if keep then setModel s m { getModel s m with kept := (getModel s m).kept ++ reqPages r ++ r.resv } else s
  prefixSweep (setSlots s i [] []) r.pool

/-- Blocks up to position e take slots from the reservation in ascending order (R342). -/
def growTo (i t e : Nat) : Nat → Nat → State → State
  | 0, _, s => s
  | n + 1, k, s =>
    if e ≤ k * t then s
    else
      let r := getReq s i
      match tget none r.pages k, r.resv with
      | none, x :: rest => growTo i t e n (k + 1) (plistWrite (setSlots s i (tput none r.pages k (some x)) rest) i k x)
      | _, _ => growTo i t e n (k + 1) s

/-- Bundles wholly beyond C go back to the reservation (R330). -/
def returnDead (s : State) (i t : Nat) : State :=
  let r := getReq s i
  let c := eC s i
  let dead := r.pages.filter fun e => c ≤ e.1 * t
  let s := dead.foldl (fun u e => plistWrite u i e.1 0xFFFFFFFF) s
  if dead.isEmpty then s
  else setSlots s i (r.pages.filter fun e => !(c ≤ e.1 * t)) (sortBy (fun a b => a ≤ b) (r.resv ++ dead.filterMap (·.2)))

/-! ## The end of a request -/

/-- The writing of an image stops (R389): the bytes written so far, a free number of them, lie in memory. -/
def stopImage (s : State) (i : Nat) (im : Image) : State × Nat :=
  let d := draw s
  let n := Config.freeNat d.1 % (im.size + 1)
  (if n = 0 then d.2 else fwWrite d.2 (eFold s i) im.addr ((imgBytes s i im (imgPagesNow s i)).take n), n)

/-- A request enters DRAINING (R338): END_STATUS and the reason of its END record. A PARK that still writes ends with
ST_CANCELLED and the bytes written (R389); a RESUME in progress ends with it. Its slots are released in step 4 of the
boundary (R339, R347). -/
def endReq (s : State) (i status reason : Nat) (keep : Bool) : State :=
  let r := getReq s i
  let s := match r.image with
    | some im => (match im.job with
      | some (ring, id) => let w := stopImage s i im; svcEnd w.1 ring id stCancelled w.2
      | none => s)
    | none => s
  let s := eSet (eSet (eSet (eSet s i 0 3 0 5) i 9 39 32 status) i 0 22 22 0) i 8 63 32 0xFFFFFFFF
  let s := setReq s i { r with hand := none, reason := reason, image := none, resume := none, keep := keep }
  match r.resume with
  | some (ring, id, _) => svcEnd s ring id stCancelled 0
  | none => s

/-- The slots of DRAINING requests are released (R339, R347 step 4). -/
def releaseDrained (s : State) (is_ : List Nat) : State :=
  is_.foldl (fun t i =>
    let r := getReq t i
    if eState t i = 5 ∧ !(r.pages.isEmpty && r.resv.isEmpty) then releaseSlots t i r.keep else t) s

/-- Step 4 of R347 for a DRAINING request: the remaining records, then END; with it the cancels that waited for it. -/
def drainReq (s : State) (i : Nat) : State :=
  let s := outPush s i []
  let r := getReq s i
  let o := eF s i 9 15 0
  if !r.waiting.isEmpty ∨ !(outRoom s o) then eSet s i 0 23 23 1
  else
    let st := eF s i 9 39 32
    let late := (bit (eW s i 0) 24).toNat
    let s := writeRec s o (outRec s i 2 st (eC s i + eEmitted s i * 2 ^ 32) (r.reason + late * 2 ^ 8) s.time)
    let s := eSet (eSet s i 0 23 23 0) i 0 3 0 (if st = stOk then 6 else if st = stCancelled then 7 else 8)
    r.jobs.foldl (fun t j => svcEnd t j.1 j.2.1 j.2.2 0) (setReq s i { r with jobs := [] })

/-- A terminal entry becomes FREE with the next generation (R335, R338). -/
def freeReq (s : State) (i : Nat) : State :=
  let gen := (eGen s i + 1) % 32768
  (writeBytes (dropReq s i) { path := 8 } (rtEntry i) (leBytes 8 (gen * 2 ^ 32) ++ leBytes 120 0)).1

/-! ## Commit (R347 step 2, R370, R380) -/

/-- The mask of a request (R365). -/
def maskOf (s : State) (i : Nat) : MaskSpec :=
  { own := .model (eModel s i), kind := eF s i 7 51 50, addr := eF s i 7 49 0, fold := eFold s i, vocab := (getModel s (eModel s i)).vocab }

/-- Token ids of positions a to a + n - 1: the prompt's, then the emitted ones (R378). -/
def posTokens (s : State) (i a n : Nat) : Got (List Nat) :=
  let p := eP s i
  let k := min n (p - a)
  (fwRead32 s (.model (eModel s i)) (ePrompt s i + 4 * a) k).bind fun s l =>
  .ok s (l ++ (((getReq s i).out.drop (a + k - p)).take (n - k)))

/-- Blocks that have become full are hashed and inserted (R380). -/
def hashBlocks (i pool t tsel : Nat) : Nat → State → Got Unit
  | 0, s => .ok s ()
  | n + 1, s =>
    let r := getReq s i
    let k := r.hashes.length
    if eNoPrefix s i ∨ eC s i < (k + 1) * t then .ok s ()
    else
      (posTokens s i (k * t) t).bind fun s toks =>
      let parent := r.hashes.getLastD 0
      let h := blockHash s (eFold s i) pool tsel parent toks
      let s := setReq s i { getReq s i with hashes := r.hashes ++ [h] }
      let s := if k < r.noInsert ∨ (prefixFind s pool h parent toks).isSome then s
        else match tget none r.pages k with
          | some x => prefixInsert s { hash := h, parent := parent, pool := pool, slot := x, toks := toks, fold := eFold s i }
          | none => s
      hashBlocks i pool t tsel n s

/-- C advances, with what follows from it: hashes and dead bundles. A prompt that cannot be read ends the hashing. -/
def advanceC (s : State) (i c : Nat) : Got Unit :=
  let p := (getReq s i).pool
  let g := poolGeo s p
  let s := eSet s i 1 24 0 c
  let r := hashBlocks i p g.t g.tsel (c / g.t + 1) s
  match r with
  | .held s => .held s
  | .bad s _ => .ok (returnDead s i g.t) ()
  | .ok s _ => .ok (returnDead s i g.t) ()

/-- Tokens chosen for request i from a batch at C (or, `last`, at the end of the prompt) are committed (R356, R370). -/
def commitToks (s : State) (i step : Nat) (last : Bool) (c : Chosen) : Got Unit :=
  let n := c.toks.length
  let pos := if last then eP s i else eC s i + 1
  (maskStates (maskOf s i) c.toks (eF s i 8 21 0) s).bind fun s sts =>
  let r := getReq s i
  let s := setReq s i { r with out := r.out ++ c.toks, draws := r.draws + c.used, hand := none }
  let s := if n = 0 then s
    else
      let s := eSet (eSet s i 2 56 32 (eEmitted s i + n)) i 8 63 32 (c.toks.getLastD 0)
      eSet (eSet s i 8 21 0 (sts.getLastD 0)) i 0 3 0 3
  let s := outPush (eSet s i 0 22 22 0) i (tokenRecs s i step pos c.toks)
  -- the positions accepted: n of a batch at C, the whole prompt of a last chunk
  (advanceC s i (if last then eP s i else eC s i + n)).bind fun s _ =>
  match c.ends with
  | some reason => .ok (endReq s i stOk reason false) ()
  | none => .ok s ()

/-- The proposals of a batch's slot (R353 item 5): a count above PMAX is ST_FLT_FORMAT. -/
def readProps (s : State) (i a pmax : Nat) : Got Unit :=
  if pmax = 0 then .ok (eSet s i 9 27 24 0) ()
  else
    (fwRead32 s (.model (eModel s i)) a (1 + pmax)).bind fun s l =>
    let n := l.headD 0
    (Got.guard s (pmax < n) stFormat).bind fun s _ =>
    let s := eSet s i 9 27 24 n
    .ok ((List.range 4).foldl (fun t w =>
      let id (j : Nat) : Nat := if j < n then l.getD (j + 1) 0 else 0
      writeW t (rtEntry i + 96 + 8 * w) (BitVec.ofNat 64 (id (2 * w) + id (2 * w + 1) * 2 ^ 32))) s) ()

/-! ## Commands accepted for a boundary (R357, R377, R384) -/

/-- The checks of R357 on a handle: none where the command is accepted. -/
def handleCheck (s : State) (f : Nat) (h : Nat) : Option Nat :=
  let i := h % 2 ^ 17
  if eState s i = 0 ∨ eGen s i ≠ h / 2 ^ 17 then some stAlready
  else if eFold s i ≠ f then some stAccess
  else none

/-- A command kept for the boundary of its request's model: of the open step, or, after its close, of the next one (R347). -/
def keepCmd (s : State) (ring i id : Nat) (k : Cmd) : State :=
  let after := (getModel s (eModel s i)).bnd
  { s with srv := { s.srv with cmds := s.srv.cmds ++ [{ ring := ring, id := id, req := i, model := eModel s i, cmd := k, after := after }] } }

/-- The row of a command about a request, with its further checks at acceptance. -/
def reqRow (op : Nat) (bad : Cmd → Bool) (more : State → Nat → Cmd → Option Nat) (n : Nat) (s : State) : Out State :=
  svcRow 1 op bad (fun s v =>
    let f := v.fold.getD 16
    let h := fld v.cmd.w2 31 0
    match handleCheck s f h with
    | some st => .done s st 0
    | none =>
      match more s f v.cmd with
      | some st => .done s st 0
      | none => .accept s fun s id => keepCmd s n (h % 2 ^ 17) id v.cmd) n s

/-- REQ.CANCEL (R357). -/
def execReqCancel (n : Nat) (s : State) : Out State :=
  reqRow 0x11 (fun k => fld k.w2 63 32 != 0 || !(tailZero k)) (fun _ _ _ => none) n s

def chNch (k : Cmd) : Nat := fld k.w2 35 32

/-- TOK0 to TOK8 (R377). -/
def chToks (k : Cmd) : List Nat :=
  (fld k.w3 63 32 :: [k.w4, k.w5, k.w6, k.w7].flatMap fun w => [fld w 31 0, fld w 63 32]).take (chNch k)

/-- REQ.CHOOSE (R377). -/
def execReqChoose (n : Nat) (s : State) : Out State :=
  reqRow 0x14 (fun k => fld k.w2 63 36 != 0 || chNch k == 0 || 9 < chNch k) (fun _ _ _ => none) n s

/-- A host choice at its boundary (R377): the request after it, or the status that refuses it. -/
def applyChoose (s : State) (c : SCmd) : Got Nat :=
  let i := c.req
  let st := eState s i
  let r := getReq s i
  if st = 0 ∨ 5 ≤ st ∨ eGen s i ≠ fld c.cmd.w2 31 17 then .ok s stAlready
  else
    match r.hand with
    | none => .ok s stRejState
    | some h =>
      if h.step % 2 ^ 32 ≠ fld c.cmd.w3 31 0 ∨ h.counts.length < chNch c.cmd then .ok s stRejState
      else
        let m := maskOf s i
        (maskStates m h.xs (eF s i 8 21 0) s).bind fun s sts =>
        let rec_ := sts.foldl (fun (a : Got (List (Option Nat))) st => a.bind fun s l => (maskBits s m st).bind fun s b => .ok s (l ++ [b])) (.ok s [])
        rec_.bind fun s bms =>
        match chooseHost ((r.samp).getD []) m.vocab bms h.counts (chToks c.cmd) h.xs (eMaxNew s i - eEmitted s i) with
        | none => .ok s stRejState
        | some ch => (commitToks s i h.step h.last ch).bind fun s _ => .ok s stOk

end Sys2Proof.Machine
end

