-- ==== Sys2Proof/Machine/Parking.lean ====
section
/-! DEFINITION. Parking (R384-R389): REQ.PARK, REQ.RESUME, PARK_IMAGE_DONE. -/

namespace Sys2Proof.Machine

/-! ## The image is written (R385, R386) -/

/-- Reads of firmware for a fold, one after another. -/
def fwReadAll (o : Owner) (rs : List (Nat × Nat)) (s : State) : Got (List (List Byte)) :=
  rs.foldl (fun (a : Got (List (List Byte))) r => a.bind fun s l => (fwRead s o r.1 r.2).bind fun s b => .ok s (l ++ [b])) (.ok s [])

/-- PARK_IMAGE_DONE (R385, R386): the image of a PARKED request is written, the slots are released, and PARK completes with
COUNT = Z; a page that cannot be read ends PARK with its status, and the request stays PARKED with its slots (log entry
52). -/
def execParkImageDone (i : Nat) (s : State) : Out State :=
  if nReq ≤ i then .fault .noSuchUnit
  else
    match (getReq s i).image with
    | none => .next s
    | some im =>
      match im.job with
      | none => .next s
      | some (ring, id) =>
        let o : Owner := .request i
        let g := poolGeo s (getReq s i).pool
        match fwReadAll o ((imgOrder g (eC s i)).map fun e => (imgAddr s i e.1 e.2, g.page)) s with
        | .held t => .next (heldReads o s t)
        | .bad s st => .next (svcEnd (setReq (dropAsks s o) i { getReq s i with image := some { im with job := none } }) ring id st 0)
        | .ok s pages =>
          let s := fwWrite (dropAsks s o) (eFold s i) im.addr (imgBytes s i im pages)
          let s := setReq s i { getReq s i with image := some { im with job := none } }
          .next (svcEnd (releaseSlots s i false) ring id stOk im.size)

/-! ## The commands at acceptance (R384) -/

def pkDest (k : Cmd) : Nat := fld k.w3 49 0
def pkLen (k : Cmd) : Nat := fld k.w4 47 0

/-- REQ.PARK (R384). -/
def execReqPark (n : Nat) (s : State) : Out State :=
  reqRow 0x15 (fun k => fld k.w2 63 32 != 0 || fld k.w3 63 50 != 0 || fld k.w4 63 48 != 0 || k.w5 != 0 || k.w6 != 0 || k.w7 != 0)
    (fun s f k => if pkDest k ≠ 0 ∧ !(fwCan s f (pkDest k) (pkLen k) true) then some stAccess else none) n s

/-- REQ.RESUME (R384). The header at SRC must be readable; the rest is checked when it is applied. -/
def execReqResume (n : Nat) (s : State) : Out State :=
  reqRow 0x16 (fun k => fld k.w2 63 32 != 0 || fld k.w3 63 50 != 0 || k.w4 != 0 || k.w5 != 0 || k.w6 != 0 || k.w7 != 0)
    (fun s f k => if pkDest k ≠ 0 ∧ !(fwCan s f (pkDest k) 128 false) then some stAccess else none) n s

/-! ## The commands at their boundary (R385, R387) -/

/-- Images in a fold's park area: first byte and length. -/
def areaImages (s : State) (f : Nat) : List (Nat × Nat) :=
  (liveReqs s).filterMap fun i =>
    match (getReq s i).image with
    | some im => if im.area ∧ eFold s i = f then some (im.addr, im.size) else none
    | none => none

/-- A place for z bytes in the park area (R385): where, among the places next to what lies there, is a free value. -/
def areaPlace (s : State) (f z : Nat) : Option Nat × State :=
  let base := fld (fldW s f 11) 49 0
  let len := fld (fldW s f 12) 47 0
  let ims := areaImages s f
  let ok (a : Nat) : Bool := base ≤ a && a + z ≤ base + len && ims.all fun m => !(meets a z m.1 (m.1 + m.2))
  match (base :: ims.map fun m => m.1 + m.2).filter ok with
  | [] => (none, s)
  | l => let d := draw s; (some (l.getD (Config.freeNat d.1 % l.length) 0), d.2)

/-- PARK at its boundary (R384, R385): a status where it ends at once. -/
def applyPark (s : State) (c : SCmd) : State × Option Nat :=
  let i := c.req
  let st := eState s i
  let r := getReq s i
  if st = 0 ∨ eGen s i ≠ fld c.cmd.w2 31 17 then (s, some stRejState)
  else if st = 4 then (s, some stAlready)
  else if st ≠ 3 ∨ eHostWait s i ∨ eOutWait s i then (s, some stRejState)
  else
    let g := poolGeo s r.pool
    let z := imgSize g (eC s i)
    let job := some (c.ring, c.id)
    let go (s : State) (a : Nat) (area : Bool) : State :=
      let f := eFold s i
      let iv := tget 0 s.keys.images f
      let s := eSet { s with keys := { s.keys with images := tput 0 s.keys.images f (iv + 1) } } i 0 3 0 4
      setReq s i { r with image := some { addr := a, size := z, area := area, job := job, iv := iv, parked := s.time,
                                          entry := viewBytes s (rtEntry i) 128 } }
    if pkDest c.cmd ≠ 0 then
      if pkLen c.cmd < z then (s, some stRejFull) else (go s (pkDest c.cmd) false, none)
    else
      match areaPlace s (eFold s i) z with
      | (none, s) => (s, some stRejFull)
      | (some a, s) => (go s a true, none)

/-- The tag and the header of an image agree with the request (R387 step 3): the plaintext, if so. -/
def imgOpen (s : State) (i : Nat) (g : Geo) (bs : List Byte) : Option (List Byte) :=
  let z := bs.length
  let head := bs.take 128
  let ct := (bs.drop 128).take (z - 144)
  let iv := leNat ((head.drop 40).take 8)
  let at_ := leNat ((head.drop 56).take 8)
  match tget none s.keys.sealKey (eFold s i) with
  | none => none
  | some key =>
    let b := BitVec.ofNat 96 iv
    if head = imgHeader s i g (getReq s i).pool iv at_ ∧ gcmTag key b head ct = BitVec.ofNat 128 (leNat (bs.drop (z - 16))) then
      some (gcmXor key b ct)
    else none

/-- Restored blocks are written into their pages (R387 step 4). -/
def imgRestore (s : State) (i : Nat) (g : Geo) (chans : List Nat) (plain : List Byte) : State :=
  let r := getReq s i
  let c := eC s i
  ((imgOrder g c).foldl (fun (a : State × List Byte) e =>
    let ex := imgExact g c e.1
    let n := imgPage g ex
    let t := fwWrite a.1 (eFold s i) (pageBase g chans ((tget none r.pages e.1).getD 0) e.2) (imgDecode g ex (a.2.take n))
    (t, a.2.drop n)) (s, plain.drop 256)).1

/-- RESUME at its boundary (R384, R387): a status where it ends at once. -/
def applyResume (s : State) (c : SCmd) : Got (Option Nat) :=
  let i := c.req
  let st := eState s i
  let r := getReq s i
  if st = 0 ∨ eGen s i ≠ fld c.cmd.w2 31 17 then .ok s (some stRejState)
  else if st = 3 then .ok s (some stAlready)
  else if st ≠ 4 ∨ r.resume.isSome then .ok s (some stRejState)
  else
    match r.image with
    | none => .ok s (some stRejState)
    | some im =>
      if im.job.isSome then .ok s (some stRejState)
      else
        let p := r.pool
        let g := poolGeo s p
        let f := eFold s i
        let plen := ePlLen s i
        let src := if pkDest c.cmd = 0 then im.addr else pkDest c.cmd
        let z := imgSize g (eC s i)
        let chans := match getPool s p with | some q => q.chans | none => []
        if kvQuota s f < foldBundles s f + plen then .ok s (some stRejQuota)
        else if freeSlots s p < plen then .ok s (some stRejFull)
        else if !(fwCan s f src z false) then .ok s (some stAccess)
        else
          match fwRead s (.model (eModel s i)) src z with
          | .held s => .held s
          | .bad s st => .ok s (some st)
          | .ok s bs =>
            match imgOpen s i g bs with
            | none => .ok s (some stAccess)
            | some plain =>
              let sl := pickSlots s p plen
              let nb := imgNb g (eC s i)
              let s := setSlots sl.2 i ((List.range nb).zip ((sl.1.take nb).map some)) (sl.1.drop nb)
              let s := setReq s i { getReq s i with noInsert := nb, resume := some (c.ring, c.id, z) }
              let s := fwWrite s f (ePlist s i) ((List.range plen).flatMap fun k => leBytes 4 (if k < nb then sl.1.getD k 0 else 0xFFFFFFFF))
              let s := imgRestore s i g chans plain
              -- PENDING, MSTATE and proposals of the snapshot
              let snap (w : Nat) : Word := (wordsAt plain).getD w 0
              let s := writeW s (rtEntry i + 64) (snap 8)
              let s := eSet s i 9 27 24 (fld (snap 9) 27 24)
              .ok ((rangeFrom 12 4).foldl (fun t w => writeW t (rtEntry i + 8 * w) (snap w)) s) none

/-- A RESUME that has restored its blocks completes at the next boundary (R387). -/
def finishResume (s : State) (i : Nat) : State :=
  match (getReq s i).resume with
  | none => s
  | some (ring, id, z) =>
    let s := setReq (eSet s i 0 3 0 3) i { getReq s i with resume := none, image := none }
    svcEnd s ring id stOk z

end Sys2Proof.Machine
end

