-- ==== Sys2Proof/Machine/Steps.lean ====
section
/-! DEFINITION. The step cycle (R346-R354): done writes, the time limit, and the boundary, which chooses tokens, commits,
applies commands, drains, frees, plans and publishes. -/

namespace Sys2Proof.Machine

/-! ## Closing a step (R346, R354) -/

/-- The open step fails (R354, R363). -/
def failStep (s : State) (m st : Nat) : State :=
  let d := getModel s m
  let n := d.steps - 1
  let s := setModel s m { d with isOpen := false, closing := some st, bnd := true, failed := n, late := d.nparts - d.parts }
  rset s (srvReg (0x4000 + 8 * m)) (BitVec.ofNat 64 (n % 2 ^ 48 + st % 256 * 2 ^ 48 + 2 ^ 63))

/-- A done write for model m (R346, R354, R362). -/
def doneWrite (s : State) (m : Nat) (v : Word) : State :=
  let d := getModel s m
  let n := fld v 47 0
  let st := fld v 55 48
  if d.isOpen ∧ n = (d.steps - 1) % 2 ^ 48 then
    let s := setModel s m { d with parts := d.parts + 1 }
    if st ≠ stOk then failStep s m st
    else if d.parts + 1 = d.nparts then setModel s m { d with parts := d.parts + 1, isOpen := false, closing := some stOk, bnd := true }
    else s
  else if d.late ≠ 0 ∧ n = d.failed % 2 ^ 48 then
    let s := setModel s m { d with late := d.late - 1, kept := if d.late = 1 then [] else d.kept }
    if d.late = 1 then prefixSweep s d.pool else s
  else setModel s m { d with stray := true }

/-- SRV_STEP_DONE (R346, R362): a write from a ring of the model's fold; any other is ignored, and every one while the model
is not bound. -/
def execSrvStepDone (ring m : Nat) (v : Word) (s : State) : Out State :=
  if 65536 ≤ ring ∨ 256 ≤ m then .fault .noSuchUnit
  else
    let d := getModel s m
    if !d.bound || ringFold s ring != some d.fold then .next s else .next (doneWrite s m v)

/-- STEP_TIMEOUT (R354). -/
def execStepTimeout (m : Nat) (s : State) : Out State :=
  if 256 ≤ m then .fault .noSuchUnit
  else
    let d := getModel s m
    if d.isOpen ∧ d.limit ≠ 0 ∧ d.pubTime + Config.tick * d.limit ≤ s.time then .next (failStep s m stTimeout) else .next s

/-! ## Token choice and commit of a step (R347 steps 1 and 2) -/

/-- An action whose bad answer ends request i with that status (R338: a request-level fault). -/
def orEnd (x : Got Unit) (i : Nat) : Got Unit :=
  match x with
  | .held s => .held s
  | .ok s _ => .ok s ()
  | .bad s st => .ok (if 1 ≤ eState s i ∧ eState s i ≤ 4 then endReq s i st 3 false else s) ()

/-- One action after another over a list. -/
def gotEach {α : Type} (f : State → α → Got Unit) : List α → State → Got Unit
  | [], s => .ok s ()
  | x :: t, s => (f s x).bind fun s _ => gotEach f t s

/-- The host commands of one kind for model m that this boundary applies, in order of acceptance. -/
def boundCmds (s : State) (m : Nat) (ops : List Nat) : List SCmd :=
  s.srv.cmds.filter fun c => !c.after && c.model == m && ops.contains (opcode c.cmd)

def dropCmd (s : State) (c : SCmd) : State := { s with srv := { s.srv with cmds := s.srv.cmds.filter fun x => x.id != c.id } }

/-- A host choice (R377): a fault of its mask ends the request, and the choice finds it ended. -/
def doChoose (s : State) (c : SCmd) : Got Unit :=
  match applyChoose s c with
  | .held s => .held s
  | .ok s st => .ok (svcEnd (dropCmd s c) c.ring c.id st 0) ()
  | .bad s st => .ok (svcEnd (dropCmd (endReq s c.req st 3 false) c) c.ring c.id stAlready 0) ()

/-- Sheet address of step n (R350). -/
def sheetAt (d : Model) (n : Nat) : Nat := d.sheet + n % 2 * sheetSize d.budget

/-- PROPADDR of batch record b. -/
def propAt (d : Model) (n b : Nat) : Nat := sheetAt d n + 64 + 68 * tokBudget d.budget + 64 * b

/-- The bellwether that draws for a core (R373). -/
def bwOf (s : State) (c : Nat) : Nat :=
  let p := corePdk s.grade c
  match s.grade with | .f => p | .e => p % 2

/-- The candidate sets of a host-sampled batch and its CANDIDATES record (R376). -/
def handOver (s : State) (d : Model) (b : Batch) (step : Nat) (b0 : List Word) (cs : List Cands) : Got Unit :=
  let i := b.req
  let base := spCand b0
  let s := (cs.zip (List.range cs.length)).foldl (fun t p =>
    let t := fwWrite t d.fold (base + 2112 * p.2) (pairBytes p.1.pairs)
    fwWrite t d.fold (base + 2112 * p.2 + 2048) (topkRecord p.1.lse p.1.allowed p.1.nans)) s
  let pos := if b.kind = 0 then eP s i else eC s i + 1
  let s := setReq s i { getReq s i with hand := some { step := step, xs := b.toks.drop 1, last := b.kind == 0, counts := cs.map (·.allowed) } }
  let r := outRec s i 3 stOk base cs.length (pos % 2 ^ 24 + step % 2 ^ 32 * 2 ^ 32)
  .ok (outPush (eSet s i 0 22 22 1) i [r]) ()

/-- Choice and commit of one batch of step n (R369-R371, R376). -/
def stepBatch (d : Model) (n : Nat) (s : State) (b : Batch) : Got Unit :=
  let i := b.req
  let st := eState s i
  if st = 0 ∨ 4 ≤ st then .ok s ()
  else if b.kind = 0 ∧ !b.last then advanceC (eSet s i 0 3 0 2) i (b.pos0 + b.ntok)
  else
    let sp := (getReq s i).samp.getD []
    let sod := eSod s i
    let k := if !sod then 256 else if greedy sp then 1 else spTopk sp
    let xs := b.toks.drop 1
    orEnd (
      (maskStates (maskOf s i) (xs.take (b.outs - 1)) (eF s i 8 21 0) s).bind fun s sts =>
      (batchCands d (maskOf s i) k sts b.out0 s).bind fun s cs =>
      (readProps s i (propAt d n b.idx) b.pmax).bind fun s _ =>
      if sod then
        let r := chooseSod sp (getReq s i).draws cs xs (eMaxNew s i - eEmitted s i) s
        let bw := bwOf s (outCore s d.fold b.out0)
        commitToks (rinc r.2 (srvReg (0x300 + 8 * bw)) r.1.used) i n b.last r.1
      else if (cs.head?.map (·.allowed)) = some 0 then commitToks s i n b.last { ends := some 1 }
      else handOver s d b n sp cs) i

/-- The passes that the bellwethers run for a step (R373). -/
def countPasses (s : State) (d : Model) : State :=
  (List.range 4).foldl (fun t w =>
    let n := (d.batches.filter fun b => b.outs != 0 && eSod s b.req && bwOf s (outCore s d.fold b.out0) == w).length
    if n = 0 then t else rinc t (srvReg (0x320 + 8 * w)) (cdiv n 1024)) s

/-! ## Commands, draining, freeing (R347 steps 3 to 5, R358, R359) -/

/-- A cancel at its boundary (R358): it completes after the END record. -/
def doCancel (s : State) (c : SCmd) : State :=
  let i := c.req
  let st := eState s i
  let s := dropCmd s c
  if st = 0 ∨ 6 ≤ st ∨ eGen s i ≠ fld c.cmd.w2 31 17 then svcEnd s c.ring c.id stAlready 0
  else
    let job (s : State) (x : Nat) : State := setReq s i { getReq s i with jobs := (getReq s i).jobs ++ [(c.ring, c.id, x)] }
    if st = 5 then job s stAlready else job (endReq s i stCancelled 2 false) stOk

/-- A command of step 3. -/
def doCmd (s : State) (c : SCmd) : Got Unit :=
  match opcode c.cmd with
  | 0x11 => .ok (doCancel s c) ()
  | 0x15 =>
    let r := applyPark s c
    let s := dropCmd r.1 c
    .ok (match r.2 with | some st => svcEnd s c.ring c.id st 0 | none => s) ()
  | _ =>
    (applyResume s c).bind fun s o =>
    let s := dropCmd s c
    .ok (match o with | some st => svcEnd s c.ring c.id st 0 | none => s) ()

/-- LATE (R336): the boundary finds DEV_TIME past DEADLINE. -/
def markLate (s : State) (i : Nat) : State :=
  let dl := (eW s i 5).toNat
  if dl ≠ 0 ∧ dl < s.time ∧ eState s i ≤ 5 then eSet s i 0 24 24 1 else s

/-- Folds whose share group has changed since the last boundary lose their prefix entries (R382). -/
def applyGroups (s : State) : State :=
  let fs := s.srv.groups
  if fs.isEmpty then s
  else prefixStat { s with srv := { s.srv with groups := [], prefixes := s.srv.prefixes.filter fun e => !(fs.contains e.fold) } }

/-! ## Planning (R348, R349) -/

/-- A request that has not been planned yet: its sampling block is read and validated (R365). -/
def firstPlan (s : State) (i : Nat) : Got Unit :=
  let st := eState s i
  if (getReq s i).samp.isSome ∨ st = 0 ∨ 3 < st then .ok s ()
  else
    orEnd (
      let f := eFold s i
      let vocab := (getModel s (eModel s i)).vocab
      (fwRead s (.model (eModel s i)) (eF s i 6 49 0) 128).bind fun s bs =>
      let b := wordsAt bs
      (Got.guard s (spBad b) stFormat).bind fun s _ =>
      (Got.guard s (!(eSod s i) && !(fwCan s f (spCand b) (9 * 2112) true)) stAccess).bind fun s _ =>
      let mk : Got Unit := match spMaskk b with
        | 0 => .ok s ()
        | 1 => Got.guard s (!(fwCan s f (spMask b) (cdiv vocab 8) false)) stAccess
        | _ => (autoHeader s (.model (eModel s i)) f vocab (spMask b)).bind fun s h => Got.guard s (h.n ≤ spMstate b) stFormat
      mk.bind fun s _ =>
      let s := eSet (eSet (eSet s i 7 49 0 (spMask b)) i 7 51 50 (spMaskk b)) i 8 21 0 (spMstate b)
      .ok (setReq s i { getReq s i with samp := some b }) ()) i

def eligible (s : State) (i : Nat) : Bool :=
  let st := eState s i
  1 ≤ st && st ≤ 3 && !(eHostWait s i) && !(eOutWait s i)

/-- The key of R348 as one number. -/
def planKey (s : State) (d : Model) (i : Nat) : Nat :=
  let aged := d.age != 0 && d.age ≤ eF s i 9 23 16
  let dl := (eW s i 5).toNat
  (((if aged then 0 else 1) * 16 + ePrio s i) * 2 ^ 65 + (if dl = 0 then 2 ^ 64 else dl)) * 2 ^ 64 + eSeq s i

/-- Proposals a request holds (R336). -/
def eProps (s : State) (i : Nat) : List Nat :=
  ((rangeFrom 12 4).flatMap fun w => [eF s i w 31 0, eF s i w 63 32]).take (eF s i 9 27 24)

/-- Pass 1 of R349: DECODE requests, in key order. -/
def planDecode : List Nat → Nat → State → List Batch × Nat
  | [], rem, _ => ([], rem)
  | i :: t, rem, s =>
    if rem = 0 then ([], 0)
    else
      let ps := eProps s i
      let n := 1 + min ps.length (rem - 1)
      let b : Batch := { req := i, kind := if 1 < n then 2 else 1, pos0 := eC s i, ntok := n, last := false, out0 := 0, outs := n,
                         toks := eF s i 8 63 32 :: ps.take (n - 1), idx := 0, pmax := eDraft s i }
      let r := planDecode t (rem - n) s
      (b :: r.1, r.2)

/-- Pass 2 of R349: QUEUED and PREFILL requests; a chunk that holds a token outside the vocabulary ends its request
(R343). -/
def planPrefill (d : Model) : List Nat → Nat → State → Got (List Batch)
  | [], _, s => .ok s []
  | i :: t, rem, s =>
    let left := eP s i - eC s i
    let p0 := min (64 * d.chunk) (min left rem)
    let piece := if p0 < left then 64 * (p0 / 64) else p0
    if piece = 0 then planPrefill d t rem s
    else
      match fwRead32 s (.model (eModel s i)) (ePrompt s i + 4 * eC s i) piece with
      | .held s => .held s
      | .bad s st => planPrefill d t rem (endReq s i st 3 false)
      | .ok s toks =>
        if toks.any (d.vocab ≤ ·) then planPrefill d t rem (endReq s i stFormat 3 false)
        else
          let last := piece == left
          let b : Batch := { req := i, kind := 0, pos0 := eC s i, ntok := piece, last := last, out0 := 0,
                             outs := if last then 1 else 0, idx := 0, pmax := 0 }
          (planPrefill d t (rem - piece) s).bind fun s l => .ok s (b :: l)

/-- Record order (R350), with record and output numbers. -/
def numberBatches : List Batch → Nat → Nat → List Batch
  | [], _, _ => []
  | b :: t, i, o => { b with idx := i, out0 := o } :: numberBatches t (i + 1) (o + b.outs)

def orderBatches (l : List Batch) : List Batch :=
  numberBatches (l.filter (·.kind == 1) ++ l.filter (·.kind == 2) ++ l.filter (·.kind == 0)) 0 0

/-! ## Publication (R346, R350-R352) -/

/-- Batch record b (R352), its tokens at offset k of the token area. -/
def batchRecord (s : State) (d : Model) (n : Nat) (b : Batch) (k : Nat) : List Byte :=
  let i := b.req
  let out := b.outs != 0
  let vb := d.vocab * lfBytes d.lfmt
  let ta := if b.kind = 0 then ePrompt s i + 4 * b.pos0 else sheetAt d n + 64 + 64 * tokBudget d.budget + 4 * k
  leBytes 8 (handleOf s i + b.kind * 2 ^ 32 + out.toNat * 2 ^ 34 + b.last.toNat * 2 ^ 35) ++
  leBytes 8 (b.pos0 + b.ntok * 2 ^ 32) ++ leBytes 8 (ePlist s i) ++ leBytes 8 ta ++
  leBytes 8 (if out then d.res + b.out0 * vb else 0) ++
  leBytes 8 ((if b.pmax = 0 then 0 else propAt d n b.idx) + b.pmax * 2 ^ 56) ++ leBytes 8 (b.pos0 + b.ntok) ++ leBytes 8 0

/-- Records in order, with the offset of each batch's tokens. -/
def recordsFrom (s : State) (d : Model) (n : Nat) : List Batch → Nat → List Byte
  | [], _ => []
  | b :: t, k => batchRecord s d n b k ++ recordsFrom s d n t (k + b.toks.length)

/-- The sheet is written, then the tally counts (R346, R351); SKIPS and what is discarded of the proposals follow. -/
def publish (s : State) (m : Nat) (bs : List Batch) (elig : List Nat) : State :=
  let d := getModel s m
  let n := d.steps
  let a := sheetAt d n
  let cnt (k : Nat) : Nat := (bs.filter (·.kind == k)).length
  let ntok := (bs.map (·.ntok)).foldl (· + ·) 0
  let nout := (bs.map (·.outs)).foldl (· + ·) 0
  let head := leBytes 8 n ++ leBytes 8 (cnt 1 + cnt 2 * 2 ^ 16 + cnt 0 * 2 ^ 32) ++ leBytes 8 (ntok + nout * 2 ^ 32) ++
    leBytes 8 (m + d.pool * 2 ^ 8) ++ leBytes 8 s.time ++ leBytes 24 0
  let g := poolGeo s d.pool
  let s := bs.foldl (fun t b => growTo b.req g.t (b.pos0 + b.ntok) (cdiv (b.pos0 + b.ntok) g.t + 1) 0 t) s
  let s := fwWrite s d.fold a (head ++ recordsFrom s d n bs 0)
  let toks := bs.flatMap (·.toks)
  let s := if toks.isEmpty then s else fwWrite s d.fold (a + 64 + 64 * tokBudget d.budget) (toks.flatMap (leBytes 4))
  -- a slot that no part writes reads as a count of 0
  let s := bs.foldl (fun t b => if b.pmax = 0 then t else fwWrite t d.fold (propAt d n b.idx) (leBytes 4 0)) s
  let taken := bs.map (·.req)
  let s := elig.foldl (fun t i => eSet t i 9 23 16 (if taken.contains i then 0 else min 255 (eF t i 9 23 16 + 1))) s
  let s := bs.foldl (fun t b => if b.kind = 0 then t else eSet t b.req 9 27 24 (b.ntok - 1)) s
  let s := addTally s d.unit d.num 1
  setModel s m { d with steps := n + 1, isOpen := true, bnd := false, pubTime := s.time, parts := 0, batches := bs, planned := none }

/-- A command accepted after the close of a step belongs to the step that has been published now (R347). -/
def belongNext (s : State) (m : Nat) : State :=
  { s with srv := { s.srv with cmds := s.srv.cmds.map fun c => if c.model = m then { c with after := false } else c } }

/-- A planned step that had to wait is published, with the requests of it that can still go on (R354). -/
def publishPlanned (s : State) (m : Nat) (bs : List Batch) (elig : List Nat) : State :=
  let live := orderBatches (bs.filter fun b => eligible s b.req)
  let s := setModel s m { getModel s m with planned := none }
  let s := belongNext (if live.isEmpty then s else publish s m live (elig.filter (eligible s))) m
  rtCount (poolStat s (getModel s m).pool)

/-- Step 6 of R347: planning, and publication where there is a batch; while a part of a failed step may still write, the
planned step waits (R354). -/
def planStep (s : State) (m : Nat) : Got Unit :=
  let reqs := modelReqs s m
  (gotEach firstPlan reqs s).bind fun s _ =>
  let d := getModel s m
  let elig := sortBy (fun a b => planKey s d a ≤ planKey s d b) (reqs.filter (eligible s))
  let r := planDecode (elig.filter fun i => eState s i == 3) (tokBudget d.budget) s
  (planPrefill d (elig.filter fun i => eState s i != 3) r.2 s).bind fun s pre =>
  let bs := orderBatches (r.1 ++ pre)
  let s := releaseDrained s reqs
  if bs.isEmpty then .ok (belongNext s m) ()
  else if d.late ≠ 0 then .ok (setModel s m { getModel s m with planned := some (bs, elig) }) ()
  else .ok (belongNext (publish s m bs (elig.filter (eligible s))) m) ()

/-! ## The boundary (R347) -/

/-- A request holds no proposals any more. -/
def noProps (s : State) (i : Nat) : State :=
  (rangeFrom 12 4).foldl (fun t w => writeW t (rtEntry i + 8 * w) 0) (eSet s i 9 27 24 0)

/-- A failed step: its requests end with its status, their slots kept while parts of it may still write (R354). -/
def failBatches (s : State) (m st : Nat) : State :=
  let d := getModel s m
  d.batches.foldl (fun t b =>
    let x := eState t b.req
    if x = 0 ∨ 4 ≤ x then t else noProps (endReq t b.req st 3 (d.late != 0)) b.req) s

/-- One pass over the boundary. Where it finds nothing to publish the boundary goes on, and a further pass takes what has been
accepted meanwhile (log entry 105). -/
def boundary (s : State) (m : Nat) : Got Unit :=
  let d := getModel s m
  let s := if d.closing.isNone then belongNext s m else s
  let n := d.steps - 1
  let reqs := modelReqs s m
  let old := reqs.filter fun i => 6 ≤ eState s i
  let s := reqs.foldl markLate (applyGroups s)
  let s := (reqs.filter fun i => (getReq s i).resume.isSome).foldl finishResume s
  (gotEach doChoose (boundCmds s m [0x14]) s).bind fun s _ =>
  let commit : Got Unit := match d.closing with
    | none => .ok s ()
    | some st =>
      if st ≠ stOk then .ok (failBatches s m st) ()
      else gotEach (stepBatch d n) d.batches (countPasses s d)
  commit.bind fun s _ =>
  let s := setModel s m { getModel s m with batches := [], closing := none }
  (gotEach doCmd (boundCmds s m [0x11, 0x15, 0x16]) s).bind fun s _ =>
  let s := (reqs.filter fun i => eState s i == 5).foldl drainReq (releaseDrained s reqs)
  let s := (reqs.filter fun i => eState s i ≠ 5).foldl (fun t i => if eState t i = 0 then t else outPush t i []) s
  let s := old.foldl freeReq s
  let s := rtCount (poolStat s (getModel s m).pool)
  (planStep s m).bind fun s _ => .ok (rtCount (poolStat s (getModel s m).pool)) ()

/-- Requests left when a fold's release unbound their model (R524): they drain and become FREE. -/
def drainOnly (s : State) (m : Nat) : State :=
  let reqs := modelReqs s m
  let old := reqs.filter fun i => 6 ≤ eState s i
  let s := (reqs.filter fun i => eState s i == 5).foldl drainReq s
  rtCount (old.foldl freeReq s)

/-- STEP_BOUNDARY (R347): of a model with no step open; its reads may wait behind a channel that computes; nothing is done
once firmware code is lost (R433). -/
def execStepBoundary (m : Nat) (s : State) : Out State :=
  if 256 ≤ m then .fault .noSuchUnit
  else
    let d := getModel s m
    if d.isOpen || fwFatal s then .next s
    else if !d.bound then .next (if (modelReqs s m).isEmpty then s else drainOnly s m)
    else
      match d.planned with
      | some p => .next (if d.late = 0 then publishPlanned s m p.1 p.2 else s)
      | none =>
        let o : Owner := .model m
        match boundary s m with
        | .held t => .next (heldReads o s t)
        | .ok t _ => .next (dropAsks t o)
        | .bad t _ => .next (dropAsks t o)

end Sys2Proof.Machine
end

