-- ==== Sys2Proof/Machine/Folds.lean ====
section
/-! DEFINITION. Folds (R415-R418, R524-R526, R535): formation, release and reset, with the clearing of what a fold held;
the regulators' registers and the units they hold. -/

namespace Sys2Proof.Machine

open Sys2Proof.Config (Grade cores)

/-! ## Keys (R526) -/

/-- n words drawn from the device's DRBG (free values), the first in the low bits. -/
def drawWords : Nat → State → Nat × State
  | 0, s => (0, s)
  | n + 1, s =>
    let d := draw s
    let r := drawWords n d.2
    ((Config.freeWord d.1).toNat + r.1 * 2 ^ 64, r.2)

/-- A new sealing key and prefix key of fold f; its image counter starts at 0. -/
def drawFoldKeys (s : State) (f : Nat) : State :=
  let a := drawWords 4 s
  let b := drawWords 6 a.2
  let k := b.2.keys
  { b.2 with keys := { k with sealKey := tput none k.sealKey f (some (BitVec.ofNat 256 a.1)),
                              prefixKey := tput none k.prefixKey f (some (BitVec.ofNat 384 b.1)), images := tput 0 k.images f 0 } }

/-- A new key of share group g (R526). -/
def drawGroupKey (s : State) (g : Nat) : State :=
  let a := drawWords 6 s
  { a.2 with keys := { a.2.keys with group := tput none a.2.keys.group g (some (BitVec.ofNat 384 a.1)) } }

/-- The fold's keys are destroyed; the key of its share group is replaced (log entry 53). -/
def dropFoldKeys (s : State) (f : Nat) : State :=
  let k := s.keys
  let s := { s with keys := { k with sealKey := tput none k.sealKey f none, prefixKey := tput none k.prefixKey f none } }
  let g := groupOf (rget s (srvReg 0x200)) f
  if g = 0 then s else drawGroupKey s g

/-! ## Formation (R416, R525) -/

/-- Park area in the words of an FLD_CFG block: local address and length. -/
def parkOf (w : Nat → Word) : Nat × Nat := (fld (w 11) 49 0, fld (w 12) 47 0)

def parkArea (s : State) (f : Nat) : Nat × Nat := parkOf (fldW s f)

/-- ERR 2: a ring range that runs into ring 65,535 (R413), more request entries than there are, a commons area outside
offsets 0x0200_0000 to 0x07FF_FFFF (R525), a park area that is not DRAM. -/
def foldRangeBad (s : State) (f : Nat) : Bool :=
  let w := fldW s f 8
  let c := foldCmn s f
  let p := parkArea s f
  (fld w 32 16 != 0 && 65535 < fld w 15 0 + fld w 32 16) || nReq < fld (fldW s f 9) 17 0 ||
  (c.2 != 0 && !(0x2000000 ≤ c.1 && c.1 + c.2 ≤ 0x8000000)) ||
  (p.2 != 0 && !(region s.grade p.1 == .dram && populated s.grade p.1 p.2))

/-- ERR 3: a core group of cores that do not exist (R3). -/
def foldGroupAbsent (s : State) (f : Nat) : Bool :=
  (List.range 48).any fun g => bit (fldW s f 1) g && !(coreOk s (4 * g))

/-- The line of the interleaved view at row `row` of global bank g: R98 read backwards. -/
def ilvLine (g row : Nat) : Nat :=
  let q := row * 32 + ((g % 32) ^^^ (row % 32))
  let h := (q ^^^ (q >>> 7) ^^^ (q >>> 14)) % 512
  q * 384 + (g / 32 + 768 - h) % 384

/-- n bytes of the interleaved view from a and m bytes of the bank-linear view from b share a DRAM byte (R97-R100): bank by
bank, the rows that lie whole between the first and the last row of the one, and those two rows themselves. -/
def viewsMeet (a n b m : Nat) : Bool :=
  let r0 := a / 98304 / 32
  let r1 := (a + n - 1) / 98304 / 32
  let g0 := (b - blinBase) / 0x8000000
  n != 0 && m != 0 && (rangeFrom g0 ((b + m - 1 - blinBase) / 0x8000000 + 1 - g0)).any fun g =>
    let base := blinBase + g * 0x8000000
    let lo := max b base
    let hi := min (b + m) (base + 0x6000000)
    let ra := (lo - base) / 256
    let rb := (hi - 1 - base) / 256
    let edge (row : Nat) : Bool :=
      let x := 256 * ilvLine g row
      let y := base + 256 * row
      let u := (max a x - x, min (a + n) (x + 256) - x)
      let v := (max lo y - y, min hi (y + 256) - y)
      ra ≤ row && row ≤ rb && u.1 < u.2 && v.1 < v.2 && u.1 < v.2 && v.1 < u.2
    lo < hi && ((max ra (r0 + 1) ≤ rb && max ra (r0 + 1) < r1) || edge r0 || edge r1)

/-- Two areas of DRAM share a byte, whatever view each is named in. -/
def areasMeet (a n b m : Nat) : Bool :=
  if a < ilvEnd ∧ ilvEnd ≤ b then viewsMeet a n b m
  else if b < ilvEnd ∧ ilvEnd ≤ a then viewsMeet b m a n
  else n != 0 && meets a n b (b + m)

/-- Two FLD_CFG blocks share a core, a channel, a ring, a hub tally or bytes of a park area. -/
def cfgsMeet (v w : Nat → Word) : Bool :=
  let p := parkOf v
  let q := parkOf w
  (v 1 &&& w 1) != 0 || (List.range 6).any (fun i => (v (2 + i) &&& w (2 + i)) != 0) ||
  meets (fld (v 8) 15 0) (fld (v 8) 32 16) (fld (w 8) 15 0) (fld (w 8) 15 0 + fld (w 8) 32 16) ||
  (v 10 &&& w 10) != 0 || areasMeet p.1 p.2 q.1 q.2

/-- The first check that fails, 0 where none does: ranges, core groups, then overlap with the active folds and with what is being
filled (R525). -/
def foldErr (s : State) (f : Nat) : Nat :=
  if foldRangeBad s f then 2
  else if foldGroupAbsent s f then 3
  else if (List.range 16).any (fun g => g != f && foldActive s g && cfgsMeet (fldW s f) (fldW s g)) ||
    s.folds.fills.any (fun x => cfgsMeet (fldW s f) fun i => x.cfg.getD i 0) then 1
  else 0

/-- ENABLE goes from 0 to 1 (R416, R526). -/
def formFold (s : State) (f : Nat) : State :=
  let a := fldReg f 0
  let e := foldErr s f
  let s := rset s a (setFld (setBit (rget s a) 0 true) 7 4 e)
  if e = 0 then drawFoldKeys (rset s a (setBit (rget s a) 1 true)) f else s

/-! ## What a fold held (R524) -/

/-- Rings of fold f whose descriptor is enabled or that have not stopped. -/
def foldRings (s : State) (f : Nat) : List Nat :=
  let base := ringReg 0 0
  let en := s.regs.filterMap fun e =>
    if base ≤ e.1 ∧ e.1 < ringReg 65536 0 ∧ (e.1 - base) % 64 = 0 ∧ bit e.2 0 then some ((e.1 - base) / 64) else none
  let live := s.rings.filterMap fun e => if e.2.state ≠ 0 then some e.1 else none
  ((en ++ live).eraseDups).filter fun n => n != 65535 && foldRing s f n

/-- A channel lets go of everything but its bad TSVs; the cycles in which its hold queue was full are counted (R122). -/
def clearChan (s : State) (g : Nat) : State :=
  let ch := getChan s g
  let s := match ch.fullAt with | some t => rinc s (chnReg g 0x18) (2 * (s.time - t)) | none => s
  setChan s g { tsvs := ch.tsvs }

/-- The launches of fold f end on every channel, and its channels hold nothing more; nothing waits for their accesses. -/
def foldChannels (s : State) (f : Nat) : State :=
  let s := { s with launches := s.launches.map fun e => (e.1, e.2.map fun l =>
    if l.fold = f then { l with chans := l.chans.map fun (c : LaunchCh) => if c.state = 0 then { c with state := 2 } else c } else l) }
  ((List.range 384).filter (foldChan s f)).foldl clearChan
    { s with asks := s.asks.filter (fun k => k.fold != some f), parNbu := s.parNbu.filter fun gb => !(foldChan s f (gb / 32)) }

/-- Commands of the launch units of a core whose launches have ended get their records. -/
def endLaunches : Nat → Nat → State → State
  | 0, _, s => s
  | n + 1, c, s => match execLaunchComplete c s with | .next t => endLaunches n c t | _ => s

/-- Every command that a ring's queues or service engine have taken gets its record (R12): accepted service commands end with
ST_CANCELLED, and the area takes what it has room for. -/
def lastRecords (s : State) (n : Nat) : State :=
  let r := getRing s n
  let opens := r.opens.map fun o => if o.fin.isNone then { o with fin := some (svcRec s n o.tag stCancelled 0 o.irq) } else o
  let s := svcDrain n (opens.length + 1) (setRing s n { r with opens := opens, acting := none })
  let s := (ringCtxs s n).foldl (fun t p =>
    let w := whoOf t p.1 p.2.1 p.2.2
    let k := getCtx t p.1 p.2.1 p.2.2
    let os := k.opens.map fun o => match o.post with | some v => { o with fin := some v, post := none } | none => o
    drainOpens w (os.length + 1) (setCtx t p.1 p.2.1 p.2.2 { k with opens := os })) s
  let k := (ringCtxs s n).foldl (fun a p => a + (getCtx s p.1 p.2.1 p.2.2).waiting.length) (getRing s n).waiting.length
  flushRecs n k s

/-- A ring lets go of its contexts, whatever record found no room (log entry 54). -/
def forceStop (s : State) (n : Nat) : State :=
  let s := (memberCores s n).foldl (fun t c => match ringCtx t c n with | some x => releaseCtx t c n x | none => t) s
  setRing s n {}

/-- Step 2 of R524: the fold's rings are disabled (R395) and its launches dropped. -/
def foldStop (s : State) (f : Nat) : State :=
  let rs := foldRings s f
  let s := rs.foldl (fun t n => ringDisable (rset t (ringReg n 0) (setBit (rget t (ringReg n 0)) 0 false)) n) s
  let s := foldChannels s f
  let s := (foldCores s f).foldl (fun t c => endLaunches 2048 c t) s
  let s := (rs.map fun n => (n, (getRing s n).state)).foldl (fun t p => if p.2 = 0 then t else forceStop (lastRecords t p.1) p.1) s
  { s with launches := s.launches.filter fun e => match e.2 with | some l => l.fold != f | none => false,
           folds := { s.folds with held := s.folds.held.filter fun h => h.1 != f },
           puts := s.puts.filter fun p => p.fold != f }

/-- Pools that fold f has defined. -/
def foldPools (s : State) (f : Nat) : List Nat :=
  s.srv.pools.filterMap fun e => if e.2.isSome && (poolGeo s e.1).fold == f then some e.1 else none

/-- Step 2 of R524: requests of other folds in the fold's pools drain, and their models are unbound. -/
def foldGuests (s : State) (f : Nat) : State :=
  let ps := foldPools s f
  let s := ((liveReqs s).filter fun i => eFold s i != f && ps.contains (getReq s i).pool && eState s i ≤ 4).foldl
    (fun t i => releaseSlots (endReq t i stAccess 3 false) i false) s
  (s.srv.models.filter fun e => e.2.bound && e.2.fold != f && ps.contains e.2.pool).foldl (fun t e => modelForget t e.1) s

/-- Step 5 of R524 in the serving engine: models, requests, pools, and the fold's prefix entries. -/
def foldServing (s : State) (f : Nat) : State :=
  let s := { s with srv := { s.srv with prefixes := s.srv.prefixes.filter fun e => e.fold != f } }
  let s := { s with srv := { s.srv with cmds := s.srv.cmds.filter fun c => ringFold s c.ring != some f } }
  let mine := (liveReqs s).filter fun i => eFold s i == f
  let s := (mine.map fun i => (i, (getReq s i).pool)).foldl (fun t p => prefixSweep (freeReq t p.1) p.2) s
  let s := (s.srv.models.filter fun e => e.2.bound && e.2.fold == f).foldl
    (fun t e => rset (prefixSweep (setModel t e.1 {}) e.2.pool) (srvReg (0x4000 + 8 * e.1)) 0) s
  let s := (foldPools s f).foldl poolForget s
  rtCount ((s.srv.pools.map (·.1)).foldl poolStat s)

/-- A location that step 4 of R524 writes. -/
def foldLoc (s : State) (f l : Nat) : Bool :=
  if isDramLoc l then foldChan s f (locChan l) && !(fwReserved s l)
  else if isSpdLoc l then foldCore s f (locCore l)
  else
    let r := foldCmn s f
    cmnBase + r.1 ≤ l && l < cmnBase + r.1 + r.2

/-- Step 4 of R524: all-zero codewords over the fold's memory (R228, R435). -/
def foldZero (s : State) (f : Nat) : State :=
  { s with mem := tdrop (foldLoc s f) s.mem, lost := tdrop (fun k => foldCore s f (k / 3)) s.lost, errs := tdrop (foldLoc s f) s.errs, gerrs := tdrop (foldLoc s f) s.gerrs,
           ecc := { s.ecc with writeback := s.ecc.writeback.filter fun l => !(foldLoc s f l) } }

/-- The registers of a core that an FLR clears (R57, R93, R211, R229, R264, R302, R536). -/
def coreFlrRegs (s : State) (c : Nat) : State :=
  let s := rset s (coreReg c 0xC00) 0
  let s := rset s (coreReg c 0xC40) (setBit (setBit (rget s (coreReg c 0xC40)) 3 false) 0 false)
  let s := (List.range 4).foldl (fun t q => rset t (coreReg c (0x800 + 16 * q)) (setBit (rget t (coreReg c (0x800 + 16 * q))) 16 false)) s
  let s := rset s (coreReg c 0xD00) (setFld (rget s (coreReg c 0xD00)) 3 0 0)
  let s := rset s (coreReg c 0x890) 0
  let s := rset s (coreReg c 0xE10) 0
  let s := { s with regs := tdrop (fun a => coreReg c 0xE40 ≤ a && a < coreReg c 0xF40) s.regs }
  rset s (crkReg (0x100 * c)) 0

/-- Step 5 of R524 in the cores and hubs (R54, R67, R170, R184, R193, R264, R291, R303). -/
def foldRegs (s : State) (f : Nat) : State :=
  let own := foldCore s f
  let hub := fldW s f 10
  let tal (k : Nat) : Bool := if k / 64 < 192 then own (k / 64) else bit hub (k % 64)
  let s := { s with
    acc := tdrop (fun k => own (k / 1048576)) s.acc, accTy := tdrop (fun k => own (k / 64)) s.accTy,
    flags := tdrop (fun k => own (k / 256)) s.flags, tallies := tdrop tal s.tallies,
    ars := tdrop (fun k => own (k / 512)) s.ars, xs := tdrop (fun k => own (k / 256)) s.xs,
    crk := tdrop own s.crk, epoch := s.epoch + 1,
    parAcc := s.parAcc.filter fun k => !(own (k / 64)), parX := s.parX.filter fun k => !(own (k / 256)) }
  let s := (foldCores s f).foldl (fun t c => coreFlrRegs (setCore t c { getCore t c with draws := 0 }) c) s
  let s := (List.range 12).foldl (fun t k => rset t (stkReg k 0x110) (rget t (stkReg k 0x110) &&& ~~~hub)) s
  rset s (secReg (0x400 + 8 * f)) 0

/-- A fill runs on stack k (R524). -/
def fillOn (s : State) (k : Nat) : Bool :=
  s.folds.fills.any fun x => fld (x.cfg.getD (2 + k / 2) 0) (32 * (k % 2) + 31) (32 * (k % 2)) != 0

/-- The fill of fold f begins: FILLING is set, and the CAP of its stacks is at least 4 (R524, R539). It ends at a free time within
60 ms. -/
def startFill (s : State) (f : Nat) (again : Bool) : State :=
  let d := draw (rset s (secReg 0) (setBit (rget s (secReg 0)) (16 + f) true))
  let x : Fill := { fold := f, again := again, due := s.time + Config.freeNat d.1 % (60000 * Config.tick), cfg := (List.range 15).map (fldW s f) }
  let s : State := { d.2 with folds := { d.2.folds with fills := d.2.folds.fills.filter (fun y => y.fold != f) ++ [x] } }
  (List.range 12).foldl (fun t k =>
    if fillOn t k then rfld t (stkReg k 0x100) 5 0 (max 4 (fld (rget t (stkReg k 0x100)) 5 0)) else t) s

/-- A fill ends: FILLING clears, and for a reset new keys are drawn (R524). -/
def endFill (s : State) (x : Fill) : State :=
  let s := rset s (secReg 0) (setBit (rget s (secReg 0)) (16 + x.fold) false)
  let s : State := { s with folds := { s.folds with fills := s.folds.fills.filter fun y => y.fold != x.fold } }
  if x.again then drawFoldKeys s x.fold else s

/-- The fills that have lasted their time end. -/
def endFills (s : State) : State := (s.folds.fills.filter fun x => x.due ≤ s.time).foldl endFill s

/-- The sequence of R524 up to the fill: what the fold held is stopped, forgotten and zero, and FILLING is set until the fill
ends (log entry 54). -/
def foldClear (s : State) (f : Nat) (again : Bool) : State :=
  let s := foldGuests (foldStop s f) f
  let s := foldZero (dropFoldKeys (foldServing s f) f) f
  startFill (foldRegs s f) f again

/-- ENABLE goes from 1 to 0 (R416): an active fold is released. -/
def releaseFold (s : State) (f : Nat) : State :=
  let s := if foldActive s f then foldClear s f false else s
  rset s (fldReg f 0) (setFld (rget s (fldReg f 0)) 1 0 0)

/-! ## The FLD_CFG block (R415-R418) -/

/-- Bits of word w of FLD_CFG that software writes. -/
def fldMask (w : Nat) : Nat :=
  match w with
  | 1 => 0xFFFFFFFFFFFF
  | 8 => 0x1FFFFFFFF
  | 9 => 0xFFFFFFFF0003FFFF
  | 11 => 0x3FFFFFFFFFFFF
  | 12 => 0xFFFFFFFFFFFF
  | 13 => 0xFF
  | _ => if 2 ≤ w ∧ w ≤ 7 ∨ w = 10 then 0xFFFFFFFFFFFFFFFF else 0

/-- A write of a regulator's register (R418): its buckets start at BURST when EN goes to 1. -/
def regulatorWrite (s : State) (f k : Nat) (v : Word) : State :=
  let a := fldReg f (0x100 + 8 * k)
  let old := regW s f k
  -- levels so far are kept in the old measure of time
  let lv := (List.range 12).map fun st => bktLevel s f k st
  let s := rset s a (v &&& 0xFFFFFFFF03FF)
  let full : Int := ((fld v 47 16 * (if k = 1 then 1 else 4096) * bktScale : Nat) : Int)
  let start (st : Nat) : Int := if !(bit old 9) && bit v 9 then full else min full (lv.getD st 0)
  (List.range 12).foldl (fun t st =>
    { t with folds := { t.folds with buckets := tput {} t.folds.buckets (bktKey f k st) { level := start st, at_ := t.time } } }) s

/-- The fold's configuration is frozen while its function's TDI is locked (R501). -/
def tdiFrozen (s : State) (f : Nat) : Bool :=
  let t := tget .unlocked s.hif.tdi (f + 1)
  t == .locked || t == .run

/-- A write of the FLD_CFG block of fold f at offset o; v is the whole word's new value. -/
def fldWrite (s : State) (f o : Nat) (v : Word) : State :=
  if 16 ≤ f || o % 8 != 0 || tdiFrozen s f then s
  else if o = 0 then
    let en := bit (fldW s f 0) 0
    if !en && bit v 0 then formFold s f else if en && !(bit v 0) then releaseFold s f else s
  else if o < 0x78 then
    if foldActive s f ∧ o ≠ 0x48 ∧ o ≠ 0x68 then s
    else rset s (fldReg f o) (v &&& BitVec.ofNat 64 (fldMask (o / 8)))
  else if 0x100 ≤ o ∧ o < 0x130 then regulatorWrite s f ((o - 0x100) / 8) v
  else s

/-! ## REGULATOR_RELEASE (R417) -/

/-- The first unit that regulator k of fold f holds toward stack st goes on, once the bucket's level is not negative. -/
def execRegulatorRelease (f k st : Nat) (s : State) : Out State :=
  if 16 ≤ f ∨ 6 ≤ k ∨ 12 ≤ st then .fault .noSuchUnit
  else if !(regGo s f k st) then .next s
  else
    let isIt (h : Nat × Nat × Nat × Access) : Bool := h.1 == f && h.2.1 == k && h.2.2.1 == st
    match s.folds.held.find? isIt with
    | none => .next s
    | some h =>
      let a := h.2.2.2
      let s := { s with folds := { s.folds with held := s.folds.held.takeWhile (fun x => !(isIt x)) ++ (s.folds.held.dropWhile (fun x => !(isIt x))).drop 1 } }
      let s := regCharge s f k st (accessLen a)
      .next (channelTakes s (locChan a.addr) a)

end Sys2Proof.Machine
end

