-- ==== Sys2Proof/Machine/Integrity.lean ====
section
/-! DEFINITION. Background work on stored data (chapters 08, 16): scratchpad write-back and starvation, repairs, the graze,
bank sparing, TSV remap, and the loss of firmware code. -/

namespace Sys2Proof.Machine

/-! ## Scratchpads -/

/-- SPD_CE_WRITEBACK (R226): a corrected granule, counted from 0 in core c's window, is written back. -/
def execSpdCeWriteback (c granule : Nat) (s : State) : Out State :=
  onCore s c <|
  if 0xC0000 ≤ granule then .fault .noSuchUnit
  else
    let u := spdWin c + 8 * granule
    .next (if u ∈ s.ecc.writeback then rewriteSram s u else s)

/-- DMA_STARVE (R221, R230). -/
def execDmaStarve (c : Nat) (s : State) : Out State :=
  onCore s c (.next (ror (rinc s (coreReg c 0xD10) 1) (coreReg c 0xD00) 2))

/-! ## Repairs and the graze (R428, R429, R436, R437) -/

/-- REPAIR (R429): the oldest word of a stack's queue becomes an ordinary access of its channel. -/
def execRepair (k : Nat) (s : State) : Out State :=
  if !(stackOk k) then .fault .noSuchUnit
  else
    let st := tget {} s.stks k
    match st.repairs with
    | [] => .next s
    | (u, _) :: t =>
      let s := { s with stks := tput {} s.stks k { st with repairs := t } }
      .next (channelTakes s (locChan u) { addr := u, len := 32, write := false, kind := .repair })

/-- A graze pass begins (log entry 55): the counts of one graze period start again (R438, R444). -/
def grazePass (s : State) : State :=
  { s with ecc := { s.ecc with passStart := s.time, bankCe := [], bankUe := [] },
           cores := s.cores.filterMap fun e => if ({ e.2 with parErrs := 0 } : CoreSt) = {} then none else some (e.1, { e.2 with parErrs := 0 }) }

/-- GRAZE_VISIT (R437) of the word or granule at a location. -/
def execGrazeVisit (a : Nat) (s : State) : Out State :=
  let r := region s.grade a
  if !(r == .dram && blinBase ≤ a || r == .spd || r == .cmn) then .fault .noSuchUnit
  else
    let u := unitOf a
    let s := if u = blinBase then grazePass s else s
    if r = .dram then .next (channelTakes s (locChan u) { addr := u, len := 32, write := false, kind := .graze })
    else .next (grazeUnit s u)

/-- GRAZE_H in force, in ticks (R450). -/
def grazeTicks (s : State) : Nat := 3600000000 * Config.tick * min 168 (max 1 (fld (rget s (eccReg 0)) 7 0))

/-- GRAZE_LATE (R436): a pass has taken longer than 1.1 times the period. -/
def execGrazeLate (s : State) : Out State :=
  if 11 * grazeTicks s < 10 * (s.time - s.ecc.passStart) then .next (grazePass (ror s (eccReg 8) 2)) else .next s

/-! ## Bank sparing (R438-R442) -/

def spareReg (bank : Nat) : Nat := chnReg (bank / 32) 0x68

/-- A bank answers from a spare, or is being moved to one. -/
def bankSpared (s : State) (bank : Nat) : Bool :=
  let v := rget s (spareReg bank)
  bit v (bank % 32) || (bit v 37 && fld v 36 32 == bank % 32)

/-- SPARE_THRESH (R450). -/
def spareThresh (s : State) : Nat := max 1 (fld (rget s (eccReg 0)) 23 16)

/-- A bank's migration is due (R438). -/
def migrationDue (s : State) (bank : Nat) : Bool :=
  s.ecc.requests.contains bank ||
  (bit (rget s (eccReg 0)) 24 && spareThresh s ≤ (tget [] s.ecc.bankCe bank).length) ||
  spareThresh s ≤ tget 0 s.ecc.bankUe bank

/-- MIGRATION_START (R438, R439): a channel moves one bank at a time. -/
def execMigrationStart (bank : Nat) (s : State) : Out State :=
  if 12288 ≤ bank then .fault .noSuchUnit
  else if !(migrationDue s bank) || bankSpared s bank then .next s
  else
    let v := rget s (spareReg bank)
    let die := bank / 64
    if bit v 37 then .next s
    else
      let s := { s with ecc := { s.ecc with requests := s.ecc.requests.filter (· ≠ bank) } }
      if 2 ≤ tget 0 s.ecc.sparesUsed die then .next (ror s (eccReg 8) 8)
      else
        let s := { s with ecc := { s.ecc with sparesUsed := tput 0 s.ecc.sparesUsed die (tget 0 s.ecc.sparesUsed die + 1) } }
        .next (rset s (spareReg bank) (setFld (setBit v 37 true) 36 32 (bank % 32)))

/-- The copy of one stored word whose codeword differs from its data (R440): one bad symbol is corrected, an
uncorrectable codeword stays. -/
def spareCopy (s : State) (u : Nat) : State :=
  let v := unitView s u
  if v.ue then logUe s { path := 15 } u v.syn
  else if v.ce then
    let s := applyView s u
    lifeCe (rinc { s with errs := tput 0 s.errs u 0 } (chnReg (locChan u) 0x30) 1) (locChan u)
  else s

/-- A flip mask armed on the channel meets the copy's writes (R445): the named word, or the first. -/
def spareFlip (s : State) (bank : Nat) : State :=
  let c := rget s (chnReg (bank / 32) 0x60)
  let u := bankAddr bank (if bit c 33 then 32 * fld c 61 40 else 0)
  let r := flipDram s u
  if r.2 = 0 then r.1 else { r.1 with errs := tput 0 r.1.errs u (tget 0 r.1.errs u ^^^ r.2) }

/-- SPARE_SWITCH (R441, R442): not during a bout. The copy is taken whole here (log entry 56). -/
def execSpareSwitch (bank : Nat) (s : State) : Out State :=
  if 12288 ≤ bank then .fault .noSuchUnit
  else
    let v := rget s (spareReg bank)
    if !(bit v 37) || fld v 36 32 != bank % 32 || (getChan s (bank / 32)).mode == 2 then .next s
    else
      let us := s.errs.filterMap fun e => if locBank e.1 = bank then some e.1 else none
      let s := spareFlip (us.foldl spareCopy s) bank
      let w := setFld (setFld (setBit v (bank % 32) true) 54 38 0) 37 32 0
      -- the bank's NBU state moves in up to 64 NBU cycles of the next bout
      let d := draw s
      let ch := getChan d.2 (bank / 32)
      let s := if ch.mode = 3 then setChan d.2 (bank / 32) { ch with move := ch.move + Config.freeNat d.1 % 65 } else s
      .next (lifeAdd (rset s (spareReg bank) w) false 0x0012 bank)

/-- TSV_REMAP (R443): outside bouts; a third bad TSV of a channel is not covered. -/
def execTsvRemap (g : Nat) (s : State) : Out State :=
  if !(chanOk g) then .fault .noSuchUnit
  else
    let ch := getChan s g
    if ch.mode = 2 ∨ 2 ≤ ch.tsvs then .next s
    else .next (lifeAdd (setChan s g { ch with tsvs := ch.tsvs + 1 }) false 0x0013 g)

/-! ## Firmware code (R433) -/

/-- A service ring halts: its running and accepted commands end with a status. -/
def svcKill (s : State) (n st : Nat) : State :=
  let r := getRing s n
  let opens := r.opens.map fun o => if o.fin.isNone then { o with fin := some (svcRec s n o.tag st 0 o.irq) } else o
  haltMember (svcDrain n (opens.length + 1) (setRing s n { r with opens := opens, acting := none })) n 0

/-- Every service ring that is bound halts; what its commands wait for is dropped. -/
def svcKillAll (s : State) (st : Nat) : State :=
  let rs := s.rings.filterMap fun e => if ringTarget s e.1 ≠ 0 ∧ (e.2.state = 1 ∨ e.2.state = 2 ∨ e.2.state = 3) then some e.1 else none
  rs.foldl (fun t n => svcKill t n st) { s with srv := { s.srv with cmds := [] } }

/-- FW_CODE_RELOAD (R433): the event is logged with path 13 at an address and syndrome left open (free values). -/
def execFwCodeReload (ok : Bool) (s : State) : Out State :=
  let d := draw s
  let w := Config.freeWord d.1
  let s := raiseErr (logUeRec d.2 { path := 13 } (fld w 55 0) (fld w 63 56))
  if ok then .next s
  else .next (svcKillAll (raiseErr (setAlert (ror s (eccReg 8) 16) 16)) stUncorr)

end Sys2Proof.Machine
end

