-- ==== Sys2Proof/Machine/Links.lean ====
section
/-! DEFINITION. Fabric links and membership (R458-R485, R520, R552): lanes, replays, links going down, missing members,
bring-up and domain reset. -/

namespace Sys2Proof.Machine

/-! ## Links (R458-R465, R484) -/

def linkReg (l : Nat) : Nat := swvReg (0x100 + 8 * l)
def getLink (s : State) (l : Nat) : LinkSt := tget {} s.fab.links l
def setLink (s : State) (l : Nat) (v : LinkSt) : State := { s with fab := { s.fab with links := tput {} s.fab.links l v } }
def linkUp (s : State) (l : Nat) : Bool := bit (rget s (linkReg l)) 10
def linkPeer (s : State) (l : Nat) : Nat := fld (rget s (linkReg l)) 26 21
def linkDir (s : State) (l : Nat) : Nat := fld (rget s (linkReg l)) 20 18
/-- Lanes in use. -/
def linkLanes (s : State) (l : Nat) : BitVec 4 := BitVec.ofNat 4 (fld (rget s (linkReg l)) 7 4)

/-- LANES_OK and WIDTH for a set of lanes in use. -/
def setLanes (s : State) (l : Nat) (m : BitVec 4) : State :=
  rset s (linkReg l) (setFld (setFld (rget s (linkReg l)) 7 4 m.toNat) 9 8 (popc 4 m.toNat - 1))

/-- DOMAIN_STATE (R481). -/
def domainState (s : State) : Nat := fld (rget s (swvReg 0)) 1 0
def domainTopo (s : State) : Nat := fld (rget s (swvReg 0)) 9 8
def memberBit (s : State) (d : Nat) : Bool := bit (rget s (swvReg 8)) d
def missingBit (s : State) (d : Nat) : Bool := bit (rget s (swvReg 0x10)) d
/-- Members other than this device that are not missing. -/
def peers (s : State) : List Nat := (List.range 64).filter fun d => d != s.devid && memberBit s d && !(missingBit s d)

/-- Coordinate i of device d in a TORUS (R468). -/
def coord (d i : Nat) : Nat := d / 4 ^ i % 4

/-- A live link of this device satisfies p. -/
def someLink (s : State) (p : Nat → Bool) : Bool := (List.range 32).any fun l => linkUp s l && p l

/-- Device d is reachable over this device's own live groups (R469, R470): in a TORUS those of the first dimension that the
route takes, as later dimensions leave from other devices. -/
def reachable (s : State) (d : Nat) : Bool :=
  match domainTopo s with
  | 1 => someLink s fun l => linkPeer s l == d || (peers s).contains (linkPeer s l)
  | 2 => match (List.range 3).find? fun i => coord d i != coord s.devid i with
    | some i => someLink s fun l => linkDir s l / 2 == i
    | none => true
  | _ => d == s.devid

/-- A notice that device d is missing, to every reachable member (R477). -/
def sendNotices (s : State) (d : Nat) : State :=
  ((peers s).filter (reachable s)).foldl (fun t p =>
    sendFab t { dst := p, src := t.devid, cls := .tal, op := .degraded, operand := BitVec.ofNat 64 d }) s

/-- The transfer that a context runs has pieces left for a device that p names: it faults with ST_FLT_LINK, its COUNT the
bytes before them (R478, R479). -/
def faultOut (p : Nat → Bool) (s : State) (c x : Nat) : State :=
  match (getCtx s c 2 x).run with
  | none => s
  | some r =>
    if r.todo.any fun q => p (gDev q.addr) then
      let inner := max 1 (cInner r.cmd)
      faultCmd s (whoOf s c 2 x) r.cmd (cTag r.cmd) stLink (r.pos % inner) (r.pos / inner) (r.count + r.moved)
    else s

/-- Fabric work that is outstanding to the devices that p names faults, in whichever context (R478, R479). -/
def faultFabric (p : Nat → Bool) (s : State) : State :=
  (List.range (Config.cores s.grade)).foldl (fun t c => (List.range 8).foldl (fun u x => faultOut p u c x) t) s

/-- This member is DEGRADED without device d (R477), and work outstanding to d faults (R478). -/
def degrade (s : State) (d : Nat) : State :=
  let s := rfld (faultFabric (· == d) s) (swvReg 0) 1 0 3
  raiseFab (rset s (swvReg 0x10) (setBit (rget s (swvReg 0x10)) d true))

/-- Device d has become missing, and this device is the first to see it (R477). -/
def loseMember (s : State) (d : Nat) : State :=
  if d = s.devid ∨ !(memberBit s d) ∨ missingBit s d ∨ !(domainState s == 2 || domainState s == 3) then s
  else sendNotices (degrade s d) d

/-- A link goes down (R464): members that can no longer be reached become missing (R480). -/
def dropLink (s : State) (l : Nat) : State :=
  if !(linkUp s l) then s
  else
    let v := rget s (linkReg l)
    let s := rset s (linkReg l) (setFld (setBit v 10 false) 9 4 0)
    let s := setLink s l { getLink s l with replays := 0, reeq := none, idle := 0, macMiss := false }
    let s := raiseFab (lifeAdd s true 0x0020 l)
    ((peers s).filter fun d => !(reachable s d)).foldl loseMember s

/-- A row about a link that is up. -/
def onLink (s : State) (l : Nat) (k : Out State) : Out State :=
  if 32 ≤ l then .fault .noSuchUnit else if linkUp s l then k else .next s

/-- NAK_REPLAY (R461, R464, R485): eight replays of one flit take the link down. -/
def execNakReplay (l seq : Nat) (s : State) : Out State :=
  onLink s l <|
    let k := getLink s l
    let n := if k.replaySeq = seq % 4096 then k.replays + 1 else 1
    let s := rinc (setLink s l { k with replaySeq := seq % 4096, replays := n }) (swvReg (0x200 + 8 * l)) 1
    .next (if 8 ≤ n then dropLink s l else s)

/-- MAC_GROUP_CLOSE (R462): the group counter never repeats under one key. -/
def execMacGroupClose (l : Nat) (s : State) : Out State :=
  onLink s l <|
    let k := getLink s l
    .next (if k.keys then setLink s l { k with groups := k.groups + 1 } else s)

/-- AGE_INCREMENT (R471): messages that wait grow older, up to 255. -/
def execAgeIncrement (s : State) : Out State :=
  .next { s with fabOut := s.fabOut.map fun m => { m with age := min 255 (m.age + 1) } }

/-- LANE_DROP (R463, R465, R552): the link goes on after a replay, and goes down below 2 lanes; a re-equalisation ends
and its lane rejoins. -/
def execLaneDrop (l lane : Nat) (s : State) : Out State :=
  onLink s l <|
    if 4 ≤ lane then .fault .noSuchUnit
    else
      let m := linkLanes s l
      if !(bit m lane) then .next s
      else
        let k := getLink s l
        let m := match k.reeq with | some j => setBit m j true | none => m
        let m := setBit m lane false
        let s := lifeAdd (rinc (setLink s l { k with reeq := none }) (swvReg (0x200 + 8 * l)) 1) true 0x0020 (64 + 4 * l + lane)
        .next (if popc 4 m.toNat < 2 then dropLink s l else setLanes s l m)

/-- LINK_ACK_TIMEOUT (R464). -/
def execLinkAckTimeout (l : Nat) (s : State) : Out State := onLink s l (.next (dropLink s l))

/-- LINK_DOWN (R464). -/
def execLinkDown (l : Nat) (s : State) : Out State := onLink s l (.next (dropLink s l))

/-- LANE_REEQUALISATION (R551, R552): on a link with 4 active lanes, at most once in 10 s. -/
def execLaneReequalisation (l lane : Nat) (s : State) : Out State :=
  onLink s l <|
    if 4 ≤ lane then .fault .noSuchUnit
    else
      let k := getLink s l
      let early : Bool := match k.reeqAt with | some t => s.time < 10000000 * Config.tick + t | none => false
      if linkLanes s l ≠ 0xF ∨ early then .next s
      else .next (setLanes (setLink s l { k with reeq := some lane, reeqAt := some s.time }) l (setBit 0xF lane false))

/-- LANE_REEQUALISATION_DONE (R551). -/
def execLaneReequalisationDone (l : Nat) (s : State) : Out State :=
  onLink s l <|
    let k := getLink s l
    match k.reeq with
    | some j => .next (setLanes (setLink s l { k with reeq := none }) l (setBit (linkLanes s l) j true))
    | none => .next s

/-- The governor holds every link at 2 lanes, or lets its lanes return (R465, R544). -/
def governLinks (s : State) (hold : Bool) : State :=
  let one (t : State) (l : Nat) : State :=
    let k := getLink t l
    let m := linkLanes t l
    if !(linkUp t l) then t
    else if hold && k.idle == 0 && 2 < popc 4 m.toNat then
      let two := ((List.range 4).filter fun i => bit m i).take 2
      let keep : BitVec 4 := two.foldl (fun a i => setBit a i true) 0
      setLanes (setLink t l { k with idle := m &&& ~~~keep, reeq := none }) l keep
    else if !hold && k.idle != 0 then setLanes (setLink t l { k with idle := 0 }) l (m ||| k.idle)
    else t
  (List.range 32).foldl one s

/-! ## Membership (R476, R477, R520) -/

/-- MEMBER_MISSING (R477). -/
def execMemberMissing (d : Nat) (s : State) : Out State :=
  if 64 ≤ d then .fault .noSuchUnit else .next (loseMember s d)

/-- A DEGRADED notice arrives (R477); during bring-up the device is left out (R480). -/
def takeNotice (s : State) (d : Nat) : State :=
  if 64 ≤ d ∨ d = s.devid then s
  else if domainState s = 1 then { s with fab := { s.fab with noticed := s.fab.noticed ++ [d] } }
  else if !(memberBit s d) ∨ missingBit s d then s
  else if domainState s = 2 ∨ domainState s = 3 then degrade s d
  else s

/-- DEGRADED_NOTICE (R477). -/
def execDegradedNotice (d : Nat) (s : State) : Out State :=
  if 64 ≤ d then .fault .noSuchUnit else .next (takeNotice s d)

/-- The DIGEST of the running image of a kind (R517). -/
def imageDigest (s : State) (kind : Nat) : Nat := ((s.boot.images.find? fun i => i.kind == kind).map (·.digest)).getD 0

/-- MEASUREMENT_REPORT (R520): the lead compares once it is READY. -/
def execMeasurementReport (d m3 m4 : Nat) (s : State) : Out State :=
  if 64 ≤ d then .fault .noSuchUnit
  else if s.devid ≠ 0 ∨ s.boot.state ≠ 4 then .next s
  else if m3 = imageDigest s 2 ∧ m4 = imageDigest s 3 then .next s
  else .next (loseMember s d)

/-! ## Bring-up and domain reset (R474, R475, R479) -/

/-- A TORUS direction that reaches device d, if it is a neighbour (R468, R484). -/
def torusDir (s : State) (d : Nat) : Option Nat :=
  (List.range 6).find? fun g =>
    (List.range 3).all fun i =>
      let x := coord s.devid i
      coord d i == if i = g / 2 then (if g % 2 = 0 then (x + 1) % 4 else (x + 3) % 4) else x

/-- Measurement 2 (R517): the DIGEST of stage 1. -/
def measureStage1 (s : State) : Nat := imageDigest s 1

/-- Place of a kind's fused SVN in SEC_STATUS (R532). -/
def svnLow (kind : Nat) : Nat := match kind with | 1 => 32 | 2 => 40 | _ => 48

def fusedSvn (s : State) (kind : Nat) : Nat := fld (rget s (secReg 0)) (svnLow kind + 6) (svnLow kind)

def keyRevoked (s : State) (k : Nat) : Bool := k == 0 && bit (rget s (secReg 0)) 4

/-- Measurement 5 (R517): the fused SVNs of the three kinds and the revocation of key 0 (log entry 60). -/
def measureFuses (s : State) : Nat :=
  (sha384 ([1, 2, 3].map (fun k => BitVec.ofNat 8 (fusedSvn s k)) ++ [BitVec.ofNat 8 (keyRevoked s 0).toNat])).toNat

/-- This end of a link accepts its peer (R520): the chain, measurements 2 and 5 equal to its own, and a DEBUG_SCOPE of zero
unless ACCEPT_DEBUG_PEER was 1 when bring-up began (R533). -/
def accepts (s : State) (r : LinkReport) : Bool :=
  r.chain && r.m2 == measureStage1 s && r.m5 == measureFuses s && (r.scope == 0 || s.fab.acceptDebug)

/-- What training and attestation make of one link (R468, R474, R475, R484). -/
def linkReport (topo : Nat) (s : State) (r : LinkReport) : State :=
  if 32 ≤ r.link then s
  else
    let a := linkReg r.link
    let old := rget s a
    let dir := if topo = 2 then torusDir s r.peerDev else some 0
    let mis := r.peerDev = s.devid || dir.isNone
    let lanes := r.lanes
    let ok := accepts s r
    let up := r.trained && !mis && ok && 2 ≤ popc 4 lanes.toNat
    let w := BitVec.ofNat 64 ((r.peerLink % 32) * 2 ^ 27 + (r.peerDev % 64) * 2 ^ 21 + (dir.getD 0) * 2 ^ 18 +
      (!ok && r.trained).toNat * 2 ^ 13 + (mis && r.trained).toNat * 2 ^ 12 + up.toNat * 2 ^ 10 +
      (if r.trained then (popc 4 lanes.toNat - 1) * 2 ^ 8 + lanes.toNat * 2 ^ 4 else 0))
    let s := rset s a (w ||| (old &&& 0x800))
    setLink s r.link { keys := up, reeqAt := (getLink s r.link).reeqAt }

/-- The domain forms from the devices that have reported (R475): FULL of 2 to 16, TORUS of all 64, SINGLE of one. A device
without a link that has passed is no member; one that is left out has no keys, and its links carry MGT only (R480). -/
def formDomain (s : State) (topo : Nat) (devices : List Nat) : State :=
  let once := devices.filter fun d => d < 64 && (devices.filter (· == d)).length == 1 && !(s.fab.noticed.contains d)
  let n := once.length
  let ok := once.contains s.devid && once.contains 0 && (n == 1 || someLink s fun _ => true)
  let full := topo = 2 ∧ n < 64
  let fits := (topo = 0 ∧ n = 1) ∨ (topo = 1 ∧ 2 ≤ n ∧ n ≤ 16) ∨ topo = 2
  let st := if !(ok && fits) then 0 else if full then 3 else 2
  let mask : Nat := (once.map fun d => 2 ^ d).foldl (· + ·) 0
  let members := if st = 0 then 0 else mask
  let missing := if st = 3 then 2 ^ 64 - 1 - mask else 0
  let changed := st ≠ domainState s
  let s := rset s (swvReg 0) (BitVec.ofNat 64 (st + topo * 2 ^ 8))
  let s := rset (rset s (swvReg 8) (BitVec.ofNat 64 members)) (swvReg 0x10) (BitVec.ofNat 64 missing)
  let s := if changed then raiseFab s else s
  let links := if st = 0 then s.fab.links.map fun e => (e.1, { e.2 with keys := false }) else s.fab.links
  { s with boot := { s.boot with joined := true, step := max 7 s.boot.step }, fab := { s.fab with noticed := [], links := links } }

/-- Bring-up begins (R474, R481): BUSY is set, and DOMAIN_STATE is FORMING. SEC_POLICY as it stands applies (R533). -/
def startBringup (s : State) : State :=
  let s := rset s (swvReg 0) (setFld (setBit (rget s (swvReg 0)) 2 true) 1 0 1)
  { s with fab := { s.fab with began := s.time, noticed := [], acceptDebug := bit (rget s (secReg 8)) 0 } }

/-- A domain reset begins (R479): the fabric's outstanding work faults, and keys are renewed. -/
def startDomainReset (s : State) : State :=
  let s := raiseFab (startBringup (faultFabric (· != s.devid) s))
  { s with fab := { s.fab with links := s.fab.links.map fun e => (e.1, { e.2 with keys := false, groups := 0 }) } }

/-- Bring-up is under way, or may begin: step 6 of the boot, a domain reset, or the lead's bring-up met by a running
member (R474, R479, R574). -/
def bringupOpen (s : State) : Bool := s.boot.state == 4 || (s.boot.state == 1 && 5 ≤ s.boot.step && s.boot.step ≤ 7)

/-- FABRIC_BRINGUP (R474, R475): links, then the domain. A running member takes it as a domain reset (R574). -/
def execFabricBringup (topo : Nat) (devices : List Nat) (links : List LinkReport) (s : State) : Out State :=
  if 3 ≤ topo then .fault .noSuchUnit
  else if !(bringupOpen s) then .next s
  else
    let s := if s.boot.state = 4 ∧ !(bit (rget s (swvReg 0)) 2) then startDomainReset s else s
    .next (formDomain (links.foldl (linkReport topo) s) topo devices)

/-- BRINGUP_REPORT_DEADLINE (R475): 190 ms after bring-up began, the domain forms from those that have reported. -/
def execBringupReportDeadline (reported : List Nat) (s : State) : Out State :=
  let open_ := bit (rget s (swvReg 0)) 2 || (s.boot.state == 1 && !s.boot.joined)
  if !(bringupOpen s) || !open_ || s.time < 190000 * Config.tick + s.fab.began then .next s
  else
    let n := reported.eraseDups.length
    .next (formDomain s (if n ≤ 1 then 0 else if n ≤ 16 then 1 else 2) reported)

end Sys2Proof.Machine
end

