-- ==== Sys2Proof/Machine/RegSpec.lean ====
section
/-! DEFINITION. Register accesses (R6-R11, R276, R277): what each register reads as, and what a write to it does. Who may
reach a register is decided by the caller (R489, R523). -/

namespace Sys2Proof.Machine

open Sys2Proof.Config (Grade cores coresPerPdk)

/-! ## The core map (R19-R24) -/

/-- GLB_CORE_MAP_n (R23). -/
def coreMapReg (s : State) (c : Nat) : Word :=
  if cores s.grade ≤ c then 0
  else
    let p := corePdk s.grade c
    let phys := physCore s c
    let gen := min 255 (s.remaps.filter (· == c)).length
    BitVec.ofNat 64 (gen * 2 ^ 24 + 2 ^ 16 + p * 2 ^ 9 + phys / 100 * 2 ^ 8 + phys)

/-- GLB_CORE_SPARES (R24). -/
def coreSparesReg (s : State) : Word :=
  BitVec.ofNat 64 (((List.range 4).map fun p => (paddockMap s p).2.length * 2 ^ (8 * p)).foldl (· + ·) 0)

/-- GLB_PART_ID (R2). -/
def partId (s : State) : Word :=
  BitVec.ofNat 64 (0x5A442D48 * 2 ^ 32 + Config.bwMask s.grade * 2 ^ 24 + coresPerPdk s.grade * 2 ^ 16 +
    (match s.grade with | .f => 0x46 | .e => 0x45) * 2 ^ 8 + Config.stepping.toNat)

/-- The PCIe Device ID of the physical function (R1, R488). -/
def pfDeviceId (s : State) : Nat := match s.grade with | .f => 0x5A48 | .e => 0x5A49

/-- GLB_BOOT_STATUS (R577). -/
def bootReg (s : State) : Word :=
  let b := s.boot
  BitVec.ofNat 64 (b.seqErr.toNat * 2 ^ 32 + s.devid % 64 * 2 ^ 24 + b.strap % 4 * 2 ^ 20 + b.resetCause % 8 * 2 ^ 16 +
    b.exh % 16 * 2 ^ 12 + b.cause % 16 * 2 ^ 8 + b.step % 16 * 2 ^ 4 + b.state % 16)

/-! ## Views of cores, stacks, channels and models -/

/-- A matrix command of the core is stopped at a repeat boundary (R69, R93). DEDUCED (log entry 100): any run of a context
that is suspended or not current counts, a held WAIT or HURDLE of such a context too. -/
def arrayPaused (s : State) (c : Nat) : Bool :=
  (List.range 8).any fun x => let k := getCtx s c 0 x; k.run.isSome && (k.suspended || curCtx s c 0 != some x)

/-- The encoding of an entry's type (R95). -/
def tyCode : AccTy → Nat
  | .unset => 0 | .fp32 => 1 | .int32 => 2 | .int48 => 3

/-- The type of an entry as of the last finished command (R95): the one a running command found there, if one has
changed it. -/
def accTyShown (s : State) (c e : Nat) : AccTy :=
  let found := (List.range 8).findSome? fun x =>
    (getCtx s c 0 x).run.bind fun r => (r.tys.find? fun p => p.1 == accKey c e).map (·.2)
  found.getD (accTyOf s c e)

/-- Types of entries e0 to e0 + 31 (R95). -/
def accTypeReg (s : State) (c e0 : Nat) : Word :=
  BitVec.ofNat 64 (((List.range 32).map fun i => tyCode (accTyShown s c (e0 + i)) * 4 ^ i).foldl (· + ·) 0)

/-- CORE_ZS_STATUS (R271): a PAL.WRITE that waits, and its slot. -/
def zsStatus (s : State) (c : Nat) : Word :=
  let v := rget s (coreReg c 0xE10)
  match palPending s c with
  | some k => setFld (setBit v 16 true) 10 8 (palSlotNo k)
  | none => v

/-- A CORE_ register of core c at offset o. -/
def coreRead (s : State) (c o : Nat) : Word :=
  if cores s.grade ≤ c then 0
  else if 0x400 ≤ o ∧ o < 0x600 then
    BitVec.ofNat 64 (((List.range 4).map fun i => (getFlag s c (4 * ((o - 0x400) / 8) + i)).toNat * 65536 ^ i).foldl (· + ·) 0)
  else if 0x600 ≤ o ∧ o < 0x800 then (getTally s c ((o - 0x600) / 8)).setWidth 64
  else if o = 0xC40 then
    let v := rget s (coreReg c o)
    setBit (setBit v 2 ((curCtx s c 0) == some 6)) 1 (arrayPaused s c)
  else if o = 0xC50 then accTypeReg s c 0
  else if o = 0xC58 then accTypeReg s c 32
  else if o = 0xE10 then zsStatus s c
  else rget s (coreReg c o)

/-- A STK_ register of stack k. -/
def stkRead (s : State) (k o : Nat) : Word :=
  if 12 ≤ k then 0
  else if o = 0x100 then
    let v := rget s (stkReg k 0x100)
    setFld (setFld v 21 16 (stackChans s k fun c => c.mode == 5).length) 13 8 (computeNow s k)
  else if o = 0x120 then BitVec.ofNat 64 (tget {} s.stks k).repairs.length
  else if 0x200 ≤ o ∧ o < 0x400 then (getTally s (192 + k) ((o - 0x200) / 8)).setWidth 64
  else rget s (stkReg k o)

/-- CHN_STATUS (R121). -/
def chanStatus (s : State) (g : Nat) : Word :=
  let ch := getChan s g
  BitVec.ofNat 64 ((decide (64 ≤ ch.hold.length)).toNat * 2 ^ 16 + ch.hold.length * 2 ^ 8 + ch.launches.length * 2 ^ 4 +
    nextSlot s g % 2 * 2 ^ 3 + ch.mode)

/-- A CHN_ register of channel g. -/
def chanRead (s : State) (g o : Nat) : Word :=
  if 384 ≤ g then 0
  else
    let ch := getChan s g
    if o = 0 then chanStatus s g
    else if o = 0x18 then rget s (chnReg g 0x18) + BitVec.ofNat 64 (match ch.fullAt with | some t => 2 * (s.time - t) | none => 0)
    else rget s (chnReg g o)

/-- SRV_STEP_STATUS_m (R361). -/
def stepStatus (s : State) (m : Nat) : Word :=
  let d := getModel s m
  BitVec.ofNat 64 (d.parts % 256 * 2 ^ 56 + d.stray.toNat * 2 ^ 50 + d.bound.toNat * 2 ^ 49 + d.bnd.toNat * 2 ^ 48 +
    (d.steps - 1) % 2 ^ 48)

def srvRead (s : State) (o : Nat) : Word :=
  if 0x2000 ≤ o ∧ o < 0x3000 then (if o % 16 < 8 then stepStatus s ((o - 0x2000) / 16) else 0)
  else rget s (srvReg o)

/-! ## The host interface's slot of a function (R500, R508-R512) -/

/-- Where function fn's own copy of a HIF_ register is kept. -/
def hifKey (fn o : Nat) : Nat := hifReg o + fn * 2 ^ 56

/-- log2 of the BAR2 size of a function. -/
def bar2Log (s : State) (fn : Nat) : Nat := tget 28 s.hif.bar2 fn

/-- HIF_WIN_j of a function (R493, R511). -/
def winOf (s : State) (fn j : Nat) : Word :=
  match tget none s.hif.wins (fn * 16 + j) with
  | some w => w
  | none =>
    let base := if j = 15 then cmnBase else j * 2 ^ (bar2Log s fn - 4)
    BitVec.ofNat 64 (nfld base 49 24 * 2 ^ 24 + s.devid % 64 * 4 + 1)

/-- A HIF_ register as function fn sees it. -/
def hifRead (s : State) (fn o : Nat) : Word :=
  if 0x100 ≤ o ∧ o < 0x180 then winOf s fn ((o - 0x100) / 8)
  else if 0x10000 ≤ o ∧ o < 0x18000 then
    let w := rget s (hifKey fn o)
    if o % 16 < 8 then w else setBit (setFld w 63 32 0) 32 (!(s.hif.unmasked.contains (fn * 2048 + (o - 0x10000) / 16)))
  else if 0x20000 ≤ o ∧ o < 0x20100 then
    BitVec.ofNat 64 (((List.range 64).map fun i => (s.hif.pend.contains (fn * 2048 + 8 * (o - 0x20000) + i)).toNat * 2 ^ i).foldl (· + ·) 0)
  else if o = 0x10 ∨ o = 0x18 then rget s (hifKey fn o)
  else if fn = 0 then rget s (hifReg o)
  else 0

/-- Eight bytes of the certificate chain or of the flash, from a byte function. -/
def wordFrom (f : Nat → Byte) (o : Nat) : Word := BitVec.ofNat 64 (leNat ((List.range 8).map fun i => f (o + i)))

/-- DEBUG_SCOPE (R532). -/
def debugScope (s : State) : Nat := fld (rget s (secReg 0)) 2 0

/-- The certificate chain (R513, R514): zero before stage 1 has been verified, then it ends in the certificate of the alias
key in use. -/
def chainByte (s : State) (i : Nat) : Byte :=
  match s.trust.stage1 with
  | none => 0
  | some (digest, svn) =>
    let debug := debugScope s != 0
    let key := if debug then s.trust.debugKey else s.trust.aliasKey
    Config.certByte (Config.eccPublic (Config.eccPrivate Config.uds)) (Config.eccPublic (key.getD 0)) digest svn debug i

/-- SEC_ registers (R514, R532-R535). -/
def secRead (s : State) (fn o : Nat) : Word :=
  if 0x10000 ≤ o ∧ o < 0x20000 then wordFrom (chainByte s) (o - 0x10000)
  else if o = 0x10 ∨ o = 0x18 then (if fn = 0 then Config.freeWord (s.trust.nonce + (o - 0x10) / 8) else 0)
  else rget s (secReg o)

/-- LIF_ registers (R562): flash bytes are left open. -/
def lifRead (s : State) (fn o : Nat) : Word :=
  if fn ≠ 0 then 0
  else if o = 0 then
    BitVec.ofNat 64 ((if 3 < s.boot.step then 1008 - s.life.inUse else 0) * 2 ^ 32 + (bit (rget s (thmReg 0x10)) 5).toNat * 2 + (decide (3 < s.boot.step)).toNat)
  else if 0x80000 ≤ o ∧ o < 0x100000 then
    wordFrom (Config.norByte s.life.recs.length) (fld (rget s (lifReg 8)) 6 0 * 0x80000 + (o - 0x80000))
  else rget s (lifReg o)

/-- GLB_ registers (R2, R23, R24, R32, R34, R577, R595). -/
def glbRead (s : State) (o : Nat) : Word :=
  if o = 0 then partId s
  else if o = 0x48 then coreSparesReg s
  else if o = 0x80 then BitVec.ofNat 64 s.time
  else if o = 0x100 then bootReg s
  else if o = 0x180 then
    let v := rget s (glbReg 0x180)
    -- a pin that the device does not drive shows the board's level, a free value
    setFld v 7 0 (((fld v 23 16) &&& (fld v 15 8)) ||| (((Config.freeByte s.free 0).toNat &&& (255 - fld v 23 16))))
  else if 0x1000 ≤ o ∧ o < 0x1600 then coreMapReg s ((o - 0x1000) / 8)
  else rget s (glbReg o)

/-- The 64-bit register at a local address, as function fn sees it (R8, R276). The doorbells' reads have no value in the
spec: a free value. -/
def regRead (s : State) (fn a : Nat) : Word :=
  let o := (a - csrBase) % 2 ^ 32
  match (a - csrBase) / 2 ^ 32 with
  | 0 => glbRead s o
  | 1 => coreRead s (o / 0x100000) (o % 0x100000)
  | 3 => if o < 0x1000000 then stkRead s (o / 0x100000) (o % 0x100000) else chanRead s ((o - 0x1000000) / 0x1000) (o % 0x1000)
  | 4 => srvRead s o
  | 5 =>
    if 0x100000 ≤ o ∧ o < 0x500000 then descRead s ((o - 0x100000) / 64) (o % 64 / 8)
    else if 0x1000000 ≤ o ∧ o < 0x1400000 then (if o % 64 < 16 then Config.freeWord s.free else 0)
    else rget s a
  | 8 => hifRead s fn o
  | 9 => secRead s fn o
  | 12 => lifRead s fn o
  | _ => rget s a

/-- A naturally aligned access of 4 or 8 bytes (R10). -/
def regSizeOk (a size : Nat) : Bool := (size == 4 || size == 8) && a % size == 0

/-- The value a register access of 4 or 8 bytes returns. -/
def regLoad (s : State) (fn a size : Nat) : Nat :=
  let v := (regRead s fn (a / 8 * 8)).toNat
  if size = 8 then v else v / 2 ^ (8 * (a % 8)) % 2 ^ 32

/-! ## Logging of host accesses (R495, R510) -/

/-- One copy of HIF_ACC_ERR. -/
def accErrOne (s : State) (own fn kind addr bar : Nat) (write : Bool) : State :=
  let a := hifKey own 0x10
  let b := hifKey own 0x18
  if bit (rget s b) 63 then s
  else rset (rset s a (BitVec.ofNat 64 (addr % 2 ^ 56 + kind % 256 * 2 ^ 56))) b
    (BitVec.ofNat 64 (2 ^ 63 + (decide (bar = 2)).toNat * 2 ^ 9 + write.toNat * 2 ^ 8 + fn % 32))

/-- The first failed host access is recorded by the PF, and by the VF that made it. -/
def accErr (s : State) (fn kind addr bar : Nat) (write : Bool) : State :=
  let s := accErrOne s 0 fn kind addr bar write
  if fn = 0 then s else accErrOne s fn fn kind addr bar write

/-- BAR0 offset of HIF_WIN_j (R490). -/
def winOff (j : Nat) : Nat := 0xCE00000 + 0x100 + 8 * j

/-- A write of HIF_WIN_j of function vf by function fn (R492, R494, R501, R511). -/
def winWrite (s : State) (fn vf j : Nat) (v : Word) : State :=
  let t := tget .unlocked s.hif.tdi vf
  if fn ≠ 0 ∧ fn ≠ vf then accErr s fn 4 (winOff j) 0 true
  else if vf ≠ 0 ∧ (t = .locked ∨ t = .run) then s
  else if fld v 49 24 * 2 ^ 24 % min (2 ^ (bar2Log s vf - 4)) (2 ^ 32) ≠ 0 then accErr s fn 1 (winOff j) 0 true
  else { s with hif := { s.hif with wins := tput none s.hif.wins (vf * 16 + j) (some (v &&& 0x3FFFFFF0000FD)) } }

/-- A message that a vector kept is sent when it is unmasked (R500). -/
def unmask (s : State) (fn vec : Nat) : State :=
  let k := fn * 2048 + vec
  let s := if s.hif.unmasked.contains k then s else { s with hif := { s.hif with unmasked := s.hif.unmasked ++ [k] } }
  if s.hif.pend.contains k then sendMsix { s with hif := { s.hif with pend := s.hif.pend.filter (· ≠ k) } } fn vec else s

def maskVec (s : State) (fn vec : Nat) : State :=
  { s with hif := { s.hif with unmasked := s.hif.unmasked.filter (· ≠ fn * 2048 + vec) } }

/-- A write to the MSI-X table of a function: address, data, or the mask bit of vector control. -/
def msixWrite (s : State) (fn o : Nat) (v : Word) : State :=
  let vec := (o - 0x10000) / 16
  if o % 16 < 8 then rset s (hifKey fn o) v
  else
    let s := rset s (hifKey fn o) (v &&& 0xFFFFFFFF)
    if bit v 32 then maskVec s fn vec else unmask s fn vec

/-! ## Writes -/

/-- Bits that software writes freely, of the registers without a rule of their own. -/
def rwMask (a : Nat) : Nat :=
  let o := (a - csrBase) % 2 ^ 32
  match (a - csrBase) / 2 ^ 32 with
  | 0 => if o = 0x180 then 0xFFFF00 else 0
  | 1 => if o % 0x100000 = 0x888 then 0xFFFFFFFF else 0
  | 5 => if o = 0 then 0xFFFFFFFF else 0
  | 8 => if o = 0 then 0x1FFFFFFFF else if o = 0x20 then 0x7FF07FF07FF else if 0x200 ≤ o ∧ o < 0x400 then 0x7FF011F else 0
  | 9 => if o = 8 then 1 else 0
  | 10 => if o = 0 then 0x3F1FFFFFFF else 0
  | 11 => if o = 0 then 0x1FF00FF else 0
  | 12 => if o = 8 then 0x7F else 0
  | _ => 0

/-- Bits that a write of 1 clears. -/
def w1cMask (a : Nat) : Nat :=
  let o := (a - csrBase) % 2 ^ 32
  match (a - csrBase) / 2 ^ 32 with
  | 0 => if o = 0x40 then 0x100 else 0
  | 1 =>
    let p := o % 0x100000
    if p = 0xC00 then 0x7F else if p = 0xC40 then 9 else if 0x800 ≤ p ∧ p < 0x840 ∧ p % 16 = 0 then 0x10000
    else if p = 0x880 then 3 else if p = 0x890 then 0xFFFFFFFFFFFFFFFF else if p = 0xD00 then 0xF else 0
  | 3 =>
    if o < 0x1000000 then
      (if o % 0x100000 = 0x100 then 0x1000000 else if o % 0x100000 = 0x110 then 0xFFFFFFFFFFFFFFFF else 0)
    else if o % 0x1000 = 0x20 then 1 else 0
  | 4 => if 0x4000 ≤ o ∧ o < 0x4800 then 0x8000000000000000 else 0
  | 5 => if o = 8 then 3 else 0
  | 7 => if 0x100 ≤ o ∧ o < 0x200 then 0x800 else 0
  | 8 => if o = 8 then 0x40000 else 0
  | 10 => if o = 0x10 then 0x3F else if o = 0x28 then 1 else 0
  | 11 => if o = 8 then 0xF else 0
  | _ => 0

/-- A write of a register whose fields are plain: v holds its new value, one the bits of the written bytes that are 1. -/
def plainWrite (s : State) (a : Nat) (v one : Word) : State :=
  let rw := BitVec.ofNat 64 (rwMask a)
  let c := BitVec.ofNat 64 (w1cMask a)
  if rw = 0 ∧ c = 0 then s
  else rset s a ((((rget s a) &&& ~~~rw) ||| (v &&& rw)) &&& ~~~(one &&& c))

/-- A write of a tally's ADD register (R291, R301, R303). -/
def tallyWrite (s : State) (unit n : Nat) (v : Word) : State :=
  if bit v 63 then setTally s unit n (v.setWidth 48) else addTally s unit n (fld v 47 0)

/-- A write of a flip-mask register (R445, R446, R456, R457): the mask is frozen while ARM is set. `armBit`, the mask
bits of the control word and its other writable bits. -/
def flipWrite (s : State) (ctrl a armBit maskBits rest : Nat) (v one : Word) : State :=
  let armed := bit (rget s ctrl) armBit
  if a ≠ ctrl then (if armed then s else rset s a v)
  else
    let w := BitVec.ofNat 64 (if armed then rest else maskBits + rest)
    rset s a ((((rget s a) &&& ~~~w) ||| (v &&& w)) ||| (one &&& BitVec.ofNat 64 (2 ^ armBit)))

/-- A write to SRV_PREFIX_GROUP (R382, R390, R526): each group whose members change gets a new key. -/
def groupWrite (s : State) (v : Word) : State :=
  let old := rget s (srvReg 0x200)
  let members (w : Word) (g : Nat) : List Nat := (List.range 16).filter fun f => groupOf w f == g
  let moved := (List.range 16).filter fun f => groupOf old f != groupOf v f
  let s := { s with srv := { s.srv with groups := (s.srv.groups ++ moved).eraseDups } }
  (rangeFrom 1 15).foldl (fun t g => if members old g = members v g then t else drawGroupKey t g) (rset s (srvReg 0x200) v)

/-- A write to SWV_DOMAIN_CTRL (R479, R480, R483). -/
def domainCtrl (s : State) (v : Word) : State :=
  if s.devid = 0 ∧ bit v 0 ∧ !(bit (rget s (swvReg 0)) 2) then startDomainReset s else s

/-- A write to ECC_SPARE_REQ (R438, R452). -/
def spareReqWrite (s : State) (v : Word) : State :=
  let b := fld v 13 0
  if !(bit v 15) || 12288 ≤ b || bankSpared s b || s.ecc.requests.contains b then s
  else { s with ecc := { s.ecc with requests := s.ecc.requests ++ [b] } }

/-- The trace register of a core (R536); a changed buffer is written from its start (log entry 57). -/
def crkWrite (s : State) (c : Nat) (v one : Word) : State :=
  let a := crkReg (0x100 * c)
  let old := rget s a
  let new := (v &&& 0x7FFFFFFFFFFFC1) ||| (old &&& ~~~(one &&& 2) &&& 2)
  let s := rset s a new
  if (old &&& 0x7FFFFFFFFFFFC1) = (new &&& 0x7FFFFFFFFFFFC1) then s else { s with crk := tput 0 s.crk c 0 }

/-- Who writes a register: the function of a host access, and the ring of a command (R362). -/
structure Writer where
  fn : Nat := 0
  host : Bool := false
  ring : Option Nat := none

/-- A write to the 64-bit register at a: v is the register's new value where the access leaves bytes unwritten, and w the
written bytes alone. -/
def regPut (s : State) (who : Writer) (a : Nat) (v w : Word) : State :=
  let o := (a - csrBase) % 2 ^ 32
  let pf := who.host && who.fn == 0
  match (a - csrBase) / 2 ^ 32 with
  | 0 => if o = 0x100 then (if bit w 32 then { s with boot := { s.boot with seqErr := false } } else s) else plainWrite s a v w
  | 1 =>
    let c := o / 0x100000
    let p := o % 0x100000
    if cores s.grade ≤ c then s
    else if 0xA00 ≤ p ∧ p < 0xC00 then tallyWrite s c ((p - 0xA00) / 8) w
    else if p = 0xD40 ∨ p = 0xD48 then (if pf then flipWrite s (coreReg c 0xD48) a 8 0xFF 0xFFFFF0200 v w else s)
    else plainWrite s a v w
  | 3 =>
    if o < 0x1000000 then
      let k := o / 0x100000
      let p := o % 0x100000
      if 12 ≤ k then s else if 0x400 ≤ p ∧ p < 0x600 then tallyWrite s (192 + k) ((p - 0x400) / 8) w else plainWrite s a v w
    else
      let g := (o - 0x1000000) / 0x1000
      let p := o % 0x1000
      if 384 ≤ g then s
      else if 0x40 ≤ p ∧ p ≤ 0x60 then (if pf then flipWrite s (chnReg g 0x60) a 32 0xFFFFFFFF 0x3FFFFF7E00000000 v w else s)
      else plainWrite s a v w
  | 4 =>
    if o = 0x200 then (if pf then groupWrite s v else s)
    else if 0x2000 ≤ o ∧ o < 0x3000 then
      let m := (o - 0x2000) / 16
      if o % 16 < 8 then (if bit w 50 then setModel s m { getModel s m with stray := false } else s)
      else
        match who.ring with
        | some n => (match execSrvStepDone n m w s with | .next t => t | _ => s)
        | none => s
    else plainWrite s a v w
  | 5 =>
    if 0x100000 ≤ o ∧ o < 0x500000 then
      let n := (o - 0x100000) / 64
      let frozen : Bool := match ringFold s n with | some f => tdiFrozen s f | none => false
      if frozen then s else descWrite s n (o % 64 / 8) v
    else if 0x1000000 ≤ o ∧ o < 0x1400000 then
      let n := (o - 0x1000000) / 64
      if o % 64 = 0 then doorbell s n w else if o % 64 = 8 then cplHead s n w else s
    else plainWrite s a v w
  | 6 => if pf && o < 0x10000 then fldWrite s (o / 0x1000) (o % 0x1000) v else s
  | 7 => if o = 0x18 then (if pf then domainCtrl s w else s) else plainWrite s a v w
  | 8 =>
    if 0x100 ≤ o ∧ o < 0x180 then winWrite s who.fn who.fn ((o - 0x100) / 8) v
    else if 0x10000 ≤ o ∧ o < 0x18000 then msixWrite s who.fn o v
    else if o = 0x18 then (if bit w 63 then rset s (hifKey who.fn 0x18) (setBit (rget s (hifKey who.fn 0x18)) 63 false) else s)
    else if pf then plainWrite s a v w else s
  | 9 =>
    if 0x400 ≤ o ∧ o < 0x480 then
      (if pf && !(foldActive s ((o - 0x400) / 8)) then rset s a (v &&& 0x7FFF00007FFF) else s)
    else if pf then plainWrite s a v w else s
  | 11 => if o = 0x20 then (if pf then spareReqWrite s w else s) else plainWrite s a v w
  | 12 => if o = 0 then (if bit w 1 then rset s (thmReg 0x10) (setBit (rget s (thmReg 0x10)) 5 false) else s) else plainWrite s a v w
  | 13 => if o % 0x100 < 8 ∧ o / 0x100 < cores s.grade then crkWrite s (o / 0x100) v w else s
  | _ => plainWrite s a v w

/-- A register write of 4 or 8 bytes (R6-R11): a 32-bit write leaves the other half as it reads. -/
def regStore (s : State) (who : Writer) (a size : Nat) (v : Word) : State :=
  if !(regSizeOk a size) then s
  else
    let b := a / 8 * 8
    if size = 8 then regPut s who b v v
    else
      let sh := 8 * (a % 8)
      let m : Word := BitVec.ofNat 64 (0xFFFFFFFF * 2 ^ sh)
      let d : Word := BitVec.ofNat 64 (v.toNat % 2 ^ 32 * 2 ^ sh)
      regPut s who b (((regRead s who.fn b) &&& ~~~m) ||| d) d

end Sys2Proof.Machine
end

