-- ==== Sys2Proof/Machine/HostIf.lean ====
section
/-! DEFINITION. Host accesses through BAR0 and BAR2 (R286, R489-R497, R505, R568), the recovery window (R572), and the
rows that are one register write. A row of an access is the moment at which it is performed: while what it waits for is
not there (a held channel, a regulator, the posted writes of R286) the state stays as it is. -/

namespace Sys2Proof.Machine

open Sys2Proof.Config (Grade cores)

/-! ## The recovery window (R572, R575) -/

/-- BUSY of RCV_STATUS. -/
def rcvBusy (s : State) : Bool := s.boot.rcvJob.isSome || s.boot.rcvCheck

/-- Bytes of the staging area. -/
def rcvStage : Nat := 112 * 2 ^ 20

/-- Commons offset of the staging area: the 112 MiB at the end of the commons (log entry 58). -/
def rcvBase : Nat := cmnBase + 0x1000000

/-- The window is served to the PF in RECOVERY, and in BOOT with STRAP_BOOT = 1 (R568). -/
def rcvServed (s : State) (fn : Nat) : Bool :=
  fn == 0 && (s.boot.state == 2 || (s.boot.state == 1 && s.boot.strap == 1))

/-- RCV_STATUS. -/
def rcvStatus (s : State) : Word := BitVec.ofNat 64 (s.boot.rcvNext * 2 ^ 32 + s.boot.rcvOver.toNat * 2 + (rcvBusy s).toNat)

/-- A write of RCV_CTRL. A LEN outside 1 to 15,728,640 is not accepted (log entry 59). -/
def rcvCtrl (s : State) (v : Word) : State :=
  let len := fld v 23 0
  let late := s.boot.state = 1 ∧ (s.boot.images.any fun i => i.kind == 1)
  if rcvBusy s ∨ late then s
  else if bit v 61 then { s with boot := { s.boot with rcvNext := 0 } }
  else if !(bit v 63) ∨ len = 0 ∨ 15728640 < len then s
  else if rcvStage < s.boot.rcvNext + len then { s with boot := { s.boot with rcvOver := true } }
  else { s with boot := { s.boot with rcvJob := some (len, bit v 62) } }

/-- The 8 bytes of the window at an offset. -/
def rcvRead (s : State) (o : Nat) : Word :=
  if o = 0 then rcvStatus s
  else if 0x100000 ≤ o then wordFrom (fun i => tget 0 s.boot.rcvBuf (i - 0x100000)) o
  else 0

/-- A write of 4 or 8 bytes in the window. -/
def rcvWrite (s : State) (o : Nat) (data : List Byte) : State :=
  let v : Word := BitVec.ofNat 64 (leNat data * 2 ^ (8 * (o % 8)))
  if 0x100000 ≤ o then
    (if rcvBusy s then s
     else { s with boot := { s.boot with rcvBuf := ((List.range data.length).zip data).foldl (fun b p => tput 0 b (o - 0x100000 + p.1) p.2) s.boot.rcvBuf } })
  else if o / 8 = 1 then rcvCtrl s v
  else if o / 8 = 0 ∧ bit v 1 then { s with boot := { s.boot with rcvOver := false } }
  else s

/-! ## Where an access goes (R490-R493) -/

/-- What a BAR offset names. -/
inductive Target where
  /-- a register of this device, by its local address -/
  | reg (a : Nat)
  /-- the recovery window -/
  | rcv (o : Nat)
  /-- a reserved offset of BAR0 -/
  | void
  /-- a global address through a segment of BAR2, and whether the segment maps -/
  | seg (ga : Nat) (en : Bool)
  deriving DecidableEq, Repr

/-- BAR0 (R490). -/
def bar0Of (off : Nat) : Target :=
  if off < 0xC000000 then .reg (coreReg 0 0 + off)
  else if off < 0xC400000 then .reg (drvReg 0x1000000 + (off - 0xC000000))
  else if off < 0xC800000 then .reg (drvReg 0x100000 + (off - 0xC400000))
  else if off < 0xC900000 then .reg (drvReg (off - 0xC800000))
  else if off < 0xD400000 then
    let base := [glbReg 0, pdkReg 0, srvReg 0, fldReg 0 0, swvReg 0, hifReg 0, secReg 0, thmReg 0, eccReg 0, lifReg 0, crkReg 0]
    .reg (base.getD ((off - 0xC900000) / 0x100000) 0 + (off - 0xC900000) % 0x100000)
  else if off < 0xE000000 then .reg (stkReg 0 0 + (off - 0xD400000))
  else if off < 0xE200000 then .reg (chnReg 0 0 + (off - 0xE000000))
  else if 0xF000000 ≤ off ∧ off < 0x10000000 then .rcv (off - 0xF000000)
  else .void

/-- BAR2 (R492). -/
def bar2Of (s : State) (fn off : Nat) : Target :=
  let k := bar2Log s fn - 4
  let w := winOf s fn (off / 2 ^ k % 16)
  .seg (2 ^ 50 * fld w 7 2 + fld w 49 24 * 2 ^ 24 + off % 2 ^ k) (bit w 0)

def targetOf (s : State) (fn bar off : Nat) : Target := if bar = 0 then bar0Of off else bar2Of s fn off

/-- The BAR0 offset of a register, where BAR0 maps it. -/
def bar0Off (a : Nat) : Nat :=
  let o := (a - csrBase) % 2 ^ 32
  match (a - csrBase) / 2 ^ 32 with
  | 0 => 0xC900000 + o
  | 1 => o
  | 2 => 0xCA00000 + o
  | 3 => if o < 0x1000000 then 0xD400000 + o else 0xE000000 + (o - 0x1000000)
  | 4 => 0xCB00000 + o
  | 5 => if o < 0x100000 then 0xC800000 + o else if o < 0x500000 then 0xC400000 + (o - 0x100000) else 0xC000000 + (o - 0x1000000)
  | n => 0xCC00000 + (n - 6) * 0x100000 + o

/-! ## Rights (R489, R491, R523) -/

/-- The fold for which a function acts; 16 for the physical function, which is not regulated. -/
def actFold (fn : Nat) : Nat := if fn = 0 then 16 else fn - 1

/-- Registers a function reaches: the PF every one, a VF its fold's, its own HIF_ slot, the certificate chain, and what
reads as zero from it. -/
def fnReg (s : State) (fn a : Nat) (write : Bool) : Bool :=
  let o := (a - csrBase) % 2 ^ 32
  fn == 0 || (foldActive s (fn - 1) && csrReach s (fn - 1) a write) ||
  match (a - csrBase) / 2 ^ 32 with
  | 8 => !write || (0x100 ≤ o && o < 0x180) || (0x10 ≤ o && o < 0x20) || (0x10000 ≤ o && o < 0x18000)
  | 9 => !write && ((0x10000 ≤ o && o < 0x20000) || (0x10 ≤ o && o < 0x20))
  | 12 => !write
  | _ => false

/-- A range of this device that holds a byte of the request table. -/
def meetsTable (s : State) (a len : Nat) : Bool :=
  region s.grade a == .cmn && 0 < len && a < rtEntry 131072 && rtBase < a + len

/-- Memory of this device that a function reaches. No host writes the request table, the PF not excepted (R337). -/
def fnMem (s : State) (fn a len : Nat) (write : Bool) : Bool :=
  if fn = 0 then !(write && meetsTable s a len)
  else (foldActive s (fn - 1) && foldReach s (fn - 1) a len write)

/-- A function in reset: a VF whose fold is being filled (R524). -/
def fnInReset (s : State) (fn : Nat) : Bool := fn != 0 && foldFilling s (fn - 1)

/-- What comes of a request before it touches its target. -/
inductive Gate where
  /-- it may go to a register, the recovery window, memory of this device, host memory or another member -/
  | reg (a : Nat)
  | rcv (o : Nat)
  | mem (a : Nat)
  | host (ha : Nat)
  | relay (ga : Nat)
  /-- a read gives zero and a write is discarded, with nothing logged -/
  | zero
  /-- an outcome of R495: its KIND and ADDR -/
  | err (kind addr : Nat)
  /-- UR with nothing logged -/
  | ur
  deriving DecidableEq, Repr

/-- Before READY only the GLB_ block, HIF_STATUS and the recovery window are served (R568); R10 holds for what is. -/
def bootGate (s : State) (fn : Nat) (t : Target) (off len : Nat) : Gate :=
  match t with
  | .reg a =>
    if glbReg 0x100000 ≤ a ∧ a / 8 * 8 ≠ hifReg 8 then .zero
    else if !(regSizeOk a len) then .err 1 off
    else if fnReg s fn a false then .reg a else .zero
  | .rcv o => if rcvServed s fn && regSizeOk o len then .rcv o else .zero
  | .void => .zero
  | .seg ga _ => .err 2 ga

/-- The checks of R495 in the order of its table. -/
def accessGate (s : State) (fn bar off len : Nat) (write atomic : Bool) : Gate :=
  let t := targetOf s fn bar off
  if numVf s < fn ∨ s.hif.d3.contains fn ∨ fnInReset s fn ∨ (bar ≠ 0 ∧ 2 ^ bar2Log s fn ≤ off) then .ur
  else if s.boot.state ≠ 4 then bootGate s fn t off len
  else
    match t with
    | .void => .zero
    | .rcv _ => .zero
    | .reg a =>
      let ga := gOwn s a
      if atomic then .err 2 ga
      else if !(regSizeOk a len) then .err 1 off
      else if !(fnReg s fn a write) then .err 4 off
      else .reg a
    | .seg ga en =>
      let a := gLoc ga
      if !en then .err 2 ga
      else if gDev ga ≠ s.devid then
        (if memberBit s (gDev ga) && !(missingBit s (gDev ga)) then .relay ga else .err 3 ga)
      else match region s.grade a with
        | .csr =>
          if atomic then .err 2 ga else if !(regSizeOk a len) then .err 1 ga
          else if !(fnReg s fn a write) then .err 4 ga else .reg a
        | .aperture => if atomic then .err 2 ga else .host (a - aprBase)
        | .unpopulated => .err 2 ga
        | .noCore => .err 2 ga
        | _ =>
          if !(populated s.grade a len) then .err 2 ga
          else if !(fnMem s fn a len write) then .err 4 ga
          else .mem a

/-- The regulators of a host access let it proceed (R417): the host interface, then DRAM or the fabric. -/
def hostGo (s : State) (fn k ga n : Nat) (write : Bool) : Bool :=
  regGo s (actFold fn) k 0 && regOk s (actFold fn) ga n write

def hostPay (s : State) (fn k ga n : Nat) (write : Bool) : State :=
  regPay (regCharge s (actFold fn) k 0 n) (actFold fn) ga n write

/-- A report through AER (R495). -/
def aerReport (s : State) (fn : Nat) (poisoned : Bool) : State := { s with mgtOut := s.mgtOut ++ [.aer fn poisoned] }

/-- A request of function fn is answered with UR, which AER reports (R495). -/
def answerUr (s : State) (fn : Nat) : State := answer (aerReport s fn false) { ur := true }

/-- How a member answers (R495, R476): data, UR or EP. -/
def memberAns (s : State) (fn ga len : Nat) : State :=
  let f := s.free
  let s := { s with free := f + 1 }
  match (Config.peerOutcome f).toNat with
  | 0 => answer s { data := (List.range len).map fun i => Config.peerByte f (ga + i) }
  | 2 => answer s { ep := true, data := (List.range len).map (Config.freeByte f) }
  | _ => answerUr s fn

/-- HOST_READ (R495, R497). -/
def execHostRead (fn bar off len : Nat) (s : State) : Out State :=
  if 16 < fn ∨ !(bar = 0 ∨ bar = 2) then .fault .noSuchUnit
  else if !s.hif.linkUp then .next s
  else
    match accessGate s fn bar off len false false with
    | .ur => .next (answerUr s fn)
    | .zero => .next (answer s { data := List.replicate len 0 })
    | .err 1 a => .next (answer (accErr s fn 1 a bar false) { data := List.replicate len 0 })
    | .err k a => .next (answerUr (accErr s fn k a bar false) fn)
    | .rcv o => .next (answer s { data := leBytes len ((rcvRead s (o / 8 * 8)).toNat / 2 ^ (8 * (o % 8))) })
    | .reg a => .next (answer { s with free := s.free + 1 } { data := leBytes len (regLoad s fn a len) })
    | .mem a =>
      let ga := gOwn s a
      if !(hostGo s fn 4 ga len false) then .next s
      else
        let s := hostPay s fn 4 ga len false
        .next (if rangeHeld s a len then askStart s (.host fn a len) (some (actFold fn)) [(a, len)] else hostReads s a len)
    | .host ha =>
      let f := s.free
      let s := { s with free := f + 1 }
      match (Config.hostOutcome f).toNat with
      | 0 => .next (answer s { data := (List.range len).map fun i => Config.hostByte f (ha + i) })
      | 2 => .next (answerEp s len)
      | _ => .next (answerUr s fn)
    | .relay ga =>
      if !(hostGo s fn 4 ga len false) then .next s
      else
        let s := hostPay s fn 4 ga len false
        .next (memberAns (sendFab s { dst := gDev ga, src := s.devid, cls := .req, op := .read, fold := actFold fn, addr := gLoc ga, len := len, tag := s.free, host := true }) fn ga len)

/-- A posted write of this function is still held (R286). -/
def postedHeld (s : State) (fn : Nat) : Bool :=
  (s.chans.any fun e => (e.2.hold ++ e.2.spill).any fun x => x.host == some fn) ||
  s.folds.held.any fun h => h.2.2.2.host == some fn

/-- A register whose host writes R286 orders: a doorbell, a tally's ADD register. -/
def orderedReg (a : Nat) : Bool :=
  (drvReg 0x1000000 ≤ a && a < drvReg 0x1400000) ||
  (coreReg 0 0 ≤ a && a < coreReg 192 0 && 0xA00 ≤ a % 0x100000 && a % 0x100000 < 0xC00) ||
  (stkReg 0 0 ≤ a && a < stkReg 12 0 && 0x400 ≤ a % 0x100000 && a % 0x100000 < 0x600)

/-- A write that the lead carries to another member (R505): doorbells and tally-adds wait at the lead for
RELAY_DOORBELL_FORWARD, every other write leaves as a REQ message. -/
def relayWrite (s : State) (fn ga : Nat) (data : List Byte) : State :=
  let a := gLoc ga
  let m : Msg := { dst := gDev ga, src := s.devid, cls := .req, op := .write, fold := actFold fn, addr := a, data := data,
                   len := data.length, host := true }
  if !(orderedReg a) then sendFab s m
  else
    let v : Word := BitVec.ofNat 64 (leNat data)
    let t : Msg := if drvReg 0 ≤ a then { m with cls := .tal, op := .doorbell, operand := v }
      else { m with cls := .tal, op := .tallyAdd, operand := v, tallyNum := a % 0x100000 % 0x200 / 8,
                    tallyUnit := if a < stkReg 0 0 then (a - coreReg 0 0) / 0x100000 else 192 + (a - stkReg 0 0) / 0x100000 }
    { s with fab := { s.fab with doors := s.fab.doors ++ [t] } }

/-- HOST_WRITE (R286, R495). -/
def execHostWrite (fn bar off : Nat) (data : List Byte) (ep : Bool) (s : State) : Out State :=
  if 16 < fn ∨ !(bar = 0 ∨ bar = 2) then .fault .noSuchUnit
  else if !s.hif.linkUp then .next s
  else
    let g := accessGate s fn bar off data.length true false
    let dirty (ga : Nat) : State := aerReport (accErr s fn 5 ga bar true) fn true
    match g with
    | .ur => .next s
    | .zero => .next s
    | .err k a => .next (accErr s fn k a bar true)
    | .rcv o => .next (if ep then dirty (bar0Off 0) else rcvWrite s o data)
    | .reg a =>
      if ep then .next (dirty (gOwn s a))
      else if orderedReg a && postedHeld s fn then .next s
      else .next (regStore s { fn := fn, host := true } a data.length (BitVec.ofNat 64 (leNat data)))
    | .mem a =>
      let ga := gOwn s a
      if ep then .next (dirty ga)
      else if !(hostGo s fn 5 ga data.length true) then .next s
      else
        let s := hostPay s fn 5 ga data.length true
        if region s.grade a = .dram then .next (dramWrite s (some (actFold fn)) none a data (some fn))
        else .next (extWrite s a data).1
    | .host ha => if ep then .next (dirty (gOwn s (aprBase + ha))) else .next (hostPost s (actFold fn) ha data).1
    | .relay ga =>
      if ep then .next (dirty ga)
      else if !(hostGo s fn 5 ga data.length true) then .next s
      else .next (relayWrite (hostPay s fn 5 ga data.length true) fn ga data)

/-- The AOP of a PCIe AtomicOp (R496): 0 FetchAdd, 1 Swap, 2 CAS. -/
def pcieAop (aop : Nat) : Nat := match aop with | 0 => 0 | 1 => 4 | _ => 5

/-- HOST_ATOMICOP (R495, R496): a word of 4 or 8 bytes, naturally aligned. -/
def execHostAtomicop (fn bar off aop size : Nat) (opd cmp : Word) (s : State) : Out State :=
  if 16 < fn ∨ !(bar = 0 ∨ bar = 2) ∨ 2 < aop then .fault .noSuchUnit
  else if !s.hif.linkUp then .next s
  else if !(regSizeOk off size) then .next (answerUr s fn)
  else
    match accessGate s fn bar off size true true with
    | .err k a => .next (answerUr (accErr s fn k a bar true) fn)
    | .mem a =>
      let ga := gOwn s a
      if !(hostGo s fn 5 ga size true) then .next s
      else if rangeHeld s a size then
        .next (askNew (hostPay s fn 5 ga size true) (.hostAtomic size) (some (actFold fn))
          { addr := locOf a, len := size, write := true, kind := .atomic (pcieAop aop) (size == 8) opd.toNat cmp.toNat })
      else
        let s := hostPay s fn 5 ga size true
        if (firstUe s (unitsOf a size)).isSome then .next (answerEp (eccTouch s { path := 9 } (unitsOf a size)).1 size)
        else
          match atomicAt s { path := 9 } a (size == 8) (pcieAop aop) opd.toNat cmp.toNat with
          | (s, .ok old) => .next (answer s { data := leBytes size old })
          | (s, .error _) => .next (answerEp s size)
    | .relay ga =>
      if !(hostGo s fn 5 ga size true) then .next s
      else
        let s := hostPay s fn 5 ga size true
        let m : Msg := { dst := gDev ga, src := s.devid, cls := .req, op := .atomic, fold := actFold fn, addr := gLoc ga, len := size,
                         aop := pcieAop aop, size8 := size == 8, operand := opd, compare := cmp, tag := s.free, host := true }
        .next (memberAns (sendFab s m) fn ga size)
    | _ => .next (answerUr s fn)

/-! ## Rows that are one register write -/

/-- A write of 8 bytes to a register of this device through BAR0. -/
def regRow (fn a size : Nat) (v : Word) (s : State) : Out State :=
  execHostWrite fn 0 (bar0Off a) (leBytes size v.toNat) false s

/-- RING_DOORBELL (R397, R398). -/
def execRingDoorbell (fn n : Nat) (v : Word) (s : State) : Out State :=
  if 65536 ≤ n then .fault .noSuchUnit else regRow fn (dbReg n 0) 8 v s

/-- CPL_HEAD_WRITE (R397, R399). -/
def execCplHeadWrite (fn n : Nat) (v : Word) (s : State) : Out State :=
  if 65536 ≤ n then .fault .noSuchUnit else regRow fn (dbReg n 8) 8 v s

/-- RING_ENABLE (R395): the descriptor's word 0 is written with ENABLE = 1. -/
def execRingEnable (fn n : Nat) (v : Word) (s : State) : Out State :=
  if 65536 ≤ n then .fault .noSuchUnit else regRow fn (ringReg n 0) 8 (setBit v 0 true) s

/-- RING_DISABLE (R395): word 0 is written with ENABLE = 0. -/
def execRingDisable (fn n : Nat) (v : Word) (s : State) : Out State :=
  if 65536 ≤ n then .fault .noSuchUnit else regRow fn (ringReg n 0) 8 (setBit v 0 false) s

/-- FOLD_FORM (R416): FLD_CFG word 0 is written with ENABLE = 1. -/
def execFoldForm (fn f : Nat) (v : Word) (s : State) : Out State :=
  if 16 ≤ f then .fault .noSuchUnit else regRow fn (fldReg f 0) 8 (setBit v 0 true) s

/-- FOLD_RELEASE (R416, R524): word 0 is written with ENABLE = 0. -/
def execFoldRelease (fn f : Nat) (v : Word) (s : State) : Out State :=
  if 16 ≤ f then .fault .noSuchUnit else regRow fn (fldReg f 0) 8 (setBit v 0 false) s

/-- The ADD register of a tally: of a core, or of the hub of stack unit - 192 (R301, R303). -/
def addReg (unit n : Nat) : Nat := if unit < 192 then coreReg unit (0xA00 + 8 * n) else stkReg (unit - 192) (0x400 + 8 * n)

/-- TALLY_ADD (R291, R301). -/
def execTallyAdd (fn unit n : Nat) (v : Word) (s : State) : Out State :=
  if 204 ≤ unit ∨ 64 ≤ n then .fault .noSuchUnit else regRow fn (addReg unit n) 8 (setBit v 63 false) s

/-- TALLY_SET (R291, R301). -/
def execTallySet (fn unit n : Nat) (v : Word) (s : State) : Out State :=
  if 204 ≤ unit ∨ 64 ≤ n then .fault .noSuchUnit else regRow fn (addReg unit n) 8 (setBit v 63 true) s

/-- SPARE_REQ (R452). -/
def execSpareReq (fn : Nat) (v : Word) (s : State) : Out State := regRow fn (eccReg 0x20) 8 v s

/-- FLIP_ARM (R445): the control word of channel unit, or of core unit - 384, is written with ARM = 1. -/
def execFlipArm (fn unit : Nat) (v : Word) (s : State) : Out State :=
  if unit < 384 then regRow fn (chnReg unit 0x60) 8 (setBit v 32 true) s
  else if coreOk s (unit - 384) then regRow fn (coreReg (unit - 384) 0xD48) 8 (setBit v 8 true) s
  else .fault .noSuchUnit

/-- DOMAIN_RESET (R479, R483). -/
def execDomainReset (fn : Nat) (v : Word) (s : State) : Out State := regRow fn (swvReg 0x18) 8 v s

/-- PREFIX_GROUP_WRITE (R382, R390). -/
def execPrefixGroupWrite (fn : Nat) (v : Word) (s : State) : Out State := regRow fn (srvReg 0x200) 8 v s

/-- REGISTER_WRITE (R6-R11): a register by its local address; an address of the space that BAR0 does not map names no
register (R276). -/
def execRegisterWrite (fn a size : Nat) (v : Word) (s : State) : Out State :=
  if a < csrBase ∨ csrEnd ≤ a then .fault .noSuchUnit
  else if bar0Of (bar0Off a) = .reg a then regRow fn a size v s
  else .next s

/-- RCV_CHUNK (R572). -/
def execRcvChunk (fn : Nat) (v : Word) (s : State) : Out State :=
  execHostWrite fn 0 0xF000008 (leBytes 8 (setBit (setBit v 61 false) 63 true).toNat) false s

/-- RCV_RESTART (R572). -/
def execRcvRestart (fn : Nat) (v : Word) (s : State) : Out State :=
  execHostWrite fn 0 0xF000008 (leBytes 8 (setBit v 61 true).toNat) false s

/-- HIF_WIN_WRITE (R494, R511): HIF_WIN_j of function vf, by a function whose requests the device takes. -/
def execHifWinWrite (fn vf j : Nat) (v : Word) (s : State) : Out State :=
  if 16 < fn ∨ 16 < vf ∨ 16 ≤ j then .fault .noSuchUnit
  else if !s.hif.linkUp ∨ s.boot.state ≠ 4 ∨ numVf s < fn ∨ s.hif.d3.contains fn ∨ fnInReset s fn then .next s
  else .next (winWrite s fn vf j v)

/-- MSIX_UNMASK (R500). -/
def execMsixUnmask (fn vec : Nat) (s : State) : Out State :=
  if 16 < fn ∨ 2048 ≤ vec then .fault .noSuchUnit
  else if !s.hif.linkUp ∨ s.boot.state ≠ 4 ∨ numVf s < fn ∨ fnInReset s fn then .next s
  else .next (unmask s fn vec)

end Sys2Proof.Machine
end

