-- ==== Sys2Proof/Machine/HostEv.lean ====
section
/-! DEFINITION. Events of the host interface: the relay of a member's requests (R498, R505, R506), the link (R487), resets
and power states of functions (R503, R504), virtual functions, IDE, TDISP and ATS (R488, R493, R499, R501, R521). -/

namespace Sys2Proof.Machine

open Sys2Proof.Config (Grade cores)

/-! ## Relay (R505, R506) -/

/-- RELAY_DOORBELL_FORWARD (R505): device d has reported the earlier relayed writes, and the oldest doorbell or tally-add
held for it leaves. -/
def execRelayDoorbellForward (d : Nat) (s : State) : Out State :=
  if 64 ≤ d then .fault .noSuchUnit
  else
    let ds := s.fab.doors
    match ds.find? fun m => m.dst == d with
    | none => .next s
    | some m =>
      let rest := ds.takeWhile (fun x => x.dst != d) ++ (ds.dropWhile fun x => x.dst != d).drop 1
      .next (sendFab { s with fab := { s.fab with doors := rest } } m)

/-- HIF_RELAY_MAP_d (R512): its function and vector base. -/
def relayMap (s : State) (d : Nat) : Word := rget s (hifReg (0x200 + 8 * d))
def relayFn (s : State) (d : Nat) : Nat := let f := fld (relayMap s d) 4 0; if 16 < f then 0 else f

/-- The answer to a member's relayed request. -/
def relayAnswer (s : State) (d : Nat) (op : MsgOp) (data : List Byte) : State :=
  sendFab s { dst := d, src := s.devid, cls := .rsp, op := op, data := data, len := data.length }

/-- The regulators of relayed traffic (R507): the mapped fold's, toward the host and on the fabric. -/
def relayGo (s : State) (fn k : Nat) : Bool := regGo s (actFold fn) k 0 && regGo s (actFold fn) (if k = 4 then 3 else 2) 0
def relayPay (s : State) (fn k n : Nat) : State := regCharge (regCharge s (actFold fn) k 0 n) (actFold fn) (if k = 4 then 3 else 2) 0 n

/-- RELAY_DEVICE_REQUEST (R506): the lead issues a member's request; a read's data length is that of `data`. -/
def execRelayDeviceRequest (d : Nat) (write : Bool) (ha : Nat) (data : List Byte) (msix : Option Nat) (s : State) : Out State :=
  if 64 ≤ d then .fault .noSuchUnit
  else if s.devid ≠ 0 ∨ d = s.devid ∨ !(memberBit s d) ∨ missingBit s d then .next s
  else
    let m := relayMap s d
    let fn := relayFn s d
    let on := bit (rget s (hifReg 0)) 32 && bit m 8
    match msix with
    | some v => .next (if on then sendMsix s fn ((fld m 26 16 + v) % 2048) else relayAnswer s d .rspError [])
    | none =>
      if !on || !s.hif.linkUp then .next (relayAnswer s d .rspError [])
      else if s.hif.d3.contains fn || !(relayGo s fn 4) then .next s
      else if write then .next { relayPay s fn 4 data.length with hostOut := s.hostOut ++ [{ addr := ha, data := data, fn := fn }] }
      else
        let id := s.hif.nextReq
        let q : HostReq := { id := id, dev := d, fn := fn, addr := ha, len := data.length, issued := s.time }
        .next { s with hif := { s.hif with outst := s.hif.outst ++ [q], nextReq := id + 1 } }

/-- A relayed read ends (R498, R506). -/
def endReqOut (s : State) (q : HostReq) (st : HostCpl) : State :=
  let s := { s with hif := { s.hif with outst := s.hif.outst.filter fun x => x.id != q.id } }
  match st with
  | .ok =>
    let f := s.free
    let s := relayPay { s with free := f + 1 } q.fn 5 q.len
    relayAnswer s q.dev .rspData ((List.range q.len).map fun i => Config.hostByte f (q.addr + i))
  | .ep => relayAnswer s q.dev .rspPoison []
  | _ => relayAnswer s q.dev .rspError []

def findReq (s : State) (id : Nat) : Option HostReq := s.hif.outst.find? fun x => x.id == id

/-- HOST_COMPLETION (R498). -/
def execHostCompletion (id : Nat) (st : HostCpl) (s : State) : Out State :=
  match findReq s id with
  | some q => .next (endReqOut s q st)
  | none => .next s

/-- DEV_CPL_TO in ticks (R508). -/
def cplTicks (s : State) : Nat := let t := fld (rget s (hifReg 0)) 31 0; Config.tick * (if t = 0 then 50 else t)

/-- DEV_CPL_TIMEOUT (R498): as a completion with CA. -/
def execDevCplTimeout (id : Nat) (s : State) : Out State :=
  match findReq s id with
  | some q => .next (if q.issued + cplTicks s ≤ s.time then endReqOut s q .ca else s)
  | none => .next s

/-! ## The link (R487, R509) -/

/-- SPEED, WIDTH and FLIT of HIF_STATUS. -/
def linkFields (s : State) (speed width : Nat) (flit : Bool) : State :=
  rset s (hifReg 8) (setFld (setFld (setFld (rget s (hifReg 8)) 16 16 flit.toNat) 12 8 width) 2 0 speed)

/-- The link goes down: relayed reads end as UR (R498). -/
def pcieDown (s : State) : State :=
  if !s.hif.linkUp then s
  else
    let s := linkFields { s with hif := { s.hif with linkUp := false } } 0 0 false
    let s := rset s (hifReg 8) (setBit (rget s (hifReg 8)) 18 true)
    s.hif.outst.foldl (fun t q => endReqOut t q .ur) s

/-- PCIE_LINK_DOWN (R487). -/
def execPcieLinkDown (s : State) : Out State := .next (pcieDown s)

/-- PCIE_LINK_UP (R486, R487): not on a fabric-only device, nor before PERST_N has risen; x2 is not supported. -/
def execPcieLinkUp (speed width : Nat) (flit : Bool) (s : State) : Out State :=
  if speed = 0 ∨ 7 < speed ∨ !([1, 4, 8, 16].contains width) then .fault .noSuchUnit
  else if s.boot.state = 0 ∨ s.boot.strap = 2 ∨ !s.boot.perst ∨ s.hif.linkUp then .next s
  else .next (linkFields { s with hif := { s.hif with linkUp := true } } speed width (flit || 6 ≤ speed))

/-! ## Functions (R488, R493, R503, R504) -/

/-- Every field of a function's own HIF_ registers at its reset value (R493, R503, R508-R512); what shows the link stays. -/
def resetFn (s : State) (fn : Nat) : State :=
  let st := rget s (hifReg 8)
  let own (k : Nat) : Bool := k / 16 == fn
  let lo := hifKey fn 0
  let s := { s with
    regs := tdrop (fun a => lo ≤ a && a < lo + 0x100000) s.regs
    hif := { s.hif with wins := tdrop own s.hif.wins, bar2 := tdrop (· == fn) s.hif.bar2, d3 := s.hif.d3.filter (· ≠ fn), d3Wait := s.hif.d3Wait.filter (· ≠ fn),
                        unmasked := s.hif.unmasked.filter (fun k => k / 2048 != fn), pend := s.hif.pend.filter (fun k => k / 2048 != fn),
                        tdi := tdrop (· == fn) s.hif.tdi } }
  if fn = 0 then rset s (hifReg 8) (setBit (setFld st 23 19 0) 18 false) else s

/-- An active fold is reset (R503, R524). -/
def resetFold (s : State) (f : Nat) : State := if foldActive s f then foldClear s f true else s

/-- FLR (R503, R575): before READY it completes at once. -/
def execFlr (fn : Nat) (s : State) : Out State :=
  if 16 < fn then .fault .noSuchUnit
  else if s.boot.state ≠ 4 then .next s
  else if fn = 0 then .next ((List.range 17).foldl resetFn ((List.range 16).foldl resetFold s))
  else if numVf s < fn then .next s
  else .next (resetFn (resetFold s (fn - 1)) fn)

/-- Rings of the folds whose function is fn. -/
def fnRings (s : State) (fn : Nat) : List Nat :=
  (s.rings.filterMap fun e => if e.2.state ≠ 0 then some e.1 else none).filter fun n => ringFn s n == fn && n != 65535

/-- Every member of a ring suspended, or resumed. -/
def ringPower (b : Bool) (s : State) (n : Nat) : State :=
  ringRestate ((List.range (ringMembers s n)).foldl (fun t m => setSuspended t n m b) s) n

/-- A member of a ring still has launches under way. -/
def ringLaunches (s : State) (n : Nat) : Bool := (List.range (ringMembers s n)).any (launchesRun s n)

/-- D3HOT_ENTRY (R504): the rings' members are suspended; the entry takes effect once their launches have ended, at once or
at a later occurrence of the row. -/
def execD3hotEntry (fn : Nat) (s : State) : Out State :=
  if 16 < fn then .fault .noSuchUnit
  else if s.boot.state = 0 ∨ numVf s < fn ∨ s.hif.d3.contains fn then .next s
  else
    let busy := (fnRings s fn).any (ringLaunches s)
    let s := (fnRings s fn).foldl (ringPower true) s
    let wait := s.hif.d3Wait.filter (· ≠ fn)
    .next (if busy then { s with hif := { s.hif with d3Wait := wait ++ [fn] } }
      else { s with hif := { s.hif with d3 := s.hif.d3 ++ [fn], d3Wait := wait } })

/-- D0_RETURN (R504): the rings resume, and messages kept meanwhile are sent. -/
def execD0Return (fn : Nat) (s : State) : Out State :=
  if 16 < fn then .fault .noSuchUnit
  else if !(s.hif.d3.contains fn || s.hif.d3Wait.contains fn) then .next s
  else
    let s := { s with hif := { s.hif with d3 := s.hif.d3.filter (· ≠ fn), d3Wait := s.hif.d3Wait.filter (· ≠ fn) } }
    let s := (fnRings s fn).foldl (ringPower false) s
    let due := s.hif.pend.filter fun k => k / 2048 == fn && s.hif.unmasked.contains k
    .next (due.foldl (fun t k => unmask t fn (k % 2048)) s)

/-- BAR2_RESIZE (R492, R493): 256 MiB to 2 TiB. -/
def execBar2Resize (fn log2 : Nat) (s : State) : Out State :=
  if 16 < fn ∨ log2 < 28 ∨ 41 < log2 then .fault .noSuchUnit
  else if s.boot.state = 0 ∨ numVf s < fn then .next s
  else .next { s with hif := { s.hif with bar2 := tput 28 s.hif.bar2 fn log2, wins := tdrop (fun k => k / 16 == fn) s.hif.wins } }

/-- A TDI in CONFIG_LOCKED or RUN enters ERROR (R501): its fold and its function are reset, and it is CONFIG_UNLOCKED. -/
def tdiFail (s : State) (vf : Nat) : State :=
  let t := tget .unlocked s.hif.tdi vf
  if t = .locked ∨ t = .run then resetFn (resetFold s (vf - 1)) vf else s

/-- TDI_ERROR (R501). -/
def execTdiError (vf : Nat) (s : State) : Out State :=
  if vf = 0 ∨ 16 < vf then .fault .noSuchUnit else .next (tdiFail s vf)

/-- TDISP_REQUEST (R501): LOCK leads from CONFIG_UNLOCKED to CONFIG_LOCKED, START from there to RUN, STOP back. -/
def execTdispRequest (vf : Nat) (st : Tdi) (s : State) : Out State :=
  if vf = 0 ∨ 16 < vf then .fault .noSuchUnit
  else if s.boot.state ≠ 4 ∨ numVf s < vf then .next s
  else
    let set : State := { s with hif := { s.hif with tdi := tput .unlocked s.hif.tdi vf st } }
    match tget .unlocked s.hif.tdi vf, st with
    | .unlocked, .locked => .next set
    | .locked, .run => .next set
    | .locked, .unlocked => .next set
    | .run, .unlocked => .next set
    | _, _ => .next s

/-- VF_ENABLE (R488): NumVFs in effect; a VF that goes away loses what is its own. -/
def execVfEnable (n : Nat) (s : State) : Out State :=
  if 16 < n then .fault .noSuchUnit
  else if s.boot.state = 0 then .next s
  else
    let gone := (rangeFrom 1 16).filter fun v => n < v && v ≤ numVf s
    let s := gone.foldl (fun t v => resetFn (tdiFail t v) v) s
    .next (rset s (hifReg 8) (setFld (rget s (hifReg 8)) 23 19 n))

/-- IDE_KEY_PROG (R501, R521): only in a secured session; stream 0 is the link stream, 1 to 17 the selective ones. -/
def execIdeKeyProg (stream : Nat) (secured : Bool) (s : State) : Out State :=
  if 17 < stream then .fault .noSuchUnit
  else if !secured ∨ s.boot.state ≠ 4 ∨ s.trust.sessions.isEmpty then .next s
  else
    let ide := s.hif.ide.filter (fun e => e.1 != stream) ++ [(stream, true)]
    let s := { s with hif := { s.hif with ide := ide, ideKeys := tput 0 s.hif.ideKeys stream (tget 0 s.hif.ideKeys stream + 1) } }
    .next (if stream = 0 then rset s (hifReg 8) (setBit (rget s (hifReg 8)) 17 true) else s)

/-- ATS_INVALIDATION (R499): it completes once no outstanding request of the function uses the page. -/
def execAtsInvalidation (fn page : Nat) (s : State) : Out State :=
  if 16 < fn then .fault .noSuchUnit
  else if !s.hif.linkUp ∨ numVf s < fn then .next s
  else if s.hif.outst.any fun q => q.fn == fn && q.addr / 4096 ≤ page && page ≤ (q.addr + q.len) / 4096 then .next s
  else .next { s with mgtOut := s.mgtOut ++ [.atsDone fn page] }

end Sys2Proof.Machine
end

