-- ==== Sys2Proof/Machine/Messages.lean ====
section
/-! DEFINITION. Fabric messages as they arrive (R460-R467, R471, R476, R477, R505, R506, R523): routed onward, or performed
at this device. -/

namespace Sys2Proof.Machine

open Sys2Proof.Config (Grade cores)

/-- The function for which a message's fold acts: the PF for a request that the lead relays for it (fold 16). -/
def msgFn (f : Nat) : Nat := if 15 < f then 0 else f + 1

/-- Who writes a register through a message. -/
def msgWriter (f : Nat) : Writer := { fn := msgFn f, host := decide (15 < f) }

/-- What a message's access comes to at this device, by the checks of R495 in their order (R505, R523): `.reg` and `.mem`
where the fold reaches it, which is nowhere while it is being filled (R524); the lead's relay of the PF reaches what the PF does. -/
def msgGate (s : State) (f a len : Nat) (write atomic : Bool) : Gate :=
  let ga := gOwn s a
  if f < 16 && foldFilling s f then .err 4 ga
  else match region s.grade a with
  | .csr =>
    if atomic then .err 2 ga else if !(regSizeOk a len) then .err 1 ga
    else if !(fnReg s (msgFn f) a write) then .err 4 ga else .reg a
  | .aperture => .err 2 ga
  | .unpopulated => .err 2 ga
  | .noCore => .err 2 ga
  | _ =>
    if !(populated s.grade a len) then .err 2 ga
    else if !(fnMem s (msgFn f) a len write) then .err 4 ga
    else .mem a

/-- A request that does not reach its target. That of a host which the lead relays is logged here (R495, R505). -/
def msgErr (s : State) (m : Msg) (kind addr : Nat) (write : Bool) : State :=
  if m.host then accErr s (msgFn m.fold) kind addr 2 write else s

/-- The regulators of a message's data: k = 2 on its way out, 3 on its way in, and DRAM (R417). -/
def msgGo (s : State) (f k a n : Nat) (write : Bool) : Bool := regGo s f k 0 && regOk s f (gOwn s a) n write
def msgPay (s : State) (f k a n : Nat) (write : Bool) : State := regPay (regCharge s f k 0 n) f (gOwn s a) n write

/-- A read (R10, R431, R476): one of a channel that computes waits in its hold queue (R111). -/
def takeRead (s : State) (m : Msg) : State :=
  let f := m.fold
  match msgGate s f m.addr m.len false false with
  | .reg a => respond { s with free := s.free + 1 } m .rspData (leBytes m.len (regLoad s (msgFn f) a m.len))
  | .err 1 a => respond (msgErr s m 1 a false) m .rspData (List.replicate m.len 0)
  | .err k a => respond (msgErr s m k a false) m .rspError []
  | _ =>
    if !(msgGo s f 2 m.addr m.len false) then s
    else
      let s := msgPay s f 2 m.addr m.len false
      if rangeHeld s m.addr m.len then askStart s (.peer m) (some f) [(m.addr, m.len)] else peerReads s m

/-- A posted write to memory of this device: of a channel that computes it waits in the hold queue (R111). -/
def putMem (s : State) (f a : Nat) (tally : Option (Nat × Nat × Nat)) (mask : Byte) (bs : List Byte) : State :=
  if region s.grade a = .dram then dramWrite s (some f) tally a bs none mask
  else
    let r := extWrite s a (maskBytes s a mask bs)
    match tally with
    | some t => if r.2 then addTally r.1 t.1 t.2.1 t.2.2 else r.1
    | none => r.1

/-- A posted write. A request to the lead's host aperture is a relayed one (R506). -/
def takeWrite (s : State) (m : Msg) : State :=
  let f := m.fold
  let n := m.data.length
  match msgGate s f m.addr n true false with
  | .reg a => regStore s (msgWriter f) a n (BitVec.ofNat 64 (leNat m.data))
  | .err k a => respond (msgErr s m k a true) m .rspError []
  | _ => if !(msgGo s f 3 m.addr n true) then s else putMem (msgPay s f 3 m.addr n true) f m.addr none 0xFF m.data

/-- Bytes of a DMA.PUT (R227, R249, R289, R427): written, then counted on the tally at this device; discarded and not counted
while the fold is being filled (R524). -/
def takePut (s : State) (m : Msg) : State :=
  let f := m.fold
  let n := m.data.length
  if f < 16 && foldFilling s f then s
  else if !(tallyReach s f m.tallyUnit m.tallyNum) then respond s m .rspError []
  else match msgGate s f m.addr n true false with
  | .mem _ =>
    if !(msgGo s f 3 m.addr n true) then s
    else putMem (msgPay s f 3 m.addr n true) f m.addr (some (m.tallyUnit, m.tallyNum, m.operand.toNat)) (m.compare.setWidth 8) m.data
  | _ => respond s m .rspError []

/-- A DOMAIN atomic at its home (R292, R496). -/
def takeAtomic (s : State) (m : Msg) : State :=
  let n := if m.size8 then 8 else 4
  match msgGate s m.fold m.addr n true true with
  | .err k a => respond (msgErr s m k a true) m .rspError []
  | _ =>
  if m.addr % n != 0 || 10 < m.aop then respond s m .rspError []
  else if !(msgGo s m.fold 3 m.addr n true) then s
  else if rangeHeld s m.addr n then
    askNew (msgPay s m.fold 3 m.addr n true) (.peer m) (some m.fold)
      { addr := locOf m.addr, len := n, write := true, kind := .atomic m.aop m.size8 m.operand.toNat m.compare.toNat }
  else
    match atomicAt (msgPay s m.fold 3 m.addr n true) { path := 7 } m.addr m.size8 m.aop m.operand.toNat m.compare.toNat with
    | (s, .ok old) => respond s m .rspData (leBytes n old)
    | (s, .error _) => respond s m .rspPoison []

/-- A tally-add or a doorbell that the lead forwards (R301, R303, R397, R505). -/
def takeTally (s : State) (m : Msg) (a : Nat) : State :=
  match msgGate s m.fold a 8 true false with
  | .reg b => regStore s (msgWriter m.fold) b 8 m.operand
  | .err k b => msgErr s m k b true
  | _ => s

/-- A message for this device. -/
def takeMsg (s : State) (m : Msg) : Out State :=
  let relay : Bool := s.devid == 0 && region s.grade m.addr == .aperture
  match m.op with
  | .read => if relay then execRelayDeviceRequest m.src false (m.addr - aprBase) (List.replicate m.len 0) none s else .next (takeRead s m)
  | .write => if relay then execRelayDeviceRequest m.src true (m.addr - aprBase) m.data none s else .next (takeWrite s m)
  | .put => .next (takePut s m)
  | .atomic => .next (takeAtomic s m)
  | .tallyAdd => .next (takeTally s m (addReg m.tallyUnit m.tallyNum))
  | .doorbell => .next (takeTally s m m.addr)
  | .interrupt => execRelayDeviceRequest m.src true 0 [] (some m.operand.toNat) s
  | .degraded => .next (takeNotice s m.operand.toNat)
  -- an answer, or a message that only management reads
  | .rspData => .next s
  | .rspError => .next s
  | .rspPoison => .next s
  | .management => .next s

/-- A MAC mismatch (R462): the first NAKs the group, the second takes the link down. -/
def macMismatch (s : State) (l : Nat) : State :=
  let k := getLink s l
  if k.macMiss then dropLink (rset s (linkReg l) (setBit (rget s (linkReg l)) 11 true)) l
  else setLink s l { k with macMiss := true }

/-- What the flits of an arriving message met on the way (R459, R485): free numbers of symbols that the FEC corrected and of
flits that were discarded and replayed (log entry 39). -/
def countFlits (l : Nat) (s : State) : State :=
  let d := draw s
  let e := draw d.2
  rinc (rinc e.2 (swvReg (0x300 + 8 * l)) (Config.freeNat d.1)) (swvReg (0x400 + 8 * l)) (Config.freeNat e.1)

/-- A message's flits are counted after what the message does. -/
def countOut (l : Nat) (o : Out State) : Out State :=
  match o with
  | .next t => .next (countFlits l t)
  | r => r

/-- MESSAGE_RECEIVE (R460): a message arrives over a link. Before keys are installed, or before READY, only MGT messages
are taken (R462, R568). -/
def execMessageReceive (l : Nat) (macOk : Bool) (m : Msg) (s : State) : Out State :=
  onLink s l <| countOut l <|
    let k := getLink s l
    if k.keys && !macOk then .next (macMismatch s l)
    else
      let s1 := setLink s l { k with macMiss := false }
      if m.cls ≠ .mgt ∧ (!k.keys ∨ s.boot.state ≠ 4) then .next s1
      else if m.dst ≠ s.devid then .next (sendFab s1 m)
      else takeMsg s1 m

end Sys2Proof.Machine
end

