-- ==== Sys2Proof/Machine/Trust.lean ====
section
/-! DEFINITION. Trust (chapter 19): image verification, the commands of the PF management ring that commit SVNs, revoke the
key and unlock debug, and the SPDM responder. -/

namespace Sys2Proof.Machine

open Sys2Proof.Config (Grade cores)

/-! ## Images (R515, R516, R570, R571) -/

/-- CAUSE with which an image fails where the bundle holds the given kind, 0 where it verifies (R516, R571). -/
def imageCause (s : State) (kind : Nat) (i : ImageCheck) : Nat :=
  if !i.present then (if kind = 1 then 1 else 6)
  else if !i.headerOk ∨ 64 < i.svn ∨ 1 < i.keyIndex ∨ i.kind = 0 ∨ 3 < i.kind then 2
  else if !i.keyOk ∨ keyRevoked s i.keyIndex then 3
  else if !i.sigOk then 4
  else if i.svn < fusedSvn s i.kind then 5
  else if i.kind ≠ kind then 6
  else 0

/-- The first CAUSE of the images of a bundle that should hold these kinds in this order. -/
def bundleCauseOf (s : State) : List Nat → List ImageCheck → Nat
  | [], _ => 0
  | _ :: _, [] => 6
  | k :: ks, i :: is => if imageCause s k i = 0 then bundleCauseOf s ks is else imageCause s k i

/-- A bundle: stage 1, SerDes microcode, shepherd firmware (R570). No image at all is CAUSE 1. -/
def bundleCause (s : State) (is : List ImageCheck) : Nat := if is.isEmpty then 1 else bundleCauseOf s [1, 3, 2] is

/-- The images of a bundle before the first that fails. -/
def bundleGoodOf (s : State) : List Nat → List ImageCheck → List ImageCheck
  | k :: ks, i :: is => if imageCause s k i = 0 then i :: bundleGoodOf s ks is else []
  | _, _ => []

def bundleGood (s : State) (is : List ImageCheck) : List ImageCheck := bundleGoodOf s [1, 3, 2] is

/-- The running image of a kind. -/
def runningImage (s : State) (kind : Nat) : Option ImageCheck := s.boot.images.find? fun i => i.kind == kind

/-! ## Identity (R513) -/

/-- The DeviceID public key (R513). -/
def deviceIdPublic : List Byte := Config.eccPublic (Config.eccPrivate Config.uds)

/-- The CDI of an alias key: HMAC-SHA-384 under the UDS of the stage-1 DIGEST, its SVN and a last byte (R513). -/
def cdi (digest svn last : Nat) : BitVec 384 := hmac384 Config.uds (leBytes 48 digest ++ leBytes 1 svn ++ leBytes 1 last)

/-- The boot ROM derives the keys of a verified stage 1, passes the alias keys to it and locks the UDS until the next reset
(R513). While it is locked nothing is derived again. -/
def dice (s : State) : State :=
  match runningImage s 1 with
  | none => s
  | some i =>
    if s.trust.udsLocked then s
    else { s with trust := { s.trust with udsLocked := true, stage1 := some (i.digest, i.svn),
                                          aliasKey := some (Config.eccPrivate (cdi i.digest i.svn 0)),
                                          debugKey := some (Config.eccPrivate (cdi i.digest i.svn 1)) } }

/-- The first 8 bytes of SHA-384 of the DeviceID public key (R528). -/
def deviceTag : Nat := (sha384 deviceIdPublic).toNat % 2 ^ 64

/-! ## SEC.COMMIT_SVN, SEC.REVOKE_KEY (R518) -/

/-- SEC_COMMIT_SVN. -/
def execSecCommitSvn (n : Nat) (s : State) : Out State :=
  svcRow 2 0x31 (fun k => fld k.w2 63 8 != 0 || !(tailZero k) || fld k.w2 7 0 == 0 || 3 < fld k.w2 7 0) (fun s v =>
    let kind := fld v.cmd.w2 7 0
    let svn := ((runningImage s kind).map (·.svn)).getD 0
    if v.ring ≠ 65535 then .done s stAccess 0
    else if debugScope s ≠ 0 then .done s stRejState 0
    else if svn ≤ fusedSvn s kind then .done s stAlready 0
    else .done (lifeAdd (rfld s (secReg 0) (svnLow kind + 6) (svnLow kind) svn) false 0x0040 kind) stOk 0) n s

/-- SEC_REVOKE_KEY. -/
def execSecRevokeKey (n : Nat) (s : State) : Out State :=
  svcRow 2 0x32 (fun k => k.w2 != 0 || !(tailZero k)) (fun s v =>
    if v.ring ≠ 65535 then .done s stAccess 0
    else if debugScope s ≠ 0 ∨ s.boot.images.any (fun i => i.keyIndex == 0) then .done s stRejState 0
    else if keyRevoked s 0 then .done s stAlready 0
    else .done (lifeAdd (rset s (secReg 0) (setBit (rget s (secReg 0)) 4 true)) false 0x0040 4) stOk 0) n s

/-! ## SEC.DEBUG_UNLOCK (R528-R530) -/

/-- A new nonce is drawn: two words (R529, R534). -/
def newNonce (s : State) : State := { s with free := s.free + 2, trust := { s.trust with nonce := s.free } }

/-- The current nonce as bytes. -/
def nonceBytes (s : State) : List Byte :=
  leBytes 8 (Config.freeWord s.trust.nonce).toNat ++ leBytes 8 (Config.freeWord (s.trust.nonce + 1)).toNat

/-- SCOPE of a token. -/
def tokenScope (t : List Byte) : Nat := leNat ((t.drop 6).take 2)

/-- The status of an attempt with a readable token (R529). -/
def tokenStatus (s : State) (t : List Byte) : Nat :=
  let at_ (o n : Nat) : Nat := leNat ((t.drop o).take n)
  let key := at_ 36 4
  if at_ 0 4 ≠ 0x47424451 ∨ at_ 4 2 ≠ 1 ∨ tokenScope t = 0 ∨ 7 < tokenScope t ∨ at_ 32 4 ≠ 0 then stFormat
  else if at_ 8 8 ≠ deviceTag ∨ 1 < key ∨ keyRevoked s key ∨ !(Config.ecdsaOk key (t.take 40) ((t.drop 40).take 96)) then stAccess
  else if (t.drop 16).take 16 ≠ nonceBytes s then stRejState
  else if tokenScope t ||| debugScope s = debugScope s then stAlready
  else stOk

/-- What an unlock does, in its order (R530): the alias private key is erased. -/
def unlockDebug (s : State) (scope : Nat) : State :=
  let s := { s with keys := { s.keys with sealKey := [], prefixKey := [], group := [] }, srv := { s.srv with prefixes := [] } }
  let s := (s.srv.pools.map (·.1)).foldl poolStat (prefixStat s)
  let s := rset { s with hif := { s.hif with ide := [] } } (hifReg 8) (setBit (rget s (hifReg 8)) 17 false)
  let s := (rangeFrom 1 16).foldl tdiFail s
  let s := (List.range 32).foldl dropLink s
  let s := { s with trust := { s.trust with aliasKey := none } }
  let s := rset s (secReg 0) (setFld (rget s (secReg 0)) 2 0 (debugScope s ||| scope))
  lifeAdd s false 0x0040 8

/-- The front command of a ring is an attempt to unlock. -/
def isUnlock (s : State) (n : Nat) : Bool := match fetchLine s n 0 with | .ok _ bs => opcode (cmdOf bs) == 0x30 | _ => false

/-- SEC_DEBUG_UNLOCK: each attempt, whatever its outcome, replaces the nonce. -/
def execSecDebugUnlock (n : Nat) (s : State) : Out State :=
  let r := svcRow 2 0x30 (fun k => fld k.w2 63 50 != 0 || fld k.w2 2 0 != 0 || !(tailZero k)) (fun s v =>
    let a := fld v.cmd.w2 49 0
    if v.ring ≠ 65535 ∨ !(populated s.grade a 136) ∨ region s.grade a = .csr then .done s stAccess 0
    else
      match fwRead s (.service n) a 136 with
      | .held s => .wait s
      | .bad s st => .done s st 0
      | .ok s t =>
        let st := tokenStatus s t
        .done (if st = stOk then unlockDebug s (tokenScope t) else s) st 0) n s
  match r with
  | .next t => .next (if t.srv.nextCmd ≠ s.srv.nextCmd ∧ isUnlock s n then newNonce t else t)
  | r => r

/-! ## The SPDM responder (R514, R517, R519) -/

def sendMgt (s : State) (m : MgtMsg) : State := { s with mgtOut := s.mgtOut ++ [m] }

/-- Stage 1 runs and answers (R519, R568). -/
def stage1Up (s : State) : Bool := s.boot.state != 0 && (runningImage s 1).isSome

/-- A request that stage 1 answers. -/
def spdm (s : State) (k : State → State) : Out State := .next (if stage1Up s then k s else s)

/-- The debug alias key is in use (R514, R530). -/
def debugAlias (s : State) : Bool := debugScope s != 0

/-- Measurement i (R517); how the contents of 5 and 6 are laid out is the model's choice (log entry 60). -/
def measurement (s : State) (i : Nat) : Nat :=
  match i with
  | 1 => Config.romDigest.toNat
  | 2 => measureStage1 s
  | 3 => imageDigest s 2
  | 4 => imageDigest s 3
  | 5 => measureFuses s
  | 6 => (sha384 ([BitVec.ofNat 8 (debugScope s), BitVec.ofNat 8 (fld (rget s (secReg 8)) 0 0)] ++ leBytes 8 (partId s).toNat)).toNat
  | _ => (sha384 (((List.range 16).filter (foldActive s)).flatMap fun f => (List.range 14).flatMap fun i => leBytes 8 (fldW s f i).toNat)).toNat

/-- SPDM_GET_CERTIFICATE: slot 0 holds the chain. -/
def execSpdmGetCertificate (slot : Nat) (s : State) : Out State :=
  spdm s fun s => sendMgt s (if slot = 0 then .certificate 0 (debugAlias s) else .error)

/-- SPDM_CHALLENGE. -/
def execSpdmChallenge (s : State) : Out State := spdm s fun s => sendMgt s (.challengeAuth (debugAlias s))

/-- SPDM_GET_MEASUREMENTS: index 0 asks for their number, 255 for all of them. -/
def execSpdmGetMeasurements (index : Nat) (s : State) : Out State :=
  let one (t : State) (i : Nat) : State := sendMgt t (.measurement i (measurement t i) (debugAlias t))
  spdm s fun s =>
    if index = 0 then sendMgt s (.measurement 0 7 (debugAlias s))
    else if index = 255 then (rangeFrom 1 7).foldl one s
    else if index ≤ 7 then one s index
    else sendMgt s .error

/-- SPDM_KEY_EXCHANGE: at most 8 sessions are open. -/
def execSpdmKeyExchange (s : State) : Out State :=
  spdm s fun s =>
    if 8 ≤ s.trust.sessions.length then sendMgt s .busy
    else
      let id := s.trust.nextSession
      sendMgt { s with trust := { s.trust with sessions := s.trust.sessions ++ [(id, 0)], nextSession := id + 1 } } (.keyExchange id)

def sessionOpen (s : State) (id : Nat) : Bool := s.trust.sessions.any fun e => e.1 == id

/-- SPDM_HEARTBEAT. -/
def execSpdmHeartbeat (id : Nat) (s : State) : Out State :=
  spdm s fun s => sendMgt s (if sessionOpen s id then .heartbeat id else .error)

/-- SPDM_KEY_UPDATE. -/
def execSpdmKeyUpdate (id : Nat) (s : State) : Out State :=
  spdm s fun s =>
    if sessionOpen s id then
      sendMgt { s with trust := { s.trust with sessions := s.trust.sessions.map fun e => if e.1 = id then (e.1, e.2 + 1) else e } } (.keyUpdate id)
    else sendMgt s .error

/-- DOE_FLASH_UPDATE (R573): the bundle is verified whole before the flash changes. -/
def execDoeFlashUpdate (images : List ImageCheck) (s : State) : Out State :=
  if s.boot.state ≠ 4 ∨ !s.hif.linkUp then .next s
  else if bundleCause s images = 0 then .next (sendMgt { s with boot := { s.boot with flash := images } } (.flashDone true))
  else .next (sendMgt s (.flashDone false))

end Sys2Proof.Machine
end

