-- ==== Sys2Proof/Machine/Reset.lean ====
section
/-! DEFINITION. What a reset and a loss of power leave (R19, R435, R442, R533, R562, R565, R574-R577). -/

namespace Sys2Proof.Machine

open Sys2Proof.Config (Grade cores)

/-- Registers that a reset leaves as they are: fused fields, the core and spare maps, THM_TRIP; a warm reset also P_LIM and
the counters of R560. -/
def keptRegs (s : State) (warm : Bool) : Tab Word :=
  s.regs.filterMap fun e =>
    let a := e.1
    if a = secReg 0 then some (a, e.2 &&& 0x7F7F7F00000010)
    else if a = thmReg 0x28 then some e
    else if eccReg 0x100 ≤ a ∧ a < eccReg 0x118 then some e
    else if chnReg 0 0 ≤ a ∧ a < chnReg 384 0 ∧ (a - chnReg 0 0) % 0x1000 = 0x68 then some (a, e.2 &&& 0xFFFFFFFF)
    else if warm && (a == thmReg 0x200 || a == thmReg 0x208) then some e
    else if warm && a == thmReg 0 then some (a, setFld (regReset s.grade a) 12 0 (fld e.2 12 0))
    else none

/-- The device in reset: every store, register, ring, fold, key and session as State.reset has them, but for what R574 and
R577 keep, the outputs that have left it, and the commands that wait. The registers' canonical form is kept by writing
them anew. -/
def resetCore (s : State) (warm : Bool) : State :=
  let r : State := {
    grade := s.grade, badCores := s.badCores, fwRanges := s.fwRanges, remaps := s.remaps, devid := s.devid,
    chans := s.chans.filterMap fun e => if e.2.tsvs = 0 then none else some (e.1, { tsvs := e.2.tsvs }),
    boot := { rails := s.boot.rails, pwrgd := s.boot.pwrgd, perst := s.boot.perst, thermtrip := s.boot.thermtrip, state := 0, step := 0,
              resetCause := s.boot.resetCause, seqErr := s.boot.seqErr, strap := s.boot.strap, flash := s.boot.flash,
              stuck := s.boot.stuck, tripped := s.boot.tripped, jtag := s.boot.jtag, i3c := s.boot.i3c },
    ecc := { sparesUsed := s.ecc.sparesUsed },
    trust := { nonce := s.free },
    power := { pin := s.power.pin, receiver := s.power.receiver },
    life := { s.life with hour := 0, counts := [], now := s.life.saved, tempsAt := 0, wattsAt := 0, summary := 0 },
    msix := s.msix, mgtOut := s.mgtOut, hostAns := s.hostAns, hostOut := s.hostOut, fabOut := s.fabOut,
    free := s.free + 2, epoch := s.epoch + 1, pending := s.pending }
  (keptRegs s warm).foldl (fun t e => rset t e.1 e.2) r

/-- The device loses its rails, or PWRGD: its links are down and nothing runs (R563, R565, R576). -/
def powerDown (s : State) : State :=
  let s := resetCore (pcieDown s) false
  { s with boot := { s.boot with state := 0, resetCause := 1 } }

/-- VSTBY is present: management logic works (R563). -/
def standby (s : State) : Bool := s.boot.rails.headD false

/-- Every rail is within tolerance. -/
def railsUp (s : State) : Bool := s.boot.rails.length == 5 && s.boot.rails.all id

/-- The clocks run: BOOT, RECOVERY, FAILED or READY. -/
def running (s : State) : Bool := s.boot.state != 0

end Sys2Proof.Machine
end

