-- ==== Sys2Proof/Machine/Power.lean ====
section
/-! DEFINITION. Power, temperature and telemetry (R537-R562): the governor's knobs, the brake, the thermal thresholds,
shutdowns and trips, PLDM, the life log's summaries. Power and temperatures are readings that the rows bring. -/

namespace Sys2Proof.Machine

open Sys2Proof.Config (Grade cores)

/-! ## The governor (R538-R541) -/

def thmCtrl (s : State) : Word := rget s (thmReg 0)

/-- P_LIM of the grade (R538). -/
def gradeLim : Grade → Nat
  | .f => 3600
  | .e => 3100

/-- BRAKE of THM_STATUS. -/
def braked (s : State) : Bool := bit (rget s (thmReg 8)) 3

/-- P_LIM in effect (R541, R550, R557). -/
def pLim (s : State) : Nat :=
  let p := max 1200 (min (gradeLim s.grade) (fld (thmCtrl s) 12 0))
  if braked s then p / 2 else p

/-- E_MAX in units of 10 µJ (R538). -/
def eMax (s : State) : Nat := (4400 - pLim s) * 1000

/-- The target (R538). -/
def target (s : State) : Nat := if s.power.e < eMax s then 4400 else pLim s

/-- A rate field of THM_CTRL (R557). -/
def rateField (v : Nat) : Nat := max 1 (min 16 v)
def brakeRate (s : State) : Nat := rateField (fld (thmCtrl s) 17 13)
def brakeCap (s : State) : Nat := min 32 (fld (thmCtrl s) 23 18)
def thrRate (s : State) : Nat := rateField (fld (thmCtrl s) 28 24)
def thrCap (s : State) : Nat := min 32 (fld (thmCtrl s) 37 32)

/-- The issue rate applied on compute die d, and the CAP applied to stack k: the most restrictive constraint, and
never below 4 while a fold fill runs on the stack (R539). -/
def appliedRate (s : State) (d : Nat) : Nat :=
  min (min s.power.rate ((tget none s.power.thr d).getD 16)) (if braked s then brakeRate s else 16)
def appliedCap (s : State) (k : Nat) : Nat :=
  max (min (min s.power.cap ((tget none s.power.thr (2 + k)).getD 32)) (if braked s then brakeCap s else 32)) (if fillOn s k then 4 else 0)

/-- Links held at 2 lanes by the I/O die's throttle. -/
def narrowLinks (s : State) : Nat := ((List.range 32).filter fun l => (getLink s l).idle != 0).length

/-- The knobs take the values applied: THM_KNOBS, and STK_COMPUTE_CAP of every stack (R539, R560). -/
def applyKnobs (s : State) : State :=
  let s := rset s (thmReg 0x20) (BitVec.ofNat 64 (narrowLinks s * 2 ^ 32 + appliedRate s 1 * 2 ^ 8 + appliedRate s 0))
  (List.range 12).foldl (fun t k => rfld t (stkReg k 0x100) 5 0 (appliedCap t k)) s

/-- A tick of DEV_TIME with nothing commanded (R33): fold fills that have lasted their time end, and the knobs follow (R524, R539). -/
def tick (s : State) : State :=
  let s : State := { s with time := s.time + 1 }
  if s.folds.fills.any fun x => x.due ≤ s.time then applyKnobs (endFills s) else s

/-- A bit of THM_STATUS, with the assertion of ALERT_N that may follow. -/
def thmStatus (s : State) (i : Nat) (b : Bool) : State := rset s (thmReg 8) (setBit (rget s (thmReg 8)) i b)

/-- BURST_OUT follows E (R558). -/
def burstOut (s : State) : State := thmStatus s 4 (decide (eMax s ≤ s.power.e))

/-- PWRBRAKE_N takes effect (R541): the knobs come down to the brake's values and rise from there after its release. -/
def brakeOn (s : State) : State :=
  let s := thmStatus s 3 true
  let s := { s with power := { s.power with rate := min s.power.rate (brakeRate s), cap := min s.power.cap (brakeCap s), e := eMax s } }
  applyKnobs (lifeAdd (rinc (setAlert (burstOut s) 2) (thmReg 0x208) 1) true 0x0030 0x100)

/-- BRAKE_ASSERT (R541, R587): before READY only the pin is low. -/
def execBrakeAssert (s : State) : Out State :=
  let t : State := { s with power := { s.power with pin := true } }
  .next (if s.boot.state = 4 ∧ !(braked s) then brakeOn t else t)

/-- BRAKE_RELEASE (R541). -/
def execBrakeRelease (s : State) : Out State :=
  let t : State := { s with power := { s.power with pin := false } }
  .next (if braked s then applyKnobs (burstOut (thmStatus t 3 false)) else t)

/-- The time since the last sample counted in its power bin: 16 bins of 250 W, the last 3,750 W and more (R555). -/
def countWatts (s : State) (watts : Nat) : State :=
  let l := s.life
  let i := min 15 (watts / 250)
  let w := tput 0 l.now.watts i (tget 0 l.now.watts i + (s.time - l.wattsAt))
  { s with life := { l with wattsAt := s.time, now := { l.now with watts := w } } }

/-- POWER_SAMPLE (R537-R539): every 10 µs. -/
def execPowerSample (watts : Nat) (s : State) : Out State :=
  if 65535 < watts then .fault .noSuchUnit
  else if s.boot.state ≠ 4 then .next s
  else
    let s := countWatts s watts
    let s := if s.power.pin && !(braked s) then brakeOn s else s
    let e := s.power.e + watts - pLim s
    let samples := (watts :: s.power.samples).take 1000
    let s := burstOut { s with power := { s.power with e := e, samples := samples } }
    let avg := samples.foldl (· + ·) 0 / samples.length
    let s := rset s (thmReg 0x18) (BitVec.ofNat 64 (target s * 2 ^ 32 + avg * 2 ^ 16 + watts))
    if target s < watts then
      .next (applyKnobs { s with power := { s.power with rate := max 1 (s.power.rate - 1), cap := s.power.cap - 4 } })
    else .next s

/-- KNOB_RAISE (R539): once per 100 µs while the last sample lies below 0.95 of the target. -/
def execKnobRaise (s : State) : Out State :=
  let w := fld (rget s (thmReg 0x18)) 15 0
  if s.boot.state ≠ 4 ∨ 19 * target s ≤ 20 * w ∨ s.time < 100 * Config.tick + s.power.raised then .next s
  else
    let r := min (s.power.rate + 1) (if braked s then brakeRate s else 16)
    let c := min (s.power.cap + 4) (if braked s then brakeCap s else 32)
    .next (applyKnobs { s with power := { s.power with rate := max s.power.rate r, cap := max s.power.cap c, raised := s.time } })

/-! ## Shutdown and trip (R546-R549) -/

/-- The device trips, or ends an orderly shutdown: THERMTRIP_N and THM_TRIP, and the regulators are off. -/
def tripOff (s : State) (body cause : Nat) : State :=
  let s := rset s (thmReg 0x28) (BitVec.ofNat 64 (body * 2 ^ 8 + cause * 2 + 1))
  let s := powerDown s
  { s with boot := { s.boot with thermtrip := true, tripped := true } }

/-- Everything on the channels is served or dropped at once. -/
def stopChannels (s : State) : State :=
  let s := { s with launches := s.launches.map fun (e : Nat × Option Launch) => (e.1, e.2.map fun (l : Launch) =>
    { l with chans := l.chans.map fun (c : LaunchCh) => if c.state = 0 then { c with state := 2 } else c }) }
  (s.chans.map (·.1)).foldl (fun t g =>
    let ch := getChan t g
    let t := if ch.mode = 0 then t else serveAll t g
    setChan t g { tsvs := ch.tsvs }) s

/-- The commands of one context end with ST_FLT_THERMAL (R547): those running or dispatched; its member halts. -/
def stopCtx (s : State) (c x : Nat) : State :=
  let k := getCtx s c 0 x
  if !k.bound then s
  else
    let busy := (List.range 4).any fun q => !(idleQ (getCtx s c q x))
    let s := (List.range 4).foldl (fun t q => endCtx t c q x stThermal) s
    let s := endLaunches 64 c s
    let s := (List.range 4).foldl (fun t q => setCtx t c q x { getCtx t c q x with halted := true }) s
    if busy then haltMember s k.ring k.member else s

/-- The orderly shutdown begins (R547): SD_ORDERLY, every command and every unfinished service command ends, and the
fabric's members are told. -/
def beginShutdown (s : State) (body : Nat) : State :=
  let s := thmStatus { s with power := { s.power with sd := some (s.time, body) } } 5 true
  let s := stopChannels s
  let s := (List.range (cores s.grade)).foldl (fun t c => (List.range 8).foldl (fun u x => stopCtx u c x) t) s
  let s := svcKillAll s stThermal
  if domainState s = 2 ∨ domainState s = 3 then sendNotices s s.devid else s

/-- The counts of the summary records (R555): powered minutes per class and bin, seconds per power bin, corrected words
and uncorrectable events per channel, dropped records per event type. -/
def summaryData (l : Life) (kind : Nat) : List Nat :=
  if kind = 0x0002 then (List.range 48).map fun i => tget 0 l.now.temps i / (60000000 * Config.tick)
  else if kind = 0x0003 then (List.range 16).map fun i => tget 0 l.now.watts i / (1000000 * Config.tick)
  else if kind = 0x0004 then (List.range 384).flatMap fun g => [tget 0 l.now.ce g, tget 0 l.now.ue g]
  else l.now.dropped.flatMap fun e => [e.1, e.2]

/-- The summary records (R555, R556). -/
def summaries (s : State) : State :=
  let t := [0x0002, 0x0003, 0x0004, 0x00F0].foldl (fun t k => lifeAdd t false k 0 (summaryData s.life k)) s
  { t with life := { t.life with saved := s.life.now } }

/-- Temperature bin of R555, from 1/16 °C: below 50 °C, 14 bins of 5 °C, 120 °C and more. -/
def tempBin (t : Int) : Nat := if t < 800 then 0 else min 15 (1 + ((t - 800) / 80).toNat)

/-- The time since the last reading counted in the bin of each body class (R555): compute, stack, I/O, each at its hottest
body's reading (log entry 43). -/
def countTemps (s : State) (ts : List Int) : State :=
  let d := s.time - s.life.tempsAt
  let top (l : List Int) : Int := l.foldl max (l.headD 0)
  let bins := [top (ts.take 2), top ((ts.drop 2).take 12), top (ts.drop 14)].map tempBin
  let t := (List.range 3).foldl (fun (t : Tab Nat) c =>
    let i := 16 * c + bins.getD c 0
    tput 0 t i (tget 0 t i + d)) s.life.now.temps
  { s with life := { s.life with tempsAt := s.time, now := { s.life.now with temps := t } } }

/-- Its end: the life log, then power off (R547). -/
def endShutdown (s : State) (body : Nat) : State :=
  tripOff (lifeAdd (summaries s) true 0x0030 (0x200 + body)) body 1

/-- SHUTDOWN_DEADLINE (R547): not ended by 1.8 ms. -/
def execShutdownDeadline (s : State) : Out State :=
  match s.power.sd with
  | some (t, b) => .next (if 18 * 100 * Config.tick + t ≤ s.time then tripOff s b 2 else s)
  | none => .next s

/-- ANALOG_TRIP (R548). -/
def execAnalogTrip (body : Nat) (s : State) : Out State :=
  if 15 ≤ body then .fault .noSuchUnit
  else if s.boot.thermtrip ∨ !(railsUp s) then .next s
  else .next (tripOff s body 3)

/-- THERMTRIP_RELEASE (R549): every body below 116 °C; temperatures in 1/16 °C. -/
def execThermtripRelease (temps : List Int) (s : State) : Out State :=
  if temps.length ≠ 15 then .fault .noSuchUnit
  else if s.boot.thermtrip ∧ standby s ∧ temps.all (· < 1856) then .next { s with boot := { s.boot with thermtrip := false } }
  else .next s

/-! ## Thresholds (R542-R545) -/

def tempReg (d : Nat) : Nat := thmReg (0x100 + 8 * d)

/-- STATE of a body: 0 normal, 1 WARN, 2 THROTTLE, 3 SHUTDOWN. -/
def bodyState (s : State) (d : Nat) : Nat := fld (rget s (tempReg d)) 19 16

/-- The state after a reading, with the thresholds' hysteresis (R543). -/
def bodyNext (old : Nat) (t : Int) : Nat :=
  if 1920 ≤ t then 3
  else if 1696 ≤ t ∨ (2 ≤ old ∧ 1632 ≤ t) then 2
  else if 1568 ≤ t ∨ (1 ≤ old ∧ 1504 ≤ t) then 1
  else 0

/-- The constraint of a body that enters THROTTLE (R544); one that still loosens is not relaxed. -/
def throttleEntry (s : State) (d : Nat) : State :=
  let s := ror s (thmReg 0x10) 1
  if d = 14 then governLinks s true
  else
    let v := if d < 2 then thrRate s else thrCap s
    let v := match tget none s.power.thr d with | some o => min o v | none => v
    { s with power := { s.power with thr := tput none s.power.thr d (some v) } }

/-- WARN (k = 1) or THROTTLE (k = 2) of body d entered or left: the entry's time is kept, and when the body leaves, a record
tells the duration in µs (R555, log entry 43). -/
def bodyNote (s : State) (d k old new : Nat) : State :=
  let i := 2 * d + k - 1
  if old < k ∧ k ≤ new then { s with power := { s.power with since := tput 0 s.power.since i s.time } }
  else if k ≤ old ∧ new < k then lifeAdd s true 0x0030 (0x80 * (2 - k) + d) [(s.time - tget 0 s.power.since i) / Config.tick]
  else s

/-- One body's reading: temperature in 1/16 °C and hottest node. -/
def bodyUpdate (s : State) (d : Nat) (t : Int) (node : Nat) : State :=
  let old := bodyState s d
  let new := bodyNext old t
  let s := rset s (tempReg d) (BitVec.ofNat 64 (node % 256 * 2 ^ 24 + new * 2 ^ 16) ||| ((BitVec.ofInt 16 t).setWidth 64))
  let s := bodyNote (bodyNote s d 1 old new) d 2 old new
  if old < 2 ∧ 2 ≤ new then throttleEntry s d
  else if 2 ≤ old ∧ new < 2 ∧ d = 14 then governLinks s false
  else s

/-- The body with the highest temperature, the lowest number among equals. -/
def hotBody (ts : List Int) : Nat :=
  ((List.range ts.length).foldl (fun (m : Nat) i => if ts.getD m 0 < ts.getD i 0 then i else m) 0)

/-- WARN, THROTTLE and HOT_BODY of THM_STATUS (R558). -/
def statusBits (s : State) (ts : List Int) : State :=
  let some_ (k : Nat) : Bool := (List.range 15).any fun d => k ≤ bodyState s d
  let w := rget s (thmReg 8)
  rset s (thmReg 8) (setFld (setBit (setBit w 1 (some_ 1)) 2 (some_ 2)) 11 8 (hotBody ts))

/-- A body at 120 °C or more whose time to 125 °C is below 2 ms (R546); the rise is that of the last 100 µs. -/
def tripsNow (t rise : Int) : Bool := 1920 ≤ t && 0 < rise && 2000 - t < 20 * rise

/-- THERMAL_UPDATE (R543, R545-R547): every 10 µs; temperatures and rises in 1/16 °C. -/
def execThermalUpdate (temps : List (Int × Nat)) (rise : List Int) (s : State) : Out State :=
  if temps.length ≠ 15 ∨ rise.length ≠ 15 then .fault .noSuchUnit
  else if !(running s) then .next s
  else
    let ts := temps.map (·.1)
    let at_ (d : Nat) : Int := ts.getD d 0
    let s1 := (List.range 15).foldl (fun t d => bodyUpdate t d (at_ d) ((temps.getD d (0, 0)).2)) (countTemps s ts)
    let s1 := statusBits s1 ts
    let s1 := if bit (rget s1 (thmReg 8)) 2 then rinc s1 (thmReg 0x200) 10 else s1
    let s1 := applyKnobs (alerting s s1)
    let hot := (List.range 15).filter fun d => 1920 ≤ at_ d
    match (List.range 15).find? fun d => tripsNow (at_ d) (rise.getD d 0) with
    | some d => .next (tripOff s1 d 2)
    | none =>
      match hot.find? (fun d => 1968 ≤ at_ d), hot, s1.power.sd with
      | some d, _, _ => .next (tripOff s1 d 2)
      | none, d :: _, none => .next (beginShutdown s1 d)
      | none, _, some (t, b) => .next (if 1000 * Config.tick + t ≤ s.time then endShutdown s1 b else s1)
      | none, [], none => .next s1

/-- THERMAL_CALIBRATE (R542): for each diode its body, its reading and its model node, in 1/16 °C. The corrected node shows
in the temperatures that the next THERMAL_UPDATE brings. -/
def execThermalCalibrate (nodes : List (Nat × Int × Int)) (s : State) : Out State :=
  if nodes.any (fun n => 15 ≤ n.1) then .fault .noSuchUnit
  else if !(running s) then .next s
  else if nodes.any (fun n => 96 < n.2.1 - n.2.2 ∨ 96 < n.2.2 - n.2.1) then .next (setAlert s 4)
  else .next s

/-- One step of a body's constraint (R544). -/
def throttleOne (s : State) (d : Nat) : State :=
  match tget none s.power.thr d with
  | none => s
  | some v =>
    let new : Option Nat :=
      if 2 ≤ bodyState s d then some (if d < 2 then max 1 (v - 1) else v / 2)
      else if d < 2 then (if 16 ≤ v + 1 then none else some (v + 1))
      else if 32 ≤ v + 4 then none else some (v + 4)
    { s with power := { s.power with thr := tput none s.power.thr d new } }

/-- THROTTLE_STEP (R544): every 1 ms. -/
def execThrottleStep (s : State) : Out State :=
  if !(running s) ∨ s.time < 1000 * Config.tick + s.power.stepped then .next s
  else
    let s := (List.range 14).foldl throttleOne s
    .next (applyKnobs { s with power := { s.power with stepped := s.time } })

/-! ## Telemetry (R553) -/

/-- A reading now: sensors 1 to 17 numeric, 18 to 20 of state. -/
def sensorNow (s : State) (id : Nat) : Int :=
  if id = 1 then (fld (rget s (thmReg 0x18)) 31 16 : Nat)
  else if id = 2 then (target s : Nat)
  else if 3 ≤ id ∧ id ≤ 17 then sx 16 (fld (rget s (tempReg (id - 3))) 15 0) / 16
  else if id = 18 then
    (if s.power.sd.isSome then 3 else if bit (rget s (thmReg 8)) 2 then 2 else if bit (rget s (thmReg 8)) 1 then 1 else 0)
  else if id = 19 then (if braked s then 1 else 0)
  else if bit (rget s (thmReg 0x10)) 5 then 1 else 0

/-- A reading as last refreshed. -/
def reading (s : State) (id : Nat) : Int := s.power.readings.getD (id - 1) 0

/-- A change of sensor 18 or 19 sends an event to the registered receiver, at most 100 a second. -/
def sensorEvent (s : State) (i id : Nat) : State :=
  let v := (reading s id).toNat
  if s.power.sent.getD i 0 = v then s
  else
    let p := { s.power with sent := lset s.power.sent i v }
    let fresh := 1000000 * Config.tick + p.eventsAt ≤ s.time
    let p := if fresh then { p with events := 0, eventsAt := s.time } else p
    match p.receiver with
    | some r => if p.events < 100 then sendMgt { s with power := { p with events := p.events + 1 } } (.event r id v) else { s with power := p }
    | none => { s with power := p }

/-- TELEMETRY_REFRESH: every 1 ms. -/
def execTelemetryRefresh (s : State) : Out State :=
  if !(running s) ∨ s.time < 1000 * Config.tick + s.power.refreshed then .next s
  else
    let s := { s with power := { s.power with readings := (rangeFrom 1 20).map (sensorNow s), refreshed := s.time } }
    .next (sensorEvent (sensorEvent s 0 18) 1 19)

/-- A PLDM request is served while VSTBY is present (R563). -/
def pldm (s : State) (m : MgtMsg) : Out State := .next (if standby s then sendMgt s m else s)

/-- PLDM_GET_PDR: the records are numbered 1 to 20 for the sensors, 21 for the effecter (log entry 61). -/
def execPldmGetPdr (record : Nat) (s : State) : Out State :=
  pldm s (if 1 ≤ record ∧ record ≤ 21 then .pdr record else .error)

/-- PLDM_GET_SENSOR_READING. -/
def execPldmGetSensorReading (id : Nat) (s : State) : Out State :=
  pldm s (if 1 ≤ id ∧ id ≤ 17 then .sensor id (reading s id) else .error)

/-- PLDM_GET_STATE_SENSOR_READINGS. -/
def execPldmGetStateSensorReadings (id : Nat) (s : State) : Out State :=
  pldm s (if 18 ≤ id ∧ id ≤ 20 then .stateSensor id (reading s id).toNat else .error)

/-- PLDM_SET_NUMERIC_EFFECTER_VALUE: P_LIM under the rules of THM_CTRL. -/
def execPldmSetNumericEffecterValue (id value : Nat) (s : State) : Out State :=
  if id ≠ 1 ∨ !(running s) then pldm s .error
  else pldm (rfld s (thmReg 0) 12 0 (min 8191 value)) .effecterDone

/-- PLDM_SET_EVENT_RECEIVER. -/
def execPldmSetEventReceiver (r : Nat) (s : State) : Out State :=
  if standby s then .next (sendMgt { s with power := { s.power with receiver := some r } } (.receiverSet r)) else .next s

/-! ## The life log (R556) -/

/-- LIFE_LOG_SUMMARY: once per hour of powered time. -/
def execLifeLogSummary (s : State) : Out State :=
  if !(running s) ∨ s.time < 3600000000 * Config.tick + s.life.summary then .next s
  else
    let s := summaries s
    .next { s with life := { s.life with summary := s.time } }

end Sys2Proof.Machine
end

