-- ==== Sys2Proof/Machine/Boot.lean ====
section
/-! DEFINITION. Rails, resets, boot and recovery, the clock reference, JTAG and I3C (R19-R21, R30-R32, R531, R563-R577, R589,
R590, R594). -/

namespace Sys2Proof.Machine

open Sys2Proof.Config (Grade cores)

/-! ## The reference (R30-R32, R594) -/

/-- REF_LOSS (R31). -/
def execRefLoss (s : State) : Out State :=
  if !(running s) then .next s
  else
    let w := rget s (glbReg 0x40)
    let s := rset s (glbReg 0x40) (setBit (w ||| 0x110) (if bit w 0 then 2 else 1) false)
    .next (lifeAdd (setAlert s 8) true 0x0032 0)

/-- REFERENCE_TOLERANCE_CHANGE (R594). -/
def execReferenceToleranceChange (alt inTol : Bool) (s : State) : Out State :=
  if running s then .next (rset s (glbReg 0x40) (setBit (rget s (glbReg 0x40)) (if alt then 2 else 1) inTol)) else .next s

/-! ## Resets (R564-R575) -/

/-- Logical cores that firmware has recorded as failed (R444, R453). -/
def failedCores (s : State) : List Nat :=
  (List.range (cores s.grade)).filter fun c => bit (rget s (eccReg (0x100 + 8 * (c / 64)))) (c % 64)

/-- EXH_PDK (R21, R569): paddocks with more failed cores than unused good ones. -/
def exhausted (s : State) : Nat :=
  ((List.range 4).map fun p =>
    if (paddockMap s p).2.length < ((failedCores s).filter fun c => corePdk s.grade c == p).length then 2 ^ p else 0).foldl (· + ·) 0

/-- The failed cores are remapped in ascending order (R20), and a record of each is written, with the physical numbers of
the core that goes and of the one that takes its place (R18). -/
def remapCores (s : State) : State :=
  let s := (failedCores s).foldl (fun t c =>
    let u := { t with remaps := t.remaps ++ [c] }
    lifeAdd u false 0x0011 c [physCore t c, physCore u c]) s
  (List.range 3).foldl (fun t w => rset t (eccReg (0x100 + 8 * w)) 0) s

/-- The boot record (R555), after the record of a trip that came before it (R548). That of a FAILED device carries CAUSE,
with the reset cause beside it (R569). -/
def bootRecord (s : State) (cause : Nat) : State :=
  let v := rget s (thmReg 0x28)
  let s := if s.boot.tripped then lifeAdd s true 0x0030 (0x300 + fld v 11 0) else s
  let s := { s with boot := { s.boot with tripped := false } }
  if s.boot.state = 3 then lifeAdd s true 0x0001 s.boot.cause [cause]
  else lifeAdd s true 0x0001 cause ([1, 2, 3].flatMap fun k => match runningImage s k with | some i => [i.version, i.digest] | none => [])

/-- Steps 1 to 7 of R567 as far as they go without the fabric and the host (R566, R569-R571): the state of the boot. -/
def bootSteps (s : State) (strap : Nat) (images : List ImageCheck) : State :=
  let good := bundleGood s images
  let cause := bundleCause s images
  let stage1 := good.any fun i => i.kind == 1
  let set (st step cause : Nat) (is : List ImageCheck) : State :=
    { s with boot := { s.boot with state := st, step := step, cause := cause, images := is } }
  if strap = 3 ∨ (strap = 2 ∧ s.devid = 0) then set 2 4 7 []
  else if strap = 1 then set 1 4 0 []
  else if cause ≠ 0 then dice (set 2 (if stage1 then 7 else if strap = 2 then 6 else 4) cause good)
  else startBringup (dice (set 1 6 0 good))

/-- A reset's common part: reference, straps, then the boot (R30, R33, R566, R574). A FAILED device stays so through every
warm reset, one without a reference included (R569); the life-log scan that a cold reset without a reference could not make
is made by the next reset that has one. -/
def startBoot (s : State) (cold : Bool) (cause devid strap : Nat) (refOk altOk : Bool) (images : List ImageCheck) : State :=
  let exh := if cold then 0 else s.boot.exh
  let cold := cold || s.boot.scan
  let s := resetCore (pcieDown s) (!cold)
  let s := { s with devid := devid, boot := { s.boot with pwrgd := true, perst := true, strap := strap, resetCause := cause, stuck := false } }
  if !refOk && !altOk then { s with boot := { s.boot with exh := exh, scan := cold } }
  else
    let s := rset s (glbReg 0x40) (BitVec.ofNat 64 (8 + altOk.toNat * 4 + refOk.toNat * 2 + (!refOk).toNat))
    let s := { s with life := { s.life with boot := s.life.boot + 1 } }
    let fail (s : State) (e : Nat) : State := { s with boot := { s.boot with state := 3, step := 3, cause := 8, exh := e } }
    if exh ≠ 0 then bootRecord (fail s exh) cause
    else if cold && exhausted s != 0 then bootRecord (fail s (exhausted s)) cause
    else
      let s := if cold then remapCores s else s
      -- the SPI flash as the board has left it, where the row brings new contents (R573)
      let s := if strap = 0 ∧ images ≠ [] then { s with boot := { s.boot with flash := images } } else s
      bootRecord (bootSteps s strap (if strap = 0 then s.boot.flash else images)) cause

/-- COLD_RESET (R567, R574): PWRGD rises with the rails up. After rails that came up out of order the device stays in
RESET until PWRGD is cycled (R564). -/
def execColdReset (devid strap : Nat) (refOk altOk : Bool) (images : List ImageCheck) (s : State) : Out State :=
  if 64 ≤ devid ∨ 4 ≤ strap then .fault .noSuchUnit
  else if s.boot.thermtrip ∨ !(railsUp s) then .next s
  else if s.boot.stuck ∧ !s.boot.pwrgd then .next { s with boot := { s.boot with pwrgd := true } }
  else .next (startBoot s true (if s.boot.tripped then 4 else 1) devid strap refOk altOk images)

/-- WARM_RESET (R574, R575): by PERST_N or a Hot Reset. -/
def execWarmReset (hot : Bool) (devid strap : Nat) (refOk altOk : Bool) (images : List ImageCheck) (s : State) : Out State :=
  if 64 ≤ devid ∨ 4 ≤ strap then .fault .noSuchUnit
  else if s.boot.thermtrip ∨ !(railsUp s) ∨ !s.boot.pwrgd ∨ s.boot.stuck ∨ (hot ∧ !s.hif.linkUp) then .next s
  else .next (startBoot s false (if hot then 3 else 2) devid strap refOk altOk images)

/-- PWRGD_FALL (R575). -/
def execPwrgdFall (s : State) : Out State :=
  if s.boot.thermtrip then .next s
  else
    let s := powerDown s
    .next { s with boot := { s.boot with pwrgd := false, stuck := false } }

/-- BOOT_READY (R567): the three images have verified and bring-up has ended. -/
def execBootReady (s : State) : Out State :=
  if s.boot.state = 1 ∧ s.boot.joined ∧ [1, 2, 3].all (fun k => (runningImage s k).isSome) then
    .next { s with boot := { s.boot with state := 4, step := 8, cause := 0 } }
  else .next s

/-! ## Rails (R563-R565, R576) -/

/-- Number of a rail in the order of R564. -/
def railNo : Rail → Nat
  | .vstby => 0 | .sdsA => 1 | .sdsB => 2 | .mem => 3 | .core => 4

def railUp (s : State) (i : Nat) : Bool := s.boot.rails.getD i false

/-- SEQ_ERR (R564): a VIN rail is within tolerance before the rail ahead of it. -/
def seqError (s : State) (i : Nat) : State :=
  { s with boot := { s.boot with rails := lset s.boot.rails i true, seqErr := true, stuck := true } }

/-- RAIL_SEQUENCE_ERROR (R564). -/
def execRailSequenceError (r : Rail) (s : State) : Out State :=
  let i := railNo r
  if railUp s i ∨ i = 0 ∨ railUp s (i - 1) then .next s else .next (seqError s i)

/-- SUPPLY_RAIL_UP (R564). -/
def execSupplyRailUp (r : Rail) (s : State) : Out State :=
  let i := railNo r
  if railUp s i then .next s
  else if i ≠ 0 ∧ !(railUp s (i - 1)) then .next (seqError s i)
  else .next { s with boot := { s.boot with rails := lset s.boot.rails i true } }

/-- SUPPLY_RAIL_DOWN (R563, R565, R561, R577): memory is lost; without VSTBY, THM_TRIP, SEQ_ERR and the management logic's
state too. -/
def execSupplyRailDown (r : Rail) (s : State) : Out State :=
  let i := railNo r
  if !(railUp s i) then .next s
  else
    let s := powerDown s
    let s := { s with boot := { s.boot with rails := lset s.boot.rails i false, pwrgd := false } }
    if i ≠ 0 then .next s
    else
      let s := rset s (thmReg 0x28) 0
      .next { s with boot := { s.boot with seqErr := false, stuck := false, tripped := false, thermtrip := false, i3c := none, jtag := 1, resetCause := 1 },
                     power := { s.power with receiver := none } }

/-! ## The recovery window (R571, R572) -/

/-- RCV_CHUNK_COPIED (R572): the chunk is in the staging area. -/
def execRcvChunkCopied (s : State) : Out State :=
  match s.boot.rcvJob with
  | none => .next s
  | some (len, last) =>
    let lo := rcvBase + s.boot.rcvNext
    let inside (l : Nat) : Bool := lo ≤ l && l < lo + len
    let mem := (s.boot.rcvBuf.filter fun e => e.1 < len).foldl (fun m e => tput 0 m (lo + e.1) e.2) (tdrop inside s.mem)
    .next { s with mem := mem, gerrs := tdrop inside s.gerrs,
                   boot := { s.boot with rcvNext := s.boot.rcvNext + len, rcvJob := none, rcvCheck := last } }

/-- The images of a bundle beside the stage 1 that runs already and keeps its keys (R513, R571). -/
def withStage1 (s : State) (is : List ImageCheck) : List ImageCheck :=
  match runningImage s 1 with
  | some i => i :: is.filter fun j => j.kind != 1
  | none => is

/-- RCV_VERIFY (R571): a bundle that verifies resumes the boot at the step after the one that failed. An invalid strap keeps
the device in RECOVERY (R566). A fabric-only device in RECOVERY gets the bundle from the lead. -/
def execRcvVerify (images : List ImageCheck) (s : State) : Out State :=
  if !s.boot.rcvCheck ∧ !(s.boot.state == 2 && s.boot.strap == 2) then .next s
  else
    let b := { s.boot with rcvCheck := false }
    let cause := bundleCause s images
    if b.cause = 7 then .next { s with boot := b }
    else if cause ≠ 0 then .next (dice { s with boot := { b with state := 2, cause := cause, images := withStage1 s (bundleGood s images) } })
    else
      let t := { s with boot := { b with state := 1, cause := 0, step := max 6 b.step, images := withStage1 s images } }
      .next (if b.joined then dice t else startBringup (dice t))

/-! ## JTAG and I3C (R531, R576, R589, R590) -/

/-- IDCODE (R589). -/
def idcode : BitVec 32 :=
  BitVec.ofNat 32 ((fld (Config.stepping.setWidth 64) 7 4 + 1) % 16 * 2 ^ 28 + 0x5A48 * 2 ^ 12 + 0x26B * 2 + 1)

/-- The instruction that acts for an instruction register's value: 0 BYPASS, 1 IDCODE, 2 boundary scan, others needing the
JTAG scope. -/
def jtagActs (s : State) (ir : Nat) : Nat :=
  if ir ≤ 1 then ir
  else if ir = 2 then (if railsUp s ∧ !(running s) then 2 else 0)
  else if running s ∧ debugScope s / 2 % 2 = 1 then ir
  else 0

/-- JTAG_INSTRUCTION (R531). -/
def execJtagInstruction (ir : Nat) (s : State) : Out State :=
  if standby s then .next { s with boot := { s.boot with jtag := jtagActs s ir } } else .next s

/-- The I3C address that the target answers to: the dynamic one, else the static one (R590). -/
def i3cAddr (s : State) : Nat := s.boot.i3c.getD (0x20 + s.devid % 32)

/-- I3C_DYNAMIC_ADDRESS_ASSIGNMENT (R590): by ENTDAA, or by SETDASA to the static address. -/
def execI3cDynamicAddressAssignment (addr : Nat) (s : State) : Out State :=
  if 128 ≤ addr then .fault .noSuchUnit
  else if standby s then .next (sendMgt { s with boot := { s.boot with i3c := some addr } } (.i3cAddress (i3cAddr s) addr))
  else .next s

/-- REFRESH (R101, R552): a channel in MEM mode; what a refresh does to charge is below the model's data, so no stored bit
changes. -/
def execRefresh (g : Nat) (s : State) : Out State := if chanOk g then .next s else .fault .noSuchUnit

end Sys2Proof.Machine
end

