-- ==== Sys2Proof/Machine/Transfer.lean ====
section
/-! DEFINITION. The transfer commands over the registers they may reach (R231, R277, R294). -/

namespace Sys2Proof.Machine

/-- The registers as a transfer of a fold's ring reaches them (R10, R277): a read or a write that is not a naturally aligned
word of 4 or 8 bytes has no effect. Ring 65535 stands for no ring. -/
def regIo : RegIo :=
  { load := fun s fold a n => if regSizeOk a n then regLoad s (fold + 1) a n else 0,
    store := fun s fold ring a n v =>
      regStore s { fn := fold + 1, ring := if ring = 65535 then none else some ring } a n (BitVec.ofNat 64 v) }

/-- DMA.COPY (R231-R243). -/
def execDmaCopy (c n : Nat) (s : State) : Out State := engineRow (xferEng regIo 1) 2 0x01 (fun _ => true) c n s

/-- DMA.PERM (R231-R245). -/
def execDmaPerm (c n : Nat) (s : State) : Out State := engineRow (xferEng regIo 2) 2 0x02 (fun _ => true) c n s

/-- DMA.PUT (R231-R250). -/
def execDmaPut (c n : Nat) (s : State) : Out State := engineRow (xferEng regIo 3) 2 0x03 (fun _ => true) c n s

/-- A byte run of a PUT arrives at its destination in this device (R249, R289). -/
def execPutArrive (k : Nat) (s : State) : Out State := .next (putArrive regIo k s)

/-- DMA.AMO (R294). -/
def execDmaAmo (c n : Nat) (s : State) : Out State := engineRow (amoEng regIo) 2 0x04 (fun _ => true) c n s

end Sys2Proof.Machine
end

