-- ==== Sys2Proof/Machine/Scalar.lean ====
section
/-! DEFINITION. The scalar engine (R170-R174, R295): arithmetic, loads and stores, blocks and branches, staged writes of
address registers, DEV_TIME and tally reads, atomics. -/

namespace Sys2Proof.Machine

/-! ## Fields (R171) -/

def scRd (k : Cmd) : Nat := fld k.w2 12 8
def scRs1 (k : Cmd) : Nat := fld k.w2 17 13
def scRs2 (k : Cmd) : Nat := fld k.w2 22 18
def scImmb (k : Cmd) : Bool := bit k.w2 23

def xGet (s : State) (w : Who) (r : Nat) : Word := getX s w.core w.ctx r
def xSet (s : State) (w : Who) (r : Nat) (v : Word) : State := setX s w.core w.ctx r v

/-- X[RS2], or IMM. -/
def scOperand (s : State) (w : Who) (k : Cmd) : Word := if scImmb k then k.w3 else xGet s w (scRs2 k)

/-- The operand's unused field is zero: RS2 beside IMM, word 3 beside X[RS2]. -/
def operandBad (k : Cmd) : Bool := if scImmb k then scRs2 k != 0 else k.w3 != 0

/-- Words 4 to 7 are zero. -/
def endZero (k : Cmd) : Bool := k.w4 == 0 && k.w5 == 0 && k.w6 == 0 && k.w7 == 0

/-- Where a register's parity is bad (R434). -/
def xKey (w : Who) (r : Nat) : Nat := (w.core * 8 + w.ctx) * 32 + r

/-- A scalar command whose access is in flight. -/
def scWaiting (s : State) (t : Slot) : Bool :=
  match (getCtx s t.w.core t.w.q t.w.ctx).run with | some r => r.waiting.isSome | none => false

/-- A load or an atomic of the context that a class-0 or firmware context displaced, which has found its word: it completes
into the displaced context's register (R408). -/
def displacedSlot (s : State) (c op : Nat) : Option Slot :=
  (((getCore s c).displaced.getD 3 none).getD none).bind fun y =>
    (slotAt s c 3 y).bind fun t =>
      if opcode t.cmd = op && t.cont && scWaiting s t && (match askOf s (.queue c 3 y) with | some k => askOver k || k.old.isSome | none => false)
      then some t else none

/-- The slot that a scalar row of opcode op acts on. -/
def scSlot (s : State) (c op : Nat) : Option Slot := (displacedSlot s c op).or (slotOf s c 3)

/-- A command of a block that would signal does not go before the writes of its queue have been performed (R173, R197,
R283). -/
def signalWaits (s : State) (t : Slot) : Bool := t.blk && cSigen t.cmd && postWaits s t.w

/-- A scalar row: a command of opcode op, in the stream or in a block. `bad` is its format, `ready` whether the fold's
regulators let it go, `regs` the registers it reads, `go` its effect. -/
def scRow (op : Nat) (bad : Slot → Bool) (ready : State → Slot → Bool) (regs : Cmd → List Nat) (go : Slot → State → State)
    (c : Nat) (s : State) : Out State :=
  onCore s c <|
  match scSlot s c op with
  | none => .next s
  | some t =>
    if opcode t.cmd = op ∧ !(headerBad 3 t.cmd) ∧ !(bad t) ∧ total t.cmd ≠ 0 ∧ (!(ready s t) || signalWaits s t) then .next s
    else
      beginAt op 3 (fun _ t => fmtIf (bad t))
        (fun t s =>
          let hit := (regs t.cmd).filter fun r => s.parX.contains (xKey t.w r)
          if total t.cmd = 0 then slotVoid s t
          else if hit.isEmpty then go t s
          else slotFault (parityHit { s with parX := s.parX.filter fun x => !((hit.map (xKey t.w)).contains x) } t.w t.cmd) t stUncorr 0)
        (some t) s

/-- Nothing to wait for. -/
def scReady (_ : State) (_ : Slot) : Bool := true

/-! ## Arithmetic (R170, R171) -/

/-- X[RS1] op operand; shift amounts modulo 64. -/
def aluOp (sub : Nat) (a b : Word) : Word :=
  let sh := b.toNat % 64
  match sub with
  | 0 => a + b
  | 1 => a - b
  | 2 => a * b
  | 3 => a &&& b
  | 4 => a ||| b
  | 5 => a ^^^ b
  | 6 => a <<< sh
  | 7 => a >>> sh
  | 8 => a.sshiftRight sh
  | 9 => if a.toInt ≤ b.toInt then a else b
  | 10 => if b.toInt ≤ a.toInt then a else b
  | 11 => if a.toNat ≤ b.toNat then a else b
  | 12 => if b.toNat ≤ a.toNat then a else b
  | 13 => if a.toInt < b.toInt then 1 else 0
  | 14 => if a.toNat < b.toNat then 1 else 0
  | _ => b

/-- SUB of SC.ALU. -/
def aluSub (k : Cmd) : Nat := fld k.w2 7 0

def aluDefined (sub : Nat) : Bool := sub ≤ 14 || sub == 16

/-- SC_ALU. -/
def execScAlu (c : Nat) (s : State) : Out State :=
  scRow 0x01
    (fun t => let k := t.cmd
      !(aluDefined (aluSub k)) || fld k.w2 63 24 != 0 || operandBad k || !(endZero k) || (aluSub k == 16 && scRs1 k != 0))
    scReady (fun k => (if aluSub k = 16 then [] else [scRs1 k]) ++ (if scImmb k then [] else [scRs2 k]))
    (fun t s =>
      let v := aluOp (aluSub t.cmd) (xGet s t.w (scRs1 t.cmd)) (scOperand s t.w t.cmd)
      slotDone (xSet s t.w (scRd t.cmd) v) t none 0) c s

/-! ## Loads and stores (R171) -/

/-- (X[RS1] + IMM) mod 2^56. -/
def scAddr (s : State) (w : Who) (k : Cmd) : Nat := ((xGet s w (scRs1 k)).toNat + k.w3.toNat) % 2 ^ 56

/-- The 8 bytes of a load or store: registers and the host aperture are among what a fold reaches (R278, R523). -/
def scRng (s : State) (w : Who) (k : Cmd) (write : Bool) : Rng :=
  { addr := scAddr s w k, len := 8, write := write, aperture := true, csr := true }

/-- The status with which the access faults: alignment at issue, then the checks of R188. -/
def scFault (s : State) (w : Who) (k : Cmd) (write : Bool) : Option Nat :=
  if scAddr s w k % 8 ≠ 0 then some stFormat else checkRanges s w [scRng s w k write]

/-- The access may proceed under the fold's regulators, or faults now (R417). -/
def scMemReady (write : Bool) (s : State) (t : Slot) : Bool :=
  (scFault s t.w t.cmd write).isSome || regOk s t.w.fold (scAddr s t.w t.cmd) 8 write

/-- What SC.LD loads: the state and the word, or the status. -/
def scLoad (s : State) (w : Who) (k : Cmd) : State × Except Nat Word :=
  let ga := scAddr s w k
  let a := gLoc ga
  if region s.grade a = .csr then ({ s with free := s.free + 1 }, .ok (BitVec.ofNat 64 (regLoad s (w.fold + 1) a 8)))
  else
    let f := s.free
    let s := { s with free := f + 1 }
    match outFail s f [(ga, 8)] with
    | some st => (s, .error st)
    | none =>
      let t := eccTouch s (meetOf w k 5) (srcUnits s (ga, 8))
      match t.2 with
      | some _ => (t.1, .error stUncorr)
      | none => (regPay t.1 w.fold ga 8 false, .ok (BitVec.ofNat 64 (leNat (srcBytes s f (ga, 8)))))

/-- SC_LD: its read may have to wait behind a channel that computes (R114, R199). -/
def execScLd (c : Nat) (s : State) : Out State :=
  scRow 0x02
    (fun t => let k := t.cmd
      fld k.w2 7 0 != 0 || scRs2 k != 0 || scImmb k || fld k.w2 63 24 != 0 || !(endZero k))
    (scMemReady false) (fun k => [scRs1 k])
    (fun t s =>
      match scFault s t.w t.cmd false with
      | some st => slotFault s t st 0
      | none =>
        let o : Owner := .queue t.w.core 3 t.w.ctx
        match askRead s o (some t.w.fold) (ownRuns s [(scAddr s t.w t.cmd, 8)]) with
        | (s, none) => markWait s t.w
        | (s, some got) =>
          match onCaps s got fun u => scLoad u t.w t.cmd with
          | (s, .error st) => slotFault (dropAsks s o) t st 0
          | (s, .ok v) => slotDone (xSet (dropAsks s o) t.w (scRd t.cmd) v) t none 0) c s

/-- SC_ST: the write is posted; where it signals within a block, it ends once the write has been performed (R173, R283).
IMMB selects IMM in place of X[RS2] (log entry 101). -/
def execScSt (c : Nat) (s : State) : Out State :=
  scRow 0x03
    (fun t => let k := t.cmd
      fld k.w2 7 0 != 0 || scRd k != 0 || (scImmb k && scRs2 k != 0) || fld k.w2 63 24 != 0 || !(endZero k))
    (scMemReady true) (fun k => scRs1 k :: (if scImmb k then [] else [scRs2 k]))
    (fun t s =>
      let ga := scAddr s t.w t.cmd
      if scWaiting s t then slotDone s t none 0
      else
        match scFault s t.w t.cmd true with
        | some st => slotFault s t st 0
        | none =>
          let r := copyPiece regIo s t.w t.cmd { addr := ga, data := leBytes 8 (scOperand s t.w t.cmd).toNat, weight := 8 }
          match r.2 with
          | some st => slotFault r.1 t st 0
          | none =>
            let s := regPay r.1 t.w.fold ga 8 true
            if signalWaits s t then markWait s t.w else slotDone s t none 0) c s

/-! ## Blocks and branches (R172, R173) -/

/-- A command that may stand in a block. -/
def inBlockOk (n : Nat) (k : Cmd) : Bool :=
  let op := opcode k
  cEngine k == 3 && ((1 ≤ op && op ≤ 9 && op != 5) || (0xF1 ≤ op && op ≤ 0xF3)) && !(op == 4 && n < fld k.w4 8 0)

/-- SC.BLOCK's N. -/
def blockN (k : Cmd) : Nat := fld k.w2 40 32

def blockBad (k : Cmd) : Bool :=
  blockN k == 0 || 256 < blockN k || fld k.w2 31 0 != 0 || fld k.w2 63 41 != 0 || !(k.w3 == 0 && endZero k)

/-- The block is left before its first command. -/
def blkSkip (s : State) (t : Slot) : State :=
  let x := getCtx s t.w.core t.w.q t.w.ctx
  slotVoid (setCtx s t.w.core t.w.q t.w.ctx { x with blk := none }) t

/-- SC_BLOCK: once its N commands have been fetched, the block is entered at position 0, or faults; with a zero repeat count
none of them runs (R186, log entry 90). -/
def execScBlock (c : Nat) (s : State) : Out State :=
  let fetched (t : Slot) : Bool :=
    match (getCtx s c 3 t.w.ctx).blk with | some b => b.need ≤ b.cmds.length | none => false
  let run : Out State := beginOp 0x05 3
    (fun s t =>
      let b := ((getCtx s c 3 t.w.ctx).blk.getD {})
      fmtIf (t.blk || blockBad t.cmd || !(b.cmds.all (inBlockOk b.need))))
    (fun t s => if total t.cmd = 0 then blkSkip s t else s) c s
  match slotOf s c 3 with
  | some t => if !t.blk ∧ opcode t.cmd = 0x05 ∧ !(headerBad 3 t.cmd) ∧ !(blockBad t.cmd) ∧ !(fetched t) then onCore s c (.next s) else run
  | none => run

def brCond (k : Cmd) : Nat := fld k.w2 2 0

/-- Conditions 1 to 6. -/
def brTaken (cond : Nat) (a b : Word) : Bool :=
  match cond with
  | 1 => a == b
  | 2 => a != b
  | 3 => decide (a.toInt < b.toInt)
  | 4 => decide (b.toInt ≤ a.toInt)
  | 5 => decide (a.toNat < b.toNat)
  | 6 => decide (b.toNat ≤ a.toNat)
  | _ => true

/-- Reserved and unused fields of SC.BR: conditions 1 to 6 compare X[RS1] with X[RS2], or with IMM under IMMB (log entry
101). -/
def brBad (k : Cmd) : Bool :=
  fld k.w2 7 3 != 0 || scRd k != 0 || fld k.w2 63 24 != 0 || fld k.w4 63 9 != 0 || k.w5 != 0 || k.w6 != 0 || k.w7 != 0 ||
  (if brCond k = 0 then scRs1 k != 0 || scRs2 k != 0 || scImmb k || k.w3 != 0
   else if brCond k = 7 then scRs2 k != 0 || scImmb k || k.w3 != 0
   else operandBad k)

/-- SC_BR: outside a block it faults at issue. -/
def execScBr (c : Nat) (s : State) : Out State :=
  scRow 0x04
    (fun t => !t.blk || brBad t.cmd)
    scReady (fun k => if brCond k = 0 then [] else if brCond k = 7 || scImmb k then [scRs1 k] else [scRs1 k, scRs2 k])
    (fun t s =>
      let k := t.cmd
      let a := xGet s t.w (scRs1 k)
      let goto (b : Bool) : Option Nat := if b then some (fld k.w4 8 0) else none
      if brCond k = 7 then slotDone (xSet s t.w (scRs1 k) (a - 1)) t (goto (a - 1 != 0)) 0
      else slotDone s t (goto (brTaken (brCond k) a (scOperand s t.w k))) 0) c s

/-! ## The other commands -/

/-- SC_ARW (R174): the write is staged; a later one to the same register and field replaces it. -/
def execScArw (c : Nat) (s : State) : Out State :=
  scRow 0x06
    (fun t => let k := t.cmd
      fld k.w2 1 0 == 3 || scRd k != 0 || scRs2 k != 0 || fld k.w2 63 24 != 0 || !(endZero k) ||
      (if scImmb k then scRs1 k != 0 else k.w3 != 0))
    scReady (fun k => if scImmb k then [] else [scRs1 k])
    (fun t s =>
      let k := t.cmd
      let g : Staged := { reg := fld k.w2 1 0 * 16 + fld k.w2 5 2, field := fld k.w2 7 6,
                          value := if scImmb k then k.w3 else xGet s t.w (scRs1 k) }
      let x := getCtx s c 3 t.w.ctx
      let s := setCtx s c 3 t.w.ctx { x with staged := x.staged.filter (fun o => !(o.reg == g.reg && o.field == g.field)) ++ [g] }
      slotDone s t none 0) c s

/-- SC_RDT: X[RD] := DEV_TIME. -/
def execScRdt (c : Nat) (s : State) : Out State :=
  scRow 0x07 (fun t => let k := t.cmd; fld k.w2 7 0 != 0 || fld k.w2 63 13 != 0 || k.w3 != 0 || !(endZero k)) scReady (fun _ => [])
    (fun t s => slotDone (xSet s t.w (scRd t.cmd) (BitVec.ofNat 64 s.time)) t none 0) c s

/-- SC_RDTALLY: a tally of this core. -/
def execScRdtally (c : Nat) (s : State) : Out State :=
  scRow 0x08 (fun t => let k := t.cmd; fld k.w2 7 0 != 0 || fld k.w2 63 13 != 0 || fld k.w3 63 6 != 0 || !(endZero k)) scReady (fun _ => [])
    (fun t s =>
      let n := fld t.cmd.w3 5 0
      if tallyReach s t.w.fold c n then slotDone (xSet s t.w (scRd t.cmd) ((getTally s c n).setWidth 64)) t none 0
      else slotFault s t stAccess 0) c s

/-! ## SC.AMO (R292, R293, R295) -/

def scAmoN (k : Cmd) : Nat := if amoSize8 k then 8 else 4

/-- The word's range: at X[RS1]. -/
def scAmoRng (s : State) (w : Who) (k : Cmd) : Rng := atomicRng (amoScope k) ((xGet s w (scRs1 k)).toNat % 2 ^ 56) (scAmoN k) none

/-- The status with which it faults: R188, then alignment (R293). -/
def scAmoFault (s : State) (w : Who) (k : Cmd) : Option Nat :=
  let r := scAmoRng s w k
  match checkRanges s w [r] with
  | some st => some st
  | none => if r.addr % scAmoN k ≠ 0 then some stFormat else none

def scAmoReady (s : State) (t : Slot) : Bool :=
  (scAmoFault s t.w t.cmd).isSome || regOk s t.w.fold (scAmoRng s t.w t.cmd).addr (scAmoN t.cmd) true

/-- SC_AMO: the compare value of CAS is X[RD]; X[RD] receives the old value. It may wait behind a channel that computes
(R114, R199). -/
def execScAmo (c : Nat) (s : State) : Out State :=
  scRow 0x09
    (fun t => let k := t.cmd; 10 < amoOp k || bit k.w2 7 || fld k.w2 63 24 != 0 || operandBad k || !(endZero k))
    scAmoReady (fun k => [scRs1 k, scRd k] ++ (if scImmb k then [] else [scRs2 k]))
    (fun t s =>
      let k := t.cmd
      let a := (scAmoRng s t.w k).addr
      match scAmoFault s t.w k with
      | some st => slotFault s t st 0
      | none =>
        match queueAtomic s t.w k a (amoSize8 k) (amoOp k) (scOperand s t.w k) (xGet s t.w (scRd k)) with
        | (s, none) => markWait s t.w
        | (s, some (.error st)) => slotFault s t st 0
        | (s, some (.ok old)) => slotDone (xSet (regPay s t.w.fold a (scAmoN k) true) t.w (scRd k) (BitVec.ofNat 64 old)) t none 0) c s

end Sys2Proof.Machine
end

