-- ==== Sys2Proof/Machine/VecSlice.lean ====
section
/-! DEFINITION. Slice arithmetic and butterflies (R59, R61, R166, R167, R169): SLICE.SPLIT, SLICE.COMBINE, BFLY4. -/

namespace Sys2Proof.Machine

def slcS (k : Cmd) : Nat := fld k.w4 35 32

/-- An entry of an exponent vector: E, ZERO, SPECIAL. -/
structure SlEnt where
  e : Int
  zero : Bool
  special : Bool

def slEntOf (v : Nat) : SlEnt := { e := sx 16 v, zero := v.testBit 16, special := v.testBit 17 }
def slEntEnc (x : SlEnt) : Nat := wrapN 16 x.e + x.zero.toNat * 2 ^ 16 + x.special.toNat * 2 ^ 17

/-- The s slices of a value in a lane with exponent E (R59): r = x * 2^(6-E), then round half even and
r := (r - d) * 2^7 each time. -/
def splitFrom : Nat → XVal → List Int
  | 0, _ => []
  | n + 1, r =>
    let d := (xround none r).getD 0
    d :: splitFrom n (xScale (xAdd r (xNeg (xOfInt d))).1 7)

def splitElt (n : Nat) (e : Int) (x : XVal) : List Int := splitFrom n (xScale x (6 - e))

/-! ## SLICE.SPLIT (R166) -/

def splitBad (k : Cmd) : Bool :=
  2 < vSub k || vSf k != 0xD || vSmx k || vDmx k || vCplx k || slcS k < 4 || 9 < slcS k ||
  fld k.w4 63 36 != 0 || k.w5 != 0 || k.w6 != 0 || k.w7 != 0 ||
  (vSub k != 1 && (fld k.w3 63 32 != 0 || fld k.w4 31 0 != 0))

/-- One vector of an EXP pass (R166): the entries and whether a NaN or infinity was met. -/
def expPass (a : List SlEnt × Bool) (xs : List XVal) : List SlEnt × Bool :=
  let r := (a.1.zip xs).map fun p =>
    match p.2 with
    | .fin _ m ex => if m = 0 then (p.1, false) else ({ p.1 with e := max p.1.e (xlog2 m ex + 1), zero := false }, false)
    | _ => ({ p.1 with special := true }, true)
  (r.map (·.1), a.2 || r.any (·.2))

/-- A lane's element that faults the command in SLICE mode (R166). -/
def slOver (l : SlEnt) (x : XVal) : Bool :=
  match x with
  | .fin _ m ex => m != 0 && !(magLt m ex 1 l.e)
  | _ => !l.special

def splitPlan (s : State) (w : Who) (k : Cmd) : VPlan :=
  let n := vLen k
  let ist := fld k.w3 31 0
  let kst := fld k.w3 63 32
  let tst := fld k.w4 31 0
  let sl := slcS k
  let vecs := (List.range n).map fun v => (vAt s w k 0 + v * ist, 1024)
  let dst := (List.range n).flatMap fun v => (List.range sl).map fun t => (v, t, vAt s w k 3 + t * tst + v * kst)
  let inR := vRng s w k 0 ((n - 1) * ist + 1024) false
  if vSub k = 1 then
    { rngs := [inR, vRng s w k 2 512 false, vRng s w k 3 ((sl - 1) * tst + (n - 1) * kst + 128) true]
      loads := vecs ++ [(vAt s w k 2, 512)]
      stores := dst.map fun d => (d.2.2, 128)
      run := fun s =>
        let es := (unpack 32 128 (viewBytes s (vAt s w k 2) 512)).map slEntOf
        let xs := vecs.map fun v => (unpack 64 128 (viewBytes s v.1 1024)).map (fdec fp64)
        if xs.any fun x => (es.zip x).any fun p => slOver p.1 p.2 then .error stFormat
        else
          let ds := xs.map fun x => (es.zip x).map fun p =>
            if p.1.special || p.1.zero then List.replicate sl 0 else splitElt sl p.1.e p.2
          .ok { writes := dst.map fun d =>
                  (d.2.2, pack 8 (((ds.getD d.1 []).map fun q => wrapN 8 (q.getD d.2.1 0))))
                count := n } }
  else
    { rngs := [inR] ++ (if vSub k = 0 then [vRng s w k 2 512 false] else []) ++ [vRng s w k 2 512 true]
      loads := vecs ++ (if vSub k = 0 then [(vAt s w k 2, 512)] else [])
      stores := [(vAt s w k 2, 512)]
      run := fun s =>
        let start := if vSub k = 2 then List.replicate 128 { e := -32768, zero := true, special := false }
          else (unpack 32 128 (viewBytes s (vAt s w k 2) 512)).map slEntOf
        let r := (vecs.map fun v => (unpack 64 128 (viewBytes s v.1 1024)).map (fdec fp64)).foldl expPass (start, false)
        .ok { writes := [(vAt s w k 2, pack 32 (r.1.map slEntEnc))], flags := if r.2 then nfSlice else 0, count := n } }

/-- SLICE.SPLIT (R166). -/
def execSliceSplit (c n : Nat) (s : State) : Out State :=
  engineRow (vecEng splitBad (fun k => if vSub k = 1 then [0, 2, 3] else [0, 2]) splitPlan) 1 0x0A (fun _ => true) c n s

/-! ## SLICE.COMBINE (R61, R167) -/

def combAdd (k : Cmd) : Bool := bit k.w2 0

def combBad (k : Cmd) : Bool :=
  1 < vSub k || vSmx k || vDmx k || vCplx k || slcS k < 4 || 9 < slcS k || fld k.w4 63 36 != 0 || k.w5 != 0 || k.w6 != 0 ||
  k.w7 != 0

/-- One output (R61): the pair sums in ascending p, the entries of its row and column, the addend. -/
def combOut (sl : Nat) (sums : List Int) (ei fj : SlEnt) (c0 : Option XVal) : Nat × NumFlags :=
  if ei.special || fj.special then (canonNaN fp64, 0)
  else if ei.zero || fj.zero then
    (match c0 with | none => (0, 0) | some v => fenc fp64 none false v)
  else
    let terms := ((slicePairs sl).zip sums).map fun p => p.2 * 2 ^ (7 * (sl + 1 - (p.1.1 + p.1.2)))
    let v := terms.foldl (· + ·) 0
    let x := xScale (xOfInt v) (ei.e + fj.e - 12 - 7 * ((sl : Int) - 1))
    let r := fenc fp64 none false x
    match c0 with
    | none => r
    | some a =>
      let t := xAdd (fdec fp64 r.1) a
      let q := fenc fp64 none false t.1
      (q.1, r.2 ||| t.2 ||| q.2)

def combPlan (s : State) (w : Who) (k : Cmd) : VPlan :=
  let sl := slcS k
  let pst := fld k.w3 31 0
  let srs := fld k.w3 63 32
  let crs := fld k.w4 31 0
  let np := pairCount sl
  let src := (List.range np).flatMap fun p => (List.range 128).map fun i => (vAt s w k 0 + p * pst + i * srs, 768)
  let rowsAt (r : Nat) : List (Nat × Nat) := (List.range 128).map fun i => (vAt s w k r + i * crs, 1024)
  { rngs := [vRng s w k 0 ((np - 1) * pst + 127 * srs + 768) false] ++
      (if combAdd k then [vRng s w k 1 (127 * crs + 1024) false] else []) ++
      [vRng s w k 2 1024 false, vRng s w k 3 (127 * crs + 1024) true]
    loads := src ++ (if combAdd k then rowsAt 1 else []) ++ [(vAt s w k 2, 1024)]
    stores := rowsAt 3
    run := fun s =>
      let es := (unpack 32 256 (viewBytes s (vAt s w k 2) 1024)).map slEntOf
      let ent (i : Nat) : SlEnt := es.getD i { e := 0, zero := true, special := false }
      let rows := (List.range 128).map fun i =>
        let sums := (List.range np).map fun p => unpack 48 128 (viewBytes s (vAt s w k 0 + p * pst + i * srs) 768)
        let add := if combAdd k then (unpack 64 128 (viewBytes s (vAt s w k 1 + i * crs) 1024)).map (fdec fp64) else []
        (List.range 128).map fun j =>
          combOut sl (sums.map fun r => sx 48 (r.getD j 0)) (ent i) (ent (128 + j)) (if combAdd k then some (add.getD j f0') else none)
      .ok { writes := ((rowsAt 3).zip rows).map fun p => (p.1.1, pack 64 (p.2.map (·.1)))
            flags := rows.foldl (fun f r => f ||| orFlags r) 0, count := 16384 } }
where
  /-- +0. -/
  f0' : XVal := .fin false 0 0

/-- SLICE.COMBINE (R61, R167). -/
def execSliceCombine (c n : Nat) (s : State) : Out State :=
  engineRow (vecEng combBad (fun k => if combAdd k then [0, 1, 2, 3] else [0, 2, 3]) combPlan) 1 0x0B (fun _ => true) c n s

/-! ## BFLY4 (R169) -/

def bflyBad (k : Cmd) : Bool :=
  1 < vSub k || vSf k != vDf k || (vSf k != 0xA && vSf k != 0xD) || vSmx k || vDmx k || k.w3 != 0 || k.w4 != 0 ||
  fld k.w5 63 32 != 0 || k.w6 != 0 || k.w7 != 0

/-- A complex value, its flags, and the roundings made. -/
abbrev Cx := XVal × XVal

/-- Rounding both parts, draws i and i + 1. -/
def cxRound (s : State) (core : Nat) (k : Cmd) (i : Nat) (re im : XVal × NumFlags) : Cx × NumFlags :=
  let f := ffmt (vDf k)
  let a := fenc f (srAt s core (vRnd k) i) (vSatn k) re.1
  let b := fenc f (srAt s core (vRnd k) (i + 1)) (vSatn k) im.1
  ((fdec f a.1, fdec f b.1), re.2 ||| im.2 ||| a.2 ||| b.2)

/-- The four outputs of a butterfly from x_0 to x_3 and w_1 to w_3 (R169), draws from d on: three products, then
three additions per output from left to right. -/
def butterfly (s : State) (core : Nat) (k : Cmd) (d : Nat) (xs ws : List Cx) : List Cx × NumFlags :=
  let f := ffmt (vDf k)
  let canon (x : Cx) : Cx := (fdec f (fenc f none false x.1).1, fdec f (fenc f none false x.2).1)
  let zero : Cx := (.fin false 0 0, .fin false 0 0)
  let prods := (List.range 3).map fun i =>
    let x := xs.getD (i + 1) zero
    let t := ws.getD i zero
    match cMul false x.1 x.2 t.1 t.2 with
    | [p, q] => cxRound s core k (d + 2 * i) p q
    | _ => (zero, 0)
  let a (i : Nat) : Cx := if i = 0 then xs.getD 0 zero else (prods.getD (i - 1) (zero, 0)).1
  let neg (x : Cx) : Cx := (xNeg x.1, xNeg x.2)
  -- σi·x, with σ = -1, or +1 for INV
  let rot (x : Cx) : Cx := if bit k.w2 0 then (xNeg x.2, x.1) else (x.2, xNeg x.1)
  let sum (i : Nat) (ts : List Cx) : Cx × NumFlags :=
    let r := ((List.range 3).zip (ts.drop 1)).foldl (fun (acc : Cx × NumFlags) t =>
      let q := cxRound s core k (d + 6 + 6 * i + 2 * t.1) (xAdd acc.1.1 t.2.1) (xAdd acc.1.2 t.2.2)
      (q.1, acc.2 ||| q.2)) (ts.headD zero, 0)
    (canon r.1, r.2)
  let ys := [sum 0 [a 0, a 1, a 2, a 3], sum 1 [a 0, rot (a 1), neg (a 2), neg (rot (a 3))],
    sum 2 [a 0, neg (a 1), a 2, neg (a 3)], sum 3 [a 0, neg (rot (a 1)), neg (a 2), rot (a 3)]]
  (ys.map (·.1), ys.foldl (fun fl y => fl ||| y.2) (prods.foldl (fun fl p => fl ||| p.2) 0))

/-- Draws of one butterfly: 6 for the products, 24 for the sums. -/
def bflyDraws : Nat := 30

/-- The ranges of a repeat of BFLY4 (R169). -/
def bflyRngs (s : State) (w : Who) (k : Cmd) : List Rng :=
  let n := vLen k
  let size := 2 * (eltBits (vSf k) / 8)
  let qs := fld k.w5 31 0
  [vRng s w k 0 (3 * qs + n * size) false, vRng s w k 1 (3 * n * size) false, vRng s w k 3 (3 * qs + n * size) true]

/-- One repeat (R169): butterflies in ascending e, each on what memory holds when its turn comes. -/
def bflyRep (s : State) (w : Who) (k : Cmd) (_ : Run) : RepOut :=
  let n := vLen k
  let eb := eltBits (vSf k) / 8
  let size := 2 * eb
  let qs := fld k.w5 31 0
  let inA (q e : Nat) : Nat := vAt s w k 0 + q * qs + e * size
  let outA (q e : Nat) : Nat := vAt s w k 3 + q * qs + e * size
  let twA (q e : Nat) : Nat := vAt s w k 1 + (q * n + e) * size
  match checkRanges s w (bflyRngs s w k) with
  | some st => .fault s st 0
  | none =>
    let t := eccTouch s (meetOf w k 5)
      ((List.range 4).flatMap (fun q => unitsOf (inA q 0) (n * size)) ++ unitsOf (twA 0 0) (3 * n * size))
    match t.2 with
    | some _ => .fault (scramble t.1 ((List.range 4).map fun q => (outA q 0, n * size))) stUncorr 0
    | none =>
      let cx (s : State) (a : Nat) : Cx :=
        let v := unpack (eltBits (vSf k)) 2 (viewBytes s a size)
        (eltVal (vSf k) (v.getD 0 0), eltVal (vSf k) (v.getD 1 0))
      let r := (List.range n).foldl (fun (acc : State × NumFlags × Bool) e =>
        let y := butterfly t.1 w.core k (bflyDraws * e) ((List.range 4).map fun q => cx acc.1 (inA q e))
          ((List.range 3).map fun q => cx acc.1 (twA q e))
        let o := writeRows (meetOf w k 8) (((List.range 4).zip y.1).map fun p =>
          (outA p.1 e, pack (eltBits (vDf k)) [(eltEnc (vDf k) none false p.2.1).1, (eltEnc (vDf k) none false p.2.2).1])) acc.1
        (o.1, acc.2.1 ||| y.2, acc.2.2 || o.2.isSome)) (t.1, 0, false)
      let s := srTake (raiseNum r.1 w.core r.2.1) w.core (vRnd k) (bflyDraws * n)
      if r.2.2 then .fault s stUncorr 0 else .done s (4 * n)

def bflyEng : Eng :=
  { roles := fun _ => [0, 1, 3], check := fun _ _ k => if vBase k || bflyBad k then some stFormat else none,
    zero := fun k => vLen k == 0, rep := bflyRep, cycles := vecCycles }

/-- BFLY4 (R169). -/
def execBfly4 (c n : Nat) (s : State) : Out State := engineRow bflyEng 1 0x0C (fun _ => true) c n s

end Sys2Proof.Machine
end

