-- ==== Sys2Proof/Machine/Dispatch.lean ====
section
/-! DEFINITION. What each command does: one arm per constructor of `Instr`, one call of its meaning. -/

namespace Sys2Proof.Machine

/-- The effect of one command on everything but the queue. -/
def exec (i : Instr) (s : State) : Host.Outcome State Fault Refusal :=
  match i with
  | .mma core n => Sys2Proof.Machine.execMma core n s
  | .mmaSlice core n => Sys2Proof.Machine.execMmaSlice core n s
  | .accInit core n => Sys2Proof.Machine.execAccInit core n s
  | .accDrain core n => Sys2Proof.Machine.execAccDrain core n s
  | .nop core q => Sys2Proof.Machine.execNop core q s
  | .hurdle core q => Sys2Proof.Machine.execHurdle core q s
  | .hurdlePass core q => Sys2Proof.Machine.execHurdlePass core q s
  | .signal core q => Sys2Proof.Machine.execSignal core q s
  | .wait core q => Sys2Proof.Machine.execWait core q s
  | .waitPass core q => Sys2Proof.Machine.execWaitPass core q s
  | .waitTally core q => Sys2Proof.Machine.execWaitTally core q s
  | .waitTallyPass core q => Sys2Proof.Machine.execWaitTallyPass core q s
  | .waitTallyTimeout core q => Sys2Proof.Machine.execWaitTallyTimeout core q s
  | .resourceWaitTimeout core q => Sys2Proof.Machine.execResourceWaitTimeout core q s
  | .arSet core q => Sys2Proof.Machine.execArSet core q s
  | .fence core q => Sys2Proof.Machine.execFence core q s
  | .vew core n => Sys2Proof.Machine.execVew core n s
  | .vfunc core n => Sys2Proof.Machine.execVfunc core n s
  | .vred core n => Sys2Proof.Machine.execVred core n s
  | .vcvt core n => Sys2Proof.Machine.execVcvt core n s
  | .vperm core n => Sys2Proof.Machine.execVperm core n s
  | .smerge core n => Sys2Proof.Machine.execSmerge core n s
  | .topk core n => Sys2Proof.Machine.execTopk core n s
  | .topkMerge core n => Sys2Proof.Machine.execTopkMerge core n s
  | .sliceSplit core n => Sys2Proof.Machine.execSliceSplit core n s
  | .sliceCombine core n => Sys2Proof.Machine.execSliceCombine core n s
  | .bfly4 core n => Sys2Proof.Machine.execBfly4 core n s
  | .scAlu core => Sys2Proof.Machine.execScAlu core s
  | .scLd core => Sys2Proof.Machine.execScLd core s
  | .scSt core => Sys2Proof.Machine.execScSt core s
  | .scBr core => Sys2Proof.Machine.execScBr core s
  | .scBlock core => Sys2Proof.Machine.execScBlock core s
  | .scArw core => Sys2Proof.Machine.execScArw core s
  | .scRdt core => Sys2Proof.Machine.execScRdt core s
  | .scRdtally core => Sys2Proof.Machine.execScRdtally core s
  | .scAmo core => Sys2Proof.Machine.execScAmo core s
  | .dmaCopy core n => Sys2Proof.Machine.execDmaCopy core n s
  | .dmaPerm core n => Sys2Proof.Machine.execDmaPerm core n s
  | .dmaPut core n => Sys2Proof.Machine.execDmaPut core n s
  | .dmaAmo core n => Sys2Proof.Machine.execDmaAmo core n s
  | .palWrite core => Sys2Proof.Machine.execPalWrite core s
  | .palWriteApply core => Sys2Proof.Machine.execPalWriteApply core s
  | .nbuLaunch core n => Sys2Proof.Machine.execNbuLaunch core n s
  | .launchAdmit id => Sys2Proof.Machine.execLaunchAdmit id s
  | .launchComplete core => Sys2Proof.Machine.execLaunchComplete core s
  | .launchFaultPropagate id => Sys2Proof.Machine.execLaunchFaultPropagate id s
  | .attnDispatch core n => Sys2Proof.Machine.execAttnDispatch core n s
  | .nbuNop g => Sys2Proof.Machine.execNbuNop g s
  | .nbuEnd g => Sys2Proof.Machine.execNbuEnd g s
  | .loop g => Sys2Proof.Machine.execLoop g s
  | .loopb g => Sys2Proof.Machine.execLoopb g s
  | .padd g => Sys2Proof.Machine.execPadd g s
  | .posadd g => Sys2Proof.Machine.execPosadd g s
  | .lpset g => Sys2Proof.Machine.execLpset g s
  | .ldw g => Sys2Proof.Machine.execLdw g s
  | .stw g => Sys2Proof.Machine.execStw g s
  | .stp g => Sys2Proof.Machine.execStp g s
  | .fill g => Sys2Proof.Machine.execFill g s
  | .gath g => Sys2Proof.Machine.execGath g s
  | .wres g => Sys2Proof.Machine.execWres g s
  | .wresa g => Sys2Proof.Machine.execWresa g s
  | .dotr g => Sys2Proof.Machine.execDotr g s
  | .axpy g => Sys2Proof.Machine.execAxpy g s
  | .vop g => Sys2Proof.Machine.execVop g s
  | .vfma g => Sys2Proof.Machine.execVfma g s
  | .vdot g => Sys2Proof.Machine.execVdot g s
  | .redv g => Sys2Proof.Machine.execRedv g s
  | .sten7 g => Sys2Proof.Machine.execSten7 g s
  | .ascore g => Sys2Proof.Machine.execAscore g s
  | .asoft g => Sys2Proof.Machine.execAsoft g s
  | .avsum g => Sys2Proof.Machine.execAvsum g s
  | .ainit g => Sys2Proof.Machine.execAinit g s
  | .fetchDispatch ring member => Sys2Proof.Machine.execFetchDispatch ring member s
  | .deadlockConfirm core => Sys2Proof.Machine.execDeadlockConfirm core s
  | .deferredRecordWrite ring => Sys2Proof.Machine.execDeferredRecordWrite ring s
  | .irqCoalesceTimeout ring => Sys2Proof.Machine.execIrqCoalesceTimeout ring s
  | .ringDoorbell fn ring v => Sys2Proof.Machine.execRingDoorbell fn ring v s
  | .cplHeadWrite fn ring v => Sys2Proof.Machine.execCplHeadWrite fn ring v s
  | .ringEnable fn ring v => Sys2Proof.Machine.execRingEnable fn ring v s
  | .ringDisable fn ring v => Sys2Proof.Machine.execRingDisable fn ring v s
  | .switchRequest core => Sys2Proof.Machine.execSwitchRequest core s
  | .ringSwitch core => Sys2Proof.Machine.execRingSwitch core s
  | .switchWithdraw core => Sys2Proof.Machine.execSwitchWithdraw core s
  | .class0Takeover core q => Sys2Proof.Machine.execClass0Takeover core q s
  | .class0Release core => Sys2Proof.Machine.execClass0Release core s
  | .ringSuspend ring => Sys2Proof.Machine.execRingSuspend ring s
  | .ringResume ring => Sys2Proof.Machine.execRingResume ring s
  | .ringCancel ring => Sys2Proof.Machine.execRingCancel ring s
  | .ringRestart ring => Sys2Proof.Machine.execRingRestart ring s
  | .poolDefine ring => Sys2Proof.Machine.execPoolDefine ring s
  | .poolDrop ring => Sys2Proof.Machine.execPoolDrop ring s
  | .reqSubmit ring => Sys2Proof.Machine.execReqSubmit ring s
  | .reqCancel ring => Sys2Proof.Machine.execReqCancel ring s
  | .modelBind ring => Sys2Proof.Machine.execModelBind ring s
  | .modelUnbind ring => Sys2Proof.Machine.execModelUnbind ring s
  | .reqChoose ring => Sys2Proof.Machine.execReqChoose ring s
  | .reqPark ring => Sys2Proof.Machine.execReqPark ring s
  | .parkImageDone req => Sys2Proof.Machine.execParkImageDone req s
  | .reqResume ring => Sys2Proof.Machine.execReqResume ring s
  | .srvStepDone ring m v => Sys2Proof.Machine.execSrvStepDone ring m v s
  | .stepBoundary m => Sys2Proof.Machine.execStepBoundary m s
  | .stepTimeout m => Sys2Proof.Machine.execStepTimeout m s
  | .secCommitSvn ring => Sys2Proof.Machine.execSecCommitSvn ring s
  | .secRevokeKey ring => Sys2Proof.Machine.execSecRevokeKey ring s
  | .secDebugUnlock ring => Sys2Proof.Machine.execSecDebugUnlock ring s
  | .foldForm fn f v => Sys2Proof.Machine.execFoldForm fn f v s
  | .foldRelease fn f v => Sys2Proof.Machine.execFoldRelease fn f v s
  | .regulatorRelease f k st => Sys2Proof.Machine.execRegulatorRelease f k st s
  | .capAdmit st => Sys2Proof.Machine.execCapAdmit st s
  | .boutStart g => Sys2Proof.Machine.execBoutStart g s
  | .boutEnd g => Sys2Proof.Machine.execBoutEnd g s
  | .gapEnd g => Sys2Proof.Machine.execGapEnd g s
  | .channelSwitchOut g => Sys2Proof.Machine.execChannelSwitchOut g s
  | .capUpdate st cap => Sys2Proof.Machine.execCapUpdate st cap s
  | .ordinaryAccess g a => Sys2Proof.Machine.execOrdinaryAccess g a s
  | .tapDataArrive g k => Sys2Proof.Machine.execTapDataArrive g k s
  | .resultDataArrive g k => Sys2Proof.Machine.execResultDataArrive g k s
  | .putArrive k => Sys2Proof.Machine.execPutArrive k s
  | .tallyAdd fn unit n v => Sys2Proof.Machine.execTallyAdd fn unit n v s
  | .tallySet fn unit n v => Sys2Proof.Machine.execTallySet fn unit n v s
  | .spdCeWriteback core granule => Sys2Proof.Machine.execSpdCeWriteback core granule s
  | .dmaStarve core => Sys2Proof.Machine.execDmaStarve core s
  | .repair st => Sys2Proof.Machine.execRepair st s
  | .grazeVisit addr => Sys2Proof.Machine.execGrazeVisit addr s
  | .grazeLate => Sys2Proof.Machine.execGrazeLate s
  | .migrationStart bank => Sys2Proof.Machine.execMigrationStart bank s
  | .spareSwitch bank => Sys2Proof.Machine.execSpareSwitch bank s
  | .tsvRemap g => Sys2Proof.Machine.execTsvRemap g s
  | .fwCodeReload secondCopyOk => Sys2Proof.Machine.execFwCodeReload secondCopyOk s
  | .spareReq fn v => Sys2Proof.Machine.execSpareReq fn v s
  | .flipArm fn unit v => Sys2Proof.Machine.execFlipArm fn unit v s
  | .messageReceive link macOk msg => Sys2Proof.Machine.execMessageReceive link macOk msg s
  | .nakReplay link seq => Sys2Proof.Machine.execNakReplay link seq s
  | .macGroupClose link => Sys2Proof.Machine.execMacGroupClose link s
  | .ageIncrement => Sys2Proof.Machine.execAgeIncrement s
  | .laneDrop link lane => Sys2Proof.Machine.execLaneDrop link lane s
  | .linkAckTimeout link => Sys2Proof.Machine.execLinkAckTimeout link s
  | .linkDown link => Sys2Proof.Machine.execLinkDown link s
  | .memberMissing d => Sys2Proof.Machine.execMemberMissing d s
  | .degradedNotice d => Sys2Proof.Machine.execDegradedNotice d s
  | .fabricBringup topo devices links => Sys2Proof.Machine.execFabricBringup topo devices links s
  | .bringupReportDeadline reported => Sys2Proof.Machine.execBringupReportDeadline reported s
  | .measurementReport d m3 m4 => Sys2Proof.Machine.execMeasurementReport d m3 m4 s
  | .domainReset fn v => Sys2Proof.Machine.execDomainReset fn v s
  | .hostRead fn bar off len => Sys2Proof.Machine.execHostRead fn bar off len s
  | .hostWrite fn bar off data ep => Sys2Proof.Machine.execHostWrite fn bar off data ep s
  | .hostAtomicop fn bar off aop size operand compare => Sys2Proof.Machine.execHostAtomicop fn bar off aop size operand compare s
  | .relayDoorbellForward d => Sys2Proof.Machine.execRelayDoorbellForward d s
  | .relayDeviceRequest d write haddr data msix => Sys2Proof.Machine.execRelayDeviceRequest d write haddr data msix s
  | .hostCompletion id st => Sys2Proof.Machine.execHostCompletion id st s
  | .devCplTimeout id => Sys2Proof.Machine.execDevCplTimeout id s
  | .pcieLinkDown => Sys2Proof.Machine.execPcieLinkDown s
  | .hifWinWrite fn vf j v => Sys2Proof.Machine.execHifWinWrite fn vf j v s
  | .bar2Resize fn log2 => Sys2Proof.Machine.execBar2Resize fn log2 s
  | .msixUnmask fn vec => Sys2Proof.Machine.execMsixUnmask fn vec s
  | .flr fn => Sys2Proof.Machine.execFlr fn s
  | .d3hotEntry fn => Sys2Proof.Machine.execD3hotEntry fn s
  | .d0Return fn => Sys2Proof.Machine.execD0Return fn s
  | .ideKeyProg stream secured => Sys2Proof.Machine.execIdeKeyProg stream secured s
  | .tdiError vf => Sys2Proof.Machine.execTdiError vf s
  | .spdmGetCertificate slot => Sys2Proof.Machine.execSpdmGetCertificate slot s
  | .spdmChallenge => Sys2Proof.Machine.execSpdmChallenge s
  | .spdmGetMeasurements index => Sys2Proof.Machine.execSpdmGetMeasurements index s
  | .spdmKeyExchange => Sys2Proof.Machine.execSpdmKeyExchange s
  | .spdmHeartbeat session => Sys2Proof.Machine.execSpdmHeartbeat session s
  | .spdmKeyUpdate session => Sys2Proof.Machine.execSpdmKeyUpdate session s
  | .doeFlashUpdate images => Sys2Proof.Machine.execDoeFlashUpdate images s
  | .pldmGetPdr record => Sys2Proof.Machine.execPldmGetPdr record s
  | .pldmGetSensorReading id => Sys2Proof.Machine.execPldmGetSensorReading id s
  | .pldmGetStateSensorReadings id => Sys2Proof.Machine.execPldmGetStateSensorReadings id s
  | .pldmSetNumericEffecterValue id value => Sys2Proof.Machine.execPldmSetNumericEffecterValue id value s
  | .pldmSetEventReceiver receiver => Sys2Proof.Machine.execPldmSetEventReceiver receiver s
  | .telemetryRefresh => Sys2Proof.Machine.execTelemetryRefresh s
  | .powerSample watts => Sys2Proof.Machine.execPowerSample watts s
  | .knobRaise => Sys2Proof.Machine.execKnobRaise s
  | .brakeAssert => Sys2Proof.Machine.execBrakeAssert s
  | .brakeRelease => Sys2Proof.Machine.execBrakeRelease s
  | .thermalUpdate temps rise => Sys2Proof.Machine.execThermalUpdate temps rise s
  | .thermalCalibrate nodes => Sys2Proof.Machine.execThermalCalibrate nodes s
  | .throttleStep => Sys2Proof.Machine.execThrottleStep s
  | .shutdownDeadline => Sys2Proof.Machine.execShutdownDeadline s
  | .analogTrip body => Sys2Proof.Machine.execAnalogTrip body s
  | .thermtripRelease temps => Sys2Proof.Machine.execThermtripRelease temps s
  | .lifeLogSummary => Sys2Proof.Machine.execLifeLogSummary s
  | .refLoss => Sys2Proof.Machine.execRefLoss s
  | .coldReset devid strap refOk altOk images => Sys2Proof.Machine.execColdReset devid strap refOk altOk images s
  | .warmReset hot devid strap refOk altOk images => Sys2Proof.Machine.execWarmReset hot devid strap refOk altOk images s
  | .pwrgdFall => Sys2Proof.Machine.execPwrgdFall s
  | .railSequenceError rail => Sys2Proof.Machine.execRailSequenceError rail s
  | .bootReady => Sys2Proof.Machine.execBootReady s
  | .rcvChunk fn v => Sys2Proof.Machine.execRcvChunk fn v s
  | .rcvChunkCopied => Sys2Proof.Machine.execRcvChunkCopied s
  | .rcvVerify images => Sys2Proof.Machine.execRcvVerify images s
  | .rcvRestart fn v => Sys2Proof.Machine.execRcvRestart fn v s
  | .prefixGroupWrite fn v => Sys2Proof.Machine.execPrefixGroupWrite fn v s
  | .jtagInstruction ir => Sys2Proof.Machine.execJtagInstruction ir s
  | .registerWrite fn addr size v => Sys2Proof.Machine.execRegisterWrite fn addr size v s
  | .supplyRailUp rail => Sys2Proof.Machine.execSupplyRailUp rail s
  | .supplyRailDown rail => Sys2Proof.Machine.execSupplyRailDown rail s
  | .pcieLinkUp speed width flit => Sys2Proof.Machine.execPcieLinkUp speed width flit s
  | .laneReequalisation link lane => Sys2Proof.Machine.execLaneReequalisation link lane s
  | .laneReequalisationDone link => Sys2Proof.Machine.execLaneReequalisationDone link s
  | .refresh g => Sys2Proof.Machine.execRefresh g s
  | .referenceToleranceChange alt inTol => Sys2Proof.Machine.execReferenceToleranceChange alt inTol s
  | .atsInvalidation fn page => Sys2Proof.Machine.execAtsInvalidation fn page s
  | .tdispRequest vf st => Sys2Proof.Machine.execTdispRequest vf st s
  | .vfEnable numVfs => Sys2Proof.Machine.execVfEnable numVfs s
  | .i3cDynamicAddressAssignment addr => Sys2Proof.Machine.execI3cDynamicAddressAssignment addr s

end Sys2Proof.Machine
end

