-- ==== Sys2Proof/Machine/Step.lean ====
section
/-! DEFINITION. One step: the command at the front of the queue, or, with nothing commanded, one tick of DEV_TIME. -/

namespace Sys2Proof.Machine

/-- A step (log entry 1): the front command acts on the state with the rest of the queue; on an empty queue the block
idles and DEV_TIME counts one tick of the reference (R33; log entry 2). Every stamp is taken from this one counter: copies
of DEV_TIME that differ by a tick (R35) do not exist here (log entry 108). -/
def step (s : State) : Host.Outcome State Fault Refusal :=
  match s.pending with
  | [] => .next (tick s)
  | c :: rest => exec c { s with pending := rest }

/-- The command a table word spells put at the front of the queue; the table gives no word (log entry 3). -/
def State.withFetchWord (s : State) (nbits w : Nat) : State :=
  match decodeTableWord nbits w with
  | some c => { s with pending := c :: s.pending }
  | none => s

end Sys2Proof.Machine
end

