-- ==== Sys2Proof/Safety.lean ====
section
/-! DEFINITION. What a safe step and a sound state are, in the words the statements use. -/

namespace Sys2Proof.Machine

open Sys2Proof.Config (Grade)

/-- The step answers a next state: neither a fault nor a refusal. -/
def Safe (s : State) : Prop := ∃ t, step s = .next t

/-- The memory's canonical form (R435: an unlisted byte holds zero): addresses strictly rising, no zero byte listed. -/
abbrev Memory.wf (s : State) : Prop := twf 0 s.mem = true

/-- The canonical form of the stored registers: addresses rising from lo, no register listed that has its reset value. -/
def regsWfFrom (gr : Grade) : Nat → Tab Word → Bool
  | _, [] => true
  | lo, (a, v) :: t => decide (lo ≤ a) && decide (v ≠ regReset gr a) && regsWfFrom gr (a + 1) t

/-- Every sparse store has its canonical form, so that equal contents are equal data: keys strictly rising, and nothing
listed that an unlisted key reads as. -/
structure StoresWf (s : State) : Prop where
  mem : twf 0 s.mem = true
  errs : twf 0 s.errs = true
  gerrs : twf 0 s.gerrs = true
  regs : regsWfFrom s.grade 0 s.regs = true
  flags : twf 0 s.flags = true
  tallies : twf 0 s.tallies = true
  acc : twf 0 s.acc = true
  accTy : twf .unset s.accTy = true
  ctxs : twf {} s.ctxs = true
  ars : twf {} s.ars = true
  xs : twf 0 s.xs = true
  cores : twf {} s.cores = true
  rings : twf {} s.rings = true
  chans : twf {} s.chans = true
  nbus : twf {} s.nbus = true
  launches : twf none s.launches = true
  stks : twf {} s.stks = true
  crk : twf 0 s.crk = true

/-- A sound state: the stores are canonical, GLB_BOOT_STATUS shows one of the five states of R567, and the board has its
five rails (R564). -/
structure Inv (s : State) : Prop where
  stores : StoresWf s
  boot : s.boot.state ≤ 4
  rails : s.boot.rails.length = 5

/-! ## What a row acts on -/

/-- The rows of a command that runs by repeats: its core, its queue, its opcode with its sub-case, the number of repeats
the row allows, and what the engine does. -/
structure EngRow where
  core : Nat
  n : Nat
  q : Nat
  op : Nat
  eng : Eng
  it : Cmd → Bool := fun _ => true

/-- The engine rows (R76, R156, R231, R294). -/
def engRow : Instr → Option EngRow
  | .mma c n => some { core := c, n := n, q := 0, op := 0x01, eng := mmaEng }
  | .mmaSlice c n => some { core := c, n := n, q := 0, op := 0x02, eng := slEng }
  | .accInit c n => some { core := c, n := n, q := 0, op := 0x03, eng := aiEng }
  | .accDrain c n => some { core := c, n := n, q := 0, op := 0x04, eng := adEng }
  | .vew c n => some { core := c, n := n, q := 1, op := 0x01, eng := vecEng vewBad vewRoles vewPlan }
  | .vfunc c n => some { core := c, n := n, q := 1, op := 0x02, eng := vecEng vfuncBad (fun _ => [0, 3]) vfuncPlan }
  | .vred c n => some { core := c, n := n, q := 1, op := 0x03, eng := vecEng vredBad (fun _ => [0, 3]) vredPlan }
  | .vcvt c n => some { core := c, n := n, q := 1, op := 0x04, eng := vecEng vcvtBad vcvtRoles vcvtPlan }
  | .vperm c n => some { core := c, n := n, q := 1, op := 0x05, eng := vecEng vpermBad (fun _ => [0, 1, 3]) vpermPlan }
  | .smerge c n => some { core := c, n := n, q := 1, op := 0x08, eng := vecEng smergeBad smergeRoles smergePlan }
  | .topk c n => some
      { core := c, n := n, q := 1, op := 0x09, it := (fun k => vSub k != 1), eng := vecEng topkBad (fun k => if tkMask k then [0, 1, 2, 3] else [0, 2, 3]) topkPlan }
  | .topkMerge c n => some
      { core := c, n := n, q := 1, op := 0x09, it := (fun k => vSub k == 1), eng := vecEng topkMergeBad (fun _ => [0, 1, 2, 3]) topkMergePlan }
  | .sliceSplit c n => some
      { core := c, n := n, q := 1, op := 0x0A, eng := vecEng splitBad (fun k => if vSub k = 1 then [0, 2, 3] else [0, 2]) splitPlan }
  | .sliceCombine c n => some
      { core := c, n := n, q := 1, op := 0x0B, eng := vecEng combBad (fun k => if combAdd k then [0, 1, 2, 3] else [0, 2, 3]) combPlan }
  | .bfly4 c n => some { core := c, n := n, q := 1, op := 0x0C, eng := bflyEng }
  | .dmaCopy c n => some { core := c, n := n, q := 2, op := 0x01, eng := xferEng regIo 1 }
  | .dmaPerm c n => some { core := c, n := n, q := 2, op := 0x02, eng := xferEng regIo 2 }
  | .dmaPut c n => some { core := c, n := n, q := 2, op := 0x03, eng := xferEng regIo 3 }
  | .dmaAmo c n => some { core := c, n := n, q := 2, op := 0x04, eng := amoEng regIo }
  | _ => none

/-- A command r of an engine row runs in context x of the row's queue, which is neither halted nor suspended, and the engine does
not wait out the issue rate (R540). -/
structure EngRuns (e : EngRow) (s : State) (x : Nat) (r : Run) : Prop where
  core : coreOk s e.core = true
  cur : curCtx s e.core e.q = some x
  going : (getCtx s e.core e.q x).halted = false ∧ (getCtx s e.core e.q x).suspended = false
  run : (getCtx s e.core e.q x).run = some r
  cmd : opcode r.cmd = e.op ∧ e.it r.cmd = true ∧ r.held = false
  rate : rests s e.core e.q = false

/-- Command m of an engine row is the next of context x of the row's queue, which may issue it, and its header and its own
words pass their checks. -/
structure EngNext (e : EngRow) (s : State) (x : Nat) (m : Cmd) : Prop where
  core : coreOk s e.core = true
  cur : curCtx s e.core e.q = some x
  may : mayIssue s e.core e.q x (getCtx s e.core e.q x) = true
  idle : (getCtx s e.core e.q x).run = none
  front : (getCtx s e.core e.q x).buf.head? = some m
  cmd : opcode m = e.op ∧ e.it m = true ∧ headerBad e.q m = false
  check : e.eng.check (issue s (whoOf s e.core e.q x) m) (whoOf s e.core e.q x) m = none

/-- After a repeat of a running command that went through with `inc` more COUNT, in state u: every address register with NOINC = 0
has advanced (R186), its engine waits out the issue rate (R540), and the command goes on, or ends after its last repeat with ST_OK and indices
(0, OUTER) (R209). -/
def engDone (e : EngRow) (w : Who) (u : State) (r : Run) (inc : Nat) : State :=
  let u := engineRest u w (e.eng.cycles r.cmd)
  let v := advanceAll u w.core w.q w.ctx r.cmd (e.eng.roles r.cmd) ((r.pos + 1) % max 1 (cInner r.cmd) == 0)
  if r.pos + 1 = total r.cmd then endCmd v w r.cmd (cTag r.cmd) stOk 0 (cOuter r.cmd) (r.count + inc)
  else setRun v w { (getCtx u w.core w.q w.ctx).run.getD r with
    pos := r.pos + 1, count := r.count + inc, waiting := none, begun := false, todo := [], moved := 0 }

/-- Wherever command r of row i runs in context x, the row completes one more repeat: it comes to a state that P describes with so
much more COUNT, and the command moves on from there. -/
def RepeatCompletes (i : Instr) (s : State) (x : Nat) (r : Run) (P : State → Nat → Prop) : Prop :=
  ∀ e, engRow i = some e → EngRuns e s x r →
    ∃ u inc, P u inc ∧ exec i s = .next (engDone e (whoOf s e.core e.q x) u r inc)

/-- No stored codeword differs from its encoding, and no flip mask is armed (R445). -/
structure Whole (s : State) : Prop where
  clean : clean s = true
  chans : ∀ g, g < 384 → bit (rget s (chnReg g 0x60)) 32 = false
  cores : ∀ c, c < 192 → bit (rget s (coreReg c 0xD48)) 8 = false

/-- n bytes at a global address lie in this device's memory, in one region of it, and in no channel that holds accesses. -/
structure AtHand (s : State) (a n : Nat) : Prop where
  dev : gDev a = s.devid
  memory : region s.grade (gLoc a) = .dram ∨ region s.grade (gLoc a) = .spd ∨ region s.grade (gLoc a) = .cmn
  whole : populated s.grade (gLoc a) n = true
  free : rangeHeld s (gLoc a) n = false

/-- Queue q of core c acts on a slot whose command has opcode op and a well-formed header. -/
structure Acts (s : State) (c q op : Nat) (t : Slot) : Prop where
  core : coreOk s c = true
  queue : q < 4
  slot : slotOf s c q = some t
  op : opcode t.cmd = op
  header : headerBad q t.cmd = false

/-- The scalar row of opcode op acts on a slot of core c whose command has a well-formed header and does not wait to signal. -/
structure ScActs (s : State) (c op : Nat) (t : Slot) : Prop where
  core : coreOk s c = true
  slot : scSlot s c op = some t
  op : opcode t.cmd = op
  header : headerBad 3 t.cmd = false
  signal : signalWaits s t = false

/-- Every scalar register of the command's context has good parity (R434). -/
def XClean (s : State) (w : Who) : Prop := ∀ r, s.parX.contains (xKey w r) = false

/-- Queue q of core c is held at a command of opcode op. -/
structure Held (s : State) (c q op : Nat) (t : Slot) (r : Run) : Prop where
  core : coreOk s c = true
  held : heldOf s c q = some (t, r)
  op : opcode t.cmd = op

/-- Every earlier command of the slot's context has ended, and its writes have been performed (R195, R283). -/
def NoneOpen (s : State) (c q : Nat) (t : Slot) : Prop := ended s c q t.w.ctx = true

/-- The unit may read n bytes of launch input at ga at once (R142): they pass the checks of R188, and no channel holds them. -/
def LaunchReads (s : State) (w : Who) (ar : Option AReg) (ga n : Nat) : Prop :=
  checkRanges s w [{ addr := ga, len := n, ar := ar }] = none ∧ rangeHeld s (gLoc ga) n = false

/-- The bytes of launch input at a local address. -/
def launchBytes (s : State) (a n : Nat) : List Byte := viewBytes s (gLoc (gOwn s a)) n

/-- The descriptor of a launch, and its channel table. -/
def launchWords (s : State) (ar : AReg) : List Word := wordsAt (viewBytes s (gLoc (arAddr ar)) 128)
def launchTable (s : State) (x : LDesc) : List Word := wordsAt (launchBytes s x.chtab (32 * x.nch))
def launchEntries (s : State) (x : LDesc) : List LEntry := (List.range x.nch).map (lEntryOf (launchTable s x))

/-- The launch that the descriptor at ar names in memory. -/
def launchNamed (s : State) (w : Who) (k : Cmd) (ar : AReg) (rep : Nat) : Launch :=
  let x := lDescOf (launchWords s ar)
  let es := launchEntries s x
  launchMk w k rep x es ((launchRecs x es).map fun a => launchBytes s a 64) (wordsAt (launchBytes s x.prog (8 * x.len)))
    (launchBytes s x.bcast x.bcastLen)

/-- A launch whose input may be read at once and passes every check of R142 and R143, with some bank. -/
structure LaunchReady (s : State) (w : Who) (ar : AReg) : Prop where
  clean : clean s = true
  asks : askOf s (.unit w.core w.ctx) = none
  desc : LaunchReads s w (some ar) (arAddr ar) 128
  fields : lDescBad (launchWords s ar) = false
  banks : (lDescOf (launchWords s ar)).mask ≠ 0
  table : LaunchReads s w none (gOwn s (lDescOf (launchWords s ar)).chtab) (32 * (lDescOf (launchWords s ar)).nch)
  entries : lTableBad (launchTable s (lDescOf (launchWords s ar))) (lDescOf (launchWords s ar)).nch = false
  recs : ∀ a ∈ launchRecs (lDescOf (launchWords s ar)) (launchEntries s (lDescOf (launchWords s ar))), LaunchReads s w none (gOwn s a) 64
  prog : LaunchReads s w none (gOwn s (lDescOf (launchWords s ar)).prog) (8 * (lDescOf (launchWords s ar)).len)
  bcast : LaunchReads s w none (gOwn s (lDescOf (launchWords s ar)).bcast) (lDescOf (launchWords s ar)).bcastLen
  valid : launchBad (lDescOf (launchWords s ar)) (wordsAt (launchBytes s (lDescOf (launchWords s ar)).prog (8 * (lDescOf (launchWords s ar)).len)))
    ((launchRecs (lDescOf (launchWords s ar)) (launchEntries s (lDescOf (launchWords s ar)))).map fun a => launchBytes s a 64) = false
  dests : ∀ d ∈ launchDests s w (lDescOf (launchWords s ar)) (launchEntries s (lDescOf (launchWords s ar))), d = none
  chans : ∀ e ∈ launchEntries s (lDescOf (launchWords s ar)), foldChan s w.fold e.chan = true

/-- The words of a dispatch: its header and its items (R314). -/
def attnWords (s : State) (ar : AReg) (n : Nat) : List Word := wordsAt (viewBytes s (gLoc (arAddr ar)) n)
def attnHead (s : State) (ar : AReg) : AHead := aHeadOf (attnWords s ar 64)
def attnItem (s : State) (ar : AReg) (i : Nat) : List Word :=
  ((attnWords s ar (64 + 64 * (attnHead s ar).nitem)).drop (8 + 8 * i)).take 8

/-- Item i of a dispatch as its memory names it (R314-R318). -/
def attnPlan (s : State) (ar ar1 : AReg) (chans : List Nat) (i : Nat) : APlan :=
  let h := attnHead s ar
  let g := poolGeo s h.pool
  let x := aItemOf (attnItem s ar i)
  aPlanMk h g chans ar1 i x (launchBytes s x.qaddr (2 * (x.g * x.ntok) * g.d))
    ((aBlocks (x.toks h.win) g.t).map fun b => leNat (launchBytes s (x.plist + 4 * b) 4))

/-- Item i of a dispatch passes the checks of R319, and its input may be read at once. -/
structure ItemReady (s : State) (w : Who) (ar ar1 : AReg) (chans : List Nat) (i : Nat) : Prop where
  fields : aItemBad (attnItem s ar i) = false
  head : (aItemOf (attnItem s ar i)).kvh < (poolGeo s (attnHead s ar).pool).h
  query : LaunchReads s w none (gOwn s (aItemOf (attnItem s ar i)).qaddr)
    (2 * ((aItemOf (attnItem s ar i)).g * (aItemOf (attnItem s ar i)).ntok) * (poolGeo s (attnHead s ar).pool).d)
  pages : ∀ b ∈ aBlocks ((aItemOf (attnItem s ar i)).toks (attnHead s ar).win) (poolGeo s (attnHead s ar).pool).t,
    LaunchReads s w none (gOwn s ((aItemOf (attnItem s ar i)).plist + 4 * b)) 4 ∧
    leNat (launchBytes s ((aItemOf (attnItem s ar i)).plist + 4 * b) 4) < (poolGeo s (attnHead s ar).pool).slots
  room : (attnPlan s ar ar1 chans i).pairs ≤ (aItemOf (attnItem s ar i)).trimax
  triples : checkRanges s w [aTriRng (poolGeo s (attnHead s ar).pool) ar1 (aItemOf (attnItem s ar i))] = none

/-- A dispatch with some item whose input may be read at once and passes every check of R319, on a pool with these channels. -/
structure AttnReady (s : State) (w : Who) (ar ar1 : AReg) (chans : List Nat) : Prop where
  clean : clean s = true
  asks : askOf s (.unit w.core w.ctx) = none
  head : LaunchReads s w (some ar) (arAddr ar) 64
  fields : aHeadBad (attnWords s ar 64) = false
  items : (attnHead s ar).nitem ≠ 0
  unit : (attnHead s ar).hub = true ∨ (attnHead s ar).unit < Config.cores s.grade
  tally : tallyReach s w.fold (if (attnHead s ar).hub = true then 192 + (attnHead s ar).unit else (attnHead s ar).unit) (attnHead s ar).num = true
  pool : (getPool s (attnHead s ar).pool).map (·.chans) = some chans ∧ (poolGeo s (attnHead s ar).pool).fold = w.fold
  layer : (attnHead s ar).layer < (poolGeo s (attnHead s ar).pool).l
  input : LaunchReads s w (some ar) (arAddr ar) (64 + 64 * (attnHead s ar).nitem)
  each : ∀ i < (attnHead s ar).nitem, ItemReady s w ar ar1 chans i

/-- The front command k of service ring n, of target tgt and opcode op, can be served, and s' is the state after its line
was read. -/
structure Serves (s s' : State) (n tgt op : Nat) (k : Cmd) : Prop where
  target : ringTarget s n = tgt
  ready : svcReady s n = true
  line : ∃ bs, fetchLine s n 0 = .ok s' bs ∧ k = cmdOf bs
  op : opcode k = op
  header : svcHeaderBad tgt k = false

/-- The service command as firmware has it. -/
def svcOf (s : State) (n : Nat) (k : Cmd) : Svc := { ring := n, fold := if n = 65535 then none else ringFold s n, cmd := k }

/-- The front command of ring n leaves the stream, its reads over. -/
def svcTaken (s : State) (n : Nat) (k : Cmd) : State × Nat := svcTake (dropAsks s (.service n)) n k

/-- The front command of ring n ends with a status and a COUNT. -/
def svcAnswer (s : State) (n : Nat) (k : Cmd) (status count : Nat) : State :=
  svcEnd (svcTaken s n k).1 n (svcTaken s n k).2 status count

/-- Firmware may read n bytes at a local address for an owner at once: no byte of them is out of this device's memory, no channel
holds them, and no codeword is damaged. -/
structure FwReads (s : State) (o : Owner) (a n : Nat) : Prop where
  clean : clean s = true
  asks : askOf s o = none
  own : gDev (gOwn s a) = s.devid
  memory : region s.grade a = .dram ∨ region s.grade a = .spd ∨ region s.grade a = .cmn
  whole : populated s.grade a n = true
  free : rangeHeld s a n = false

/-- The state after such a read of n bytes. -/
def fwAfter (s : State) (n : Nat) : State := if n = 0 then s else { s with free := s.free + 1 }

/-- The front command of ring n about a request is accepted, and kept for the boundary of the request's model (R347). -/
def svcKept (s : State) (n : Nat) (k : Cmd) : State :=
  keepCmd (svcTaken s n k).1 n (fld k.w2 31 0 % 2 ^ 17) (svcTaken s n k).2 k

/-- A write of function fn to the register at a, of `size` bytes, is let through (R489, R495): the link is up, the gate of R495
opens, and no earlier write of the function that the register's order waits for is held (R286). -/
structure HostWrites (s : State) (fn a size : Nat) : Prop where
  link : s.hif.linkUp = true
  fn_ok : fn ≤ 16
  gate : accessGate s fn 0 (bar0Off a) size true false = .reg a
  free : (orderedReg a && postedHeld s fn) = false

/-- The rows of the in-bank instructions that fall through (R129-R135): channel, opcode, and the effect in one bank. -/
def nbuOf : Instr → Option (Nat × Nat × (State → NCtx → Nat → Fx))
  | .nbuNop g => some (g, 0x00, fxNone)
  | .padd g => some (g, 0x04, fxPadd)
  | .posadd g => some (g, 0x05, fxPosadd)
  | .lpset g => some (g, 0x06, fxLpset)
  | .ldw g => some (g, 0x10, fxLdw)
  | .stw g => some (g, 0x11, fxStw)
  | .stp g => some (g, 0x12, fxStp)
  | .fill g => some (g, 0x13, fxFill)
  | .gath g => some (g, 0x14, fxGath)
  | .wres g => some (g, 0x15, fxWres)
  | .wresa g => some (g, 0x16, fxWresa)
  | .dotr g => some (g, 0x20, fxDotr)
  | .axpy g => some (g, 0x21, fxAxpy)
  | .vop g => some (g, 0x22, fxVop)
  | .vfma g => some (g, 0x23, fxVfma)
  | .vdot g => some (g, 0x24, fxVdot)
  | .redv g => some (g, 0x25, fxRedv)
  | .sten7 g => some (g, 0x26, fxSten7)
  | .ascore g => some (g, 0x30, fxAscore)
  | .asoft g => some (g, 0x31, fxAsoft)
  | .avsum g => some (g, 0x32, fxAvsum)
  | .ainit g => some (g, 0x33, fxAinit)
  | _ => none

/-- The sequencer of channel g stands at an instruction of opcode op that fits into the bout, and no active bank refuses
its effect `fx` (R110, R126, R147). -/
structure NbuRuns (s : State) (g op : Nat) (fx : State → NCtx → Nat → Fx) (n : NCtx) : Prop where
  chan : chanOk g = true
  stands : nbuAt s g = some n
  op : iOp n.i = op
  fits : nbuFits n ((activeBanks n).map fun b => (b, fx s n b)) = true
  clear : ((activeBanks n).map fun b => (b, fx s n b)).all (fun p =>
    !(p.2.need.any needBad) && !p.2.ragged && !(tapOver n p.1 p.2) && !p.2.palette) = true

/-! ## What stays as it was -/

/-- Every stored byte reads as before. -/
def SameMem (s t : State) : Prop := ∀ l, memGet t l = memGet s l

/-- The registers of the cores' engines are as they were: accumulators, address registers, scalar registers. -/
structure SameEngines (s t : State) : Prop where
  acc : t.acc = s.acc
  accTy : t.accTy = s.accTy
  ars : t.ars = s.ars
  xs : t.xs = s.xs

/-- What stands above the engines is as it was: the clock, the boot, the serving engine and its keys, the domain, trust,
power, and the answers to the host and to management. -/
structure SameControl (s t : State) : Prop where
  devid : t.devid = s.devid
  remaps : t.remaps = s.remaps
  time : t.time = s.time
  boot : t.boot = s.boot
  srv : t.srv = s.srv
  keys : t.keys = s.keys
  fab : t.fab = s.fab
  trust : t.trust = s.trust
  power : t.power = s.power
  mgtOut : t.mgtOut = s.mgtOut
  hostAns : t.hostAns = s.hostAns
  epoch : t.epoch = s.epoch

/-- The cores are as they were: their engines' registers, flags, contexts, and which ring runs. -/
structure SameCores (s t : State) : Prop where
  engines : SameEngines s t
  flags : t.flags = s.flags
  tallies : t.tallies = s.tallies
  ctxs : t.ctxs = s.ctxs
  cores : t.cores = s.cores
  rings : t.rings = s.rings

/-- Everything that data is stored in is as it was: memory with its codes, and every register of engines and in-bank
units, flags and tallies. -/
structure SameData (s t : State) : Prop where
  mem : t.mem = s.mem
  lost : t.lost = s.lost
  errs : t.errs = s.errs
  gerrs : t.gerrs = s.gerrs
  engines : SameEngines s t
  flags : t.flags = s.flags
  tallies : t.tallies = s.tallies
  nbus : t.nbus = s.nbus

/-- Rows of commands of the engine queues, and of the events of their held commands, but those that may write a register
(R277): SC.ST, DMA.COPY, DMA.PERM, DMA.AMO. -/
def queueRow : Instr → Bool
  | .dmaCopy _ _ => false
  | .dmaPerm _ _ => false
  | .dmaAmo _ _ => false
  | .nop _ _ => true
  | .hurdle _ _ => true
  | .hurdlePass _ _ => true
  | .signal _ _ => true
  | .wait _ _ => true
  | .waitPass _ _ => true
  | .waitTally _ _ => true
  | .waitTallyPass _ _ => true
  | .waitTallyTimeout _ _ => true
  | .resourceWaitTimeout _ _ => true
  | .arSet _ _ => true
  | .fence _ _ => true
  | .scAlu _ => true
  | .scLd _ => true
  | .scBr _ => true
  | .scBlock _ => true
  | .scArw _ => true
  | .scRdt _ => true
  | .scRdtally _ => true
  | .scAmo _ => true
  | .palWrite _ => true
  | .palWriteApply _ => true
  | .nbuLaunch _ _ => true
  | .attnDispatch _ _ => true
  | .launchComplete _ => true
  | .fetchDispatch _ _ => true
  | i => (engRow i).isSome

/-- Rows of in-bank instructions. -/
def nbuRowOf : Instr → Bool
  | .nbuEnd _ => true
  | .loop _ => true
  | .loopb _ => true
  | i => (nbuOf i).isSome

/-- Rows of events, settings and requests of management that touch no stored data. -/
def quietRow : Instr → Bool
  | .launchFaultPropagate _ => true
  | .switchRequest _ => true
  | .switchWithdraw _ => true
  | .irqCoalesceTimeout _ => true
  | .srvStepDone _ _ _ => true
  | .stepTimeout _ => true
  | .capAdmit _ => true
  | .capUpdate _ _ => true
  | .dmaStarve _ => true
  | .grazeLate => true
  | .migrationStart _ => true
  | .tsvRemap _ => true
  | .refresh _ => true
  | .macGroupClose _ => true
  | .ageIncrement => true
  | .laneReequalisation _ _ => true
  | .laneReequalisationDone _ => true
  | .bringupReportDeadline _ => true
  | .relayDoorbellForward _ => true
  | .relayDeviceRequest _ _ _ _ _ => true
  | .hostCompletion _ _ => true
  | .devCplTimeout _ => true
  | .pcieLinkDown => true
  | .pcieLinkUp _ _ _ => true
  | .hifWinWrite _ _ _ _ => true
  | .bar2Resize _ _ => true
  | .msixUnmask _ _ => true
  | .d3hotEntry _ => true
  | .d0Return _ => true
  | .ideKeyProg _ _ => true
  | .tdispRequest _ _ => true
  | .atsInvalidation _ _ => true
  | .spdmGetCertificate _ => true
  | .spdmChallenge => true
  | .spdmGetMeasurements _ => true
  | .spdmKeyExchange => true
  | .spdmHeartbeat _ => true
  | .spdmKeyUpdate _ => true
  | .doeFlashUpdate _ => true
  | .pldmGetPdr _ => true
  | .pldmGetSensorReading _ => true
  | .pldmGetStateSensorReadings _ => true
  | .pldmSetNumericEffecterValue _ _ => true
  | .pldmSetEventReceiver _ => true
  | .i3cDynamicAddressAssignment _ => true
  | .jtagInstruction _ => true
  | .telemetryRefresh => true
  | .powerSample _ => true
  | .knobRaise => true
  | .brakeAssert => true
  | .brakeRelease => true
  | .thermalCalibrate _ => true
  | .throttleStep => true
  | .thermtripRelease _ => true
  | .lifeLogSummary => true
  | .refLoss => true
  | .referenceToleranceChange _ _ => true
  | .bootReady => true
  | .rcvVerify _ => true
  | .railSequenceError _ => true
  | .supplyRailUp _ => true
  | _ => false

/-- Rows that may find a member of the domain missing (R477, R480). -/
def lossRow : Instr → Bool
  | .nakReplay _ _ => true
  | .laneDrop _ _ => true
  | .linkAckTimeout _ => true
  | .linkDown _ => true
  | .memberMissing _ => true
  | .degradedNotice _ => true
  | .measurementReport _ _ _ => true
  | _ => false

/-- No transfer under way has a request left for another device (R478). -/
def NoneAway (s : State) : Prop := ∀ c x r, (getCtx s c 2 x).run = some r → ∀ q ∈ r.todo, gDev q.addr = s.devid

/-! ## The life log (R556) -/

/-- The same record, as first written, or copied forward. -/
def sameRecord (r x : LogRec) : Prop :=
  x.kind = r.kind ∧ x.detail = r.detail ∧ x.data = r.data ∧ x.boot = r.boot ∧ x.first = r.first

/-- From l to m the log is only appended to, in ascending SEQ, and every permanent record that the flash holds in l it
holds in m. -/
def LogKept (l m : Life) : Prop :=
  ∃ new, m.recs = l.recs ++ new ∧ new.map (·.seq) = rangeFrom l.seq new.length ∧ m.seq = l.seq + new.length ∧
    ∀ r ∈ l.held, logPermanent r.kind = true → ∃ x ∈ m.held, sameRecord r x

end Sys2Proof.Machine
end

