-- ==== Sys2Proof/WellFormed.lean ====
section
/-! DEFINITION. Which occurrences of a row exist: the ranges of the units and operands a command names, on a part of a
grade. -/

namespace Sys2Proof

open Sys2Proof.Config (Grade cores)
open Sys2Proof.Machine (region blinBase locChan csrBase csrEnd)

/-- Logical cores (R3), queues (R175), channels and banks (R17), stacks (R96), rings (R393), folds (R415), functions
(R488), links (R458), devices (R273), models (R344), request-table entries (R336). -/
def coreWf (g : Grade) (c : Nat) : Bool := c < cores g
def queueWf (q : Nat) : Bool := q < 4
def chanWf (g : Nat) : Bool := g < 384
def bankWf (b : Nat) : Bool := b < 12288
def stackWf (s : Nat) : Bool := s < 12
def ringWf (n : Nat) : Bool := n < 65536
def fnWf (f : Nat) : Bool := f ≤ 16
def foldWf (f : Nat) : Bool := f < 16
def linkWf (l : Nat) : Bool := l < 32
def devWf (d : Nat) : Bool := d < 64
def modelWf (m : Nat) : Bool := m < 256
def reqWf (i : Nat) : Bool := i < 131072

/-- A tally's unit, a core or 192 + a stack hub, and its number (R288). -/
def tallyWf (g : Grade) (u n : Nat) : Bool := (u < cores g || (192 ≤ u && u < 204)) && n < 64

/-- The bytes of an ordinary access lie in one bank of the channel, by bank-linear address (R99); an atomic's are an aligned word
(R292). The operation and the launch that an access can belong to are the device's own. -/
def accessWf (g : Grade) (x : Nat) (a : Access) : Bool :=
  let n := match a.kind with
    | .atomic _ size8 _ _ => if size8 then 8 else 4
    | _ => if a.write then a.data.length else a.len
  region g a.addr == .dram && blinBase ≤ a.addr && locChan a.addr == x && a.ask.isNone && a.launch.isNone &&
    (n == 0 || a.addr + n ≤ a.addr - (a.addr - blinBase) % 0x8000000 + 0x6000000) &&
    (match a.kind with | .atomic _ _ _ _ => a.addr % n == 0 | _ => true)

/-- A graze read names a DRAM byte by its bank-linear address, or a byte of a scratchpad or of the commons (R437). -/
def grazeWf (g : Grade) (a : Nat) : Bool :=
  region g a == .dram && blinBase ≤ a || region g a == .spd || region g a == .cmn

/-- The command names only units that the part has, and operands that its row has. -/
def Instr.wellFormed (g : Grade) : Instr → Bool
  | .mma c _ => coreWf g c
  | .mmaSlice c _ => coreWf g c
  | .accInit c _ => coreWf g c
  | .accDrain c _ => coreWf g c
  | .nop c q => coreWf g c && queueWf q
  | .hurdle c q => coreWf g c && queueWf q
  | .hurdlePass c q => coreWf g c && queueWf q
  | .signal c q => coreWf g c && queueWf q
  | .wait c q => coreWf g c && queueWf q
  | .waitPass c q => coreWf g c && queueWf q
  | .waitTally c q => coreWf g c && queueWf q
  | .waitTallyPass c q => coreWf g c && queueWf q
  | .waitTallyTimeout c q => coreWf g c && queueWf q
  | .resourceWaitTimeout c q => coreWf g c && queueWf q
  | .arSet c q => coreWf g c && queueWf q
  | .fence c q => coreWf g c && queueWf q
  | .vew c _ => coreWf g c
  | .vfunc c _ => coreWf g c
  | .vred c _ => coreWf g c
  | .vcvt c _ => coreWf g c
  | .vperm c _ => coreWf g c
  | .smerge c _ => coreWf g c
  | .topk c _ => coreWf g c
  | .topkMerge c _ => coreWf g c
  | .sliceSplit c _ => coreWf g c
  | .sliceCombine c _ => coreWf g c
  | .bfly4 c _ => coreWf g c
  | .scAlu c => coreWf g c
  | .scLd c => coreWf g c
  | .scSt c => coreWf g c
  | .scBr c => coreWf g c
  | .scBlock c => coreWf g c
  | .scArw c => coreWf g c
  | .scRdt c => coreWf g c
  | .scRdtally c => coreWf g c
  | .scAmo c => coreWf g c
  | .dmaCopy c _ => coreWf g c
  | .dmaPerm c _ => coreWf g c
  | .dmaPut c _ => coreWf g c
  | .dmaAmo c _ => coreWf g c
  | .palWrite c => coreWf g c
  | .palWriteApply c => coreWf g c
  | .nbuLaunch c _ => coreWf g c
  | .launchAdmit _ => true
  | .launchComplete c => coreWf g c
  | .launchFaultPropagate _ => true
  | .attnDispatch c _ => coreWf g c
  | .nbuNop x => chanWf x
  | .nbuEnd x => chanWf x
  | .loop x => chanWf x
  | .loopb x => chanWf x
  | .padd x => chanWf x
  | .posadd x => chanWf x
  | .lpset x => chanWf x
  | .ldw x => chanWf x
  | .stw x => chanWf x
  | .stp x => chanWf x
  | .fill x => chanWf x
  | .gath x => chanWf x
  | .wres x => chanWf x
  | .wresa x => chanWf x
  | .dotr x => chanWf x
  | .axpy x => chanWf x
  | .vop x => chanWf x
  | .vfma x => chanWf x
  | .vdot x => chanWf x
  | .redv x => chanWf x
  | .sten7 x => chanWf x
  | .ascore x => chanWf x
  | .asoft x => chanWf x
  | .avsum x => chanWf x
  | .ainit x => chanWf x
  | .fetchDispatch n _ => ringWf n
  | .deadlockConfirm c => coreWf g c
  | .deferredRecordWrite n => ringWf n
  | .irqCoalesceTimeout n => ringWf n
  | .ringDoorbell fn n _ => fnWf fn && ringWf n
  | .cplHeadWrite fn n _ => fnWf fn && ringWf n
  | .ringEnable fn n _ => fnWf fn && ringWf n
  | .ringDisable fn n _ => fnWf fn && ringWf n
  | .switchRequest c => coreWf g c
  | .ringSwitch c => coreWf g c
  | .switchWithdraw c => coreWf g c
  | .class0Takeover c q => coreWf g c && queueWf q
  | .class0Release c => coreWf g c
  | .ringSuspend n => ringWf n
  | .ringResume n => ringWf n
  | .ringCancel n => ringWf n
  | .ringRestart n => ringWf n
  | .poolDefine n => ringWf n
  | .poolDrop n => ringWf n
  | .reqSubmit n => ringWf n
  | .reqCancel n => ringWf n
  | .modelBind n => ringWf n
  | .modelUnbind n => ringWf n
  | .reqChoose n => ringWf n
  | .reqPark n => ringWf n
  | .parkImageDone i => reqWf i
  | .reqResume n => ringWf n
  | .srvStepDone n m _ => ringWf n && modelWf m
  | .stepBoundary m => modelWf m
  | .stepTimeout m => modelWf m
  | .secCommitSvn n => ringWf n
  | .secRevokeKey n => ringWf n
  | .secDebugUnlock n => ringWf n
  | .foldForm fn f _ => fnWf fn && foldWf f
  | .foldRelease fn f _ => fnWf fn && foldWf f
  | .regulatorRelease f k st => foldWf f && k < 6 && stackWf st
  | .capAdmit st => stackWf st
  | .boutStart x => chanWf x
  | .boutEnd x => chanWf x
  | .gapEnd x => chanWf x
  | .channelSwitchOut x => chanWf x
  | .capUpdate st cap => stackWf st && cap < 64
  | .ordinaryAccess x a => chanWf x && accessWf g x a
  | .tapDataArrive x _ => chanWf x
  | .resultDataArrive x _ => chanWf x
  | .putArrive _ => true
  | .tallyAdd fn u n _ => fnWf fn && tallyWf g u n
  | .tallySet fn u n _ => fnWf fn && tallyWf g u n
  | .spdCeWriteback c granule => coreWf g c && granule < 0xC0000
  | .dmaStarve c => coreWf g c
  | .repair st => stackWf st
  | .grazeVisit a => grazeWf g a
  | .grazeLate => true
  | .migrationStart b => bankWf b
  | .spareSwitch b => bankWf b
  | .tsvRemap x => chanWf x
  | .fwCodeReload _ => true
  | .spareReq fn _ => fnWf fn
  | .flipArm fn u _ => fnWf fn && (u < 384 || coreWf g (u - 384))
  | .messageReceive l _ m => linkWf l && devWf m.src
  | .nakReplay l _ => linkWf l
  | .macGroupClose l => linkWf l
  | .ageIncrement => true
  | .laneDrop l lane => linkWf l && lane < 4
  | .linkAckTimeout l => linkWf l
  | .linkDown l => linkWf l
  | .memberMissing d => devWf d
  | .degradedNotice d => devWf d
  | .fabricBringup topo _ _ => topo < 3
  | .bringupReportDeadline _ => true
  | .measurementReport d _ _ => devWf d
  | .domainReset fn _ => fnWf fn
  | .hostRead fn bar _ _ => fnWf fn && (bar == 0 || bar == 2)
  | .hostWrite fn bar _ _ _ => fnWf fn && (bar == 0 || bar == 2)
  | .hostAtomicop fn bar _ aop _ _ _ => fnWf fn && (bar == 0 || bar == 2) && aop ≤ 2
  | .relayDoorbellForward d => devWf d
  | .relayDeviceRequest d _ _ _ _ => devWf d
  | .hostCompletion _ _ => true
  | .devCplTimeout _ => true
  | .pcieLinkDown => true
  | .hifWinWrite fn vf j _ => fnWf fn && fnWf vf && j < 16
  | .bar2Resize fn log2 => fnWf fn && 28 ≤ log2 && log2 ≤ 41
  | .msixUnmask fn vec => fnWf fn && vec < 2048
  | .flr fn => fnWf fn
  | .d3hotEntry fn => fnWf fn
  | .d0Return fn => fnWf fn
  | .ideKeyProg stream _ => stream ≤ 17
  | .tdiError vf => 1 ≤ vf && fnWf vf
  | .spdmGetCertificate _ => true
  | .spdmChallenge => true
  | .spdmGetMeasurements _ => true
  | .spdmKeyExchange => true
  | .spdmHeartbeat _ => true
  | .spdmKeyUpdate _ => true
  | .doeFlashUpdate _ => true
  | .pldmGetPdr _ => true
  | .pldmGetSensorReading _ => true
  | .pldmGetStateSensorReadings _ => true
  | .pldmSetNumericEffecterValue _ _ => true
  | .pldmSetEventReceiver _ => true
  | .telemetryRefresh => true
  | .powerSample watts => watts < 65536
  | .knobRaise => true
  | .brakeAssert => true
  | .brakeRelease => true
  | .thermalUpdate temps rise => temps.length == 15 && rise.length == 15
  | .thermalCalibrate nodes => nodes.all fun n => n.1 < 15
  | .throttleStep => true
  | .shutdownDeadline => true
  | .analogTrip body => body < 15
  | .thermtripRelease temps => temps.length == 15
  | .lifeLogSummary => true
  | .refLoss => true
  | .coldReset devid strap _ _ _ => devWf devid && strap < 4
  | .warmReset _ devid strap _ _ _ => devWf devid && strap < 4
  | .pwrgdFall => true
  | .railSequenceError _ => true
  | .bootReady => true
  | .rcvChunk fn _ => fnWf fn
  | .rcvChunkCopied => true
  | .rcvVerify _ => true
  | .rcvRestart fn _ => fnWf fn
  | .prefixGroupWrite fn _ => fnWf fn
  | .jtagInstruction _ => true
  | .registerWrite fn a _ _ => fnWf fn && csrBase ≤ a && a < csrEnd
  | .supplyRailUp _ => true
  | .supplyRailDown _ => true
  | .pcieLinkUp speed width _ => 1 ≤ speed && speed ≤ 7 && [1, 4, 8, 16].contains width
  | .laneReequalisation l lane => linkWf l && lane < 4
  | .laneReequalisationDone l => linkWf l
  | .refresh x => chanWf x
  | .referenceToleranceChange _ _ => true
  | .atsInvalidation fn _ => fnWf fn
  | .tdispRequest vf _ => 1 ≤ vf && fnWf vf
  | .vfEnable k => k ≤ 16
  | .i3cDynamicAddressAssignment addr => addr < 128

end Sys2Proof
end

