-- ==== Sys2Proof/Certificates/Slice0/Obligations.lean ====
section
/-! DEFINITION. The statements about the block, for the provers. -/

open Sys2Proof Sys2Proof.Machine

/-! ## The block and its queue -/

/-- A step takes the command at the front of the queue and runs it on the state with the rest of the queue (log entry 1). -/
def Obligations.StepRunsFrontCommand : Prop :=
  ∀ (c : Instr) (rest : List Instr) (s : State), step { s with pending := c :: rest } = exec c { s with pending := rest }

/-- With nothing commanded a step is one tick of DEV_TIME (log entry 2). It changes nothing else where no fold fill has lasted its
time, and after it none such goes on (R524, log entry 54). -/
def Obligations.IdleStepIsOneTick : Prop :=
  ∀ s : State, s.pending = [] →
    ((∀ x ∈ s.folds.fills, s.time + 1 < x.due) → step s = .next { s with time := s.time + 1 }) ∧
    ∃ t, step s = .next t ∧ t.time = s.time + 1 ∧ t.pending = [] ∧ t.mem = s.mem ∧ ∀ x ∈ t.folds.fills, x ∈ s.folds.fills ∧ t.time < x.due

/-- What reset leaves (R33, R192, R288, R435, R563, R567): a sound state in which DEV_TIME is 0 and GLB_BOOT_STATUS shows BOOT at step 1 with
its five rails up, every flag and tally is 0, every byte reads 0, no command waits, and nothing has left the device. -/
def Obligations.ResetLeaves : Prop :=
  Inv State.reset ∧ State.reset.time = 0 ∧ State.reset.boot.state = 1 ∧ State.reset.boot.step = 1 ∧ railsUp State.reset = true ∧
  (∀ c f, getFlag State.reset c f = 0) ∧ (∀ u n, getTally State.reset u n = 0) ∧ (∀ l, memGet State.reset l = 0) ∧
  State.reset.pending = [] ∧ State.reset.msix = [] ∧ State.reset.hostAns = [] ∧ State.reset.fabOut = []

/-- From every sound state a step leads to a sound state: the sparse stores stay canonical (strictly rising keys, no entry
that an unlisted key reads as), STATE of GLB_BOOT_STATUS stays one of the five of R567, and the five rails stay five. -/
def Obligations.SoundStateIsKept : Prop := ∀ s t : State, Inv s → step s = .next t → Inv t

/-- Every command whose operands name units that the part has answers a next state, in every state: ordinary data never
ends a run. No command is ever refused, and the only fault says that a named unit does not exist. -/
def Obligations.WellFormedCommandsRun : Prop :=
  ∀ (i : Instr) (s : State),
    (i.wellFormed s.grade = true → ∃ t, exec i s = .next t) ∧
    ((∃ t, exec i s = .next t) ∨ exec i s = .fault .noSuchUnit)

/-- No command changes the queue of waiting commands, nor what is fused into the part: its grade, its bad cores, and the
DRAM that firmware reserved. None moves DEV_TIME forward: it stands, or a reset has put it back to 0. -/
def Obligations.CommandsLeaveQueueFusesAndTime : Prop :=
  ∀ (i : Instr) (s t : State), exec i s = .next t →
    t.pending = s.pending ∧ t.grade = s.grade ∧ t.badCores = s.badCores ∧ t.fwRanges = s.fwRanges ∧ (t.time = s.time ∨ t.time = 0)

/-- Every command, a reset included, leaves the life log's records as they were or appends to them with the next SEQ
numbers, in ascending order, and every permanent record that the flash holds before it the flash holds after it, in its
place or copied forward (R555, R556). What erases is the model's reading of log entry 43. -/
def Obligations.LifeLogOnlyGrows : Prop :=
  ∀ (i : Instr) (s t : State), exec i s = .next t → LogKept s.life t.life

/-! ## Engine queues -/

/-- One repeat of a running engine command (MMA, MMA.SLICE, ACC.INIT, ACC.DRAIN, the vector commands, the transfers and
DMA.AMO): where the repeat goes through, the row performs it, every address register with NOINC = 0 advances (R186), and
the command goes on, or after its last repeat ends with ST_OK, indices (0, OUTER) and its count (R209). Where the repeat faults
(R206), the command ends with the fault's status, the indices of the repeat and the count so far, and its ring halts on the core. -/
def Obligations.EngineRepeatRuns : Prop :=
  ∀ (i : Instr) (e : EngRow) (s u : State) (x st inc : Nat) (r : Run),
    engRow i = some e → EngRuns e s x r → e.n = 1 →
    let w := whoOf s e.core e.q x
    (e.eng.rep s w r.cmd r = .done u inc →
      exec i s = .next (engDone e w u r inc)) ∧
    (e.eng.rep s w r.cmd r = .fault u st inc →
      exec i s = .next (faultCmd u w r.cmd (cTag r.cmd) st (r.pos % max 1 (cInner r.cmd)) (r.pos / max 1 (cInner r.cmd)) (r.count + inc)))

/-- A next engine command issues (R178, R186): it leaves the input buffer, and where INNER times OUTER or its own count is
zero it completes at once with ST_OK, zero indices and zero count. -/
def Obligations.EngineCommandIssues : Prop :=
  ∀ (i : Instr) (e : EngRow) (s : State) (x : Nat) (m : Cmd),
    engRow i = some e → EngNext e s x m →
    (getCtx s e.core e.q x).halted = false → (getCtx s e.core e.q x).suspended = false →
    let w := whoOf s e.core e.q x
    exec i s = .next (if total m = 0 ∨ e.eng.zero m = true then endCmd (issue s w m) w m (cTag m) stOk 0 0 0
      else repeats e.eng w e.n (issue s w m))

/-- ACC.INIT with IMODE zero (R83): one repeat sets every cell of its entry to zero and gives the entry the type of its
format, and no other entry and no byte of memory changes. -/
def Obligations.AccInitZeroesEntry : Prop :=
  ∀ (s : State) (w : Who) (k : Cmd) (r : Run), StoresWf s → entryAt w.ctx (mmaEntry k) r.pos = none → aiZero k = true →
    ∃ t, aiEng.rep s w k r = .done t 1 ∧
      (∀ i j, i < 128 → j < 128 → accGet t w.core (mmaEntry k + r.pos) i j = 0) ∧
      accTyOf t w.core (mmaEntry k + r.pos) = (aiTy (aiFmt k)).getD .unset ∧
      (∀ c e i j, i < 128 → j < 128 → accKey c e ≠ accKey w.core (mmaEntry k + r.pos) → accGet t c e i j = accGet s c e i j) ∧
      SameMem s t ∧ t.xs = s.xs ∧ t.ars = s.ars ∧ t.flags = s.flags

/-- A repeat of a matrix command completes wherever its types and entries suit it, its ranges pass their checks, and nothing it reads has
an error (R79-R91): MMA leaves in each cell of its entry what the pairs of the k-steps make of it, MMA.SLICE in each cell of each pair's
entry, ACC.INIT what the rows hold, and ACC.DRAIN writes its rows and scales, and changes no accumulator. -/
def Obligations.MatrixRepeatsComplete : Prop :=
  ∀ (s : State) (c x : Nat) (r : Run), StoresWf s → Whole s → s.parAcc = [] →
    let k := r.cmd
    let w := whoOf s c 0 x
    let e := mmaEntry k
    let start (d i j : Nat) : BitVec 48 := if r.pos = 0 ∧ mmaInit k = true then 0 else accGet s c d i j
    (∀ p, pairing (mmaA k) (mmaB k) (mmaAmx k) (mmaBmx k) = some p → (r.pos = 0 ∧ mmaInit k = true ∨ accTyOf s c e = pairTy p) →
      checkRanges s w (opndRngs s w k (mmaKlen k) (mmaOpA k) ++ opndRngs s w k (mmaKlen k) (mmaOpB k)) = none →
      opndCheck s w k (mmaKlen k) (mmaOpA k) (mmaOpB k) = none → palPending s c = none →
      let a := readPort s w k (mmaKlen k) (mmaOpA k)
      let b := readPort s w k (mmaKlen k) (mmaOpB k)
      (∀ v ∈ a.reads ++ b.reads, v.2.2 = false) →
      RepeatCompletes (.mma c 1) s x r fun u inc => inc = mmaKlen k ∧ SameMem s u ∧ accTyOf u c e = pairTy p ∧
        ∀ i j, i < 128 → j < 128 →
          let ps := cellPairs a.vecs b.vecs i j
          accGet u c e i j = BitVec.ofNat 48 (if p = .int
            then wrapN 32 (cellInt (mmaA k) (mmaB k) 32 (sx 32 (start e i j).toNat) ps).1
            else (cellRun p (mmaA k) (mmaB k) (readScales s w k (mmaKlen k) (mmaOpA k)).1 (readScales s w k (mmaKlen k) (mmaOpB k)).1 i j
              ((start e i j).toNat % 2 ^ 32) ps).1)) ∧
    ((r.pos = 0 ∧ mmaInit k = true ∨ ∀ d ∈ slEntries k, accTyOf s c d = .int48) → checkRanges s w (slRngs s w k) = none →
      RepeatCompletes (.mmaSlice c 1) s x r fun u inc => inc = mmaKlen k ∧ SameMem s u ∧
        ∀ t v i j, (t, v) ∈ slicePairs (slS k) → i < 128 → j < 128 →
          let d := e + pairIx (slS k) t v
          let a := slRead s (gLoc (arAddr (roleAr s w k 0))) (slS k) (mmaKlen k) (fld k.w3 31 0) (fld k.w4 31 0)
          let b := slRead s (gLoc (arAddr (roleAr s w k 1))) (slS k) (mmaKlen k) (fld k.w3 63 32) (fld k.w4 63 32)
          accGet u c d i j = BitVec.ofInt 48 (cellInt 5 5 48 (sx 48 (start d i j).toNat)
            (cellPairs (a.getD (t - 1) []) (b.getD (v - 1) []) i j)).1) ∧
    (entryAt w.ctx e r.pos = none → aiZero k = false → checkRanges s w [aiRng s w k] = none →
      RepeatCompletes (.accInit c 1) s x r fun u inc => inc = 1 ∧ SameMem s u ∧
        accTyOf u c (e + r.pos) = (aiTy (aiFmt k)).getD .unset ∧
        ∀ i j, i < 128 → j < 128 → accGet u c (e + r.pos) i j = aiAt k (aiRows s w k) i j) ∧
    (entryAt w.ctx e r.pos = none → adTyBad k (accTyOf s c (e + r.pos)) = false → checkRanges s w (adRngs s w k) = none →
      RepeatCompletes (.accDrain c 1) s x r fun u inc => inc = 1 ∧ u.acc = s.acc ∧ u.accTy = s.accTy ∧ u.xs = s.xs ∧ u.flags = s.flags ∧
        ∀ l, memGet u l = memGet (writeRows (meetOf w k 8) (adWrites s w k (adRows s w k (e + r.pos))) s).1 l)

/-- One repeat of a vector command on stored data without errors changes no byte of memory outside the rows it writes, and
leaves accumulators, scalar registers, address registers and flags as they are (R155, R156). It completes wherever its ranges pass
their checks (R152), SLICE.SPLIT in SLICE mode where no element is too large for its lane (R166): what its plan writes stands in
memory, and its COUNT is the plan's (R597). -/
def Obligations.VectorRepeatFrame : Prop :=
  (∀ (plan : State → Who → Cmd → VPlan) (s t : State) (w : Who) (k : Cmd) (r : Run) (o : VOut) (inc : Nat),
    clean s = true → (plan s w k).run s = .ok o → vecRep plan s w k r = .done t inc →
      inc = o.count ∧ SameEngines s t ∧ t.flags = s.flags ∧
      ∀ l, (∀ p ∈ o.writes, ∀ i, i < p.2.length → unitOf l ≠ unitOf (locOf (p.1 + i))) → memGet t l = memGet s l) ∧
  ∀ (s : State) (c x : Nat) (r : Run), Whole s →
    let k := r.cmd
    let w := whoOf s c 1 x
    let wrote (o : VOut) (u : State) (inc : Nat) : Prop := inc = o.count ∧ SameEngines s u ∧ u.flags = s.flags ∧ u.tallies = s.tallies ∧
      ∀ l, memGet u l = memGet (writeRows (meetOf w k 8) o.writes s).1 l
    (∀ (i : Instr) (plan : State → Who → Cmd → VPlan),
      (i, plan) ∈ [(.vew c 1, vewPlan), (.vfunc c 1, vfuncPlan), (.vred c 1, vredPlan), (.vcvt c 1, vcvtPlan), (.vperm c 1, vpermPlan),
        (.smerge c 1, smergePlan), (.topk c 1, topkPlan), (.topkMerge c 1, topkMergePlan), (.sliceCombine c 1, combPlan)] →
      checkRanges s w (plan s w k).rngs = none → ∃ o, (plan s w k).run s = .ok o ∧ RepeatCompletes i s x r (wrote o)) ∧
    (checkRanges s w (splitPlan s w k).rngs = none →
      (vSub k = 1 → ∀ v < vLen k, ∀ p ∈ ((unpack 32 128 (viewBytes s (vAt s w k 2) 512)).map slEntOf).zip
        ((unpack 64 128 (viewBytes s (vAt s w k 0 + v * fld k.w3 31 0) 1024)).map (fdec fp64)), slOver p.1 p.2 = false) →
      ∃ o, (splitPlan s w k).run s = .ok o ∧ RepeatCompletes (.sliceSplit c 1) s x r (wrote o)) ∧
    (checkRanges s w (bflyRngs s w k) = none →
      RepeatCompletes (.bfly4 c 1) s x r fun u inc => inc = 4 * vLen k ∧ SameEngines s u ∧ u.flags = s.flags ∧
        ∀ l, (∀ q i, q < 4 → i < vLen k * (2 * (eltBits (vSf k) / 8)) → l ≠ locOf (vAt s w k 3 + q * fld k.w5 31 0 + i)) →
          memGet u l = memGet s l)

/-- A repeat of DMA.COPY, DMA.PERM and DMA.PUT (R235-R255): with its descriptor read and its checks passed, its reads in this device's
memory are made; each request then writes its bytes, or goes out as a PUT's run; and once all have been written and performed the
repeat is done, with its count. DMA.AMO on a word of this device completes with the word's new value (R292-R294). -/
def Obligations.TransferRepeatsComplete : Prop :=
  ∀ (s : State) (c x op : Nat) (i : Instr) (r : Run), Whole s → StoresWf s →
    (i, op) ∈ [(.dmaCopy c 1, 1), (.dmaPerm c 1, 2), (.dmaPut c 1, 3)] →
    let k := r.cmd
    let w := whoOf s c 2 x
    let o : Owner := .queue c 2 x
    let a0 := arAddr (roleAr s w k 0)
    let a1 := arAddr (roleAr s w k 1)
    let l := layOf r.desc
    let ps := xferPlans s l a0 a1
    (∀ e, engRow i = some e → EngRuns e s x r → r.desc ≠ [] → r.begun = false → layBad op l a0 a1 = false →
      (r.pos = 0 → ∀ d < lNdim l, (lDim l d).n ≠ 0) →
      checkRanges s w (xferRngs op l a0 a1 (roleAr s w k 0) (roleAr s w k 1)) (op == 3 && putAbsent s w k) (op == 3 && putFar s w k) = none →
      (op = 2 → ∀ p q, srcSpan l a0 (roleAr s w k 0) = some p → dstSpan l a1 (roleAr s w k 1) = some q → spansMeet s p q = false) →
      askOf s o = none → (∀ v ∈ ps.flatMap (·.srcs), runOut s v = false ∧ regOk s w.fold v.1 v.2 false = true) →
      (∀ v ∈ xferReads l a0 ps, rangeHeld s (gLoc v.1) v.2 = false) →
      let todo := ps.flatMap fun p => planPieces p (p.make (p.srcs.map (ioBytes regIo s w s.free)))
      ∃ t r1, exec i s = .next t ∧ SameMem s t ∧ (getCtx t c 2 x).run = some r1 ∧ r1.begun = true ∧ r1.fail = none ∧
        r1.todo = if lZmode l = 0 then gather s todo else todo) ∧
    (∀ e, engRow i = some e → EngRuns e s x r → r.desc ≠ [] → r.begun = true → r.todo ≠ [] →
      (op ≠ 3 → ∀ a, postedOf s c 2 x = some a → a.left < 256) →
      let g := nextPieces r.todo
      (∀ p ∈ g.1, AtHand s p.addr p.data.length ∧ regOk s w.fold p.addr p.data.length true = true) →
      ∃ v, exec i s = .next (setRun v w { r with todo := g.2, moved := r.moved + (g.1.map (·.weight)).sum, waiting := none }) ∧
        (op ≠ 3 → (∀ j, (∀ p ∈ g.1, ∀ n, n < p.data.length → j ≠ locOf (gLoc p.addr + n)) → memGet v j = memGet s j) ∧
          ∀ p, g.1 = [p] → p.mask = 0xFF → (gLoc p.addr + p.data.length ≤ ilvEnd ∨ blinBase ≤ gLoc p.addr) →
            ∀ n, n < p.data.length → memGet v (locOf (gLoc p.addr + n)) = p.data.getD n 0) ∧
        (op = 3 → SameMem s v ∧ ∃ q, v.puts = s.puts ++ q ∧ q.map (·.data) = g.1.map (·.data) ∧
          q.map (·.addr) = g.1.map (fun p => gLoc p.addr) ∧ q.map (·.weight) = g.1.map (·.weight))) ∧
    (r.desc ≠ [] → r.begun = true → r.todo = [] → r.fail = none → postWaits s w = false →
      RepeatCompletes i s x r fun u inc => u = s ∧ inc = r.moved) ∧
    (let n : Nat := if amoSize8 k = true then 8 else 4;
      checkRanges s w (amoRngs s w k) = none → a1 % n = 0 → AtHand s a1 n → regOk s w.fold a1 n true = true → askOf s o = none →
      (amoRet k = true → AtHand s a0 n ∧ regOk s w.fold a0 n true = true ∧ gLoc a0 % n = 0) →
      RepeatCompletes (.dmaAmo c 1) s x r fun u inc => inc = 1 ∧ SameEngines s u ∧
        let old := readLe s (gLoc a1) n
        (amoRet k = false → readLe u (gLoc a1) n = atomicOp (amoOp k) (amoSize8 k) old k.w3.toNat k.w4.toNat) ∧
        (amoRet k = true → readLe u (gLoc a0) n = old))

/-! ## Commands that every engine has -/

/-- NOP, AR.SET, FENCE and SIGNAL complete with ST_OK (R183, R185, R195, R298): NOP with no other effect, AR.SET with
the address register it names written, SIGNAL with N added to its flag once the earlier commands of its queue have ended, FENCE once
no write of the core's commands is held any more either, and the context's later writes to host memory keep their order (R287). -/
def Obligations.CommonCommandsComplete : Prop :=
  ∀ (s : State) (c q : Nat) (t : Slot),
    (Acts s c q 0xF0 t → t.cmd.w2 = 0 → tailZero t.cmd = true →
      exec (.nop c q) s = .next (slotDone (slotBegin s t) t none 0)) ∧
    (Acts s c q 0xF5 t → arsBad t.cmd = false →
      exec (.arSet c q) s =
        .next (slotDone (setAr (slotBegin s t) c q t.w.ctx (fld t.cmd.w2 3 0) (arsReg t.cmd)) t none 0)) ∧
    (Acts s c q 0xF6 t → NoneOpen s c q t → (∀ k ∈ s.asks, ∀ p x, k.owner ≠ .posted c p x) → fld t.cmd.w2 63 2 = 0 →
      tailZero t.cmd = true →
      let u := slotBegin s t
      exec (.fence c q) s = .next (slotDone (setCtx u c q t.w.ctx { getCtx u c q t.w.ctx with fenced := true }) t none 0)) ∧
    (Acts s c q 0xF2 t → NoneOpen s c q t → fld t.cmd.w2 15 8 = 0 → fld t.cmd.w2 63 32 = 0 → tailZero t.cmd = true →
      flagOwner (fld t.cmd.w2 7 0) = q →
      exec (.signal c q) s = .next (slotDone (if flN t.cmd = 0 then slotBegin s t
        else signalFlag (slotBegin s t) c (fld t.cmd.w2 7 0) (flN t.cmd)) t none 0))

/-- HURDLE, WAIT and WAIT_TALLY hold their queue (R189, R194, R198): a HURDLE counts its arrival; a WAIT with N = 0 completes
instead. -/
def Obligations.WaitingCommandsHold : Prop :=
  ∀ (s : State) (c q : Nat) (t : Slot),
    (Acts s c q 0xF3 t → fld t.cmd.w2 15 8 = 0 → fld t.cmd.w2 63 33 = 0 → tailZero t.cmd = true →
      exec (.wait c q) s = .next (if flN t.cmd = 0 then slotDone (slotBegin s t) t none 0 else slotHold (slotBegin s t) t 0)) ∧
    (Acts s c q 0xF4 t → wtBad t.cmd = false →
      tallyReach (slotBegin s t) t.w.fold (wtUnit c t.cmd) (wtNum t.cmd) = true →
      exec (.waitTally c q) s = .next (slotHold (slotBegin s t) t 0)) ∧
    (Acts s c q 0xF1 t → fld t.cmd.w2 63 12 = 0 → tailZero t.cmd = true → (hurMask t.cmd).testBit q = true →
      let u := slotBegin s t
      let k := getCtx u c t.w.q t.w.ctx
      let a := tget 0 k.hurdles (hurId t.cmd) + 1
      let v := setCtx u c t.w.q t.w.ctx { k with hurdles := tput 0 k.hurdles (hurId t.cmd) a }
      (∀ p < 4, p ≠ t.w.q → ∀ r, hurHeld v c t.w.ctx p (hurId t.cmd) = some r → hurMask (heldCmd r) = hurMask t.cmd) →
      exec (.hurdle c q) s = .next (slotHold v t a))

/-- The passages and timeouts of held commands (R190, R196, R198, R199). A WAIT passes once its flag is at least N, with N
subtracted where it consumes, from which each other WAIT it had satisfied begins anew (R201); WAIT_TALLY once the tally is at least N, with the tally as its count; after its TIMEOUT it
faults with ST_FLT_TIMEOUT. A HURDLE passes once every named queue has reached it. A transfer, a scalar or held command, or a command of the launch unit
that has waited RES_LIMIT for a resource faults with CAUSE 5, in whichever context it stands. -/
def Obligations.HeldCommandsPass : Prop :=
  ∀ (s : State) (c q : Nat) (t : Slot) (r : Run),
    (Held s c q 0xF3 t r → flN t.cmd ≤ (getFlag s c (fld t.cmd.w2 7 0)).toNat → (∀ p < q, waitReady s c p = none) →
      exec (.waitPass c q) s = .next (slotDone (if bit t.cmd.w2 32 = true
        then takeCounts s c q (fld t.cmd.w2 7 0) (flN t.cmd) else s) t none 0) ∧
      (StoresWf s → getFlag (takeCounts s c q (fld t.cmd.w2 7 0) (flN t.cmd)) c (fld t.cmd.w2 7 0) =
        getFlag s c (fld t.cmd.w2 7 0) - BitVec.ofNat 16 (flN t.cmd))) ∧
    (Held s c q 0xF4 t r → wtN t.cmd ≤ (getTally s (wtUnit c t.cmd) (wtNum t.cmd)).toNat →
      exec (.waitTallyPass c q) s = .next (slotDone s t none (getTally s (wtUnit c t.cmd) (wtNum t.cmd)).toNat)) ∧
    (Held s c q 0xF4 t r → (getTally s (wtUnit c t.cmd) (wtNum t.cmd)).toNat < wtN t.cmd → wtTimeout t.cmd ≠ 0 →
      r.issued + wtTimeout t.cmd ≤ s.time →
      exec (.waitTallyTimeout c q) s = .next (slotFault s t stTimeout (getTally s (wtUnit c t.cmd) (wtNum t.cmd)).toNat
        { cause := 4, detail := wtNum t.cmd })) ∧
    (Held s c q 0xF1 t r → hurdleOpen s c t.w.ctx (hurId t.cmd) r.aux (hurMask t.cmd) = true →
      let v := if ((hurMask t.cmd).testBit 3 && (hurHeld s c t.w.ctx 3 (hurId t.cmd)).any (·.aux == r.aux)) = true
        then ((List.range 3).filter ((hurMask t.cmd).testBit ·)).foldl (fun u p => arwFlush u c t.w.ctx p) s else s
      exec (.hurdlePass c q) s = .next ((List.range 4).foldl (fun u p =>
        match hurHeld u c t.w.ctx p (hurId t.cmd) with
        | some r' => if (hurMask t.cmd).testBit p = true ∧ r'.aux = r.aux then
            slotDone u { w := { t.w with q := p }, cmd := heldCmd r', blk := r'.sub.isSome } none 0 else u
        | none => u) v)) ∧
    (∀ x, coreOk s c = true → q < 4 → x < 8 → (∀ y < x, ctxTimeout s c q y = none) →
      let w := whoOf s c q x
      let k := getCtx s c q x
      (k.run = some r → waitOver s r.waiting = true →
        (r.held = false → q ≠ 3 → exec (.resourceWaitTimeout c q) s = .next (faultCmd s w r.cmd (cTag r.cmd) stTimeout
          (r.pos % max 1 (cInner r.cmd)) (r.pos / max 1 (cInner r.cmd)) (r.count + r.moved) { cause := 5 })) ∧
        (r.held = true → exec (.resourceWaitTimeout c q) s = .next (slotFault s { w := w, cmd := heldCmd r, blk := r.sub.isSome }
          stTimeout (r.count + r.moved) { cause := 5 })) ∧
        (r.held = false → q = 3 → ∀ v, slotAt s c 3 x = some v →
          exec (.resourceWaitTimeout c q) s = .next (slotFault s v stTimeout (r.count + r.moved) { cause := 5 }))) ∧
      ((∀ v, k.run = some v → waitOver s v.waiting = false) → q = 2 → ∀ n m, luOver s w = some (n, m) →
        exec (.resourceWaitTimeout c q) s = .next (luTimeout s w n m)))


/-! ## Scalar engine, palettes -/

/-- SC.ALU, SC.ARW, SC.RDT, SC.RDTALLY and, in a block, SC.BR complete wherever their words are well formed and the registers they read
have good parity (R170-R174): X[RD] receives the result, the write of an address register is staged in place of an earlier one
to the same register and field, and a branch goes to its target where its condition holds, condition 7 after taking one from X[RS1].
A repeat count other than one repeats the operation, and a count of zero completes with no effect (R186). -/
def Obligations.ScalarCommandsComplete : Prop :=
  ∀ (s : State) (c : Nat) (t : Slot), XClean (slotBegin s t) t.w → fld t.cmd.w2 63 24 = 0 →
    t.cmd.w5 = 0 → t.cmd.w6 = 0 → t.cmd.w7 = 0 →
    let u := slotBegin s t
    let k := t.cmd
    let or0 (v : State) : State := if total k = 0 then slotVoid u t else v
    (ScActs s c 0x01 t → k.w4 = 0 → aluDefined (aluSub k) = true → operandBad k = false → (aluSub k = 16 → scRs1 k = 0) →
      exec (.scAlu c) s = .next (or0
        (slotDone (xSet u t.w (scRd k) (aluOp (aluSub k) (xGet u t.w (scRs1 k)) (scOperand u t.w k))) t none 0))) ∧
    (ScActs s c 0x06 t → k.w4 = 0 → fld k.w2 1 0 ≠ 3 → scRd k = 0 → scRs2 k = 0 → (if scImmb k then scRs1 k = 0 else k.w3 = 0) →
      let g : Staged := { reg := fld k.w2 1 0 * 16 + fld k.w2 5 2, field := fld k.w2 7 6,
                          value := if scImmb k then k.w3 else xGet u t.w (scRs1 k) }
      let x := getCtx u c 3 t.w.ctx
      exec (.scArw c) s = .next (or0 (slotDone (setCtx u c 3 t.w.ctx
        { x with staged := x.staged.filter (fun o => !(o.reg == g.reg && o.field == g.field)) ++ [g] }) t none 0))) ∧
    (ScActs s c 0x07 t → k.w4 = 0 → fld k.w2 7 0 = 0 → fld k.w2 63 13 = 0 → k.w3 = 0 →
      exec (.scRdt c) s = .next (or0 (slotDone (xSet u t.w (scRd k) (BitVec.ofNat 64 u.time)) t none 0))) ∧
    (ScActs s c 0x08 t → k.w4 = 0 → fld k.w2 7 0 = 0 → fld k.w2 63 13 = 0 → fld k.w3 63 6 = 0 →
      tallyReach u t.w.fold c (fld k.w3 5 0) = true →
      exec (.scRdtally c) s =
        .next (or0 (slotDone (xSet u t.w (scRd k) ((getTally u c (fld k.w3 5 0)).setWidth 64)) t none 0))) ∧
    (ScActs s c 0x04 t → t.blk = true → brBad k = false →
      let a := xGet u t.w (scRs1 k)
      exec (.scBr c) s = .next (or0 (if brCond k = 7
        then slotDone (xSet u t.w (scRs1 k) (a - 1)) t (if a - 1 ≠ 0 then some (fld k.w4 8 0) else none) 0
        else slotDone u t (if brTaken (brCond k) a (scOperand u t.w k) = true then some (fld k.w4 8 0) else none) 0)))

/-- SC.LD, SC.ST and SC.AMO complete where the access passes its checks and the fold's regulators let it (R171, R294, R417): SC.LD puts
the 8 bytes, or the register, into X[RD]; SC.ST stores its operand in 8 bytes, in a register, or, where the channel computes, into its hold
queue (R111); SC.AMO leaves the old value in X[RD] and the new one in the word. One in a channel that computes goes to its hold queue and
begins a resource wait (R114, R199). -/
def Obligations.ScalarMemoryCompletes : Prop :=
  ∀ (s : State) (c : Nat) (t : Slot), XClean (slotBegin s t) t.w → fld t.cmd.w2 63 24 = 0 →
    endZero t.cmd = true → total t.cmd ≠ 0 →
    let u := slotBegin s t
    let k := t.cmd
    let a := scAddr u t.w k
    let o : Owner := .queue t.w.core 3 t.w.ctx
    askOf u o = none → clean u = true → scWaiting u t = false →
    (ScActs s c 0x02 t → fld k.w2 7 0 = 0 → scRs2 k = 0 → scImmb k = false → scMemReady false s t = true → scFault u t.w k false = none →
      let got : State := { u with free := u.free + 1 }
      (AtHand u a 8 → exec (.scLd c) s =
        .next (slotDone (xSet (dropAsks (regPay got t.w.fold a 8 false) o) t.w (scRd k) (readW u (gLoc a))) t none 0)) ∧
      (region u.grade (gLoc a) = .csr → exec (.scLd c) s =
        .next (slotDone (xSet (dropAsks got o) t.w (scRd k) (BitVec.ofNat 64 (regLoad u (t.w.fold + 1) (gLoc a) 8))) t none 0)) ∧
      (rangeHeld u (gLoc a) 8 = true → exec (.scLd c) s = .next (markWait (askStart u o (some t.w.fold) [(gLoc a, 8)]) t.w))) ∧
    (ScActs s c 0x03 t → fld k.w2 7 0 = 0 → scRd k = 0 → (scImmb k = true → scRs2 k = 0) → scMemReady true s t = true →
      scFault u t.w k true = none →
      let v := scOperand u t.w k
      let fin (u : State) : State := if signalWaits u t = true then markWait u t.w else slotDone u t none 0
      (region u.grade (gLoc a) = .csr → exec (.scSt c) s = .next (fin (regPay (regStore u
        { fn := t.w.fold + 1, ring := if t.w.ring = 65535 then none else some t.w.ring } (gLoc a) 8 v) t.w.fold a 8 true))) ∧
      (AtHand u a 8 → Whole u → StoresWf u → ∃ u', exec (.scSt c) s = .next (fin (regPay u' t.w.fold a 8 true)) ∧ SameEngines u u' ∧
        readW u' (gLoc a) = v ∧ ∀ l, (∀ i, i < 8 → l ≠ locOf (gLoc a + i)) → memGet u' l = memGet u l) ∧
      (rangeHeld u (gLoc a) 8 = true → exec (.scSt c) s = .next (fin (regPay (askPush u (.posted t.w.core t.w.q t.w.ctx) (some t.w.fold)
        { addr := locOf (gLoc a), len := 8, write := true, data := leBytes 8 v.toNat }) t.w.fold a 8 true)))) ∧
    (ScActs s c 0x09 t → amoOp k ≤ 10 → bit k.w2 7 = false → operandBad k = false → scAmoReady s t = true →
      scAmoFault u t.w k = none →
      let r := scAmoRng u t.w k
      let n := scAmoN k
      let v := scOperand u t.w k
      let d := xGet u t.w (scRd k)
      (AtHand u r.addr n → Whole u → StoresWf u → ∃ u', exec (.scAmo c) s = .next (slotDone (xSet (regPay u' t.w.fold r.addr n true) t.w (scRd k)
          (BitVec.ofNat 64 (readLe u (gLoc r.addr) n))) t none 0) ∧ SameEngines u u' ∧
        readLe u' (gLoc r.addr) n = atomicOp (amoOp k) (amoSize8 k) (readLe u (gLoc r.addr) n) v.toNat d.toNat) ∧
      (gDev r.addr = u.devid → rangeHeld u (gLoc r.addr) n = true → exec (.scAmo c) s = .next (markWait (askPush u o (some t.w.fold)
        { addr := locOf (gLoc r.addr), len := n, write := true, kind := .atomic (amoOp k) (amoSize8 k) v.toNat d.toNat }) t.w)))

/-- SC.BLOCK with its N commands fetched enters the block (R172): it issues and stays the running command, at position 0.
PAL.WRITE issues, is held, and CORE_ZS_STATUS shows its slot while it waits (R271); PAL_WRITE_APPLY replaces the palette, sets the bit
of a wide one, and the command completes (R266). -/
def Obligations.BlocksAndPalettesRun : Prop :=
  ∀ (s : State) (c : Nat) (t : Slot) (r : Run) (b : Blk),
    (Acts s c 3 0x05 t → t.blk = false → blockBad t.cmd = false → (getCtx s c 3 t.w.ctx).blk = some b →
      (getCtx (slotBegin s t) c 3 t.w.ctx).blk = some b → b.need ≤ b.cmds.length → b.cmds.all (inBlockOk b.need) = true →
      exec (.scBlock c) s = .next (if total t.cmd = 0 then blkSkip (slotBegin s t) t else slotBegin s t)) ∧
    (Acts s c 2 0x10 t → palBad t.cmd = false →
      exec (.palWrite c) s = .next (markWait (slotHold (slotBegin s t) t 0) t.w)) ∧
    (∀ k, coreOk s c = true → palPending s c = some k → bit (coreRead s c 0xE10) 16 = true ∧ fld (coreRead s c 0xE10) 10 8 = palSlotNo k) ∧
    (Held s c 2 0x10 t r →
      let n := palSlotNo t.cmd
      let u := ((List.range 4).zip [t.cmd.w3, t.cmd.w4, t.cmd.w5, t.cmd.w6]).foldl
        (fun u p => rset u (coreReg c (0xE40 + 32 * n + 8 * p.1)) p.2) s
      exec (.palWriteApply c) s = .next (slotDone (rset u (coreReg c 0xE10)
        (setBit (rget u (coreReg c 0xE10)) n (palWide t.cmd))) t none 0))

/-! ## Launch unit and in-bank units -/

/-- A next NBU.LAUNCH or ATTN.DISPATCH passes to the launch unit (R139, R178, R313), beside a transfer too: it leaves the input buffer,
and with INNER times OUTER zero it completes at once with ST_OK; else the queue's AR0 (and AR1) stand as the whole command leaves them. -/
def Obligations.LaunchCommandsPassToUnit : Prop :=
  ∀ (s : State) (c x : Nat) (m : Cmd) (i : Instr) (op : Nat), (i, op) ∈ [(.nbuLaunch c 0, 0x30), (.attnDispatch c 0, 0x31)] →
    coreOk s c = true → curCtx s c 2 = some x → (getCtx s c 2 x).buf.head? = some m →
    opcode m = op → mayIssue s c 2 x (getCtx s c 2 x) = true → headerBad 2 m = false → m.w2 = 0 → tailZero m = true →
    let w := whoOf s c 2 x
    let u := luIssue s w m
    ((getCtx s c 2 x).run = none → exec i s = .next (if total m = 0 then endCmd u w m (cTag m) stOk 0 0 0 else luTake u w m)) ∧
    (∀ r, (getCtx s c 2 x).run = some r → mayPass (getCtx s c 2 x) r m = true → total m ≠ 0 → exec i s = .next (luTake u w m))

/-- One repeat of a launch unit's command (R139, R142, R313): once no launch of the core waits for admission, the launches that
its descriptor gives are added, and the command's position moves on by one; a descriptor that fails its checks stops the
command with its status. A descriptor whose input may be read at once and passes every check gives its launch, and a dispatch that
does gives a launch for each segment of each item (R140-R143, R314-R319). -/
def Obligations.LaunchRepeatRuns : Prop :=
  ∀ (s u : State) (c x j : Nat) (k : Cmd) (l : LRun), coreOk s c = true → curCtx s c 2 = some x →
    (getCtx s c 2 x).buf = [] → luStaged s c = false →
    let w := whoOf s c 2 x
    let o : Owner := .unit c x
    let ar := arAfter k 0 l.ar l.pos
    let ar1 := arAfter k 1 l.ar1 l.pos
    let ran (u : State) (ls : List Launch) (items : Nat) : State :=
      let v := ls.foldl addLaunch (dropAsks u o)
      setLu v w j fun l => { l with
        pos := l.pos + 1, ids := l.ids ++ [rangeFrom s.nextLaunch (v.nextLaunch - s.nextLaunch)], items := l.items + items,
        waiting := if ls.isEmpty then none else some (s.time, resLimit s c) }
    let stopped (st : Nat) : State := setLu (dropAsks u o) w j fun l => { l with stop := some (l.pos, st, 0), waiting := none }
    (luActive 0x30 (getCtx s c 2 x) = some (j, k, l) →
      (∀ d, launchOf s w k ar l.pos = .ok u d → exec (.nbuLaunch c 1) s = .next (ran u d.toList 0)) ∧
      (∀ st, launchOf s w k ar l.pos = .bad u st → exec (.nbuLaunch c 1) s = .next (stopped st)) ∧
      (LaunchReady s w ar → exec (.nbuLaunch c 1) s = .next (ran s [launchNamed s w k ar l.pos] 0))) ∧
    (luActive 0x31 (getCtx s c 2 x) = some (j, k, l) →
      (∀ d, attnOf s w k ar ar1 l.pos = .ok u d → exec (.attnDispatch c 1) s = .next (ran u d.1 d.2)) ∧
      (∀ st, attnOf s w k ar ar1 l.pos = .bad u st → exec (.attnDispatch c 1) s = .next (stopped st)) ∧
      (∀ chans, AttnReady s w ar ar1 chans →
        let ps := (List.range (attnHead s ar).nitem).map (attnPlan s ar ar1 chans)
        exec (.attnDispatch c 1) s = .next (ran (ps.foldl (fun t p => aEmpties t w.fold s.nextLaunch p) { s with nextLaunch := s.nextLaunch + 1 })
          (ps.flatMap fun p => aLaunches w k l.pos p.job p.segs 0) (attnHead s ar).nitem)))

/-- A launch enters its channels, ends, and reports a fault (R102, R142, R144, R150): LAUNCH_ADMIT marks it admitted with the next
order number; LAUNCH_COMPLETE frees the launches of a finished command, whose record follows with ST_OK, (0, OUTER) and its count; LAUNCH_FAULT_PROPAGATE marks the launch as told. -/
def Obligations.LaunchesProgress : Prop :=
  ∀ (s : State) (id c j : Nat) (l : Launch) (w : Who) (k : Cmd) (r : LRun),
    (tget none s.launches id = some l → mayAdmit s id l = true →
      ∃ t, exec (.launchAdmit id) s = .next t ∧ t.seq = s.seq + 1 ∧
        tget none t.launches id = some { l with admitted := true, arr := s.seq + 1 }) ∧
    (coreOk s c = true → luDone s c = some (w, j, k, r) →
      ∃ t, exec (.launchComplete c) s = .next t ∧ t.xs = s.xs ∧ t.acc = s.acc ∧ t.tallies = s.tallies ∧
        (StoresWf s → ∀ n ∈ r.ids.flatten, tget none t.launches n = none)) ∧
    (coreOk s c = true → luDone s c = some (w, j, k, r) → r.stop = none → r.cancel = false →
      (getCtx s c 2 w.ctx).opens.any (·.runs) = false →
      let u := r.ids.flatten.foldl (fun t id => { t with launches := tput none t.launches id none }) s
      let x := getCtx u c 2 w.ctx
      let count := if opcode k = 0x31 then r.items - unfinishedItems s r.ids.flatten else (r.ids.flatten.map (finishedOn s)).foldl (· + ·) 0
      let rec_ : Rec := { tag := cTag k, status := stOk, engine := 2, context := w.ctx, core := c, inner := 0, outer := cOuter k,
                          count := count, irq := cIrq k }
      exec (.launchComplete c) s = .next (finishStop (drainOpens w (x.opens.length + 1) (setCtx u c 2 w.ctx
        { x with opens := (x.opens.zip (List.range x.opens.length)).map fun o =>
          if o.2 = j then { o.1 with fin := some rec_, lu := none } else o.1 })) w.ring)) ∧
    (tget none s.launches id = some l → l.told = false → (∃ e ∈ l.chans, e.state = 3) →
      ∃ t m, exec (.launchFaultPropagate id) s = .next t ∧ tget none t.launches id = some m ∧ m.told = true ∧
        (∀ e ∈ m.chans, e.state = 0 → (getChan t e.chan).dropping.contains id = true) ∧ t.mem = s.mem)

/-- An in-bank instruction that falls through, in every active bank of the channel (R110, R126, R129-R135, R148, R149): where no bank meets
an uncorrectable word, a register of bad parity or an encoder's mismatch, the sequencer goes on to the next position; else the program
faults at the first bank that met one, with its CAUSE. -/
def Obligations.InBankInstructionsRun : Prop :=
  ∀ (s : State) (i : Instr) (g op : Nat) (fx : State → NCtx → Nat → Fx) (n : NCtx),
    nbuOf i = some (g, op, fx) → NbuRuns s g op fx n →
    exec i s = .next (match (nbuAll s g fx n).2 with
      | none => nbuNext (nbuAll s g fx n).1 n
      | some b => nbuFault (nbuAll s g fx n).1 n b.1 stUncorr b.2) ∧
    (Whole s → (∀ b ∈ activeBanks n, gBank n b ∉ s.parNbu ∧ gBank n b ∉ s.encBad) →
      exec i s = .next (nbuNext (nbuAll s g fx n).1 n))

/-- END ends the slot's program; LOOP and LOOPB enter a body with its count, or skip a body of count zero (R127). LOOPB's count
is the largest of the active banks' pointer registers; one of bad parity is a fault (R434). -/
def Obligations.InBankControlRuns : Prop :=
  ∀ (s : State) (g : Nat) (n : NCtx),
    let u := (nbuAll s g fxNone n).1
    let ls := n.ch.loops.getD n.ch.slot []
    let past := goTo u n ls (n.pc + 1 + fld n.i 22 14)
    let into (total : Nat) (cs : Option (List (Nat × Nat))) : State :=
      goTo u n ({ first := n.pc + 1, last := n.pc + fld n.i 22 14, iter := 0, total := total, counts := cs } :: ls) (n.pc + 1)
    (NbuRuns s g 0x01 fxNone n → exec (.nbuEnd g) s =
      .next (setChan u g { getChan u g with ended := lset (getChan u g).ended (getChan u g).slot true })) ∧
    (NbuRuns s g 0x02 fxNone n → exec (.loop g) s = .next (if iRep n.i = 0 then past else into (iRep n.i) none)) ∧
    (NbuRuns s g 0x03 fxNone n →
      let cs := (activeBanks n).map fun b => (b, nP (getNbu u (gBank n b)) (iPb n.i))
      let most := cs.foldl (fun m p => max m p.2) 0
      exec (.loopb g) s = .next (match (nbuAll s g fxNone n).2 with
        | some b => nbuFault u n b.1 stUncorr b.2
        | none => if most = 0 then past else into most (some cs)) ∧
      ((∀ b ∈ activeBanks n, gBank n b ∉ s.parNbu) → (nbuAll s g fxNone n).2 = none))

/-! ## Rings and the drover -/

/-- Fetch and records (R177, R178, R398-R400): a line that is read whole goes where its ENGINE field says, or is kept until there is room; a
line that cannot be read faults the member with the fetch unit's record. A line at hand in this device's memory is read, and its command
joins the block that collects it, or its queue's input buffer. A record that waited for room is written, oldest first; and the interrupt of
coalesced records is sent once COAL_TIME has passed. -/
def Obligations.RingFetchAndRecords : Prop :=
  ∀ (s u : State) (n m x st : Nat) (bs : List Byte) (r : Rec) (t : List Rec),
    (ringTarget s n = 0 → mayFetch s n m = true → ringCtx s (ringFirst s n + m) n = some x →
      let c := ringFirst s n + m
      (fetchLine s n m = .ok u bs → exec (.fetchDispatch n m) s =
        .next (match dispatch u n m c x (cmdOf bs) with | some v => v | none => keepLine u n m bs)) ∧
      (fetchLine s n m = .bad u st → exec (.fetchDispatch n m) s =
        .next (fetchFault u n m c 0 st ((getRing s n).fetch.getD m 0) false)) ∧
      (let a := lineAddr s n m
        let k := cmdOf (viewBytes s (gLoc a) 64)
        let e := cEngine k
        let v := dropAsks { regPay s ((ringFold s n).getD 16) a 64 false with free := s.free + 1 } (.fetch n m)
        let sc := getCtx s c 3 x
        let isBlk := e == 3 && opcode k == 0x05 && 1 ≤ fld k.w2 40 32 && fld k.w2 40 32 ≤ 256
        (getRing s n).line.getD m [] = [] → clean s = true → AtHand s a 64 → askOf s (.fetch n m) = none →
        regOk s ((ringFold s n).getD 16) a 64 false = true →
        (∀ b, sc.blk = some b → b.cmds.length < b.need → exec (.fetchDispatch n m) s =
          .next (fetchNext (setCtx v c 3 x { sc with blk := some { b with cmds := b.cmds ++ [k] } }) n m)) ∧
        ((∀ b, sc.blk = some b → b.need ≤ b.cmds.length) → e < 4 → (getCtx s c e x).buf.length < 32 → (isBlk = true → sc.blk = none) →
          let b := getCtx s c e x
          exec (.fetchDispatch n m) s = .next (fetchNext (setCtx v c e x { b with
            buf := b.buf ++ [k], fullAt := if b.buf.length = 31 then s.time else b.fullAt,
            blk := if isBlk = true then some { need := fld k.w2 40 32 } else b.blk }) n m)))) ∧
    (recGo s n = true → (getRing s n).waiting = r :: t →
      exec (.deferredRecordWrite n) s = .next (finishStop (writeRec (setRing s n { getRing s n with waiting := t }) n r) n)) ∧
    ((getRing s n).pendIrq ≠ 0 → coalTime s n ≠ 0 → (getRing s n).firstIrq + Config.tick * coalTime s n ≤ s.time →
      exec (.irqCoalesceTimeout n) s = .next (ringIrq (setRing s n { getRing s n with pendIrq := 0 }) n))

/-- The register writes of a ring, let through (R286, R395, R397, R398): a doorbell moves the tail of the member it names, a
CPL_HEAD write the completion head, and word 0 of a descriptor is written with ENABLE 1 or 0. -/
def Obligations.RingRegistersAct : Prop :=
  ∀ (s : State) (fn n : Nat) (v : Word), n < 65536 →
    (HostWrites s fn (dbReg n 0) 8 → exec (.ringDoorbell fn n v) s = .next (doorbell s n v)) ∧
    (HostWrites s fn (dbReg n 8) 8 → exec (.cplHeadWrite fn n v) s = .next (cplHead s n v)) ∧
    (HostWrites s fn (ringReg n 0) 8 → (∀ f, ringFold s n = some f → tdiFrozen s f = false) →
      exec (.ringEnable fn n v) s = .next (descWrite s n 0 (setBit v 0 true)) ∧
      exec (.ringDisable fn n v) s = .next (descWrite s n 0 (setBit v 0 false)))

/-- A doorbell within the commands that the ring's area has room for moves the tail and no other member's (R398); any other sets
bit 0 of DRV_ERR and moves none. -/
def Obligations.DoorbellMovesTail : Prop :=
  ∀ (s : State) (n : Nat) (v : Word) (j : Nat), StoresWf s →
    let r := getRing s n
    let m := fld v 27 20
    let t := fld v 19 0
    let ok := r.state ≠ 0 ∧ r.state ≠ 4 ∧ t < cmdLen s n ∧ m < ringMembers s n ∧
      (t + cmdLen s n - r.tail.getD m 0) % cmdLen s n ≤ (r.fetch.getD m 0 + 2 * cmdLen s n - 1 - r.tail.getD m 0) % cmdLen s n
    (ok → m < r.tail.length → (getRing (doorbell s n v) n).tail.getD j 0 = if j = m then t else r.tail.getD j 0) ∧
    (¬ok → getRing (doorbell s n v) n = r ∧ bit (rget (doorbell s n v) (drvReg 8)) 0 = true)

/-- The register writes of the host that are commands of their own, let through (R291, R301, R382, R416, R445, R452, R479): tallies
add or are set, spare requests and flip masks are taken, a fold is formed or released, prefix groups and the domain change, and any
register takes a write of 4 or 8 bytes, naturally aligned, while any other size changes none (R6, R8, R10). -/
def Obligations.HostRegisterRowsAct : Prop :=
  ∀ (s : State) (fn : Nat) (v : Word),
    (∀ f, f < 16 → HostWrites s 0 (fldReg f 0) 8 →
      exec (.foldForm 0 f v) s = .next (fldWrite s f 0 (setBit v 0 true)) ∧
      exec (.foldRelease 0 f v) s = .next (fldWrite s f 0 (setBit v 0 false))) ∧
    (∀ u n, tallyWf s.grade u n = true → HostWrites s fn (addReg u n) 8 →
      exec (.tallyAdd fn u n v) s = .next (addTally s u n (fld v 47 0)) ∧
      exec (.tallySet fn u n v) s = .next (setTally s u n (v.setWidth 48))) ∧
    (HostWrites s 0 (eccReg 0x20) 8 → exec (.spareReq 0 v) s = .next (spareReqWrite s v)) ∧
    (∀ g, g < 384 → HostWrites s 0 (chnReg g 0x60) 8 → exec (.flipArm 0 g v) s =
      .next (flipWrite s (chnReg g 0x60) (chnReg g 0x60) 32 0xFFFFFFFF 0x3FFFFF7E00000000 (setBit v 32 true) (setBit v 32 true))) ∧
    (∀ c, coreOk s c = true → HostWrites s 0 (coreReg c 0xD48) 8 → exec (.flipArm 0 (384 + c) v) s =
      .next (flipWrite s (coreReg c 0xD48) (coreReg c 0xD48) 8 0xFF 0xFFFFF0200 (setBit v 8 true) (setBit v 8 true))) ∧
    (HostWrites s 0 (swvReg 0x18) 8 → exec (.domainReset 0 v) s = .next (domainCtrl s v)) ∧
    (HostWrites s 0 (srvReg 0x200) 8 → exec (.prefixGroupWrite 0 v) s = .next (groupWrite s v)) ∧
    (∀ a size, csrBase ≤ a → a < csrEnd → bar0Of (bar0Off a) = .reg a → HostWrites s fn a size → regSizeOk a size = true →
      exec (.registerWrite fn a size v) s = .next (regStore s { fn := fn, host := true } a size v)) ∧
    (∀ a size who, regSizeOk a size = false → regStore s who a size v = s)

/-- The drover (R402-R408): SWITCH_REQUEST notes the ring it asks for and the time, SWITCH_WITHDRAW takes an old request back and counts it,
unless the switch point has been reached (R414). Switches between rings (R403, R404, R405, R407, R408): a core that runs none takes the ring
it would ask for; at a full mark the ring that it would ask for now takes the core, after the outgoing ring's live ranges have been saved,
and its switch is counted; a ring that outgrows its save slot stays; a ring that lacks its live ranges gets them. A class-0 or the firmware
context takes a queue at its next point, and gives it back once quiescent. -/
def Obligations.DroverActs : Prop :=
  ∀ (s : State) (c o y n t x q : Nat), coreOk s c = true →
    let k := getCore s c
    (k.running = none → nextRing s c 65535 = some (n, x) → exec (.ringSwitch c) s = .next (switchIn s c n x)) ∧
    (k.running = some (o, y) → notRestored s o (getCtx s c 0 y).member = true → exec (.ringSwitch c) s = .next (restoreLive s c y o)) ∧
    (k.running = some (o, y) → notRestored s o (getCtx s c 0 y).member = false → k.request ≠ none → fullMark s c y = true →
      (wantSwitch s c = none → exec (.ringSwitch c) s = .next (setCore s c { k with request := none })) ∧
      (wantSwitch s c = some n → ringCtx s c n = some x →
        let u := writeSwitch s c y o (if quiescent s c y = true then 2 else 1) (liveSaved s c y o)
        exec (.ringSwitch c) s = .next (if saveStride s o < 256 + liveSaved s c y o then ror s (drvReg 8) 2
          else rinc (switchIn (saveLive u c y o) c n x) (drvReg 0x10) 1))) ∧
    (q < 4 → taker s c q = some x → curCtx s c q ≠ some x → curCtx s c q ≠ some 6 → takePoint s c q = true →
      let u := match curCtx s c q with | some y => if y < 6 then writeSwitch s c y (getCtx s c q y).ring 3 0 else s | none => s
      let v := setCore u c { k with displaced := lset k.displaced q (some ((k.displaced.getD q none).getD (k.cur.getD q none))),
                                    cur := lset k.cur q (some x), changed := s.time,
                                    slow := if x = 6 then lset k.slow q 0 else k.slow }
      exec (.class0Takeover c q) s = .next (if x = 6 then rinc v (drvReg 0x18) 1 else v)) ∧
    (let idle (v : Option Nat) : Bool := (v == some 6 && quiescent s c 6) || (v == some 7 && quiescent s c 7)
      let ps := k.cur.zip k.displaced
      (ps.any fun p => p.2.isSome && idle p.1) = true →
      exec (.class0Release c) s = .next (setCore
        (if ((k.displaced.getD 0 none).isSome && quiescent s c 6 && k.cur.getD 0 none == some 6) = true then accKill s c (rangeFrom 60 4) else s) c
        { k with cur := ps.map fun p => match p.2 with | some v => if idle p.1 = true then v else p.1 | none => p.1,
                 displaced := ps.map fun p => if idle p.1 = true then none else p.2, changed := s.time })) ∧
    (k.request = none → k.retry ≤ s.time → wantSwitch s c = some n →
      exec (.switchRequest c) s = .next (setCore s c { k with request := some (n, s.time) })) ∧
    (k.request = some (n, t) → fld (rget s (drvReg 0)) 31 16 ≠ 0 → t + Config.tick * fld (rget s (drvReg 0)) 31 16 ≤ s.time →
      (∀ r x, k.running = some (r, x) → fullMark s c x = false ∨ liveFits s c x r = false) → k.running ≠ none →
      let w := match k.running with | some (r, _) => quantumOf s r | none => 0
      exec (.switchWithdraw c) s =
        .next (rinc (setCore s c { k with request := none, retry := s.time + w }) (drvReg 0x20) 1))

/-- DEADLOCK_CONFIRM (R200, R201): where no queue of the core is blocked nothing happens; where two queues, each held at a command, have
waited for each other alone for 1 us, both fault with ST_FLT_DEADLOCK, each naming the other's command, bit 1 of CORE_SYNC_STATUS
is set, and the rest of the ring on the core is cancelled. -/
def Obligations.DeadlockConfirmActs : Prop :=
  ∀ (s : State) (c a b x : Nat) (p r : Block), coreOk s c = true →
    ((∀ q < 4, blockOf s c q = none) → exec (.deadlockConfirm c) s = .next s) ∧
    (a < b → b < 4 → curCtx s c a = some x → curCtx s c b = some x → blockOf s c a = some p → blockOf s c b = some r →
      p.edges = [b] → r.edges = [a] → p.holds = true → r.holds = true → Config.tick + p.since ≤ s.time →
      Config.tick + r.since ≤ s.time → Config.tick + (getCore s c).changed ≤ s.time → (∀ q < 4, q ≠ a → q ≠ b → blockOf s c q = none) →
      let bs := (List.range 4).map (blockOf s c)
      let u := faultHeld s (whoOf s c a x) stDeadlock
        { otherTag := standTag s c bs b, otherQ := b, detail := p.detail, cause := p.cause }
      let v := faultHeld u (whoOf s c b x) stDeadlock
        { otherTag := standTag s c bs a, otherQ := a, detail := r.detail, cause := r.cause }
      exec (.deadlockConfirm c) s = .next (faultRing (ror v (coreReg c 0x880) 2) (whoOf s c a x) [a, b]))

/-! ## Service rings, serving engine, security commands -/

/-- RING.SUSPEND, RING.RESUME, RING.CANCEL and RING.RESTART, served and with their checks passed (R412, R414): the members they name stop or
go on, or their commands end or are discarded, and the record's COUNT is the number of members, or of unfetched commands dropped. A
RING.SUSPEND whose members still have launches running ends when they have completed. -/
def Obligations.RingCommandsComplete : Prop :=
  ∀ (s u : State) (n : Nat) (k : Cmd), rcBad k = false → rcCheck u (svcOf u n k) = none →
    let g := rcRing k
    let ms := rcMembers u k
    (Serves s u n 2 0x20 k →
      let v := ringRestate (ms.foldl (fun t m => setSuspended t g m true) u) g
      ms.any (fun m => !((getRing u g).suspended.getD m false)) = true →
      exec (.ringSuspend n) s = .next (if ms.any (launchesRun v g) = true then
          let e := svcTaken v n k
          setRing e.1 n { getRing e.1 n with acting := some (e.2, k) }
        else svcAnswer v n k stSuspended ms.length)) ∧
    (∀ id, (getRing s n).acting = some (id, k) → (rcMembers s k).any (launchesRun s g) = false →
      exec (.ringSuspend n) s = .next (svcEnd (setRing s n { getRing s n with acting := none }) n id stSuspended (rcMembers s k).length)) ∧
    (Serves s u n 2 0x21 k → ms.any (fun m => (getRing u g).suspended.getD m false) = true →
      exec (.ringResume n) s =
        .next (svcAnswer (ringRestate (ms.foldl (fun t m => setSuspended t g m false) u) g) n k stOk 0)) ∧
    (Serves s u n 2 0x22 k → exec (.ringCancel n) s =
        .next (svcAnswer (ringRestate (ms.foldl (fun t m => setSuspended (cancelMember t g m) g m false) u) g) n k stOk
          ((ms.map (unfetched u g)).foldl (· + ·) 0))) ∧
    (Serves s u n 2 0x23 k →
      let hs := ms.filter fun m => (getRing u g).halted.getD m false
      let one (t : State) (m : Nat) : State :=
        let d := discard t g m
        let e := setRing d g { getRing d g with halted := lset (getRing t g).halted m false }
        (memberCtxs e g m).foldl (fun u p => setCtx u p.1 p.2.1 p.2.2 { getCtx u p.1 p.2.1 p.2.2 with halted := false }) e
      exec (.ringRestart n) s = .next (if hs.isEmpty then svcAnswer u n k stAlready 0
        else svcAnswer (ringRestate (hs.foldl one u) g) n k stOk ((hs.map (unfetched u g)).foldl (· + ·) 0)))

/-- POOL.DEFINE takes the descriptor and the channel table it reads (R306), and where both are at hand in memory it completes with what
they give; POOL.DROP forgets a pool that holds no slot. MODEL.BIND of a model that is not bound, with its operands in reach, binds it
with what its words give (R344); MODEL.UNBIND of the fold's own model, once it has no request and no step open, forgets it (R345). -/
def Obligations.PoolAndModelCommandsComplete : Prop :=
  ∀ (s u : State) (n : Nat) (k : Cmd),
    (Serves s u n 1 0x18 k → fld k.w2 63 50 = 0 → tailZero k = true →
      let f := (svcOf u n k).fold.getD 16
      let a := fld k.w2 49 0
      let geo (bs : List Byte) : Geo := geoOf fun i => (wordsAt bs).getD i 0
      fwCan u f a 64 false = true →
      (∀ v w bs tb, fwRead u (.service n) a 64 = .ok v bs →
        fwCan v f (geo bs).chtab (2 * (geo bs).nch) false = true → fwRead v (.service n) (geo bs).chtab (2 * (geo bs).nch) = .ok w tb →
        let r := poolDefine w f (wordsAt bs) (unpack 16 (geo bs).nch tb)
        exec (.poolDefine n) s = .next (svcAnswer r.1 n k r.2 0)) ∧
      (let bs := viewBytes u a 64
        let m := 2 * (geo bs).nch
        FwReads u (.service n) a 64 → FwReads u (.service n) (geo bs).chtab m → fwCan u f (geo bs).chtab m false = true →
        let r := poolDefine (fwAfter (fwAfter u 64) m) f (wordsAt bs) (unpack 16 (geo bs).nch (viewBytes u (geo bs).chtab m))
        exec (.poolDefine n) s = .next (svcAnswer r.1 n k r.2 0))) ∧
    (Serves s u n 1 0x19 k → fld k.w2 63 5 = 0 → tailZero k = true →
      let p := fld k.w2 4 0
      exec (.poolDrop n) s = .next (if getPool u p = none then svcAnswer u n k stAlready 0
        else if (svcOf u n k).fold ≠ some (poolGeo u p).fold then svcAnswer u n k stAccess 0
        else if heldSlots u p ≠ [] then svcAnswer u n k stRejState 0
        else svcAnswer (poolForget u p) n k stOk 0)) ∧
    (Serves s u n 1 0x12 k → mbBad k = false → mbAbsent u k = false →
      (getPool u (fld k.w2 12 8)).isSome = true → sameGroup u ((svcOf u n k).fold.getD 16) (poolGeo u (fld k.w2 12 8)).fold = true →
      tallyReach u ((svcOf u n k).fold.getD 16) (mbUnit k) (fld k.w2 29 24) = true → fwCan u ((svcOf u n k).fold.getD 16) (fld k.w4 49 0) (2 * sheetSize (fld k.w3 41 32)) true = true →
      fwCan u ((svcOf u n k).fold.getD 16) (fld k.w5 49 0) (tokBudget (fld k.w3 41 32) * fld k.w3 20 0 * lfBytes (fld k.w2 31 31)) true = true →
      (getModel u (fld k.w2 7 0)).bound = false →
      exec (.modelBind n) s = .next (svcAnswer (setModel u (fld k.w2 7 0)
        { bound := true, fold := (svcOf u n k).fold.getD 16, pool := fld k.w2 12 8, nparts := fld k.w2 23 16, unit := mbUnit k, num := fld k.w2 29 24,
          lfmt := fld k.w2 31 31, vocab := fld k.w3 20 0, budget := fld k.w3 41 32,
          chunk := if fld k.w3 51 42 = 0 then 32 else fld k.w3 51 42, age := fld k.w3 59 52, sheet := fld k.w4 49 0,
          res := fld k.w5 49 0, limit := fld k.w6 31 0, stray := (getModel u (fld k.w2 7 0)).stray }) n k stOk 0)) ∧
    (Serves s u n 1 0x13 k → fld k.w2 63 8 = 0 → tailZero k = true →
      let m := fld k.w2 7 0
      (getModel u m).bound = true → (svcOf u n k).fold = some (getModel u m).fold → modelReqs u m = [] → (getModel u m).isOpen = false →
      exec (.modelUnbind n) s = .next (svcAnswer (modelForget u m) n k stOk 0))

/-- A command about a request that names a live request of the fold is accepted, and kept for the boundary of the request's model
(R347, R357, R377, R384); parking and resuming ask as well that the fold reaches the image's place. -/
def Obligations.RequestCommandsAccepted : Prop :=
  ∀ (s u : State) (n : Nat) (k : Cmd), let f := (svcOf u n k).fold.getD 16
    handleCheck u f (fld k.w2 31 0) = none →
    (Serves s u n 1 0x11 k → fld k.w2 63 32 = 0 → tailZero k = true → exec (.reqCancel n) s = .next (svcKept u n k)) ∧
    (Serves s u n 1 0x14 k → fld k.w2 63 36 = 0 → 1 ≤ chNch k → chNch k ≤ 9 → exec (.reqChoose n) s = .next (svcKept u n k)) ∧
    (Serves s u n 1 0x15 k → fld k.w2 63 32 = 0 → fld k.w3 63 50 = 0 → fld k.w4 63 48 = 0 → k.w5 = 0 → k.w6 = 0 → k.w7 = 0 →
      (pkDest k ≠ 0 → fwCan u f (pkDest k) (pkLen k) true = true) → exec (.reqPark n) s = .next (svcKept u n k)) ∧
    (Serves s u n 1 0x16 k → fld k.w2 63 32 = 0 → fld k.w3 63 50 = 0 → k.w4 = 0 → k.w5 = 0 → k.w6 = 0 → k.w7 = 0 →
      (pkDest k ≠ 0 → fwCan u f (pkDest k) 128 false = true) → exec (.reqResume n) s = .next (svcKept u n k))

/-- REQ.SUBMIT within the fold's shares and with slots for its bundles is admitted (R341): its entry and its slots are taken, and the record's
COUNT is the handle. It reads the prompt's whole blocks, which it finds where they are at hand in memory. -/
def Obligations.RequestSubmitAdmits : Prop :=
  ∀ (s u : State) (n : Nat) (k : Cmd), Serves s u n 1 0x10 k → rqBad k = false →
    let f := (svcOf u n k).fold.getD 16
    let m := fld k.w2 7 0
    let d := getModel u m
    let g := poolGeo u d.pool
    let p := fld k.w4 24 0
    let a := fld k.w3 49 0
    let plen := cdiv (p + fld k.w4 56 32 + fld k.w2 35 32) g.t
    let lim := if bit k.w2 13 = true then 0 else (p - 1) / g.t
    let admits (v : State) (toks : List Nat) : Prop :=
      let hits := prefixMatch v f d.pool g.tsel g.t toks lim 0 0
      foldBundles v f + (plen - hits.length) ≤ kvQuota v f → plen - hits.length ≤ freeSlots v d.pool →
      let e := admitReq v f k m d.pool g.t plen hits
      exec (.reqSubmit n) s = .next (svcAnswer e.1 n k stOk e.2)
    d.bound = true → d.fold = f → (getPool u d.pool).isSome = true → fwCan u f a (4 * p) false = true →
    fwCan u f (fld k.w7 49 0) 128 false = true → fwCan u f (fld k.w6 49 0) (4 * plen) true = true →
    foldRing u f (fld k.w2 31 16) = true → ((liveReqs u).filter fun i => eFold u i == f).length < rtShare u f →
    (liveReqs u).length < nReq →
    (∀ v toks, fwRead32 u (.service n) a (lim * g.t) = .ok v toks → admits v toks) ∧
    ((lim * g.t = 0 ∨ FwReads u (.service n) a (4 * (lim * g.t))) →
      admits (fwAfter u (4 * (lim * g.t))) (unpack 32 (lim * g.t) (viewBytes u a (4 * (lim * g.t)))))

/-- The serving engine's own steps (R346, R347, R354, R362, R385): a done write for a bound model from a ring of its fold counts a part, or
ends the step with its status; a step that has run too long fails; a boundary runs, or publishes the step that was planned while parts of a
failed one could still write; and the image of a parked request, once its pages are read, is written, frees its slots and ends PARK. -/
def Obligations.ServingStepsAct : Prop :=
  ∀ (s u : State) (ring m i id : Nat) (v : Word) (im : Image) (bs : List Batch) (elig : List Nat),
    (ring < 65536 → m < 256 → exec (.srvStepDone ring m v) s =
      .next (if (getModel s m).bound = true ∧ ringFold s ring = some (getModel s m).fold then doneWrite s m v else s)) ∧
    (m < 256 → (getModel s m).isOpen = true → (getModel s m).limit ≠ 0 →
      (getModel s m).pubTime + Config.tick * (getModel s m).limit ≤ s.time →
      exec (.stepTimeout m) s = .next (failStep s m stTimeout)) ∧
    (m < 256 → (getModel s m).isOpen = false → fwFatal s = false → (getModel s m).bound = true →
      ((getModel s m).planned = none → boundary s m = .ok u () → exec (.stepBoundary m) s = .next (dropAsks u (.model m))) ∧
      ((getModel s m).planned = some (bs, elig) → (getModel s m).late = 0 →
        exec (.stepBoundary m) s = .next (publishPlanned s m bs elig)) ∧
      ((getModel s m).planned = none → modelReqs s m = [] → s.srv.cmds = [] → s.srv.groups = [] → (getModel s m).batches = [] →
        (getModel s m).closing = none → exec (.stepBoundary m) s =
          let t := setModel s m { getModel s m with batches := [], closing := none }
          let t := rtCount (poolStat t (getModel t m).pool)
          .next (dropAsks (rtCount (poolStat t (getModel t m).pool)) (.model m)))) ∧
    (i < nReq → (getReq s i).image = some im → im.job = some (ring, id) →
      let g := poolGeo s (getReq s i).pool
      let runs := (imgOrder g (eC s i)).map fun e => (imgAddr s i e.1 e.2, g.page)
      let written (u : State) (pages : List (List Byte)) : State :=
        let t := fwWrite (dropAsks u (.request i)) (eFold u i) im.addr (imgBytes u i im pages)
        setReq t i { getReq t i with image := some { im with job := none } }
      (∀ pages, fwReadAll (.request i) runs s = .ok u pages → exec (.parkImageDone i) s =
        .next (svcEnd (releaseSlots (written u pages) i false) ring id stOk im.size)) ∧
      ((∀ r ∈ runs, FwReads s (.request i) r.1 r.2) → exec (.parkImageDone i) s =
        .next (svcEnd (releaseSlots (written (runs.foldl (fun t r => fwAfter t r.2) s) (imgPagesNow s i)) i false) ring id stOk im.size)))

/-- The commands of the management engine on security (R518, R519, R529-R531): committing the security version of the running image fuses it,
revoking key 0 sets its bit, and a debug token that passes its checks opens its scope. Ring 65,535 alone may send them, and every
attempt to unlock replaces the nonce. -/
def Obligations.SecurityCommandsComplete : Prop :=
  ∀ (s u : State) (k : Cmd),
    (Serves s u 65535 2 0x31 k → fld k.w2 63 8 = 0 → tailZero k = true → fld k.w2 7 0 ∈ [1, 2, 3] → debugScope u = 0 →
      let kind := fld k.w2 7 0
      let svn := ((runningImage u kind).map (·.svn)).getD 0
      exec (.secCommitSvn 65535) s = .next (if svn ≤ fusedSvn u kind then svcAnswer u 65535 k stAlready 0
        else svcAnswer (lifeAdd (rfld u (secReg 0) (svnLow kind + 6) (svnLow kind) svn) false 0x0040 kind) 65535 k stOk 0)) ∧
    (Serves s u 65535 2 0x32 k → k.w2 = 0 → tailZero k = true → debugScope u = 0 →
      (u.boot.images.any fun i => i.keyIndex == 0) = false →
      exec (.secRevokeKey 65535) s = .next (if keyRevoked u 0 = true then svcAnswer u 65535 k stAlready 0
        else svcAnswer (lifeAdd (rset u (secReg 0) (setBit (rget u (secReg 0)) 4 true)) false 0x0040 4) 65535 k stOk 0)) ∧
    (Serves s u 65535 2 0x30 k → fld k.w2 63 50 = 0 → fld k.w2 2 0 = 0 → tailZero k = true →
      populated u.grade (fld k.w2 49 0) 136 = true → region u.grade (fld k.w2 49 0) ≠ .csr →
      let unlocks (v : State) (bs : List Byte) : Prop :=
        let st := tokenStatus v bs
        exec (.secDebugUnlock 65535) s =
          .next (newNonce (svcAnswer (if st = stOk then unlockDebug v (tokenScope bs) else v) 65535 k st 0))
      (∀ v bs, fwRead u (.service 65535) (fld k.w2 49 0) 136 = .ok v bs → unlocks v bs) ∧
      (FwReads u (.service 65535) (fld k.w2 49 0) 136 → unlocks (fwAfter u 136) (viewBytes u (fld k.w2 49 0) 136)))

/-! ## Channels and stored data -/

/-- Bouts and gaps (R101, R103, R104, R107, R109, R110, R112): a switch that ends, or a gap of a channel that goes on, leads into a bout; a bout
that is over leads into a gap; a channel that leaves serves what it held and is then in MEM, starting again, or DEFERRED. While fewer
channels of a stack compute than its cap, the DEFERRED channel first in the order of R107 begins SWITCH_IN, and firmware's cap goes into CAP. -/
def Obligations.ChannelBoutsAct : Prop :=
  ∀ (s : State) (g id st cap : Nat) (l : Launch), g < 384 → st < 12 → let ch := getChan s g
    (ch.mode = 1 → ch.launches.head? = some id → tget none s.launches id = some l →
      ∃ t, exec (.boutStart g) s = .next t ∧ (getChan t g).mode = 2 ∧ (getChan t g).move = 0 ∧ t.regs = s.regs ∧ t.mem = s.mem ∧ t.tallies = s.tallies) ∧
    (ch.mode = 3 → ch.committed = false → ch.launches ≠ [] → exec (.boutStart g) s = .next (gapEnd s g)) ∧
    (ch.mode = 2 → boutOver s g = true →
      ∃ t, exec (.boutEnd g) s = .next t ∧ (getChan t g).mode = 3 ∧ t.seq = s.seq + 1 ∧ (getChan t g).order = t.seq ∧ t.xs = s.xs) ∧
    (ch.mode = 3 → exec (.gapEnd g) s = .next (gapEnd s g)) ∧
    (ch.mode = 4 → StoresWf s → ∃ t, exec (.channelSwitchOut g) s = .next t ∧ (getChan t g).mode ∈ [0, 1, 5] ∧
      (getChan t g).committed = false ∧ t.seq = s.seq ∧ t.xs = s.xs) ∧
    (computeNow s st < capOf s st → (∃ h, h < 384 ∧ chanStack h = st ∧ (getChan s h).mode = 5) →
      ∃ g, chanStack g = st ∧ (getChan s g).mode = 5 ∧
        exec (.capAdmit st) s = .next (setChan s g { getChan s g with mode := 1, interrupted := false }) ∧
        ∀ h, h < 384 → chanStack h = st → (getChan s h).mode = 5 →
          (deferKey s g).1 < (deferKey s h).1 ∨ ((deferKey s g).1 = (deferKey s h).1 ∧ (deferKey s g).2 ≤ (deferKey s h).2)) ∧
    (cap < 64 → exec (.capUpdate st cap) s = .next (rfld s (stkReg st 0x100) 5 0 cap))

/-- Accesses and words that arrive (R111, R112, R117, R118, R137, R239, R249, R289, R417): an ordinary access is served in MEM and DEFERRED and
kept while its channel computes; one of a fold waits where the fold's regulator holds or an earlier one waits, and goes on once its bucket's
level is no longer negative; a tapped word, a result and a run of a PUT are written, then counted on their tally. -/
def Obligations.ArrivalsAct : Prop :=
  ∀ (s : State) (g k f r st : Nat) (a : Access) (u : Up) (p : PutB), g < 384 →
    (accessWf s.grade g a = true → a.fold = none → exec (.ordinaryAccess g a) s = .next (channelTakes s g a)) ∧
    (accessWf s.grade g a = true → a.fold = some f →
      let waits := s.folds.held.any fun h => h.1 == f && h.2.1 == 0 && h.2.2.1 == chanStack g
      exec (.ordinaryAccess g a) s = .next (if innerAccess a = true then channelTakes s g a
        else if (waits || !(regGo s f 0 (chanStack g))) = true
        then { s with folds := { s.folds with held := s.folds.held ++ [(f, 0, chanStack g, a)] } }
        else channelTakes (regCharge s f 0 (chanStack g) (accessLen a)) g a)) ∧
    ((getChan s g).mode = 0 ∨ (getChan s g).mode = 5 → channelTakes s g a = serveAccess s a) ∧
    ((getChan s g).mode ∈ [1, 2, 3, 4] → channelTakes s g a = holdPush s g a) ∧
    ((getChan s g).up[k]? = some u → ¬((getChan s g).mode = 3 ∧ (getChan s g).hold ≠ []) →
      let v := setChan s g { getChan s g with up := (getChan s g).up.take k ++ (getChan s g).up.drop (k + 1) }
      let r := extWrite v u.addr u.data
      let t := if rangeHeld v u.addr u.data.length = true
        then dramWrite v none (some (u.core, u.tally, u.data.length)) u.addr u.data (launch := some u.launch)
        else if r.2 = true then addTally r.1 u.core u.tally u.data.length else r.1
      (u.isTap = true → exec (.tapDataArrive g k) s = .next t) ∧ (u.isTap = false → exec (.resultDataArrive g k) s = .next t)) ∧
    (s.puts[k]? = some p →
      let before := (s.puts.take k).any fun q => q.key == p.key && q.addr < p.addr + p.data.length && p.addr < q.addr + q.data.length
      let v := { s with puts := s.puts.take k ++ s.puts.drop (k + 1) }
      let r := extWrite v p.addr (maskBytes v p.addr p.mask p.data)
      (before = true → exec (.putArrive k) s = .next s) ∧
      (before = false → region s.grade p.addr = .spd ∨ region s.grade p.addr = .cmn →
        exec (.putArrive k) s = .next (if r.2 = true then addTally r.1 p.unit p.num p.weight else r.1)) ∧
      (before = false → region s.grade p.addr = .dram →
        exec (.putArrive k) s = .next (dramWrite v (some p.fold) (some (p.unit, p.num, p.weight)) p.addr p.data none p.mask)) ∧
      (before = false → region s.grade p.addr = .csr → regSizeOk p.addr p.data.length = true → exec (.putArrive k) s =
        .next (addTally (regStore v { fn := p.fold + 1 } p.addr p.data.length (BitVec.ofNat 64 (leNat p.data))) p.unit p.num p.weight))) ∧
    (f < 16 → r < 6 → st < 12 → regGo s f r st = true →
      let isIt (h : Nat × Nat × Nat × Access) : Bool := h.1 == f && h.2.1 == r && h.2.2.1 == st
      s.folds.held.find? isIt = some (f, r, st, a) →
      let v := { s with folds := { s.folds with
        held := s.folds.held.takeWhile (fun x => !(isIt x)) ++ (s.folds.held.dropWhile fun x => !(isIt x)).drop 1 } }
      exec (.regulatorRelease f r st) s = .next (channelTakes (regCharge v f r st (accessLen a)) (locChan a.addr) a))

/-- Background work on stored data (R221, R226, R429, R433, R436, R437, R552): a corrected granule is written back, a starved transfer unit
is counted, a repair and a graze visit of DRAM become accesses of their channel, a late pass sets its bit and begins again, and a
refresh changes no stored bit. -/
def Obligations.StoredDataUpkeepActs : Prop :=
  ∀ (s : State) (c k a g u x : Nat) (t : List (Nat × Nat)),
    (coreOk s c = true → k < 0xC0000 → exec (.spdCeWriteback c k) s =
      .next (if spdWin c + 8 * k ∈ s.ecc.writeback then rewriteSram s (spdWin c + 8 * k) else s)) ∧
    (coreOk s c = true → exec (.dmaStarve c) s = .next (ror (rinc s (coreReg c 0xD10) 1) (coreReg c 0xD00) 2)) ∧
    (k < 12 → (tget {} s.stks k).repairs = (u, x) :: t → exec (.repair k) s =
      .next (channelTakes { s with stks := tput {} s.stks k { tget {} s.stks k with repairs := t } } (locChan u)
        { addr := u, len := 32, write := false, kind := .repair })) ∧
    (grazeWf s.grade a = true →
      let v := if unitOf a = blinBase then grazePass s else s
      exec (.grazeVisit a) s = .next (if region s.grade a = .dram
        then channelTakes v (locChan (unitOf a)) { addr := unitOf a, len := 32, write := false, kind := .graze } else grazeUnit v (unitOf a))) ∧
    (11 * grazeTicks s < 10 * (s.time - s.ecc.passStart) → exec .grazeLate s = .next (grazePass (ror s (eccReg 8) 2))) ∧
    (∃ v, exec (.fwCodeReload true) s = .next v ∧ v.mem = s.mem ∧ v.srv = s.srv ∧ v.rings = s.rings) ∧
    (∃ v, exec (.fwCodeReload false) s = .next v ∧ v.xs = s.xs ∧ v.tallies = s.tallies ∧ v.acc = s.acc) ∧
    (g < 384 → exec (.refresh g) s = .next s)

/-- Sparing (R438-R443): a bank whose migration is due moves to a spare of its die where one is left; the switch makes the bank answer from
the spare, clears the move and logs it, and in a gap the move of its NBU state costs up to 64 cycles of the next bout; a channel with fewer than two bad TSVs outside a bout is remapped, which is logged. -/
def Obligations.SparingActs : Prop :=
  ∀ (s : State) (b g : Nat), StoresWf s → b < 12288 → g < 384 →
    (migrationDue s b = true → bankSpared s b = false → bit (rget s (spareReg b)) 37 = false → tget 0 s.ecc.sparesUsed (b / 64) < 2 →
      ∃ t, exec (.migrationStart b) s = .next t ∧ bit (rget t (spareReg b)) 37 = true ∧ fld (rget t (spareReg b)) 36 32 = b % 32 ∧
        bankSpared t b = true ∧ t.mem = s.mem ∧ t.errs = s.errs) ∧
    (bit (rget s (spareReg b)) 37 = true → fld (rget s (spareReg b)) 36 32 = b % 32 → (getChan s (b / 32)).mode ≠ 2 →
      ∃ t, exec (.spareSwitch b) s = .next t ∧ bit (rget t (spareReg b)) (b % 32) = true ∧ bit (rget t (spareReg b)) 37 = false ∧
        ((getChan s (b / 32)).mode ≠ 3 → t.chans = s.chans) ∧ (getChan t (b / 32)).move ≤ (getChan s (b / 32)).move + 64 ∧
        t.tallies = s.tallies) ∧
    ((getChan s g).mode ≠ 2 → (getChan s g).tsvs < 2 → exec (.tsvRemap g) s =
      .next (lifeAdd (setChan s g { getChan s g with tsvs := (getChan s g).tsvs + 1 }) false 0x0013 g))

/-! ## Links and the domain -/

/-- Events of a live link (R461-R465, R551, R552): replays are counted and the eighth of one flit takes the link down; a group closes; waiting
messages age up to 255; a lane that drops leaves the others in use while two are left; re-equalisation takes one lane of a whole
link out and puts it back. A message without a good tag only counts toward the link's end; before keys, or before READY, only a
management message is taken; one for another device goes on; any other is acted on (R460, R462, R568), and its flits are counted
by numbers the model leaves free (R459, log entry 39). A link that goes down leaves memory and tallies alone where no transfer is
under way to another device (R478). -/
def Obligations.LinkEventsAct : Prop :=
  ∀ (s : State) (l n j : Nat) (m : Msg) (ok : Bool), l < 32 → let k := getLink s l
    (linkUp s l = true → let v := setLink s l { k with macMiss := false }
      exec (.messageReceive l ok m) s = countOut l (if k.keys = true ∧ ok = false then .next (macMismatch s l)
        else if m.cls ≠ .mgt ∧ (k.keys = false ∨ s.boot.state ≠ 4) then .next v
        else if m.dst ≠ s.devid then .next (sendFab v m) else takeMsg v m) ∧
      (m.src < 64 → ∃ t, takeMsg v m = .next t)) ∧
    (linkUp s l = true → StoresWf s →
      (∀ i ∈ [.linkAckTimeout l, .linkDown l], exec i s = .next (dropLink s l) ∧
        (NoneAway s → linkUp (dropLink s l) l = false ∧
          (dropLink s l).mem = s.mem ∧ (dropLink s l).tallies = s.tallies)) ∧
      (let r := if k.replaySeq = n % 4096 then k.replays + 1 else 1
        let v := rinc (setLink s l { k with replaySeq := n % 4096, replays := r }) (swvReg (0x200 + 8 * l)) 1
        exec (.nakReplay l n) s = .next (if 8 ≤ r then dropLink v l else v)) ∧
      exec (.macGroupClose l) s = .next (if k.keys = true then setLink s l { k with groups := k.groups + 1 } else s) ∧
      (n < 4 → bit (linkLanes s l) n = true →
        let m := setBit (match k.reeq with | some j => setBit (linkLanes s l) j true | none => linkLanes s l) n false
        let v := lifeAdd (rinc (setLink s l { k with reeq := none }) (swvReg (0x200 + 8 * l)) 1) true 0x0020 (64 + 4 * l + n)
        exec (.laneDrop l n) s = .next (if popc 4 m.toNat < 2 then dropLink v l else setLanes v l m)) ∧
      (n < 4 → linkLanes s l = 0xF → (∀ t, k.reeqAt = some t → 10000000 * Config.tick + t ≤ s.time) → exec (.laneReequalisation l n) s =
        .next (setLanes (setLink s l { k with reeq := some n, reeqAt := some s.time }) l (setBit 0xF n false))) ∧
      (k.reeq = some j → exec (.laneReequalisationDone l) s =
        .next (setLanes (setLink s l { k with reeq := none }) l (setBit (linkLanes s l) j true)))) ∧
    exec .ageIncrement s = .next { s with fabOut := s.fabOut.map fun m => { m with age := min 255 (m.age + 1) } }

/-- Members and bring-up (R474, R475, R477, R520): a member that is missing is told to the others, a notice is taken, a member whose images
differ from the lead's is missing; bring-up forms the domain from the devices that report, or after 190 ms from those that have. -/
def Obligations.DomainEventsAct : Prop :=
  ∀ (s : State) (d topo a b : Nat) (ds : List Nat) (links : List LinkReport),
    (d < 64 → exec (.memberMissing d) s = .next (loseMember s d) ∧ exec (.degradedNotice d) s = .next (takeNotice s d)) ∧
    (d < 64 → s.devid = 0 → s.boot.state = 4 →
      exec (.measurementReport d a b) s = .next (if a = imageDigest s 2 ∧ b = imageDigest s 3 then s else loseMember s d)) ∧
    (topo < 3 → bringupOpen s = true →
      let v := if s.boot.state = 4 ∧ bit (rget s (swvReg 0)) 2 = false then startDomainReset s else s
      exec (.fabricBringup topo ds links) s = .next (formDomain (links.foldl (linkReport topo) v) topo ds)) ∧
    (bringupOpen s = true → (bit (rget s (swvReg 0)) 2 = true ∨ (s.boot.state = 1 ∧ s.boot.joined = false)) →
      190000 * Config.tick + s.fab.began ≤ s.time →
      let n := ds.eraseDups.length
      exec (.bringupReportDeadline ds) s = .next (formDomain s (if n ≤ 1 then 0 else if n ≤ 16 then 1 else 2) ds))

/-! ## The host interface -/

/-- Host accesses that the gate of R495 lets through: a read of a register or of memory answers its data, a write stores it, and an AtomicOp
answers the old value and leaves the new one. An access to DRAM in a channel that computes is kept by the channel (R111). -/
def Obligations.HostAccessesAct : Prop :=
  ∀ (s u : State) (fn bar off len a size aop old : Nat) (data : List Byte) (x y : Word), fn ≤ 16 → bar = 0 ∨ bar = 2 → s.hif.linkUp = true →
    (accessGate s fn bar off len false false = .reg a → exec (.hostRead fn bar off len) s =
      .next (answer { s with free := s.free + 1 } { data := leBytes len (regLoad s fn a len) })) ∧
    (accessGate s fn bar off len false false = .mem a → hostGo s fn 4 (gOwn s a) len false = true →
      let v := hostPay s fn 4 (gOwn s a) len false
      let t := eccTouch v { path := 9 } (unitsOf a len)
      exec (.hostRead fn bar off len) s = .next (if rangeHeld v a len = true then askStart v (.host fn a len) (some (actFold fn)) [(a, len)]
        else if t.2.isSome = true then answerEp t.1 len else answer t.1 { data := viewBytes t.1 a len })) ∧
    (accessGate s fn bar off data.length true false = .reg a → (orderedReg a && postedHeld s fn) = false →
      exec (.hostWrite fn bar off data false) s =
        .next (regStore s { fn := fn, host := true } a data.length (BitVec.ofNat 64 (leNat data)))) ∧
    (accessGate s fn bar off data.length true false = .mem a → hostGo s fn 5 (gOwn s a) data.length true = true →
      let v := hostPay s fn 5 (gOwn s a) data.length true
      exec (.hostWrite fn bar off data false) s = .next (if region s.grade a = .dram
        then dramWrite v (some (actFold fn)) none a data (some fn) else (extWrite v a data).1)) ∧
    (accessGate s fn bar off size true true = .mem a → regSizeOk off size = true → aop ≤ 2 → hostGo s fn 5 (gOwn s a) size true = true →
      let v := hostPay s fn 5 (gOwn s a) size true
      (rangeHeld s a size = true → exec (.hostAtomicop fn bar off aop size x y) s =
        .next (askNew v (.hostAtomic size) (some (actFold fn))
          { addr := locOf a, len := size, write := true, kind := .atomic (pcieAop aop) (size == 8) x.toNat y.toNat })) ∧
      (rangeHeld s a size = false → firstUe v (unitsOf a size) = none →
        atomicAt v { path := 9 } a (size == 8) (pcieAop aop) x.toNat y.toNat = (u, .ok old) →
        exec (.hostAtomicop fn bar off aop size x y) s = .next (answer u { data := leBytes size old })) ∧
      (rangeHeld s a size = false → Whole s → StoresWf s → ∃ w,
        exec (.hostAtomicop fn bar off aop size x y) s = .next (answer w { data := leBytes size (readLe s a size) }) ∧
        SameEngines s w ∧ w.tallies = s.tallies ∧
        readLe w a size = atomicOp (pcieAop aop) (size == 8) (readLe s a size) x.toNat y.toNat))

/-- The host link and its relays (R487, R498, R505, R506): a relayed doorbell leaves in order; a member's write goes to the host and its read
waits for the completion, which answers the member; the link falls and rises. -/
def Obligations.HostEventsAct : Prop :=
  ∀ (s : State) (d id ha speed width : Nat) (data : List Byte) (m : Msg) (q : HostReq) (st : HostCpl) (flit : Bool),
    (d < 64 → (s.fab.doors.find? fun m => m.dst == d) = some m → exec (.relayDoorbellForward d) s = .next (sendFab { s with fab :=
      { s.fab with doors := s.fab.doors.takeWhile (fun x => x.dst != d) ++ (s.fab.doors.dropWhile fun x => x.dst != d).drop 1 } } m)) ∧
    (d < 64 → s.devid = 0 → d ≠ 0 → memberBit s d = true → missingBit s d = false → bit (rget s (hifReg 0)) 32 = true →
      bit (relayMap s d) 8 = true → s.hif.linkUp = true → s.hif.d3.contains (relayFn s d) = false → relayGo s (relayFn s d) 4 = true →
      exec (.relayDeviceRequest d true ha data none) s =
        .next { relayPay s (relayFn s d) 4 data.length with hostOut := s.hostOut ++ [{ addr := ha, data := data, fn := relayFn s d }] } ∧
      exec (.relayDeviceRequest d false ha data none) s = .next { s with hif := { s.hif with
        nextReq := s.hif.nextReq + 1,
        outst := s.hif.outst ++ [{ id := s.hif.nextReq, dev := d, fn := relayFn s d, addr := ha, len := data.length, issued := s.time }] } }) ∧
    (findReq s id = some q → exec (.hostCompletion id st) s = .next (endReqOut s q st) ∧
      exec (.devCplTimeout id) s = .next (if q.issued + cplTicks s ≤ s.time then endReqOut s q .ca else s)) ∧
    (∃ t, exec .pcieLinkDown s = .next t ∧ t.hif.linkUp = false ∧ t.mem = s.mem ∧ t.rings = s.rings) ∧
    (1 ≤ speed → speed ≤ 7 → width ∈ [1, 4, 8, 16] → s.boot.state ≠ 0 → s.boot.strap ≠ 2 → s.boot.perst = true → s.hif.linkUp = false →
      exec (.pcieLinkUp speed width flit) s =
        .next (linkFields { s with hif := { s.hif with linkUp := true } } speed width (flit || decide (6 ≤ speed))))

/-- Functions (R488, R492-R494, R500, R501, R503, R504): windows are set, BAR2 is resized, vectors are unmasked, functions are reset, suspended
and resumed, TDISP moves from unlocked to locked to run and back, an error resets its function, and NumVFs is set. -/
def Obligations.FunctionEventsAct : Prop :=
  ∀ (s : State) (fn j k : Nat) (v : Word), fn ≤ 16 → s.boot.state = 4 → fn ≤ numVf s →
    (s.hif.linkUp = true → s.hif.d3.contains fn = false → fnInReset s fn = false → j < 16 → k ≤ 16 → exec (.hifWinWrite fn k j v) s = .next (winWrite s fn k j v)) ∧
    (28 ≤ k → k ≤ 41 → exec (.bar2Resize fn k) s = .next { s with hif :=
      { s.hif with bar2 := tput 28 s.hif.bar2 fn k, wins := tdrop (fun x => x / 16 == fn) s.hif.wins } }) ∧
    (s.hif.linkUp = true → fnInReset s fn = false → k < 2048 → exec (.msixUnmask fn k) s = .next (unmask s fn k)) ∧
    exec (.flr fn) s = .next (if fn = 0 then (List.range 17).foldl resetFn ((List.range 16).foldl resetFold s)
      else resetFn (resetFold s (fn - 1)) fn) ∧
    (s.hif.d3.contains fn = false → ∃ t, exec (.d3hotEntry fn) s = .next t ∧ t.mem = s.mem ∧
      (if (fnRings s fn).any (ringLaunches s) = true then t.hif.d3 = s.hif.d3 ∧ fn ∈ t.hif.d3Wait else t.hif.d3 = s.hif.d3 ++ [fn])) ∧
    (s.hif.d3.contains fn = true → ∃ t, exec (.d0Return fn) s = .next t ∧ t.hif.d3 = s.hif.d3.filter (· ≠ fn) ∧ t.mem = s.mem) ∧
    (1 ≤ fn → exec (.tdiError fn) s = .next (tdiFail s fn)) ∧
    (1 ≤ fn → ∀ a b, (a, b) ∈ [(Tdi.unlocked, Tdi.locked), (.locked, .run), (.locked, .unlocked), (.run, .unlocked)] →
      tget .unlocked s.hif.tdi fn = a →
      exec (.tdispRequest fn b) s = .next { s with hif := { s.hif with tdi := tput .unlocked s.hif.tdi fn b } }) ∧
    (k ≤ 16 → ∃ t, exec (.vfEnable k) s = .next t ∧ (StoresWf s → numVf t = k)) ∧
    (s.trust.sessions ≠ [] → k ≤ 17 → ∃ t, exec (.ideKeyProg k true) s = .next t ∧
      t.hif.ide = s.hif.ide.filter (fun e => e.1 != k) ++ [(k, true)] ∧ tget 0 t.hif.ideKeys k = tget 0 s.hif.ideKeys k + 1) ∧
    (s.hif.linkUp = true → (s.hif.outst.any fun q => q.fn == fn && q.addr / 4096 ≤ k && k ≤ (q.addr + q.len) / 4096) = false →
      exec (.atsInvalidation fn k) s = .next { s with mgtOut := s.mgtOut ++ [.atsDone fn k] })

/-! ## Trust and management -/

/-- SPDM requests are answered while stage 1 runs (R514-R521, R530): the chain of slot 0, a challenge, the seven measurements, a new session of at
most eight, heartbeats and key updates of an open session; and a flash update that verifies replaces the images (R573). -/
def Obligations.SpdmRequestsAnswered : Prop :=
  ∀ (s : State) (k : Nat) (is : List ImageCheck), stage1Up s = true →
    exec (.spdmGetCertificate k) s = .next (sendMgt s (if k = 0 then .certificate 0 (debugAlias s) else .error)) ∧
    exec .spdmChallenge s = .next (sendMgt s (.challengeAuth (debugAlias s))) ∧
    (1 ≤ k → k ≤ 7 → exec (.spdmGetMeasurements k) s = .next (sendMgt s (.measurement k (measurement s k) (debugAlias s)))) ∧
    (s.trust.sessions.length < 8 → exec .spdmKeyExchange s = .next (sendMgt { s with trust := { s.trust with
      sessions := s.trust.sessions ++ [(s.trust.nextSession, 0)], nextSession := s.trust.nextSession + 1 } } (.keyExchange s.trust.nextSession))) ∧
    (exec (.spdmHeartbeat k) s = .next (sendMgt s (if sessionOpen s k = true then .heartbeat k else .error))) ∧
    (sessionOpen s k = true → exec (.spdmKeyUpdate k) s = .next (sendMgt { s with trust := { s.trust with
      sessions := s.trust.sessions.map fun e => if e.1 = k then (e.1, e.2 + 1) else e } } (.keyUpdate k))) ∧
    (s.boot.state = 4 → s.hif.linkUp = true → exec (.doeFlashUpdate is) s =
      .next (if bundleCause s is = 0 then sendMgt { s with boot := { s.boot with flash := is } } (.flashDone true)
        else sendMgt s (.flashDone false)))

/-- PLDM and I3C on standby power (R583-R590), telemetry every millisecond: a sensor answers its last reading, the effecter sets P_LIM, at most
8,191 W, and an address is assigned. -/
def Obligations.ManagementRequestsAnswered : Prop :=
  ∀ (s : State) (k x : Nat), standby s = true →
    exec (.pldmGetPdr k) s = .next (sendMgt s (if 1 ≤ k ∧ k ≤ 21 then .pdr k else .error)) ∧
    exec (.pldmGetSensorReading k) s = .next (sendMgt s (if 1 ≤ k ∧ k ≤ 17 then .sensor k (reading s k) else .error)) ∧
    exec (.pldmGetStateSensorReadings k) s =
      .next (sendMgt s (if 18 ≤ k ∧ k ≤ 20 then .stateSensor k (reading s k).toNat else .error)) ∧
    (running s = true → exec (.pldmSetNumericEffecterValue 1 x) s =
      .next (sendMgt (rfld s (thmReg 0) 12 0 (min 8191 x)) .effecterDone)) ∧
    exec (.pldmSetEventReceiver k) s =
      .next (sendMgt { s with power := { s.power with receiver := some k } } (.receiverSet k)) ∧
    (k < 128 → exec (.i3cDynamicAddressAssignment k) s =
      .next (sendMgt { s with boot := { s.boot with i3c := some k } } (.i3cAddress (i3cAddr s) k))) ∧
    exec (.jtagInstruction k) s = .next { s with boot := { s.boot with jtag := jtagActs s k } } ∧
    (running s = true → 1000 * Config.tick + s.power.refreshed ≤ s.time →
      let v := { s with power := { s.power with readings := (rangeFrom 1 20).map (sensorNow s), refreshed := s.time } }
      exec .telemetryRefresh s = .next (sensorEvent (sensorEvent v 0 18) 1 19))

/-! ## Power, temperature, reset and boot -/

/-- The power loop in READY (R537-R541): a sample joins the last 1,000 and E, and above the target the rate falls by 1 and the cap by 4; below 0.95 of
the target, once per 100 us, they rise again; the brake lowers the knobs at once and lets them go. -/
def Obligations.PowerLoopActs : Prop :=
  ∀ (s : State) (w : Nat), s.boot.state = 4 →
    (w < 65536 → (s.power.pin = false ∨ braked s = true) →
      ∃ t, exec (.powerSample w) s = .next t ∧ t.power.samples = (w :: s.power.samples).take 1000 ∧ t.power.e = s.power.e + w - pLim s ∧
        t.power.rate ≤ max 1 s.power.rate ∧ t.power.cap ≤ s.power.cap ∧ t.mem = s.mem) ∧
    (20 * fld (rget s (thmReg 0x18)) 15 0 < 19 * target s → 100 * Config.tick + s.power.raised ≤ s.time →
      ∃ t, exec .knobRaise s = .next t ∧ t.power.raised = s.time ∧ s.power.rate ≤ t.power.rate ∧ t.power.rate ≤ s.power.rate + 1 ∧
        s.power.cap ≤ t.power.cap ∧ t.power.cap ≤ s.power.cap + 4 ∧ t.mem = s.mem) ∧
    (∃ t, exec .brakeAssert s = .next t ∧ t.power.pin = true ∧ (StoresWf s → braked t = true) ∧ t.mem = s.mem) ∧
    (∃ t, exec .brakeRelease s = .next t ∧ t.power.pin = false ∧ (StoresWf s → braked t = false) ∧ t.mem = s.mem)

/-- Temperatures (R542-R549): the bodies' readings set limits and alerts; a body at 123 degrees trips at once, one at 120 begins an orderly
shutdown that ends after 1.0 ms or trips at 1.8 ms; an analog trip turns the rails off, and a trip is released below 116. -/
def Obligations.ThermalEventsAct : Prop :=
  ∀ (s : State) (temps : List (Int × Nat)) (rise : List Int) (nodes : List (Nat × Int × Int)) (b t : Nat) (ts : List Int),
    (temps.length = 15 → rise.length = 15 → running s = true →
      ∃ u, exec (.thermalUpdate temps rise) s = .next u ∧
        ((∃ d, (temps.getD d (0, 0)).1 ≥ 1968 ∧ d < 15) → u.boot.thermtrip = true ∧ u.mem = [])) ∧
    ((∀ n ∈ nodes, n.1 < 15) → running s = true → exec (.thermalCalibrate nodes) s =
      .next (if nodes.any (fun n => decide (96 < n.2.1 - n.2.2 ∨ 96 < n.2.2 - n.2.1)) = true then setAlert s 4 else s)) ∧
    (running s = true → 1000 * Config.tick + s.power.stepped ≤ s.time →
      let v := (List.range 14).foldl throttleOne s
      exec .throttleStep s = .next (applyKnobs { v with power := { v.power with stepped := v.time } })) ∧
    (s.power.sd = some (t, b) → exec .shutdownDeadline s = .next (if 18 * 100 * Config.tick + t ≤ s.time then tripOff s b 2 else s)) ∧
    (b < 15 → s.boot.thermtrip = false → railsUp s = true →
      ∃ u, exec (.analogTrip b) s = .next u ∧ u.boot.thermtrip = true ∧ u.mem = [] ∧ u.boot.state = 0) ∧
    (ts.length = 15 → s.boot.thermtrip = true → standby s = true → (∀ x ∈ ts, x < 1856) →
      exec (.thermtripRelease ts) s = .next { s with boot := { s.boot with thermtrip := false } })

/-- Resets and power (R563-R567, R574, R575): a reset with a reference boots with the cause it has and keeps no command in its queues; PWRGD falling or a
rail going down leaves the device in RESET with its memory lost; rails come up in order, and one that comes early is an error. -/
def Obligations.ResetsAct : Prop :=
  ∀ (s : State) (d strap : Nat) (hot alt : Bool) (is : List ImageCheck) (r : Rail), d < 64 → strap < 4 → s.boot.thermtrip = false →
    (railsUp s = true → s.boot.stuck = false → ∃ t, exec (.coldReset d strap true alt is) s = .next t ∧ t.devid = d ∧ t.boot.strap = strap ∧
      t.time = 0 ∧ t.mem = [] ∧ t.acc = [] ∧ t.ctxs = [] ∧ t.rings = [] ∧ t.boot.resetCause = (if s.boot.tripped = true then 4 else 1) ∧
      t.boot.state ∈ [1, 2, 3]) ∧
    (railsUp s = true → s.boot.pwrgd = true → s.boot.stuck = false → (hot = true → s.hif.linkUp = true) →
      ∃ t, exec (.warmReset hot d strap true alt is) s = .next t ∧ t.devid = d ∧ t.time = 0 ∧ t.mem = [] ∧ t.ctxs = [] ∧ t.rings = [] ∧
        t.boot.resetCause = (if hot = true then 3 else 2) ∧ t.boot.state ∈ [1, 2, 3] ∧ (s.boot.scan = false → t.remaps = s.remaps)) ∧
    (∃ t, exec .pwrgdFall s = .next t ∧ t.boot.pwrgd = false ∧ t.boot.state = 0 ∧ t.mem = [] ∧ t.time = 0) ∧
    (railUp s (railNo r) = true → ∃ t, exec (.supplyRailDown r) s = .next t ∧ t.mem = [] ∧ t.boot.state = 0 ∧
      t.boot.rails = lset s.boot.rails (railNo r) false) ∧
    (railUp s (railNo r) = false → (railNo r = 0 ∨ railUp s (railNo r - 1) = true) →
      exec (.supplyRailUp r) s = .next { s with boot := { s.boot with rails := lset s.boot.rails (railNo r) true } }) ∧
    (railUp s (railNo r) = false → railNo r ≠ 0 → railUp s (railNo r - 1) = false →
      exec (.railSequenceError r) s = .next (seqError s (railNo r)) ∧ exec (.supplyRailUp r) s = .next (seqError s (railNo r)))

/-- Boot and recovery (R567, R570-R572): BOOT with the domain formed and the three images verified becomes READY; the recovery window takes
chunks, copies them in order into the staging area, and a bundle that verifies lets the boot go on. Losing the reference switches to the other and is
logged (R31, R594), and the life log takes its summary each hour (R556). -/
def Obligations.RecoveryActs : Prop :=
  ∀ (s : State) (v : Word) (len : Nat) (last alt tol : Bool) (is : List ImageCheck),
    (running s = true →
      exec .refLoss s = .next (lifeAdd (setAlert (rset s (glbReg 0x40) (setBit (rget s (glbReg 0x40) ||| 0x110)
      (if bit (rget s (glbReg 0x40)) 0 = true then 2 else 1) false)) 8) true 0x0032 0) ∧
      exec (.referenceToleranceChange alt tol) s =
      .next (rset s (glbReg 0x40) (setBit (rget s (glbReg 0x40)) (if alt = true then 2 else 1) tol)) ∧
      (3600000000 * Config.tick + s.life.summary ≤ s.time →
      ∃ t, exec .lifeLogSummary s = .next t ∧ t.life.summary = s.time ∧ (∃ new, t.life.recs = s.life.recs ++ new) ∧ t.mem = s.mem)) ∧
    (s.boot.state = 1 → s.boot.joined = true → (∀ k ∈ [1, 2, 3], (runningImage s k).isSome = true) →
      exec .bootReady s = .next { s with boot := { s.boot with state := 4, step := 8, cause := 0 } }) ∧
    (s.hif.linkUp = true → accessGate s 0 0 0xF000008 8 true false = .rcv 8 →
      exec (.rcvChunk 0 v) s = .next (rcvCtrl s (setBit (setBit v 61 false) 63 true)) ∧
      exec (.rcvRestart 0 v) s = .next (rcvCtrl s (setBit v 61 true))) ∧
    (s.boot.rcvJob = some (len, last) → StoresWf s → (twf 0 s.boot.rcvBuf = true) →
      ∃ t, exec .rcvChunkCopied s = .next t ∧ t.boot.rcvNext = s.boot.rcvNext + len ∧ t.boot.rcvJob = none ∧ t.boot.rcvCheck = last ∧
        (∀ i, i < len → memGet t (rcvBase + s.boot.rcvNext + i) = tget 0 s.boot.rcvBuf i) ∧
        (∀ l, l < rcvBase + s.boot.rcvNext ∨ rcvBase + s.boot.rcvNext + len ≤ l → memGet t l = memGet s l)) ∧
    (s.boot.rcvCheck = true → s.boot.cause ≠ 7 → bundleCause s is = 0 →
      ∃ t, exec (.rcvVerify is) s = .next t ∧ t.boot.state = 1 ∧ t.boot.cause = 0 ∧ t.boot.images = withStage1 s is ∧ t.boot.rcvCheck = false ∧
        t.mem = s.mem ∧ t.life = s.life)

/-! ## What single operations do -/

/-- Tally arithmetic (R290): an addition is modulo 2^48, one that carries past the top sets the tally's bit of its WRAP register and any other
leaves that register, no other tally changes, and WAIT_TALLY compares the unsigned value with N. -/
def Obligations.TallyArithmetic : Prop :=
  ∀ (s : State) (u n a : Nat), StoresWf s → u < 204 → n < 64 →
    let t := addTally s u n a
    (getTally t u n).toNat = ((getTally s u n).toNat + a) % 2 ^ 48 ∧
    bit (rget t (wrapReg u)) n = (bit (rget s (wrapReg u)) n || decide (2 ^ 48 ≤ (getTally s u n).toNat + a)) ∧
    (∀ j, j ≠ n → bit (rget t (wrapReg u)) j = bit (rget s (wrapReg u)) j) ∧
    (∀ v j, j < 64 → (v ≠ u ∨ j ≠ n) → getTally t v j = getTally s v j) ∧ SameMem s t ∧ t.flags = s.flags ∧
    ∀ (c q : Nat) (k : Slot) (r : Run), Held s c q 0xF4 k r →
      let v := (getTally s (wtUnit c k.cmd) (wtNum k.cmd)).toNat
      exec (.waitTallyPass c q) s = .next (if wtN k.cmd ≤ v then slotDone s k none v else s)

/-- SIGNAL (R195): it waits for the earlier commands of its queue; it then adds N to its flag and to no other, a sum above 65,535 leaves 65,535
and sets FLAG_SAT, and a smaller one leaves CORE_SYNC_STATUS as it is. -/
def Obligations.SignalSaturates : Prop :=
  ∀ (s : State) (c f n : Nat), StoresWf s → f < 256 →
    let t := signalFlag s c f n
    (getFlag t c f).toNat = min 65535 ((getFlag s c f).toNat + n) ∧
    (∀ d j, j < 256 → (d ≠ c ∨ j ≠ f) → getFlag t d j = getFlag s d j) ∧
    (65535 < (getFlag s c f).toNat + n → bit (rget t (coreReg c 0x880)) 0 = true) ∧
    ((getFlag s c f).toNat + n ≤ 65535 → rget t (coreReg c 0x880) = rget s (coreReg c 0x880)) ∧ SameMem s t ∧ t.tallies = s.tallies ∧
    (∀ (q : Nat) (k : Slot), Acts s c q 0xF2 k → ¬NoneOpen s c q k → exec (.signal c q) s = .next s)

/-- The interleaved view (R98): the map of an interleaved address follows the formula, it is a bijection between the interleaved view and the
populated part of the bank-linear view, and the 384 lines of a group fall on 384 distinct channels. -/
def Obligations.InterleaveIsBijective : Prop :=
  (∀ a, a < ilvEnd →
    let q := a / 256 / 384
    let h := (q ^^^ (q >>> 7) ^^^ (q >>> 14)) &&& 0x1FF
    let gch := (a / 256 % 384 + h) % 384
    let row := q / 32
    let bank := (q % 32) ^^^ (row % 32)
    ilvToLin a = bankAddr (gch * 32 + bank) (row * 256 + a % 256) ∧ gch < 384 ∧ bank < 32 ∧ row * 256 + a % 256 < 0x6000000) ∧
  (∀ a b, a < ilvEnd → b < ilvEnd → ilvToLin a = ilvToLin b → a = b) ∧
  (∀ g o, g < 12288 → o < 0x6000000 → ∃ a, a < ilvEnd ∧ ilvToLin a = bankAddr g o) ∧
  (∀ a b, a < ilvEnd → b < ilvEnd → a / 256 / 384 = b / 256 / 384 → a / 256 ≠ b / 256 → locChan (ilvToLin a) ≠ locChan (ilvToLin b))

/-- The SEC-DED code of SRAM granules (R596): its columns, that every encoded word has syndrome 0, that a stored word's syndrome is that of what it
differs in from its encoding, and the four outcomes of a reader. -/
def Obligations.SecDedCode : Prop :=
  ((∀ i, i < 56 → popc 8 (secCol i) = 3 ∧ secCol i < 256) ∧ (∀ i j, i < j → j < 56 → secCol i < secCol j) ∧ secCol 0 = 0x07 ∧ secCol 55 = 0xE0 ∧
    (List.range 8).map (fun i => secCol (56 + i)) = [0x1F, 0x2F, 0x37, 0x3B, 0x3D, 0x3E, 0x4F, 0x57] ∧ (∀ j, j < 8 → secCol (64 + j) = 2 ^ j)) ∧
  (∀ x : BitVec 72, (∀ j, j < 8 → x.getLsbD (64 + j) =
      (List.range 64).foldl (fun b i => b ^^ (x.getLsbD i && (secCol i).testBit j)) false) → secSyndrome x = 0) ∧
  (∀ x e : BitVec 72, secSyndrome x = 0 → secSyndrome (x ^^^ e) = secSyndrome e) ∧
  (∀ e : BitVec 72, secSyndrome e = 0 → (sramView e).ce = false ∧ (sramView e).ue = false) ∧
  (∀ (e : BitVec 72) (i : Nat), i < 72 → secSyndrome e = secCol i →
    (sramView e).ce = true ∧ (sramView e).ue = false ∧ (sramView e).mask = (e.toNat ^^^ 2 ^ i) % 2 ^ 64) ∧
  (∀ e : BitVec 72, secSyndrome e ≠ 0 → popc 8 (secSyndrome e) % 2 = 0 → (sramView e).ue = true ∧ (sramView e).ce = false) ∧
  (∀ e : BitVec 72, secSyndrome e ≠ 0 → (∀ i, i < 72 → secSyndrome e ≠ secCol i) → (sramView e).ue = true ∧ (sramView e).ce = false)

/-- A write of a run of bytes: no byte of a unit it does not touch changes, but for corrected granules that wait for their write-back
(R226); where no stored unit has an error, exactly the bytes it names change, and
they then hold what was written. -/
def Obligations.WritesStayInPlace : Prop :=
  ∀ (s : State) (m : Meet) (a : Nat) (bs : List Byte), StoresWf s →
    let t := (writeBytes s m a bs).1
    (∀ l, unitOf l ∉ unitsOf a bs.length → (∀ u ∈ s.ecc.writeback, l < u ∨ u + unitLen u ≤ l) → memGet t l = memGet s l) ∧
    (clean s = true → (writeBytes s m a bs).2 = none ∧
      (∀ l, (∀ i, i < bs.length → l ≠ locOf (a + i)) → memGet t l = memGet s l) ∧
      (a + bs.length ≤ ilvEnd ∨ blinBase ≤ a → ∀ i, i < bs.length → memGet t (locOf (a + i)) = bs.getD i 0)) ∧
    SameEngines s t ∧ t.flags = s.flags ∧ t.tallies = s.tallies ∧ t.ctxs = s.ctxs

/-- Scalar registers and arithmetic (R170, R171): a written register, X0 among them, reads as written and no other changes; the fifteen operations
give the results of the table, modulo 2^64, with shift amounts modulo 64. -/
def Obligations.ScalarArithmetic : Prop :=
  (∀ (s : State) (w x : Who) (r j : Nat) (v : Word), StoresWf s → r < 32 → j < 32 → w.ctx < 8 → x.ctx < 8 →
    xGet (xSet s w r v) x j = if x.core = w.core ∧ x.ctx = w.ctx ∧ j = r then v else xGet s x j) ∧
  (∀ a b : Word, let n := b.toNat % 64
    (aluOp 0 a b).toNat = (a.toNat + b.toNat) % 2 ^ 64 ∧ (aluOp 1 a b).toNat = (a.toNat + 2 ^ 64 - b.toNat) % 2 ^ 64 ∧
    (aluOp 2 a b).toNat = a.toNat * b.toNat % 2 ^ 64 ∧ (aluOp 3 a b).toNat = a.toNat &&& b.toNat ∧
    (aluOp 4 a b).toNat = a.toNat ||| b.toNat ∧ (aluOp 5 a b).toNat = a.toNat ^^^ b.toNat ∧
    (aluOp 6 a b).toNat = a.toNat * 2 ^ n % 2 ^ 64 ∧ (aluOp 7 a b).toNat = a.toNat / 2 ^ n ∧ (aluOp 8 a b).toInt = a.toInt / 2 ^ n ∧
    (aluOp 9 a b).toInt = min a.toInt b.toInt ∧ (aluOp 10 a b).toInt = max a.toInt b.toInt ∧
    (aluOp 11 a b).toNat = min a.toNat b.toNat ∧ (aluOp 12 a b).toNat = max a.toNat b.toNat ∧
    aluOp 13 a b = (if a.toInt < b.toInt then 1 else 0) ∧ aluOp 14 a b = (if a.toNat < b.toNat then 1 else 0) ∧ aluOp 16 a b = b)

/-! ## What groups of commands leave as it was -/

/-- A command of an engine queue, whatever it does on its core and in memory, leaves the clock, the boot, the serving engine, keys, the domain, trust
and power as they were, and starts no in-bank unit; SC.ST, DMA.COPY, DMA.PERM and DMA.AMO, which may write registers (R277), are not among
them. -/
def Obligations.QueueCommandsFrame : Prop :=
  ∀ (i : Instr) (s t : State), queueRow i = true → exec i s = .next t →
    SameControl s t ∧ t.nbus = s.nbus ∧ t.seq = s.seq ∧ t.parNbu = s.parNbu

/-- An in-bank instruction leaves every core as it was, its engines' registers, flags, tallies and contexts, and everything above the engines; it
sends nothing to host memory. -/
def Obligations.InBankInstructionsFrame : Prop :=
  ∀ (i : Instr) (s t : State), nbuRowOf i = true → exec i s = .next t →
    SameControl s t ∧ SameCores s t ∧ t.hostOut = s.hostOut ∧ t.puts = s.puts ∧ t.seq = s.seq ∧ t.folds = s.folds

/-- Events of links, the host interface, power, temperature and the drover, settings, and requests of management leave all stored data as it was:
memory and its codes, accumulators, address and scalar registers, flags, tallies, in-bank registers. The events that may find a member
missing do so where no transfer is under way to another device (R478). -/
def Obligations.EventsLeaveData : Prop :=
  ∀ (i : Instr) (s t : State), (quietRow i = true ∨ (lossRow i = true ∧ NoneAway s)) → exec i s = .next t → SameData s t
end

