-- ==== Sys2Proof/Laws/Keeps.lean ====
section
/-! SUPPORT. What every meaning keeps: the commands that wait, what the part fuses, the canonical form of the sparse
stores, a legal STATE of GLB_BOOT_STATUS, and the five rails. One lemma per way of building a state; the files
Laws/Keeps*.lean have one per operation of the model. -/

set_option Elab.async false

namespace Sys2Proof.Machine

theorem sameRecord.rfl {r : LogRec} : sameRecord r r := ⟨.refl _, .refl _, .refl _, .refl _, .refl _⟩

theorem sameRecord.trans {a b c : LogRec} (h : sameRecord a b) (g : sameRecord b c) : sameRecord a c :=
  ⟨g.1.trans h.1, g.2.1.trans h.2.1, g.2.2.1.trans h.2.2.1, g.2.2.2.1.trans h.2.2.2.1, g.2.2.2.2.trans h.2.2.2.2⟩

/-- A log whose records, SEQ and oldest block are the same. -/
theorem LogKept.of_same {l m : Life} (h : m.recs = l.recs) (q : m.seq = l.seq) (u : m.tail = l.tail) : LogKept l m :=
  ⟨[], by rw [h, List.append_nil], by simp [rangeFrom], q, fun r hr _ => ⟨r, by unfold Life.held at *; rwa [h, u], .rfl⟩⟩

theorem rangeFrom_add (a m n : Nat) : rangeFrom a (m + n) = rangeFrom a m ++ rangeFrom (a + m) n := by
  simp only [rangeFrom, List.range_add, List.map_append, List.map_map]
  congr 1
  exact List.map_congr_left fun x _ => (Nat.add_assoc a m x).symm

theorem LogKept.trans {a b c : Life} (h : LogKept a b) (g : LogKept b c) : LogKept a c := by
  obtain ⟨x, hx, hs, hn, hp⟩ := h
  obtain ⟨y, gx, gs, gn, gp⟩ := g
  refine ⟨x ++ y, by rw [gx, hx, List.append_assoc], ?_, by rw [gn, hn, List.length_append, Nat.add_assoc], fun r hr k => ?_⟩
  · rw [List.map_append, hs, gs, hn, List.length_append, rangeFrom_add]
  · obtain ⟨u, hu, e⟩ := hp r hr k
    obtain ⟨v, hv, f⟩ := gp u hu (e.1 ▸ k)
    exact ⟨v, hv, e.trans f⟩

/-- What no operation of the device changes, and what every operation keeps. -/
structure Keeps (s t : State) : Prop where
  pending : t.pending = s.pending
  grade : t.grade = s.grade
  badCores : t.badCores = s.badCores
  fwRanges : t.fwRanges = s.fwRanges
  log : LogKept s.life t.life
  time : t.time = s.time ∨ t.time = 0
  stores : StoresWf s → StoresWf t
  boot : s.boot.state ≤ 4 → t.boot.state ≤ 4
  rails : s.boot.rails.length = 5 → t.boot.rails.length = 5

theorem Keeps.rfl {s : State} : Keeps s s :=
  ⟨.refl _, .refl _, .refl _, .refl _, .of_same (.refl _) (.refl _) (.refl _), .inl (.refl _), id, id, id⟩

theorem Keeps.trans {s t u : State} (h : Keeps s t) (g : Keeps t u) : Keeps s u :=
  ⟨g.pending.trans h.pending, g.grade.trans h.grade, g.badCores.trans h.badCores, g.fwRanges.trans h.fwRanges,
   h.log.trans g.log, g.time.elim (fun e => h.time.elim (fun f => .inl (e.trans f)) fun f => .inr (e.trans f)) .inr,
   fun x => g.stores (h.stores x), fun x => g.boot (h.boot x), fun x => g.rails (h.rails x)⟩

theorem Keeps.ite {s t u : State} {p : Prop} [Decidable p] (a : p → Keeps s t) (b : ¬p → Keeps s u) :
    Keeps s (if p then t else u) := by
  split
  · exact a ‹_›
  · exact b ‹_›

theorem Keeps.dite {s : State} {p : Prop} [Decidable p] {f : p → State} {g : ¬p → State} (a : ∀ h, Keeps s (f h))
    (b : ∀ h, Keeps s (g h)) : Keeps s (dite p f g) := by
  split
  · exact a ‹_›
  · exact b ‹_›

theorem Keeps.foldl {α : Type} {s : State} {f : State → α → State} {l : List α} {t : State} (h : Keeps s t)
    (step : ∀ u x, Keeps s u → Keeps s (f u x)) : Keeps s (l.foldl f t) := by
  induction l generalizing t with
  | nil => exact h
  | cons x l ih => exact ih (step t x h)

theorem Keeps.foldr {α : Type} {s : State} {f : α → State → State} {l : List α} {t : State} (h : Keeps s t)
    (step : ∀ u x, Keeps s u → Keeps s (f x u)) : Keeps s (l.foldr f t) := by
  induction l with
  | nil => exact h
  | cons x l ih => exact step _ x ih

theorem Keeps.foldl_fst {α β : Type} {s : State} {f : State × β → α → State × β} {l : List α} {p : State × β}
    (h : Keeps s p.1) (step : ∀ q x, Keeps s q.1 → Keeps s (f q x).1) : Keeps s (l.foldl f p).1 := by
  induction l generalizing p with
  | nil => exact h
  | cons x l ih => exact ih (step p x h)

theorem Keeps.foldl_snd {α β : Type} {s : State} {f : β × State → α → β × State} {l : List α} {p : β × State}
    (h : Keeps s p.2) (step : ∀ q x, Keeps s q.2 → Keeps s (f q x).2) : Keeps s (l.foldl f p).2 := by
  induction l generalizing p with
  | nil => exact h
  | cons x l ih => exact ih (step p x h)

theorem Keeps.foldl_map_fst {α β γ : Type} {s : State} {f : State × β → α → State × β} {g : γ → α} {l : List γ} {p : State × β}
    (h : Keeps s p.1) (step : ∀ q x, Keeps s q.1 → Keeps s (f q (g x)).1) : Keeps s ((l.map g).foldl f p).1 := by
  rw [List.foldl_map]; exact Keeps.foldl_fst h step

/-! ## Sparse tables -/

theorem twfFrom_mono {α : Type} [DecidableEq α] {d : α} {a b : Nat} {t : Tab α} (h : twfFrom d b t = true) (ab : a ≤ b) :
    twfFrom d a t = true := by
  cases t with
  | nil => rfl
  | cons e t =>
    simp only [twfFrom, Bool.and_eq_true, decide_eq_true_eq] at h ⊢
    exact ⟨⟨Nat.le_trans ab h.1.1, h.1.2⟩, h.2⟩

theorem tput_wfFrom {α : Type} [DecidableEq α] {d : α} {t : Tab α} {lo i : Nat} {x : α} (h : twfFrom d lo t = true)
    (li : lo ≤ i) : twfFrom d lo (tput d t i x) = true := by
  induction t generalizing lo with
  | nil =>
    simp only [tput]
    split <;> simp_all [twfFrom]
  | cons e t ih =>
    obtain ⟨k, v⟩ := e
    simp only [twfFrom, Bool.and_eq_true, decide_eq_true_eq] at h
    obtain ⟨⟨h1, h2⟩, h3⟩ := h
    simp only [tput]
    split
    · split
      · simp [twfFrom, h1, h2, h3]
      · rename_i hik hx
        simp [twfFrom, h2, h3, li, hx]
        omega
    · split
      · split
        · exact twfFrom_mono h3 (by omega)
        · rename_i _ hik hx
          subst hik
          simp [twfFrom, li, hx, h3]
      · rename_i h4 h5
        simp only [twfFrom, Bool.and_eq_true, decide_eq_true_eq]
        exact ⟨⟨h1, h2⟩, ih h3 (by omega)⟩

/-- Writing keeps the canonical form. -/
theorem tput_wf {α : Type} [DecidableEq α] {d : α} {t : Tab α} {i : Nat} {x : α} (h : twf d t = true) :
    twf d (tput d t i x) = true := tput_wfFrom h (Nat.zero_le _)

theorem tdrop_wfFrom {α : Type} [DecidableEq α] {d : α} {p : Nat → Bool} {t : Tab α} {lo : Nat} (h : twfFrom d lo t = true) :
    twfFrom d lo (tdrop p t) = true := by
  induction t generalizing lo with
  | nil => rfl
  | cons e t ih =>
    obtain ⟨k, v⟩ := e
    simp only [twfFrom, Bool.and_eq_true, decide_eq_true_eq] at h
    obtain ⟨⟨h1, h2⟩, h3⟩ := h
    simp only [tdrop, List.filter_cons]
    split
    · simp only [twfFrom, Bool.and_eq_true, decide_eq_true_eq]
      exact ⟨⟨h1, h2⟩, ih h3⟩
    · exact twfFrom_mono (ih h3) (by omega)

/-- Dropping entries keeps the canonical form. -/
theorem tdrop_wf {α : Type} [DecidableEq α] {d : α} {p : Nat → Bool} {t : Tab α} (h : twf d t = true) :
    twf d (tdrop p t) = true := tdrop_wfFrom h

theorem tget_none {α : Type} [DecidableEq α] {d : α} {t : Tab α} {lo i : Nat} (h : twfFrom d lo t = true) (hi : i < lo) :
    tget d t i = d := by
  cases t with
  | nil => rfl
  | cons e t =>
    simp only [twfFrom, Bool.and_eq_true, decide_eq_true_eq] at h
    simp only [tget]
    rw [if_neg (by omega), if_pos (by omega)]

theorem tget_tput_from {α : Type} [DecidableEq α] {d : α} {t : Tab α} {lo i j : Nat} {x : α} (h : twfFrom d lo t = true) :
    tget d (tput d t i x) j = if j = i then x else tget d t j := by
  induction t generalizing lo with
  | nil =>
    simp only [tput]
    split
    · simp_all [tget]
    · simp only [tget]
      split <;> simp
  | cons e t ih =>
    obtain ⟨k, v⟩ := e
    simp only [twfFrom, Bool.and_eq_true, decide_eq_true_eq] at h
    obtain ⟨⟨h1, h2⟩, h3⟩ := h
    simp only [tput]
    by_cases c1 : i < k
    · rw [if_pos c1]
      by_cases hx : x = d
      · rw [if_pos hx]
        by_cases hj : j = i
        · subst hj; subst hx
          simp only [tget, if_true]
          rw [if_neg (by omega), if_pos c1]
        · rw [if_neg hj]
      · rw [if_neg hx]
        by_cases hj : j = i
        · subst hj; simp [tget]
        · rw [if_neg hj]
          by_cases c : j < i
          · simp only [tget]
            rw [if_neg hj, if_pos c, if_neg (by omega), if_pos (by omega)]
          · conv => lhs; unfold tget
            rw [if_neg hj, if_neg c]
    · rw [if_neg c1]
      by_cases c2 : i = k
      · subst c2
        rw [if_pos rfl]
        by_cases hx : x = d
        · rw [if_pos hx]
          by_cases hj : j = i
          · subst hj; subst hx
            rw [if_pos rfl, tget_none h3 (by omega)]
          · rw [if_neg hj]
            simp only [tget]
            rw [if_neg hj]
            split
            · rw [tget_none h3 (by omega)]
            · rfl
        · rw [if_neg hx]
          by_cases hj : j = i
          · subst hj; simp [tget]
          · rw [if_neg hj]
            simp only [tget]
            rw [if_neg hj, if_neg hj]
      · rw [if_neg c2]
        simp only [tget]
        by_cases c3 : j = k
        · subst c3
          rw [if_pos rfl, if_neg (Ne.symm c2), if_pos rfl]
        · rw [if_neg c3, if_neg c3]
          by_cases c4 : j < k
          · rw [if_pos c4, if_pos c4, if_neg (by omega)]
          · rw [if_neg c4, if_neg c4, ih h3]

/-- Reading after writing, in a table of canonical form. -/
theorem tget_tput {α : Type} [DecidableEq α] {d : α} {t : Tab α} {i j : Nat} {x : α} (h : twf d t = true) :
    tget d (tput d t i x) j = if j = i then x else tget d t j := tget_tput_from h

/-- Changing or dropping entries keeps the canonical form where no entry becomes the default. -/
theorem tmap_wfFrom {α : Type} [DecidableEq α] {d : α} {f : Nat × α → Option (Nat × α)} {t : Tab α} {lo : Nat}
    (hf : ∀ e x, e.2 ≠ d → f e = some x → x.1 = e.1 ∧ x.2 ≠ d) (h : twfFrom d lo t = true) :
    twfFrom d lo (t.filterMap f) = true := by
  induction t generalizing lo with
  | nil => rfl
  | cons e t ih =>
    obtain ⟨k, v⟩ := e
    simp only [twfFrom, Bool.and_eq_true, decide_eq_true_eq] at h
    obtain ⟨⟨h1, h2⟩, h3⟩ := h
    rw [List.filterMap_cons]
    split
    · exact twfFrom_mono (ih h3) (by omega)
    · rename_i x e
      obtain ⟨x1, x2⟩ := x
      obtain ⟨g1, g2⟩ := hf _ _ h2 e
      simp only at g1 g2
      subst g1
      simp only [twfFrom, Bool.and_eq_true, decide_eq_true_eq]
      exact ⟨⟨h1, g2⟩, ih h3⟩

theorem tmap_wf {α : Type} [DecidableEq α] {d : α} {f : Nat × α → Option (Nat × α)} {t : Tab α}
    (hf : ∀ e x, e.2 ≠ d → f e = some x → x.1 = e.1 ∧ x.2 ≠ d) (h : twf d t = true) : twf d (t.filterMap f) = true :=
  tmap_wfFrom hf h

theorem twf_append {α : Type} [DecidableEq α] {d : α} {a b : Tab α} {lo hi : Nat} (h : twfFrom d lo a = true)
    (g : twfFrom d hi b = true) (lh : lo ≤ hi) (ha : ∀ e ∈ a, e.1 < hi) : twfFrom d lo (a ++ b) = true := by
  induction a generalizing lo with
  | nil => exact twfFrom_mono g lh
  | cons e t ih =>
    obtain ⟨k, v⟩ := e
    simp only [twfFrom, Bool.and_eq_true, decide_eq_true_eq] at h
    obtain ⟨⟨h1, h2⟩, h3⟩ := h
    simp only [List.cons_append, twfFrom, Bool.and_eq_true, decide_eq_true_eq]
    have hk : k < hi := ha (k, v) (List.mem_cons_self ..)
    exact ⟨⟨h1, h2⟩, ih h3 hk fun e he => ha e (List.mem_cons_of_mem _ he)⟩

/-- Keeping entries keeps the canonical form. -/
theorem tfilter_wf {α : Type} [DecidableEq α] {d : α} {p : Nat × α → Bool} {t : Tab α} {lo : Nat} (h : twfFrom d lo t = true) :
    twfFrom d lo (t.filter p) = true := by
  rw [← List.filterMap_eq_filter]
  refine tmap_wfFrom (fun e x he hx => ?_) h
  simp only [Option.guard_apply, Option.ite_none_right_eq_some, Option.some.injEq] at hx
  obtain ⟨_, rfl⟩ := hx
  exact ⟨rfl, he⟩

theorem tfilter_lo {α : Type} [DecidableEq α] {d : α} {t : Tab α} {lo b : Nat} (h : twfFrom d lo t = true) :
    twfFrom d b (t.filter fun x => decide (b ≤ x.1)) = true := by
  induction t generalizing lo with
  | nil => rfl
  | cons e t ih =>
    obtain ⟨k, v⟩ := e
    simp only [twfFrom, Bool.and_eq_true, decide_eq_true_eq] at h
    obtain ⟨⟨h1, h2⟩, h3⟩ := h
    rw [List.filter_cons]
    split
    · rename_i hb
      simp only [decide_eq_true_eq] at hb
      simp only [twfFrom, Bool.and_eq_true, decide_eq_true_eq]
      exact ⟨⟨hb, h2⟩, tfilter_wf h3⟩
    · exact ih h3

/-- Values changed inside options keep the canonical form over none. -/
theorem optmap_wf {α : Type} [DecidableEq α] {f : α → α} {t : Tab (Option α)} {lo : Nat} (h : twfFrom none lo t = true) :
    twfFrom none lo (t.map fun e => (e.1, e.2.map f)) = true := by
  induction t generalizing lo with
  | nil => rfl
  | cons e t ih =>
    obtain ⟨k, v⟩ := e
    simp only [twfFrom, List.map_cons, Bool.and_eq_true, decide_eq_true_eq] at h ⊢
    refine ⟨⟨h.1.1, fun hv => h.1.2 (Option.map_eq_none_iff.mp hv)⟩, ih h.2⟩

/-- Values numbered from b + i, the zero ones left out. -/
theorem numbered_wf {n : Nat} {b : Nat} : ∀ {w i m : Nat} {vs : List (BitVec n)}, b + i = m →
    twfFrom 0 m (((List.range' i w).zip vs).filterMap fun p => if p.2 = 0 then none else some (b + p.1, p.2)) = true ∧
    ∀ e ∈ (((List.range' i w).zip vs).filterMap fun p => if p.2 = 0 then none else some (b + p.1, p.2)), e.1 < m + w := by
  intro w
  induction w with
  | zero => intro i m vs _; exact ⟨rfl, fun e he => nomatch he⟩
  | succ w ih =>
    intro i m vs hm
    cases vs with
    | nil => rw [List.zip_nil_right]; exact ⟨rfl, fun e he => nomatch he⟩
    | cons v vs =>
      obtain ⟨h1, h2⟩ := ih (i := i + 1) (m := m + 1) (vs := vs) (by omega)
      rw [List.range'_succ, List.zip_cons_cons, List.filterMap_cons]
      split
      · exact ⟨twfFrom_mono h1 (by omega), fun e he => by have := h2 e he; omega⟩
      · rename_i x hx
        split at hx
        · cases hx
        · rename_i hv
          cases hx
          refine ⟨?_, fun e he => ?_⟩
          · simp only [twfFrom, Bool.and_eq_true, decide_eq_true_eq]
            refine ⟨⟨by omega, hv⟩, ?_⟩
            rw [show b + i + 1 = m + 1 by omega]
            exact h1
          · cases he with
            | head => show b + i < m + (w + 1); omega
            | tail _ he => have := h2 e he; omega

/-- n cells from b replaced. -/
theorem cells_wf {k n b : Nat} {t : Tab (BitVec k)} {vs : List (BitVec k)} (h : twf 0 t = true) :
    twf 0 (t.filter (fun x => decide (x.1 < b)) ++
      (((List.range n).zip vs).filterMap fun p => if p.2 = 0 then none else some (b + p.1, p.2)) ++
      t.filter (fun x => decide (b + n ≤ x.1))) = true := by
  rw [List.range_eq_range']
  obtain ⟨h1, h2⟩ := numbered_wf (n := k) (b := b) (w := n) (i := 0) (m := b) (vs := vs) rfl
  refine twf_append (hi := b + n) ?_ (tfilter_lo h) (Nat.zero_le _) ?_
  · refine twf_append (hi := b) (tfilter_wf h) h1 (Nat.zero_le _) fun e he => ?_
    have := (List.mem_filter.mp he).2
    simpa using this
  · intro e he
    rcases List.mem_append.mp he with he | he
    · have := (List.mem_filter.mp he).2
      simp only [decide_eq_true_eq] at this
      omega
    · exact h2 e he

/-! ## Stored registers -/

theorem regsWf_mono {gr : Config.Grade} {a b : Nat} {t : Tab Word} (h : regsWfFrom gr b t = true) (ab : a ≤ b) :
    regsWfFrom gr a t = true := by
  cases t with
  | nil => rfl
  | cons e t =>
    simp only [regsWfFrom, Bool.and_eq_true, decide_eq_true_eq] at h ⊢
    exact ⟨⟨Nat.le_trans ab h.1.1, h.1.2⟩, h.2⟩

theorem rput_wfFrom {gr : Config.Grade} {t : Tab Word} {lo i : Nat} {x : Word} (h : regsWfFrom gr lo t = true) (li : lo ≤ i) :
    regsWfFrom gr lo (tput (regReset gr i) t i x) = true := by
  induction t generalizing lo with
  | nil =>
    simp only [tput]
    split <;> simp_all [regsWfFrom]
  | cons e t ih =>
    obtain ⟨k, v⟩ := e
    simp only [regsWfFrom, Bool.and_eq_true, decide_eq_true_eq] at h
    obtain ⟨⟨h1, h2⟩, h3⟩ := h
    simp only [tput]
    split
    · split
      · simp [regsWfFrom, h1, h2, h3]
      · rename_i hik hx
        simp [regsWfFrom, h2, h3, li, hx]
        omega
    · split
      · split
        · exact regsWf_mono h3 (by omega)
        · rename_i _ hik hx
          subst hik
          simp [regsWfFrom, li, hx, h3]
      · rename_i h4 h5
        simp only [regsWfFrom, Bool.and_eq_true, decide_eq_true_eq]
        exact ⟨⟨h1, h2⟩, ih h3 (by omega)⟩

theorem rdrop_wfFrom {gr : Config.Grade} {p : Nat → Bool} {t : Tab Word} {lo : Nat} (h : regsWfFrom gr lo t = true) :
    regsWfFrom gr lo (tdrop p t) = true := by
  induction t generalizing lo with
  | nil => rfl
  | cons e t ih =>
    obtain ⟨k, v⟩ := e
    simp only [regsWfFrom, Bool.and_eq_true, decide_eq_true_eq] at h
    obtain ⟨⟨h1, h2⟩, h3⟩ := h
    simp only [tdrop, List.filter_cons]
    split
    · simp only [regsWfFrom, Bool.and_eq_true, decide_eq_true_eq]
      exact ⟨⟨h1, h2⟩, ih h3⟩
    · exact regsWf_mono (ih h3) (by omega)

theorem lset_length {α : Type} {l : List α} {i : Nat} {x : α} : (lset l i x).length = l.length := by
  induction l generalizing i with
  | nil => rfl
  | cons y t ih =>
    cases i with
    | zero => rfl
    | succ n => simp [lset, ih]

theorem foldl_tput_wf {α β : Type} [DecidableEq α] {d : α} {k : β → Nat} {v : β → α} {l : List β} {t : Tab α}
    (h : twf d t = true) : twf d (l.foldl (fun m e => tput d m (k e) (v e)) t) = true := by
  induction l generalizing t with
  | nil => exact h
  | cons e l ih => exact ih (tput_wf h)

/-! ## Record updates -/

section
variable {s x : State}
variable {remaps_ : List Nat}
  {devid_ : Nat}
  {parAcc_ : List Nat}
  {parX_ : List Nat}
  {parNbu_ : List Nat}
  {encBad_ : List Nat}
  {nextLaunch_ : Nat}
  {seq_ : Nat}
  {srv_ : Srv}
  {keys_ : Keys}
  {ecc_ : Ecc}
  {hif_ : Hif}
  {folds_ : Folds}
  {fab_ : Fab}
  {trust_ : Trust}
  {power_ : Power}
  {msix_ : List MsixMsg}
  {mgtOut_ : List MgtMsg}
  {hostAns_ : List HostAns}
  {hostOut_ : List HostWr}
  {fabOut_ : List Msg}
  {puts_ : List PutB}
  {asks_ : List Ask}
  {nextAsk_ : Nat}
  {free_ : Nat}
  {epoch_ : Nat}
  {lost_ : Tab Nat}

/-- An update of other fields. -/
theorem Keeps.mk_upd (h : Keeps s x) :
    Keeps s (State.mk x.grade x.badCores x.fwRanges remaps_ devid_ x.time x.regs x.mem x.errs x.gerrs x.flags x.tallies x.acc x.accTy parAcc_ parX_ parNbu_ encBad_ x.ctxs x.ars x.xs x.cores x.rings x.chans x.nbus x.launches nextLaunch_ seq_ x.stks x.boot srv_ keys_ x.crk ecc_ hif_ folds_ fab_ trust_ power_ x.life msix_ mgtOut_ hostAns_ hostOut_ fabOut_ puts_ asks_ nextAsk_ free_ epoch_ lost_ x.pending) :=
  ⟨h.pending, h.grade, h.badCores, h.fwRanges, h.log, h.time, fun w => { h.stores w with }, h.boot, h.rails⟩

/-- An update that also changes `boot`. -/
theorem Keeps.mk_boot {b : Boot} (h : Keeps s x) (hb : x.boot.state ≤ 4 → b.state ≤ 4)
    (hr : x.boot.rails.length = 5 → b.rails.length = 5) :
    Keeps s (State.mk x.grade x.badCores x.fwRanges remaps_ devid_ x.time x.regs x.mem x.errs x.gerrs x.flags x.tallies x.acc x.accTy parAcc_ parX_ parNbu_ encBad_ x.ctxs x.ars x.xs x.cores x.rings x.chans x.nbus x.launches nextLaunch_ seq_ x.stks b srv_ keys_ x.crk ecc_ hif_ folds_ fab_ trust_ power_ x.life msix_ mgtOut_ hostAns_ hostOut_ fabOut_ puts_ asks_ nextAsk_ free_ epoch_ lost_ x.pending) :=
  ⟨h.pending, h.grade, h.badCores, h.fwRanges, h.log, h.time, fun w => { h.stores w with }, fun w => hb (h.boot w),
   fun w => hr (h.rails w)⟩

/-- An update that also changes the life log. -/
theorem Keeps.mk_life {l : Life} (h : Keeps s x) (hl : LogKept x.life l) :
    Keeps s (State.mk x.grade x.badCores x.fwRanges remaps_ devid_ x.time x.regs x.mem x.errs x.gerrs x.flags x.tallies x.acc x.accTy parAcc_ parX_ parNbu_ encBad_ x.ctxs x.ars x.xs x.cores x.rings x.chans x.nbus x.launches nextLaunch_ seq_ x.stks x.boot srv_ keys_ x.crk ecc_ hif_ folds_ fab_ trust_ power_ l msix_ mgtOut_ hostAns_ hostOut_ fabOut_ puts_ asks_ nextAsk_ free_ epoch_ lost_ x.pending) :=
  ⟨h.pending, h.grade, h.badCores, h.fwRanges, h.log.trans hl, h.time, fun w => { h.stores w with }, h.boot, h.rails⟩

/-- An update that also changes sparse stores, each to one of canonical form. -/
theorem Keeps.mk_stores {mem' : List Host.Cell} {errs' : Tab (BitVec 288)} {gerrs' : Tab (BitVec 72)} {regs' : Tab Word} {flags' : Tab (BitVec 16)} {tallies' : Tab (BitVec 48)} {acc' : Tab (BitVec 48)} {accTy' : Tab AccTy} {ctxs' : Tab QCtx} {ars' : Tab AReg} {xs' : Tab Word} {cores' : Tab CoreSt} {rings' : Tab RingSt} {chans' : Tab Chan} {nbus' : Tab Nbu} {launches' : Tab (Option Launch)} {stks' : Tab Stack} {crk' : Tab Nat}
    (h : Keeps s x) (hw : StoresWf x → StoresWf (State.mk x.grade x.badCores x.fwRanges remaps_ devid_ x.time regs' mem' errs' gerrs' flags' tallies' acc' accTy' parAcc_ parX_ parNbu_ encBad_ ctxs' ars' xs' cores' rings' chans' nbus' launches' nextLaunch_ seq_ stks' x.boot srv_ keys_ crk' ecc_ hif_ folds_ fab_ trust_ power_ x.life msix_ mgtOut_ hostAns_ hostOut_ fabOut_ puts_ asks_ nextAsk_ free_ epoch_ lost_ x.pending)) :
    Keeps s (State.mk x.grade x.badCores x.fwRanges remaps_ devid_ x.time regs' mem' errs' gerrs' flags' tallies' acc' accTy' parAcc_ parX_ parNbu_ encBad_ ctxs' ars' xs' cores' rings' chans' nbus' launches' nextLaunch_ seq_ stks' x.boot srv_ keys_ crk' ecc_ hif_ folds_ fab_ trust_ power_ x.life msix_ mgtOut_ hostAns_ hostOut_ fabOut_ puts_ asks_ nextAsk_ free_ epoch_ lost_ x.pending) :=
  ⟨h.pending, h.grade, h.badCores, h.fwRanges, h.log, h.time, fun w => hw (h.stores w), h.boot, h.rails⟩

/-! One entry of a store replaced, and other fields updated. -/

theorem Keeps.put_errs {i : Nat} {v : BitVec 288} (h : Keeps s x) :
    Keeps s (State.mk x.grade x.badCores x.fwRanges remaps_ devid_ x.time x.regs x.mem (tput 0 x.errs i v) x.gerrs x.flags x.tallies x.acc x.accTy parAcc_ parX_ parNbu_ encBad_ x.ctxs x.ars x.xs x.cores x.rings x.chans x.nbus x.launches nextLaunch_ seq_ x.stks x.boot srv_ keys_ x.crk ecc_ hif_ folds_ fab_ trust_ power_ x.life msix_ mgtOut_ hostAns_ hostOut_ fabOut_ puts_ asks_ nextAsk_ free_ epoch_ lost_ x.pending) :=
  Keeps.mk_stores h fun w => { w with errs := tput_wf w.errs }

theorem Keeps.put_gerrs {i : Nat} {v : BitVec 72} (h : Keeps s x) :
    Keeps s (State.mk x.grade x.badCores x.fwRanges remaps_ devid_ x.time x.regs x.mem x.errs (tput 0 x.gerrs i v) x.flags x.tallies x.acc x.accTy parAcc_ parX_ parNbu_ encBad_ x.ctxs x.ars x.xs x.cores x.rings x.chans x.nbus x.launches nextLaunch_ seq_ x.stks x.boot srv_ keys_ x.crk ecc_ hif_ folds_ fab_ trust_ power_ x.life msix_ mgtOut_ hostAns_ hostOut_ fabOut_ puts_ asks_ nextAsk_ free_ epoch_ lost_ x.pending) :=
  Keeps.mk_stores h fun w => { w with gerrs := tput_wf w.gerrs }

theorem Keeps.put_ctxs {i : Nat} {v : QCtx} (h : Keeps s x) :
    Keeps s (State.mk x.grade x.badCores x.fwRanges remaps_ devid_ x.time x.regs x.mem x.errs x.gerrs x.flags x.tallies x.acc x.accTy parAcc_ parX_ parNbu_ encBad_ (tput {} x.ctxs i v) x.ars x.xs x.cores x.rings x.chans x.nbus x.launches nextLaunch_ seq_ x.stks x.boot srv_ keys_ x.crk ecc_ hif_ folds_ fab_ trust_ power_ x.life msix_ mgtOut_ hostAns_ hostOut_ fabOut_ puts_ asks_ nextAsk_ free_ epoch_ lost_ x.pending) :=
  Keeps.mk_stores h fun w => { w with ctxs := tput_wf w.ctxs }

theorem Keeps.put_ars {i : Nat} {v : AReg} (h : Keeps s x) :
    Keeps s (State.mk x.grade x.badCores x.fwRanges remaps_ devid_ x.time x.regs x.mem x.errs x.gerrs x.flags x.tallies x.acc x.accTy parAcc_ parX_ parNbu_ encBad_ x.ctxs (tput {} x.ars i v) x.xs x.cores x.rings x.chans x.nbus x.launches nextLaunch_ seq_ x.stks x.boot srv_ keys_ x.crk ecc_ hif_ folds_ fab_ trust_ power_ x.life msix_ mgtOut_ hostAns_ hostOut_ fabOut_ puts_ asks_ nextAsk_ free_ epoch_ lost_ x.pending) :=
  Keeps.mk_stores h fun w => { w with ars := tput_wf w.ars }

theorem Keeps.put_cores {i : Nat} {v : CoreSt} (h : Keeps s x) :
    Keeps s (State.mk x.grade x.badCores x.fwRanges remaps_ devid_ x.time x.regs x.mem x.errs x.gerrs x.flags x.tallies x.acc x.accTy parAcc_ parX_ parNbu_ encBad_ x.ctxs x.ars x.xs (tput {} x.cores i v) x.rings x.chans x.nbus x.launches nextLaunch_ seq_ x.stks x.boot srv_ keys_ x.crk ecc_ hif_ folds_ fab_ trust_ power_ x.life msix_ mgtOut_ hostAns_ hostOut_ fabOut_ puts_ asks_ nextAsk_ free_ epoch_ lost_ x.pending) :=
  Keeps.mk_stores h fun w => { w with cores := tput_wf w.cores }

theorem Keeps.put_rings {i : Nat} {v : RingSt} (h : Keeps s x) :
    Keeps s (State.mk x.grade x.badCores x.fwRanges remaps_ devid_ x.time x.regs x.mem x.errs x.gerrs x.flags x.tallies x.acc x.accTy parAcc_ parX_ parNbu_ encBad_ x.ctxs x.ars x.xs x.cores (tput {} x.rings i v) x.chans x.nbus x.launches nextLaunch_ seq_ x.stks x.boot srv_ keys_ x.crk ecc_ hif_ folds_ fab_ trust_ power_ x.life msix_ mgtOut_ hostAns_ hostOut_ fabOut_ puts_ asks_ nextAsk_ free_ epoch_ lost_ x.pending) :=
  Keeps.mk_stores h fun w => { w with rings := tput_wf w.rings }

theorem Keeps.put_chans {i : Nat} {v : Chan} (h : Keeps s x) :
    Keeps s (State.mk x.grade x.badCores x.fwRanges remaps_ devid_ x.time x.regs x.mem x.errs x.gerrs x.flags x.tallies x.acc x.accTy parAcc_ parX_ parNbu_ encBad_ x.ctxs x.ars x.xs x.cores x.rings (tput {} x.chans i v) x.nbus x.launches nextLaunch_ seq_ x.stks x.boot srv_ keys_ x.crk ecc_ hif_ folds_ fab_ trust_ power_ x.life msix_ mgtOut_ hostAns_ hostOut_ fabOut_ puts_ asks_ nextAsk_ free_ epoch_ lost_ x.pending) :=
  Keeps.mk_stores h fun w => { w with chans := tput_wf w.chans }

theorem Keeps.put_nbus {i : Nat} {v : Nbu} (h : Keeps s x) :
    Keeps s (State.mk x.grade x.badCores x.fwRanges remaps_ devid_ x.time x.regs x.mem x.errs x.gerrs x.flags x.tallies x.acc x.accTy parAcc_ parX_ parNbu_ encBad_ x.ctxs x.ars x.xs x.cores x.rings x.chans (tput {} x.nbus i v) x.launches nextLaunch_ seq_ x.stks x.boot srv_ keys_ x.crk ecc_ hif_ folds_ fab_ trust_ power_ x.life msix_ mgtOut_ hostAns_ hostOut_ fabOut_ puts_ asks_ nextAsk_ free_ epoch_ lost_ x.pending) :=
  Keeps.mk_stores h fun w => { w with nbus := tput_wf w.nbus }

theorem Keeps.put_launches {i : Nat} {v : Option Launch} (h : Keeps s x) :
    Keeps s (State.mk x.grade x.badCores x.fwRanges remaps_ devid_ x.time x.regs x.mem x.errs x.gerrs x.flags x.tallies x.acc x.accTy parAcc_ parX_ parNbu_ encBad_ x.ctxs x.ars x.xs x.cores x.rings x.chans x.nbus (tput none x.launches i v) nextLaunch_ seq_ x.stks x.boot srv_ keys_ x.crk ecc_ hif_ folds_ fab_ trust_ power_ x.life msix_ mgtOut_ hostAns_ hostOut_ fabOut_ puts_ asks_ nextAsk_ free_ epoch_ lost_ x.pending) :=
  Keeps.mk_stores h fun w => { w with launches := tput_wf w.launches }

theorem Keeps.put_stks {i : Nat} {v : Stack} (h : Keeps s x) :
    Keeps s (State.mk x.grade x.badCores x.fwRanges remaps_ devid_ x.time x.regs x.mem x.errs x.gerrs x.flags x.tallies x.acc x.accTy parAcc_ parX_ parNbu_ encBad_ x.ctxs x.ars x.xs x.cores x.rings x.chans x.nbus x.launches nextLaunch_ seq_ (tput {} x.stks i v) x.boot srv_ keys_ x.crk ecc_ hif_ folds_ fab_ trust_ power_ x.life msix_ mgtOut_ hostAns_ hostOut_ fabOut_ puts_ asks_ nextAsk_ free_ epoch_ lost_ x.pending) :=
  Keeps.mk_stores h fun w => { w with stks := tput_wf w.stks }

theorem Keeps.put_crk {i : Nat} {v : Nat} (h : Keeps s x) :
    Keeps s (State.mk x.grade x.badCores x.fwRanges remaps_ devid_ x.time x.regs x.mem x.errs x.gerrs x.flags x.tallies x.acc x.accTy parAcc_ parX_ parNbu_ encBad_ x.ctxs x.ars x.xs x.cores x.rings x.chans x.nbus x.launches nextLaunch_ seq_ x.stks x.boot srv_ keys_ (tput 0 x.crk i v) ecc_ hif_ folds_ fab_ trust_ power_ x.life msix_ mgtOut_ hostAns_ hostOut_ fabOut_ puts_ asks_ nextAsk_ free_ epoch_ lost_ x.pending) :=
  Keeps.mk_stores h fun w => { w with crk := tput_wf w.crk }

end

/-! ## Answers that carry a state -/

/-- The state of a read's answer. -/
def Got.st {α : Type} : Got α → State
  | .bad s _ => s
  | .held s => s
  | .ok s _ => s

theorem Keeps.bad {α : Type} {s t : State} {n : Nat} {g : Got α} (e : g = .bad t n) (h : Keeps s g.st) : Keeps s t := by
  subst e; exact h

theorem Keeps.held {α : Type} {s t : State} {g : Got α} (e : g = .held t) (h : Keeps s g.st) : Keeps s t := by
  subst e; exact h

theorem Keeps.ok {α : Type} {s t : State} {v : α} {g : Got α} (e : g = .ok t v) (h : Keeps s g.st) : Keeps s t := by
  subst e; exact h

theorem Keeps.got_bind {α β : Type} {s : State} {g : Got α} {f : State → α → Got β} (h : Keeps s g.st)
    (k : ∀ t v, Keeps s t → Keeps s (f t v).st) : Keeps s (g.bind f).st := by
  cases g with
  | bad t n => exact h
  | held t => exact h
  | ok t v => exact k t v h

theorem Keeps.foldl_got {α β : Type} {s : State} {f : Got β → α → Got β} {l : List α} {g : Got β} (h : Keeps s g.st)
    (step : ∀ q x, Keeps s q.st → Keeps s (f q x).st) : Keeps s (l.foldl f g).st := by
  induction l generalizing g with
  | nil => exact h
  | cons x l ih => exact ih (step g x h)

theorem Keeps.got_ite {α : Type} {s : State} {p : Prop} [Decidable p] {a b : Got α} (ha : p → Keeps s a.st)
    (hb : ¬p → Keeps s b.st) : Keeps s (if p then a else b).st := by
  split
  · exact ha ‹_›
  · exact hb ‹_›

theorem Keeps.got_guard {s t : State} {b : Bool} {n : Nat} (h : Keeps s t) : Keeps s (Got.guard t b n).st := by
  unfold Got.guard; split <;> exact h

theorem Keeps.fst {α : Type} {s t : State} {v : α} {p : State × α} (e : p = (t, v)) (h : Keeps s p.1) : Keeps s t := by
  subst e; exact h

theorem Keeps.snd {α : Type} {s t : State} {v : α} {p : α × State} (e : p = (v, t)) (h : Keeps s p.2) : Keeps s t := by
  subst e; exact h

theorem Keeps.ite_fst {α : Type} {s : State} {p : Prop} [Decidable p] {a b : State × α} (ha : p → Keeps s a.1)
    (hb : ¬p → Keeps s b.1) : Keeps s (if p then a else b).1 := by
  split
  · exact ha ‹_›
  · exact hb ‹_›

theorem Keeps.ite_snd {α : Type} {s : State} {p : Prop} [Decidable p] {a b : α × State} (ha : p → Keeps s a.2)
    (hb : ¬p → Keeps s b.2) : Keeps s (if p then a else b).2 := by
  split
  · exact ha ‹_›
  · exact hb ‹_›

/-- The state of a repeat's answer. -/
def RepOut.st : RepOut → State
  | .done s _ => s
  | .fault s _ _ => s
  | .wait s => s
  | .more s => s
  | .void s => s

theorem Keeps.rep_ite {s : State} {p : Prop} [Decidable p] {a b : RepOut} (ha : p → Keeps s a.st) (hb : ¬p → Keeps s b.st) :
    Keeps s (if p then a else b).st := by
  split
  · exact ha ‹_›
  · exact hb ‹_›

theorem Keeps.rep_done {s t : State} {n : Nat} {g : RepOut} (e : g = .done t n) (h : Keeps s g.st) : Keeps s t := by
  subst e; exact h

theorem Keeps.rep_fault {s t : State} {n m : Nat} {g : RepOut} (e : g = .fault t n m) (h : Keeps s g.st) : Keeps s t := by
  subst e; exact h

theorem Keeps.rep_wait {s t : State} {g : RepOut} (e : g = .wait t) (h : Keeps s g.st) : Keeps s t := by
  subst e; exact h

theorem Keeps.rep_more {s t : State} {g : RepOut} (e : g = .more t) (h : Keeps s g.st) : Keeps s t := by
  subst e; exact h

theorem Keeps.rep_void {s t : State} {g : RepOut} (e : g = .void t) (h : Keeps s g.st) : Keeps s t := by
  subst e; exact h

/-- Where a meaning answers a next state, it keeps what Keeps says. -/
structure KeepsOut (s : State) (o : Out State) : Prop where
  out : ∀ t, o = .next t → Keeps s t

theorem KeepsOut.next {s t : State} (h : Keeps s t) : KeepsOut s (.next t) := ⟨fun u e => by cases e; exact h⟩

theorem KeepsOut.fault {s : State} {f : Fault} : KeepsOut s (.fault f) := ⟨fun _ e => nomatch e⟩

theorem KeepsOut.refused {s : State} {r : Refusal} : KeepsOut s (.refused r) := ⟨fun _ e => nomatch e⟩

theorem KeepsOut.ite {s : State} {p : Prop} [Decidable p] {a b : Out State} (ha : p → KeepsOut s a) (hb : ¬p → KeepsOut s b) :
    KeepsOut s (if p then a else b) := by
  split
  · exact ha ‹_›
  · exact hb ‹_›

/-- A service command's answer: its state, and what it does where it is accepted. -/
def KeepsSvc (s : State) : SvcOut → Prop
  | .done t _ _ => Keeps s t
  | .accept t go => Keeps s t ∧ ∀ u n, Keeps s u → Keeps s (go u n)
  | .wait t => Keeps s t

theorem KeepsSvc.ite {s : State} {p : Prop} [Decidable p] {a b : SvcOut} (ha : p → KeepsSvc s a) (hb : ¬p → KeepsSvc s b) :
    KeepsSvc s (if p then a else b) := by
  split
  · exact ha ‹_›
  · exact hb ‹_›

theorem KeepsSvc.done {s t : State} {n m : Nat} {g : SvcOut} (e : g = .done t n m) (h : KeepsSvc s g) : Keeps s t := by
  subst e; exact h

theorem KeepsSvc.wait {s t : State}  {g : SvcOut} (e : g = .wait t) (h : KeepsSvc s g) : Keeps s t := by
  subst e; exact h

theorem KeepsSvc.accept {s t : State} {go : State → Nat → State} {g : SvcOut} (e : g = .accept t go) (h : KeepsSvc s g) :
    Keeps s t ∧ ∀ u n, Keeps s u → Keeps s (go u n) := by
  subst e; exact h

theorem Keeps.st_done {s t : State} {n : Nat} (h : Keeps s t) : Keeps s (RepOut.done t n).st := h

theorem Keeps.st_fault {s t : State} {n m : Nat} (h : Keeps s t) : Keeps s (RepOut.fault t n m).st := h

theorem Keeps.st_wait {s t : State}  (h : Keeps s t) : Keeps s (RepOut.wait t).st := h

theorem Keeps.st_more {s t : State}  (h : Keeps s t) : Keeps s (RepOut.more t).st := h

theorem Keeps.st_void {s t : State}  (h : Keeps s t) : Keeps s (RepOut.void t).st := h

theorem Keeps.st_bad {α : Type} {s t : State} {n : Nat} (h : Keeps s t) : Keeps s (Got.bad t n : Got α).st := h

theorem Keeps.st_held {α : Type} {s t : State}  (h : Keeps s t) : Keeps s (Got.held t : Got α).st := h

theorem Keeps.st_ok {α : Type} {s t : State} {v : α} (h : Keeps s t) : Keeps s (Got.ok t v : Got α).st := h

theorem KeepsSvc.of_done {s t : State} {n m : Nat} (h : Keeps s t) : KeepsSvc s (.done t n m) := h

theorem KeepsSvc.of_wait {s t : State}  (h : Keeps s t) : KeepsSvc s (.wait t) := h

theorem KeepsSvc.of_accept {s t : State} {go : State → Nat → State} (h : Keeps s t) (g : ∀ u n, Keeps s u → Keeps s (go u n)) :
    KeepsSvc s (.accept t go) := ⟨h, g⟩

end Sys2Proof.Machine
end

