-- ==== Sys2Proof/Laws/KeepsMemory.lean ====
section
/-! SUPPORT. What Laws/Keeps.lean says, for the operations of the memory map, the registers and the operands: each keeps it. -/

set_option linter.unusedTactic false
set_option linter.unreachableTactic false
set_option linter.unusedVariables false

set_option Elab.async false

namespace Sys2Proof.Machine

/-! ## Machine/Regs.lean -/

theorem rset_keeps {s0 s : State} {a : Nat} {v : Word} (hK : Keeps s0 s) : Keeps s0 (rset s a v) := by
  unfold rset
  exact Keeps.mk_stores hK fun w => { w with regs := rput_wfFrom w.regs (Nat.zero_le _) }

theorem ror_keeps {s0 : State} {s : State} {a : Nat} {v : Word}  (hK : Keeps s0 s) :
    Keeps s0 (ror s a v) := by
  unfold ror
  repeat' first
    | with_reducible assumption
    | with_reducible apply rset_keeps

theorem rfld_keeps {s0 : State} {s : State} {a : Nat} {hi : Nat} {lo : Nat} {x : Nat}  (hK : Keeps s0 s) :
    Keeps s0 (rfld s a hi lo x) := by
  unfold rfld
  repeat' first
    | with_reducible assumption
    | with_reducible apply rset_keeps

theorem rinc_keeps {s0 : State} {s : State} {a : Nat} {n : Nat}  (hK : Keeps s0 s) :
    Keeps s0 (rinc s a n) := by
  unfold rinc
  repeat' first
    | with_reducible assumption
    | with_reducible apply rset_keeps

theorem draw_keeps {s0 : State} {s : State}  (hK : Keeps s0 s) :
    Keeps s0 (draw s).2 := by
  unfold draw
  repeat' first
    | with_reducible assumption
    | fail_if_no_progress with_reducible apply Keeps.mk_upd

/-! ## Machine/Mem.lean -/

theorem memPut_keeps {s0 s : State} {l : Nat} {b : Byte} (h : Keeps s0 s) : Keeps s0 (memPut s l b) :=
  Keeps.mk_stores h fun w => { w with mem := tput_wf w.mem }

theorem sendMsix_keeps {s0 : State} {s : State} {fn : Nat} {vec : Nat}  (hK : Keeps s0 s) :
    Keeps s0 (sendMsix s fn vec) := by
  unfold sendMsix
  repeat' first
    | with_reducible assumption
    | with_reducible apply Keeps.ite
    | intro _
    | fail_if_no_progress with_reducible apply Keeps.mk_upd

theorem raiseErr_keeps {s0 : State} {s : State}  (hK : Keeps s0 s) :
    Keeps s0 (raiseErr s) := by
  unfold raiseErr
  repeat' first
    | with_reducible assumption
    | with_reducible apply sendMsix_keeps

theorem raiseFab_keeps {s0 : State} {s : State}  (hK : Keeps s0 s) :
    Keeps s0 (raiseFab s) := by
  unfold raiseFab
  repeat' first
    | with_reducible assumption
    | with_reducible apply sendMsix_keeps

theorem raiseThm_keeps {s0 : State} {s : State}  (hK : Keeps s0 s) :
    Keeps s0 (raiseThm s) := by
  unfold raiseThm
  repeat' first
    | with_reducible assumption
    | with_reducible apply sendMsix_keeps

theorem alerting_keeps {s0 : State} {s : State} {t : State}  (hK : Keeps s0 t) :
    Keeps s0 (alerting s t) := by
  unfold alerting
  repeat' first
    | with_reducible assumption
    | with_reducible apply raiseThm_keeps
    | with_reducible apply Keeps.ite
    | intro _

theorem setAlert_keeps {s0 : State} {s : State} {w : Word}  (hK : Keeps s0 s) :
    Keeps s0 (setAlert s w) := by
  unfold setAlert
  repeat' first
    | with_reducible assumption
    | with_reducible apply alerting_keeps
    | with_reducible apply ror_keeps

theorem logPut_kept (l : Life) (r : LogRec) : LogKept l (logPut l r) :=
  ⟨_, rfl, by simp [rangeFrom], rfl, fun x hx _ => ⟨x, by
    unfold Life.held at *
    simp only [logPut, List.filter_append, List.mem_append]
    exact .inl hx, .rfl⟩⟩

theorem logPuts_kept (rs : List LogRec) : ∀ l : Life, LogKept l (rs.foldl logPut l) := by
  induction rs with
  | nil => exact fun l => .of_same rfl rfl rfl
  | cons r rs ih => exact fun l => (logPut_kept l r).trans (ih _)

theorem logPut_head (l : Life) (r : LogRec) : l.head ≤ (logPut l r).head := by
  simp only [logPut]
  split <;> omega

/-- Every record put is in the log afterwards, in the block being written or a later one. -/
theorem logPuts_mem (rs : List LogRec) : ∀ (l : Life), ∀ r ∈ rs, ∃ x ∈ (rs.foldl logPut l).recs, sameRecord r x ∧ l.head ≤ x.block := by
  induction rs with
  | nil => simp
  | cons a rs ih =>
    intro l r hr
    rcases List.mem_cons.mp hr with rfl | hr
    · obtain ⟨new, e, -⟩ := logPuts_kept rs (logPut l r)
      let x : LogRec := { r with seq := l.seq, block := if 65536 < l.used + logSize r then l.head + 1 else l.head }
      have hx : x ∈ (logPut l r).recs := List.mem_append_right _ (List.mem_singleton.mpr rfl)
      refine ⟨x, by rw [List.foldl_cons, e]; exact List.mem_append_left _ hx, .rfl, ?_⟩
      show l.head ≤ if 65536 < l.used + logSize r then l.head + 1 else l.head
      split <;> omega
    · obtain ⟨x, hx, e, hb⟩ := ih (logPut l a) r hr
      exact ⟨x, hx, e, (logPut_head l a).trans hb⟩

theorem logErase_kept (l : Life) (h : l.tail < l.head) : LogKept l (logErase l) := by
  let rs := (l.held.filter fun r => r.block == l.tail).filter (logSurvives l)
  obtain ⟨new, e, hs, hn, -⟩ := logPuts_kept rs l
  refine ⟨new, e, hs, hn, fun r hr k => ?_⟩
  by_cases hb : r.block = l.tail
  · obtain ⟨x, hx, hsame, hxb⟩ := logPuts_mem rs l r (List.mem_filter.mpr ⟨List.mem_filter.mpr ⟨hr, by simpa using hb⟩, by
      simp [logSurvives, k]⟩)
    exact ⟨x, List.mem_filter.mpr ⟨hx, decide_eq_true (show l.tail + 1 ≤ x.block by omega)⟩, hsame⟩
  · have h2 := List.mem_filter.mp hr
    refine ⟨r, List.mem_filter.mpr ⟨?_, ?_⟩, .rfl⟩
    · show r ∈ (rs.foldl logPut l).recs
      rw [e]
      exact List.mem_append_left _ h2.1
    · have h3 := of_decide_eq_true h2.2
      exact decide_eq_true (show l.tail + 1 ≤ r.block by omega)

theorem logTrim_kept (n : Nat) : ∀ l : Life, LogKept l (logTrim n l) := by
  induction n with
  | zero => exact fun l => .of_same rfl rfl rfl
  | succ n ih =>
    intro l
    unfold logTrim
    split
    · exact .of_same rfl rfl rfl
    · refine (logErase_kept l ?_).trans (ih _)
      rename_i h
      unfold Life.inUse at h
      split at h <;> omega

/-- An append, with the erases that follow it, keeps what R556 promises of the log. -/
theorem logAppend_kept (l : Life) (r : LogRec) : LogKept l (logAppend l r) := by
  unfold logAppend
  extract_lets m
  split
  · exact logPut_kept l r
  · exact (logPut_kept l r).trans (logTrim_kept _ _)

theorem LogKept.of_ite {p : Prop} [Decidable p] {l a b : Life} (h : LogKept l a) (g : LogKept l b) : LogKept l (if p then a else b) := by
  split
  · exact h
  · exact g

theorem lifeAdd_keeps {s0 s : State} {event : Bool} {kind detail : Nat} {data : List Nat} (hK : Keeps s0 s) :
    Keeps s0 (lifeAdd s event kind detail data) := by
  unfold lifeAdd
  extract_lets l fresh l' n r
  have hl : LogKept s.life l' := LogKept.of_ite (.of_same rfl rfl rfl) (.of_same rfl rfl rfl)
  clear_value r n l'
  split
  · exact Keeps.mk_life hK (hl.trans (.of_same rfl rfl rfl))
  · exact Keeps.mk_life hK ((hl.trans (logAppend_kept _ _)).trans (.of_same rfl rfl rfl))

theorem lifeCe_keeps {s0 s : State} {g : Nat} (hK : Keeps s0 s) : Keeps s0 (lifeCe s g) :=
  Keeps.mk_life hK (.of_same rfl rfl rfl)

theorem lifeUe_keeps {s0 s : State} {g : Nat} (hK : Keeps s0 s) : Keeps s0 (lifeUe s g) :=
  Keeps.mk_life hK (.of_same rfl rfl rfl)

theorem coreFail_keeps {s0 : State} {s : State} {c : Nat}  (hK : Keeps s0 s) :
    Keeps s0 (coreFail s c) := by
  unfold coreFail
  repeat' first
    | with_reducible assumption
    | with_reducible apply lifeAdd_keeps
    | with_reducible apply ror_keeps
    | with_reducible apply Keeps.ite
    | intro _

theorem logUeRec_keeps {s0 : State} {s : State} {m : Meet} {addr : Nat} {syn : Nat}  (hK : Keeps s0 s) :
    Keeps s0 (logUeRec s m addr syn) := by
  unfold logUeRec
  repeat' first
    | with_reducible assumption
    | with_reducible apply rset_keeps
    | with_reducible apply rinc_keeps
    | with_reducible apply ror_keeps
    | with_reducible apply lifeAdd_keeps
    | intro _

theorem logUe_keeps {s0 : State} {s : State} {m : Meet} {addr : Nat} {syn : Nat}  (hK : Keeps s0 s) :
    Keeps s0 (logUe s m addr syn) := by
  unfold logUe
  repeat' first
    | with_reducible assumption
    | with_reducible apply logUeRec_keeps
    | with_reducible apply lifeUe_keeps
    | with_reducible apply rinc_keeps
    | with_reducible apply raiseErr_keeps
    | with_reducible apply Keeps.ite
    | intro _
    | fail_if_no_progress with_reducible apply Keeps.mk_upd

theorem offerRepair_keeps {s0 : State} {s : State} {u : Nat}  (hK : Keeps s0 s) :
    Keeps s0 (offerRepair s u) := by
  unfold offerRepair
  repeat' first
    | with_reducible assumption
    | with_reducible apply ror_keeps
    | with_reducible apply rinc_keeps
    | with_reducible apply Keeps.ite
    | intro _
    | with_reducible apply Keeps.put_stks

theorem countCe_keeps {s0 : State} {s : State} {u : Nat}  (hK : Keeps s0 s) :
    Keeps s0 (countCe s u) := by
  unfold countCe
  repeat' first
    | with_reducible assumption
    | with_reducible apply lifeCe_keeps
    | with_reducible apply rinc_keeps
    | with_reducible apply Keeps.ite
    | intro _
    | fail_if_no_progress with_reducible apply Keeps.mk_upd

theorem flipDram_keeps {s0 : State} {s : State} {u : Nat}  (hK : Keeps s0 s) :
    Keeps s0 (flipDram s u).1 := by
  unfold flipDram
  repeat' first
    | with_reducible assumption
    | with_reducible apply rset_keeps
    | with_reducible apply Keeps.ite_fst
    | intro _

theorem flipSram_keeps {s0 : State} {s : State} {u : Nat}  (hK : Keeps s0 s) :
    Keeps s0 (flipSram s u).1 := by
  unfold flipSram
  repeat' first
    | with_reducible assumption
    | with_reducible apply rset_keeps
    | with_reducible apply Keeps.ite_fst
    | intro _

theorem applyView_keeps {s0 : State} {s : State} {u : Nat}  (hK : Keeps s0 s) :
    Keeps s0 (applyView s u) := by
  unfold applyView
  repeat' first
    | with_reducible assumption
    | with_reducible apply memPut_keeps
    | with_reducible apply Keeps.ite
    | with_reducible apply Keeps.foldl
    | intro _

theorem rewriteSram_keeps {s0 : State} {s : State} {u : Nat}  (hK : Keeps s0 s) :
    Keeps s0 (rewriteSram s u) := by
  unfold rewriteSram
  repeat' first
    | with_reducible assumption
    | with_reducible apply flipSram_keeps
    | with_reducible apply applyView_keeps
    | with_reducible apply Keeps.put_gerrs

theorem rewriteDram_keeps {s0 : State} {s : State} {u : Nat}  (hK : Keeps s0 s) :
    Keeps s0 (rewriteDram s u) := by
  unfold rewriteDram
  repeat' first
    | with_reducible assumption
    | with_reducible apply flipDram_keeps
    | with_reducible apply applyView_keeps
    | with_reducible apply Keeps.put_errs

theorem noteCe_keeps {s0 : State} {s : State} {u : Nat}  (hK : Keeps s0 s) :
    Keeps s0 (noteCe s u) := by
  unfold noteCe
  repeat' first
    | with_reducible assumption
    | with_reducible apply rinc_keeps
    | with_reducible apply rset_keeps
    | with_reducible apply Keeps.ite
    | intro _

theorem noteUe_keeps {s0 : State} {s : State} {u : Nat}  (hK : Keeps s0 s) :
    Keeps s0 (noteUe s u) := by
  unfold noteUe
  repeat' first
    | with_reducible assumption
    | with_reducible apply ror_keeps
    | with_reducible apply Keeps.ite
    | intro _

theorem correctSram_keeps {s0 : State} {s : State} {u : Nat}  (hK : Keeps s0 s) :
    Keeps s0 (correctSram s u) := by
  unfold correctSram
  repeat' first
    | with_reducible assumption
    | with_reducible apply noteCe_keeps
    | with_reducible apply rewriteSram_keeps
    | with_reducible apply Keeps.ite
    | intro _
    | fail_if_no_progress with_reducible apply Keeps.mk_upd

theorem flushWb_keeps {s0 : State} {s : State}  (hK : Keeps s0 s) :
    Keeps s0 (flushWb s) := by
  unfold flushWb
  repeat' first
    | with_reducible assumption
    | with_reducible apply rewriteSram_keeps
    | with_reducible apply Keeps.foldl

theorem touchUnit_keeps {s0 : State} {s : State} {u : Nat}  (hK : Keeps s0 s) :
    Keeps s0 (touchUnit s u) := by
  unfold touchUnit
  repeat' first
    | with_reducible assumption
    | with_reducible apply offerRepair_keeps
    | with_reducible apply countCe_keeps
    | with_reducible apply correctSram_keeps
    | with_reducible apply Keeps.ite
    | intro _

theorem eccTouch_keeps {s0 : State} {s : State} {m : Meet} {us : List Nat}  (hK : Keeps s0 s) :
    Keeps s0 (eccTouch s m us).1 := by
  unfold eccTouch
  repeat' first
    | with_reducible assumption
    | with_reducible apply flushWb_keeps
    | with_reducible apply touchUnit_keeps
    | with_reducible apply logUe_keeps
    | with_reducible apply noteUe_keeps
    | with_reducible apply Keeps.ite_fst
    | with_reducible apply Keeps.foldl
    | intro _
    | split
    | dsimp only

theorem encodeUnit_keeps {s0 : State} {s : State} {u : Nat}  (hK : Keeps s0 s) :
    Keeps s0 (encodeUnit s u) := by
  unfold encodeUnit
  repeat' first
    | with_reducible assumption
    | with_reducible apply flipDram_keeps
    | with_reducible apply flipSram_keeps
    | with_reducible apply Keeps.ite
    | intro _
    | with_reducible apply Keeps.put_errs
    | with_reducible apply Keeps.put_gerrs

theorem putBytes_keeps {s0 : State} {ok : Nat → Bool}  {a3 : List Byte} :
    ∀ {a1 : State} {a2 : Nat}, Keeps s0 a1 → Keeps s0 (putBytes ok a1 a2 a3) := by
  induction a3 with
  | nil =>
    intros
    unfold putBytes
    repeat' first
      | with_reducible assumption
  | cons x xs ih =>
    intros
    unfold putBytes
    repeat' first
      | with_reducible assumption
      | with_reducible apply ih
      | with_reducible apply memPut_keeps
      | with_reducible apply Keeps.ite
      | intro _

theorem mergeRead_keeps {s0 : State} {s : State} {u : Nat}  (hK : Keeps s0 s) :
    Keeps s0 (mergeRead s u) := by
  unfold mergeRead
  repeat' first
    | with_reducible assumption
    | with_reducible apply noteUe_keeps
    | with_reducible apply applyView_keeps
    | with_reducible apply offerRepair_keeps
    | with_reducible apply countCe_keeps
    | with_reducible apply noteCe_keeps
    | with_reducible apply Keeps.ite
    | intro _

theorem writeBytes_keeps {s0 : State} {s : State} {m : Meet} {a : Nat} {bs : List Byte}  (hK : Keeps s0 s) :
    Keeps s0 (writeBytes s m a bs).1 := by
  unfold writeBytes
  repeat' first
    | with_reducible assumption
    | with_reducible apply flushWb_keeps
    | with_reducible apply mergeRead_keeps
    | with_reducible apply putBytes_keeps
    | with_reducible apply encodeUnit_keeps
    | with_reducible apply coreFail_keeps
    | with_reducible apply logUe_keeps
    | with_reducible apply Keeps.ite
    | with_reducible apply Keeps.foldl
    | intro _
    | split
    | dsimp only

theorem extWrite_keeps {s0 : State} {s : State} {a : Nat} {bs : List Byte} {m : Meet}  (hK : Keeps s0 s) :
    Keeps s0 (extWrite s a bs m).1 := by
  unfold extWrite
  repeat' first
    | with_reducible assumption
    | with_reducible apply writeBytes_keeps
    | with_reducible apply ror_keeps
    | with_reducible apply Keeps.ite
    | intro _
    | split
    | dsimp only

theorem writeLe_keeps {s0 : State} {s : State} {a : Nat} {n : Nat} {v : Nat}  (hK : Keeps s0 s) :
    Keeps s0 (writeLe s a n v) := by
  unfold writeLe
  repeat' first
    | with_reducible assumption
    | with_reducible apply writeBytes_keeps

theorem writeW_keeps {s0 : State} {s : State} {a : Nat} {v : Word}  (hK : Keeps s0 s) :
    Keeps s0 (writeW s a v) := by
  unfold writeW
  repeat' first
    | with_reducible assumption
    | with_reducible apply writeLe_keeps

/-! ## Machine/Ops.lean -/

theorem setCore_keeps {s0 : State} {s : State} {c : Nat} {v : CoreSt}  (hK : Keeps s0 s) :
    Keeps s0 (setCore s c v) := by
  unfold setCore
  repeat' first
    | with_reducible assumption
    | with_reducible apply Keeps.put_cores

theorem setChan_keeps {s0 : State} {s : State} {g : Nat} {v : Chan}  (hK : Keeps s0 s) :
    Keeps s0 (setChan s g v) := by
  unfold setChan
  repeat' first
    | with_reducible assumption
    | with_reducible apply Keeps.put_chans

theorem setRing_keeps {s0 : State} {s : State} {n : Nat} {v : RingSt}  (hK : Keeps s0 s) :
    Keeps s0 (setRing s n v) := by
  unfold setRing
  repeat' first
    | with_reducible assumption
    | with_reducible apply Keeps.put_rings

theorem setCtx_keeps {s0 : State} {s : State} {c : Nat} {q : Nat} {x : Nat} {v : QCtx}  (hK : Keeps s0 s) :
    Keeps s0 (setCtx s c q x v) := by
  unfold setCtx
  repeat' first
    | with_reducible assumption
    | with_reducible apply Keeps.put_ctxs

theorem setAr_keeps {s0 : State} {s : State} {c : Nat} {q : Nat} {x : Nat} {r : Nat} {v : AReg}  (hK : Keeps s0 s) :
    Keeps s0 (setAr s c q x r v) := by
  unfold setAr
  repeat' first
    | with_reducible assumption
    | with_reducible apply Keeps.put_ars

theorem setX_keeps {s0 s : State} {c x r : Nat} {v : Word} (h : Keeps s0 s) : Keeps s0 (setX s c x r v) :=
  Keeps.mk_stores h fun w => { w with xs := tput_wf w.xs }

theorem setFlag_keeps {s0 s : State} {c f : Nat} {v : BitVec 16} (h : Keeps s0 s) : Keeps s0 (setFlag s c f v) :=
  Keeps.mk_stores h fun w => { w with flags := tput_wf w.flags }

theorem signalFlag_keeps {s0 : State} {s : State} {c : Nat} {f : Nat} {n : Nat}  (hK : Keeps s0 s) :
    Keeps s0 (signalFlag s c f n) := by
  unfold signalFlag
  repeat' first
    | with_reducible assumption
    | with_reducible apply setFlag_keeps
    | with_reducible apply rset_keeps
    | with_reducible apply Keeps.ite
    | intro _

theorem setTally_keeps {s0 s : State} {unit n : Nat} {v : BitVec 48} (h : Keeps s0 s) : Keeps s0 (setTally s unit n v) :=
  Keeps.mk_stores h fun w => { w with tallies := tput_wf w.tallies }

theorem addTally_keeps {s0 : State} {s : State} {unit : Nat} {n : Nat} {amount : Nat}  (hK : Keeps s0 s) :
    Keeps s0 (addTally s unit n amount) := by
  unfold addTally
  repeat' first
    | with_reducible assumption
    | with_reducible apply setTally_keeps
    | with_reducible apply ror_keeps
    | with_reducible apply Keeps.ite
    | intro _

theorem regCharge_keeps {s0 : State} {s : State} {f : Nat} {k : Nat} {st : Nat} {n : Nat}  (hK : Keeps s0 s) :
    Keeps s0 (regCharge s f k st n) := by
  unfold regCharge
  repeat' first
    | with_reducible assumption
    | with_reducible apply Keeps.ite
    | intro _
    | fail_if_no_progress with_reducible apply Keeps.mk_upd

theorem regPay_keeps {s0 : State} {s : State} {f : Nat} {ga : Nat} {n : Nat} {write : Bool}  (hK : Keeps s0 s) :
    Keeps s0 (regPay s f ga n write) := by
  unfold regPay
  repeat' first
    | with_reducible assumption
    | with_reducible apply regCharge_keeps
    | with_reducible apply Keeps.foldl
    | intro _

theorem ringIrq_keeps {s0 : State} {s : State} {n : Nat}  (hK : Keeps s0 s) :
    Keeps s0 (ringIrq s n) := by
  unfold ringIrq
  repeat' first
    | with_reducible assumption
    | with_reducible apply sendMsix_keeps

theorem holdPush_keeps {s0 : State} {s : State} {g : Nat} {x : Access}  (hK : Keeps s0 s) :
    Keeps s0 (holdPush s g x) := by
  unfold holdPush
  repeat' first
    | with_reducible assumption
    | with_reducible apply setChan_keeps
    | with_reducible apply Keeps.ite
    | intro _

theorem putCaps_keeps {s0 : State} {s : State} {cs : List Cap}  (hK : Keeps s0 s) :
    Keeps s0 (putCaps s cs) := by
  unfold putCaps
  repeat' first
    | with_reducible assumption
    | with_reducible apply putBytes_keeps
    | with_reducible apply Keeps.foldl
    | intro _
    | with_reducible apply Keeps.put_errs

theorem onCaps_keeps {s0 : State} {α : Type} {s : State} {cs : List Cap} {f : State → State × α} (hf : ∀ u, Keeps s0 u → Keeps s0 (f u).1) (hK : Keeps s0 s) :
    Keeps s0 (onCaps s cs f).1 := by
  unfold onCaps
  repeat' first
    | with_reducible assumption
    | with_reducible apply hf
    | with_reducible apply putCaps_keeps
    | with_reducible apply Keeps.ite_fst
    | intro _

theorem sendReqs_keeps {s0 : State}  {a0 : List (Nat × Nat)} :
    ∀ {a1 : State} {a2 : Ask}, Keeps s0 a1 → Keeps s0 (sendReqs a0 a1 a2).1 := by
  induction a0 with
  | nil =>
    intros
    unfold sendReqs
    repeat' first
      | with_reducible assumption
  | cons x xs ih =>
    intros
    unfold sendReqs
    repeat' first
      | with_reducible assumption
      | with_reducible apply ih
      | with_reducible apply holdPush_keeps
      | with_reducible apply Keeps.ite_fst
      | intro _

theorem putAsk_keeps {s0 : State} {s : State} {k : Ask}  (hK : Keeps s0 s) :
    Keeps s0 (putAsk s k) := by
  unfold putAsk
  repeat' first
    | with_reducible assumption
    | fail_if_no_progress with_reducible apply Keeps.mk_upd

theorem dropAsk_keeps {s0 : State} {s : State} {id : Nat}  (hK : Keeps s0 s) :
    Keeps s0 (dropAsk s id) := by
  unfold dropAsk
  repeat' first
    | with_reducible assumption
    | fail_if_no_progress with_reducible apply Keeps.mk_upd

theorem dropAsks_keeps {s0 : State} {s : State} {o : Owner}  (hK : Keeps s0 s) :
    Keeps s0 (dropAsks s o) := by
  unfold dropAsks
  repeat' first
    | with_reducible assumption
    | with_reducible apply Keeps.ite
    | intro _
    | fail_if_no_progress with_reducible apply Keeps.mk_upd

theorem askStart_keeps {s0 : State} {s : State} {o : Owner} {fold : Option Nat} {runs : List (Nat × Nat)}  (hK : Keeps s0 s) :
    Keeps s0 (askStart s o fold runs) := by
  unfold askStart
  repeat' first
    | with_reducible assumption
    | with_reducible apply sendReqs_keeps
    | with_reducible apply putAsk_keeps
    | fail_if_no_progress with_reducible apply Keeps.mk_upd

theorem askRead_keeps {s0 : State} {s : State} {o : Owner} {fold : Option Nat} {runs : List (Nat × Nat)}  (hK : Keeps s0 s) :
    Keeps s0 (askRead s o fold runs).1 := by
  unfold askRead
  repeat' first
    | with_reducible assumption
    | with_reducible apply askStart_keeps
    | with_reducible apply Keeps.ite_fst
    | intro _
    | split

theorem askMore_keeps {s0 : State} {s : State} {k : Ask} {x : Access}  (hK : Keeps s0 s) :
    Keeps s0 (askMore s k x) := by
  unfold askMore
  repeat' first
    | with_reducible assumption
    | with_reducible apply holdPush_keeps
    | with_reducible apply putAsk_keeps

theorem askNew_keeps {s0 : State} {s : State} {o : Owner} {fold : Option Nat} {x : Access}  (hK : Keeps s0 s) :
    Keeps s0 (askNew s o fold x) := by
  unfold askNew
  repeat' first
    | with_reducible assumption
    | with_reducible apply askMore_keeps
    | fail_if_no_progress with_reducible apply Keeps.mk_upd

theorem askPush_keeps {s0 : State} {s : State} {o : Owner} {fold : Option Nat} {x : Access}  (hK : Keeps s0 s) :
    Keeps s0 (askPush s o fold x) := by
  unfold askPush
  repeat' first
    | with_reducible assumption
    | with_reducible apply askMore_keeps
    | with_reducible apply askNew_keeps
    | split

theorem dramWrite_keeps {s0 : State} {s : State} {fold : Option Nat} {tally : Option (Nat × Nat × Nat)} {a : Nat} {bs : List Byte} {host : Option Nat} {mask : Byte} {launch : Option Nat}  (hK : Keeps s0 s) :
    Keeps s0 (dramWrite s fold tally a bs host mask launch) := by
  unfold dramWrite
  repeat' first
    | with_reducible assumption
    | with_reducible apply addTally_keeps
    | with_reducible apply holdPush_keeps
    | with_reducible apply extWrite_keeps
    | with_reducible apply putAsk_keeps
    | with_reducible apply Keeps.ite
    | with_reducible apply Keeps.ite_fst
    | with_reducible apply Keeps.foldl_fst
    | intro _
    | fail_if_no_progress with_reducible apply Keeps.mk_upd
    | split

theorem sendFab_keeps {s0 : State} {s : State} {m : Msg}  (hK : Keeps s0 s) :
    Keeps s0 (sendFab s m) := by
  unfold sendFab
  repeat' first
    | with_reducible assumption
    | fail_if_no_progress with_reducible apply Keeps.mk_upd

theorem hostPost_keeps {s0 : State} {s : State} {fold : Nat} {ha : Nat} {bs : List Byte} {relaxed : Bool}  (hK : Keeps s0 s) :
    Keeps s0 (hostPost s fold ha bs relaxed).1 := by
  unfold hostPost
  repeat' first
    | with_reducible assumption
    | with_reducible apply sendFab_keeps
    | with_reducible apply Keeps.ite_fst
    | intro _
    | fail_if_no_progress with_reducible apply Keeps.mk_upd

theorem devWrite_keeps {s0 : State} {s : State} {fold : Option Nat} {ga : Nat} {bs : List Byte}  (hK : Keeps s0 s) :
    Keeps s0 (devWrite s fold ga bs).1 := by
  unfold devWrite
  repeat' first
    | with_reducible assumption
    | with_reducible apply sendFab_keeps
    | with_reducible apply hostPost_keeps
    | with_reducible apply dramWrite_keeps
    | with_reducible apply extWrite_keeps
    | with_reducible apply Keeps.ite_fst
    | intro _
    | split

theorem regWrite_keeps {s0 : State} {s : State} {f : Nat} {ga : Nat} {bs : List Byte}  (hK : Keeps s0 s) :
    Keeps s0 (regWrite s f ga bs) := by
  unfold regWrite
  repeat' first
    | with_reducible assumption
    | with_reducible apply devWrite_keeps
    | with_reducible apply regPay_keeps
    | with_reducible apply Keeps.ite
    | intro _
    | fail_if_no_progress with_reducible apply Keeps.mk_upd

theorem answer_keeps {s0 : State} {s : State} {r : HostAns}  (hK : Keeps s0 s) :
    Keeps s0 (answer s r) := by
  unfold answer
  repeat' first
    | with_reducible assumption
    | fail_if_no_progress with_reducible apply Keeps.mk_upd

theorem answerEp_keeps {s0 : State} {s : State} {len : Nat}  (hK : Keeps s0 s) :
    Keeps s0 (answerEp s len) := by
  unfold answerEp
  repeat' first
    | with_reducible assumption
    | with_reducible apply answer_keeps
    | fail_if_no_progress with_reducible apply Keeps.mk_upd

theorem respond_keeps {s0 : State} {s : State} {m : Msg} {op : MsgOp} {data : List Byte}  (hK : Keeps s0 s) :
    Keeps s0 (respond s m op data) := by
  unfold respond
  repeat' first
    | with_reducible assumption
    | with_reducible apply sendFab_keeps

theorem hostReads_keeps {s0 : State} {s : State} {a : Nat} {len : Nat}  (hK : Keeps s0 s) :
    Keeps s0 (hostReads s a len) := by
  unfold hostReads
  repeat' first
    | with_reducible assumption
    | with_reducible apply eccTouch_keeps
    | with_reducible apply answerEp_keeps
    | with_reducible apply answer_keeps
    | split
    | dsimp only

theorem peerReads_keeps {s0 : State} {s : State} {m : Msg}  (hK : Keeps s0 s) :
    Keeps s0 (peerReads s m) := by
  unfold peerReads
  repeat' first
    | with_reducible assumption
    | with_reducible apply eccTouch_keeps
    | with_reducible apply respond_keeps
    | split
    | dsimp only

theorem stir_keeps {s0 : State} {s : State} {c : Nat}  (hK : Keeps s0 s) :
    Keeps s0 (stir s c) := by
  unfold stir
  repeat' first
    | with_reducible assumption
    | with_reducible apply setCore_keeps

theorem haltRing_keeps {s0 : State} {s : State} {n : Nat}  (hK : Keeps s0 s) :
    Keeps s0 (haltRing s n) := by
  unfold haltRing
  repeat' first
    | with_reducible assumption
    | with_reducible apply setRing_keeps
    | with_reducible apply setCtx_keeps
    | with_reducible apply stir_keeps
    | with_reducible apply Keeps.foldl
    | intro _
    | split

theorem writeRec_keeps {s0 : State} {s : State} {n : Nat} {r : Rec}  (hK : Keeps s0 s) :
    Keeps s0 (writeRec s n r) := by
  unfold writeRec
  repeat' first
    | with_reducible assumption
    | with_reducible apply devWrite_keeps
    | with_reducible apply regPay_keeps
    | with_reducible apply haltRing_keeps
    | with_reducible apply setRing_keeps
    | with_reducible apply ringIrq_keeps
    | with_reducible apply Keeps.ite
    | intro _

theorem emitRec_keeps {s0 : State} {s : State} {c : Nat} {q : Nat} {x : Nat} {r : Rec}  (hK : Keeps s0 s) :
    Keeps s0 (emitRec s c q x r) := by
  unfold emitRec
  repeat' first
    | with_reducible assumption
    | with_reducible apply writeRec_keeps
    | with_reducible apply setCtx_keeps
    | with_reducible apply Keeps.ite
    | intro _

theorem emitSvc_keeps {s0 : State} {s : State} {n : Nat} {r : Rec}  (hK : Keeps s0 s) :
    Keeps s0 (emitSvc s n r) := by
  unfold emitSvc
  repeat' first
    | with_reducible assumption
    | with_reducible apply writeRec_keeps
    | with_reducible apply setRing_keeps
    | with_reducible apply Keeps.ite
    | intro _

/-! ## Machine/Operands.lean -/

theorem advanceAll_keeps {s0 : State} {s : State} {c : Nat} {q : Nat} {x : Nat} {k : Cmd} {roles : List Nat} {last : Bool}  (hK : Keeps s0 s) :
    Keeps s0 (advanceAll s c q x k roles last) := by
  unfold advanceAll
  repeat' first
    | with_reducible assumption
    | with_reducible apply setAr_keeps
    | with_reducible apply Keeps.foldl
    | intro _

end Sys2Proof.Machine
end

