-- ==== Sys2Proof/Laws/KeepsEngines.lean ====
section
/-! SUPPORT. What Laws/Keeps.lean says, for the operations of the engines, streams, channels and launches: each keeps it. -/

set_option linter.unusedTactic false
set_option linter.unreachableTactic false
set_option linter.unusedVariables false

set_option Elab.async false

namespace Sys2Proof.Machine

/-! ## Machine/Engine.lean -/

theorem onCore_keeps {s0 : State} {s : State} {c : Nat} {k : Out State} (hk : KeepsOut s0 k)  :
    KeepsOut s0 (onCore s c k) := by
  unfold onCore
  repeat' first
    | with_reducible assumption
    | with_reducible apply KeepsOut.ite
    | with_reducible apply KeepsOut.fault
    | intro _

theorem trace_keeps {s0 : State} {s : State} {w : Who} {k : Cmd} {status : Nat} {done : Bool}  (hK : Keeps s0 s) :
    Keeps s0 (trace s w k status done) := by
  unfold trace
  repeat' first
    | with_reducible assumption
    | with_reducible apply regWrite_keeps
    | with_reducible apply ror_keeps
    | with_reducible apply Keeps.ite
    | intro _
    | with_reducible apply Keeps.put_crk

theorem settle_keeps {s0 : State} {s : State} {w : Who} {k : Cmd} {r : Rec}  (hK : Keeps s0 s) :
    Keeps s0 (settle s w k r) := by
  unfold settle
  repeat' first
    | with_reducible assumption
    | with_reducible apply signalFlag_keeps
    | with_reducible apply trace_keeps
    | with_reducible apply setCtx_keeps
    | with_reducible apply emitRec_keeps
    | with_reducible apply Keeps.ite
    | intro _

theorem drainOpens_keeps {s0 : State} {w : Who}  {a1 : Nat} :
    ∀ {a2 : State}, Keeps s0 a2 → Keeps s0 (drainOpens w a1 a2) := by
  induction a1 with
  | zero =>
    intros
    unfold drainOpens
    repeat' first
      | with_reducible assumption
  | succ x ih =>
    intros
    unfold drainOpens
    repeat' first
      | with_reducible assumption
      | with_reducible apply ih
      | with_reducible apply settle_keeps
      | with_reducible apply setCtx_keeps
      | split
      | dsimp only

theorem luCommit_keeps {s0 : State} {s : State} {w : Who} {os : List Open}  (hK : Keeps s0 s) :
    Keeps s0 (luCommit s w os) := by
  unfold luCommit
  repeat' first
    | with_reducible assumption
    | with_reducible apply setAr_keeps
    | with_reducible apply Keeps.ite
    | with_reducible apply Keeps.foldl
    | intro _
    | split

theorem endCmd_keeps {s0 : State} {s : State} {w : Who} {k : Cmd} {tag : Nat} {status : Nat} {inner : Nat} {outer : Nat} {count : Nat}  (hK : Keeps s0 s) :
    Keeps s0 (endCmd s w k tag status inner outer count) := by
  unfold endCmd
  repeat' first
    | with_reducible assumption
    | with_reducible apply dropAsks_keeps
    | with_reducible apply luCommit_keeps
    | with_reducible apply drainOpens_keeps
    | with_reducible apply setCtx_keeps
    | with_reducible apply settle_keeps
    | with_reducible apply Keeps.ite
    | intro _
    | split
    | dsimp only

theorem dropLaunch_keeps {s0 : State} {s : State} {id : Nat}  (hK : Keeps s0 s) :
    Keeps s0 (dropLaunch s id) := by
  unfold dropLaunch
  repeat' first
    | with_reducible assumption
    | with_reducible apply setChan_keeps
    | with_reducible apply Keeps.ite
    | with_reducible apply Keeps.foldl
    | intro _
    | with_reducible apply Keeps.put_launches
    | split
    | dsimp only

theorem dropLaunches_keeps {s0 : State} {s : State} {w : Who}  (hK : Keeps s0 s) :
    Keeps s0 (dropLaunches s w) := by
  unfold dropLaunches
  repeat' first
    | with_reducible assumption
    | with_reducible apply dropLaunch_keeps
    | with_reducible apply dropAsks_keeps
    | with_reducible apply setCtx_keeps
    | with_reducible apply Keeps.ite
    | with_reducible apply Keeps.foldl
    | intro _
    | split

theorem qfault_keeps {s0 : State} {s : State} {w : Who} {tag : Nat} {status : Nat} {otherTag : Nat} {otherQ : Nat} {detail : Nat} {cause : Nat}  (hK : Keeps s0 s) :
    Keeps s0 (qfault s w tag status otherTag otherQ detail cause) := by
  unfold qfault
  repeat' first
    | with_reducible assumption
    | with_reducible apply rset_keeps
    | with_reducible apply Keeps.ite
    | intro _

theorem endCtx_keeps {s0 : State} {s : State} {c : Nat} {q : Nat} {x : Nat} {st : Nat}  (hK : Keeps s0 s) :
    Keeps s0 (endCtx s c q x st) := by
  unfold endCtx
  repeat' first
    | with_reducible assumption
    | with_reducible apply dropLaunches_keeps
    | with_reducible apply qfault_keeps
    | with_reducible apply endCmd_keeps
    | with_reducible apply setCtx_keeps
    | with_reducible apply Keeps.ite
    | with_reducible apply Keeps.foldl
    | intro _
    | split

theorem cancelCtx_keeps {s0 : State} {s : State} {c : Nat} {q : Nat} {x : Nat}  (hK : Keeps s0 s) :
    Keeps s0 (cancelCtx s c q x) := by
  unfold cancelCtx
  repeat' first
    | with_reducible assumption
    | with_reducible apply endCtx_keeps

theorem releaseCtx_keeps {s0 : State} {s : State} {c : Nat} {n : Nat} {x : Nat}  (hK : Keeps s0 s) :
    Keeps s0 (releaseCtx s c n x) := by
  unfold releaseCtx
  repeat' first
    | with_reducible assumption
    | with_reducible apply setCtx_keeps
    | with_reducible apply setCore_keeps
    | with_reducible apply Keeps.foldl
    | intro _

theorem finishStop_keeps {s0 : State} {s : State} {n : Nat}  (hK : Keeps s0 s) :
    Keeps s0 (finishStop s n) := by
  unfold finishStop
  repeat' first
    | with_reducible assumption
    | with_reducible apply releaseCtx_keeps
    | with_reducible apply setRing_keeps
    | with_reducible apply Keeps.ite
    | with_reducible apply Keeps.foldl
    | intro _
    | split

theorem haltMember_keeps {s0 : State} {s : State} {n : Nat} {m : Nat}  (hK : Keeps s0 s) :
    Keeps s0 (haltMember s n m) := by
  unfold haltMember
  repeat' first
    | with_reducible assumption
    | with_reducible apply ringIrq_keeps
    | with_reducible apply setRing_keeps

theorem faultQueue_keeps {s0 : State} {s : State} {w : Who} {k : Cmd} {tag : Nat} {status : Nat} {inner : Nat} {outer : Nat} {count : Nat} {why : Why}  (hK : Keeps s0 s) :
    Keeps s0 (faultQueue s w k tag status inner outer count why) := by
  unfold faultQueue
  repeat' first
    | with_reducible assumption
    | with_reducible apply qfault_keeps
    | with_reducible apply setCtx_keeps
    | with_reducible apply endCmd_keeps

theorem faultRing_keeps {s0 : State} {s : State} {w : Who} {faulting : List Nat}  (hK : Keeps s0 s) :
    Keeps s0 (faultRing s w faulting) := by
  unfold faultRing
  repeat' first
    | with_reducible assumption
    | with_reducible apply haltMember_keeps
    | with_reducible apply stir_keeps
    | with_reducible apply setCtx_keeps
    | with_reducible apply endCmd_keeps
    | with_reducible apply cancelCtx_keeps
    | with_reducible apply Keeps.ite
    | with_reducible apply Keeps.foldl
    | intro _

theorem faultCmd_keeps {s0 : State} {s : State} {w : Who} {k : Cmd} {tag : Nat} {status : Nat} {inner : Nat} {outer : Nat} {count : Nat} {why : Why}  (hK : Keeps s0 s) :
    Keeps s0 (faultCmd s w k tag status inner outer count why) := by
  unfold faultCmd
  repeat' first
    | with_reducible assumption
    | with_reducible apply faultRing_keeps
    | with_reducible apply faultQueue_keeps

theorem postServed_keeps {s0 : State} {s : State} {c : Nat} {q : Nat} {x : Nat} {dropped : Bool}  (hK : Keeps s0 s) :
    Keeps s0 (postServed s c q x dropped) := by
  unfold postServed
  repeat' first
    | with_reducible assumption
    | with_reducible apply drainOpens_keeps
    | with_reducible apply setCtx_keeps
    | with_reducible apply qfault_keeps
    | with_reducible apply faultRing_keeps
    | with_reducible apply cancelCtx_keeps
    | with_reducible apply faultCmd_keeps
    | with_reducible apply Keeps.ite
    | intro _
    | split

theorem setRun_keeps {s0 : State} {s : State} {w : Who} {r : Run}  (hK : Keeps s0 s) :
    Keeps s0 (setRun s w r) := by
  unfold setRun
  repeat' first
    | with_reducible assumption
    | with_reducible apply setCtx_keeps

theorem markWait_keeps {s0 : State} {s : State} {w : Who}  (hK : Keeps s0 s) :
    Keeps s0 (markWait s w) := by
  unfold markWait
  repeat' first
    | with_reducible assumption
    | with_reducible apply setRun_keeps
    | split

theorem engineRest_keeps {s0 : State} {s : State} {w : Who} {cyc : Nat}  (hK : Keeps s0 s) :
    Keeps s0 (engineRest s w cyc) := by
  unfold engineRest
  repeat' first
    | with_reducible assumption
    | with_reducible apply setCore_keeps
    | with_reducible apply Keeps.ite
    | intro _

theorem repeats_keeps {s0 : State} {e : Eng} {w : Who} (he : ∀ u w k r, Keeps s0 u → Keeps s0 (e.rep u w k r).st) {a2 : Nat} :
    ∀ {a3 : State}, Keeps s0 a3 → Keeps s0 (repeats e w a2 a3) := by
  induction a2 with
  | zero =>
    intros
    unfold repeats
    repeat' first
      | with_reducible assumption
  | succ x ih =>
    intros
    unfold repeats
    repeat' first
      | with_reducible assumption
      | with_reducible apply ih
      | with_reducible apply he
      | with_reducible apply markWait_keeps
      | with_reducible apply endCmd_keeps
      | with_reducible apply faultCmd_keeps
      | with_reducible apply advanceAll_keeps
      | with_reducible apply setRun_keeps
      | with_reducible apply engineRest_keeps
      | with_reducible apply Keeps.ite
      | intro _
      | with_reducible refine Keeps.rep_done (by with_reducible assumption) ?_
      | with_reducible refine Keeps.rep_fault (by with_reducible assumption) ?_
      | with_reducible refine Keeps.rep_wait (by with_reducible assumption) ?_
      | with_reducible refine Keeps.rep_more (by with_reducible assumption) ?_
      | with_reducible refine Keeps.rep_void (by with_reducible assumption) ?_
      | split
      | dsimp only

theorem issue_keeps {s0 : State} {s : State} {w : Who} {k : Cmd}  (hK : Keeps s0 s) :
    Keeps s0 (issue s w k) := by
  unfold issue
  repeat' first
    | with_reducible assumption
    | with_reducible apply setCtx_keeps
    | with_reducible apply trace_keeps

theorem engineRow_keeps {s0 : State} {e : Eng} {q : Nat} {op : Nat} {isIt : Cmd → Bool} {c : Nat} {n : Nat} {s : State} (he : ∀ u w k r, Keeps s0 u → Keeps s0 (e.rep u w k r).st) (hK : Keeps s0 s) :
    KeepsOut s0 (engineRow e q op isIt c n s) := by
  unfold engineRow
  repeat' first
    | with_reducible assumption
    | with_reducible apply onCore_keeps
    | with_reducible apply repeats_keeps
    | with_reducible apply issue_keeps
    | with_reducible apply faultCmd_keeps
    | with_reducible apply endCmd_keeps
    | with_reducible apply KeepsOut.ite
    | with_reducible apply KeepsOut.next
    | intro _
    | split

/-! ## Machine/Flags.lean -/

theorem raiseNum_keeps {s0 : State} {s : State} {c : Nat} {f : NumFlags}  (hK : Keeps s0 s) :
    Keeps s0 (raiseNum s c f) := by
  unfold raiseNum
  repeat' first
    | with_reducible assumption
    | with_reducible apply ror_keeps

theorem srTake_keeps {s0 : State} {s : State} {c : Nat} {rnd : Nat} {n : Nat}  (hK : Keeps s0 s) :
    Keeps s0 (srTake s c rnd n) := by
  unfold srTake
  repeat' first
    | with_reducible assumption
    | with_reducible apply setCore_keeps
    | with_reducible apply Keeps.ite
    | intro _

theorem accSat_keeps {s0 : State} {s : State} {c : Nat} {e : Nat}  (hK : Keeps s0 s) :
    Keeps s0 (accSat s c e) := by
  unfold accSat
  repeat' first
    | with_reducible assumption
    | with_reducible apply rset_keeps
    | with_reducible apply Keeps.ite
    | intro _

/-! ## Machine/Elems.lean -/

theorem scramble_keeps {s0 : State} {s : State} {rs : List (Nat × Nat)}  (hK : Keeps s0 s) :
    Keeps s0 (scramble s rs) := by
  unfold scramble
  repeat' first
    | with_reducible assumption
    | with_reducible apply applyView_keeps
    | with_reducible apply encodeUnit_keeps
    | with_reducible apply putBytes_keeps
    | with_reducible apply Keeps.foldl
    | intro _
    | fail_if_no_progress with_reducible apply Keeps.mk_upd

/-! ## Machine/InBank.lean -/

theorem setNbu_keeps {s0 : State} {s : State} {b : Nat} {v : Nbu}  (hK : Keeps s0 s) :
    Keeps s0 (setNbu s b v) := by
  unfold setNbu
  repeat' first
    | with_reducible assumption
    | with_reducible apply Keeps.put_nbus

theorem goTo_keeps {s0 : State} {s : State} {n : NCtx} {loops : List LoopF} {next : Nat}  (hK : Keeps s0 s) :
    Keeps s0 (goTo s n loops next) := by
  unfold goTo
  repeat' first
    | with_reducible assumption
    | with_reducible apply setChan_keeps

theorem nbuFault_keeps {s0 : State} {s : State} {n : NCtx} {b : Nat} {st : Nat} {cause : Nat}  (hK : Keeps s0 s) :
    Keeps s0 (nbuFault s n b st cause) := by
  unfold nbuFault
  repeat' first
    | with_reducible assumption
    | with_reducible apply setChan_keeps
    | with_reducible apply rset_keeps
    | with_reducible apply Keeps.ite
    | intro _
    | with_reducible apply Keeps.put_launches
    | split
    | dsimp only

theorem bankDo_keeps {s0 : State} {s : State} {n : NCtx} {b : Nat} {fx : Fx} (hf : ∀ v, Keeps s0 v → Keeps s0 (fx.run v)) (hK : Keeps s0 s) :
    Keeps s0 (bankDo s n b fx).1 := by
  unfold bankDo
  repeat' first
    | with_reducible assumption
    | with_reducible apply hf
    | with_reducible apply logUe_keeps
    | with_reducible apply eccTouch_keeps
    | with_reducible apply setChan_keeps
    | with_reducible apply Keeps.ite_fst
    | intro _
    | fail_if_no_progress with_reducible apply Keeps.mk_upd
    | split
    | dsimp only

theorem nbuAll_keeps {s0 : State} {s : State} {g : Nat} {fx : State → NCtx → Nat → Fx} {n : NCtx} (hf : ∀ u n b v, Keeps s0 v → Keeps s0 ((fx u n b).run v)) (hK : Keeps s0 s) :
    Keeps s0 (nbuAll s g fx n).1 := by
  unfold nbuAll
  repeat' first
    | with_reducible assumption
    | with_reducible apply hf
    | with_reducible apply setChan_keeps
    | with_reducible apply bankDo_keeps
    | with_reducible apply Keeps.foldl_map_fst
    | intro _

theorem nbuIssue_keeps {s0 : State} {op : Nat} {fx : State → NCtx → Nat → Fx} {next : State → NCtx → State} {g : Nat} {s : State} (hf : ∀ u n b v, Keeps s0 v → Keeps s0 ((fx u n b).run v)) (hn : ∀ u n, Keeps s0 u → Keeps s0 (next u n)) (hK : Keeps s0 s) :
    KeepsOut s0 (nbuIssue op fx next g s) := by
  unfold nbuIssue
  repeat' first
    | with_reducible assumption
    | with_reducible apply hn
    | with_reducible apply nbuFault_keeps
    | with_reducible apply nbuAll_keeps
    | with_reducible apply KeepsOut.ite
    | with_reducible apply KeepsOut.next
    | with_reducible apply KeepsOut.fault
    | intro _
    | split
    | dsimp only

theorem nbuNext_keeps {s0 : State} {s : State} {n : NCtx}  (hK : Keeps s0 s) :
    Keeps s0 (nbuNext s n) := by
  unfold nbuNext
  repeat' first
    | with_reducible assumption
    | with_reducible apply goTo_keeps

theorem nbuRow_keeps {s0 : State} {op : Nat} {fx : State → NCtx → Nat → Fx} {g : Nat} {s : State} (hf : ∀ u n b v, Keeps s0 v → Keeps s0 ((fx u n b).run v)) (hK : Keeps s0 s) :
    KeepsOut s0 (nbuRow op fx g s) := by
  unfold nbuRow
  repeat' first
    | with_reducible assumption
    | with_reducible apply nbuIssue_keeps
    | with_reducible apply nbuNext_keeps

theorem onNbu_keeps {s0 : State} {n : NCtx} {b : Nat} {f : Nbu → Nbu} {s : State}  (hK : Keeps s0 s) :
    Keeps s0 (onNbu n b f s) := by
  unfold onNbu
  repeat' first
    | with_reducible assumption
    | with_reducible apply setNbu_keeps

theorem unlessRep0_keeps {s0 : State} {i : Word} {x : Fx} {v : State} (hx : Keeps s0 (x.run v)) (hK : Keeps s0 v) :
    Keeps s0 ((unlessRep0 i x).run v) := by
  unfold unlessRep0
  repeat' first
    | with_reducible assumption
    | split

theorem bankWrite_keeps {s0 : State} {s : State} {n : NCtx} {b : Nat} {o : Nat} {bs : List Byte}  (hK : Keeps s0 s) :
    Keeps s0 (bankWrite s n b o bs) := by
  unfold bankWrite
  repeat' first
    | with_reducible assumption
    | with_reducible apply writeBytes_keeps

theorem fxNone_keeps {s0 : State} {a0 : State} {a1 : NCtx} {a2 : Nat} {v : State}  (hK : Keeps s0 v) :
    Keeps s0 ((fxNone a0 a1 a2).run v) := by
  unfold fxNone
  repeat' first
    | with_reducible assumption

theorem execNbuNop_keeps {s0 : State} {g : Nat} {s : State}  (hK : Keeps s0 s) :
    KeepsOut s0 (execNbuNop g s) := by
  unfold execNbuNop
  repeat' first
    | with_reducible assumption
    | with_reducible apply nbuRow_keeps
    | with_reducible apply fxNone_keeps

theorem execNbuEnd_keeps {s0 : State} {g : Nat} {s : State}  (hK : Keeps s0 s) :
    KeepsOut s0 (execNbuEnd g s) := by
  unfold execNbuEnd
  repeat' first
    | with_reducible assumption
    | with_reducible apply nbuIssue_keeps
    | with_reducible apply setChan_keeps
    | intro _

theorem execLoop_keeps {s0 : State} {g : Nat} {s : State}  (hK : Keeps s0 s) :
    KeepsOut s0 (execLoop g s) := by
  unfold execLoop
  repeat' first
    | with_reducible assumption
    | with_reducible apply nbuIssue_keeps
    | with_reducible apply goTo_keeps
    | with_reducible apply Keeps.ite
    | intro _

theorem execLoopb_keeps {s0 : State} {g : Nat} {s : State}  (hK : Keeps s0 s) :
    KeepsOut s0 (execLoopb g s) := by
  unfold execLoopb
  repeat' first
    | with_reducible assumption
    | with_reducible apply nbuIssue_keeps
    | with_reducible apply goTo_keeps
    | with_reducible apply Keeps.ite
    | intro _

theorem fxPadd_keeps {s0 : State} {a0 : State} {n : NCtx} {b : Nat} {v : State}  (hK : Keeps s0 v) :
    Keeps s0 ((fxPadd a0 n b).run v) := by
  unfold fxPadd
  repeat' first
    | with_reducible assumption
    | with_reducible apply onNbu_keeps

theorem execPadd_keeps {s0 : State} {g : Nat} {s : State}  (hK : Keeps s0 s) :
    KeepsOut s0 (execPadd g s) := by
  unfold execPadd
  repeat' first
    | with_reducible assumption
    | with_reducible apply nbuRow_keeps
    | with_reducible apply fxPadd_keeps

theorem fxPosadd_keeps {s0 : State} {a0 : State} {n : NCtx} {b : Nat} {v : State}  (hK : Keeps s0 v) :
    Keeps s0 ((fxPosadd a0 n b).run v) := by
  unfold fxPosadd
  repeat' first
    | with_reducible assumption
    | with_reducible apply onNbu_keeps

theorem execPosadd_keeps {s0 : State} {g : Nat} {s : State}  (hK : Keeps s0 s) :
    KeepsOut s0 (execPosadd g s) := by
  unfold execPosadd
  repeat' first
    | with_reducible assumption
    | with_reducible apply nbuRow_keeps
    | with_reducible apply fxPosadd_keeps

theorem fxLpset_keeps {s0 : State} {a0 : State} {n : NCtx} {b : Nat} {v : State}  (hK : Keeps s0 v) :
    Keeps s0 ((fxLpset a0 n b).run v) := by
  unfold fxLpset
  repeat' first
    | with_reducible assumption
    | with_reducible apply onNbu_keeps

theorem execLpset_keeps {s0 : State} {g : Nat} {s : State}  (hK : Keeps s0 s) :
    KeepsOut s0 (execLpset g s) := by
  unfold execLpset
  repeat' first
    | with_reducible assumption
    | with_reducible apply nbuRow_keeps
    | with_reducible apply fxLpset_keeps

theorem fxLdw_keeps {s0 : State} {s : State} {n : NCtx} {b : Nat} {v : State}  (hK : Keeps s0 v) :
    Keeps s0 ((fxLdw s n b).run v) := by
  unfold fxLdw
  repeat' first
    | with_reducible assumption
    | with_reducible apply onNbu_keeps

theorem execLdw_keeps {s0 : State} {g : Nat} {s : State}  (hK : Keeps s0 s) :
    KeepsOut s0 (execLdw g s) := by
  unfold execLdw
  repeat' first
    | with_reducible assumption
    | with_reducible apply nbuRow_keeps
    | with_reducible apply fxLdw_keeps

theorem fxStw_keeps {s0 : State} {s : State} {n : NCtx} {b : Nat} {v : State}  (hK : Keeps s0 v) :
    Keeps s0 ((fxStw s n b).run v) := by
  unfold fxStw
  repeat' first
    | with_reducible assumption
    | with_reducible apply bankWrite_keeps

theorem execStw_keeps {s0 : State} {g : Nat} {s : State}  (hK : Keeps s0 s) :
    KeepsOut s0 (execStw g s) := by
  unfold execStw
  repeat' first
    | with_reducible assumption
    | with_reducible apply nbuRow_keeps
    | with_reducible apply fxStw_keeps

theorem fxStp_keeps {s0 : State} {s : State} {n : NCtx} {b : Nat} {v : State}  (hK : Keeps s0 v) :
    Keeps s0 ((fxStp s n b).run v) := by
  unfold fxStp
  repeat' first
    | with_reducible assumption
    | with_reducible apply bankWrite_keeps

theorem execStp_keeps {s0 : State} {g : Nat} {s : State}  (hK : Keeps s0 s) :
    KeepsOut s0 (execStp g s) := by
  unfold execStp
  repeat' first
    | with_reducible assumption
    | with_reducible apply nbuRow_keeps
    | with_reducible apply fxStp_keeps

theorem fxFill_keeps {s0 : State} {s : State} {n : NCtx} {b : Nat} {v : State}  (hK : Keeps s0 v) :
    Keeps s0 ((fxFill s n b).run v) := by
  unfold fxFill
  repeat' first
    | with_reducible assumption
    | with_reducible apply unlessRep0_keeps
    | with_reducible apply bankWrite_keeps
    | with_reducible apply onNbu_keeps
    | with_reducible apply Keeps.foldl
    | intro _

theorem execFill_keeps {s0 : State} {g : Nat} {s : State}  (hK : Keeps s0 s) :
    KeepsOut s0 (execFill g s) := by
  unfold execFill
  repeat' first
    | with_reducible assumption
    | with_reducible apply nbuRow_keeps
    | with_reducible apply fxFill_keeps

theorem fxGath_keeps {s0 : State} {s : State} {n : NCtx} {b : Nat} {v : State}  (hK : Keeps s0 v) :
    Keeps s0 ((fxGath s n b).run v) := by
  unfold fxGath
  repeat' first
    | with_reducible assumption
    | with_reducible apply onNbu_keeps

theorem execGath_keeps {s0 : State} {g : Nat} {s : State}  (hK : Keeps s0 s) :
    KeepsOut s0 (execGath g s) := by
  unfold execGath
  repeat' first
    | with_reducible assumption
    | with_reducible apply nbuRow_keeps
    | with_reducible apply fxGath_keeps

theorem fxWres_keeps {s0 : State} {s : State} {n : NCtx} {b : Nat} {v : State}  (hK : Keeps s0 v) :
    Keeps s0 ((fxWres s n b).run v) := by
  unfold fxWres
  repeat' first
    | with_reducible assumption

theorem execWres_keeps {s0 : State} {g : Nat} {s : State}  (hK : Keeps s0 s) :
    KeepsOut s0 (execWres g s) := by
  unfold execWres
  repeat' first
    | with_reducible assumption
    | with_reducible apply nbuRow_keeps
    | with_reducible apply fxWres_keeps

theorem fxWresa_keeps {s0 : State} {s : State} {n : NCtx} {b : Nat} {v : State}  (hK : Keeps s0 v) :
    Keeps s0 ((fxWresa s n b).run v) := by
  unfold fxWresa
  repeat' first
    | with_reducible assumption

theorem execWresa_keeps {s0 : State} {g : Nat} {s : State}  (hK : Keeps s0 s) :
    KeepsOut s0 (execWresa g s) := by
  unfold execWresa
  repeat' first
    | with_reducible assumption
    | with_reducible apply nbuRow_keeps
    | with_reducible apply fxWresa_keeps

theorem fxAxpy_keeps {s0 : State} {s : State} {n : NCtx} {b : Nat} {v : State}  (hK : Keeps s0 v) :
    Keeps s0 ((fxAxpy s n b).run v) := by
  unfold fxAxpy
  repeat' first
    | with_reducible assumption
    | with_reducible apply unlessRep0_keeps
    | with_reducible apply bankWrite_keeps
    | with_reducible apply onNbu_keeps
    | with_reducible apply Keeps.foldl
    | intro _

theorem execAxpy_keeps {s0 : State} {g : Nat} {s : State}  (hK : Keeps s0 s) :
    KeepsOut s0 (execAxpy g s) := by
  unfold execAxpy
  repeat' first
    | with_reducible assumption
    | with_reducible apply nbuRow_keeps
    | with_reducible apply fxAxpy_keeps

theorem fxVop_keeps {s0 : State} {a0 : State} {n : NCtx} {b : Nat} {v : State}  (hK : Keeps s0 v) :
    Keeps s0 ((fxVop a0 n b).run v) := by
  unfold fxVop
  repeat' first
    | with_reducible assumption
    | with_reducible apply onNbu_keeps

theorem execVop_keeps {s0 : State} {g : Nat} {s : State}  (hK : Keeps s0 s) :
    KeepsOut s0 (execVop g s) := by
  unfold execVop
  repeat' first
    | with_reducible assumption
    | with_reducible apply nbuRow_keeps
    | with_reducible apply fxVop_keeps

theorem fxVfma_keeps {s0 : State} {a0 : State} {n : NCtx} {b : Nat} {v : State}  (hK : Keeps s0 v) :
    Keeps s0 ((fxVfma a0 n b).run v) := by
  unfold fxVfma
  repeat' first
    | with_reducible assumption
    | with_reducible apply onNbu_keeps

theorem execVfma_keeps {s0 : State} {g : Nat} {s : State}  (hK : Keeps s0 s) :
    KeepsOut s0 (execVfma g s) := by
  unfold execVfma
  repeat' first
    | with_reducible assumption
    | with_reducible apply nbuRow_keeps
    | with_reducible apply fxVfma_keeps

theorem fxVdot_keeps {s0 : State} {s : State} {n : NCtx} {b : Nat} {v : State}  (hK : Keeps s0 v) :
    Keeps s0 ((fxVdot s n b).run v) := by
  unfold fxVdot
  repeat' first
    | with_reducible assumption
    | with_reducible apply unlessRep0_keeps
    | with_reducible apply onNbu_keeps

theorem execVdot_keeps {s0 : State} {g : Nat} {s : State}  (hK : Keeps s0 s) :
    KeepsOut s0 (execVdot g s) := by
  unfold execVdot
  repeat' first
    | with_reducible assumption
    | with_reducible apply nbuRow_keeps
    | with_reducible apply fxVdot_keeps

theorem fxRedv_keeps {s0 : State} {a0 : State} {n : NCtx} {b : Nat} {v : State}  (hK : Keeps s0 v) :
    Keeps s0 ((fxRedv a0 n b).run v) := by
  unfold fxRedv
  repeat' first
    | with_reducible assumption
    | with_reducible apply onNbu_keeps

theorem execRedv_keeps {s0 : State} {g : Nat} {s : State}  (hK : Keeps s0 s) :
    KeepsOut s0 (execRedv g s) := by
  unfold execRedv
  repeat' first
    | with_reducible assumption
    | with_reducible apply nbuRow_keeps
    | with_reducible apply fxRedv_keeps

theorem fxSten7_keeps {s0 : State} {s : State} {n : NCtx} {b : Nat} {v : State}  (hK : Keeps s0 v) :
    Keeps s0 ((fxSten7 s n b).run v) := by
  unfold fxSten7
  repeat' first
    | with_reducible assumption
    | with_reducible apply unlessRep0_keeps
    | with_reducible apply bankWrite_keeps
    | with_reducible apply onNbu_keeps

theorem execSten7_keeps {s0 : State} {g : Nat} {s : State}  (hK : Keeps s0 s) :
    KeepsOut s0 (execSten7 g s) := by
  unfold execSten7
  repeat' first
    | with_reducible assumption
    | with_reducible apply nbuRow_keeps
    | with_reducible apply fxSten7_keeps

theorem fxDotr_keeps {s0 : State} {s : State} {n : NCtx} {b : Nat} {v : State}  (hK : Keeps s0 v) :
    Keeps s0 ((fxDotr s n b).run v) := by
  unfold fxDotr
  repeat' first
    | with_reducible assumption
    | with_reducible apply unlessRep0_keeps
    | with_reducible apply onNbu_keeps

theorem execDotr_keeps {s0 : State} {g : Nat} {s : State}  (hK : Keeps s0 s) :
    KeepsOut s0 (execDotr g s) := by
  unfold execDotr
  repeat' first
    | with_reducible assumption
    | with_reducible apply nbuRow_keeps
    | with_reducible apply fxDotr_keeps

theorem attnFx_keeps {s0 : State} {s : State} {n : NCtx} {b part partLen sPart sPartLen : Nat}
    {run : (Nat → List CByte) → (Nat → List Byte) → State → State} {v : State}
    (hr : ∀ a b u, Keeps s0 u → Keeps s0 (run a b u)) (h : Keeps s0 v) :
    Keeps s0 ((attnFx s n b part partLen sPart sPartLen run).run v) := onNbu_keeps (hr _ _ _ h)

theorem fxAscore_keeps {s0 : State} {s : State} {n : NCtx} {b : Nat} {v : State}  (hK : Keeps s0 v) :
    Keeps s0 ((fxAscore s n b).run v) := by
  unfold fxAscore
  repeat' first
    | with_reducible assumption
    | with_reducible apply attnFx_keeps
    | with_reducible apply onNbu_keeps
    | intro _

theorem execAscore_keeps {s0 : State} {g : Nat} {s : State}  (hK : Keeps s0 s) :
    KeepsOut s0 (execAscore g s) := by
  unfold execAscore
  repeat' first
    | with_reducible assumption
    | with_reducible apply nbuRow_keeps
    | with_reducible apply fxAscore_keeps

theorem fxAsoft_keeps {s0 : State} {a0 : State} {n : NCtx} {b : Nat} {v : State}  (hK : Keeps s0 v) :
    Keeps s0 ((fxAsoft a0 n b).run v) := by
  unfold fxAsoft
  repeat' first
    | with_reducible assumption
    | with_reducible apply onNbu_keeps

theorem execAsoft_keeps {s0 : State} {g : Nat} {s : State}  (hK : Keeps s0 s) :
    KeepsOut s0 (execAsoft g s) := by
  unfold execAsoft
  repeat' first
    | with_reducible assumption
    | with_reducible apply nbuRow_keeps
    | with_reducible apply fxAsoft_keeps

theorem fxAvsum_keeps {s0 : State} {s : State} {n : NCtx} {b : Nat} {v : State}  (hK : Keeps s0 v) :
    Keeps s0 ((fxAvsum s n b).run v) := by
  unfold fxAvsum
  repeat' first
    | with_reducible assumption
    | with_reducible apply attnFx_keeps
    | with_reducible apply onNbu_keeps
    | intro _

theorem execAvsum_keeps {s0 : State} {g : Nat} {s : State}  (hK : Keeps s0 s) :
    KeepsOut s0 (execAvsum g s) := by
  unfold execAvsum
  repeat' first
    | with_reducible assumption
    | with_reducible apply nbuRow_keeps
    | with_reducible apply fxAvsum_keeps

theorem fxAinit_keeps {s0 : State} {a0 : State} {n : NCtx} {b : Nat} {v : State}  (hK : Keeps s0 v) :
    Keeps s0 ((fxAinit a0 n b).run v) := by
  unfold fxAinit
  repeat' first
    | with_reducible assumption
    | with_reducible apply onNbu_keeps

theorem execAinit_keeps {s0 : State} {g : Nat} {s : State}  (hK : Keeps s0 s) :
    KeepsOut s0 (execAinit g s) := by
  unfold execAinit
  repeat' first
    | with_reducible assumption
    | with_reducible apply nbuRow_keeps
    | with_reducible apply fxAinit_keeps

theorem fxOf_keeps {s0 : State} {s : State} {n : NCtx} {b : Nat} {v : State}  (hK : Keeps s0 v) :
    Keeps s0 ((fxOf s n b).run v) := by
  unfold fxOf
  repeat' first
    | with_reducible assumption
    | with_reducible apply fxPadd_keeps
    | with_reducible apply fxPosadd_keeps
    | with_reducible apply fxLpset_keeps
    | with_reducible apply fxLdw_keeps
    | with_reducible apply fxStw_keeps
    | with_reducible apply fxStp_keeps
    | with_reducible apply fxFill_keeps
    | with_reducible apply fxGath_keeps
    | with_reducible apply fxWres_keeps
    | with_reducible apply fxWresa_keeps
    | with_reducible apply fxAxpy_keeps
    | with_reducible apply fxVop_keeps
    | with_reducible apply fxVfma_keeps
    | with_reducible apply fxVdot_keeps
    | with_reducible apply fxRedv_keeps
    | with_reducible apply fxSten7_keeps
    | with_reducible apply fxDotr_keeps
    | with_reducible apply fxAscore_keeps
    | with_reducible apply fxAsoft_keeps
    | with_reducible apply fxAvsum_keeps
    | with_reducible apply fxAinit_keeps
    | split

/-! ## Machine/AttnCore.lean -/

theorem setLaunchCh_keeps {s0 : State} {s : State} {id : Nat} {g : Nat} {f : LaunchCh → LaunchCh}  (hK : Keeps s0 s) :
    Keeps s0 (setLaunchCh s id g f) := by
  unfold setLaunchCh
  repeat' first
    | with_reducible assumption
    | with_reducible apply Keeps.put_launches
    | split

theorem attnWork_keeps {s0 : State} {s : State} {j : AttnJob} {e : LaunchCh}  (hK : Keeps s0 s) :
    Keeps s0 (attnWork s j e).2 := by
  unfold attnWork
  repeat' first
    | with_reducible assumption
    | with_reducible apply draw_keeps
    | with_reducible apply Keeps.foldl_snd
    | intro _

theorem attnBank_keeps {s0 : State} {g : Nat} {id : Nat} {l : Launch} {j : AttnJob} {e : LaunchCh} {s : State} {b : AttnBank}  (hK : Keeps s0 s) :
    Keeps s0 (attnBank g id l j e s b) := by
  unfold attnBank
  repeat' first
    | with_reducible assumption
    | with_reducible apply logUe_keeps
    | with_reducible apply eccTouch_keeps
    | with_reducible apply draw_keeps
    | with_reducible apply nbuFault_keeps
    | with_reducible apply setChan_keeps
    | with_reducible apply Keeps.ite
    | with_reducible apply Keeps.ite_fst
    | intro _
    | fail_if_no_progress with_reducible apply Keeps.mk_upd
    | split
    | dsimp only

theorem attnBout_keeps {s0 : State} {s : State} {g : Nat}  (hK : Keeps s0 s) :
    Keeps s0 (attnBout s g) := by
  unfold attnBout
  repeat' first
    | with_reducible assumption
    | with_reducible apply attnWork_keeps
    | with_reducible apply setLaunchCh_keeps
    | with_reducible apply attnBank_keeps
    | with_reducible apply setChan_keeps
    | with_reducible apply Keeps.ite
    | with_reducible apply Keeps.ite_snd
    | with_reducible apply Keeps.foldl
    | intro _
    | split

/-! ## Machine/Slots.lean -/

theorem slotBegin_keeps {s0 : State} {s : State} {t : Slot}  (hK : Keeps s0 s) :
    Keeps s0 (slotBegin s t) := by
  unfold slotBegin
  repeat' first
    | with_reducible assumption
    | with_reducible apply trace_keeps
    | with_reducible apply issue_keeps
    | with_reducible apply Keeps.ite
    | intro _

theorem slotFault_keeps {s0 : State} {s : State} {t : Slot} {st : Nat} {count : Nat} {why : Why}  (hK : Keeps s0 s) :
    Keeps s0 (slotFault s t st count why) := by
  unfold slotFault
  repeat' first
    | with_reducible assumption
    | with_reducible apply faultCmd_keeps
    | with_reducible apply Keeps.ite
    | intro _
    | split
    | dsimp only

theorem blkDone_keeps {s0 : State} {s : State} {t : Slot} {next : Option Nat}  (hK : Keeps s0 s) :
    Keeps s0 (blkDone s t next) := by
  unfold blkDone
  repeat' first
    | with_reducible assumption
    | with_reducible apply signalFlag_keeps
    | with_reducible apply trace_keeps
    | with_reducible apply setCtx_keeps
    | with_reducible apply endCmd_keeps
    | with_reducible apply Keeps.ite
    | intro _
    | split
    | dsimp only

theorem slotDone_keeps {s0 : State} {s : State} {t : Slot} {next : Option Nat} {count : Nat}  (hK : Keeps s0 s) :
    Keeps s0 (slotDone s t next count) := by
  unfold slotDone
  repeat' first
    | with_reducible assumption
    | with_reducible apply setRun_keeps
    | with_reducible apply blkDone_keeps
    | with_reducible apply endCmd_keeps
    | with_reducible apply Keeps.ite
    | intro _
    | split

theorem slotVoid_keeps {s0 : State} {s : State} {t : Slot}  (hK : Keeps s0 s) :
    Keeps s0 (slotVoid s t) := by
  unfold slotVoid
  repeat' first
    | with_reducible assumption
    | with_reducible apply blkDone_keeps
    | with_reducible apply endCmd_keeps
    | with_reducible apply Keeps.ite
    | intro _

theorem slotHold_keeps {s0 : State} {s : State} {t : Slot} {aux : Nat}  (hK : Keeps s0 s) :
    Keeps s0 (slotHold s t aux) := by
  unfold slotHold
  repeat' first
    | with_reducible assumption
    | with_reducible apply setRun_keeps
    | split

theorem beginAt_keeps {s0 : State} {op : Nat} {q : Nat} {bad : State → Slot → Option Nat} {go : Slot → State → State} {slot : Option Slot} {s : State} (hg : ∀ t u, Keeps s0 u → Keeps s0 (go t u)) (hK : Keeps s0 s) :
    KeepsOut s0 (beginAt op q bad go slot s) := by
  unfold beginAt
  repeat' first
    | with_reducible assumption
    | with_reducible apply hg
    | with_reducible apply slotBegin_keeps
    | with_reducible apply slotFault_keeps
    | with_reducible apply KeepsOut.ite
    | with_reducible apply KeepsOut.next
    | intro _
    | split

theorem beginOp_keeps {s0 : State} {op : Nat} {q : Nat} {bad : State → Slot → Option Nat} {go : Slot → State → State} {c : Nat} {s : State} (hg : ∀ t u, Keeps s0 u → Keeps s0 (go t u)) (hK : Keeps s0 s) :
    KeepsOut s0 (beginOp op q bad go c s) := by
  unfold beginOp
  repeat' first
    | with_reducible assumption
    | with_reducible apply onCore_keeps
    | with_reducible apply beginAt_keeps
    | with_reducible apply KeepsOut.ite
    | with_reducible apply KeepsOut.fault
    | intro _

/-! ## Machine/Common.lean -/

theorem execNop_keeps {s0 : State} {c : Nat} {q : Nat} {s : State}  (hK : Keeps s0 s) :
    KeepsOut s0 (execNop c q s) := by
  unfold execNop
  repeat' first
    | with_reducible assumption
    | with_reducible apply beginOp_keeps
    | with_reducible apply slotDone_keeps
    | intro _

theorem hurdleClash_keeps {s0 : State} {s : State} {t : Slot} {others : List Nat}  (hK : Keeps s0 s) :
    Keeps s0 (hurdleClash s t others) := by
  unfold hurdleClash
  repeat' first
    | with_reducible assumption
    | with_reducible apply faultQueue_keeps
    | with_reducible apply slotHold_keeps
    | with_reducible apply faultRing_keeps
    | with_reducible apply Keeps.ite
    | with_reducible apply Keeps.foldl
    | intro _
    | split
    | dsimp only

theorem execHurdle_keeps {s0 : State} {c : Nat} {q : Nat} {s : State}  (hK : Keeps s0 s) :
    KeepsOut s0 (execHurdle c q s) := by
  unfold execHurdle
  repeat' first
    | with_reducible assumption
    | with_reducible apply beginOp_keeps
    | with_reducible apply setCtx_keeps
    | with_reducible apply slotHold_keeps
    | with_reducible apply hurdleClash_keeps
    | with_reducible apply Keeps.ite
    | intro _

theorem arwFlush_keeps {s0 : State} {s : State} {c : Nat} {x : Nat} {p : Nat}  (hK : Keeps s0 s) :
    Keeps s0 (arwFlush s c x p) := by
  unfold arwFlush
  repeat' first
    | with_reducible assumption
    | with_reducible apply setAr_keeps
    | with_reducible apply setCtx_keeps
    | with_reducible apply Keeps.foldl
    | intro _

theorem execHurdlePass_keeps {s0 : State} {c : Nat} {q : Nat} {s : State}  (hK : Keeps s0 s) :
    KeepsOut s0 (execHurdlePass c q s) := by
  unfold execHurdlePass
  repeat' first
    | with_reducible assumption
    | with_reducible apply onCore_keeps
    | with_reducible apply arwFlush_keeps
    | with_reducible apply slotDone_keeps
    | with_reducible apply Keeps.ite
    | with_reducible apply KeepsOut.ite
    | with_reducible apply KeepsOut.next
    | with_reducible apply Keeps.foldl
    | intro _
    | split

theorem execSignal_keeps {s0 : State} {c : Nat} {q : Nat} {s : State}  (hK : Keeps s0 s) :
    KeepsOut s0 (execSignal c q s) := by
  unfold execSignal
  repeat' first
    | with_reducible assumption
    | with_reducible apply onCore_keeps
    | with_reducible apply beginOp_keeps
    | with_reducible apply slotDone_keeps
    | with_reducible apply signalFlag_keeps
    | with_reducible apply Keeps.ite
    | with_reducible apply KeepsOut.ite
    | with_reducible apply KeepsOut.next
    | intro _
    | split

theorem execWait_keeps {s0 : State} {c : Nat} {q : Nat} {s : State}  (hK : Keeps s0 s) :
    KeepsOut s0 (execWait c q s) := by
  unfold execWait
  repeat' first
    | with_reducible assumption
    | with_reducible apply beginOp_keeps
    | with_reducible apply slotDone_keeps
    | with_reducible apply slotHold_keeps
    | with_reducible apply Keeps.ite
    | intro _

theorem takeCounts_keeps {s0 : State} {s : State} {c : Nat} {q : Nat} {f : Nat} {n : Nat}  (hK : Keeps s0 s) :
    Keeps s0 (takeCounts s c q f n) := by
  unfold takeCounts
  repeat' first
    | with_reducible assumption
    | with_reducible apply setFlag_keeps
    | with_reducible apply setRun_keeps
    | with_reducible apply Keeps.ite
    | with_reducible apply Keeps.foldl
    | intro _
    | split

theorem execWaitPass_keeps {s0 : State} {c : Nat} {q : Nat} {s : State}  (hK : Keeps s0 s) :
    KeepsOut s0 (execWaitPass c q s) := by
  unfold execWaitPass
  repeat' first
    | with_reducible assumption
    | with_reducible apply onCore_keeps
    | with_reducible apply slotDone_keeps
    | with_reducible apply takeCounts_keeps
    | with_reducible apply Keeps.ite
    | with_reducible apply KeepsOut.ite
    | with_reducible apply KeepsOut.next
    | intro _
    | split

theorem execWaitTally_keeps {s0 : State} {c : Nat} {q : Nat} {s : State}  (hK : Keeps s0 s) :
    KeepsOut s0 (execWaitTally c q s) := by
  unfold execWaitTally
  repeat' first
    | with_reducible assumption
    | with_reducible apply beginOp_keeps
    | with_reducible apply slotHold_keeps
    | intro _

theorem execWaitTallyPass_keeps {s0 : State} {c : Nat} {q : Nat} {s : State}  (hK : Keeps s0 s) :
    KeepsOut s0 (execWaitTallyPass c q s) := by
  unfold execWaitTallyPass
  repeat' first
    | with_reducible assumption
    | with_reducible apply onCore_keeps
    | with_reducible apply slotDone_keeps
    | with_reducible apply KeepsOut.ite
    | with_reducible apply KeepsOut.next
    | intro _
    | split

theorem execWaitTallyTimeout_keeps {s0 : State} {c : Nat} {q : Nat} {s : State}  (hK : Keeps s0 s) :
    KeepsOut s0 (execWaitTallyTimeout c q s) := by
  unfold execWaitTallyTimeout
  repeat' first
    | with_reducible assumption
    | with_reducible apply onCore_keeps
    | with_reducible apply slotFault_keeps
    | with_reducible apply KeepsOut.ite
    | with_reducible apply KeepsOut.next
    | intro _
    | split

theorem execArSet_keeps {s0 : State} {c : Nat} {q : Nat} {s : State}  (hK : Keeps s0 s) :
    KeepsOut s0 (execArSet c q s) := by
  unfold execArSet
  repeat' first
    | with_reducible assumption
    | with_reducible apply beginOp_keeps
    | with_reducible apply slotDone_keeps
    | with_reducible apply setAr_keeps
    | intro _

theorem execFence_keeps {s0 : State} {c : Nat} {q : Nat} {s : State}  (hK : Keeps s0 s) :
    KeepsOut s0 (execFence c q s) := by
  unfold execFence
  repeat' first
    | with_reducible assumption
    | with_reducible apply onCore_keeps
    | with_reducible apply beginOp_keeps
    | with_reducible apply slotDone_keeps
    | with_reducible apply setCtx_keeps
    | with_reducible apply KeepsOut.ite
    | with_reducible apply KeepsOut.next
    | intro _
    | split

/-! ## Machine/Dma.lean -/

theorem readPlans_keeps {s0 : State} {io : RegIo} {s : State} {w : Who} {k : Cmd} {ps : List Plan} (hi : ∀ u f n a z v, Keeps s0 u → Keeps s0 (io.store u f n a z v)) (hK : Keeps s0 s) :
    Keeps s0 (readPlans io s w k ps).1 := by
  unfold readPlans
  repeat' first
    | with_reducible assumption
    | with_reducible apply eccTouch_keeps
    | with_reducible apply regPay_keeps
    | with_reducible apply Keeps.foldl
    | intro _
    | fail_if_no_progress with_reducible apply Keeps.mk_upd

theorem copyPiece_keeps {s0 : State} {io : RegIo} {s : State} {w : Who} {k : Cmd} {p : Piece} (hi : ∀ u f n a z v, Keeps s0 u → Keeps s0 (io.store u f n a z v)) (hK : Keeps s0 s) :
    Keeps s0 (copyPiece io s w k p).1 := by
  unfold copyPiece
  repeat' first
    | with_reducible assumption
    | with_reducible apply hi
    | with_reducible apply hostPost_keeps
    | with_reducible apply askPush_keeps
    | with_reducible apply writeBytes_keeps
    | with_reducible apply extWrite_keeps
    | with_reducible apply Keeps.ite_fst
    | with_reducible apply Keeps.foldl_fst
    | intro _
    | split
    | dsimp only

theorem putPiece_keeps {s0 : State} {s : State} {w : Who} {k : Cmd} {key : Nat} {p : Piece}  (hK : Keeps s0 s) :
    Keeps s0 (putPiece s w k key p).1 := by
  unfold putPiece
  repeat' first
    | with_reducible assumption
    | with_reducible apply sendFab_keeps
    | with_reducible apply Keeps.ite_fst
    | intro _
    | fail_if_no_progress with_reducible apply Keeps.mk_upd

theorem readDesc_keeps {s0 : State} {io : RegIo} {s : State} {w : Who} {k : Cmd} (hi : ∀ u f n a z v, Keeps s0 u → Keeps s0 (io.store u f n a z v)) (hK : Keeps s0 s) :
    Keeps s0 (readDesc io s w k).1 := by
  unfold readDesc
  repeat' first
    | with_reducible assumption
    | with_reducible apply readPlans_keeps
    | split
    | dsimp only

theorem xferBegin_keeps {s0 : State} {io : RegIo} {op : Nat} {s : State} {w : Who} {k : Cmd} {r : Run} (hi : ∀ u f n a z v, Keeps s0 u → Keeps s0 (io.store u f n a z v)) (hK : Keeps s0 s) :
    Keeps s0 (xferBegin io op s w k r).st := by
  unfold xferBegin
  repeat' first
    | with_reducible assumption
    | with_reducible apply askRead_keeps
    | with_reducible apply onCaps_keeps
    | with_reducible apply readPlans_keeps
    | with_reducible apply draw_keeps
    | with_reducible apply dropAsks_keeps
    | with_reducible apply rinc_keeps
    | with_reducible apply setRun_keeps
    | with_reducible apply Keeps.rep_ite
    | with_reducible apply Keeps.st_fault
    | with_reducible apply Keeps.st_wait
    | with_reducible apply Keeps.st_more
    | with_reducible apply Keeps.st_void
    | intro _
    | fail_if_no_progress with_reducible apply Keeps.mk_upd
    | with_reducible refine Keeps.fst (by with_reducible assumption) ?_
    | split

theorem xferRep_keeps {s0 : State} {io : RegIo} {op : Nat} {s : State} {w : Who} {k : Cmd} {r : Run} (hi : ∀ u f n a z v, Keeps s0 u → Keeps s0 (io.store u f n a z v)) (hK : Keeps s0 s) :
    Keeps s0 (xferRep io op s w k r).st := by
  unfold xferRep
  repeat' first
    | with_reducible assumption
    | with_reducible apply askRead_keeps
    | with_reducible apply onCaps_keeps
    | with_reducible apply readDesc_keeps
    | with_reducible apply setRun_keeps
    | with_reducible apply dropAsks_keeps
    | with_reducible apply xferBegin_keeps
    | with_reducible apply putPiece_keeps
    | with_reducible apply copyPiece_keeps
    | with_reducible apply regPay_keeps
    | with_reducible apply Keeps.rep_ite
    | with_reducible apply Keeps.foldl_fst
    | with_reducible apply Keeps.st_done
    | with_reducible apply Keeps.st_fault
    | with_reducible apply Keeps.st_wait
    | with_reducible apply Keeps.st_more
    | intro _
    | with_reducible refine Keeps.fst (by with_reducible assumption) ?_
    | split
    | dsimp only

theorem xferEng_keeps {s0 : State} {io : RegIo} {op : Nat} (hi : ∀ u f n a z v, Keeps s0 u → Keeps s0 (io.store u f n a z v)) {u : State} {w : Who} {k : Cmd} {r : Run} (hK : Keeps s0 u) :
    Keeps s0 ((xferEng io op).rep u w k r).st := xferRep_keeps hi hK

theorem putArrive_keeps {s0 : State} {io : RegIo} {k : Nat} {s : State} (hi : ∀ u f n a z v, Keeps s0 u → Keeps s0 (io.store u f n a z v)) (hK : Keeps s0 s) :
    Keeps s0 (putArrive io k s) := by
  unfold putArrive
  repeat' first
    | with_reducible assumption
    | with_reducible apply hi
    | with_reducible apply dramWrite_keeps
    | with_reducible apply hostPost_keeps
    | with_reducible apply addTally_keeps
    | with_reducible apply extWrite_keeps
    | with_reducible apply Keeps.ite
    | intro _
    | fail_if_no_progress with_reducible apply Keeps.mk_upd
    | split
    | dsimp only

theorem atomicAt_keeps {s0 : State} {s : State} {m : Meet} {a : Nat} {size8 : Bool} {aop : Nat} {opd : Nat} {cmp : Nat}  (hK : Keeps s0 s) :
    Keeps s0 (atomicAt s m a size8 aop opd cmp).1 := by
  unfold atomicAt
  repeat' first
    | with_reducible assumption
    | with_reducible apply eccTouch_keeps
    | with_reducible apply applyView_keeps
    | with_reducible apply encodeUnit_keeps
    | with_reducible apply putBytes_keeps
    | with_reducible apply Keeps.foldl
    | split
    | dsimp only

theorem atomicDo_keeps {s0 : State} {s : State} {w : Who} {k : Cmd} {a : Nat} {size8 : Bool} {aop : Nat} {opd : Word} {cmp : Word}  (hK : Keeps s0 s) :
    Keeps s0 (atomicDo s w k a size8 aop opd cmp).1 := by
  unfold atomicDo
  repeat' first
    | with_reducible assumption
    | with_reducible apply atomicAt_keeps
    | with_reducible apply sendFab_keeps
    | with_reducible apply Keeps.ite_fst
    | intro _
    | fail_if_no_progress with_reducible apply Keeps.mk_upd
    | split
    | dsimp only

theorem queueAtomic_keeps {s0 : State} {s : State} {w : Who} {k : Cmd} {a : Nat} {size8 : Bool} {aop : Nat} {opd : Word} {cmp : Word}  (hK : Keeps s0 s) :
    Keeps s0 (queueAtomic s w k a size8 aop opd cmp).1 := by
  unfold queueAtomic
  repeat' first
    | with_reducible assumption
    | with_reducible apply dropAsks_keeps
    | with_reducible apply askPush_keeps
    | with_reducible apply atomicDo_keeps
    | with_reducible apply Keeps.ite_fst
    | intro _
    | split
    | dsimp only

theorem amoRep_keeps {s0 : State} {io : RegIo} {s : State} {w : Who} {k : Cmd} {a4 : Run} (hi : ∀ u f n a z v, Keeps s0 u → Keeps s0 (io.store u f n a z v)) (hK : Keeps s0 s) :
    Keeps s0 (amoRep io s w k a4).st := by
  unfold amoRep
  repeat' first
    | with_reducible assumption
    | with_reducible apply queueAtomic_keeps
    | with_reducible apply regPay_keeps
    | with_reducible apply copyPiece_keeps
    | with_reducible apply Keeps.rep_ite
    | with_reducible apply Keeps.st_done
    | with_reducible apply Keeps.st_fault
    | with_reducible apply Keeps.st_wait
    | with_reducible apply Keeps.st_more
    | intro _
    | with_reducible refine Keeps.fst (by with_reducible assumption) ?_
    | split
    | dsimp only

theorem amoEng_keeps {s0 : State} {io : RegIo} (hi : ∀ u f n a z v, Keeps s0 u → Keeps s0 (io.store u f n a z v)) {u : State} {w : Who} {k : Cmd} {r : Run} (hK : Keeps s0 u) :
    Keeps s0 ((amoEng io).rep u w k r).st := amoRep_keeps (a4 := r) hi hK

theorem execPalWrite_keeps {s0 : State} {c : Nat} {s : State}  (hK : Keeps s0 s) :
    KeepsOut s0 (execPalWrite c s) := by
  unfold execPalWrite
  repeat' first
    | with_reducible assumption
    | with_reducible apply beginOp_keeps
    | with_reducible apply rset_keeps
    | with_reducible apply markWait_keeps
    | with_reducible apply slotHold_keeps
    | intro _

theorem execPalWriteApply_keeps {s0 : State} {c : Nat} {s : State}  (hK : Keeps s0 s) :
    KeepsOut s0 (execPalWriteApply c s) := by
  unfold execPalWriteApply
  repeat' first
    | with_reducible assumption
    | with_reducible apply onCore_keeps
    | with_reducible apply rset_keeps
    | with_reducible apply slotDone_keeps
    | with_reducible apply KeepsOut.ite
    | with_reducible apply KeepsOut.next
    | with_reducible apply Keeps.foldl
    | intro _
    | split

/-! ## Machine/Channel.lean -/

theorem repairWord_keeps {s0 : State} {s : State} {u : Nat}  (hK : Keeps s0 s) :
    Keeps s0 (repairWord s u) := by
  unfold repairWord
  repeat' first
    | with_reducible assumption
    | with_reducible apply logUe_keeps
    | with_reducible apply rinc_keeps
    | with_reducible apply rewriteDram_keeps
    | with_reducible apply Keeps.ite
    | intro _

theorem grazeUnit_keeps {s0 : State} {s : State} {u : Nat}  (hK : Keeps s0 s) :
    Keeps s0 (grazeUnit s u) := by
  unfold grazeUnit
  repeat' first
    | with_reducible assumption
    | with_reducible apply flushWb_keeps
    | with_reducible apply logUe_keeps
    | with_reducible apply noteUe_keeps
    | with_reducible apply rewriteDram_keeps
    | with_reducible apply countCe_keeps
    | with_reducible apply rewriteSram_keeps
    | with_reducible apply correctSram_keeps
    | with_reducible apply Keeps.ite
    | intro _

theorem askEnd_keeps {s0 : State} {s : State} {k : Ask}  (hK : Keeps s0 s) :
    Keeps s0 (askEnd s k) := by
  unfold askEnd
  repeat' first
    | with_reducible assumption
    | with_reducible apply postServed_keeps
    | with_reducible apply dropAsk_keeps
    | with_reducible apply addTally_keeps
    | with_reducible apply onCaps_keeps
    | with_reducible apply hostReads_keeps
    | with_reducible apply answer_keeps
    | with_reducible apply answerEp_keeps
    | with_reducible apply respond_keeps
    | with_reducible apply peerReads_keeps
    | with_reducible apply putAsk_keeps
    | with_reducible apply Keeps.ite
    | intro _
    | split

theorem askServed_keeps {s0 : State} {s : State} {k : Ask}  (hK : Keeps s0 s) :
    Keeps s0 (askServed s k) := by
  unfold askServed
  repeat' first
    | with_reducible assumption
    | with_reducible apply sendReqs_keeps
    | with_reducible apply askEnd_keeps
    | with_reducible apply putAsk_keeps
    | with_reducible apply Keeps.ite
    | intro _

theorem serveAccess_keeps {s0 : State} {s : State} {x : Access}  (hK : Keeps s0 s) :
    Keeps s0 (serveAccess s x) := by
  unfold serveAccess
  repeat' first
    | with_reducible assumption
    | with_reducible apply repairWord_keeps
    | with_reducible apply grazeUnit_keeps
    | with_reducible apply atomicAt_keeps
    | with_reducible apply askServed_keeps
    | with_reducible apply extWrite_keeps
    | with_reducible apply addTally_keeps
    | with_reducible apply eccTouch_keeps
    | with_reducible apply Keeps.ite
    | intro _
    | split
    | dsimp only

theorem serveHeld_keeps {s0 : State}  {a0 : Nat} :
    ∀ {a1 : State} {a2 : Nat}, Keeps s0 a1 → Keeps s0 (serveHeld a0 a1 a2) := by
  induction a0 with
  | zero =>
    intros
    unfold serveHeld
    repeat' first
      | with_reducible assumption
  | succ x ih =>
    intros
    unfold serveHeld
    repeat' first
      | with_reducible assumption
      | with_reducible apply ih
      | with_reducible apply setChan_keeps
      | with_reducible apply serveAccess_keeps
      | split
      | dsimp only

theorem serveAll_keeps {s0 : State} {s : State} {g : Nat}  (hK : Keeps s0 s) :
    Keeps s0 (serveAll s g) := by
  unfold serveAll
  repeat' first
    | with_reducible assumption
    | with_reducible apply serveHeld_keeps

theorem holdRelease_keeps {s0 : State} {s : State} {g : Nat}  (hK : Keeps s0 s) :
    Keeps s0 (holdRelease s g) := by
  unfold holdRelease
  repeat' first
    | with_reducible assumption
    | with_reducible apply setChan_keeps
    | with_reducible apply rinc_keeps
    | with_reducible apply Keeps.ite
    | intro _
    | split
    | dsimp only

theorem channelTakes_keeps {s0 : State} {s : State} {g : Nat} {a : Access}  (hK : Keeps s0 s) :
    Keeps s0 (channelTakes s g a) := by
  unfold channelTakes
  repeat' first
    | with_reducible assumption
    | with_reducible apply serveAccess_keeps
    | with_reducible apply holdPush_keeps
    | with_reducible apply Keeps.ite
    | intro _

theorem execOrdinaryAccess_keeps {s0 : State} {g : Nat} {a : Access} {s : State}  (hK : Keeps s0 s) :
    KeepsOut s0 (execOrdinaryAccess g a s) := by
  unfold execOrdinaryAccess
  repeat' first
    | with_reducible assumption
    | with_reducible apply channelTakes_keeps
    | with_reducible apply regCharge_keeps
    | with_reducible apply Keeps.ite
    | with_reducible apply KeepsOut.ite
    | with_reducible apply KeepsOut.next
    | with_reducible apply KeepsOut.fault
    | intro _
    | fail_if_no_progress with_reducible apply Keeps.mk_upd
    | split

theorem toDeferred_keeps {s0 : State} {s : State} {g : Nat}  (hK : Keeps s0 s) :
    Keeps s0 (toDeferred s g) := by
  unfold toDeferred
  repeat' first
    | with_reducible assumption
    | with_reducible apply ror_keeps
    | with_reducible apply setChan_keeps

theorem startOrDefer_keeps {s0 : State} {s : State} {g : Nat}  (hK : Keeps s0 s) :
    Keeps s0 (startOrDefer s g) := by
  unfold startOrDefer
  repeat' first
    | with_reducible assumption
    | with_reducible apply setChan_keeps
    | with_reducible apply toDeferred_keeps
    | with_reducible apply Keeps.ite
    | intro _

theorem execCapAdmit_keeps {s0 : State} {st : Nat} {s : State}  (hK : Keeps s0 s) :
    KeepsOut s0 (execCapAdmit st s) := by
  unfold execCapAdmit
  repeat' first
    | with_reducible assumption
    | with_reducible apply setChan_keeps
    | with_reducible apply KeepsOut.ite
    | with_reducible apply KeepsOut.next
    | with_reducible apply KeepsOut.fault
    | intro _
    | split
    | dsimp only

theorem execCapUpdate_keeps {s0 : State} {st : Nat} {cap : Nat} {s : State}  (hK : Keeps s0 s) :
    KeepsOut s0 (execCapUpdate st cap s) := by
  unfold execCapUpdate
  repeat' first
    | with_reducible assumption
    | with_reducible apply rfld_keeps
    | with_reducible apply KeepsOut.ite
    | with_reducible apply KeepsOut.next
    | with_reducible apply KeepsOut.fault
    | intro _

theorem loadHead_keeps {s0 : State} {s : State} {g : Nat} {id : Nat} {l : Launch}  (hK : Keeps s0 s) :
    Keeps s0 (loadHead s g id l) := by
  unfold loadHead
  repeat' first
    | with_reducible assumption
    | with_reducible apply setChan_keeps
    | with_reducible apply setNbu_keeps
    | with_reducible apply setLaunchCh_keeps
    | with_reducible apply Keeps.ite
    | with_reducible apply Keeps.foldl
    | intro _
    | fail_if_no_progress with_reducible apply Keeps.mk_upd

theorem beginBout_keeps {s0 : State} {s : State} {g : Nat} {fromGap : Bool}  (hK : Keeps s0 s) :
    Keeps s0 (beginBout s g fromGap) := by
  unfold beginBout
  repeat' first
    | with_reducible assumption
    | with_reducible apply setChan_keeps
    | with_reducible apply loadHead_keeps
    | with_reducible apply draw_keeps
    | with_reducible apply Keeps.ite
    | intro _
    | split
    | dsimp only

theorem startFromSwitch_keeps {s0 : State} {s : State} {g : Nat}  (hK : Keeps s0 s) :
    Keeps s0 (startFromSwitch s g) := by
  unfold startFromSwitch
  repeat' first
    | with_reducible assumption
    | with_reducible apply beginBout_keeps

theorem popHead_keeps {s0 : State} {s : State} {g : Nat}  (hK : Keeps s0 s) :
    Keeps s0 (popHead s g) := by
  unfold popHead
  repeat' first
    | with_reducible assumption
    | with_reducible apply setChan_keeps

theorem popDropped_keeps {s0 : State} {s : State} {g : Nat}  (hK : Keeps s0 s) :
    Keeps s0 (popDropped s g) := by
  unfold popDropped
  repeat' first
    | with_reducible assumption
    | with_reducible apply popHead_keeps
    | with_reducible apply setLaunchCh_keeps
    | with_reducible apply Keeps.ite
    | intro _
    | split
    | dsimp only

theorem execBoutEnd_keeps {s0 : State} {g : Nat} {s : State}  (hK : Keeps s0 s) :
    KeepsOut s0 (execBoutEnd g s) := by
  unfold execBoutEnd
  repeat' first
    | with_reducible assumption
    | with_reducible apply attnBout_keeps
    | with_reducible apply rinc_keeps
    | with_reducible apply popHead_keeps
    | with_reducible apply setLaunchCh_keeps
    | with_reducible apply setChan_keeps
    | with_reducible apply Keeps.ite
    | with_reducible apply KeepsOut.ite
    | with_reducible apply KeepsOut.next
    | with_reducible apply KeepsOut.fault
    | intro _
    | fail_if_no_progress with_reducible apply Keeps.mk_upd
    | split

theorem gapEnd_keeps {s0 : State} {s : State} {g : Nat}  (hK : Keeps s0 s) :
    Keeps s0 (gapEnd s g) := by
  unfold gapEnd
  repeat' first
    | with_reducible assumption
    | with_reducible apply popDropped_keeps
    | with_reducible apply holdRelease_keeps
    | with_reducible apply serveHeld_keeps
    | with_reducible apply setChan_keeps
    | with_reducible apply beginBout_keeps
    | with_reducible apply Keeps.ite
    | intro _

theorem execGapEnd_keeps {s0 : State} {g : Nat} {s : State}  (hK : Keeps s0 s) :
    KeepsOut s0 (execGapEnd g s) := by
  unfold execGapEnd
  repeat' first
    | with_reducible assumption
    | with_reducible apply gapEnd_keeps
    | with_reducible apply KeepsOut.ite
    | with_reducible apply KeepsOut.next
    | with_reducible apply KeepsOut.fault
    | intro _

theorem execBoutStart_keeps {s0 : State} {g : Nat} {s : State}  (hK : Keeps s0 s) :
    KeepsOut s0 (execBoutStart g s) := by
  unfold execBoutStart
  repeat' first
    | with_reducible assumption
    | with_reducible apply startFromSwitch_keeps
    | with_reducible apply gapEnd_keeps
    | with_reducible apply KeepsOut.ite
    | with_reducible apply KeepsOut.next
    | with_reducible apply KeepsOut.fault
    | intro _

theorem execChannelSwitchOut_keeps {s0 : State} {g : Nat} {s : State}  (hK : Keeps s0 s) :
    KeepsOut s0 (execChannelSwitchOut g s) := by
  unfold execChannelSwitchOut
  repeat' first
    | with_reducible assumption
    | with_reducible apply popDropped_keeps
    | with_reducible apply holdRelease_keeps
    | with_reducible apply serveAll_keeps
    | with_reducible apply setChan_keeps
    | with_reducible apply toDeferred_keeps
    | with_reducible apply startOrDefer_keeps
    | with_reducible apply KeepsOut.ite
    | with_reducible apply KeepsOut.next
    | with_reducible apply KeepsOut.fault
    | intro _

theorem upArrive_keeps {s0 : State} {isTap : Bool} {g : Nat} {k : Nat} {s : State}  (hK : Keeps s0 s) :
    KeepsOut s0 (upArrive isTap g k s) := by
  unfold upArrive
  repeat' first
    | with_reducible assumption
    | with_reducible apply setChan_keeps
    | with_reducible apply dramWrite_keeps
    | with_reducible apply extWrite_keeps
    | with_reducible apply addTally_keeps
    | with_reducible apply Keeps.ite
    | with_reducible apply KeepsOut.ite
    | with_reducible apply KeepsOut.next
    | with_reducible apply KeepsOut.fault
    | intro _
    | split
    | dsimp only

theorem execTapDataArrive_keeps {s0 : State} {g : Nat} {k : Nat} {s : State}  (hK : Keeps s0 s) :
    KeepsOut s0 (execTapDataArrive g k s) := by
  unfold execTapDataArrive
  repeat' first
    | with_reducible assumption
    | with_reducible apply upArrive_keeps

theorem execResultDataArrive_keeps {s0 : State} {g : Nat} {k : Nat} {s : State}  (hK : Keeps s0 s) :
    KeepsOut s0 (execResultDataArrive g k s) := by
  unfold execResultDataArrive
  repeat' first
    | with_reducible assumption
    | with_reducible apply upArrive_keeps

/-! ## Machine/Launch.lean -/

theorem launchRead_keeps {s0 : State} {s : State} {w : Who} {k : Cmd} {ar : Option AReg} {ga : Nat} {len : Nat}  (hK : Keeps s0 s) :
    Keeps s0 (launchRead s w k ar ga len).st := by
  unfold launchRead
  repeat' first
    | with_reducible assumption
    | with_reducible apply askRead_keeps
    | with_reducible apply onCaps_keeps
    | with_reducible apply eccTouch_keeps
    | with_reducible apply Keeps.st_bad
    | with_reducible apply Keeps.st_held
    | with_reducible apply Keeps.st_ok
    | intro _
    | with_reducible refine Keeps.fst (by with_reducible assumption) ?_
    | split

theorem readAll_keeps {s0 : State} {rd : State → Nat → Got (List Byte)} (hr : ∀ u a, Keeps s0 u → Keeps s0 (rd u a).st) {a1 : List Nat} :
    ∀ {a2 : State} {a3 : List (List Byte)}, Keeps s0 a2 → Keeps s0 (readAll rd a1 a2 a3).st := by
  induction a1 with
  | nil =>
    intros
    unfold readAll
    repeat' first
      | with_reducible assumption
      | with_reducible apply Keeps.st_ok
  | cons x xs ih =>
    intros
    unfold readAll
    repeat' first
      | with_reducible assumption
      | with_reducible apply ih
      | with_reducible apply hr
      | with_reducible apply Keeps.st_bad
      | with_reducible apply Keeps.st_held
      | with_reducible refine Keeps.bad (by with_reducible assumption) ?_
      | with_reducible refine Keeps.held (by with_reducible assumption) ?_
      | with_reducible refine Keeps.ok (by with_reducible assumption) ?_
      | split

theorem launchOf_keeps {s0 : State} {s : State} {w : Who} {k : Cmd} {ar : AReg} {rep : Nat}  (hK : Keeps s0 s) :
    Keeps s0 (launchOf s w k ar rep).st := by
  unfold launchOf
  repeat' first
    | with_reducible assumption
    | with_reducible apply launchRead_keeps
    | with_reducible apply readAll_keeps
    | with_reducible apply Keeps.got_ite
    | with_reducible apply Keeps.got_guard
    | with_reducible apply Keeps.got_bind
    | with_reducible apply Keeps.st_bad
    | with_reducible apply Keeps.st_ok
    | intro _

theorem luIssue_keeps {s0 : State} {s : State} {w : Who} {k : Cmd}  (hK : Keeps s0 s) :
    Keeps s0 (luIssue s w k) := by
  unfold luIssue
  repeat' first
    | with_reducible assumption
    | with_reducible apply trace_keeps
    | with_reducible apply setCtx_keeps

theorem luTake_keeps {s0 : State} {s : State} {w : Who} {k : Cmd}  (hK : Keeps s0 s) :
    Keeps s0 (luTake s w k) := by
  unfold luTake
  repeat' first
    | with_reducible assumption
    | with_reducible apply setCtx_keeps
    | with_reducible apply luCommit_keeps
    | with_reducible apply Keeps.ite
    | intro _

theorem heldOnly_keeps {s0 : State} {s t : State} (hK : Keeps s0 s) (hT : Keeps s0 t) : Keeps s0 (heldOnly s t) :=
  { hK with stores := fun w => { hK.stores w with chans := (hT.stores w).chans } }

theorem setLu_keeps {s0 : State} {s : State} {w : Who} {i : Nat} {f : LRun → LRun}  (hK : Keeps s0 s) :
    Keeps s0 (setLu s w i f) := by
  unfold setLu
  repeat' first
    | with_reducible assumption
    | with_reducible apply setCtx_keeps

theorem addLaunch_keeps {s0 : State} {s : State} {l : Launch}  (hK : Keeps s0 s) :
    Keeps s0 (addLaunch s l) := by
  unfold addLaunch
  repeat' first
    | with_reducible assumption
    | with_reducible apply Keeps.put_launches

theorem luRepeats_keeps {s0 : State} {op : Nat} {w : Who} {mk : State →   Who →     Cmd →       AReg →         AReg → Nat → Got (List Launch × Nat)} (hm : ∀ u w k a b n, Keeps s0 u → Keeps s0 (mk u w k a b n).st) {a3 : Nat} :
    ∀ {a4 : State}, Keeps s0 a4 → Keeps s0 (luRepeats op w mk a3 a4) := by
  induction a3 with
  | zero =>
    intros
    unfold luRepeats
    repeat' first
      | with_reducible assumption
  | succ x ih =>
    intros
    unfold luRepeats
    repeat' first
      | with_reducible assumption
      | with_reducible apply ih
      | with_reducible apply hm
      | with_reducible apply setLu_keeps
      | with_reducible apply dropAsks_keeps
      | with_reducible apply heldOnly_keeps
      | with_reducible apply addLaunch_keeps
      | with_reducible apply Keeps.ite
      | with_reducible apply Keeps.foldl
      | intro _
      | with_reducible refine Keeps.bad (by with_reducible assumption) ?_
      | with_reducible refine Keeps.held (by with_reducible assumption) ?_
      | with_reducible refine Keeps.ok (by with_reducible assumption) ?_
      | split

theorem luRow_keeps {s0 : State} {op : Nat} {check : State → Who → Cmd → Option Nat} {mk : State →   Who →     Cmd →       AReg →         AReg → Nat → Got (List Launch × Nat)} {c : Nat} {n : Nat} {s : State} (hm : ∀ u w k a b n, Keeps s0 u → Keeps s0 (mk u w k a b n).st) (hK : Keeps s0 s) :
    KeepsOut s0 (luRow op check mk c n s) := by
  unfold luRow
  repeat' first
    | with_reducible assumption
    | with_reducible apply onCore_keeps
    | with_reducible apply luRepeats_keeps
    | with_reducible apply luIssue_keeps
    | with_reducible apply luTake_keeps
    | with_reducible apply faultCmd_keeps
    | with_reducible apply endCmd_keeps
    | with_reducible apply KeepsOut.ite
    | with_reducible apply KeepsOut.next
    | intro _
    | split
    | dsimp only

theorem execNbuLaunch_keeps {s0 : State} {c : Nat} {n : Nat} {s : State}  (hK : Keeps s0 s) :
    KeepsOut s0 (execNbuLaunch c n s) := by
  unfold execNbuLaunch
  repeat' first
    | with_reducible assumption
    | with_reducible apply luRow_keeps
    | with_reducible apply launchOf_keeps
    | with_reducible apply Keeps.got_bind
    | with_reducible apply Keeps.st_ok
    | intro _

theorem execLaunchAdmit_keeps {s0 : State} {id : Nat} {s : State}  (hK : Keeps s0 s) :
    KeepsOut s0 (execLaunchAdmit id s) := by
  unfold execLaunchAdmit
  repeat' first
    | with_reducible assumption
    | with_reducible apply setChan_keeps
    | with_reducible apply startOrDefer_keeps
    | with_reducible apply setLu_keeps
    | with_reducible apply Keeps.ite
    | with_reducible apply KeepsOut.ite
    | with_reducible apply KeepsOut.next
    | with_reducible apply Keeps.foldl
    | intro _
    | with_reducible apply Keeps.put_launches
    | split
    | dsimp only

theorem execLaunchComplete_keeps {s0 : State} {c : Nat} {s : State}  (hK : Keeps s0 s) :
    KeepsOut s0 (execLaunchComplete c s) := by
  unfold execLaunchComplete
  repeat' first
    | with_reducible assumption
    | with_reducible apply onCore_keeps
    | with_reducible apply setAr_keeps
    | with_reducible apply setCtx_keeps
    | with_reducible apply qfault_keeps
    | with_reducible apply drainOpens_keeps
    | with_reducible apply finishStop_keeps
    | with_reducible apply faultRing_keeps
    | with_reducible apply cancelCtx_keeps
    | with_reducible apply Keeps.ite
    | with_reducible apply KeepsOut.ite
    | with_reducible apply KeepsOut.next
    | with_reducible apply Keeps.foldl
    | intro _
    | with_reducible apply Keeps.put_launches
    | split

theorem execLaunchFaultPropagate_keeps {s0 : State} {id : Nat} {s : State}  (hK : Keeps s0 s) :
    KeepsOut s0 (execLaunchFaultPropagate id s) := by
  unfold execLaunchFaultPropagate
  repeat' first
    | with_reducible assumption
    | with_reducible apply dropLaunch_keeps
    | with_reducible apply setLu_keeps
    | with_reducible apply KeepsOut.next
    | with_reducible apply Keeps.foldl
    | with_reducible apply Keeps.put_launches
    | split
    | dsimp only

theorem luTimeout_keeps {s0 : State} {s : State} {w : Who} {i : Nat} {rep : Nat}  (hK : Keeps s0 s) :
    Keeps s0 (luTimeout s w i rep) := by
  unfold luTimeout
  repeat' first
    | with_reducible assumption
    | with_reducible apply dropLaunch_keeps
    | with_reducible apply dropAsks_keeps
    | with_reducible apply setLu_keeps
    | with_reducible apply Keeps.foldl
    | split

theorem ctxTimeout_keeps {s0 : State} {s : State} {c q x : Nat} (hK : Keeps s0 s) :
    ∀ t, ctxTimeout s c q x = some t → Keeps s0 t := by
  intro t e
  unfold ctxTimeout at e
  dsimp only at e
  split at e
  · split at e
    · cases e; exact slotFault_keeps hK
    · split at e
      · obtain ⟨y, -, rfl⟩ := Option.map_eq_some_iff.mp e
        exact slotFault_keeps hK
      · cases e; exact faultCmd_keeps hK
  · split at e
    · obtain ⟨y, -, rfl⟩ := Option.map_eq_some_iff.mp e
      exact luTimeout_keeps hK
    · cases e

theorem execResourceWaitTimeout_keeps {s0 : State} {c q : Nat} {s : State} (hK : Keeps s0 s) :
    KeepsOut s0 (execResourceWaitTimeout c q s) := by
  unfold execResourceWaitTimeout
  refine onCore_keeps (KeepsOut.ite (fun _ => KeepsOut.fault) fun _ => KeepsOut.next ?_)
  cases h : (List.range 8).findSome? (ctxTimeout s c q) with
  | none => exact hK
  | some t =>
    obtain ⟨x, -, e⟩ := List.exists_of_findSome?_eq_some h
    exact ctxTimeout_keeps hK t e

/-! ## Machine/Matrix.lean -/

theorem setTy_keeps {s0 s : State} {c e : Nat} {t : AccTy} (h : Keeps s0 s) : Keeps s0 (setTy s c e t) :=
  Keeps.mk_stores h fun w => { w with accTy := tput_wf w.accTy }

theorem accPut_keeps {s0 s : State} {c e : Nat} {vs : List (BitVec 48)} (hK : Keeps s0 s) : Keeps s0 (accPut s c e vs) := by
  unfold accPut
  extract_lets b mid
  exact Keeps.mk_stores hK fun w => { w with acc := cells_wf w.acc }

theorem accZero_keeps {s0 : State} {s : State} {c : Nat} {e : Nat} {t : AccTy}  (hK : Keeps s0 s) :
    Keeps s0 (accZero s c e t) := by
  unfold accZero
  repeat' first
    | with_reducible assumption
    | with_reducible apply setTy_keeps
    | with_reducible apply accPut_keeps

theorem accKill_keeps {s0 : State} {s : State} {c : Nat} {es : List Nat}  (hK : Keeps s0 s) :
    Keeps s0 (accKill s c es) := by
  unfold accKill
  repeat' first
    | with_reducible assumption
    | with_reducible apply accZero_keeps
    | with_reducible apply Keeps.foldl
    | intro _

theorem parityHit_keeps {s0 : State} {s : State} {w : Who} {k : Cmd}  (hK : Keeps s0 s) :
    Keeps s0 (parityHit s w k) := by
  unfold parityHit
  repeat' first
    | with_reducible assumption
    | with_reducible apply logUe_keeps
    | with_reducible apply setCore_keeps
    | with_reducible apply coreFail_keeps
    | with_reducible apply Keeps.ite
    | intro _

theorem partCycles_keeps {s0 : State} {s : State} {c : Nat} {cyc : Nat} {stall : Nat}  (hK : Keeps s0 s) :
    Keeps s0 (partCycles s c cyc stall) := by
  unfold partCycles
  repeat' first
    | with_reducible assumption
    | with_reducible apply draw_keeps
    | with_reducible apply rinc_keeps

theorem mmaRep_keeps {s0 : State} {s : State} {w : Who} {k : Cmd} {r : Run}  (hK : Keeps s0 s) :
    Keeps s0 (mmaRep s w k r).st := by
  unfold mmaRep
  repeat' first
    | with_reducible assumption
    | with_reducible apply accZero_keeps
    | with_reducible apply accKill_keeps
    | with_reducible apply parityHit_keeps
    | with_reducible apply eccTouch_keeps
    | with_reducible apply partCycles_keeps
    | with_reducible apply rinc_keeps
    | with_reducible apply setCore_keeps
    | with_reducible apply setRun_keeps
    | with_reducible apply accPut_keeps
    | with_reducible apply accSat_keeps
    | with_reducible apply raiseNum_keeps
    | with_reducible apply Keeps.ite
    | with_reducible apply Keeps.rep_ite
    | with_reducible apply Keeps.st_done
    | with_reducible apply Keeps.st_fault
    | with_reducible apply Keeps.st_more
    | intro _
    | fail_if_no_progress with_reducible apply Keeps.mk_upd
    | split
    | dsimp only

theorem mmaEng_keeps {s0 : State} {u : State} {w : Who} {k : Cmd} {r : Run} (hK : Keeps s0 u) :
    Keeps s0 ((mmaEng).rep u w k r).st := mmaRep_keeps hK

theorem execMma_keeps {s0 : State} {c : Nat} {n : Nat} {s : State}  (hK : Keeps s0 s) :
    KeepsOut s0 (execMma c n s) := by
  unfold execMma
  repeat' first
    | with_reducible assumption
    | with_reducible apply engineRow_keeps
    | with_reducible apply mmaEng_keeps

theorem slRep_keeps {s0 : State} {s : State} {w : Who} {k : Cmd} {r : Run}  (hK : Keeps s0 s) :
    Keeps s0 (slRep s w k r).st := by
  unfold slRep
  repeat' first
    | with_reducible assumption
    | with_reducible apply accZero_keeps
    | with_reducible apply accKill_keeps
    | with_reducible apply parityHit_keeps
    | with_reducible apply eccTouch_keeps
    | with_reducible apply partCycles_keeps
    | with_reducible apply rinc_keeps
    | with_reducible apply setCore_keeps
    | with_reducible apply setRun_keeps
    | with_reducible apply accPut_keeps
    | with_reducible apply accSat_keeps
    | with_reducible apply Keeps.ite
    | with_reducible apply Keeps.rep_ite
    | with_reducible apply Keeps.foldl
    | with_reducible apply Keeps.foldl_fst
    | with_reducible apply Keeps.st_done
    | with_reducible apply Keeps.st_fault
    | intro _
    | fail_if_no_progress with_reducible apply Keeps.mk_upd
    | split
    | dsimp only

theorem slEng_keeps {s0 : State} {u : State} {w : Who} {k : Cmd} {r : Run} (hK : Keeps s0 u) :
    Keeps s0 ((slEng).rep u w k r).st := slRep_keeps hK

theorem execMmaSlice_keeps {s0 : State} {c : Nat} {n : Nat} {s : State}  (hK : Keeps s0 s) :
    KeepsOut s0 (execMmaSlice c n s) := by
  unfold execMmaSlice
  repeat' first
    | with_reducible assumption
    | with_reducible apply engineRow_keeps
    | with_reducible apply slEng_keeps

theorem aiRep_keeps {s0 : State} {s : State} {w : Who} {k : Cmd} {r : Run}  (hK : Keeps s0 s) :
    Keeps s0 (aiRep s w k r).st := by
  unfold aiRep
  repeat' first
    | with_reducible assumption
    | with_reducible apply accZero_keeps
    | with_reducible apply setRun_keeps
    | with_reducible apply eccTouch_keeps
    | with_reducible apply setTy_keeps
    | with_reducible apply accPut_keeps
    | with_reducible apply Keeps.rep_ite
    | with_reducible apply Keeps.st_done
    | with_reducible apply Keeps.st_fault
    | intro _
    | split
    | dsimp only

theorem aiEng_keeps {s0 : State} {u : State} {w : Who} {k : Cmd} {r : Run} (hK : Keeps s0 u) :
    Keeps s0 ((aiEng).rep u w k r).st := aiRep_keeps hK

theorem execAccInit_keeps {s0 : State} {c : Nat} {n : Nat} {s : State}  (hK : Keeps s0 s) :
    KeepsOut s0 (execAccInit c n s) := by
  unfold execAccInit
  repeat' first
    | with_reducible assumption
    | with_reducible apply engineRow_keeps
    | with_reducible apply aiEng_keeps

theorem writeRows_keeps {s0 : State} {m : Meet}  {a1 : List (Nat × List Byte)} :
    ∀ {a2 : State}, Keeps s0 a2 → Keeps s0 (writeRows m a1 a2).1 := by
  induction a1 with
  | nil =>
    intros
    unfold writeRows
    repeat' first
      | with_reducible assumption
  | cons x xs ih =>
    intros
    unfold writeRows
    repeat' first
      | with_reducible assumption
      | with_reducible apply ih
      | with_reducible apply writeBytes_keeps

theorem adRep_keeps {s0 : State} {s : State} {w : Who} {k : Cmd} {r : Run} (hK : Keeps s0 s) :
    Keeps s0 (adRep s w k r).st := by
  unfold adRep
  extract_lets c e ty r0 r1 n p lost t u rows u1 u2 o
  have hl : ∀ v, Keeps s0 v → Keeps s0 (lost v) := fun v hv => scramble_keeps hv
  clear_value lost
  have ht : Keeps s0 u := eccTouch_keeps hK
  clear_value u
  have ho : Keeps s0 o.1 := writeRows_keeps (srTake_keeps (raiseNum_keeps ht))
  clear_value o
  split
  · exact hK
  · with_reducible refine Keeps.rep_ite (fun _ => Keeps.st_fault hK) (fun _ => ?_)
    split
    · exact hK
    · split
      · exact hl _ (eccTouch_keeps hK)
      · with_reducible refine Keeps.rep_ite (fun _ => Keeps.st_fault ?_) (fun _ => ?_)
        · exact accKill_keeps (hl _ (parityHit_keeps (Keeps.mk_upd ht)))
        · split
          · exact hl _ ho
          · exact ho

theorem adEng_keeps {s0 : State} {u : State} {w : Who} {k : Cmd} {r : Run} (hK : Keeps s0 u) :
    Keeps s0 ((adEng).rep u w k r).st := adRep_keeps hK

theorem execAccDrain_keeps {s0 : State} {c : Nat} {n : Nat} {s : State}  (hK : Keeps s0 s) :
    KeepsOut s0 (execAccDrain c n s) := by
  unfold execAccDrain
  repeat' first
    | with_reducible assumption
    | with_reducible apply engineRow_keeps
    | with_reducible apply adEng_keeps

/-! ## Machine/Drover.lean -/

theorem fetchNext_keeps {s0 : State} {s : State} {n : Nat} {m : Nat}  (hK : Keeps s0 s) :
    Keeps s0 (fetchNext s n m) := by
  unfold fetchNext
  repeat' first
    | with_reducible assumption
    | with_reducible apply setRing_keeps

theorem svcDrain_keeps {s0 : State} {n : Nat}  {a1 : Nat} :
    ∀ {a2 : State}, Keeps s0 a2 → Keeps s0 (svcDrain n a1 a2) := by
  induction a1 with
  | zero =>
    intros
    unfold svcDrain
    repeat' first
      | with_reducible assumption
  | succ x ih =>
    intros
    unfold svcDrain
    repeat' first
      | with_reducible assumption
      | with_reducible apply ih
      | with_reducible apply emitSvc_keeps
      | with_reducible apply setRing_keeps
      | split
      | dsimp only

theorem svcEnd_keeps {s0 : State} {s : State} {n : Nat} {id : Nat} {status : Nat} {count : Nat}  (hK : Keeps s0 s) :
    Keeps s0 (svcEnd s n id status count) := by
  unfold svcEnd
  repeat' first
    | with_reducible assumption
    | with_reducible apply svcDrain_keeps
    | with_reducible apply setRing_keeps
    | with_reducible apply finishStop_keeps
    | with_reducible apply haltMember_keeps
    | with_reducible apply Keeps.ite
    | intro _

theorem svcTake_keeps {s0 : State} {s : State} {n : Nat} {k : Cmd}  (hK : Keeps s0 s) :
    Keeps s0 (svcTake s n k).1 := by
  unfold svcTake
  repeat' first
    | with_reducible assumption
    | with_reducible apply fetchNext_keeps
    | with_reducible apply setRing_keeps
    | fail_if_no_progress with_reducible apply Keeps.mk_upd

theorem bindMember_keeps {s0 : State} {s : State} {n : Nat} {c : Nat} {m : Nat}  (hK : Keeps s0 s) :
    Keeps s0 (bindMember s n c m) := by
  unfold bindMember
  repeat' first
    | with_reducible assumption
    | with_reducible apply setAr_keeps
    | with_reducible apply setCtx_keeps
    | with_reducible apply setX_keeps
    | with_reducible apply Keeps.foldl
    | intro _
    | split

theorem ringEnable_keeps {s0 : State} {s : State} {n : Nat}  (hK : Keeps s0 s) :
    Keeps s0 (ringEnable s n) := by
  unfold ringEnable
  repeat' first
    | with_reducible assumption
    | with_reducible apply bindMember_keeps
    | with_reducible apply setRing_keeps
    | with_reducible apply Keeps.foldl
    | intro _
    | split

theorem discard_keeps {s0 : State} {s : State} {n : Nat} {m : Nat}  (hK : Keeps s0 s) :
    Keeps s0 (discard s n m) := by
  unfold discard
  repeat' first
    | with_reducible assumption
    | with_reducible apply dropAsks_keeps
    | with_reducible apply setRing_keeps

theorem cancelMember_keeps {s0 : State} {s : State} {n : Nat} {m : Nat}  (hK : Keeps s0 s) :
    Keeps s0 (cancelMember s n m) := by
  unfold cancelMember
  repeat' first
    | with_reducible assumption
    | with_reducible apply discard_keeps
    | with_reducible apply svcEnd_keeps
    | with_reducible apply setRing_keeps
    | with_reducible apply cancelCtx_keeps
    | with_reducible apply stir_keeps
    | with_reducible apply Keeps.ite
    | with_reducible apply Keeps.foldl
    | intro _
    | split
    | dsimp only

theorem ringDisable_keeps {s0 : State} {s : State} {n : Nat}  (hK : Keeps s0 s) :
    Keeps s0 (ringDisable s n) := by
  unfold ringDisable
  repeat' first
    | with_reducible assumption
    | with_reducible apply setRing_keeps
    | with_reducible apply finishStop_keeps
    | with_reducible apply cancelMember_keeps
    | with_reducible apply Keeps.ite
    | with_reducible apply Keeps.foldl
    | intro _

theorem descWrite_keeps {s0 : State} {s : State} {n : Nat} {w : Nat} {v : Word}  (hK : Keeps s0 s) :
    Keeps s0 (descWrite s n w v) := by
  unfold descWrite
  repeat' first
    | with_reducible assumption
    | with_reducible apply rset_keeps
    | with_reducible apply ringEnable_keeps
    | with_reducible apply ringDisable_keeps
    | with_reducible apply Keeps.ite
    | intro _
    | split

theorem dbErr_keeps {s0 : State} {s : State}  (hK : Keeps s0 s) :
    Keeps s0 (dbErr s) := by
  unfold dbErr
  repeat' first
    | with_reducible assumption
    | with_reducible apply ror_keeps

theorem doorbell_keeps {s0 : State} {s : State} {n : Nat} {v : Word}  (hK : Keeps s0 s) :
    Keeps s0 (doorbell s n v) := by
  unfold doorbell
  repeat' first
    | with_reducible assumption
    | with_reducible apply dbErr_keeps
    | with_reducible apply setRing_keeps
    | with_reducible apply Keeps.ite
    | intro _

theorem cplHead_keeps {s0 : State} {s : State} {n : Nat} {v : Word}  (hK : Keeps s0 s) :
    Keeps s0 (cplHead s n v) := by
  unfold cplHead
  repeat' first
    | with_reducible assumption
    | with_reducible apply dbErr_keeps
    | with_reducible apply setRing_keeps
    | with_reducible apply Keeps.ite
    | intro _

theorem execIrqCoalesceTimeout_keeps {s0 : State} {n : Nat} {s : State}  (hK : Keeps s0 s) :
    KeepsOut s0 (execIrqCoalesceTimeout n s) := by
  unfold execIrqCoalesceTimeout
  repeat' first
    | with_reducible assumption
    | with_reducible apply ringIrq_keeps
    | with_reducible apply setRing_keeps
    | with_reducible apply KeepsOut.ite
    | with_reducible apply KeepsOut.next
    | intro _

theorem deferredRec_keeps {s0 : State} {s : State} {n : Nat}  (hK : Keeps s0 s) :
    Keeps s0 (deferredRec s n) := by
  unfold deferredRec
  repeat' first
    | with_reducible assumption
    | with_reducible apply writeRec_keeps
    | with_reducible apply setRing_keeps
    | with_reducible apply setCtx_keeps
    | split
    | dsimp only

theorem execDeferredRecordWrite_keeps {s0 : State} {n : Nat} {s : State}  (hK : Keeps s0 s) :
    KeepsOut s0 (execDeferredRecordWrite n s) := by
  unfold execDeferredRecordWrite
  repeat' first
    | with_reducible assumption
    | with_reducible apply finishStop_keeps
    | with_reducible apply deferredRec_keeps
    | with_reducible apply Keeps.ite
    | with_reducible apply KeepsOut.next
    | intro _

theorem flushRecs_keeps {s0 : State} {n : Nat}  {a1 : Nat} :
    ∀ {a2 : State}, Keeps s0 a2 → Keeps s0 (flushRecs n a1 a2) := by
  induction a1 with
  | zero =>
    intros
    unfold flushRecs
    repeat' first
      | with_reducible assumption
  | succ x ih =>
    intros
    unfold flushRecs
    repeat' first
      | with_reducible assumption
      | with_reducible apply ih
      | with_reducible apply deferredRec_keeps
      | with_reducible apply Keeps.ite
      | intro _

theorem readLine_keeps {s0 : State} {s : State} {n : Nat} {a : Nat}  (hK : Keeps s0 s) :
    Keeps s0 (readLine s n a).1 := by
  unfold readLine
  repeat' first
    | with_reducible assumption
    | with_reducible apply eccTouch_keeps
    | fail_if_no_progress with_reducible apply Keeps.mk_upd
    | split
    | dsimp only

theorem fetchLine_keeps {s0 : State} {s : State} {n : Nat} {m : Nat}  (hK : Keeps s0 s) :
    Keeps s0 (fetchLine s n m).st := by
  unfold fetchLine
  repeat' first
    | with_reducible assumption
    | with_reducible apply askRead_keeps
    | with_reducible apply onCaps_keeps
    | with_reducible apply regPay_keeps
    | with_reducible apply readLine_keeps
    | with_reducible apply dropAsks_keeps
    | with_reducible apply Keeps.got_ite
    | with_reducible apply Keeps.st_bad
    | with_reducible apply Keeps.st_held
    | with_reducible apply Keeps.st_ok
    | intro _
    | with_reducible refine Keeps.fst (by with_reducible assumption) ?_
    | split

theorem keepLine_keeps {s0 : State} {s : State} {n : Nat} {m : Nat} {bs : List Byte}  (hK : Keeps s0 s) :
    Keeps s0 (keepLine s n m bs) := by
  unfold keepLine
  repeat' first
    | with_reducible assumption
    | with_reducible apply setRing_keeps

theorem fetchFault_keeps {s0 : State} {s : State} {n : Nat} {m : Nat} {c : Nat} {tag : Nat} {status : Nat} {count : Nat} {irq : Bool}  (hK : Keeps s0 s) :
    Keeps s0 (fetchFault s n m c tag status count irq) := by
  unfold fetchFault
  repeat' first
    | with_reducible assumption
    | with_reducible apply emitRec_keeps
    | with_reducible apply emitSvc_keeps
    | with_reducible apply haltMember_keeps
    | with_reducible apply stir_keeps
    | with_reducible apply setCtx_keeps
    | with_reducible apply cancelCtx_keeps
    | with_reducible apply Keeps.foldl
    | intro _
    | split
    | dsimp only

theorem dispatch_keeps {s0 s t : State} {n m c x : Nat} {k : Cmd} (e : dispatch s n m c x k = some t) (h : Keeps s0 s) :
    Keeps s0 t := by
  unfold dispatch at e
  extract_lets sc filling b q b1 need blk b2 b3 at e
  split at e
  · cases e; exact fetchNext_keeps (setCtx_keeps h)
  · split at e
    · cases e; exact fetchFault_keeps h
    · split at e
      · cases e
      · cases e; exact fetchNext_keeps (setCtx_keeps h)

theorem execFetchDispatch_keeps {s0 : State} {n : Nat} {m : Nat} {s : State}  (hK : Keeps s0 s) :
    KeepsOut s0 (execFetchDispatch n m s) := by
  unfold execFetchDispatch
  repeat' first
    | with_reducible assumption
    | with_reducible apply fetchLine_keeps
    | with_reducible apply fetchFault_keeps
    | with_reducible refine dispatch_keeps (by with_reducible assumption) ?_
    | with_reducible apply keepLine_keeps
    | with_reducible apply KeepsOut.ite
    | with_reducible apply KeepsOut.next
    | intro _
    | with_reducible refine Keeps.bad (by with_reducible assumption) ?_
    | with_reducible refine Keeps.held (by with_reducible assumption) ?_
    | with_reducible refine Keeps.ok (by with_reducible assumption) ?_
    | split
    | dsimp only

theorem execSwitchRequest_keeps {s0 : State} {c : Nat} {s : State}  (hK : Keeps s0 s) :
    KeepsOut s0 (execSwitchRequest c s) := by
  unfold execSwitchRequest
  repeat' first
    | with_reducible assumption
    | with_reducible apply onCore_keeps
    | with_reducible apply setCore_keeps
    | with_reducible apply KeepsOut.ite
    | with_reducible apply KeepsOut.next
    | intro _
    | split

theorem saveBytes_keeps {s0 : State} {s : State} {n : Nat} {ga : Nat} {bs : List Byte}  (hK : Keeps s0 s) :
    Keeps s0 (saveBytes s n ga bs) := by
  unfold saveBytes
  repeat' first
    | with_reducible assumption
    | with_reducible apply regWrite_keeps
    | with_reducible apply Keeps.foldl
    | intro _

theorem writeSwitch_keeps {s0 : State} {s : State} {c : Nat} {x : Nat} {n : Nat} {cause : Nat} {live : Nat}  (hK : Keeps s0 s) :
    Keeps s0 (writeSwitch s c x n cause live) := by
  unfold writeSwitch
  repeat' first
    | with_reducible assumption
    | with_reducible apply saveBytes_keeps

theorem saveLive_keeps {s0 : State} {s : State} {c : Nat} {x : Nat} {n : Nat}  (hK : Keeps s0 s) :
    Keeps s0 (saveLive s c x n) := by
  unfold saveLive
  repeat' first
    | with_reducible assumption
    | with_reducible apply setRing_keeps
    | with_reducible apply saveBytes_keeps

theorem loseSpd_keeps {s0 s : State} {c x : Nat} (hK : Keeps s0 s) : Keeps s0 (loseSpd s c x) := by
  unfold loseSpd
  extract_lets ps gone
  exact Keeps.mk_stores hK fun w => { w with mem := (tdrop_wf w.mem : twf 0 (tdrop gone s.mem) = true) }

theorem copyBack_keeps {s0 : State} {s : State} {c : Nat} {x : Nat} {a : Nat} {rs : List (Nat × Nat)}  (hK : Keeps s0 s) :
    Keeps s0 (copyBack s c x a rs) := by
  unfold copyBack
  repeat' first
    | with_reducible assumption
    | with_reducible apply writeBytes_keeps
    | with_reducible apply Keeps.ite
    | with_reducible apply Keeps.foldl_fst
    | intro _

theorem restoreLive_keeps {s0 : State} {s : State} {c : Nat} {x : Nat} {n : Nat}  (hK : Keeps s0 s) :
    Keeps s0 (restoreLive s c x n) := by
  unfold restoreLive
  repeat' first
    | with_reducible assumption
    | with_reducible apply askRead_keeps
    | with_reducible apply onCaps_keeps
    | with_reducible apply regPay_keeps
    | with_reducible apply copyBack_keeps
    | with_reducible apply dropAsks_keeps
    | with_reducible apply setRing_keeps
    | with_reducible apply Keeps.ite
    | intro _
    | with_reducible refine Keeps.fst (by with_reducible assumption) ?_
    | split
    | dsimp only

theorem bindQueues_keeps {s0 : State} {s : State} {c : Nat} {x : Nat}  (hK : Keeps s0 s) :
    Keeps s0 (bindQueues s c x) := by
  unfold bindQueues
  repeat' first
    | with_reducible assumption
    | with_reducible apply setCore_keeps

theorem forgetTypes_keeps {s0 : State} {s : State} {c : Nat}  (hK : Keeps s0 s) :
    Keeps s0 (forgetTypes s c) := by
  unfold forgetTypes
  repeat' first
    | with_reducible assumption
    | with_reducible apply setCtx_keeps
    | with_reducible apply Keeps.foldl
    | intro _
    | split
    | dsimp only

theorem clearGeneral_keeps {s0 : State} {s : State} {c : Nat}  (hK : Keeps s0 s) :
    Keeps s0 (clearGeneral s c) := by
  unfold clearGeneral
  repeat' first
    | with_reducible assumption
    | with_reducible apply ror_keeps
    | with_reducible apply forgetTypes_keeps
    | with_reducible apply accKill_keeps

theorem switchIn_keeps {s0 : State} {s : State} {c : Nat} {n : Nat} {x : Nat}  (hK : Keeps s0 s) :
    Keeps s0 (switchIn s c n x) := by
  unfold switchIn
  repeat' first
    | with_reducible assumption
    | with_reducible apply bindQueues_keeps
    | with_reducible apply clearGeneral_keeps
    | with_reducible apply setCore_keeps
    | with_reducible apply loseSpd_keeps
    | with_reducible apply restoreLive_keeps
    | with_reducible apply Keeps.ite
    | intro _

theorem execRingSwitch_keeps {s0 : State} {c : Nat} {s : State}  (hK : Keeps s0 s) :
    KeepsOut s0 (execRingSwitch c s) := by
  unfold execRingSwitch
  repeat' first
    | with_reducible assumption
    | with_reducible apply onCore_keeps
    | with_reducible apply switchIn_keeps
    | with_reducible apply restoreLive_keeps
    | with_reducible apply setCore_keeps
    | with_reducible apply ror_keeps
    | with_reducible apply writeSwitch_keeps
    | with_reducible apply rinc_keeps
    | with_reducible apply saveLive_keeps
    | with_reducible apply KeepsOut.ite
    | with_reducible apply KeepsOut.next
    | intro _
    | split
    | dsimp only

theorem execSwitchWithdraw_keeps {s0 : State} {c : Nat} {s : State}  (hK : Keeps s0 s) :
    KeepsOut s0 (execSwitchWithdraw c s) := by
  unfold execSwitchWithdraw
  repeat' first
    | with_reducible assumption
    | with_reducible apply onCore_keeps
    | with_reducible apply rinc_keeps
    | with_reducible apply setCore_keeps
    | with_reducible apply KeepsOut.ite
    | with_reducible apply KeepsOut.next
    | intro _
    | split
    | dsimp only

theorem execClass0Takeover_keeps {s0 : State} {c : Nat} {q : Nat} {s : State}  (hK : Keeps s0 s) :
    KeepsOut s0 (execClass0Takeover c q s) := by
  unfold execClass0Takeover
  repeat' first
    | with_reducible assumption
    | with_reducible apply onCore_keeps
    | with_reducible apply writeSwitch_keeps
    | with_reducible apply rinc_keeps
    | with_reducible apply setCore_keeps
    | with_reducible apply KeepsOut.ite
    | with_reducible apply KeepsOut.next
    | with_reducible apply KeepsOut.fault
    | intro _
    | split

theorem execClass0Release_keeps {s0 : State} {c : Nat} {s : State}  (hK : Keeps s0 s) :
    KeepsOut s0 (execClass0Release c s) := by
  unfold execClass0Release
  repeat' first
    | with_reducible assumption
    | with_reducible apply onCore_keeps
    | with_reducible apply accKill_keeps
    | with_reducible apply setCore_keeps
    | with_reducible apply Keeps.ite
    | with_reducible apply KeepsOut.ite
    | with_reducible apply KeepsOut.next
    | intro _

theorem faultHeld_keeps {s0 : State} {s : State} {w : Who} {status : Nat} {why : Why}  (hK : Keeps s0 s) :
    Keeps s0 (faultHeld s w status why) := by
  unfold faultHeld
  repeat' first
    | with_reducible assumption
    | with_reducible apply faultQueue_keeps
    | with_reducible apply Keeps.ite
    | intro _
    | split
    | dsimp only

theorem execDeadlockConfirm_keeps {s0 : State} {c : Nat} {s : State}  (hK : Keeps s0 s) :
    KeepsOut s0 (execDeadlockConfirm c s) := by
  unfold execDeadlockConfirm
  repeat' first
    | with_reducible assumption
    | with_reducible apply onCore_keeps
    | with_reducible apply faultHeld_keeps
    | with_reducible apply ror_keeps
    | with_reducible apply faultRing_keeps
    | with_reducible apply KeepsOut.ite
    | with_reducible apply KeepsOut.next
    | with_reducible apply Keeps.foldl
    | intro _
    | split
    | dsimp only

/-! ## Machine/Service.lean -/

theorem svcFetchFault_keeps {s0 : State} {s : State} {n : Nat} {st : Nat}  (hK : Keeps s0 s) :
    Keeps s0 (svcFetchFault s n st) := by
  unfold svcFetchFault
  repeat' first
    | with_reducible assumption
    | with_reducible apply haltMember_keeps
    | with_reducible apply emitSvc_keeps

theorem heldReads_keeps {s0 : State} {o : Owner} {s : State} {t : State}  (hK : Keeps s0 s) :
    Keeps s0 (heldReads o s t) := by
  unfold heldReads
  repeat' first
    | with_reducible assumption
    | with_reducible apply askStart_keeps
    | with_reducible apply Keeps.foldl
    | intro _

theorem svcRow_keeps {s0 : State} {tgt : Nat} {op : Nat} {bad : Cmd → Bool} {go : State → Svc → SvcOut} {n : Nat} {s : State} (hg : ∀ u v, Keeps s0 u → KeepsSvc s0 (go u v)) (hK : Keeps s0 s) :
    KeepsOut s0 (svcRow tgt op bad go n s) := by
  unfold svcRow
  repeat' first
    | with_reducible assumption
    | with_reducible apply hg
    | with_reducible apply fetchLine_keeps
    | with_reducible apply svcFetchFault_keeps
    | with_reducible apply svcTake_keeps
    | with_reducible apply svcEnd_keeps
    | with_reducible apply keepLine_keeps
    | with_reducible apply heldReads_keeps
    | with_reducible apply dropAsks_keeps
    | with_reducible apply KeepsOut.ite
    | with_reducible apply KeepsOut.next
    | intro _
    | with_reducible refine Keeps.bad (by with_reducible assumption) ?_
    | with_reducible refine Keeps.held (by with_reducible assumption) ?_
    | with_reducible refine Keeps.ok (by with_reducible assumption) ?_
    | with_reducible refine KeepsSvc.done (by with_reducible assumption) ?_
    | with_reducible refine (KeepsSvc.accept (by with_reducible assumption) ?_).2 _ _ ?_
    | with_reducible refine (KeepsSvc.accept (by with_reducible assumption) ?_).1
    | split

theorem ringRestate_keeps {s0 : State} {s : State} {n : Nat}  (hK : Keeps s0 s) :
    Keeps s0 (ringRestate s n) := by
  unfold ringRestate
  repeat' first
    | with_reducible assumption
    | with_reducible apply setRing_keeps
    | with_reducible apply Keeps.ite
    | intro _

theorem setSuspended_keeps {s0 : State} {s : State} {n : Nat} {m : Nat} {b : Bool}  (hK : Keeps s0 s) :
    Keeps s0 (setSuspended s n m b) := by
  unfold setSuspended
  repeat' first
    | with_reducible assumption
    | with_reducible apply setRing_keeps
    | with_reducible apply setCtx_keeps
    | with_reducible apply stir_keeps
    | with_reducible apply Keeps.foldl
    | intro _

theorem execRingSuspend_keeps {s0 : State} {n : Nat} {s : State}  (hK : Keeps s0 s) :
    KeepsOut s0 (execRingSuspend n s) := by
  unfold execRingSuspend
  repeat' first
    | with_reducible assumption
    | with_reducible apply svcEnd_keeps
    | with_reducible apply setRing_keeps
    | with_reducible apply svcRow_keeps
    | with_reducible apply ringRestate_keeps
    | with_reducible apply setSuspended_keeps
    | with_reducible apply KeepsOut.ite
    | with_reducible apply KeepsSvc.ite
    | with_reducible apply KeepsOut.next
    | with_reducible apply Keeps.foldl
    | with_reducible apply KeepsSvc.of_done
    | with_reducible apply KeepsSvc.of_accept
    | intro _
    | split

theorem execRingResume_keeps {s0 : State} {n : Nat} {s : State}  (hK : Keeps s0 s) :
    KeepsOut s0 (execRingResume n s) := by
  unfold execRingResume
  repeat' first
    | with_reducible assumption
    | with_reducible apply svcRow_keeps
    | with_reducible apply ringRestate_keeps
    | with_reducible apply setSuspended_keeps
    | with_reducible apply KeepsSvc.ite
    | with_reducible apply Keeps.foldl
    | with_reducible apply KeepsSvc.of_done
    | intro _
    | split

theorem execRingCancel_keeps {s0 : State} {n : Nat} {s : State}  (hK : Keeps s0 s) :
    KeepsOut s0 (execRingCancel n s) := by
  unfold execRingCancel
  repeat' first
    | with_reducible assumption
    | with_reducible apply svcRow_keeps
    | with_reducible apply setSuspended_keeps
    | with_reducible apply cancelMember_keeps
    | with_reducible apply ringRestate_keeps
    | with_reducible apply Keeps.foldl
    | with_reducible apply KeepsSvc.of_done
    | intro _
    | split

theorem execRingRestart_keeps {s0 : State} {n : Nat} {s : State}  (hK : Keeps s0 s) :
    KeepsOut s0 (execRingRestart n s) := by
  unfold execRingRestart
  repeat' first
    | with_reducible assumption
    | with_reducible apply svcRow_keeps
    | with_reducible apply setRing_keeps
    | with_reducible apply discard_keeps
    | with_reducible apply setCtx_keeps
    | with_reducible apply ringRestate_keeps
    | with_reducible apply KeepsSvc.ite
    | with_reducible apply Keeps.foldl
    | with_reducible apply KeepsSvc.of_done
    | intro _
    | split

/-! ## Machine/Vector.lean -/

theorem vecRep_keeps {s0 : State} {plan : State → Who → Cmd → VPlan} {s : State} {w : Who} {k : Cmd} {a4 : Run}  (hK : Keeps s0 s) :
    Keeps s0 (vecRep plan s w k a4).st := by
  unfold vecRep
  repeat' first
    | with_reducible assumption
    | with_reducible apply eccTouch_keeps
    | with_reducible apply scramble_keeps
    | with_reducible apply srTake_keeps
    | with_reducible apply raiseNum_keeps
    | with_reducible apply writeRows_keeps
    | with_reducible apply Keeps.st_done
    | with_reducible apply Keeps.st_fault
    | split
    | dsimp only

theorem vecEng_keeps {s0 : State} {bad : Cmd → Bool} {roles : Cmd → List Nat} {plan : State → Who → Cmd → VPlan} {u : State} {w : Who} {k : Cmd} {r : Run} (hK : Keeps s0 u) :
    Keeps s0 ((vecEng bad roles plan).rep u w k r).st := vecRep_keeps (a4 := r) hK

theorem execVew_keeps {s0 : State} {c : Nat} {n : Nat} {s : State}  (hK : Keeps s0 s) :
    KeepsOut s0 (execVew c n s) := by
  unfold execVew
  repeat' first
    | with_reducible assumption
    | with_reducible apply engineRow_keeps
    | with_reducible apply vecEng_keeps

theorem execVfunc_keeps {s0 : State} {c : Nat} {n : Nat} {s : State}  (hK : Keeps s0 s) :
    KeepsOut s0 (execVfunc c n s) := by
  unfold execVfunc
  repeat' first
    | with_reducible assumption
    | with_reducible apply engineRow_keeps
    | with_reducible apply vecEng_keeps

theorem execVred_keeps {s0 : State} {c : Nat} {n : Nat} {s : State}  (hK : Keeps s0 s) :
    KeepsOut s0 (execVred c n s) := by
  unfold execVred
  repeat' first
    | with_reducible assumption
    | with_reducible apply engineRow_keeps
    | with_reducible apply vecEng_keeps

theorem execVcvt_keeps {s0 : State} {c : Nat} {n : Nat} {s : State}  (hK : Keeps s0 s) :
    KeepsOut s0 (execVcvt c n s) := by
  unfold execVcvt
  repeat' first
    | with_reducible assumption
    | with_reducible apply engineRow_keeps
    | with_reducible apply vecEng_keeps

theorem execVperm_keeps {s0 : State} {c : Nat} {n : Nat} {s : State}  (hK : Keeps s0 s) :
    KeepsOut s0 (execVperm c n s) := by
  unfold execVperm
  repeat' first
    | with_reducible assumption
    | with_reducible apply engineRow_keeps
    | with_reducible apply vecEng_keeps

/-! ## Machine/VecMerge.lean -/

theorem execSmerge_keeps {s0 : State} {c : Nat} {n : Nat} {s : State}  (hK : Keeps s0 s) :
    KeepsOut s0 (execSmerge c n s) := by
  unfold execSmerge
  repeat' first
    | with_reducible assumption
    | with_reducible apply engineRow_keeps
    | with_reducible apply vecEng_keeps

theorem execTopk_keeps {s0 : State} {c : Nat} {n : Nat} {s : State}  (hK : Keeps s0 s) :
    KeepsOut s0 (execTopk c n s) := by
  unfold execTopk
  repeat' first
    | with_reducible assumption
    | with_reducible apply engineRow_keeps
    | with_reducible apply vecEng_keeps

theorem execTopkMerge_keeps {s0 : State} {c : Nat} {n : Nat} {s : State}  (hK : Keeps s0 s) :
    KeepsOut s0 (execTopkMerge c n s) := by
  unfold execTopkMerge
  repeat' first
    | with_reducible assumption
    | with_reducible apply engineRow_keeps
    | with_reducible apply vecEng_keeps

end Sys2Proof.Machine
end

