-- ==== Sys2Proof/Laws/KeepsServing.lean ====
section
/-! SUPPORT. What Laws/Keeps.lean says, for the operations of the serving table: pools, tokens, requests, parking, steps and folds: each keeps it. -/

set_option linter.unusedTactic false
set_option linter.unreachableTactic false
set_option linter.unusedVariables false

set_option Elab.async false

namespace Sys2Proof.Machine

/-! ## Machine/Pools.lean -/

theorem fwReads_keeps {s0 : State} {s : State} {a : Nat} {len : Nat}  (hK : Keeps s0 s) :
    Keeps s0 (fwReads s a len).1 := by
  unfold fwReads
  repeat' first
    | with_reducible assumption
    | with_reducible apply eccTouch_keeps
    | fail_if_no_progress with_reducible apply Keeps.mk_upd
    | split
    | dsimp only

theorem fwRead_keeps {s0 : State} {s : State} {o : Owner} {a : Nat} {len : Nat}  (hK : Keeps s0 s) :
    Keeps s0 (fwRead s o a len).st := by
  unfold fwRead
  repeat' first
    | with_reducible assumption
    | with_reducible apply askRead_keeps
    | with_reducible apply onCaps_keeps
    | with_reducible apply fwReads_keeps
    | with_reducible apply Keeps.got_ite
    | with_reducible apply Keeps.st_bad
    | with_reducible apply Keeps.st_held
    | with_reducible apply Keeps.st_ok
    | intro _
    | with_reducible refine Keeps.fst (by with_reducible assumption) ?_
    | split

theorem fwRead32_keeps {s0 : State} {s : State} {o : Owner} {a : Nat} {n : Nat}  (hK : Keeps s0 s) :
    Keeps s0 (fwRead32 s o a n).st := by
  unfold fwRead32
  repeat' first
    | with_reducible assumption
    | with_reducible apply fwRead_keeps
    | with_reducible apply Keeps.got_bind
    | with_reducible apply Keeps.st_ok
    | intro _

theorem fwWrite_keeps {s0 : State} {s : State} {f : Nat} {a : Nat} {bs : List Byte}  (hK : Keeps s0 s) :
    Keeps s0 (fwWrite s f a bs) := by
  unfold fwWrite
  repeat' first
    | with_reducible assumption
    | with_reducible apply devWrite_keeps

theorem eSet_keeps {s0 : State} {s : State} {i : Nat} {w : Nat} {hi : Nat} {lo : Nat} {v : Nat}  (hK : Keeps s0 s) :
    Keeps s0 (eSet s i w hi lo v) := by
  unfold eSet
  repeat' first
    | with_reducible assumption
    | with_reducible apply writeW_keeps

theorem setReq_keeps {s0 : State} {s : State} {i : Nat} {r : Req}  (hK : Keeps s0 s) :
    Keeps s0 (setReq s i r) := by
  unfold setReq
  repeat' first
    | with_reducible assumption
    | fail_if_no_progress with_reducible apply Keeps.mk_upd

theorem dropReq_keeps {s0 : State} {s : State} {i : Nat}  (hK : Keeps s0 s) :
    Keeps s0 (dropReq s i) := by
  unfold dropReq
  repeat' first
    | with_reducible assumption
    | fail_if_no_progress with_reducible apply Keeps.mk_upd

theorem setModel_keeps {s0 : State} {s : State} {m : Nat} {v : Model}  (hK : Keeps s0 s) :
    Keeps s0 (setModel s m v) := by
  unfold setModel
  repeat' first
    | with_reducible assumption
    | fail_if_no_progress with_reducible apply Keeps.mk_upd

theorem rtCount_keeps {s0 : State} {s : State}  (hK : Keeps s0 s) :
    Keeps s0 (rtCount s) := by
  unfold rtCount
  repeat' first
    | with_reducible assumption
    | with_reducible apply rset_keeps

theorem pickSlots_keeps {s0 : State} {s : State} {p : Nat} {n : Nat}  (hK : Keeps s0 s) :
    Keeps s0 (pickSlots s p n).2 := by
  unfold pickSlots
  repeat' first
    | with_reducible assumption
    | with_reducible apply draw_keeps
    | split
    | dsimp only

theorem poolStat_keeps {s0 : State} {s : State} {p : Nat}  (hK : Keeps s0 s) :
    Keeps s0 (poolStat s p) := by
  unfold poolStat
  repeat' first
    | with_reducible assumption
    | with_reducible apply rset_keeps
    | split

theorem prefixTouch_keeps {s0 : State} {s : State} {hs : List (BitVec 128)}  (hK : Keeps s0 s) :
    Keeps s0 (prefixTouch s hs) := by
  unfold prefixTouch
  repeat' first
    | with_reducible assumption
    | fail_if_no_progress with_reducible apply Keeps.mk_upd

theorem prefixStat_keeps {s0 : State} {s : State}  (hK : Keeps s0 s) :
    Keeps s0 (prefixStat s) := by
  unfold prefixStat
  repeat' first
    | with_reducible assumption
    | with_reducible apply rset_keeps

theorem prefixInsert_keeps {s0 : State} {s : State} {e : PEntry}  (hK : Keeps s0 s) :
    Keeps s0 (prefixInsert s e) := by
  unfold prefixInsert
  repeat' first
    | with_reducible assumption
    | with_reducible apply rinc_keeps
    | with_reducible apply prefixStat_keeps
    | with_reducible apply Keeps.ite
    | intro _
    | fail_if_no_progress with_reducible apply Keeps.mk_upd

theorem prefixSweep_keeps {s0 : State} {s : State} {p : Nat}  (hK : Keeps s0 s) :
    Keeps s0 (prefixSweep s p) := by
  unfold prefixSweep
  repeat' first
    | with_reducible assumption
    | with_reducible apply prefixStat_keeps
    | fail_if_no_progress with_reducible apply Keeps.mk_upd

theorem poolDefine_keeps {s0 : State} {s : State} {f : Nat} {ws : List Word} {chans : List Nat}  (hK : Keeps s0 s) :
    Keeps s0 (poolDefine s f ws chans).1 := by
  unfold poolDefine
  repeat' first
    | with_reducible assumption
    | with_reducible apply rset_keeps
    | with_reducible apply poolStat_keeps
    | with_reducible apply Keeps.ite_fst
    | with_reducible apply Keeps.foldl
    | intro _
    | fail_if_no_progress with_reducible apply Keeps.mk_upd

theorem execPoolDefine_keeps {s0 : State} {n : Nat} {s : State}  (hK : Keeps s0 s) :
    KeepsOut s0 (execPoolDefine n s) := by
  unfold execPoolDefine
  repeat' first
    | with_reducible assumption
    | with_reducible apply svcRow_keeps
    | with_reducible apply fwRead_keeps
    | with_reducible apply poolDefine_keeps
    | with_reducible apply KeepsSvc.ite
    | with_reducible apply KeepsSvc.of_done
    | with_reducible apply KeepsSvc.of_wait
    | intro _
    | with_reducible refine Keeps.bad (by with_reducible assumption) ?_
    | with_reducible refine Keeps.held (by with_reducible assumption) ?_
    | with_reducible refine Keeps.ok (by with_reducible assumption) ?_
    | split

theorem poolForget_keeps {s0 : State} {s : State} {p : Nat}  (hK : Keeps s0 s) :
    Keeps s0 (poolForget s p) := by
  unfold poolForget
  repeat' first
    | with_reducible assumption
    | with_reducible apply rset_keeps
    | with_reducible apply poolStat_keeps
    | with_reducible apply prefixStat_keeps
    | with_reducible apply Keeps.foldl
    | intro _
    | fail_if_no_progress with_reducible apply Keeps.mk_upd

theorem execPoolDrop_keeps {s0 : State} {n : Nat} {s : State}  (hK : Keeps s0 s) :
    KeepsOut s0 (execPoolDrop n s) := by
  unfold execPoolDrop
  repeat' first
    | with_reducible assumption
    | with_reducible apply svcRow_keeps
    | with_reducible apply poolForget_keeps
    | with_reducible apply KeepsSvc.ite
    | with_reducible apply KeepsSvc.of_done
    | intro _
    | split
    | dsimp only

theorem execModelBind_keeps {s0 : State} {n : Nat} {s : State}  (hK : Keeps s0 s) :
    KeepsOut s0 (execModelBind n s) := by
  unfold execModelBind
  repeat' first
    | with_reducible assumption
    | with_reducible apply svcRow_keeps
    | with_reducible apply setModel_keeps
    | with_reducible apply KeepsSvc.ite
    | with_reducible apply KeepsSvc.of_done
    | intro _

theorem modelForget_keeps {s0 : State} {s : State} {m : Nat}  (hK : Keeps s0 s) :
    Keeps s0 (modelForget s m) := by
  unfold modelForget
  repeat' first
    | with_reducible assumption
    | with_reducible apply prefixSweep_keeps
    | with_reducible apply setModel_keeps

theorem execModelUnbind_keeps {s0 : State} {n : Nat} {s : State}  (hK : Keeps s0 s) :
    KeepsOut s0 (execModelUnbind n s) := by
  unfold execModelUnbind
  repeat' first
    | with_reducible assumption
    | with_reducible apply svcRow_keeps
    | with_reducible apply modelForget_keeps
    | with_reducible apply KeepsSvc.ite
    | with_reducible apply KeepsSvc.of_done
    | intro _

theorem pickEntry_keeps {s0 : State} {s : State}  (hK : Keeps s0 s) :
    Keeps s0 (pickEntry s).2 := by
  unfold pickEntry
  repeat' first
    | with_reducible assumption
    | with_reducible apply draw_keeps

theorem admitReq_keeps {s0 : State} {s : State} {f : Nat} {k : Cmd} {m : Nat} {p : Nat} {t : Nat} {plen : Nat} {hits : List (Nat × BitVec 128)}  (hK : Keeps s0 s) :
    Keeps s0 (admitReq s f k m p t plen hits).1 := by
  unfold admitReq
  repeat' first
    | with_reducible assumption
    | with_reducible apply pickEntry_keeps
    | with_reducible apply pickSlots_keeps
    | with_reducible apply setReq_keeps
    | with_reducible apply rinc_keeps
    | with_reducible apply prefixTouch_keeps
    | with_reducible apply fwWrite_keeps
    | with_reducible apply rtCount_keeps
    | with_reducible apply writeBytes_keeps
    | fail_if_no_progress with_reducible apply Keeps.mk_upd

theorem execReqSubmit_keeps {s0 : State} {n : Nat} {s : State}  (hK : Keeps s0 s) :
    KeepsOut s0 (execReqSubmit n s) := by
  unfold execReqSubmit
  repeat' first
    | with_reducible assumption
    | with_reducible apply svcRow_keeps
    | with_reducible apply fwRead32_keeps
    | with_reducible apply admitReq_keeps
    | with_reducible apply KeepsSvc.ite
    | with_reducible apply KeepsSvc.of_done
    | with_reducible apply KeepsSvc.of_wait
    | intro _
    | with_reducible refine Keeps.bad (by with_reducible assumption) ?_
    | with_reducible refine Keeps.held (by with_reducible assumption) ?_
    | with_reducible refine Keeps.ok (by with_reducible assumption) ?_
    | split
    | dsimp only

/-! ## Machine/Attn.lean -/

theorem aItem_keeps {s0 : State} {w : Who} {k : Cmd} {h : AHead} {g : Geo} {chans : List Nat} {ar1 : AReg} {i : Nat} {d : List Word} {s : State}  (hK : Keeps s0 s) :
    Keeps s0 (aItem w k h g chans ar1 i d s).st := by
  unfold aItem
  repeat' first
    | with_reducible assumption
    | with_reducible apply launchRead_keeps
    | with_reducible apply readAll_keeps
    | with_reducible apply Keeps.got_guard
    | with_reducible apply Keeps.got_bind
    | with_reducible apply Keeps.st_bad
    | with_reducible apply Keeps.st_ok
    | intro _
    | split
    | dsimp only

theorem aItems_keeps {s0 : State} {w : Who} {k : Cmd} {h : AHead} {g : Geo} {chans : List Nat} {ar1 : AReg} {db : List Word}  {a7 : List Nat} :
    ∀ {a8 : State}, Keeps s0 a8 → Keeps s0 (aItems w k h g chans ar1 db a7 a8).st := by
  induction a7 with
  | nil =>
    intros
    unfold aItems
    repeat' first
      | with_reducible assumption
      | with_reducible apply Keeps.st_ok
  | cons x xs ih =>
    intros
    unfold aItems
    repeat' first
      | with_reducible assumption
      | with_reducible apply ih
      | with_reducible apply aItem_keeps
      | with_reducible apply Keeps.got_guard
      | with_reducible apply Keeps.got_bind
      | with_reducible apply Keeps.st_ok
      | intro _

theorem aEmpties_keeps {s0 : State} {s : State} {fold : Nat} {id : Nat} {p : APlan}  (hK : Keeps s0 s) :
    Keeps s0 (aEmpties s fold id p) := by
  unfold aEmpties
  repeat' first
    | with_reducible assumption
    | with_reducible apply dramWrite_keeps
    | with_reducible apply extWrite_keeps
    | with_reducible apply addTally_keeps
    | with_reducible apply Keeps.ite
    | with_reducible apply Keeps.foldl
    | intro _

theorem attnOf_keeps {s0 : State} {s : State} {w : Who} {k : Cmd} {ar : AReg} {ar1 : AReg} {rep : Nat}  (hK : Keeps s0 s) :
    Keeps s0 (attnOf s w k ar ar1 rep).st := by
  unfold attnOf
  repeat' first
    | with_reducible assumption
    | with_reducible apply launchRead_keeps
    | with_reducible apply aItems_keeps
    | with_reducible apply aEmpties_keeps
    | with_reducible apply Keeps.got_ite
    | with_reducible apply Keeps.got_guard
    | with_reducible apply Keeps.got_bind
    | with_reducible apply Keeps.foldl
    | with_reducible apply Keeps.st_bad
    | with_reducible apply Keeps.st_ok
    | intro _
    | fail_if_no_progress with_reducible apply Keeps.mk_upd
    | split

theorem execAttnDispatch_keeps {s0 : State} {c : Nat} {n : Nat} {s : State}  (hK : Keeps s0 s) :
    KeepsOut s0 (execAttnDispatch c n s) := by
  unfold execAttnDispatch
  repeat' first
    | with_reducible assumption
    | with_reducible apply luRow_keeps
    | with_reducible apply attnOf_keeps

/-! ## Machine/Tokens.lean -/

theorem maskRead_keeps {s0 : State} {s : State} {o : Owner} {f : Nat} {a : Nat} {len : Nat}  (hK : Keeps s0 s) :
    Keeps s0 (maskRead s o f a len).st := by
  unfold maskRead
  repeat' first
    | with_reducible assumption
    | with_reducible apply fwRead_keeps
    | with_reducible apply Keeps.got_ite
    | with_reducible apply Keeps.st_bad
    | intro _

theorem autoHeader_keeps {s0 : State} {s : State} {o : Owner} {f : Nat} {vocab : Nat} {a : Nat}  (hK : Keeps s0 s) :
    Keeps s0 (autoHeader s o f vocab a).st := by
  unfold autoHeader
  repeat' first
    | with_reducible assumption
    | with_reducible apply maskRead_keeps
    | with_reducible apply Keeps.got_guard
    | with_reducible apply Keeps.got_bind
    | with_reducible apply Keeps.st_ok
    | intro _

theorem autoState_keeps {s0 : State} {s : State} {o : Owner} {f : Nat} {h : Auto} {st : Nat}  (hK : Keeps s0 s) :
    Keeps s0 (autoState s o f h st).st := by
  unfold autoState
  repeat' first
    | with_reducible assumption
    | with_reducible apply maskRead_keeps
    | with_reducible apply Keeps.got_ite
    | with_reducible apply Keeps.got_guard
    | with_reducible apply Keeps.got_bind
    | with_reducible apply Keeps.st_bad
    | with_reducible apply Keeps.st_ok
    | intro _

theorem autoSearch_keeps {s0 : State} {o : Owner} {f : Nat} {tok : Nat} {trans : Nat}  {a4 : Nat} :
    ∀ {a5 : Nat} {a6 : Nat} {a7 : Nat} {a8 : Nat} {a9 : State}, Keeps s0 a9 → Keeps s0 (autoSearch o f tok trans a4 a5 a6 a7 a8 a9).st := by
  induction a4 with
  | zero =>
    intros
    unfold autoSearch
    repeat' first
      | with_reducible assumption
      | with_reducible apply Keeps.st_ok
  | succ x ih =>
    intros
    unfold autoSearch
    repeat' first
      | with_reducible assumption
      | with_reducible apply ih
      | with_reducible apply maskRead_keeps
      | with_reducible apply Keeps.got_ite
      | with_reducible apply Keeps.got_guard
      | with_reducible apply Keeps.got_bind
      | with_reducible apply Keeps.st_ok
      | intro _

theorem maskNext_keeps {s0 : State} {s : State} {m : MaskSpec} {st : Nat} {tok : Nat}  (hK : Keeps s0 s) :
    Keeps s0 (maskNext s m st tok).st := by
  unfold maskNext
  repeat' first
    | with_reducible assumption
    | with_reducible apply autoHeader_keeps
    | with_reducible apply autoState_keeps
    | with_reducible apply autoSearch_keeps
    | with_reducible apply Keeps.got_ite
    | with_reducible apply Keeps.got_guard
    | with_reducible apply Keeps.got_bind
    | with_reducible apply Keeps.st_ok
    | intro _

theorem maskBits_keeps {s0 : State} {s : State} {m : MaskSpec} {st : Nat}  (hK : Keeps s0 s) :
    Keeps s0 (maskBits s m st).st := by
  unfold maskBits
  repeat' first
    | with_reducible assumption
    | with_reducible apply maskRead_keeps
    | with_reducible apply autoHeader_keeps
    | with_reducible apply autoState_keeps
    | with_reducible apply Keeps.got_ite
    | with_reducible apply Keeps.got_bind
    | with_reducible apply Keeps.st_ok
    | intro _
    | split

theorem maskStates_keeps {s0 : State} {m : MaskSpec}  {a1 : List Nat} :
    ∀ {a2 : Nat} {a3 : State}, Keeps s0 a3 → Keeps s0 (maskStates m a1 a2 a3).st := by
  induction a1 with
  | nil =>
    intros
    unfold maskStates
    repeat' first
      | with_reducible assumption
      | with_reducible apply Keeps.st_ok
  | cons x xs ih =>
    intros
    unfold maskStates
    repeat' first
      | with_reducible assumption
      | with_reducible apply ih
      | with_reducible apply maskNext_keeps
      | with_reducible apply Keeps.got_bind
      | with_reducible apply Keeps.st_ok
      | intro _

theorem readLogits_keeps {s0 : State} {s : State} {o : Owner} {m : Model} {out : Nat} {bm : Option Nat}  (hK : Keeps s0 s) :
    Keeps s0 (readLogits s o m out bm).st := by
  unfold readLogits
  repeat' first
    | with_reducible assumption
    | with_reducible apply fwRead_keeps
    | with_reducible apply Keeps.got_bind
    | with_reducible apply Keeps.st_ok
    | intro _

theorem useArea_keeps {s0 s : State} {c : Nat} (hK : Keeps s0 s) : Keeps s0 (useArea s c) := by
  unfold useArea
  extract_lets a
  exact Keeps.mk_stores hK fun w => { w with
    mem := (tdrop_wf w.mem : twf 0 (tdrop (fun l => decide (a ≤ l) && decide (l < a + 0x100000)) s.mem) = true) }

theorem batchCands_keeps {s0 : State} {m : Model} {ms : MaskSpec} {k : Nat}  {a3 : List Nat} :
    ∀ {a4 : Nat} {a5 : State}, Keeps s0 a5 → Keeps s0 (batchCands m ms k a3 a4 a5).st := by
  induction a3 with
  | nil =>
    intros
    unfold batchCands
    repeat' first
      | with_reducible assumption
      | with_reducible apply Keeps.st_ok
  | cons x xs ih =>
    intros
    unfold batchCands
    repeat' first
      | with_reducible assumption
      | with_reducible apply ih
      | with_reducible apply maskBits_keeps
      | with_reducible apply readLogits_keeps
      | with_reducible apply useArea_keeps
      | with_reducible apply raiseNum_keeps
      | with_reducible apply Keeps.got_bind
      | with_reducible apply Keeps.st_ok
      | intro _

theorem nextR_keeps {s0 : State} {s : State} {b : List Word} {draws : Nat}  (hK : Keeps s0 s) :
    Keeps s0 (nextR s b draws).2 := by
  unfold nextR
  repeat' first
    | with_reducible assumption
    | with_reducible apply draw_keeps
    | with_reducible apply Keeps.ite_snd
    | intro _

theorem chooseSod_keeps {s0 : State} {b : List Word}  {a2 : List Cands} :
    ∀ {draws : Nat} {a3 : List Nat} {a4 : Nat} {a5 : State}, Keeps s0 a5 → Keeps s0 (chooseSod b draws a2 a3 a4 a5).2 := by
  induction a2 with
  | nil =>
    intros
    unfold chooseSod
    repeat' first
      | with_reducible assumption
  | cons x xs ih =>
    intros
    unfold chooseSod
    repeat' first
      | with_reducible assumption
      | with_reducible apply ih
      | with_reducible apply nextR_keeps
      | with_reducible apply Keeps.ite_snd
      | intro _
      | split

/-! ## Machine/Requests.lean -/

theorem outFlush_keeps {s0 : State} {i : Nat}  {a1 : Nat} :
    ∀ {a2 : State}, Keeps s0 a2 → Keeps s0 (outFlush i a1 a2) := by
  induction a1 with
  | zero =>
    intros
    unfold outFlush
    repeat' first
      | with_reducible assumption
  | succ x ih =>
    intros
    unfold outFlush
    repeat' first
      | with_reducible assumption
      | with_reducible apply ih
      | with_reducible apply eSet_keeps
      | with_reducible apply writeRec_keeps
      | with_reducible apply setReq_keeps
      | with_reducible apply Keeps.ite
      | intro _
      | split
      | dsimp only

theorem outPush_keeps {s0 : State} {s : State} {i : Nat} {rs : List Rec}  (hK : Keeps s0 s) :
    Keeps s0 (outPush s i rs) := by
  unfold outPush
  repeat' first
    | with_reducible assumption
    | with_reducible apply outFlush_keeps
    | with_reducible apply setReq_keeps

theorem setSlots_keeps {s0 : State} {s : State} {i : Nat} {pages : Tab (Option Nat)} {resv : List Nat}  (hK : Keeps s0 s) :
    Keeps s0 (setSlots s i pages resv) := by
  unfold setSlots
  repeat' first
    | with_reducible assumption
    | with_reducible apply eSet_keeps
    | with_reducible apply setReq_keeps

theorem plistWrite_keeps {s0 : State} {s : State} {i : Nat} {k : Nat} {v : Nat}  (hK : Keeps s0 s) :
    Keeps s0 (plistWrite s i k v) := by
  unfold plistWrite
  repeat' first
    | with_reducible assumption
    | with_reducible apply fwWrite_keeps

theorem releaseSlots_keeps {s0 : State} {s : State} {i : Nat} {keep : Bool}  (hK : Keeps s0 s) :
    Keeps s0 (releaseSlots s i keep) := by
  unfold releaseSlots
  repeat' first
    | with_reducible assumption
    | with_reducible apply setModel_keeps
    | with_reducible apply prefixSweep_keeps
    | with_reducible apply setSlots_keeps
    | with_reducible apply Keeps.ite
    | intro _

theorem growTo_keeps {s0 : State} {i : Nat} {t : Nat} {e : Nat}  {a3 : Nat} :
    ∀ {a4 : Nat} {a5 : State}, Keeps s0 a5 → Keeps s0 (growTo i t e a3 a4 a5) := by
  induction a3 with
  | zero =>
    intros
    unfold growTo
    repeat' first
      | with_reducible assumption
  | succ x ih =>
    intros
    unfold growTo
    repeat' first
      | with_reducible assumption
      | with_reducible apply ih
      | with_reducible apply plistWrite_keeps
      | with_reducible apply setSlots_keeps
      | with_reducible apply Keeps.ite
      | intro _
      | split
      | dsimp only

theorem returnDead_keeps {s0 : State} {s : State} {i : Nat} {t : Nat}  (hK : Keeps s0 s) :
    Keeps s0 (returnDead s i t) := by
  unfold returnDead
  repeat' first
    | with_reducible assumption
    | with_reducible apply plistWrite_keeps
    | with_reducible apply setSlots_keeps
    | with_reducible apply Keeps.ite
    | with_reducible apply Keeps.foldl
    | intro _

theorem stopImage_keeps {s0 : State} {s : State} {i : Nat} {im : Image}  (hK : Keeps s0 s) :
    Keeps s0 (stopImage s i im).1 := by
  unfold stopImage
  repeat' first
    | with_reducible assumption
    | with_reducible apply draw_keeps
    | with_reducible apply fwWrite_keeps
    | with_reducible apply Keeps.ite
    | intro _

theorem endReq_keeps {s0 : State} {s : State} {i : Nat} {status : Nat} {reason : Nat} {keep : Bool}  (hK : Keeps s0 s) :
    Keeps s0 (endReq s i status reason keep) := by
  unfold endReq
  repeat' first
    | with_reducible assumption
    | with_reducible apply stopImage_keeps
    | with_reducible apply svcEnd_keeps
    | with_reducible apply eSet_keeps
    | with_reducible apply setReq_keeps
    | split
    | dsimp only

theorem releaseDrained_keeps {s0 : State} {s : State} {is_ : List Nat}  (hK : Keeps s0 s) :
    Keeps s0 (releaseDrained s is_) := by
  unfold releaseDrained
  repeat' first
    | with_reducible assumption
    | with_reducible apply releaseSlots_keeps
    | with_reducible apply Keeps.ite
    | with_reducible apply Keeps.foldl
    | intro _

theorem drainReq_keeps {s0 : State} {s : State} {i : Nat}  (hK : Keeps s0 s) :
    Keeps s0 (drainReq s i) := by
  unfold drainReq
  repeat' first
    | with_reducible assumption
    | with_reducible apply outPush_keeps
    | with_reducible apply eSet_keeps
    | with_reducible apply writeRec_keeps
    | with_reducible apply svcEnd_keeps
    | with_reducible apply setReq_keeps
    | with_reducible apply Keeps.ite
    | with_reducible apply Keeps.foldl
    | intro _

theorem freeReq_keeps {s0 : State} {s : State} {i : Nat}  (hK : Keeps s0 s) :
    Keeps s0 (freeReq s i) := by
  unfold freeReq
  repeat' first
    | with_reducible assumption
    | with_reducible apply writeBytes_keeps
    | with_reducible apply dropReq_keeps

theorem posTokens_keeps {s0 : State} {s : State} {i : Nat} {a : Nat} {n : Nat}  (hK : Keeps s0 s) :
    Keeps s0 (posTokens s i a n).st := by
  unfold posTokens
  repeat' first
    | with_reducible assumption
    | with_reducible apply fwRead32_keeps
    | with_reducible apply Keeps.got_bind
    | with_reducible apply Keeps.st_ok
    | intro _

theorem hashBlocks_keeps {s0 : State} {i : Nat} {pool : Nat} {t : Nat} {tsel : Nat}  {a4 : Nat} :
    ∀ {a5 : State}, Keeps s0 a5 → Keeps s0 (hashBlocks i pool t tsel a4 a5).st := by
  induction a4 with
  | zero =>
    intros
    unfold hashBlocks
    repeat' first
      | with_reducible assumption
      | with_reducible apply Keeps.st_ok
  | succ x ih =>
    intros
    unfold hashBlocks
    repeat' first
      | with_reducible assumption
      | with_reducible apply ih
      | with_reducible apply posTokens_keeps
      | with_reducible apply setReq_keeps
      | with_reducible apply prefixInsert_keeps
      | with_reducible apply Keeps.ite
      | with_reducible apply Keeps.got_ite
      | with_reducible apply Keeps.got_bind
      | with_reducible apply Keeps.st_ok
      | intro _
      | split

theorem advanceC_keeps {s0 : State} {s : State} {i : Nat} {c : Nat}  (hK : Keeps s0 s) :
    Keeps s0 (advanceC s i c).st := by
  unfold advanceC
  repeat' first
    | with_reducible assumption
    | with_reducible apply eSet_keeps
    | with_reducible apply hashBlocks_keeps
    | with_reducible apply returnDead_keeps
    | with_reducible apply Keeps.st_held
    | with_reducible apply Keeps.st_ok
    | with_reducible refine Keeps.bad (by with_reducible assumption) ?_
    | with_reducible refine Keeps.held (by with_reducible assumption) ?_
    | with_reducible refine Keeps.ok (by with_reducible assumption) ?_
    | split
    | dsimp only

theorem commitToks_keeps {s0 : State} {s : State} {i : Nat} {step : Nat} {last : Bool} {c : Chosen}  (hK : Keeps s0 s) :
    Keeps s0 (commitToks s i step last c).st := by
  unfold commitToks
  repeat' first
    | with_reducible assumption
    | with_reducible apply maskStates_keeps
    | with_reducible apply setReq_keeps
    | with_reducible apply eSet_keeps
    | with_reducible apply outPush_keeps
    | with_reducible apply advanceC_keeps
    | with_reducible apply endReq_keeps
    | with_reducible apply Keeps.ite
    | with_reducible apply Keeps.got_bind
    | with_reducible apply Keeps.st_ok
    | intro _
    | split

theorem readProps_keeps {s0 : State} {s : State} {i : Nat} {a : Nat} {pmax : Nat}  (hK : Keeps s0 s) :
    Keeps s0 (readProps s i a pmax).st := by
  unfold readProps
  repeat' first
    | with_reducible assumption
    | with_reducible apply eSet_keeps
    | with_reducible apply fwRead32_keeps
    | with_reducible apply writeW_keeps
    | with_reducible apply Keeps.got_ite
    | with_reducible apply Keeps.got_guard
    | with_reducible apply Keeps.got_bind
    | with_reducible apply Keeps.foldl
    | with_reducible apply Keeps.st_ok
    | intro _

theorem keepCmd_keeps {s0 : State} {s : State} {ring : Nat} {i : Nat} {id : Nat} {k : Cmd}  (hK : Keeps s0 s) :
    Keeps s0 (keepCmd s ring i id k) := by
  unfold keepCmd
  repeat' first
    | with_reducible assumption
    | fail_if_no_progress with_reducible apply Keeps.mk_upd

theorem reqRow_keeps {s0 : State} {op : Nat} {bad : Cmd → Bool} {more : State → Nat → Cmd → Option Nat} {n : Nat} {s : State}
    (hK : Keeps s0 s) : KeepsOut s0 (reqRow op bad more n s) := by
  unfold reqRow
  with_reducible refine svcRow_keeps (fun u v hu => ?_) hK
  dsimp only
  generalize handleCheck u (v.fold.getD 16) (fld v.cmd.w2 31 0) = a
  cases a with
  | some st => exact hu
  | none =>
    generalize more u (v.fold.getD 16) v.cmd = b
    cases b with
    | some st => exact hu
    | none => exact ⟨hu, fun t n ht => keepCmd_keeps ht⟩

theorem execReqCancel_keeps {s0 : State} {n : Nat} {s : State}  (hK : Keeps s0 s) :
    KeepsOut s0 (execReqCancel n s) := by
  unfold execReqCancel
  repeat' first
    | with_reducible assumption
    | with_reducible apply reqRow_keeps

theorem execReqChoose_keeps {s0 : State} {n : Nat} {s : State}  (hK : Keeps s0 s) :
    KeepsOut s0 (execReqChoose n s) := by
  unfold execReqChoose
  repeat' first
    | with_reducible assumption
    | with_reducible apply reqRow_keeps

theorem applyChoose_keeps {s0 : State} {s : State} {c : SCmd}  (hK : Keeps s0 s) :
    Keeps s0 (applyChoose s c).st := by
  unfold applyChoose
  repeat' first
    | with_reducible assumption
    | with_reducible apply maskStates_keeps
    | with_reducible apply maskBits_keeps
    | with_reducible apply commitToks_keeps
    | with_reducible apply Keeps.got_ite
    | with_reducible apply Keeps.got_bind
    | with_reducible apply Keeps.foldl_got
    | with_reducible apply Keeps.st_ok
    | intro _
    | split

/-! ## Machine/Parking.lean -/

theorem fwReadAll_keeps {s0 : State} {o : Owner} {rs : List (Nat × Nat)} {s : State}  (hK : Keeps s0 s) :
    Keeps s0 (fwReadAll o rs s).st := by
  unfold fwReadAll
  repeat' first
    | with_reducible assumption
    | with_reducible apply fwRead_keeps
    | with_reducible apply Keeps.got_bind
    | with_reducible apply Keeps.foldl_got
    | with_reducible apply Keeps.st_ok
    | intro _

theorem execParkImageDone_keeps {s0 : State} {i : Nat} {s : State}  (hK : Keeps s0 s) :
    KeepsOut s0 (execParkImageDone i s) := by
  unfold execParkImageDone
  repeat' first
    | with_reducible assumption
    | with_reducible apply fwReadAll_keeps
    | with_reducible apply heldReads_keeps
    | with_reducible apply svcEnd_keeps
    | with_reducible apply setReq_keeps
    | with_reducible apply dropAsks_keeps
    | with_reducible apply fwWrite_keeps
    | with_reducible apply releaseSlots_keeps
    | with_reducible apply KeepsOut.ite
    | with_reducible apply KeepsOut.next
    | with_reducible apply KeepsOut.fault
    | intro _
    | with_reducible refine Keeps.bad (by with_reducible assumption) ?_
    | with_reducible refine Keeps.ok (by with_reducible assumption) ?_
    | split
    | dsimp only

theorem execReqPark_keeps {s0 : State} {n : Nat} {s : State}  (hK : Keeps s0 s) :
    KeepsOut s0 (execReqPark n s) := by
  unfold execReqPark
  repeat' first
    | with_reducible assumption
    | with_reducible apply reqRow_keeps

theorem execReqResume_keeps {s0 : State} {n : Nat} {s : State}  (hK : Keeps s0 s) :
    KeepsOut s0 (execReqResume n s) := by
  unfold execReqResume
  repeat' first
    | with_reducible assumption
    | with_reducible apply reqRow_keeps

theorem areaPlace_keeps {s0 : State} {s : State} {f : Nat} {z : Nat}  (hK : Keeps s0 s) :
    Keeps s0 (areaPlace s f z).2 := by
  unfold areaPlace
  repeat' first
    | with_reducible assumption
    | with_reducible apply draw_keeps
    | split
    | dsimp only

theorem applyPark_keeps {s0 : State} {s : State} {c : SCmd}  (hK : Keeps s0 s) :
    Keeps s0 (applyPark s c).1 := by
  unfold applyPark
  repeat' first
    | with_reducible assumption
    | with_reducible apply eSet_keeps
    | with_reducible apply setReq_keeps
    | with_reducible apply areaPlace_keeps
    | with_reducible apply Keeps.ite_fst
    | intro _
    | fail_if_no_progress with_reducible apply Keeps.mk_upd
    | with_reducible refine Keeps.snd (by with_reducible assumption) ?_
    | split

theorem imgRestore_keeps {s0 : State} {s : State} {i : Nat} {g : Geo} {chans : List Nat} {plain : List Byte}  (hK : Keeps s0 s) :
    Keeps s0 (imgRestore s i g chans plain) := by
  unfold imgRestore
  repeat' first
    | with_reducible assumption
    | with_reducible apply fwWrite_keeps
    | with_reducible apply Keeps.foldl_fst
    | intro _

theorem applyResume_keeps {s0 : State} {s : State} {c : SCmd}  (hK : Keeps s0 s) :
    Keeps s0 (applyResume s c).st := by
  unfold applyResume
  repeat' first
    | with_reducible assumption
    | with_reducible apply fwRead_keeps
    | with_reducible apply pickSlots_keeps
    | with_reducible apply setSlots_keeps
    | with_reducible apply setReq_keeps
    | with_reducible apply fwWrite_keeps
    | with_reducible apply imgRestore_keeps
    | with_reducible apply writeW_keeps
    | with_reducible apply eSet_keeps
    | with_reducible apply Keeps.got_ite
    | with_reducible apply Keeps.foldl
    | with_reducible apply Keeps.st_held
    | with_reducible apply Keeps.st_ok
    | intro _
    | with_reducible refine Keeps.bad (by with_reducible assumption) ?_
    | with_reducible refine Keeps.held (by with_reducible assumption) ?_
    | with_reducible refine Keeps.ok (by with_reducible assumption) ?_
    | split

theorem finishResume_keeps {s0 : State} {s : State} {i : Nat}  (hK : Keeps s0 s) :
    Keeps s0 (finishResume s i) := by
  unfold finishResume
  repeat' first
    | with_reducible assumption
    | with_reducible apply setReq_keeps
    | with_reducible apply eSet_keeps
    | with_reducible apply svcEnd_keeps
    | split

/-! ## Machine/Steps.lean -/

theorem failStep_keeps {s0 : State} {s : State} {m : Nat} {st : Nat}  (hK : Keeps s0 s) :
    Keeps s0 (failStep s m st) := by
  unfold failStep
  repeat' first
    | with_reducible assumption
    | with_reducible apply setModel_keeps
    | with_reducible apply rset_keeps

theorem doneWrite_keeps {s0 : State} {s : State} {m : Nat} {v : Word}  (hK : Keeps s0 s) :
    Keeps s0 (doneWrite s m v) := by
  unfold doneWrite
  repeat' first
    | with_reducible assumption
    | with_reducible apply setModel_keeps
    | with_reducible apply failStep_keeps
    | with_reducible apply prefixSweep_keeps
    | with_reducible apply Keeps.ite
    | intro _

theorem execSrvStepDone_keeps {s0 : State} {ring : Nat} {m : Nat} {v : Word} {s : State}  (hK : Keeps s0 s) :
    KeepsOut s0 (execSrvStepDone ring m v s) := by
  unfold execSrvStepDone
  repeat' first
    | with_reducible assumption
    | with_reducible apply doneWrite_keeps
    | with_reducible apply KeepsOut.ite
    | with_reducible apply KeepsOut.next
    | with_reducible apply KeepsOut.fault
    | intro _

theorem execStepTimeout_keeps {s0 : State} {m : Nat} {s : State}  (hK : Keeps s0 s) :
    KeepsOut s0 (execStepTimeout m s) := by
  unfold execStepTimeout
  repeat' first
    | with_reducible assumption
    | with_reducible apply failStep_keeps
    | with_reducible apply KeepsOut.ite
    | with_reducible apply KeepsOut.next
    | with_reducible apply KeepsOut.fault
    | intro _

theorem orEnd_keeps {s0 : State} {x : Got Unit} {i : Nat} (h : Keeps s0 x.st) : Keeps s0 (orEnd x i).st := by
  cases x with
  | held t => exact h
  | ok t v => exact h
  | bad t n =>
    unfold orEnd
    dsimp only
    with_reducible apply Keeps.st_ok
    have g : Keeps s0 t := h
    with_reducible exact Keeps.ite (fun _ => endReq_keeps g) (fun _ => g)

theorem gotEach_keeps {s0 : State} {α : Type} {f : State → α → Got Unit} (hf : ∀ u x, Keeps s0 u → Keeps s0 (f u x).st) {a2 : List α} :
    ∀ {a3 : State}, Keeps s0 a3 → Keeps s0 (gotEach f a2 a3).st := by
  induction a2 with
  | nil =>
    intros
    unfold gotEach
    repeat' first
      | with_reducible assumption
      | with_reducible apply Keeps.st_ok
  | cons x xs ih =>
    intros
    unfold gotEach
    repeat' first
      | with_reducible assumption
      | with_reducible apply ih
      | with_reducible apply hf
      | with_reducible apply Keeps.got_bind
      | intro _

theorem dropCmd_keeps {s0 : State} {s : State} {c : SCmd}  (hK : Keeps s0 s) :
    Keeps s0 (dropCmd s c) := by
  unfold dropCmd
  repeat' first
    | with_reducible assumption
    | fail_if_no_progress with_reducible apply Keeps.mk_upd

theorem doChoose_keeps {s0 : State} {s : State} {c : SCmd}  (hK : Keeps s0 s) :
    Keeps s0 (doChoose s c).st := by
  unfold doChoose
  repeat' first
    | with_reducible assumption
    | with_reducible apply applyChoose_keeps
    | with_reducible apply svcEnd_keeps
    | with_reducible apply dropCmd_keeps
    | with_reducible apply endReq_keeps
    | with_reducible apply Keeps.st_held
    | with_reducible apply Keeps.st_ok
    | with_reducible refine Keeps.bad (by with_reducible assumption) ?_
    | with_reducible refine Keeps.held (by with_reducible assumption) ?_
    | with_reducible refine Keeps.ok (by with_reducible assumption) ?_
    | split

theorem handOver_keeps {s0 : State} {s : State} {d : Model} {b : Batch} {step : Nat} {b0 : List Word} {cs : List Cands}  (hK : Keeps s0 s) :
    Keeps s0 (handOver s d b step b0 cs).st := by
  unfold handOver
  repeat' first
    | with_reducible assumption
    | with_reducible apply fwWrite_keeps
    | with_reducible apply setReq_keeps
    | with_reducible apply outPush_keeps
    | with_reducible apply eSet_keeps
    | with_reducible apply Keeps.got_ite
    | with_reducible apply Keeps.foldl
    | with_reducible apply Keeps.st_held
    | with_reducible apply Keeps.st_ok
    | intro _

theorem stepBatch_keeps {s0 : State} {d : Model} {n : Nat} {s : State} {b : Batch}  (hK : Keeps s0 s) :
    Keeps s0 (stepBatch d n s b).st := by
  unfold stepBatch
  repeat' first
    | with_reducible assumption
    | with_reducible apply advanceC_keeps
    | with_reducible apply eSet_keeps
    | with_reducible apply orEnd_keeps
    | with_reducible apply maskStates_keeps
    | with_reducible apply batchCands_keeps
    | with_reducible apply readProps_keeps
    | with_reducible apply chooseSod_keeps
    | with_reducible apply commitToks_keeps
    | with_reducible apply rinc_keeps
    | with_reducible apply handOver_keeps
    | with_reducible apply Keeps.got_ite
    | with_reducible apply Keeps.got_bind
    | with_reducible apply Keeps.st_ok
    | intro _

theorem countPasses_keeps {s0 : State} {s : State} {d : Model}  (hK : Keeps s0 s) :
    Keeps s0 (countPasses s d) := by
  unfold countPasses
  repeat' first
    | with_reducible assumption
    | with_reducible apply rinc_keeps
    | with_reducible apply Keeps.ite
    | with_reducible apply Keeps.foldl
    | intro _

theorem doCancel_keeps {s0 : State} {s : State} {c : SCmd}  (hK : Keeps s0 s) :
    Keeps s0 (doCancel s c) := by
  unfold doCancel
  repeat' first
    | with_reducible assumption
    | with_reducible apply dropCmd_keeps
    | with_reducible apply svcEnd_keeps
    | with_reducible apply setReq_keeps
    | with_reducible apply endReq_keeps
    | with_reducible apply Keeps.ite
    | intro _

theorem doCmd_keeps {s0 : State} {s : State} {c : SCmd}  (hK : Keeps s0 s) :
    Keeps s0 (doCmd s c).st := by
  unfold doCmd
  repeat' first
    | with_reducible assumption
    | with_reducible apply doCancel_keeps
    | with_reducible apply applyPark_keeps
    | with_reducible apply dropCmd_keeps
    | with_reducible apply svcEnd_keeps
    | with_reducible apply applyResume_keeps
    | with_reducible apply Keeps.got_bind
    | with_reducible apply Keeps.st_ok
    | intro _
    | split

theorem markLate_keeps {s0 : State} {s : State} {i : Nat}  (hK : Keeps s0 s) :
    Keeps s0 (markLate s i) := by
  unfold markLate
  repeat' first
    | with_reducible assumption
    | with_reducible apply eSet_keeps
    | with_reducible apply Keeps.ite
    | intro _

theorem applyGroups_keeps {s0 : State} {s : State}  (hK : Keeps s0 s) :
    Keeps s0 (applyGroups s) := by
  unfold applyGroups
  repeat' first
    | with_reducible assumption
    | with_reducible apply prefixStat_keeps
    | with_reducible apply Keeps.ite
    | intro _
    | fail_if_no_progress with_reducible apply Keeps.mk_upd

theorem firstPlan_keeps {s0 : State} {s : State} {i : Nat}  (hK : Keeps s0 s) :
    Keeps s0 (firstPlan s i).st := by
  unfold firstPlan
  repeat' first
    | with_reducible assumption
    | with_reducible apply orEnd_keeps
    | with_reducible apply fwRead_keeps
    | with_reducible apply autoHeader_keeps
    | with_reducible apply eSet_keeps
    | with_reducible apply setReq_keeps
    | with_reducible apply Keeps.got_ite
    | with_reducible apply Keeps.got_guard
    | with_reducible apply Keeps.got_bind
    | with_reducible apply Keeps.st_ok
    | intro _
    | split

theorem planPrefill_keeps {s0 : State} {d : Model}  {a1 : List Nat} :
    ∀ {a2 : Nat} {a3 : State}, Keeps s0 a3 → Keeps s0 (planPrefill d a1 a2 a3).st := by
  induction a1 with
  | nil =>
    intros
    unfold planPrefill
    repeat' first
      | with_reducible assumption
      | with_reducible apply Keeps.st_ok
  | cons x xs ih =>
    intros
    unfold planPrefill
    repeat' first
      | with_reducible assumption
      | with_reducible apply ih
      | with_reducible apply fwRead32_keeps
      | with_reducible apply endReq_keeps
      | with_reducible apply Keeps.got_ite
      | with_reducible apply Keeps.got_bind
      | with_reducible apply Keeps.st_held
      | with_reducible apply Keeps.st_ok
      | intro _
      | with_reducible refine Keeps.bad (by with_reducible assumption) ?_
      | with_reducible refine Keeps.held (by with_reducible assumption) ?_
      | with_reducible refine Keeps.ok (by with_reducible assumption) ?_
      | split

theorem publish_keeps {s0 : State} {s : State} {m : Nat} {bs : List Batch} {elig : List Nat}  (hK : Keeps s0 s) :
    Keeps s0 (publish s m bs elig) := by
  unfold publish
  repeat' first
    | with_reducible assumption
    | with_reducible apply growTo_keeps
    | with_reducible apply fwWrite_keeps
    | with_reducible apply eSet_keeps
    | with_reducible apply addTally_keeps
    | with_reducible apply setModel_keeps
    | with_reducible apply Keeps.ite
    | with_reducible apply Keeps.foldl
    | intro _

theorem belongNext_keeps {s0 : State} {s : State} {m : Nat}  (hK : Keeps s0 s) :
    Keeps s0 (belongNext s m) := by
  unfold belongNext
  repeat' first
    | with_reducible assumption
    | fail_if_no_progress with_reducible apply Keeps.mk_upd

theorem publishPlanned_keeps {s0 : State} {s : State} {m : Nat} {bs : List Batch} {elig : List Nat}  (hK : Keeps s0 s) :
    Keeps s0 (publishPlanned s m bs elig) := by
  unfold publishPlanned
  repeat' first
    | with_reducible assumption
    | with_reducible apply setModel_keeps
    | with_reducible apply belongNext_keeps
    | with_reducible apply publish_keeps
    | with_reducible apply rtCount_keeps
    | with_reducible apply poolStat_keeps
    | with_reducible apply Keeps.ite
    | intro _

theorem planStep_keeps {s0 : State} {s : State} {m : Nat}  (hK : Keeps s0 s) :
    Keeps s0 (planStep s m).st := by
  unfold planStep
  repeat' first
    | with_reducible assumption
    | with_reducible apply gotEach_keeps
    | with_reducible apply firstPlan_keeps
    | with_reducible apply planPrefill_keeps
    | with_reducible apply releaseDrained_keeps
    | with_reducible apply belongNext_keeps
    | with_reducible apply setModel_keeps
    | with_reducible apply publish_keeps
    | with_reducible apply Keeps.got_ite
    | with_reducible apply Keeps.got_bind
    | with_reducible apply Keeps.st_ok
    | intro _

theorem noProps_keeps {s0 : State} {s : State} {i : Nat}  (hK : Keeps s0 s) :
    Keeps s0 (noProps s i) := by
  unfold noProps
  repeat' first
    | with_reducible assumption
    | with_reducible apply writeW_keeps
    | with_reducible apply eSet_keeps
    | with_reducible apply Keeps.foldl
    | intro _

theorem failBatches_keeps {s0 : State} {s : State} {m : Nat} {st : Nat}  (hK : Keeps s0 s) :
    Keeps s0 (failBatches s m st) := by
  unfold failBatches
  repeat' first
    | with_reducible assumption
    | with_reducible apply noProps_keeps
    | with_reducible apply endReq_keeps
    | with_reducible apply Keeps.ite
    | with_reducible apply Keeps.foldl
    | intro _

theorem boundary_keeps {s0 : State} {s : State} {m : Nat}  (hK : Keeps s0 s) :
    Keeps s0 (boundary s m).st := by
  unfold boundary
  repeat' first
    | with_reducible assumption
    | with_reducible apply belongNext_keeps
    | with_reducible apply markLate_keeps
    | with_reducible apply applyGroups_keeps
    | with_reducible apply finishResume_keeps
    | with_reducible apply gotEach_keeps
    | with_reducible apply doChoose_keeps
    | with_reducible apply failBatches_keeps
    | with_reducible apply stepBatch_keeps
    | with_reducible apply countPasses_keeps
    | with_reducible apply setModel_keeps
    | with_reducible apply doCmd_keeps
    | with_reducible apply drainReq_keeps
    | with_reducible apply releaseDrained_keeps
    | with_reducible apply outPush_keeps
    | with_reducible apply freeReq_keeps
    | with_reducible apply rtCount_keeps
    | with_reducible apply poolStat_keeps
    | with_reducible apply planStep_keeps
    | with_reducible apply Keeps.ite
    | with_reducible apply Keeps.got_ite
    | with_reducible apply Keeps.got_bind
    | with_reducible apply Keeps.foldl
    | with_reducible apply Keeps.st_ok
    | intro _
    | split

theorem drainOnly_keeps {s0 : State} {s : State} {m : Nat}  (hK : Keeps s0 s) :
    Keeps s0 (drainOnly s m) := by
  unfold drainOnly
  repeat' first
    | with_reducible assumption
    | with_reducible apply drainReq_keeps
    | with_reducible apply rtCount_keeps
    | with_reducible apply freeReq_keeps
    | with_reducible apply Keeps.foldl

theorem execStepBoundary_keeps {s0 : State} {m : Nat} {s : State}  (hK : Keeps s0 s) :
    KeepsOut s0 (execStepBoundary m s) := by
  unfold execStepBoundary
  repeat' first
    | with_reducible assumption
    | with_reducible apply drainOnly_keeps
    | with_reducible apply publishPlanned_keeps
    | with_reducible apply boundary_keeps
    | with_reducible apply heldReads_keeps
    | with_reducible apply dropAsks_keeps
    | with_reducible apply Keeps.ite
    | with_reducible apply KeepsOut.ite
    | with_reducible apply KeepsOut.next
    | with_reducible apply KeepsOut.fault
    | intro _
    | with_reducible refine Keeps.bad (by with_reducible assumption) ?_
    | with_reducible refine Keeps.ok (by with_reducible assumption) ?_
    | split

/-! ## Machine/Folds.lean -/

theorem drawWords_keeps {s0 : State}  {a0 : Nat} :
    ∀ {a1 : State}, Keeps s0 a1 → Keeps s0 (drawWords a0 a1).2 := by
  induction a0 with
  | zero =>
    intros
    unfold drawWords
    repeat' first
      | with_reducible assumption
  | succ x ih =>
    intros
    unfold drawWords
    repeat' first
      | with_reducible assumption
      | with_reducible apply ih
      | with_reducible apply draw_keeps

theorem drawFoldKeys_keeps {s0 : State} {s : State} {f : Nat}  (hK : Keeps s0 s) :
    Keeps s0 (drawFoldKeys s f) := by
  unfold drawFoldKeys
  repeat' first
    | with_reducible assumption
    | with_reducible apply drawWords_keeps
    | fail_if_no_progress with_reducible apply Keeps.mk_upd

theorem drawGroupKey_keeps {s0 : State} {s : State} {g : Nat}  (hK : Keeps s0 s) :
    Keeps s0 (drawGroupKey s g) := by
  unfold drawGroupKey
  repeat' first
    | with_reducible assumption
    | with_reducible apply drawWords_keeps
    | fail_if_no_progress with_reducible apply Keeps.mk_upd

theorem dropFoldKeys_keeps {s0 : State} {s : State} {f : Nat}  (hK : Keeps s0 s) :
    Keeps s0 (dropFoldKeys s f) := by
  unfold dropFoldKeys
  repeat' first
    | with_reducible assumption
    | with_reducible apply drawGroupKey_keeps
    | with_reducible apply Keeps.ite
    | intro _
    | fail_if_no_progress with_reducible apply Keeps.mk_upd

theorem formFold_keeps {s0 : State} {s : State} {f : Nat}  (hK : Keeps s0 s) :
    Keeps s0 (formFold s f) := by
  unfold formFold
  repeat' first
    | with_reducible assumption
    | with_reducible apply rset_keeps
    | with_reducible apply drawFoldKeys_keeps
    | with_reducible apply Keeps.ite
    | intro _

theorem clearChan_keeps {s0 : State} {s : State} {g : Nat}  (hK : Keeps s0 s) :
    Keeps s0 (clearChan s g) := by
  unfold clearChan
  repeat' first
    | with_reducible assumption
    | with_reducible apply rinc_keeps
    | with_reducible apply setChan_keeps
    | split

theorem foldChannels_keeps {s0 s : State} {f : Nat} (hK : Keeps s0 s) : Keeps s0 (foldChannels s f) := by
  unfold foldChannels
  extract_lets s1
  have h1 : Keeps s0 s1 := Keeps.mk_stores hK fun w => { w with launches := optmap_wf w.launches }
  clear_value s1
  exact Keeps.foldl (Keeps.mk_upd h1) fun u x hu => clearChan_keeps hu

theorem endLaunches_keeps {s0 : State} {n c : Nat} : ∀ {s : State}, Keeps s0 s → Keeps s0 (endLaunches n c s) := by
  induction n with
  | zero => intro s h; exact h
  | succ n ih =>
    intro s h
    unfold endLaunches
    split
    · exact ih ((execLaunchComplete_keeps h).out _ ‹_›)
    · exact h

theorem lastRecords_keeps {s0 : State} {s : State} {n : Nat}  (hK : Keeps s0 s) :
    Keeps s0 (lastRecords s n) := by
  unfold lastRecords
  repeat' first
    | with_reducible assumption
    | with_reducible apply svcDrain_keeps
    | with_reducible apply setRing_keeps
    | with_reducible apply drainOpens_keeps
    | with_reducible apply setCtx_keeps
    | with_reducible apply flushRecs_keeps
    | with_reducible apply Keeps.foldl
    | intro _

theorem forceStop_keeps {s0 : State} {s : State} {n : Nat}  (hK : Keeps s0 s) :
    Keeps s0 (forceStop s n) := by
  unfold forceStop
  repeat' first
    | with_reducible assumption
    | with_reducible apply releaseCtx_keeps
    | with_reducible apply setRing_keeps
    | with_reducible apply Keeps.foldl
    | intro _
    | split

theorem foldStop_keeps {s0 s : State} {f : Nat} (hK : Keeps s0 s) : Keeps s0 (foldStop s f) := by
  unfold foldStop
  extract_lets rs s1 s2 s3 s4
  have h1 : Keeps s0 s1 := Keeps.foldl hK fun u x hu => ringDisable_keeps (rset_keeps hu)
  clear_value s1
  have h2 : Keeps s0 s2 := foldChannels_keeps h1
  clear_value s2
  have h3 : Keeps s0 s3 := Keeps.foldl h2 fun u x hu => endLaunches_keeps hu
  clear_value s3
  have h4 : Keeps s0 s4 := Keeps.foldl h3 fun u x hu => Keeps.ite (fun _ => hu) fun _ => forceStop_keeps (lastRecords_keeps hu)
  clear_value s4
  exact Keeps.mk_stores h4 fun w => { w with launches := tfilter_wf w.launches }

theorem foldGuests_keeps {s0 : State} {s : State} {f : Nat}  (hK : Keeps s0 s) :
    Keeps s0 (foldGuests s f) := by
  unfold foldGuests
  repeat' first
    | with_reducible assumption
    | with_reducible apply releaseSlots_keeps
    | with_reducible apply endReq_keeps
    | with_reducible apply modelForget_keeps
    | with_reducible apply Keeps.foldl
    | intro _

theorem foldServing_keeps {s0 : State} {s : State} {f : Nat}  (hK : Keeps s0 s) :
    Keeps s0 (foldServing s f) := by
  unfold foldServing
  repeat' first
    | with_reducible assumption
    | with_reducible apply prefixSweep_keeps
    | with_reducible apply freeReq_keeps
    | with_reducible apply rset_keeps
    | with_reducible apply setModel_keeps
    | with_reducible apply poolForget_keeps
    | with_reducible apply rtCount_keeps
    | with_reducible apply poolStat_keeps
    | with_reducible apply Keeps.foldl
    | intro _
    | fail_if_no_progress with_reducible apply Keeps.mk_upd

theorem foldZero_keeps {s0 s : State} {f : Nat} (hK : Keeps s0 s) : Keeps s0 (foldZero s f) := by
  unfold foldZero
  exact Keeps.mk_stores hK fun w => { w with mem := tdrop_wf w.mem, errs := tdrop_wf w.errs, gerrs := tdrop_wf w.gerrs }

theorem coreFlrRegs_keeps {s0 s : State} {c : Nat} (hK : Keeps s0 s) : Keeps s0 (coreFlrRegs s c) := by
  unfold coreFlrRegs
  extract_lets s1 s2 s3 s4 s5 s6 s7
  have h2 : Keeps s0 s2 := rset_keeps (rset_keeps hK)
  clear_value s2
  have h3 : Keeps s0 s3 := Keeps.foldl h2 fun u x hu => rset_keeps hu
  clear_value s3
  have h6 : Keeps s0 s6 := rset_keeps (rset_keeps (rset_keeps h3))
  clear_value s6
  exact rset_keeps (Keeps.mk_stores h6 fun w =>
    { w with regs := rdrop_wfFrom (p := fun a => coreReg c 0xE40 ≤ a && a < coreReg c 0xF40) w.regs })

theorem foldRegs_keeps {s0 s : State} {f : Nat} (hK : Keeps s0 s) : Keeps s0 (foldRegs s f) := by
  unfold foldRegs
  extract_lets own hub tal s1 s2 s3
  clear_value own tal
  have h1 : Keeps s0 s1 := Keeps.mk_stores hK fun w => { w with
    acc := tdrop_wf (p := fun k => own (k / 1048576)) w.acc, accTy := tdrop_wf (p := fun k => own (k / 64)) w.accTy,
    flags := tdrop_wf (p := fun k => own (k / 256)) w.flags, tallies := tdrop_wf (p := tal) w.tallies,
    ars := tdrop_wf (p := fun k => own (k / 512)) w.ars, xs := tdrop_wf (p := fun k => own (k / 256)) w.xs,
    crk := tdrop_wf (p := own) w.crk }
  have h2 : Keeps s0 s2 := Keeps.foldl h1 fun u x hu => coreFlrRegs_keeps (setCore_keeps hu)
  have h3 : Keeps s0 s3 := Keeps.foldl h2 fun u x hu => rset_keeps hu
  exact rset_keeps h3

theorem startFill_keeps {s0 s : State} {f : Nat} {again : Bool} (hK : Keeps s0 s) : Keeps s0 (startFill s f again) := by
  unfold startFill
  refine Keeps.foldl (Keeps.mk_upd (draw_keeps (rset_keeps hK))) fun u k hu => ?_
  split
  · exact rfld_keeps hu
  · exact hu

theorem endFill_keeps {s0 s : State} {x : Fill} (hK : Keeps s0 s) : Keeps s0 (endFill s x) := by
  unfold endFill
  split
  · exact drawFoldKeys_keeps (Keeps.mk_upd (rset_keeps hK))
  · exact Keeps.mk_upd (rset_keeps hK)

theorem endFills_keeps {s0 s : State} (hK : Keeps s0 s) : Keeps s0 (endFills s) :=
  Keeps.foldl hK fun _ _ hu => endFill_keeps hu

theorem foldClear_keeps {s0 : State} {s : State} {f : Nat} {again : Bool}  (hK : Keeps s0 s) :
    Keeps s0 (foldClear s f again) := by
  unfold foldClear
  repeat' first
    | with_reducible assumption
    | with_reducible apply foldGuests_keeps
    | with_reducible apply foldStop_keeps
    | with_reducible apply foldZero_keeps
    | with_reducible apply dropFoldKeys_keeps
    | with_reducible apply foldServing_keeps
    | with_reducible apply foldRegs_keeps
    | with_reducible apply startFill_keeps

theorem releaseFold_keeps {s0 : State} {s : State} {f : Nat}  (hK : Keeps s0 s) :
    Keeps s0 (releaseFold s f) := by
  unfold releaseFold
  repeat' first
    | with_reducible assumption
    | with_reducible apply foldClear_keeps
    | with_reducible apply rset_keeps
    | with_reducible apply Keeps.ite
    | intro _

theorem regulatorWrite_keeps {s0 : State} {s : State} {f : Nat} {k : Nat} {v : Word}  (hK : Keeps s0 s) :
    Keeps s0 (regulatorWrite s f k v) := by
  unfold regulatorWrite
  repeat' first
    | with_reducible assumption
    | with_reducible apply rset_keeps
    | with_reducible apply Keeps.foldl
    | intro _
    | fail_if_no_progress with_reducible apply Keeps.mk_upd

theorem fldWrite_keeps {s0 : State} {s : State} {f : Nat} {o : Nat} {v : Word}  (hK : Keeps s0 s) :
    Keeps s0 (fldWrite s f o v) := by
  unfold fldWrite
  repeat' first
    | with_reducible assumption
    | with_reducible apply formFold_keeps
    | with_reducible apply releaseFold_keeps
    | with_reducible apply rset_keeps
    | with_reducible apply regulatorWrite_keeps
    | with_reducible apply Keeps.ite
    | intro _

theorem execRegulatorRelease_keeps {s0 : State} {f : Nat} {k : Nat} {st : Nat} {s : State}  (hK : Keeps s0 s) :
    KeepsOut s0 (execRegulatorRelease f k st s) := by
  unfold execRegulatorRelease
  repeat' first
    | with_reducible assumption
    | with_reducible apply regCharge_keeps
    | with_reducible apply channelTakes_keeps
    | with_reducible apply KeepsOut.ite
    | with_reducible apply KeepsOut.next
    | with_reducible apply KeepsOut.fault
    | intro _
    | fail_if_no_progress with_reducible apply Keeps.mk_upd
    | split
    | dsimp only

end Sys2Proof.Machine
end

