-- ==== Sys2Proof/Laws/KeepsDevice.lean ====
section
/-! SUPPORT. What Laws/Keeps.lean says, for the operations of stored-data integrity, links, transfers, host interface, messages and trust: each keeps it. -/

set_option linter.unusedTactic false
set_option linter.unreachableTactic false
set_option linter.unusedVariables false

set_option Elab.async false

namespace Sys2Proof.Machine

/-! ## Machine/Integrity.lean -/

theorem execSpdCeWriteback_keeps {s0 : State} {c : Nat} {granule : Nat} {s : State}  (hK : Keeps s0 s) :
    KeepsOut s0 (execSpdCeWriteback c granule s) := by
  unfold execSpdCeWriteback
  repeat' first
    | with_reducible assumption
    | with_reducible apply onCore_keeps
    | with_reducible apply rewriteSram_keeps
    | with_reducible apply Keeps.ite
    | with_reducible apply KeepsOut.ite
    | with_reducible apply KeepsOut.next
    | with_reducible apply KeepsOut.fault
    | intro _

theorem execDmaStarve_keeps {s0 : State} {c : Nat} {s : State}  (hK : Keeps s0 s) :
    KeepsOut s0 (execDmaStarve c s) := by
  unfold execDmaStarve
  repeat' first
    | with_reducible assumption
    | with_reducible apply onCore_keeps
    | with_reducible apply ror_keeps
    | with_reducible apply rinc_keeps
    | with_reducible apply KeepsOut.next

theorem execRepair_keeps {s0 : State} {k : Nat} {s : State}  (hK : Keeps s0 s) :
    KeepsOut s0 (execRepair k s) := by
  unfold execRepair
  repeat' first
    | with_reducible assumption
    | with_reducible apply channelTakes_keeps
    | with_reducible apply KeepsOut.ite
    | with_reducible apply KeepsOut.next
    | with_reducible apply KeepsOut.fault
    | intro _
    | with_reducible apply Keeps.put_stks
    | split
    | dsimp only

theorem grazePass_keeps {s0 s : State} (hK : Keeps s0 s) : Keeps s0 (grazePass s) := by
  unfold grazePass
  refine Keeps.mk_stores hK fun w => ?_
  have hc := tmap_wf (f := fun e => if ({ e.2 with parErrs := 0 } : CoreSt) = {} then none else some (e.1, { e.2 with parErrs := 0 }))
    (fun e x _ h => by
      split at h
      · cases h
      · rename_i ht
        cases h
        exact ⟨rfl, ht⟩) w.cores
  exact { w with cores := hc }

theorem execGrazeVisit_keeps {s0 : State} {a : Nat} {s : State}  (hK : Keeps s0 s) :
    KeepsOut s0 (execGrazeVisit a s) := by
  unfold execGrazeVisit
  repeat' first
    | with_reducible assumption
    | with_reducible apply grazePass_keeps
    | with_reducible apply channelTakes_keeps
    | with_reducible apply grazeUnit_keeps
    | with_reducible apply Keeps.ite
    | with_reducible apply KeepsOut.ite
    | with_reducible apply KeepsOut.next
    | with_reducible apply KeepsOut.fault
    | intro _

theorem execGrazeLate_keeps {s0 : State} {s : State}  (hK : Keeps s0 s) :
    KeepsOut s0 (execGrazeLate s) := by
  unfold execGrazeLate
  repeat' first
    | with_reducible assumption
    | with_reducible apply grazePass_keeps
    | with_reducible apply ror_keeps
    | with_reducible apply KeepsOut.ite
    | with_reducible apply KeepsOut.next
    | intro _

theorem execMigrationStart_keeps {s0 : State} {bank : Nat} {s : State}  (hK : Keeps s0 s) :
    KeepsOut s0 (execMigrationStart bank s) := by
  unfold execMigrationStart
  repeat' first
    | with_reducible assumption
    | with_reducible apply ror_keeps
    | with_reducible apply rset_keeps
    | with_reducible apply KeepsOut.ite
    | with_reducible apply KeepsOut.next
    | with_reducible apply KeepsOut.fault
    | intro _
    | fail_if_no_progress with_reducible apply Keeps.mk_upd

theorem spareCopy_keeps {s0 : State} {s : State} {u : Nat}  (hK : Keeps s0 s) :
    Keeps s0 (spareCopy s u) := by
  unfold spareCopy
  repeat' first
    | with_reducible assumption
    | with_reducible apply lifeCe_keeps
    | with_reducible apply logUe_keeps
    | with_reducible apply applyView_keeps
    | with_reducible apply rinc_keeps
    | with_reducible apply Keeps.ite
    | intro _
    | with_reducible apply Keeps.put_errs

theorem spareFlip_keeps {s0 : State} {s : State} {bank : Nat}  (hK : Keeps s0 s) :
    Keeps s0 (spareFlip s bank) := by
  unfold spareFlip
  repeat' first
    | with_reducible assumption
    | with_reducible apply flipDram_keeps
    | with_reducible apply Keeps.ite
    | intro _
    | with_reducible apply Keeps.put_errs

theorem execSpareSwitch_keeps {s0 : State} {bank : Nat} {s : State}  (hK : Keeps s0 s) :
    KeepsOut s0 (execSpareSwitch bank s) := by
  unfold execSpareSwitch
  repeat' first
    | with_reducible assumption
    | with_reducible apply spareFlip_keeps
    | with_reducible apply spareCopy_keeps
    | with_reducible apply draw_keeps
    | with_reducible apply setChan_keeps
    | with_reducible apply lifeAdd_keeps
    | with_reducible apply rset_keeps
    | with_reducible apply Keeps.ite
    | with_reducible apply KeepsOut.ite
    | with_reducible apply KeepsOut.next
    | with_reducible apply KeepsOut.fault
    | with_reducible apply Keeps.foldl
    | intro _

theorem execTsvRemap_keeps {s0 : State} {g : Nat} {s : State}  (hK : Keeps s0 s) :
    KeepsOut s0 (execTsvRemap g s) := by
  unfold execTsvRemap
  repeat' first
    | with_reducible assumption
    | with_reducible apply lifeAdd_keeps
    | with_reducible apply setChan_keeps
    | with_reducible apply KeepsOut.ite
    | with_reducible apply KeepsOut.next
    | with_reducible apply KeepsOut.fault
    | intro _

theorem svcKill_keeps {s0 : State} {s : State} {n : Nat} {st : Nat}  (hK : Keeps s0 s) :
    Keeps s0 (svcKill s n st) := by
  unfold svcKill
  repeat' first
    | with_reducible assumption
    | with_reducible apply fetchLine_keeps
    | with_reducible apply svcTake_keeps
    | with_reducible apply setRing_keeps
    | with_reducible apply haltMember_keeps
    | with_reducible apply svcDrain_keeps
    | with_reducible apply Keeps.ite
    | intro _
    | with_reducible refine Keeps.bad (by with_reducible assumption) ?_
    | with_reducible refine Keeps.held (by with_reducible assumption) ?_
    | with_reducible refine Keeps.ok (by with_reducible assumption) ?_
    | split

theorem svcKillAll_keeps {s0 : State} {s : State} {st : Nat}  (hK : Keeps s0 s) :
    Keeps s0 (svcKillAll s st) := by
  unfold svcKillAll
  repeat' first
    | with_reducible assumption
    | with_reducible apply svcKill_keeps
    | with_reducible apply Keeps.foldl
    | intro _
    | fail_if_no_progress with_reducible apply Keeps.mk_upd

theorem execFwCodeReload_keeps {s0 : State} {ok : Bool} {s : State}  (hK : Keeps s0 s) :
    KeepsOut s0 (execFwCodeReload ok s) := by
  unfold execFwCodeReload
  repeat' first
    | with_reducible assumption
    | with_reducible apply draw_keeps
    | with_reducible apply logUeRec_keeps
    | with_reducible apply svcKillAll_keeps
    | with_reducible apply raiseErr_keeps
    | with_reducible apply setAlert_keeps
    | with_reducible apply ror_keeps
    | with_reducible apply KeepsOut.ite
    | with_reducible apply KeepsOut.next
    | intro _

/-! ## Machine/Links.lean -/

theorem setLink_keeps {s0 : State} {s : State} {l : Nat} {v : LinkSt}  (hK : Keeps s0 s) :
    Keeps s0 (setLink s l v) := by
  unfold setLink
  repeat' first
    | with_reducible assumption
    | fail_if_no_progress with_reducible apply Keeps.mk_upd

theorem setLanes_keeps {s0 : State} {s : State} {l : Nat} {m : BitVec 4}  (hK : Keeps s0 s) :
    Keeps s0 (setLanes s l m) := by
  unfold setLanes
  repeat' first
    | with_reducible assumption
    | with_reducible apply rset_keeps

theorem sendNotices_keeps {s0 : State} {s : State} {d : Nat}  (hK : Keeps s0 s) :
    Keeps s0 (sendNotices s d) := by
  unfold sendNotices
  repeat' first
    | with_reducible assumption
    | with_reducible apply sendFab_keeps
    | with_reducible apply Keeps.foldl
    | intro _

theorem faultOut_keeps {s0 : State} {p : Nat → Bool} {s : State} {c x : Nat}  (hK : Keeps s0 s) :
    Keeps s0 (faultOut p s c x) := by
  unfold faultOut
  repeat' first
    | with_reducible assumption
    | with_reducible apply faultCmd_keeps
    | with_reducible apply Keeps.ite
    | intro _
    | split

theorem faultFabric_keeps {s0 : State} {p : Nat → Bool} {s : State}  (hK : Keeps s0 s) :
    Keeps s0 (faultFabric p s) := by
  unfold faultFabric
  repeat' first
    | with_reducible assumption
    | with_reducible apply faultOut_keeps
    | with_reducible apply Keeps.foldl
    | intro _

theorem degrade_keeps {s0 : State} {s : State} {d : Nat}  (hK : Keeps s0 s) :
    Keeps s0 (degrade s d) := by
  unfold degrade
  repeat' first
    | with_reducible assumption
    | with_reducible apply rfld_keeps
    | with_reducible apply raiseFab_keeps
    | with_reducible apply faultFabric_keeps
    | with_reducible apply rset_keeps

theorem loseMember_keeps {s0 : State} {s : State} {d : Nat}  (hK : Keeps s0 s) :
    Keeps s0 (loseMember s d) := by
  unfold loseMember
  repeat' first
    | with_reducible assumption
    | with_reducible apply sendNotices_keeps
    | with_reducible apply degrade_keeps
    | with_reducible apply Keeps.ite
    | intro _

theorem dropLink_keeps {s0 : State} {s : State} {l : Nat}  (hK : Keeps s0 s) :
    Keeps s0 (dropLink s l) := by
  unfold dropLink
  repeat' first
    | with_reducible assumption
    | with_reducible apply rset_keeps
    | with_reducible apply setLink_keeps
    | with_reducible apply raiseFab_keeps
    | with_reducible apply lifeAdd_keeps
    | with_reducible apply loseMember_keeps
    | with_reducible apply Keeps.ite
    | with_reducible apply Keeps.foldl
    | intro _

theorem onLink_keeps {s0 : State} {s : State} {l : Nat} {k : Out State} (hk : KeepsOut s0 k) (hK : Keeps s0 s) :
    KeepsOut s0 (onLink s l k) := by
  unfold onLink
  repeat' first
    | with_reducible assumption
    | with_reducible apply KeepsOut.ite
    | with_reducible apply KeepsOut.next
    | with_reducible apply KeepsOut.fault
    | intro _

theorem execNakReplay_keeps {s0 : State} {l : Nat} {seq : Nat} {s : State}  (hK : Keeps s0 s) :
    KeepsOut s0 (execNakReplay l seq s) := by
  unfold execNakReplay
  repeat' first
    | with_reducible assumption
    | with_reducible apply onLink_keeps
    | with_reducible apply rinc_keeps
    | with_reducible apply setLink_keeps
    | with_reducible apply dropLink_keeps
    | with_reducible apply Keeps.ite
    | with_reducible apply KeepsOut.next
    | intro _

theorem execMacGroupClose_keeps {s0 : State} {l : Nat} {s : State}  (hK : Keeps s0 s) :
    KeepsOut s0 (execMacGroupClose l s) := by
  unfold execMacGroupClose
  repeat' first
    | with_reducible assumption
    | with_reducible apply onLink_keeps
    | with_reducible apply setLink_keeps
    | with_reducible apply Keeps.ite
    | with_reducible apply KeepsOut.next
    | intro _

theorem execAgeIncrement_keeps {s0 : State} {s : State}  (hK : Keeps s0 s) :
    KeepsOut s0 (execAgeIncrement s) := by
  unfold execAgeIncrement
  repeat' first
    | with_reducible assumption
    | with_reducible apply KeepsOut.next
    | fail_if_no_progress with_reducible apply Keeps.mk_upd

theorem execLaneDrop_keeps {s0 : State} {l : Nat} {lane : Nat} {s : State}  (hK : Keeps s0 s) :
    KeepsOut s0 (execLaneDrop l lane s) := by
  unfold execLaneDrop
  repeat' first
    | with_reducible assumption
    | with_reducible apply onLink_keeps
    | with_reducible apply lifeAdd_keeps
    | with_reducible apply rinc_keeps
    | with_reducible apply setLink_keeps
    | with_reducible apply dropLink_keeps
    | with_reducible apply setLanes_keeps
    | with_reducible apply Keeps.ite
    | with_reducible apply KeepsOut.ite
    | with_reducible apply KeepsOut.next
    | with_reducible apply KeepsOut.fault
    | intro _

theorem execLinkAckTimeout_keeps {s0 : State} {l : Nat} {s : State}  (hK : Keeps s0 s) :
    KeepsOut s0 (execLinkAckTimeout l s) := by
  unfold execLinkAckTimeout
  repeat' first
    | with_reducible assumption
    | with_reducible apply onLink_keeps
    | with_reducible apply dropLink_keeps
    | with_reducible apply KeepsOut.next

theorem execLinkDown_keeps {s0 : State} {l : Nat} {s : State}  (hK : Keeps s0 s) :
    KeepsOut s0 (execLinkDown l s) := by
  unfold execLinkDown
  repeat' first
    | with_reducible assumption
    | with_reducible apply onLink_keeps
    | with_reducible apply dropLink_keeps
    | with_reducible apply KeepsOut.next

theorem execLaneReequalisation_keeps {s0 : State} {l : Nat} {lane : Nat} {s : State}  (hK : Keeps s0 s) :
    KeepsOut s0 (execLaneReequalisation l lane s) := by
  unfold execLaneReequalisation
  repeat' first
    | with_reducible assumption
    | with_reducible apply onLink_keeps
    | with_reducible apply setLanes_keeps
    | with_reducible apply setLink_keeps
    | with_reducible apply KeepsOut.ite
    | with_reducible apply KeepsOut.next
    | with_reducible apply KeepsOut.fault
    | intro _

theorem execLaneReequalisationDone_keeps {s0 : State} {l : Nat} {s : State}  (hK : Keeps s0 s) :
    KeepsOut s0 (execLaneReequalisationDone l s) := by
  unfold execLaneReequalisationDone
  repeat' first
    | with_reducible assumption
    | with_reducible apply onLink_keeps
    | with_reducible apply setLanes_keeps
    | with_reducible apply setLink_keeps
    | with_reducible apply KeepsOut.next
    | split
    | dsimp only

theorem governLinks_keeps {s0 : State} {s : State} {hold : Bool}  (hK : Keeps s0 s) :
    Keeps s0 (governLinks s hold) := by
  unfold governLinks
  repeat' first
    | with_reducible assumption
    | with_reducible apply setLanes_keeps
    | with_reducible apply setLink_keeps
    | with_reducible apply Keeps.ite
    | with_reducible apply Keeps.foldl
    | intro _

theorem execMemberMissing_keeps {s0 : State} {d : Nat} {s : State}  (hK : Keeps s0 s) :
    KeepsOut s0 (execMemberMissing d s) := by
  unfold execMemberMissing
  repeat' first
    | with_reducible assumption
    | with_reducible apply loseMember_keeps
    | with_reducible apply KeepsOut.ite
    | with_reducible apply KeepsOut.next
    | with_reducible apply KeepsOut.fault
    | intro _

theorem takeNotice_keeps {s0 : State} {s : State} {d : Nat}  (hK : Keeps s0 s) :
    Keeps s0 (takeNotice s d) := by
  unfold takeNotice
  split
  · exact hK
  · split
    · exact Keeps.mk_upd hK
    · split
      · exact hK
      · split
        · exact degrade_keeps hK
        · exact hK

theorem execDegradedNotice_keeps {s0 : State} {d : Nat} {s : State}  (hK : Keeps s0 s) :
    KeepsOut s0 (execDegradedNotice d s) := by
  unfold execDegradedNotice
  repeat' first
    | with_reducible assumption
    | with_reducible apply takeNotice_keeps
    | with_reducible apply KeepsOut.ite
    | with_reducible apply KeepsOut.next
    | with_reducible apply KeepsOut.fault
    | intro _

theorem execMeasurementReport_keeps {s0 : State} {d : Nat} {m3 : Nat} {m4 : Nat} {s : State}  (hK : Keeps s0 s) :
    KeepsOut s0 (execMeasurementReport d m3 m4 s) := by
  unfold execMeasurementReport
  repeat' first
    | with_reducible assumption
    | with_reducible apply loseMember_keeps
    | with_reducible apply KeepsOut.ite
    | with_reducible apply KeepsOut.next
    | with_reducible apply KeepsOut.fault
    | intro _

theorem linkReport_keeps {s0 : State} {topo : Nat} {s : State} {r : LinkReport}  (hK : Keeps s0 s) :
    Keeps s0 (linkReport topo s r) := by
  unfold linkReport
  repeat' first
    | with_reducible assumption
    | with_reducible apply rset_keeps
    | with_reducible apply setLink_keeps
    | with_reducible apply Keeps.ite
    | intro _

theorem formDomain_keeps {s0 : State} {s : State} {topo : Nat} {devices : List Nat}  (hK : Keeps s0 s) :
    Keeps s0 (formDomain s topo devices) := by
  unfold formDomain
  repeat' first
    | with_reducible assumption
    | with_reducible apply rset_keeps
    | with_reducible apply raiseFab_keeps
    | with_reducible apply Keeps.ite
    | intro _
    | fail_if_no_progress with_reducible refine Keeps.mk_boot ?_ id id

theorem startBringup_keeps {s0 s : State} (hK : Keeps s0 s) : Keeps s0 (startBringup s) := by
  unfold startBringup
  exact Keeps.mk_upd (rset_keeps hK)

theorem startDomainReset_keeps {s0 : State} {s : State}  (hK : Keeps s0 s) :
    Keeps s0 (startDomainReset s) := by
  unfold startDomainReset
  exact Keeps.mk_upd (raiseFab_keeps (startBringup_keeps (faultFabric_keeps hK)))

theorem execFabricBringup_keeps {s0 : State} {topo : Nat} {devices : List Nat} {links : List LinkReport} {s : State}  (hK : Keeps s0 s) :
    KeepsOut s0 (execFabricBringup topo devices links s) := by
  unfold execFabricBringup
  repeat' first
    | with_reducible assumption
    | with_reducible apply startDomainReset_keeps
    | with_reducible apply formDomain_keeps
    | with_reducible apply linkReport_keeps
    | with_reducible apply Keeps.ite
    | with_reducible apply KeepsOut.ite
    | with_reducible apply KeepsOut.next
    | with_reducible apply KeepsOut.fault
    | with_reducible apply Keeps.foldl
    | intro _

theorem execBringupReportDeadline_keeps {s0 : State} {reported : List Nat} {s : State}  (hK : Keeps s0 s) :
    KeepsOut s0 (execBringupReportDeadline reported s) := by
  unfold execBringupReportDeadline
  repeat' first
    | with_reducible assumption
    | with_reducible apply formDomain_keeps
    | with_reducible apply KeepsOut.ite
    | with_reducible apply KeepsOut.next
    | intro _

/-! ## Machine/RegSpec.lean -/

theorem accErrOne_keeps {s0 : State} {s : State} {own : Nat} {fn : Nat} {kind : Nat} {addr : Nat} {bar : Nat} {write : Bool}  (hK : Keeps s0 s) :
    Keeps s0 (accErrOne s own fn kind addr bar write) := by
  unfold accErrOne
  repeat' first
    | with_reducible assumption
    | with_reducible apply rset_keeps
    | with_reducible apply Keeps.ite
    | intro _

theorem accErr_keeps {s0 : State} {s : State} {fn : Nat} {kind : Nat} {addr : Nat} {bar : Nat} {write : Bool}  (hK : Keeps s0 s) :
    Keeps s0 (accErr s fn kind addr bar write) := by
  unfold accErr
  repeat' first
    | with_reducible assumption
    | with_reducible apply accErrOne_keeps
    | with_reducible apply Keeps.ite
    | intro _

theorem winWrite_keeps {s0 : State} {s : State} {fn : Nat} {vf : Nat} {j : Nat} {v : Word}  (hK : Keeps s0 s) :
    Keeps s0 (winWrite s fn vf j v) := by
  unfold winWrite
  repeat' first
    | with_reducible assumption
    | with_reducible apply accErr_keeps
    | with_reducible apply Keeps.ite
    | intro _
    | fail_if_no_progress with_reducible apply Keeps.mk_upd

theorem unmask_keeps {s0 : State} {s : State} {fn : Nat} {vec : Nat}  (hK : Keeps s0 s) :
    Keeps s0 (unmask s fn vec) := by
  unfold unmask
  repeat' first
    | with_reducible assumption
    | with_reducible apply sendMsix_keeps
    | with_reducible apply Keeps.ite
    | intro _
    | fail_if_no_progress with_reducible apply Keeps.mk_upd

theorem maskVec_keeps {s0 : State} {s : State} {fn : Nat} {vec : Nat}  (hK : Keeps s0 s) :
    Keeps s0 (maskVec s fn vec) := by
  unfold maskVec
  repeat' first
    | with_reducible assumption
    | fail_if_no_progress with_reducible apply Keeps.mk_upd

theorem msixWrite_keeps {s0 : State} {s : State} {fn : Nat} {o : Nat} {v : Word}  (hK : Keeps s0 s) :
    Keeps s0 (msixWrite s fn o v) := by
  unfold msixWrite
  repeat' first
    | with_reducible assumption
    | with_reducible apply rset_keeps
    | with_reducible apply maskVec_keeps
    | with_reducible apply unmask_keeps
    | with_reducible apply Keeps.ite
    | intro _

theorem plainWrite_keeps {s0 : State} {s : State} {a : Nat} {v : Word} {one : Word}  (hK : Keeps s0 s) :
    Keeps s0 (plainWrite s a v one) := by
  unfold plainWrite
  repeat' first
    | with_reducible assumption
    | with_reducible apply rset_keeps
    | with_reducible apply Keeps.ite
    | intro _

theorem tallyWrite_keeps {s0 : State} {s : State} {unit : Nat} {n : Nat} {v : Word}  (hK : Keeps s0 s) :
    Keeps s0 (tallyWrite s unit n v) := by
  unfold tallyWrite
  repeat' first
    | with_reducible assumption
    | with_reducible apply setTally_keeps
    | with_reducible apply addTally_keeps
    | with_reducible apply Keeps.ite
    | intro _

theorem flipWrite_keeps {s0 : State} {s : State} {ctrl : Nat} {a : Nat} {armBit : Nat} {maskBits : Nat} {rest : Nat} {v : Word} {one : Word}  (hK : Keeps s0 s) :
    Keeps s0 (flipWrite s ctrl a armBit maskBits rest v one) := by
  unfold flipWrite
  repeat' first
    | with_reducible assumption
    | with_reducible apply rset_keeps
    | with_reducible apply Keeps.ite
    | intro _

theorem groupWrite_keeps {s0 : State} {s : State} {v : Word}  (hK : Keeps s0 s) :
    Keeps s0 (groupWrite s v) := by
  unfold groupWrite
  repeat' first
    | with_reducible assumption
    | with_reducible apply drawGroupKey_keeps
    | with_reducible apply rset_keeps
    | with_reducible apply Keeps.ite
    | with_reducible apply Keeps.foldl
    | intro _
    | fail_if_no_progress with_reducible apply Keeps.mk_upd

theorem domainCtrl_keeps {s0 : State} {s : State} {v : Word}  (hK : Keeps s0 s) :
    Keeps s0 (domainCtrl s v) := by
  unfold domainCtrl
  repeat' first
    | with_reducible assumption
    | with_reducible apply startDomainReset_keeps
    | with_reducible apply Keeps.ite
    | intro _

theorem spareReqWrite_keeps {s0 : State} {s : State} {v : Word}  (hK : Keeps s0 s) :
    Keeps s0 (spareReqWrite s v) := by
  unfold spareReqWrite
  repeat' first
    | with_reducible assumption
    | with_reducible apply Keeps.ite
    | intro _
    | fail_if_no_progress with_reducible apply Keeps.mk_upd

theorem crkWrite_keeps {s0 : State} {s : State} {c : Nat} {v : Word} {one : Word}  (hK : Keeps s0 s) :
    Keeps s0 (crkWrite s c v one) := by
  unfold crkWrite
  repeat' first
    | with_reducible assumption
    | with_reducible apply rset_keeps
    | with_reducible apply Keeps.ite
    | intro _
    | with_reducible apply Keeps.put_crk

theorem regPut_keeps {s0 : State} {s : State} {who : Writer} {a : Nat} {v : Word} {w : Word}  (hK : Keeps s0 s) :
    Keeps s0 (regPut s who a v w) := by
  unfold regPut
  repeat' first
    | with_reducible assumption
    | with_reducible apply plainWrite_keeps
    | with_reducible apply tallyWrite_keeps
    | with_reducible apply flipWrite_keeps
    | with_reducible apply groupWrite_keeps
    | with_reducible apply setModel_keeps
    | with_reducible apply descWrite_keeps
    | with_reducible apply doorbell_keeps
    | with_reducible apply cplHead_keeps
    | with_reducible apply fldWrite_keeps
    | with_reducible apply domainCtrl_keeps
    | with_reducible apply winWrite_keeps
    | with_reducible apply msixWrite_keeps
    | with_reducible apply rset_keeps
    | with_reducible apply spareReqWrite_keeps
    | with_reducible apply crkWrite_keeps
    | with_reducible apply Keeps.ite
    | intro _
    | fail_if_no_progress with_reducible refine Keeps.mk_boot ?_ id id
    | with_reducible refine KeepsOut.out (execSrvStepDone_keeps ?_) _ (by with_reducible assumption)
    | split

theorem regStore_keeps {s0 : State} {s : State} {who : Writer} {a : Nat} {size : Nat} {v : Word}  (hK : Keeps s0 s) :
    Keeps s0 (regStore s who a size v) := by
  unfold regStore
  repeat' first
    | with_reducible assumption
    | with_reducible apply regPut_keeps
    | with_reducible apply Keeps.ite
    | intro _

/-! ## Machine/Transfer.lean -/

/-- A transfer's write to a register keeps it. -/
theorem regIo_store_keeps {s0 : State} : ∀ u f n a z v, Keeps s0 u → Keeps s0 (regIo.store u f n a z v) :=
  fun _ _ _ _ _ _ hu => regStore_keeps hu

theorem execDmaCopy_keeps {s0 : State} {c n : Nat} {s : State} (hK : Keeps s0 s) : KeepsOut s0 (execDmaCopy c n s) :=
  engineRow_keeps (fun _ _ _ _ h => xferEng_keeps regIo_store_keeps h) hK

theorem execDmaPerm_keeps {s0 : State} {c n : Nat} {s : State} (hK : Keeps s0 s) : KeepsOut s0 (execDmaPerm c n s) :=
  engineRow_keeps (fun _ _ _ _ h => xferEng_keeps regIo_store_keeps h) hK

theorem execDmaPut_keeps {s0 : State} {c n : Nat} {s : State} (hK : Keeps s0 s) : KeepsOut s0 (execDmaPut c n s) :=
  engineRow_keeps (fun _ _ _ _ h => xferEng_keeps regIo_store_keeps h) hK

theorem execPutArrive_keeps {s0 : State} {k : Nat} {s : State} (hK : Keeps s0 s) : KeepsOut s0 (execPutArrive k s) :=
  KeepsOut.next (putArrive_keeps regIo_store_keeps hK)

theorem execDmaAmo_keeps {s0 : State} {c n : Nat} {s : State} (hK : Keeps s0 s) : KeepsOut s0 (execDmaAmo c n s) :=
  engineRow_keeps (fun _ _ _ _ h => amoEng_keeps regIo_store_keeps h) hK

/-! ## Machine/HostIf.lean -/

theorem rcvCtrl_keeps {s0 : State} {s : State} {v : Word}  (hK : Keeps s0 s) :
    Keeps s0 (rcvCtrl s v) := by
  unfold rcvCtrl
  repeat' first
    | with_reducible assumption
    | with_reducible apply Keeps.ite
    | intro _
    | fail_if_no_progress with_reducible refine Keeps.mk_boot ?_ id id

theorem rcvWrite_keeps {s0 : State} {s : State} {o : Nat} {data : List Byte}  (hK : Keeps s0 s) :
    Keeps s0 (rcvWrite s o data) := by
  unfold rcvWrite
  repeat' first
    | with_reducible assumption
    | with_reducible apply rcvCtrl_keeps
    | with_reducible apply Keeps.ite
    | intro _
    | fail_if_no_progress with_reducible refine Keeps.mk_boot ?_ id id

theorem hostPay_keeps {s0 : State} {s : State} {fn : Nat} {k : Nat} {ga : Nat} {n : Nat} {write : Bool}  (hK : Keeps s0 s) :
    Keeps s0 (hostPay s fn k ga n write) := by
  unfold hostPay
  repeat' first
    | with_reducible assumption
    | with_reducible apply regPay_keeps
    | with_reducible apply regCharge_keeps

theorem aerReport_keeps {s0 : State} {s : State} {fn : Nat} {poisoned : Bool}  (hK : Keeps s0 s) :
    Keeps s0 (aerReport s fn poisoned) := by
  unfold aerReport
  exact Keeps.mk_upd hK

theorem answerUr_keeps {s0 : State} {s : State} {fn : Nat}  (hK : Keeps s0 s) : Keeps s0 (answerUr s fn) := by
  unfold answerUr
  exact answer_keeps (aerReport_keeps hK)

theorem memberAns_keeps {s0 : State} {s : State} {fn : Nat} {ga : Nat} {len : Nat}  (hK : Keeps s0 s) :
    Keeps s0 (memberAns s fn ga len) := by
  unfold memberAns
  repeat' first
    | with_reducible assumption
    | with_reducible apply answer_keeps
    | with_reducible apply answerUr_keeps
    | fail_if_no_progress with_reducible apply Keeps.mk_upd
    | split
    | dsimp only

theorem execHostRead_keeps {s0 : State} {fn : Nat} {bar : Nat} {off : Nat} {len : Nat} {s : State}  (hK : Keeps s0 s) :
    KeepsOut s0 (execHostRead fn bar off len s) := by
  unfold execHostRead
  repeat' first
    | with_reducible assumption
    | with_reducible apply answer_keeps
    | with_reducible apply answerUr_keeps
    | with_reducible apply accErr_keeps
    | with_reducible apply hostPay_keeps
    | with_reducible apply askStart_keeps
    | with_reducible apply hostReads_keeps
    | with_reducible apply answerEp_keeps
    | with_reducible apply memberAns_keeps
    | with_reducible apply sendFab_keeps
    | with_reducible apply Keeps.ite
    | with_reducible apply KeepsOut.ite
    | with_reducible apply KeepsOut.next
    | with_reducible apply KeepsOut.fault
    | intro _
    | fail_if_no_progress with_reducible apply Keeps.mk_upd
    | split
    | dsimp only

theorem relayWrite_keeps {s0 : State} {s : State} {fn : Nat} {ga : Nat} {data : List Byte}  (hK : Keeps s0 s) :
    Keeps s0 (relayWrite s fn ga data) := by
  unfold relayWrite
  repeat' first
    | with_reducible assumption
    | with_reducible apply sendFab_keeps
    | with_reducible apply Keeps.ite
    | intro _
    | fail_if_no_progress with_reducible apply Keeps.mk_upd

theorem execHostWrite_keeps {s0 : State} {fn : Nat} {bar : Nat} {off : Nat} {data : List Byte} {ep : Bool} {s : State}  (hK : Keeps s0 s) :
    KeepsOut s0 (execHostWrite fn bar off data ep s) := by
  unfold execHostWrite
  repeat' first
    | with_reducible assumption
    | with_reducible apply accErr_keeps
    | with_reducible apply aerReport_keeps
    | with_reducible apply rcvWrite_keeps
    | with_reducible apply regStore_keeps
    | with_reducible apply hostPay_keeps
    | with_reducible apply dramWrite_keeps
    | with_reducible apply extWrite_keeps
    | with_reducible apply hostPost_keeps
    | with_reducible apply relayWrite_keeps
    | with_reducible apply KeepsOut.ite
    | with_reducible apply KeepsOut.next
    | with_reducible apply KeepsOut.fault
    | intro _
    | split
    | dsimp only

theorem execHostAtomicop_keeps {s0 : State} {fn : Nat} {bar : Nat} {off : Nat} {aop : Nat} {size : Nat} {opd : Word} {cmp : Word} {s : State}  (hK : Keeps s0 s) :
    KeepsOut s0 (execHostAtomicop fn bar off aop size opd cmp s) := by
  unfold execHostAtomicop
  repeat' first
    | with_reducible assumption
    | with_reducible apply answer_keeps
    | with_reducible apply answerUr_keeps
    | with_reducible apply accErr_keeps
    | with_reducible apply askNew_keeps
    | with_reducible apply hostPay_keeps
    | with_reducible apply answerEp_keeps
    | with_reducible apply eccTouch_keeps
    | with_reducible apply atomicAt_keeps
    | with_reducible apply memberAns_keeps
    | with_reducible apply sendFab_keeps
    | with_reducible apply KeepsOut.ite
    | with_reducible apply KeepsOut.next
    | with_reducible apply KeepsOut.fault
    | intro _
    | with_reducible refine Keeps.fst (by with_reducible assumption) ?_
    | split

theorem regRow_keeps {s0 : State} {fn : Nat} {a : Nat} {size : Nat} {v : Word} {s : State}  (hK : Keeps s0 s) :
    KeepsOut s0 (regRow fn a size v s) := by
  unfold regRow
  repeat' first
    | with_reducible assumption
    | with_reducible apply execHostWrite_keeps

theorem execRingDoorbell_keeps {s0 : State} {fn : Nat} {n : Nat} {v : Word} {s : State}  (hK : Keeps s0 s) :
    KeepsOut s0 (execRingDoorbell fn n v s) := by
  unfold execRingDoorbell
  repeat' first
    | with_reducible assumption
    | with_reducible apply regRow_keeps
    | with_reducible apply KeepsOut.ite
    | with_reducible apply KeepsOut.fault
    | intro _

theorem execCplHeadWrite_keeps {s0 : State} {fn : Nat} {n : Nat} {v : Word} {s : State}  (hK : Keeps s0 s) :
    KeepsOut s0 (execCplHeadWrite fn n v s) := by
  unfold execCplHeadWrite
  repeat' first
    | with_reducible assumption
    | with_reducible apply regRow_keeps
    | with_reducible apply KeepsOut.ite
    | with_reducible apply KeepsOut.fault
    | intro _

theorem execRingEnable_keeps {s0 : State} {fn : Nat} {n : Nat} {v : Word} {s : State}  (hK : Keeps s0 s) :
    KeepsOut s0 (execRingEnable fn n v s) := by
  unfold execRingEnable
  repeat' first
    | with_reducible assumption
    | with_reducible apply regRow_keeps
    | with_reducible apply KeepsOut.ite
    | with_reducible apply KeepsOut.fault
    | intro _

theorem execRingDisable_keeps {s0 : State} {fn : Nat} {n : Nat} {v : Word} {s : State}  (hK : Keeps s0 s) :
    KeepsOut s0 (execRingDisable fn n v s) := by
  unfold execRingDisable
  repeat' first
    | with_reducible assumption
    | with_reducible apply regRow_keeps
    | with_reducible apply KeepsOut.ite
    | with_reducible apply KeepsOut.fault
    | intro _

theorem execFoldForm_keeps {s0 : State} {fn : Nat} {f : Nat} {v : Word} {s : State}  (hK : Keeps s0 s) :
    KeepsOut s0 (execFoldForm fn f v s) := by
  unfold execFoldForm
  repeat' first
    | with_reducible assumption
    | with_reducible apply regRow_keeps
    | with_reducible apply KeepsOut.ite
    | with_reducible apply KeepsOut.fault
    | intro _

theorem execFoldRelease_keeps {s0 : State} {fn : Nat} {f : Nat} {v : Word} {s : State}  (hK : Keeps s0 s) :
    KeepsOut s0 (execFoldRelease fn f v s) := by
  unfold execFoldRelease
  repeat' first
    | with_reducible assumption
    | with_reducible apply regRow_keeps
    | with_reducible apply KeepsOut.ite
    | with_reducible apply KeepsOut.fault
    | intro _

theorem execTallyAdd_keeps {s0 : State} {fn : Nat} {unit : Nat} {n : Nat} {v : Word} {s : State}  (hK : Keeps s0 s) :
    KeepsOut s0 (execTallyAdd fn unit n v s) := by
  unfold execTallyAdd
  repeat' first
    | with_reducible assumption
    | with_reducible apply regRow_keeps
    | with_reducible apply KeepsOut.ite
    | with_reducible apply KeepsOut.fault
    | intro _

theorem execTallySet_keeps {s0 : State} {fn : Nat} {unit : Nat} {n : Nat} {v : Word} {s : State}  (hK : Keeps s0 s) :
    KeepsOut s0 (execTallySet fn unit n v s) := by
  unfold execTallySet
  repeat' first
    | with_reducible assumption
    | with_reducible apply regRow_keeps
    | with_reducible apply KeepsOut.ite
    | with_reducible apply KeepsOut.fault
    | intro _

theorem execSpareReq_keeps {s0 : State} {fn : Nat} {v : Word} {s : State}  (hK : Keeps s0 s) :
    KeepsOut s0 (execSpareReq fn v s) := by
  unfold execSpareReq
  repeat' first
    | with_reducible assumption
    | with_reducible apply regRow_keeps

theorem execFlipArm_keeps {s0 : State} {fn : Nat} {unit : Nat} {v : Word} {s : State}  (hK : Keeps s0 s) :
    KeepsOut s0 (execFlipArm fn unit v s) := by
  unfold execFlipArm
  repeat' first
    | with_reducible assumption
    | with_reducible apply regRow_keeps
    | with_reducible apply KeepsOut.ite
    | with_reducible apply KeepsOut.fault
    | intro _

theorem execDomainReset_keeps {s0 : State} {fn : Nat} {v : Word} {s : State}  (hK : Keeps s0 s) :
    KeepsOut s0 (execDomainReset fn v s) := by
  unfold execDomainReset
  repeat' first
    | with_reducible assumption
    | with_reducible apply regRow_keeps

theorem execPrefixGroupWrite_keeps {s0 : State} {fn : Nat} {v : Word} {s : State}  (hK : Keeps s0 s) :
    KeepsOut s0 (execPrefixGroupWrite fn v s) := by
  unfold execPrefixGroupWrite
  repeat' first
    | with_reducible assumption
    | with_reducible apply regRow_keeps

theorem execRegisterWrite_keeps {s0 : State} {fn : Nat} {a : Nat} {size : Nat} {v : Word} {s : State}  (hK : Keeps s0 s) :
    KeepsOut s0 (execRegisterWrite fn a size v s) := by
  unfold execRegisterWrite
  repeat' first
    | with_reducible assumption
    | with_reducible apply regRow_keeps
    | with_reducible apply KeepsOut.ite
    | with_reducible apply KeepsOut.next
    | with_reducible apply KeepsOut.fault
    | intro _

theorem execRcvChunk_keeps {s0 : State} {fn : Nat} {v : Word} {s : State}  (hK : Keeps s0 s) :
    KeepsOut s0 (execRcvChunk fn v s) := by
  unfold execRcvChunk
  repeat' first
    | with_reducible assumption
    | with_reducible apply execHostWrite_keeps

theorem execRcvRestart_keeps {s0 : State} {fn : Nat} {v : Word} {s : State}  (hK : Keeps s0 s) :
    KeepsOut s0 (execRcvRestart fn v s) := by
  unfold execRcvRestart
  repeat' first
    | with_reducible assumption
    | with_reducible apply execHostWrite_keeps

theorem execHifWinWrite_keeps {s0 : State} {fn : Nat} {vf : Nat} {j : Nat} {v : Word} {s : State}  (hK : Keeps s0 s) :
    KeepsOut s0 (execHifWinWrite fn vf j v s) := by
  unfold execHifWinWrite
  repeat' first
    | with_reducible assumption
    | with_reducible apply winWrite_keeps
    | with_reducible apply KeepsOut.ite
    | with_reducible apply KeepsOut.next
    | with_reducible apply KeepsOut.fault
    | intro _

theorem execMsixUnmask_keeps {s0 : State} {fn : Nat} {vec : Nat} {s : State}  (hK : Keeps s0 s) :
    KeepsOut s0 (execMsixUnmask fn vec s) := by
  unfold execMsixUnmask
  repeat' first
    | with_reducible assumption
    | with_reducible apply unmask_keeps
    | with_reducible apply KeepsOut.ite
    | with_reducible apply KeepsOut.next
    | with_reducible apply KeepsOut.fault
    | intro _

/-! ## Machine/HostEv.lean -/

theorem execRelayDoorbellForward_keeps {s0 : State} {d : Nat} {s : State}  (hK : Keeps s0 s) :
    KeepsOut s0 (execRelayDoorbellForward d s) := by
  unfold execRelayDoorbellForward
  repeat' first
    | with_reducible assumption
    | with_reducible apply sendFab_keeps
    | with_reducible apply KeepsOut.ite
    | with_reducible apply KeepsOut.next
    | with_reducible apply KeepsOut.fault
    | intro _
    | fail_if_no_progress with_reducible apply Keeps.mk_upd
    | split
    | dsimp only

theorem relayAnswer_keeps {s0 : State} {s : State} {d : Nat} {op : MsgOp} {data : List Byte}  (hK : Keeps s0 s) :
    Keeps s0 (relayAnswer s d op data) := by
  unfold relayAnswer
  repeat' first
    | with_reducible assumption
    | with_reducible apply sendFab_keeps

theorem relayPay_keeps {s0 : State} {s : State} {fn : Nat} {k : Nat} {n : Nat}  (hK : Keeps s0 s) :
    Keeps s0 (relayPay s fn k n) := by
  unfold relayPay
  repeat' first
    | with_reducible assumption
    | with_reducible apply regCharge_keeps

theorem execRelayDeviceRequest_keeps {s0 : State} {d : Nat} {write : Bool} {ha : Nat} {data : List Byte} {msix : Option Nat} {s : State}  (hK : Keeps s0 s) :
    KeepsOut s0 (execRelayDeviceRequest d write ha data msix s) := by
  unfold execRelayDeviceRequest
  repeat' first
    | with_reducible assumption
    | with_reducible apply sendMsix_keeps
    | with_reducible apply relayAnswer_keeps
    | with_reducible apply relayPay_keeps
    | with_reducible apply Keeps.ite
    | with_reducible apply KeepsOut.ite
    | with_reducible apply KeepsOut.next
    | with_reducible apply KeepsOut.fault
    | intro _
    | fail_if_no_progress with_reducible apply Keeps.mk_upd
    | split

theorem endReqOut_keeps {s0 : State} {s : State} {q : HostReq} {st : HostCpl}  (hK : Keeps s0 s) :
    Keeps s0 (endReqOut s q st) := by
  unfold endReqOut
  repeat' first
    | with_reducible assumption
    | with_reducible apply relayPay_keeps
    | with_reducible apply relayAnswer_keeps
    | fail_if_no_progress with_reducible apply Keeps.mk_upd
    | split

theorem execHostCompletion_keeps {s0 : State} {id : Nat} {st : HostCpl} {s : State}  (hK : Keeps s0 s) :
    KeepsOut s0 (execHostCompletion id st s) := by
  unfold execHostCompletion
  repeat' first
    | with_reducible assumption
    | with_reducible apply endReqOut_keeps
    | with_reducible apply KeepsOut.next
    | split

theorem execDevCplTimeout_keeps {s0 : State} {id : Nat} {s : State}  (hK : Keeps s0 s) :
    KeepsOut s0 (execDevCplTimeout id s) := by
  unfold execDevCplTimeout
  repeat' first
    | with_reducible assumption
    | with_reducible apply endReqOut_keeps
    | with_reducible apply Keeps.ite
    | with_reducible apply KeepsOut.next
    | intro _
    | split

theorem linkFields_keeps {s0 : State} {s : State} {speed : Nat} {width : Nat} {flit : Bool}  (hK : Keeps s0 s) :
    Keeps s0 (linkFields s speed width flit) := by
  unfold linkFields
  repeat' first
    | with_reducible assumption
    | with_reducible apply rset_keeps

theorem pcieDown_keeps {s0 : State} {s : State}  (hK : Keeps s0 s) :
    Keeps s0 (pcieDown s) := by
  unfold pcieDown
  repeat' first
    | with_reducible assumption
    | with_reducible apply linkFields_keeps
    | with_reducible apply rset_keeps
    | with_reducible apply endReqOut_keeps
    | with_reducible apply Keeps.ite
    | with_reducible apply Keeps.foldl
    | intro _
    | fail_if_no_progress with_reducible apply Keeps.mk_upd

theorem execPcieLinkDown_keeps {s0 : State} {s : State}  (hK : Keeps s0 s) :
    KeepsOut s0 (execPcieLinkDown s) := by
  unfold execPcieLinkDown
  repeat' first
    | with_reducible assumption
    | with_reducible apply pcieDown_keeps
    | with_reducible apply KeepsOut.next

theorem execPcieLinkUp_keeps {s0 : State} {speed : Nat} {width : Nat} {flit : Bool} {s : State}  (hK : Keeps s0 s) :
    KeepsOut s0 (execPcieLinkUp speed width flit s) := by
  unfold execPcieLinkUp
  repeat' first
    | with_reducible assumption
    | with_reducible apply linkFields_keeps
    | with_reducible apply KeepsOut.ite
    | with_reducible apply KeepsOut.next
    | with_reducible apply KeepsOut.fault
    | intro _
    | fail_if_no_progress with_reducible apply Keeps.mk_upd

theorem resetFn_keeps {s0 s : State} {fn : Nat} (hK : Keeps s0 s) : Keeps s0 (resetFn s fn) := by
  unfold resetFn
  extract_lets st own lo h0 s1
  have h1 : Keeps s0 s1 := Keeps.mk_stores hK fun w =>
    { w with regs := rdrop_wfFrom (p := fun a => lo ≤ a && a < lo + 0x100000) w.regs }
  clear_value s1
  split
  · exact rset_keeps h1
  · exact h1

theorem resetFold_keeps {s0 : State} {s : State} {f : Nat}  (hK : Keeps s0 s) :
    Keeps s0 (resetFold s f) := by
  unfold resetFold
  repeat' first
    | with_reducible assumption
    | with_reducible apply foldClear_keeps
    | with_reducible apply Keeps.ite
    | intro _

theorem execFlr_keeps {s0 : State} {fn : Nat} {s : State}  (hK : Keeps s0 s) :
    KeepsOut s0 (execFlr fn s) := by
  unfold execFlr
  repeat' first
    | with_reducible assumption
    | with_reducible apply resetFn_keeps
    | with_reducible apply resetFold_keeps
    | with_reducible apply KeepsOut.ite
    | with_reducible apply KeepsOut.next
    | with_reducible apply KeepsOut.fault
    | with_reducible apply Keeps.foldl
    | intro _

theorem ringPower_keeps {s0 : State} {b : Bool} {s : State} {n : Nat}  (hK : Keeps s0 s) :
    Keeps s0 (ringPower b s n) := by
  unfold ringPower
  repeat' first
    | with_reducible assumption
    | with_reducible apply ringRestate_keeps
    | with_reducible apply setSuspended_keeps
    | with_reducible apply Keeps.foldl
    | intro _

theorem execD3hotEntry_keeps {s0 : State} {fn : Nat} {s : State}  (hK : Keeps s0 s) :
    KeepsOut s0 (execD3hotEntry fn s) := by
  unfold execD3hotEntry
  repeat' first
    | with_reducible assumption
    | with_reducible apply ringPower_keeps
    | with_reducible apply KeepsOut.ite
    | with_reducible apply Keeps.ite
    | with_reducible apply KeepsOut.next
    | with_reducible apply KeepsOut.fault
    | with_reducible apply Keeps.foldl
    | intro _
    | fail_if_no_progress with_reducible apply Keeps.mk_upd

theorem execD0Return_keeps {s0 : State} {fn : Nat} {s : State}  (hK : Keeps s0 s) :
    KeepsOut s0 (execD0Return fn s) := by
  unfold execD0Return
  repeat' first
    | with_reducible assumption
    | with_reducible apply ringPower_keeps
    | with_reducible apply unmask_keeps
    | with_reducible apply KeepsOut.ite
    | with_reducible apply KeepsOut.next
    | with_reducible apply KeepsOut.fault
    | with_reducible apply Keeps.foldl
    | intro _
    | fail_if_no_progress with_reducible apply Keeps.mk_upd

theorem execBar2Resize_keeps {s0 : State} {fn : Nat} {log2 : Nat} {s : State}  (hK : Keeps s0 s) :
    KeepsOut s0 (execBar2Resize fn log2 s) := by
  unfold execBar2Resize
  repeat' first
    | with_reducible assumption
    | with_reducible apply KeepsOut.ite
    | with_reducible apply KeepsOut.next
    | with_reducible apply KeepsOut.fault
    | intro _
    | fail_if_no_progress with_reducible apply Keeps.mk_upd

theorem tdiFail_keeps {s0 : State} {s : State} {vf : Nat}  (hK : Keeps s0 s) :
    Keeps s0 (tdiFail s vf) := by
  unfold tdiFail
  repeat' first
    | with_reducible assumption
    | with_reducible apply resetFn_keeps
    | with_reducible apply resetFold_keeps
    | with_reducible apply Keeps.ite
    | intro _

theorem execTdiError_keeps {s0 : State} {vf : Nat} {s : State}  (hK : Keeps s0 s) :
    KeepsOut s0 (execTdiError vf s) := by
  unfold execTdiError
  repeat' first
    | with_reducible assumption
    | with_reducible apply tdiFail_keeps
    | with_reducible apply KeepsOut.ite
    | with_reducible apply KeepsOut.next
    | with_reducible apply KeepsOut.fault
    | intro _

theorem execTdispRequest_keeps {s0 : State} {vf : Nat} {st : Tdi} {s : State}  (hK : Keeps s0 s) :
    KeepsOut s0 (execTdispRequest vf st s) := by
  unfold execTdispRequest
  repeat' first
    | with_reducible assumption
    | with_reducible apply KeepsOut.ite
    | with_reducible apply KeepsOut.next
    | with_reducible apply KeepsOut.fault
    | intro _
    | fail_if_no_progress with_reducible apply Keeps.mk_upd
    | split

theorem execVfEnable_keeps {s0 : State} {n : Nat} {s : State}  (hK : Keeps s0 s) :
    KeepsOut s0 (execVfEnable n s) := by
  unfold execVfEnable
  repeat' first
    | with_reducible assumption
    | with_reducible apply resetFn_keeps
    | with_reducible apply tdiFail_keeps
    | with_reducible apply rset_keeps
    | with_reducible apply KeepsOut.ite
    | with_reducible apply KeepsOut.next
    | with_reducible apply KeepsOut.fault
    | with_reducible apply Keeps.foldl
    | intro _

theorem execIdeKeyProg_keeps {s0 : State} {stream : Nat} {secured : Bool} {s : State}  (hK : Keeps s0 s) :
    KeepsOut s0 (execIdeKeyProg stream secured s) := by
  unfold execIdeKeyProg
  repeat' first
    | with_reducible assumption
    | with_reducible apply rset_keeps
    | with_reducible apply Keeps.ite
    | with_reducible apply KeepsOut.ite
    | with_reducible apply KeepsOut.next
    | with_reducible apply KeepsOut.fault
    | intro _
    | fail_if_no_progress with_reducible apply Keeps.mk_upd

theorem execAtsInvalidation_keeps {s0 : State} {fn : Nat} {page : Nat} {s : State}  (hK : Keeps s0 s) :
    KeepsOut s0 (execAtsInvalidation fn page s) := by
  unfold execAtsInvalidation
  repeat' first
    | with_reducible assumption
    | with_reducible apply KeepsOut.ite
    | with_reducible apply KeepsOut.next
    | with_reducible apply KeepsOut.fault
    | intro _
    | fail_if_no_progress with_reducible apply Keeps.mk_upd

/-! ## Machine/Messages.lean -/

theorem msgErr_keeps {s0 : State} {s : State} {m : Msg} {kind : Nat} {addr : Nat} {write : Bool}  (hK : Keeps s0 s) :
    Keeps s0 (msgErr s m kind addr write) := by
  unfold msgErr
  repeat' first
    | with_reducible assumption
    | with_reducible apply accErr_keeps
    | with_reducible apply Keeps.ite
    | intro _

theorem msgPay_keeps {s0 : State} {s : State} {f : Nat} {k : Nat} {a : Nat} {n : Nat} {write : Bool}  (hK : Keeps s0 s) :
    Keeps s0 (msgPay s f k a n write) := by
  unfold msgPay
  repeat' first
    | with_reducible assumption
    | with_reducible apply regPay_keeps
    | with_reducible apply regCharge_keeps

theorem takeRead_keeps {s0 : State} {s : State} {m : Msg}  (hK : Keeps s0 s) :
    Keeps s0 (takeRead s m) := by
  unfold takeRead
  repeat' first
    | with_reducible assumption
    | with_reducible apply respond_keeps
    | with_reducible apply msgErr_keeps
    | with_reducible apply msgPay_keeps
    | with_reducible apply askStart_keeps
    | with_reducible apply peerReads_keeps
    | with_reducible apply Keeps.ite
    | intro _
    | fail_if_no_progress with_reducible apply Keeps.mk_upd
    | split
    | dsimp only

theorem putMem_keeps {s0 : State} {s : State} {f : Nat} {a : Nat} {tally : Option (Nat × Nat × Nat)} {mask : Byte} {bs : List Byte}  (hK : Keeps s0 s) :
    Keeps s0 (putMem s f a tally mask bs) := by
  unfold putMem
  repeat' first
    | with_reducible assumption
    | with_reducible apply dramWrite_keeps
    | with_reducible apply extWrite_keeps
    | with_reducible apply addTally_keeps
    | with_reducible apply Keeps.ite
    | intro _
    | split

theorem takeWrite_keeps {s0 : State} {s : State} {m : Msg}  (hK : Keeps s0 s) :
    Keeps s0 (takeWrite s m) := by
  unfold takeWrite
  repeat' first
    | with_reducible assumption
    | with_reducible apply regStore_keeps
    | with_reducible apply respond_keeps
    | with_reducible apply msgErr_keeps
    | with_reducible apply putMem_keeps
    | with_reducible apply msgPay_keeps
    | with_reducible apply Keeps.ite
    | intro _
    | split
    | dsimp only

theorem takePut_keeps {s0 : State} {s : State} {m : Msg}  (hK : Keeps s0 s) :
    Keeps s0 (takePut s m) := by
  unfold takePut
  repeat' first
    | with_reducible assumption
    | with_reducible apply respond_keeps
    | with_reducible apply putMem_keeps
    | with_reducible apply msgPay_keeps
    | with_reducible apply Keeps.ite
    | intro _
    | split

theorem takeAtomic_keeps {s0 : State} {s : State} {m : Msg}  (hK : Keeps s0 s) :
    Keeps s0 (takeAtomic s m) := by
  unfold takeAtomic
  repeat' first
    | with_reducible assumption
    | with_reducible apply respond_keeps
    | with_reducible apply msgErr_keeps
    | with_reducible apply askNew_keeps
    | with_reducible apply msgPay_keeps
    | with_reducible apply atomicAt_keeps
    | with_reducible apply Keeps.ite
    | intro _
    | with_reducible refine Keeps.fst (by with_reducible assumption) ?_
    | split
    | dsimp only

theorem takeTally_keeps {s0 : State} {s : State} {m : Msg} {a : Nat}  (hK : Keeps s0 s) :
    Keeps s0 (takeTally s m a) := by
  unfold takeTally
  repeat' first
    | with_reducible assumption
    | with_reducible apply regStore_keeps
    | with_reducible apply msgErr_keeps
    | split

theorem takeMsg_keeps {s0 : State} {s : State} {m : Msg}  (hK : Keeps s0 s) :
    KeepsOut s0 (takeMsg s m) := by
  unfold takeMsg
  repeat' first
    | with_reducible assumption
    | with_reducible apply execRelayDeviceRequest_keeps
    | with_reducible apply takeRead_keeps
    | with_reducible apply takeWrite_keeps
    | with_reducible apply takePut_keeps
    | with_reducible apply takeAtomic_keeps
    | with_reducible apply takeTally_keeps
    | with_reducible apply takeNotice_keeps
    | with_reducible apply KeepsOut.ite
    | with_reducible apply KeepsOut.next
    | intro _
    | split

theorem macMismatch_keeps {s0 : State} {s : State} {l : Nat}  (hK : Keeps s0 s) :
    Keeps s0 (macMismatch s l) := by
  unfold macMismatch
  repeat' first
    | with_reducible assumption
    | with_reducible apply dropLink_keeps
    | with_reducible apply rset_keeps
    | with_reducible apply setLink_keeps
    | with_reducible apply Keeps.ite
    | intro _

theorem countFlits_keeps {s0 : State} {l : Nat} {s : State}  (hK : Keeps s0 s) : Keeps s0 (countFlits l s) := by
  unfold countFlits
  exact rinc_keeps (rinc_keeps (draw_keeps (draw_keeps hK)))

theorem countOut_keeps {s0 : State} {l : Nat} {o : Out State}  (hK : KeepsOut s0 o) : KeepsOut s0 (countOut l o) := by
  refine ⟨fun u e => ?_⟩
  cases o with
  | next t => cases e; exact countFlits_keeps (hK.1 t rfl)
  | fault f => cases e
  | refused r => cases e

theorem execMessageReceive_keeps {s0 : State} {l : Nat} {macOk : Bool} {m : Msg} {s : State}  (hK : Keeps s0 s) :
    KeepsOut s0 (execMessageReceive l macOk m s) := by
  unfold execMessageReceive
  repeat' first
    | with_reducible assumption
    | with_reducible apply onLink_keeps
    | with_reducible apply countOut_keeps
    | with_reducible apply macMismatch_keeps
    | with_reducible apply setLink_keeps
    | with_reducible apply sendFab_keeps
    | with_reducible apply takeMsg_keeps
    | with_reducible apply KeepsOut.ite
    | with_reducible apply KeepsOut.next
    | intro _

/-! ## Machine/Trust.lean -/

theorem dice_keeps {s0 : State} {s : State}  (hK : Keeps s0 s) :
    Keeps s0 (dice s) := by
  unfold dice
  repeat' first
    | with_reducible assumption
    | with_reducible apply Keeps.ite
    | intro _
    | fail_if_no_progress with_reducible apply Keeps.mk_upd
    | split

theorem execSecCommitSvn_keeps {s0 : State} {n : Nat} {s : State}  (hK : Keeps s0 s) :
    KeepsOut s0 (execSecCommitSvn n s) := by
  unfold execSecCommitSvn
  repeat' first
    | with_reducible assumption
    | with_reducible apply svcRow_keeps
    | with_reducible apply lifeAdd_keeps
    | with_reducible apply rfld_keeps
    | with_reducible apply KeepsSvc.ite
    | with_reducible apply KeepsSvc.of_done
    | intro _

theorem execSecRevokeKey_keeps {s0 : State} {n : Nat} {s : State}  (hK : Keeps s0 s) :
    KeepsOut s0 (execSecRevokeKey n s) := by
  unfold execSecRevokeKey
  repeat' first
    | with_reducible assumption
    | with_reducible apply svcRow_keeps
    | with_reducible apply lifeAdd_keeps
    | with_reducible apply rset_keeps
    | with_reducible apply KeepsSvc.ite
    | with_reducible apply KeepsSvc.of_done
    | intro _

theorem newNonce_keeps {s0 : State} {s : State}  (hK : Keeps s0 s) :
    Keeps s0 (newNonce s) := by
  unfold newNonce
  repeat' first
    | with_reducible assumption
    | fail_if_no_progress with_reducible apply Keeps.mk_upd

theorem unlockDebug_keeps {s0 : State} {s : State} {scope : Nat}  (hK : Keeps s0 s) :
    Keeps s0 (unlockDebug s scope) := by
  unfold unlockDebug
  repeat' first
    | with_reducible assumption
    | with_reducible apply poolStat_keeps
    | with_reducible apply prefixStat_keeps
    | with_reducible apply rset_keeps
    | with_reducible apply tdiFail_keeps
    | with_reducible apply dropLink_keeps
    | with_reducible apply lifeAdd_keeps
    | with_reducible apply Keeps.foldl
    | fail_if_no_progress with_reducible apply Keeps.mk_upd

theorem execSecDebugUnlock_keeps {s0 : State} {n : Nat} {s : State} (hK : Keeps s0 s) :
    KeepsOut s0 (execSecDebugUnlock n s) := by
  unfold execSecDebugUnlock
  extract_lets r
  have hr : KeepsOut s0 r := by
    unfold r
    with_reducible refine svcRow_keeps (fun u v hu => ?_) hK
    extract_lets a
    with_reducible refine KeepsSvc.ite (fun _ => KeepsSvc.of_done hu) (fun _ => ?_)
    have hf : Keeps s0 (fwRead u (.service n) a 136).st := fwRead_keeps hu
    generalize fwRead u (.service n) a 136 = g at hf ⊢
    cases g with
    | held t => exact hf
    | bad t st => exact hf
    | ok t bs =>
      have ht : Keeps s0 t := hf
      with_reducible exact KeepsSvc.of_done (Keeps.ite (fun _ => unlockDebug_keeps ht) (fun _ => ht))
  clear_value r
  cases r with
  | next t =>
    have ht : Keeps s0 t := hr.out t rfl
    with_reducible exact KeepsOut.next (Keeps.ite (fun _ => newNonce_keeps ht) (fun _ => ht))
  | fault f => exact KeepsOut.fault
  | refused f => exact KeepsOut.refused

theorem sendMgt_keeps {s0 : State} {s : State} {m : MgtMsg}  (hK : Keeps s0 s) :
    Keeps s0 (sendMgt s m) := by
  unfold sendMgt
  repeat' first
    | with_reducible assumption
    | fail_if_no_progress with_reducible apply Keeps.mk_upd

theorem spdm_keeps {s0 : State} {s : State} {k : State → State} (hk : ∀ u, Keeps s0 u → Keeps s0 (k u)) (hK : Keeps s0 s) :
    KeepsOut s0 (spdm s k) := by
  unfold spdm
  repeat' first
    | with_reducible assumption
    | with_reducible apply hk
    | with_reducible apply Keeps.ite
    | with_reducible apply KeepsOut.next
    | intro _

theorem execSpdmGetCertificate_keeps {s0 : State} {slot : Nat} {s : State}  (hK : Keeps s0 s) :
    KeepsOut s0 (execSpdmGetCertificate slot s) := by
  unfold execSpdmGetCertificate
  repeat' first
    | with_reducible assumption
    | with_reducible apply spdm_keeps
    | with_reducible apply sendMgt_keeps
    | intro _

theorem execSpdmChallenge_keeps {s0 : State} {s : State}  (hK : Keeps s0 s) :
    KeepsOut s0 (execSpdmChallenge s) := by
  unfold execSpdmChallenge
  repeat' first
    | with_reducible assumption
    | with_reducible apply spdm_keeps
    | with_reducible apply sendMgt_keeps
    | intro _

theorem execSpdmGetMeasurements_keeps {s0 : State} {index : Nat} {s : State}  (hK : Keeps s0 s) :
    KeepsOut s0 (execSpdmGetMeasurements index s) := by
  unfold execSpdmGetMeasurements
  repeat' first
    | with_reducible assumption
    | with_reducible apply sendMgt_keeps
    | with_reducible apply spdm_keeps
    | with_reducible apply Keeps.ite
    | with_reducible apply Keeps.foldl
    | intro _

theorem execSpdmKeyExchange_keeps {s0 : State} {s : State}  (hK : Keeps s0 s) :
    KeepsOut s0 (execSpdmKeyExchange s) := by
  unfold execSpdmKeyExchange
  repeat' first
    | with_reducible assumption
    | with_reducible apply spdm_keeps
    | with_reducible apply sendMgt_keeps
    | with_reducible apply Keeps.ite
    | intro _
    | fail_if_no_progress with_reducible apply Keeps.mk_upd

theorem execSpdmHeartbeat_keeps {s0 : State} {id : Nat} {s : State}  (hK : Keeps s0 s) :
    KeepsOut s0 (execSpdmHeartbeat id s) := by
  unfold execSpdmHeartbeat
  repeat' first
    | with_reducible assumption
    | with_reducible apply spdm_keeps
    | with_reducible apply sendMgt_keeps
    | intro _

theorem execSpdmKeyUpdate_keeps {s0 : State} {id : Nat} {s : State}  (hK : Keeps s0 s) :
    KeepsOut s0 (execSpdmKeyUpdate id s) := by
  unfold execSpdmKeyUpdate
  repeat' first
    | with_reducible assumption
    | with_reducible apply spdm_keeps
    | with_reducible apply sendMgt_keeps
    | with_reducible apply Keeps.ite
    | intro _
    | fail_if_no_progress with_reducible apply Keeps.mk_upd

theorem execDoeFlashUpdate_keeps {s0 : State} {images : List ImageCheck} {s : State}  (hK : Keeps s0 s) :
    KeepsOut s0 (execDoeFlashUpdate images s) := by
  unfold execDoeFlashUpdate
  repeat' first
    | with_reducible assumption
    | with_reducible apply sendMgt_keeps
    | with_reducible apply KeepsOut.ite
    | with_reducible apply KeepsOut.next
    | intro _
    | fail_if_no_progress with_reducible refine Keeps.mk_boot ?_ id id

end Sys2Proof.Machine
end

