-- ==== Sys2Proof/Laws/KeepsPower.lean ====
section
/-! SUPPORT. What Laws/Keeps.lean says, for the operations of resets, power, power-up, the scalar unit and SLICE: each keeps it. -/

set_option linter.unusedTactic false
set_option linter.unreachableTactic false
set_option linter.unusedVariables false

set_option Elab.async false

namespace Sys2Proof.Machine

/-! ## Machine/Reset.lean -/

theorem resetCore_keeps {s0 s : State} {warm : Bool} (hK : Keeps s0 s) : Keeps s0 (resetCore s warm) := by
  unfold resetCore
  extract_lets lf r
  have hr : Keeps s0 r :=
    ⟨hK.pending, hK.grade, hK.badCores, hK.fwRanges, hK.log, .inr rfl,
     fun w => ⟨rfl, rfl, rfl, rfl, rfl, rfl, rfl, rfl, rfl, rfl, rfl, rfl, rfl,
       tmap_wf (fun e x _ h => by
         split at h
         · cases h
         · rename_i ht
           cases h
           exact ⟨rfl, fun hx => ht (congrArg Chan.tsvs hx)⟩) (hK.stores w).chans, rfl, rfl, rfl, rfl⟩,
     fun _ => Nat.zero_le 4, hK.rails⟩
  exact Keeps.foldl hr fun u x hu => rset_keeps hu

theorem powerDown_keeps {s0 s : State} (hK : Keeps s0 s) : Keeps s0 (powerDown s) := by
  unfold powerDown
  exact Keeps.mk_boot (resetCore_keeps (pcieDown_keeps hK)) (fun _ => Nat.zero_le 4) id

/-! ## Machine/Power.lean -/

theorem applyKnobs_keeps {s0 : State} {s : State}  (hK : Keeps s0 s) :
    Keeps s0 (applyKnobs s) := by
  unfold applyKnobs
  repeat' first
    | with_reducible assumption
    | with_reducible apply rset_keeps
    | with_reducible apply rfld_keeps
    | with_reducible apply Keeps.foldl
    | intro _

/-- A tick keeps what a command keeps, but for the time. -/
theorem tick_keeps (s : State) : Keeps { s with time := s.time + 1 } (tick s) := by
  unfold tick
  extract_lets s1
  split
  · exact applyKnobs_keeps (endFills_keeps Keeps.rfl)
  · exact Keeps.rfl

theorem thmStatus_keeps {s0 : State} {s : State} {i : Nat} {b : Bool}  (hK : Keeps s0 s) :
    Keeps s0 (thmStatus s i b) := by
  unfold thmStatus
  repeat' first
    | with_reducible assumption
    | with_reducible apply rset_keeps

theorem burstOut_keeps {s0 : State} {s : State}  (hK : Keeps s0 s) :
    Keeps s0 (burstOut s) := by
  unfold burstOut
  repeat' first
    | with_reducible assumption
    | with_reducible apply thmStatus_keeps

theorem brakeOn_keeps {s0 : State} {s : State}  (hK : Keeps s0 s) :
    Keeps s0 (brakeOn s) := by
  unfold brakeOn
  repeat' first
    | with_reducible assumption
    | with_reducible apply thmStatus_keeps
    | with_reducible apply applyKnobs_keeps
    | with_reducible apply lifeAdd_keeps
    | with_reducible apply rinc_keeps
    | with_reducible apply setAlert_keeps
    | with_reducible apply burstOut_keeps
    | fail_if_no_progress with_reducible apply Keeps.mk_upd

theorem execBrakeAssert_keeps {s0 : State} {s : State}  (hK : Keeps s0 s) :
    KeepsOut s0 (execBrakeAssert s) := by
  unfold execBrakeAssert
  repeat' first
    | with_reducible assumption
    | with_reducible apply brakeOn_keeps
    | with_reducible apply Keeps.ite
    | with_reducible apply KeepsOut.next
    | intro _
    | fail_if_no_progress with_reducible apply Keeps.mk_upd

theorem execBrakeRelease_keeps {s0 : State} {s : State}  (hK : Keeps s0 s) :
    KeepsOut s0 (execBrakeRelease s) := by
  unfold execBrakeRelease
  repeat' first
    | with_reducible assumption
    | with_reducible apply applyKnobs_keeps
    | with_reducible apply burstOut_keeps
    | with_reducible apply thmStatus_keeps
    | with_reducible apply Keeps.ite
    | with_reducible apply KeepsOut.next
    | intro _
    | fail_if_no_progress with_reducible apply Keeps.mk_upd

theorem countWatts_keeps {s0 s : State} {watts : Nat} (hK : Keeps s0 s) : Keeps s0 (countWatts s watts) :=
  Keeps.mk_life hK (.of_same rfl rfl rfl)

theorem execPowerSample_keeps {s0 : State} {watts : Nat} {s : State}  (hK : Keeps s0 s) :
    KeepsOut s0 (execPowerSample watts s) := by
  unfold execPowerSample
  repeat' first
    | with_reducible assumption
    | with_reducible apply countWatts_keeps
    | with_reducible apply brakeOn_keeps
    | with_reducible apply burstOut_keeps
    | with_reducible apply rset_keeps
    | with_reducible apply applyKnobs_keeps
    | with_reducible apply Keeps.ite
    | with_reducible apply KeepsOut.ite
    | with_reducible apply KeepsOut.next
    | with_reducible apply KeepsOut.fault
    | intro _
    | fail_if_no_progress with_reducible apply Keeps.mk_upd

theorem execKnobRaise_keeps {s0 : State} {s : State}  (hK : Keeps s0 s) :
    KeepsOut s0 (execKnobRaise s) := by
  unfold execKnobRaise
  repeat' first
    | with_reducible assumption
    | with_reducible apply applyKnobs_keeps
    | with_reducible apply KeepsOut.ite
    | with_reducible apply KeepsOut.next
    | intro _
    | fail_if_no_progress with_reducible apply Keeps.mk_upd

theorem tripOff_keeps {s0 : State} {s : State} {body : Nat} {cause : Nat}  (hK : Keeps s0 s) :
    Keeps s0 (tripOff s body cause) := by
  unfold tripOff
  repeat' first
    | with_reducible assumption
    | with_reducible apply rset_keeps
    | with_reducible apply powerDown_keeps
    | fail_if_no_progress with_reducible refine Keeps.mk_boot ?_ id id

theorem stopChannels_keeps {s0 s : State} (hK : Keeps s0 s) : Keeps s0 (stopChannels s) := by
  unfold stopChannels
  extract_lets s1
  have h1 : Keeps s0 s1 := Keeps.mk_stores hK fun w => { w with launches := optmap_wf w.launches }
  clear_value s1
  refine Keeps.foldl h1 fun u x hu => ?_
  extract_lets ch u1
  have h2 : Keeps s0 u1 := Keeps.ite (fun _ => hu) fun _ => serveHeld_keeps hu
  exact setChan_keeps h2

theorem stopCtx_keeps {s0 : State} {s : State} {c : Nat} {x : Nat}  (hK : Keeps s0 s) :
    Keeps s0 (stopCtx s c x) := by
  unfold stopCtx
  repeat' first
    | with_reducible assumption
    | with_reducible apply endCtx_keeps
    | with_reducible apply endLaunches_keeps
    | with_reducible apply setCtx_keeps
    | with_reducible apply haltMember_keeps
    | with_reducible apply Keeps.ite
    | with_reducible apply Keeps.foldl
    | intro _

theorem beginShutdown_keeps {s0 : State} {s : State} {body : Nat}  (hK : Keeps s0 s) :
    Keeps s0 (beginShutdown s body) := by
  unfold beginShutdown
  repeat' first
    | with_reducible assumption
    | with_reducible apply thmStatus_keeps
    | with_reducible apply stopChannels_keeps
    | with_reducible apply stopCtx_keeps
    | with_reducible apply svcKillAll_keeps
    | with_reducible apply sendNotices_keeps
    | with_reducible apply Keeps.ite
    | with_reducible apply Keeps.foldl
    | intro _
    | fail_if_no_progress with_reducible apply Keeps.mk_upd

theorem summaries_keeps {s0 : State} {s : State}  (hK : Keeps s0 s) :
    Keeps s0 (summaries s) := by
  unfold summaries
  extract_lets t
  have h : Keeps s0 t := Keeps.foldl hK fun _ _ => lifeAdd_keeps
  clear_value t
  exact Keeps.mk_life h (.of_same rfl rfl rfl)

theorem countTemps_keeps {s0 s : State} {ts : List Int} (hK : Keeps s0 s) : Keeps s0 (countTemps s ts) :=
  Keeps.mk_life hK (.of_same rfl rfl rfl)

theorem endShutdown_keeps {s0 : State} {s : State} {body : Nat}  (hK : Keeps s0 s) :
    Keeps s0 (endShutdown s body) := by
  unfold endShutdown
  repeat' first
    | with_reducible assumption
    | with_reducible apply tripOff_keeps
    | with_reducible apply lifeAdd_keeps
    | with_reducible apply summaries_keeps

theorem execShutdownDeadline_keeps {s0 : State} {s : State}  (hK : Keeps s0 s) :
    KeepsOut s0 (execShutdownDeadline s) := by
  unfold execShutdownDeadline
  repeat' first
    | with_reducible assumption
    | with_reducible apply tripOff_keeps
    | with_reducible apply Keeps.ite
    | with_reducible apply KeepsOut.next
    | intro _
    | split

theorem execAnalogTrip_keeps {s0 : State} {body : Nat} {s : State}  (hK : Keeps s0 s) :
    KeepsOut s0 (execAnalogTrip body s) := by
  unfold execAnalogTrip
  repeat' first
    | with_reducible assumption
    | with_reducible apply tripOff_keeps
    | with_reducible apply KeepsOut.ite
    | with_reducible apply KeepsOut.next
    | with_reducible apply KeepsOut.fault
    | intro _

theorem execThermtripRelease_keeps {s0 : State} {temps : List Int} {s : State}  (hK : Keeps s0 s) :
    KeepsOut s0 (execThermtripRelease temps s) := by
  unfold execThermtripRelease
  repeat' first
    | with_reducible assumption
    | with_reducible apply KeepsOut.ite
    | with_reducible apply KeepsOut.next
    | with_reducible apply KeepsOut.fault
    | intro _
    | fail_if_no_progress with_reducible refine Keeps.mk_boot ?_ id id

theorem throttleEntry_keeps {s0 : State} {s : State} {d : Nat}  (hK : Keeps s0 s) :
    Keeps s0 (throttleEntry s d) := by
  unfold throttleEntry
  repeat' first
    | with_reducible assumption
    | with_reducible apply ror_keeps
    | with_reducible apply governLinks_keeps
    | with_reducible apply Keeps.ite
    | intro _
    | fail_if_no_progress with_reducible apply Keeps.mk_upd

theorem bodyNote_keeps {s0 s : State} {d k old new : Nat} (hK : Keeps s0 s) : Keeps s0 (bodyNote s d k old new) := by
  unfold bodyNote
  repeat' first
    | with_reducible assumption
    | with_reducible apply lifeAdd_keeps
    | with_reducible apply Keeps.ite
    | intro _
    | fail_if_no_progress with_reducible apply Keeps.mk_upd

theorem bodyUpdate_keeps {s0 : State} {s : State} {d : Nat} {t : Int} {node : Nat}  (hK : Keeps s0 s) :
    Keeps s0 (bodyUpdate s d t node) := by
  unfold bodyUpdate
  repeat' first
    | with_reducible assumption
    | with_reducible apply rset_keeps
    | with_reducible apply throttleEntry_keeps
    | with_reducible apply governLinks_keeps
    | with_reducible apply bodyNote_keeps
    | with_reducible apply Keeps.ite
    | intro _

theorem statusBits_keeps {s0 : State} {s : State} {ts : List Int}  (hK : Keeps s0 s) :
    Keeps s0 (statusBits s ts) := by
  unfold statusBits
  repeat' first
    | with_reducible assumption
    | with_reducible apply rset_keeps

theorem execThermalUpdate_keeps {s0 : State} {temps : List (Int × Nat)} {rise : List Int} {s : State}  (hK : Keeps s0 s) :
    KeepsOut s0 (execThermalUpdate temps rise s) := by
  unfold execThermalUpdate
  repeat' first
    | with_reducible assumption
    | with_reducible apply countTemps_keeps
    | with_reducible apply bodyUpdate_keeps
    | with_reducible apply statusBits_keeps
    | with_reducible apply rinc_keeps
    | with_reducible apply applyKnobs_keeps
    | with_reducible apply alerting_keeps
    | with_reducible apply tripOff_keeps
    | with_reducible apply beginShutdown_keeps
    | with_reducible apply endShutdown_keeps
    | with_reducible apply Keeps.ite
    | with_reducible apply KeepsOut.ite
    | with_reducible apply KeepsOut.next
    | with_reducible apply KeepsOut.fault
    | with_reducible apply Keeps.foldl
    | intro _
    | split
    | dsimp only

theorem execThermalCalibrate_keeps {s0 : State} {nodes : List (Nat × Int × Int)} {s : State}  (hK : Keeps s0 s) :
    KeepsOut s0 (execThermalCalibrate nodes s) := by
  unfold execThermalCalibrate
  repeat' first
    | with_reducible assumption
    | with_reducible apply setAlert_keeps
    | with_reducible apply KeepsOut.ite
    | with_reducible apply KeepsOut.next
    | with_reducible apply KeepsOut.fault
    | intro _

theorem throttleOne_keeps {s0 : State} {s : State} {d : Nat}  (hK : Keeps s0 s) :
    Keeps s0 (throttleOne s d) := by
  unfold throttleOne
  repeat' first
    | with_reducible assumption
    | fail_if_no_progress with_reducible apply Keeps.mk_upd
    | split

theorem execThrottleStep_keeps {s0 : State} {s : State}  (hK : Keeps s0 s) :
    KeepsOut s0 (execThrottleStep s) := by
  unfold execThrottleStep
  repeat' first
    | with_reducible assumption
    | with_reducible apply throttleOne_keeps
    | with_reducible apply applyKnobs_keeps
    | with_reducible apply KeepsOut.ite
    | with_reducible apply KeepsOut.next
    | with_reducible apply Keeps.foldl
    | intro _
    | fail_if_no_progress with_reducible apply Keeps.mk_upd

theorem sensorEvent_keeps {s0 : State} {s : State} {i : Nat} {id : Nat}  (hK : Keeps s0 s) :
    Keeps s0 (sensorEvent s i id) := by
  unfold sensorEvent
  repeat' first
    | with_reducible assumption
    | with_reducible apply sendMgt_keeps
    | with_reducible apply Keeps.ite
    | intro _
    | fail_if_no_progress with_reducible apply Keeps.mk_upd
    | split
    | dsimp only

theorem execTelemetryRefresh_keeps {s0 : State} {s : State}  (hK : Keeps s0 s) :
    KeepsOut s0 (execTelemetryRefresh s) := by
  unfold execTelemetryRefresh
  repeat' first
    | with_reducible assumption
    | with_reducible apply sensorEvent_keeps
    | with_reducible apply KeepsOut.ite
    | with_reducible apply KeepsOut.next
    | intro _
    | fail_if_no_progress with_reducible apply Keeps.mk_upd

theorem pldm_keeps {s0 : State} {s : State} {m : MgtMsg}  (hK : Keeps s0 s) :
    KeepsOut s0 (pldm s m) := by
  unfold pldm
  repeat' first
    | with_reducible assumption
    | with_reducible apply sendMgt_keeps
    | with_reducible apply Keeps.ite
    | with_reducible apply KeepsOut.next
    | intro _

theorem execPldmGetPdr_keeps {s0 : State} {record : Nat} {s : State}  (hK : Keeps s0 s) :
    KeepsOut s0 (execPldmGetPdr record s) := by
  unfold execPldmGetPdr
  repeat' first
    | with_reducible assumption
    | with_reducible apply pldm_keeps

theorem execPldmGetSensorReading_keeps {s0 : State} {id : Nat} {s : State}  (hK : Keeps s0 s) :
    KeepsOut s0 (execPldmGetSensorReading id s) := by
  unfold execPldmGetSensorReading
  repeat' first
    | with_reducible assumption
    | with_reducible apply pldm_keeps

theorem execPldmGetStateSensorReadings_keeps {s0 : State} {id : Nat} {s : State}  (hK : Keeps s0 s) :
    KeepsOut s0 (execPldmGetStateSensorReadings id s) := by
  unfold execPldmGetStateSensorReadings
  repeat' first
    | with_reducible assumption
    | with_reducible apply pldm_keeps

theorem execPldmSetNumericEffecterValue_keeps {s0 : State} {id : Nat} {value : Nat} {s : State}  (hK : Keeps s0 s) :
    KeepsOut s0 (execPldmSetNumericEffecterValue id value s) := by
  unfold execPldmSetNumericEffecterValue
  repeat' first
    | with_reducible assumption
    | with_reducible apply pldm_keeps
    | with_reducible apply rfld_keeps
    | with_reducible apply KeepsOut.ite
    | intro _

theorem execPldmSetEventReceiver_keeps {s0 : State} {r : Nat} {s : State}  (hK : Keeps s0 s) :
    KeepsOut s0 (execPldmSetEventReceiver r s) := by
  unfold execPldmSetEventReceiver
  repeat' first
    | with_reducible assumption
    | with_reducible apply sendMgt_keeps
    | with_reducible apply KeepsOut.ite
    | with_reducible apply KeepsOut.next
    | intro _
    | fail_if_no_progress with_reducible apply Keeps.mk_upd

theorem execLifeLogSummary_keeps {s0 : State} {s : State}  (hK : Keeps s0 s) :
    KeepsOut s0 (execLifeLogSummary s) := by
  unfold execLifeLogSummary
  repeat' first
    | with_reducible assumption
    | with_reducible apply summaries_keeps
    | with_reducible apply KeepsOut.ite
    | with_reducible apply KeepsOut.next
    | intro _
    | with_reducible refine Keeps.mk_life ?_ (.of_same rfl rfl rfl)

/-! ## Machine/Boot.lean -/

theorem execRefLoss_keeps {s0 : State} {s : State}  (hK : Keeps s0 s) :
    KeepsOut s0 (execRefLoss s) := by
  unfold execRefLoss
  repeat' first
    | with_reducible assumption
    | with_reducible apply rset_keeps
    | with_reducible apply lifeAdd_keeps
    | with_reducible apply setAlert_keeps
    | with_reducible apply KeepsOut.ite
    | with_reducible apply KeepsOut.next
    | intro _

theorem execReferenceToleranceChange_keeps {s0 : State} {alt : Bool} {inTol : Bool} {s : State}  (hK : Keeps s0 s) :
    KeepsOut s0 (execReferenceToleranceChange alt inTol s) := by
  unfold execReferenceToleranceChange
  repeat' first
    | with_reducible assumption
    | with_reducible apply rset_keeps
    | with_reducible apply KeepsOut.ite
    | with_reducible apply KeepsOut.next
    | intro _

theorem remapCores_keeps {s0 : State} {s : State}  (hK : Keeps s0 s) :
    Keeps s0 (remapCores s) := by
  unfold remapCores
  repeat' first
    | with_reducible assumption
    | with_reducible apply lifeAdd_keeps
    | with_reducible apply rset_keeps
    | with_reducible apply Keeps.foldl
    | intro _
    | fail_if_no_progress with_reducible apply Keeps.mk_upd

theorem bootRecord_keeps {s0 : State} {s : State} {cause : Nat}  (hK : Keeps s0 s) :
    Keeps s0 (bootRecord s cause) := by
  unfold bootRecord
  repeat' first
    | with_reducible assumption
    | with_reducible apply lifeAdd_keeps
    | with_reducible apply Keeps.ite
    | intro _
    | fail_if_no_progress with_reducible refine Keeps.mk_boot ?_ id id

theorem bootSteps_keeps {s0 s : State} {strap : Nat} {images : List ImageCheck} (hK : Keeps s0 s) :
    Keeps s0 (bootSteps s strap images) := by
  unfold bootSteps
  extract_lets good cause stage1 b set
  have h1 : ∀ step cause is, Keeps s0 (set 1 step cause is) :=
    fun _ _ _ => Keeps.mk_boot hK (fun _ => Nat.le_of_ble_eq_true rfl) id
  have h2 : ∀ step cause is, Keeps s0 (set 2 step cause is) :=
    fun _ _ _ => Keeps.mk_boot hK (fun _ => Nat.le_of_ble_eq_true rfl) id
  clear_value set
  split
  · exact h2 _ _ _
  · split
    · exact h1 _ _ _
    · split
      · exact dice_keeps (h2 _ _ _)
      · exact startBringup_keeps (dice_keeps (h1 _ _ _))

theorem startBoot_keeps {s0 s : State} {cold : Bool} {cause devid strap : Nat} {refOk altOk : Bool} {images : List ImageCheck}
    (hK : Keeps s0 s) : Keeps s0 (startBoot s cold cause devid strap refOk altOk images) := by
  unfold startBoot
  extract_lets exh cold' s1 b2 s2 b3 s3 l4 s4 fail s5 b6 s6
  have h1 : Keeps s0 s1 := resetCore_keeps (pcieDown_keeps hK)
  clear_value s1
  have h2 : Keeps s0 s2 := Keeps.mk_boot h1 id id
  have h3 : Keeps s0 s3 := rset_keeps h2
  clear_value s3
  have h4 : Keeps s0 s4 := Keeps.mk_life h3 (.of_same rfl rfl rfl)
  clear_value s4
  have hf : ∀ e, Keeps s0 (fail s4 e) := fun e => Keeps.mk_boot h4 (fun _ => Nat.le_of_ble_eq_true rfl) id
  clear_value fail
  have h5 : Keeps s0 s5 := Keeps.ite (fun _ => remapCores_keeps h4) fun _ => h4
  clear_value s5
  have h6 : Keeps s0 s6 := Keeps.ite (fun _ => Keeps.mk_boot h5 id id) fun _ => h5
  clear_value s6
  split
  · exact Keeps.mk_boot h2 id id
  · split
    · exact bootRecord_keeps (hf _)
    · split
      · exact bootRecord_keeps (hf _)
      · exact bootRecord_keeps (bootSteps_keeps h6)

theorem execColdReset_keeps {s0 : State} {devid : Nat} {strap : Nat} {refOk : Bool} {altOk : Bool} {images : List ImageCheck} {s : State}  (hK : Keeps s0 s) :
    KeepsOut s0 (execColdReset devid strap refOk altOk images s) := by
  unfold execColdReset
  repeat' first
    | with_reducible assumption
    | with_reducible apply startBoot_keeps
    | with_reducible apply KeepsOut.ite
    | with_reducible apply KeepsOut.next
    | with_reducible apply KeepsOut.fault
    | intro _
    | fail_if_no_progress with_reducible refine Keeps.mk_boot ?_ id id

theorem execWarmReset_keeps {s0 : State} {hot : Bool} {devid : Nat} {strap : Nat} {refOk : Bool} {altOk : Bool} {images : List ImageCheck} {s : State}  (hK : Keeps s0 s) :
    KeepsOut s0 (execWarmReset hot devid strap refOk altOk images s) := by
  unfold execWarmReset
  repeat' first
    | with_reducible assumption
    | with_reducible apply startBoot_keeps
    | with_reducible apply KeepsOut.ite
    | with_reducible apply KeepsOut.next
    | with_reducible apply KeepsOut.fault
    | intro _

theorem execPwrgdFall_keeps {s0 : State} {s : State}  (hK : Keeps s0 s) :
    KeepsOut s0 (execPwrgdFall s) := by
  unfold execPwrgdFall
  repeat' first
    | with_reducible assumption
    | with_reducible apply powerDown_keeps
    | with_reducible apply KeepsOut.ite
    | with_reducible apply KeepsOut.next
    | intro _
    | fail_if_no_progress with_reducible refine Keeps.mk_boot ?_ id id

theorem execBootReady_keeps {s0 s : State} (hK : Keeps s0 s) : KeepsOut s0 (execBootReady s) := by
  unfold execBootReady
  split
  · exact .next (Keeps.mk_boot hK (fun _ => Nat.le_of_ble_eq_true rfl) id)
  · exact .next hK

theorem seqError_keeps {s0 s : State} {i : Nat} (hK : Keeps s0 s) : Keeps s0 (seqError s i) := by
  unfold seqError
  exact Keeps.mk_boot hK id fun h => lset_length.trans h

theorem execRailSequenceError_keeps {s0 : State} {r : Rail} {s : State}  (hK : Keeps s0 s) :
    KeepsOut s0 (execRailSequenceError r s) := by
  unfold execRailSequenceError
  repeat' first
    | with_reducible assumption
    | with_reducible apply seqError_keeps
    | with_reducible apply KeepsOut.ite
    | with_reducible apply KeepsOut.next
    | intro _

theorem execSupplyRailUp_keeps {s0 : State} {r : Rail} {s : State} (hK : Keeps s0 s) : KeepsOut s0 (execSupplyRailUp r s) := by
  unfold execSupplyRailUp
  extract_lets i
  split
  · exact .next hK
  · split
    · exact .next (seqError_keeps hK)
    · exact .next (Keeps.mk_boot hK id fun h => lset_length.trans h)

theorem execSupplyRailDown_keeps {s0 : State} {r : Rail} {s : State} (hK : Keeps s0 s) :
    KeepsOut s0 (execSupplyRailDown r s) := by
  unfold execSupplyRailDown
  extract_lets i s1 b2 s2 s3
  have h1 : Keeps s0 s1 := powerDown_keeps hK
  clear_value s1
  have h2 : Keeps s0 s2 := Keeps.mk_boot h1 id fun h => lset_length.trans h
  clear_value s2
  have h3 : Keeps s0 s3 := rset_keeps h2
  clear_value s3
  split
  · exact .next hK
  · split
    · exact .next h2
    · exact .next (Keeps.mk_boot h3 id id)

theorem execRcvChunkCopied_keeps {s0 s : State} (hK : Keeps s0 s) : KeepsOut s0 (execRcvChunkCopied s) := by
  unfold execRcvChunkCopied
  split
  · exact .next hK
  · extract_lets lo inside mem
    have hm : twf 0 s.mem = true → twf 0 mem = true := fun w => foldl_tput_wf (tdrop_wf w)
    clear_value mem
    exact .next (Keeps.mk_boot (x := { s with mem := mem, gerrs := tdrop inside s.gerrs })
      (Keeps.mk_stores hK fun w => { w with mem := hm w.mem, gerrs := tdrop_wf w.gerrs }) id id)

theorem execRcvVerify_keeps {s0 : State} {images : List ImageCheck} {s : State} (hK : Keeps s0 s) :
    KeepsOut s0 (execRcvVerify images s) := by
  have h1 : ∀ (b : Boot) step cause is, (b.rails = s.boot.rails) → Keeps s0 { s with boot := { b with state := 1, step := step, cause := cause, images := is } } :=
    fun b _ _ _ e => Keeps.mk_boot hK (fun _ => Nat.le_of_ble_eq_true rfl) fun h => by show b.rails.length = 5; rw [e]; exact h
  have h2 : ∀ (b : Boot) cause is, (b.rails = s.boot.rails) → Keeps s0 { s with boot := { b with state := 2, cause := cause, images := is } } :=
    fun b _ _ e => Keeps.mk_boot hK (fun _ => Nat.le_of_ble_eq_true rfl) fun h => by show b.rails.length = 5; rw [e]; exact h
  unfold execRcvVerify
  dsimp only
  split
  · exact .next hK
  · split
    · exact .next (Keeps.mk_boot hK id id)
    · split
      · exact .next (dice_keeps (h2 { s.boot with rcvCheck := false } _ _ rfl))
      · have ht := dice_keeps (h1 { s.boot with rcvCheck := false } (max 6 s.boot.step) 0 (withStage1 s images) rfl)
        exact .next (Keeps.ite (fun _ => ht) fun _ => startBringup_keeps ht)

theorem execJtagInstruction_keeps {s0 : State} {ir : Nat} {s : State}  (hK : Keeps s0 s) :
    KeepsOut s0 (execJtagInstruction ir s) := by
  unfold execJtagInstruction
  repeat' first
    | with_reducible assumption
    | with_reducible apply KeepsOut.ite
    | with_reducible apply KeepsOut.next
    | intro _
    | fail_if_no_progress with_reducible refine Keeps.mk_boot ?_ id id

theorem execI3cDynamicAddressAssignment_keeps {s0 : State} {addr : Nat} {s : State}  (hK : Keeps s0 s) :
    KeepsOut s0 (execI3cDynamicAddressAssignment addr s) := by
  unfold execI3cDynamicAddressAssignment
  repeat' first
    | with_reducible assumption
    | with_reducible apply sendMgt_keeps
    | with_reducible apply KeepsOut.ite
    | with_reducible apply KeepsOut.next
    | with_reducible apply KeepsOut.fault
    | intro _
    | fail_if_no_progress with_reducible refine Keeps.mk_boot ?_ id id

theorem execRefresh_keeps {s0 : State} {g : Nat} {s : State}  (hK : Keeps s0 s) :
    KeepsOut s0 (execRefresh g s) := by
  unfold execRefresh
  repeat' first
    | with_reducible assumption
    | with_reducible apply KeepsOut.ite
    | with_reducible apply KeepsOut.next
    | with_reducible apply KeepsOut.fault
    | intro _

/-! ## Machine/Scalar.lean -/

theorem xSet_keeps {s0 : State} {s : State} {w : Who} {r : Nat} {v : Word}  (hK : Keeps s0 s) :
    Keeps s0 (xSet s w r v) := by
  unfold xSet
  repeat' first
    | with_reducible assumption
    | with_reducible apply setX_keeps

theorem scRow_keeps {s0 : State} {op : Nat} {bad : Slot → Bool} {ready : State → Slot → Bool} {regs : Cmd → List Nat} {go : Slot → State → State} {c : Nat} {s : State} (hg : ∀ t u, Keeps s0 u → Keeps s0 (go t u)) (hK : Keeps s0 s) :
    KeepsOut s0 (scRow op bad ready regs go c s) := by
  unfold scRow
  repeat' first
    | with_reducible assumption
    | with_reducible apply hg
    | with_reducible apply onCore_keeps
    | with_reducible apply beginAt_keeps
    | with_reducible apply slotVoid_keeps
    | with_reducible apply slotFault_keeps
    | with_reducible apply parityHit_keeps
    | with_reducible apply Keeps.ite
    | with_reducible apply KeepsOut.ite
    | with_reducible apply KeepsOut.next
    | intro _
    | fail_if_no_progress with_reducible apply Keeps.mk_upd
    | split

theorem execScAlu_keeps {s0 : State} {c : Nat} {s : State}  (hK : Keeps s0 s) :
    KeepsOut s0 (execScAlu c s) := by
  unfold execScAlu
  repeat' first
    | with_reducible assumption
    | with_reducible apply scRow_keeps
    | with_reducible apply slotDone_keeps
    | with_reducible apply xSet_keeps
    | intro _

theorem scLoad_keeps {s0 : State} {s : State} {w : Who} {k : Cmd}  (hK : Keeps s0 s) :
    Keeps s0 (scLoad s w k).1 := by
  unfold scLoad
  repeat' first
    | with_reducible assumption
    | with_reducible apply eccTouch_keeps
    | with_reducible apply regPay_keeps
    | with_reducible apply Keeps.ite_fst
    | intro _
    | fail_if_no_progress with_reducible apply Keeps.mk_upd
    | split
    | dsimp only

theorem execScLd_keeps {s0 : State} {c : Nat} {s : State}  (hK : Keeps s0 s) :
    KeepsOut s0 (execScLd c s) := by
  unfold execScLd
  repeat' first
    | with_reducible assumption
    | with_reducible apply scRow_keeps
    | with_reducible apply slotFault_keeps
    | with_reducible apply askRead_keeps
    | with_reducible apply markWait_keeps
    | with_reducible apply onCaps_keeps
    | with_reducible apply scLoad_keeps
    | with_reducible apply dropAsks_keeps
    | with_reducible apply slotDone_keeps
    | with_reducible apply xSet_keeps
    | intro _
    | with_reducible refine Keeps.fst (by with_reducible assumption) ?_
    | split
    | dsimp only

theorem execScSt_keeps {s0 : State} {c : Nat} {s : State}  (hK : Keeps s0 s) :
    KeepsOut s0 (execScSt c s) := by
  unfold execScSt
  repeat' first
    | with_reducible assumption
    | with_reducible apply scRow_keeps
    | with_reducible apply slotDone_keeps
    | with_reducible apply slotFault_keeps
    | with_reducible apply copyPiece_keeps
    | with_reducible apply regPay_keeps
    | with_reducible apply markWait_keeps
    | with_reducible apply regIo_store_keeps
    | with_reducible apply Keeps.ite
    | intro _
    | split
    | dsimp only

theorem blkSkip_keeps {s0 : State} {s : State} {t : Slot}  (hK : Keeps s0 s) :
    Keeps s0 (blkSkip s t) := by
  unfold blkSkip
  repeat' first
    | with_reducible assumption
    | with_reducible apply slotVoid_keeps
    | with_reducible apply setCtx_keeps

theorem execScBlock_keeps {s0 : State} {c : Nat} {s : State}  (hK : Keeps s0 s) :
    KeepsOut s0 (execScBlock c s) := by
  unfold execScBlock
  repeat' first
    | with_reducible assumption
    | with_reducible apply beginOp_keeps
    | with_reducible apply blkSkip_keeps
    | with_reducible apply onCore_keeps
    | with_reducible apply Keeps.ite
    | with_reducible apply KeepsOut.ite
    | with_reducible apply KeepsOut.next
    | intro _
    | split

theorem execScBr_keeps {s0 : State} {c : Nat} {s : State}  (hK : Keeps s0 s) :
    KeepsOut s0 (execScBr c s) := by
  unfold execScBr
  repeat' first
    | with_reducible assumption
    | with_reducible apply scRow_keeps
    | with_reducible apply slotDone_keeps
    | with_reducible apply xSet_keeps
    | with_reducible apply Keeps.ite
    | intro _

theorem execScArw_keeps {s0 : State} {c : Nat} {s : State}  (hK : Keeps s0 s) :
    KeepsOut s0 (execScArw c s) := by
  unfold execScArw
  repeat' first
    | with_reducible assumption
    | with_reducible apply scRow_keeps
    | with_reducible apply setCtx_keeps
    | with_reducible apply slotDone_keeps
    | intro _

theorem execScRdt_keeps {s0 : State} {c : Nat} {s : State}  (hK : Keeps s0 s) :
    KeepsOut s0 (execScRdt c s) := by
  unfold execScRdt
  repeat' first
    | with_reducible assumption
    | with_reducible apply scRow_keeps
    | with_reducible apply slotDone_keeps
    | with_reducible apply xSet_keeps
    | intro _

theorem execScRdtally_keeps {s0 : State} {c : Nat} {s : State}  (hK : Keeps s0 s) :
    KeepsOut s0 (execScRdtally c s) := by
  unfold execScRdtally
  repeat' first
    | with_reducible assumption
    | with_reducible apply scRow_keeps
    | with_reducible apply slotDone_keeps
    | with_reducible apply xSet_keeps
    | with_reducible apply slotFault_keeps
    | with_reducible apply Keeps.ite
    | intro _

theorem execScAmo_keeps {s0 : State} {c : Nat} {s : State}  (hK : Keeps s0 s) :
    KeepsOut s0 (execScAmo c s) := by
  unfold execScAmo
  repeat' first
    | with_reducible assumption
    | with_reducible apply scRow_keeps
    | with_reducible apply slotFault_keeps
    | with_reducible apply queueAtomic_keeps
    | with_reducible apply markWait_keeps
    | with_reducible apply slotDone_keeps
    | with_reducible apply xSet_keeps
    | with_reducible apply regPay_keeps
    | intro _
    | with_reducible refine Keeps.fst (by with_reducible assumption) ?_
    | split
    | dsimp only

/-! ## Machine/VecSlice.lean -/

theorem execSliceSplit_keeps {s0 : State} {c : Nat} {n : Nat} {s : State}  (hK : Keeps s0 s) :
    KeepsOut s0 (execSliceSplit c n s) := by
  unfold execSliceSplit
  repeat' first
    | with_reducible assumption
    | with_reducible apply engineRow_keeps
    | with_reducible apply vecEng_keeps

theorem execSliceCombine_keeps {s0 : State} {c : Nat} {n : Nat} {s : State}  (hK : Keeps s0 s) :
    KeepsOut s0 (execSliceCombine c n s) := by
  unfold execSliceCombine
  repeat' first
    | with_reducible assumption
    | with_reducible apply engineRow_keeps
    | with_reducible apply vecEng_keeps

theorem bflyRep_keeps {s0 : State} {s : State} {w : Who} {k : Cmd} {a3 : Run} (h : Keeps s0 s) :
    Keeps s0 (bflyRep s w k a3).st := by
  unfold bflyRep
  extract_lets n eb size qs inA outA twA t cx r u
  have ht : Keeps s0 t.1 := eccTouch_keeps h
  clear_value t
  have hr : Keeps s0 r.1 := Keeps.foldl_fst ht fun q x hq => writeRows_keeps hq
  have hu : Keeps s0 u := srTake_keeps (raiseNum_keeps hr)
  clear_value u
  split
  · exact h
  · split
    · exact scramble_keeps ht
    · split <;> exact hu

theorem bflyEng_keeps {s0 : State} {u : State} {w : Who} {k : Cmd} {r : Run} (hK : Keeps s0 u) :
    Keeps s0 ((bflyEng).rep u w k r).st := bflyRep_keeps (a3 := r) hK

theorem execBfly4_keeps {s0 : State} {c : Nat} {n : Nat} {s : State}  (hK : Keeps s0 s) :
    KeepsOut s0 (execBfly4 c n s) := by
  unfold execBfly4
  repeat' first
    | with_reducible assumption
    | with_reducible apply engineRow_keeps
    | with_reducible apply bflyEng_keeps

end Sys2Proof.Machine
end

