-- ==== Sys2Proof/Laws/State.lean ====
section
/-! SUPPORT. One lemma per field of State per named update of Machine/, each true by rfl. -/

set_option Elab.async false

namespace Sys2Proof.Machine

variable (s : State)

/-! ### memPut -/

@[simp] theorem memPut_grade (l : Nat) (b : Byte) : (memPut s l b).grade = s.grade := rfl
@[simp] theorem memPut_badCores (l : Nat) (b : Byte) : (memPut s l b).badCores = s.badCores := rfl
@[simp] theorem memPut_fwRanges (l : Nat) (b : Byte) : (memPut s l b).fwRanges = s.fwRanges := rfl
@[simp] theorem memPut_remaps (l : Nat) (b : Byte) : (memPut s l b).remaps = s.remaps := rfl
@[simp] theorem memPut_devid (l : Nat) (b : Byte) : (memPut s l b).devid = s.devid := rfl
@[simp] theorem memPut_time (l : Nat) (b : Byte) : (memPut s l b).time = s.time := rfl
@[simp] theorem memPut_regs (l : Nat) (b : Byte) : (memPut s l b).regs = s.regs := rfl
@[simp] theorem memPut_mem (l : Nat) (b : Byte) : (memPut s l b).mem = tput 0 s.mem l (b ^^^ lostMask s l) := rfl
@[simp] theorem memPut_errs (l : Nat) (b : Byte) : (memPut s l b).errs = s.errs := rfl
@[simp] theorem memPut_gerrs (l : Nat) (b : Byte) : (memPut s l b).gerrs = s.gerrs := rfl
@[simp] theorem memPut_flags (l : Nat) (b : Byte) : (memPut s l b).flags = s.flags := rfl
@[simp] theorem memPut_tallies (l : Nat) (b : Byte) : (memPut s l b).tallies = s.tallies := rfl
@[simp] theorem memPut_acc (l : Nat) (b : Byte) : (memPut s l b).acc = s.acc := rfl
@[simp] theorem memPut_accTy (l : Nat) (b : Byte) : (memPut s l b).accTy = s.accTy := rfl
@[simp] theorem memPut_parAcc (l : Nat) (b : Byte) : (memPut s l b).parAcc = s.parAcc := rfl
@[simp] theorem memPut_parX (l : Nat) (b : Byte) : (memPut s l b).parX = s.parX := rfl
@[simp] theorem memPut_parNbu (l : Nat) (b : Byte) : (memPut s l b).parNbu = s.parNbu := rfl
@[simp] theorem memPut_encBad (l : Nat) (b : Byte) : (memPut s l b).encBad = s.encBad := rfl
@[simp] theorem memPut_ctxs (l : Nat) (b : Byte) : (memPut s l b).ctxs = s.ctxs := rfl
@[simp] theorem memPut_ars (l : Nat) (b : Byte) : (memPut s l b).ars = s.ars := rfl
@[simp] theorem memPut_xs (l : Nat) (b : Byte) : (memPut s l b).xs = s.xs := rfl
@[simp] theorem memPut_cores (l : Nat) (b : Byte) : (memPut s l b).cores = s.cores := rfl
@[simp] theorem memPut_rings (l : Nat) (b : Byte) : (memPut s l b).rings = s.rings := rfl
@[simp] theorem memPut_chans (l : Nat) (b : Byte) : (memPut s l b).chans = s.chans := rfl
@[simp] theorem memPut_nbus (l : Nat) (b : Byte) : (memPut s l b).nbus = s.nbus := rfl
@[simp] theorem memPut_launches (l : Nat) (b : Byte) : (memPut s l b).launches = s.launches := rfl
@[simp] theorem memPut_nextLaunch (l : Nat) (b : Byte) : (memPut s l b).nextLaunch = s.nextLaunch := rfl
@[simp] theorem memPut_seq (l : Nat) (b : Byte) : (memPut s l b).seq = s.seq := rfl
@[simp] theorem memPut_stks (l : Nat) (b : Byte) : (memPut s l b).stks = s.stks := rfl
@[simp] theorem memPut_boot (l : Nat) (b : Byte) : (memPut s l b).boot = s.boot := rfl
@[simp] theorem memPut_srv (l : Nat) (b : Byte) : (memPut s l b).srv = s.srv := rfl
@[simp] theorem memPut_keys (l : Nat) (b : Byte) : (memPut s l b).keys = s.keys := rfl
@[simp] theorem memPut_crk (l : Nat) (b : Byte) : (memPut s l b).crk = s.crk := rfl
@[simp] theorem memPut_ecc (l : Nat) (b : Byte) : (memPut s l b).ecc = s.ecc := rfl
@[simp] theorem memPut_hif (l : Nat) (b : Byte) : (memPut s l b).hif = s.hif := rfl
@[simp] theorem memPut_folds (l : Nat) (b : Byte) : (memPut s l b).folds = s.folds := rfl
@[simp] theorem memPut_fab (l : Nat) (b : Byte) : (memPut s l b).fab = s.fab := rfl
@[simp] theorem memPut_trust (l : Nat) (b : Byte) : (memPut s l b).trust = s.trust := rfl
@[simp] theorem memPut_power (l : Nat) (b : Byte) : (memPut s l b).power = s.power := rfl
@[simp] theorem memPut_life (l : Nat) (b : Byte) : (memPut s l b).life = s.life := rfl
@[simp] theorem memPut_msix (l : Nat) (b : Byte) : (memPut s l b).msix = s.msix := rfl
@[simp] theorem memPut_mgtOut (l : Nat) (b : Byte) : (memPut s l b).mgtOut = s.mgtOut := rfl
@[simp] theorem memPut_hostAns (l : Nat) (b : Byte) : (memPut s l b).hostAns = s.hostAns := rfl
@[simp] theorem memPut_hostOut (l : Nat) (b : Byte) : (memPut s l b).hostOut = s.hostOut := rfl
@[simp] theorem memPut_fabOut (l : Nat) (b : Byte) : (memPut s l b).fabOut = s.fabOut := rfl
@[simp] theorem memPut_puts (l : Nat) (b : Byte) : (memPut s l b).puts = s.puts := rfl
@[simp] theorem memPut_asks (l : Nat) (b : Byte) : (memPut s l b).asks = s.asks := rfl
@[simp] theorem memPut_nextAsk (l : Nat) (b : Byte) : (memPut s l b).nextAsk = s.nextAsk := rfl
@[simp] theorem memPut_free (l : Nat) (b : Byte) : (memPut s l b).free = s.free := rfl
@[simp] theorem memPut_epoch (l : Nat) (b : Byte) : (memPut s l b).epoch = s.epoch := rfl
@[simp] theorem memPut_lost (l : Nat) (b : Byte) : (memPut s l b).lost = s.lost := rfl
@[simp] theorem memPut_pending (l : Nat) (b : Byte) : (memPut s l b).pending = s.pending := rfl

/-! ### rset -/

@[simp] theorem rset_grade (a : Nat) (v : Word) : (rset s a v).grade = s.grade := rfl
@[simp] theorem rset_badCores (a : Nat) (v : Word) : (rset s a v).badCores = s.badCores := rfl
@[simp] theorem rset_fwRanges (a : Nat) (v : Word) : (rset s a v).fwRanges = s.fwRanges := rfl
@[simp] theorem rset_remaps (a : Nat) (v : Word) : (rset s a v).remaps = s.remaps := rfl
@[simp] theorem rset_devid (a : Nat) (v : Word) : (rset s a v).devid = s.devid := rfl
@[simp] theorem rset_time (a : Nat) (v : Word) : (rset s a v).time = s.time := rfl
@[simp] theorem rset_regs (a : Nat) (v : Word) : (rset s a v).regs = tput (regReset s.grade a) s.regs a v := rfl
@[simp] theorem rset_mem (a : Nat) (v : Word) : (rset s a v).mem = s.mem := rfl
@[simp] theorem rset_errs (a : Nat) (v : Word) : (rset s a v).errs = s.errs := rfl
@[simp] theorem rset_gerrs (a : Nat) (v : Word) : (rset s a v).gerrs = s.gerrs := rfl
@[simp] theorem rset_flags (a : Nat) (v : Word) : (rset s a v).flags = s.flags := rfl
@[simp] theorem rset_tallies (a : Nat) (v : Word) : (rset s a v).tallies = s.tallies := rfl
@[simp] theorem rset_acc (a : Nat) (v : Word) : (rset s a v).acc = s.acc := rfl
@[simp] theorem rset_accTy (a : Nat) (v : Word) : (rset s a v).accTy = s.accTy := rfl
@[simp] theorem rset_parAcc (a : Nat) (v : Word) : (rset s a v).parAcc = s.parAcc := rfl
@[simp] theorem rset_parX (a : Nat) (v : Word) : (rset s a v).parX = s.parX := rfl
@[simp] theorem rset_parNbu (a : Nat) (v : Word) : (rset s a v).parNbu = s.parNbu := rfl
@[simp] theorem rset_encBad (a : Nat) (v : Word) : (rset s a v).encBad = s.encBad := rfl
@[simp] theorem rset_ctxs (a : Nat) (v : Word) : (rset s a v).ctxs = s.ctxs := rfl
@[simp] theorem rset_ars (a : Nat) (v : Word) : (rset s a v).ars = s.ars := rfl
@[simp] theorem rset_xs (a : Nat) (v : Word) : (rset s a v).xs = s.xs := rfl
@[simp] theorem rset_cores (a : Nat) (v : Word) : (rset s a v).cores = s.cores := rfl
@[simp] theorem rset_rings (a : Nat) (v : Word) : (rset s a v).rings = s.rings := rfl
@[simp] theorem rset_chans (a : Nat) (v : Word) : (rset s a v).chans = s.chans := rfl
@[simp] theorem rset_nbus (a : Nat) (v : Word) : (rset s a v).nbus = s.nbus := rfl
@[simp] theorem rset_launches (a : Nat) (v : Word) : (rset s a v).launches = s.launches := rfl
@[simp] theorem rset_nextLaunch (a : Nat) (v : Word) : (rset s a v).nextLaunch = s.nextLaunch := rfl
@[simp] theorem rset_seq (a : Nat) (v : Word) : (rset s a v).seq = s.seq := rfl
@[simp] theorem rset_stks (a : Nat) (v : Word) : (rset s a v).stks = s.stks := rfl
@[simp] theorem rset_boot (a : Nat) (v : Word) : (rset s a v).boot = s.boot := rfl
@[simp] theorem rset_srv (a : Nat) (v : Word) : (rset s a v).srv = s.srv := rfl
@[simp] theorem rset_keys (a : Nat) (v : Word) : (rset s a v).keys = s.keys := rfl
@[simp] theorem rset_crk (a : Nat) (v : Word) : (rset s a v).crk = s.crk := rfl
@[simp] theorem rset_ecc (a : Nat) (v : Word) : (rset s a v).ecc = s.ecc := rfl
@[simp] theorem rset_hif (a : Nat) (v : Word) : (rset s a v).hif = s.hif := rfl
@[simp] theorem rset_folds (a : Nat) (v : Word) : (rset s a v).folds = s.folds := rfl
@[simp] theorem rset_fab (a : Nat) (v : Word) : (rset s a v).fab = s.fab := rfl
@[simp] theorem rset_trust (a : Nat) (v : Word) : (rset s a v).trust = s.trust := rfl
@[simp] theorem rset_power (a : Nat) (v : Word) : (rset s a v).power = s.power := rfl
@[simp] theorem rset_life (a : Nat) (v : Word) : (rset s a v).life = s.life := rfl
@[simp] theorem rset_msix (a : Nat) (v : Word) : (rset s a v).msix = s.msix := rfl
@[simp] theorem rset_mgtOut (a : Nat) (v : Word) : (rset s a v).mgtOut = s.mgtOut := rfl
@[simp] theorem rset_hostAns (a : Nat) (v : Word) : (rset s a v).hostAns = s.hostAns := rfl
@[simp] theorem rset_hostOut (a : Nat) (v : Word) : (rset s a v).hostOut = s.hostOut := rfl
@[simp] theorem rset_fabOut (a : Nat) (v : Word) : (rset s a v).fabOut = s.fabOut := rfl
@[simp] theorem rset_puts (a : Nat) (v : Word) : (rset s a v).puts = s.puts := rfl
@[simp] theorem rset_asks (a : Nat) (v : Word) : (rset s a v).asks = s.asks := rfl
@[simp] theorem rset_nextAsk (a : Nat) (v : Word) : (rset s a v).nextAsk = s.nextAsk := rfl
@[simp] theorem rset_free (a : Nat) (v : Word) : (rset s a v).free = s.free := rfl
@[simp] theorem rset_epoch (a : Nat) (v : Word) : (rset s a v).epoch = s.epoch := rfl
@[simp] theorem rset_lost (a : Nat) (v : Word) : (rset s a v).lost = s.lost := rfl
@[simp] theorem rset_pending (a : Nat) (v : Word) : (rset s a v).pending = s.pending := rfl

/-! ### setCore -/

@[simp] theorem setCore_grade (c : Nat) (v : CoreSt) : (setCore s c v).grade = s.grade := rfl
@[simp] theorem setCore_badCores (c : Nat) (v : CoreSt) : (setCore s c v).badCores = s.badCores := rfl
@[simp] theorem setCore_fwRanges (c : Nat) (v : CoreSt) : (setCore s c v).fwRanges = s.fwRanges := rfl
@[simp] theorem setCore_remaps (c : Nat) (v : CoreSt) : (setCore s c v).remaps = s.remaps := rfl
@[simp] theorem setCore_devid (c : Nat) (v : CoreSt) : (setCore s c v).devid = s.devid := rfl
@[simp] theorem setCore_time (c : Nat) (v : CoreSt) : (setCore s c v).time = s.time := rfl
@[simp] theorem setCore_regs (c : Nat) (v : CoreSt) : (setCore s c v).regs = s.regs := rfl
@[simp] theorem setCore_mem (c : Nat) (v : CoreSt) : (setCore s c v).mem = s.mem := rfl
@[simp] theorem setCore_errs (c : Nat) (v : CoreSt) : (setCore s c v).errs = s.errs := rfl
@[simp] theorem setCore_gerrs (c : Nat) (v : CoreSt) : (setCore s c v).gerrs = s.gerrs := rfl
@[simp] theorem setCore_flags (c : Nat) (v : CoreSt) : (setCore s c v).flags = s.flags := rfl
@[simp] theorem setCore_tallies (c : Nat) (v : CoreSt) : (setCore s c v).tallies = s.tallies := rfl
@[simp] theorem setCore_acc (c : Nat) (v : CoreSt) : (setCore s c v).acc = s.acc := rfl
@[simp] theorem setCore_accTy (c : Nat) (v : CoreSt) : (setCore s c v).accTy = s.accTy := rfl
@[simp] theorem setCore_parAcc (c : Nat) (v : CoreSt) : (setCore s c v).parAcc = s.parAcc := rfl
@[simp] theorem setCore_parX (c : Nat) (v : CoreSt) : (setCore s c v).parX = s.parX := rfl
@[simp] theorem setCore_parNbu (c : Nat) (v : CoreSt) : (setCore s c v).parNbu = s.parNbu := rfl
@[simp] theorem setCore_encBad (c : Nat) (v : CoreSt) : (setCore s c v).encBad = s.encBad := rfl
@[simp] theorem setCore_ctxs (c : Nat) (v : CoreSt) : (setCore s c v).ctxs = s.ctxs := rfl
@[simp] theorem setCore_ars (c : Nat) (v : CoreSt) : (setCore s c v).ars = s.ars := rfl
@[simp] theorem setCore_xs (c : Nat) (v : CoreSt) : (setCore s c v).xs = s.xs := rfl
@[simp] theorem setCore_cores (c : Nat) (v : CoreSt) : (setCore s c v).cores = tput {} s.cores c v := rfl
@[simp] theorem setCore_rings (c : Nat) (v : CoreSt) : (setCore s c v).rings = s.rings := rfl
@[simp] theorem setCore_chans (c : Nat) (v : CoreSt) : (setCore s c v).chans = s.chans := rfl
@[simp] theorem setCore_nbus (c : Nat) (v : CoreSt) : (setCore s c v).nbus = s.nbus := rfl
@[simp] theorem setCore_launches (c : Nat) (v : CoreSt) : (setCore s c v).launches = s.launches := rfl
@[simp] theorem setCore_nextLaunch (c : Nat) (v : CoreSt) : (setCore s c v).nextLaunch = s.nextLaunch := rfl
@[simp] theorem setCore_seq (c : Nat) (v : CoreSt) : (setCore s c v).seq = s.seq := rfl
@[simp] theorem setCore_stks (c : Nat) (v : CoreSt) : (setCore s c v).stks = s.stks := rfl
@[simp] theorem setCore_boot (c : Nat) (v : CoreSt) : (setCore s c v).boot = s.boot := rfl
@[simp] theorem setCore_srv (c : Nat) (v : CoreSt) : (setCore s c v).srv = s.srv := rfl
@[simp] theorem setCore_keys (c : Nat) (v : CoreSt) : (setCore s c v).keys = s.keys := rfl
@[simp] theorem setCore_crk (c : Nat) (v : CoreSt) : (setCore s c v).crk = s.crk := rfl
@[simp] theorem setCore_ecc (c : Nat) (v : CoreSt) : (setCore s c v).ecc = s.ecc := rfl
@[simp] theorem setCore_hif (c : Nat) (v : CoreSt) : (setCore s c v).hif = s.hif := rfl
@[simp] theorem setCore_folds (c : Nat) (v : CoreSt) : (setCore s c v).folds = s.folds := rfl
@[simp] theorem setCore_fab (c : Nat) (v : CoreSt) : (setCore s c v).fab = s.fab := rfl
@[simp] theorem setCore_trust (c : Nat) (v : CoreSt) : (setCore s c v).trust = s.trust := rfl
@[simp] theorem setCore_power (c : Nat) (v : CoreSt) : (setCore s c v).power = s.power := rfl
@[simp] theorem setCore_life (c : Nat) (v : CoreSt) : (setCore s c v).life = s.life := rfl
@[simp] theorem setCore_msix (c : Nat) (v : CoreSt) : (setCore s c v).msix = s.msix := rfl
@[simp] theorem setCore_mgtOut (c : Nat) (v : CoreSt) : (setCore s c v).mgtOut = s.mgtOut := rfl
@[simp] theorem setCore_hostAns (c : Nat) (v : CoreSt) : (setCore s c v).hostAns = s.hostAns := rfl
@[simp] theorem setCore_hostOut (c : Nat) (v : CoreSt) : (setCore s c v).hostOut = s.hostOut := rfl
@[simp] theorem setCore_fabOut (c : Nat) (v : CoreSt) : (setCore s c v).fabOut = s.fabOut := rfl
@[simp] theorem setCore_puts (c : Nat) (v : CoreSt) : (setCore s c v).puts = s.puts := rfl
@[simp] theorem setCore_asks (c : Nat) (v : CoreSt) : (setCore s c v).asks = s.asks := rfl
@[simp] theorem setCore_nextAsk (c : Nat) (v : CoreSt) : (setCore s c v).nextAsk = s.nextAsk := rfl
@[simp] theorem setCore_free (c : Nat) (v : CoreSt) : (setCore s c v).free = s.free := rfl
@[simp] theorem setCore_epoch (c : Nat) (v : CoreSt) : (setCore s c v).epoch = s.epoch := rfl
@[simp] theorem setCore_lost (c : Nat) (v : CoreSt) : (setCore s c v).lost = s.lost := rfl
@[simp] theorem setCore_pending (c : Nat) (v : CoreSt) : (setCore s c v).pending = s.pending := rfl

/-! ### setChan -/

@[simp] theorem setChan_grade (g : Nat) (v : Chan) : (setChan s g v).grade = s.grade := rfl
@[simp] theorem setChan_badCores (g : Nat) (v : Chan) : (setChan s g v).badCores = s.badCores := rfl
@[simp] theorem setChan_fwRanges (g : Nat) (v : Chan) : (setChan s g v).fwRanges = s.fwRanges := rfl
@[simp] theorem setChan_remaps (g : Nat) (v : Chan) : (setChan s g v).remaps = s.remaps := rfl
@[simp] theorem setChan_devid (g : Nat) (v : Chan) : (setChan s g v).devid = s.devid := rfl
@[simp] theorem setChan_time (g : Nat) (v : Chan) : (setChan s g v).time = s.time := rfl
@[simp] theorem setChan_regs (g : Nat) (v : Chan) : (setChan s g v).regs = s.regs := rfl
@[simp] theorem setChan_mem (g : Nat) (v : Chan) : (setChan s g v).mem = s.mem := rfl
@[simp] theorem setChan_errs (g : Nat) (v : Chan) : (setChan s g v).errs = s.errs := rfl
@[simp] theorem setChan_gerrs (g : Nat) (v : Chan) : (setChan s g v).gerrs = s.gerrs := rfl
@[simp] theorem setChan_flags (g : Nat) (v : Chan) : (setChan s g v).flags = s.flags := rfl
@[simp] theorem setChan_tallies (g : Nat) (v : Chan) : (setChan s g v).tallies = s.tallies := rfl
@[simp] theorem setChan_acc (g : Nat) (v : Chan) : (setChan s g v).acc = s.acc := rfl
@[simp] theorem setChan_accTy (g : Nat) (v : Chan) : (setChan s g v).accTy = s.accTy := rfl
@[simp] theorem setChan_parAcc (g : Nat) (v : Chan) : (setChan s g v).parAcc = s.parAcc := rfl
@[simp] theorem setChan_parX (g : Nat) (v : Chan) : (setChan s g v).parX = s.parX := rfl
@[simp] theorem setChan_parNbu (g : Nat) (v : Chan) : (setChan s g v).parNbu = s.parNbu := rfl
@[simp] theorem setChan_encBad (g : Nat) (v : Chan) : (setChan s g v).encBad = s.encBad := rfl
@[simp] theorem setChan_ctxs (g : Nat) (v : Chan) : (setChan s g v).ctxs = s.ctxs := rfl
@[simp] theorem setChan_ars (g : Nat) (v : Chan) : (setChan s g v).ars = s.ars := rfl
@[simp] theorem setChan_xs (g : Nat) (v : Chan) : (setChan s g v).xs = s.xs := rfl
@[simp] theorem setChan_cores (g : Nat) (v : Chan) : (setChan s g v).cores = s.cores := rfl
@[simp] theorem setChan_rings (g : Nat) (v : Chan) : (setChan s g v).rings = s.rings := rfl
@[simp] theorem setChan_chans (g : Nat) (v : Chan) : (setChan s g v).chans = tput {} s.chans g v := rfl
@[simp] theorem setChan_nbus (g : Nat) (v : Chan) : (setChan s g v).nbus = s.nbus := rfl
@[simp] theorem setChan_launches (g : Nat) (v : Chan) : (setChan s g v).launches = s.launches := rfl
@[simp] theorem setChan_nextLaunch (g : Nat) (v : Chan) : (setChan s g v).nextLaunch = s.nextLaunch := rfl
@[simp] theorem setChan_seq (g : Nat) (v : Chan) : (setChan s g v).seq = s.seq := rfl
@[simp] theorem setChan_stks (g : Nat) (v : Chan) : (setChan s g v).stks = s.stks := rfl
@[simp] theorem setChan_boot (g : Nat) (v : Chan) : (setChan s g v).boot = s.boot := rfl
@[simp] theorem setChan_srv (g : Nat) (v : Chan) : (setChan s g v).srv = s.srv := rfl
@[simp] theorem setChan_keys (g : Nat) (v : Chan) : (setChan s g v).keys = s.keys := rfl
@[simp] theorem setChan_crk (g : Nat) (v : Chan) : (setChan s g v).crk = s.crk := rfl
@[simp] theorem setChan_ecc (g : Nat) (v : Chan) : (setChan s g v).ecc = s.ecc := rfl
@[simp] theorem setChan_hif (g : Nat) (v : Chan) : (setChan s g v).hif = s.hif := rfl
@[simp] theorem setChan_folds (g : Nat) (v : Chan) : (setChan s g v).folds = s.folds := rfl
@[simp] theorem setChan_fab (g : Nat) (v : Chan) : (setChan s g v).fab = s.fab := rfl
@[simp] theorem setChan_trust (g : Nat) (v : Chan) : (setChan s g v).trust = s.trust := rfl
@[simp] theorem setChan_power (g : Nat) (v : Chan) : (setChan s g v).power = s.power := rfl
@[simp] theorem setChan_life (g : Nat) (v : Chan) : (setChan s g v).life = s.life := rfl
@[simp] theorem setChan_msix (g : Nat) (v : Chan) : (setChan s g v).msix = s.msix := rfl
@[simp] theorem setChan_mgtOut (g : Nat) (v : Chan) : (setChan s g v).mgtOut = s.mgtOut := rfl
@[simp] theorem setChan_hostAns (g : Nat) (v : Chan) : (setChan s g v).hostAns = s.hostAns := rfl
@[simp] theorem setChan_hostOut (g : Nat) (v : Chan) : (setChan s g v).hostOut = s.hostOut := rfl
@[simp] theorem setChan_fabOut (g : Nat) (v : Chan) : (setChan s g v).fabOut = s.fabOut := rfl
@[simp] theorem setChan_puts (g : Nat) (v : Chan) : (setChan s g v).puts = s.puts := rfl
@[simp] theorem setChan_asks (g : Nat) (v : Chan) : (setChan s g v).asks = s.asks := rfl
@[simp] theorem setChan_nextAsk (g : Nat) (v : Chan) : (setChan s g v).nextAsk = s.nextAsk := rfl
@[simp] theorem setChan_free (g : Nat) (v : Chan) : (setChan s g v).free = s.free := rfl
@[simp] theorem setChan_epoch (g : Nat) (v : Chan) : (setChan s g v).epoch = s.epoch := rfl
@[simp] theorem setChan_lost (g : Nat) (v : Chan) : (setChan s g v).lost = s.lost := rfl
@[simp] theorem setChan_pending (g : Nat) (v : Chan) : (setChan s g v).pending = s.pending := rfl

/-! ### setRing -/

@[simp] theorem setRing_grade (n : Nat) (v : RingSt) : (setRing s n v).grade = s.grade := rfl
@[simp] theorem setRing_badCores (n : Nat) (v : RingSt) : (setRing s n v).badCores = s.badCores := rfl
@[simp] theorem setRing_fwRanges (n : Nat) (v : RingSt) : (setRing s n v).fwRanges = s.fwRanges := rfl
@[simp] theorem setRing_remaps (n : Nat) (v : RingSt) : (setRing s n v).remaps = s.remaps := rfl
@[simp] theorem setRing_devid (n : Nat) (v : RingSt) : (setRing s n v).devid = s.devid := rfl
@[simp] theorem setRing_time (n : Nat) (v : RingSt) : (setRing s n v).time = s.time := rfl
@[simp] theorem setRing_regs (n : Nat) (v : RingSt) : (setRing s n v).regs = s.regs := rfl
@[simp] theorem setRing_mem (n : Nat) (v : RingSt) : (setRing s n v).mem = s.mem := rfl
@[simp] theorem setRing_errs (n : Nat) (v : RingSt) : (setRing s n v).errs = s.errs := rfl
@[simp] theorem setRing_gerrs (n : Nat) (v : RingSt) : (setRing s n v).gerrs = s.gerrs := rfl
@[simp] theorem setRing_flags (n : Nat) (v : RingSt) : (setRing s n v).flags = s.flags := rfl
@[simp] theorem setRing_tallies (n : Nat) (v : RingSt) : (setRing s n v).tallies = s.tallies := rfl
@[simp] theorem setRing_acc (n : Nat) (v : RingSt) : (setRing s n v).acc = s.acc := rfl
@[simp] theorem setRing_accTy (n : Nat) (v : RingSt) : (setRing s n v).accTy = s.accTy := rfl
@[simp] theorem setRing_parAcc (n : Nat) (v : RingSt) : (setRing s n v).parAcc = s.parAcc := rfl
@[simp] theorem setRing_parX (n : Nat) (v : RingSt) : (setRing s n v).parX = s.parX := rfl
@[simp] theorem setRing_parNbu (n : Nat) (v : RingSt) : (setRing s n v).parNbu = s.parNbu := rfl
@[simp] theorem setRing_encBad (n : Nat) (v : RingSt) : (setRing s n v).encBad = s.encBad := rfl
@[simp] theorem setRing_ctxs (n : Nat) (v : RingSt) : (setRing s n v).ctxs = s.ctxs := rfl
@[simp] theorem setRing_ars (n : Nat) (v : RingSt) : (setRing s n v).ars = s.ars := rfl
@[simp] theorem setRing_xs (n : Nat) (v : RingSt) : (setRing s n v).xs = s.xs := rfl
@[simp] theorem setRing_cores (n : Nat) (v : RingSt) : (setRing s n v).cores = s.cores := rfl
@[simp] theorem setRing_rings (n : Nat) (v : RingSt) : (setRing s n v).rings = tput {} s.rings n v := rfl
@[simp] theorem setRing_chans (n : Nat) (v : RingSt) : (setRing s n v).chans = s.chans := rfl
@[simp] theorem setRing_nbus (n : Nat) (v : RingSt) : (setRing s n v).nbus = s.nbus := rfl
@[simp] theorem setRing_launches (n : Nat) (v : RingSt) : (setRing s n v).launches = s.launches := rfl
@[simp] theorem setRing_nextLaunch (n : Nat) (v : RingSt) : (setRing s n v).nextLaunch = s.nextLaunch := rfl
@[simp] theorem setRing_seq (n : Nat) (v : RingSt) : (setRing s n v).seq = s.seq := rfl
@[simp] theorem setRing_stks (n : Nat) (v : RingSt) : (setRing s n v).stks = s.stks := rfl
@[simp] theorem setRing_boot (n : Nat) (v : RingSt) : (setRing s n v).boot = s.boot := rfl
@[simp] theorem setRing_srv (n : Nat) (v : RingSt) : (setRing s n v).srv = s.srv := rfl
@[simp] theorem setRing_keys (n : Nat) (v : RingSt) : (setRing s n v).keys = s.keys := rfl
@[simp] theorem setRing_crk (n : Nat) (v : RingSt) : (setRing s n v).crk = s.crk := rfl
@[simp] theorem setRing_ecc (n : Nat) (v : RingSt) : (setRing s n v).ecc = s.ecc := rfl
@[simp] theorem setRing_hif (n : Nat) (v : RingSt) : (setRing s n v).hif = s.hif := rfl
@[simp] theorem setRing_folds (n : Nat) (v : RingSt) : (setRing s n v).folds = s.folds := rfl
@[simp] theorem setRing_fab (n : Nat) (v : RingSt) : (setRing s n v).fab = s.fab := rfl
@[simp] theorem setRing_trust (n : Nat) (v : RingSt) : (setRing s n v).trust = s.trust := rfl
@[simp] theorem setRing_power (n : Nat) (v : RingSt) : (setRing s n v).power = s.power := rfl
@[simp] theorem setRing_life (n : Nat) (v : RingSt) : (setRing s n v).life = s.life := rfl
@[simp] theorem setRing_msix (n : Nat) (v : RingSt) : (setRing s n v).msix = s.msix := rfl
@[simp] theorem setRing_mgtOut (n : Nat) (v : RingSt) : (setRing s n v).mgtOut = s.mgtOut := rfl
@[simp] theorem setRing_hostAns (n : Nat) (v : RingSt) : (setRing s n v).hostAns = s.hostAns := rfl
@[simp] theorem setRing_hostOut (n : Nat) (v : RingSt) : (setRing s n v).hostOut = s.hostOut := rfl
@[simp] theorem setRing_fabOut (n : Nat) (v : RingSt) : (setRing s n v).fabOut = s.fabOut := rfl
@[simp] theorem setRing_puts (n : Nat) (v : RingSt) : (setRing s n v).puts = s.puts := rfl
@[simp] theorem setRing_asks (n : Nat) (v : RingSt) : (setRing s n v).asks = s.asks := rfl
@[simp] theorem setRing_nextAsk (n : Nat) (v : RingSt) : (setRing s n v).nextAsk = s.nextAsk := rfl
@[simp] theorem setRing_free (n : Nat) (v : RingSt) : (setRing s n v).free = s.free := rfl
@[simp] theorem setRing_epoch (n : Nat) (v : RingSt) : (setRing s n v).epoch = s.epoch := rfl
@[simp] theorem setRing_lost (n : Nat) (v : RingSt) : (setRing s n v).lost = s.lost := rfl
@[simp] theorem setRing_pending (n : Nat) (v : RingSt) : (setRing s n v).pending = s.pending := rfl

/-! ### setCtx -/

@[simp] theorem setCtx_grade (c q x : Nat) (v : QCtx) : (setCtx s c q x v).grade = s.grade := rfl
@[simp] theorem setCtx_badCores (c q x : Nat) (v : QCtx) : (setCtx s c q x v).badCores = s.badCores := rfl
@[simp] theorem setCtx_fwRanges (c q x : Nat) (v : QCtx) : (setCtx s c q x v).fwRanges = s.fwRanges := rfl
@[simp] theorem setCtx_remaps (c q x : Nat) (v : QCtx) : (setCtx s c q x v).remaps = s.remaps := rfl
@[simp] theorem setCtx_devid (c q x : Nat) (v : QCtx) : (setCtx s c q x v).devid = s.devid := rfl
@[simp] theorem setCtx_time (c q x : Nat) (v : QCtx) : (setCtx s c q x v).time = s.time := rfl
@[simp] theorem setCtx_regs (c q x : Nat) (v : QCtx) : (setCtx s c q x v).regs = s.regs := rfl
@[simp] theorem setCtx_mem (c q x : Nat) (v : QCtx) : (setCtx s c q x v).mem = s.mem := rfl
@[simp] theorem setCtx_errs (c q x : Nat) (v : QCtx) : (setCtx s c q x v).errs = s.errs := rfl
@[simp] theorem setCtx_gerrs (c q x : Nat) (v : QCtx) : (setCtx s c q x v).gerrs = s.gerrs := rfl
@[simp] theorem setCtx_flags (c q x : Nat) (v : QCtx) : (setCtx s c q x v).flags = s.flags := rfl
@[simp] theorem setCtx_tallies (c q x : Nat) (v : QCtx) : (setCtx s c q x v).tallies = s.tallies := rfl
@[simp] theorem setCtx_acc (c q x : Nat) (v : QCtx) : (setCtx s c q x v).acc = s.acc := rfl
@[simp] theorem setCtx_accTy (c q x : Nat) (v : QCtx) : (setCtx s c q x v).accTy = s.accTy := rfl
@[simp] theorem setCtx_parAcc (c q x : Nat) (v : QCtx) : (setCtx s c q x v).parAcc = s.parAcc := rfl
@[simp] theorem setCtx_parX (c q x : Nat) (v : QCtx) : (setCtx s c q x v).parX = s.parX := rfl
@[simp] theorem setCtx_parNbu (c q x : Nat) (v : QCtx) : (setCtx s c q x v).parNbu = s.parNbu := rfl
@[simp] theorem setCtx_encBad (c q x : Nat) (v : QCtx) : (setCtx s c q x v).encBad = s.encBad := rfl
@[simp] theorem setCtx_ctxs (c q x : Nat) (v : QCtx) : (setCtx s c q x v).ctxs = tput {} s.ctxs (ctxKey c q x) v := rfl
@[simp] theorem setCtx_ars (c q x : Nat) (v : QCtx) : (setCtx s c q x v).ars = s.ars := rfl
@[simp] theorem setCtx_xs (c q x : Nat) (v : QCtx) : (setCtx s c q x v).xs = s.xs := rfl
@[simp] theorem setCtx_cores (c q x : Nat) (v : QCtx) : (setCtx s c q x v).cores = s.cores := rfl
@[simp] theorem setCtx_rings (c q x : Nat) (v : QCtx) : (setCtx s c q x v).rings = s.rings := rfl
@[simp] theorem setCtx_chans (c q x : Nat) (v : QCtx) : (setCtx s c q x v).chans = s.chans := rfl
@[simp] theorem setCtx_nbus (c q x : Nat) (v : QCtx) : (setCtx s c q x v).nbus = s.nbus := rfl
@[simp] theorem setCtx_launches (c q x : Nat) (v : QCtx) : (setCtx s c q x v).launches = s.launches := rfl
@[simp] theorem setCtx_nextLaunch (c q x : Nat) (v : QCtx) : (setCtx s c q x v).nextLaunch = s.nextLaunch := rfl
@[simp] theorem setCtx_seq (c q x : Nat) (v : QCtx) : (setCtx s c q x v).seq = s.seq := rfl
@[simp] theorem setCtx_stks (c q x : Nat) (v : QCtx) : (setCtx s c q x v).stks = s.stks := rfl
@[simp] theorem setCtx_boot (c q x : Nat) (v : QCtx) : (setCtx s c q x v).boot = s.boot := rfl
@[simp] theorem setCtx_srv (c q x : Nat) (v : QCtx) : (setCtx s c q x v).srv = s.srv := rfl
@[simp] theorem setCtx_keys (c q x : Nat) (v : QCtx) : (setCtx s c q x v).keys = s.keys := rfl
@[simp] theorem setCtx_crk (c q x : Nat) (v : QCtx) : (setCtx s c q x v).crk = s.crk := rfl
@[simp] theorem setCtx_ecc (c q x : Nat) (v : QCtx) : (setCtx s c q x v).ecc = s.ecc := rfl
@[simp] theorem setCtx_hif (c q x : Nat) (v : QCtx) : (setCtx s c q x v).hif = s.hif := rfl
@[simp] theorem setCtx_folds (c q x : Nat) (v : QCtx) : (setCtx s c q x v).folds = s.folds := rfl
@[simp] theorem setCtx_fab (c q x : Nat) (v : QCtx) : (setCtx s c q x v).fab = s.fab := rfl
@[simp] theorem setCtx_trust (c q x : Nat) (v : QCtx) : (setCtx s c q x v).trust = s.trust := rfl
@[simp] theorem setCtx_power (c q x : Nat) (v : QCtx) : (setCtx s c q x v).power = s.power := rfl
@[simp] theorem setCtx_life (c q x : Nat) (v : QCtx) : (setCtx s c q x v).life = s.life := rfl
@[simp] theorem setCtx_msix (c q x : Nat) (v : QCtx) : (setCtx s c q x v).msix = s.msix := rfl
@[simp] theorem setCtx_mgtOut (c q x : Nat) (v : QCtx) : (setCtx s c q x v).mgtOut = s.mgtOut := rfl
@[simp] theorem setCtx_hostAns (c q x : Nat) (v : QCtx) : (setCtx s c q x v).hostAns = s.hostAns := rfl
@[simp] theorem setCtx_hostOut (c q x : Nat) (v : QCtx) : (setCtx s c q x v).hostOut = s.hostOut := rfl
@[simp] theorem setCtx_fabOut (c q x : Nat) (v : QCtx) : (setCtx s c q x v).fabOut = s.fabOut := rfl
@[simp] theorem setCtx_puts (c q x : Nat) (v : QCtx) : (setCtx s c q x v).puts = s.puts := rfl
@[simp] theorem setCtx_asks (c q x : Nat) (v : QCtx) : (setCtx s c q x v).asks = s.asks := rfl
@[simp] theorem setCtx_nextAsk (c q x : Nat) (v : QCtx) : (setCtx s c q x v).nextAsk = s.nextAsk := rfl
@[simp] theorem setCtx_free (c q x : Nat) (v : QCtx) : (setCtx s c q x v).free = s.free := rfl
@[simp] theorem setCtx_epoch (c q x : Nat) (v : QCtx) : (setCtx s c q x v).epoch = s.epoch := rfl
@[simp] theorem setCtx_lost (c q x : Nat) (v : QCtx) : (setCtx s c q x v).lost = s.lost := rfl
@[simp] theorem setCtx_pending (c q x : Nat) (v : QCtx) : (setCtx s c q x v).pending = s.pending := rfl

/-! ### setAr -/

@[simp] theorem setAr_grade (c q x r : Nat) (v : AReg) : (setAr s c q x r v).grade = s.grade := rfl
@[simp] theorem setAr_badCores (c q x r : Nat) (v : AReg) : (setAr s c q x r v).badCores = s.badCores := rfl
@[simp] theorem setAr_fwRanges (c q x r : Nat) (v : AReg) : (setAr s c q x r v).fwRanges = s.fwRanges := rfl
@[simp] theorem setAr_remaps (c q x r : Nat) (v : AReg) : (setAr s c q x r v).remaps = s.remaps := rfl
@[simp] theorem setAr_devid (c q x r : Nat) (v : AReg) : (setAr s c q x r v).devid = s.devid := rfl
@[simp] theorem setAr_time (c q x r : Nat) (v : AReg) : (setAr s c q x r v).time = s.time := rfl
@[simp] theorem setAr_regs (c q x r : Nat) (v : AReg) : (setAr s c q x r v).regs = s.regs := rfl
@[simp] theorem setAr_mem (c q x r : Nat) (v : AReg) : (setAr s c q x r v).mem = s.mem := rfl
@[simp] theorem setAr_errs (c q x r : Nat) (v : AReg) : (setAr s c q x r v).errs = s.errs := rfl
@[simp] theorem setAr_gerrs (c q x r : Nat) (v : AReg) : (setAr s c q x r v).gerrs = s.gerrs := rfl
@[simp] theorem setAr_flags (c q x r : Nat) (v : AReg) : (setAr s c q x r v).flags = s.flags := rfl
@[simp] theorem setAr_tallies (c q x r : Nat) (v : AReg) : (setAr s c q x r v).tallies = s.tallies := rfl
@[simp] theorem setAr_acc (c q x r : Nat) (v : AReg) : (setAr s c q x r v).acc = s.acc := rfl
@[simp] theorem setAr_accTy (c q x r : Nat) (v : AReg) : (setAr s c q x r v).accTy = s.accTy := rfl
@[simp] theorem setAr_parAcc (c q x r : Nat) (v : AReg) : (setAr s c q x r v).parAcc = s.parAcc := rfl
@[simp] theorem setAr_parX (c q x r : Nat) (v : AReg) : (setAr s c q x r v).parX = s.parX := rfl
@[simp] theorem setAr_parNbu (c q x r : Nat) (v : AReg) : (setAr s c q x r v).parNbu = s.parNbu := rfl
@[simp] theorem setAr_encBad (c q x r : Nat) (v : AReg) : (setAr s c q x r v).encBad = s.encBad := rfl
@[simp] theorem setAr_ctxs (c q x r : Nat) (v : AReg) : (setAr s c q x r v).ctxs = s.ctxs := rfl
@[simp] theorem setAr_ars (c q x r : Nat) (v : AReg) : (setAr s c q x r v).ars = tput {} s.ars (ctxKey c q x * 16 + r) v := rfl
@[simp] theorem setAr_xs (c q x r : Nat) (v : AReg) : (setAr s c q x r v).xs = s.xs := rfl
@[simp] theorem setAr_cores (c q x r : Nat) (v : AReg) : (setAr s c q x r v).cores = s.cores := rfl
@[simp] theorem setAr_rings (c q x r : Nat) (v : AReg) : (setAr s c q x r v).rings = s.rings := rfl
@[simp] theorem setAr_chans (c q x r : Nat) (v : AReg) : (setAr s c q x r v).chans = s.chans := rfl
@[simp] theorem setAr_nbus (c q x r : Nat) (v : AReg) : (setAr s c q x r v).nbus = s.nbus := rfl
@[simp] theorem setAr_launches (c q x r : Nat) (v : AReg) : (setAr s c q x r v).launches = s.launches := rfl
@[simp] theorem setAr_nextLaunch (c q x r : Nat) (v : AReg) : (setAr s c q x r v).nextLaunch = s.nextLaunch := rfl
@[simp] theorem setAr_seq (c q x r : Nat) (v : AReg) : (setAr s c q x r v).seq = s.seq := rfl
@[simp] theorem setAr_stks (c q x r : Nat) (v : AReg) : (setAr s c q x r v).stks = s.stks := rfl
@[simp] theorem setAr_boot (c q x r : Nat) (v : AReg) : (setAr s c q x r v).boot = s.boot := rfl
@[simp] theorem setAr_srv (c q x r : Nat) (v : AReg) : (setAr s c q x r v).srv = s.srv := rfl
@[simp] theorem setAr_keys (c q x r : Nat) (v : AReg) : (setAr s c q x r v).keys = s.keys := rfl
@[simp] theorem setAr_crk (c q x r : Nat) (v : AReg) : (setAr s c q x r v).crk = s.crk := rfl
@[simp] theorem setAr_ecc (c q x r : Nat) (v : AReg) : (setAr s c q x r v).ecc = s.ecc := rfl
@[simp] theorem setAr_hif (c q x r : Nat) (v : AReg) : (setAr s c q x r v).hif = s.hif := rfl
@[simp] theorem setAr_folds (c q x r : Nat) (v : AReg) : (setAr s c q x r v).folds = s.folds := rfl
@[simp] theorem setAr_fab (c q x r : Nat) (v : AReg) : (setAr s c q x r v).fab = s.fab := rfl
@[simp] theorem setAr_trust (c q x r : Nat) (v : AReg) : (setAr s c q x r v).trust = s.trust := rfl
@[simp] theorem setAr_power (c q x r : Nat) (v : AReg) : (setAr s c q x r v).power = s.power := rfl
@[simp] theorem setAr_life (c q x r : Nat) (v : AReg) : (setAr s c q x r v).life = s.life := rfl
@[simp] theorem setAr_msix (c q x r : Nat) (v : AReg) : (setAr s c q x r v).msix = s.msix := rfl
@[simp] theorem setAr_mgtOut (c q x r : Nat) (v : AReg) : (setAr s c q x r v).mgtOut = s.mgtOut := rfl
@[simp] theorem setAr_hostAns (c q x r : Nat) (v : AReg) : (setAr s c q x r v).hostAns = s.hostAns := rfl
@[simp] theorem setAr_hostOut (c q x r : Nat) (v : AReg) : (setAr s c q x r v).hostOut = s.hostOut := rfl
@[simp] theorem setAr_fabOut (c q x r : Nat) (v : AReg) : (setAr s c q x r v).fabOut = s.fabOut := rfl
@[simp] theorem setAr_puts (c q x r : Nat) (v : AReg) : (setAr s c q x r v).puts = s.puts := rfl
@[simp] theorem setAr_asks (c q x r : Nat) (v : AReg) : (setAr s c q x r v).asks = s.asks := rfl
@[simp] theorem setAr_nextAsk (c q x r : Nat) (v : AReg) : (setAr s c q x r v).nextAsk = s.nextAsk := rfl
@[simp] theorem setAr_free (c q x r : Nat) (v : AReg) : (setAr s c q x r v).free = s.free := rfl
@[simp] theorem setAr_epoch (c q x r : Nat) (v : AReg) : (setAr s c q x r v).epoch = s.epoch := rfl
@[simp] theorem setAr_lost (c q x r : Nat) (v : AReg) : (setAr s c q x r v).lost = s.lost := rfl
@[simp] theorem setAr_pending (c q x r : Nat) (v : AReg) : (setAr s c q x r v).pending = s.pending := rfl

/-! ### setX -/

@[simp] theorem setX_grade (c x r : Nat) (v : Word) : (setX s c x r v).grade = s.grade := rfl
@[simp] theorem setX_badCores (c x r : Nat) (v : Word) : (setX s c x r v).badCores = s.badCores := rfl
@[simp] theorem setX_fwRanges (c x r : Nat) (v : Word) : (setX s c x r v).fwRanges = s.fwRanges := rfl
@[simp] theorem setX_remaps (c x r : Nat) (v : Word) : (setX s c x r v).remaps = s.remaps := rfl
@[simp] theorem setX_devid (c x r : Nat) (v : Word) : (setX s c x r v).devid = s.devid := rfl
@[simp] theorem setX_time (c x r : Nat) (v : Word) : (setX s c x r v).time = s.time := rfl
@[simp] theorem setX_regs (c x r : Nat) (v : Word) : (setX s c x r v).regs = s.regs := rfl
@[simp] theorem setX_mem (c x r : Nat) (v : Word) : (setX s c x r v).mem = s.mem := rfl
@[simp] theorem setX_errs (c x r : Nat) (v : Word) : (setX s c x r v).errs = s.errs := rfl
@[simp] theorem setX_gerrs (c x r : Nat) (v : Word) : (setX s c x r v).gerrs = s.gerrs := rfl
@[simp] theorem setX_flags (c x r : Nat) (v : Word) : (setX s c x r v).flags = s.flags := rfl
@[simp] theorem setX_tallies (c x r : Nat) (v : Word) : (setX s c x r v).tallies = s.tallies := rfl
@[simp] theorem setX_acc (c x r : Nat) (v : Word) : (setX s c x r v).acc = s.acc := rfl
@[simp] theorem setX_accTy (c x r : Nat) (v : Word) : (setX s c x r v).accTy = s.accTy := rfl
@[simp] theorem setX_parAcc (c x r : Nat) (v : Word) : (setX s c x r v).parAcc = s.parAcc := rfl
@[simp] theorem setX_parX (c x r : Nat) (v : Word) : (setX s c x r v).parX = s.parX := rfl
@[simp] theorem setX_parNbu (c x r : Nat) (v : Word) : (setX s c x r v).parNbu = s.parNbu := rfl
@[simp] theorem setX_encBad (c x r : Nat) (v : Word) : (setX s c x r v).encBad = s.encBad := rfl
@[simp] theorem setX_ctxs (c x r : Nat) (v : Word) : (setX s c x r v).ctxs = s.ctxs := rfl
@[simp] theorem setX_ars (c x r : Nat) (v : Word) : (setX s c x r v).ars = s.ars := rfl
@[simp] theorem setX_xs (c x r : Nat) (v : Word) : (setX s c x r v).xs = tput 0 s.xs ((c * 8 + x) * 32 + r) v := rfl
@[simp] theorem setX_cores (c x r : Nat) (v : Word) : (setX s c x r v).cores = s.cores := rfl
@[simp] theorem setX_rings (c x r : Nat) (v : Word) : (setX s c x r v).rings = s.rings := rfl
@[simp] theorem setX_chans (c x r : Nat) (v : Word) : (setX s c x r v).chans = s.chans := rfl
@[simp] theorem setX_nbus (c x r : Nat) (v : Word) : (setX s c x r v).nbus = s.nbus := rfl
@[simp] theorem setX_launches (c x r : Nat) (v : Word) : (setX s c x r v).launches = s.launches := rfl
@[simp] theorem setX_nextLaunch (c x r : Nat) (v : Word) : (setX s c x r v).nextLaunch = s.nextLaunch := rfl
@[simp] theorem setX_seq (c x r : Nat) (v : Word) : (setX s c x r v).seq = s.seq := rfl
@[simp] theorem setX_stks (c x r : Nat) (v : Word) : (setX s c x r v).stks = s.stks := rfl
@[simp] theorem setX_boot (c x r : Nat) (v : Word) : (setX s c x r v).boot = s.boot := rfl
@[simp] theorem setX_srv (c x r : Nat) (v : Word) : (setX s c x r v).srv = s.srv := rfl
@[simp] theorem setX_keys (c x r : Nat) (v : Word) : (setX s c x r v).keys = s.keys := rfl
@[simp] theorem setX_crk (c x r : Nat) (v : Word) : (setX s c x r v).crk = s.crk := rfl
@[simp] theorem setX_ecc (c x r : Nat) (v : Word) : (setX s c x r v).ecc = s.ecc := rfl
@[simp] theorem setX_hif (c x r : Nat) (v : Word) : (setX s c x r v).hif = s.hif := rfl
@[simp] theorem setX_folds (c x r : Nat) (v : Word) : (setX s c x r v).folds = s.folds := rfl
@[simp] theorem setX_fab (c x r : Nat) (v : Word) : (setX s c x r v).fab = s.fab := rfl
@[simp] theorem setX_trust (c x r : Nat) (v : Word) : (setX s c x r v).trust = s.trust := rfl
@[simp] theorem setX_power (c x r : Nat) (v : Word) : (setX s c x r v).power = s.power := rfl
@[simp] theorem setX_life (c x r : Nat) (v : Word) : (setX s c x r v).life = s.life := rfl
@[simp] theorem setX_msix (c x r : Nat) (v : Word) : (setX s c x r v).msix = s.msix := rfl
@[simp] theorem setX_mgtOut (c x r : Nat) (v : Word) : (setX s c x r v).mgtOut = s.mgtOut := rfl
@[simp] theorem setX_hostAns (c x r : Nat) (v : Word) : (setX s c x r v).hostAns = s.hostAns := rfl
@[simp] theorem setX_hostOut (c x r : Nat) (v : Word) : (setX s c x r v).hostOut = s.hostOut := rfl
@[simp] theorem setX_fabOut (c x r : Nat) (v : Word) : (setX s c x r v).fabOut = s.fabOut := rfl
@[simp] theorem setX_puts (c x r : Nat) (v : Word) : (setX s c x r v).puts = s.puts := rfl
@[simp] theorem setX_asks (c x r : Nat) (v : Word) : (setX s c x r v).asks = s.asks := rfl
@[simp] theorem setX_nextAsk (c x r : Nat) (v : Word) : (setX s c x r v).nextAsk = s.nextAsk := rfl
@[simp] theorem setX_free (c x r : Nat) (v : Word) : (setX s c x r v).free = s.free := rfl
@[simp] theorem setX_epoch (c x r : Nat) (v : Word) : (setX s c x r v).epoch = s.epoch := rfl
@[simp] theorem setX_lost (c x r : Nat) (v : Word) : (setX s c x r v).lost = s.lost := rfl
@[simp] theorem setX_pending (c x r : Nat) (v : Word) : (setX s c x r v).pending = s.pending := rfl

/-! ### setFlag -/

@[simp] theorem setFlag_grade (c f : Nat) (v : BitVec 16) : (setFlag s c f v).grade = s.grade := rfl
@[simp] theorem setFlag_badCores (c f : Nat) (v : BitVec 16) : (setFlag s c f v).badCores = s.badCores := rfl
@[simp] theorem setFlag_fwRanges (c f : Nat) (v : BitVec 16) : (setFlag s c f v).fwRanges = s.fwRanges := rfl
@[simp] theorem setFlag_remaps (c f : Nat) (v : BitVec 16) : (setFlag s c f v).remaps = s.remaps := rfl
@[simp] theorem setFlag_devid (c f : Nat) (v : BitVec 16) : (setFlag s c f v).devid = s.devid := rfl
@[simp] theorem setFlag_time (c f : Nat) (v : BitVec 16) : (setFlag s c f v).time = s.time := rfl
@[simp] theorem setFlag_regs (c f : Nat) (v : BitVec 16) : (setFlag s c f v).regs = s.regs := rfl
@[simp] theorem setFlag_mem (c f : Nat) (v : BitVec 16) : (setFlag s c f v).mem = s.mem := rfl
@[simp] theorem setFlag_errs (c f : Nat) (v : BitVec 16) : (setFlag s c f v).errs = s.errs := rfl
@[simp] theorem setFlag_gerrs (c f : Nat) (v : BitVec 16) : (setFlag s c f v).gerrs = s.gerrs := rfl
@[simp] theorem setFlag_flags (c f : Nat) (v : BitVec 16) : (setFlag s c f v).flags = tput 0 s.flags (c * 256 + f) v := rfl
@[simp] theorem setFlag_tallies (c f : Nat) (v : BitVec 16) : (setFlag s c f v).tallies = s.tallies := rfl
@[simp] theorem setFlag_acc (c f : Nat) (v : BitVec 16) : (setFlag s c f v).acc = s.acc := rfl
@[simp] theorem setFlag_accTy (c f : Nat) (v : BitVec 16) : (setFlag s c f v).accTy = s.accTy := rfl
@[simp] theorem setFlag_parAcc (c f : Nat) (v : BitVec 16) : (setFlag s c f v).parAcc = s.parAcc := rfl
@[simp] theorem setFlag_parX (c f : Nat) (v : BitVec 16) : (setFlag s c f v).parX = s.parX := rfl
@[simp] theorem setFlag_parNbu (c f : Nat) (v : BitVec 16) : (setFlag s c f v).parNbu = s.parNbu := rfl
@[simp] theorem setFlag_encBad (c f : Nat) (v : BitVec 16) : (setFlag s c f v).encBad = s.encBad := rfl
@[simp] theorem setFlag_ctxs (c f : Nat) (v : BitVec 16) : (setFlag s c f v).ctxs = s.ctxs := rfl
@[simp] theorem setFlag_ars (c f : Nat) (v : BitVec 16) : (setFlag s c f v).ars = s.ars := rfl
@[simp] theorem setFlag_xs (c f : Nat) (v : BitVec 16) : (setFlag s c f v).xs = s.xs := rfl
@[simp] theorem setFlag_cores (c f : Nat) (v : BitVec 16) : (setFlag s c f v).cores = s.cores := rfl
@[simp] theorem setFlag_rings (c f : Nat) (v : BitVec 16) : (setFlag s c f v).rings = s.rings := rfl
@[simp] theorem setFlag_chans (c f : Nat) (v : BitVec 16) : (setFlag s c f v).chans = s.chans := rfl
@[simp] theorem setFlag_nbus (c f : Nat) (v : BitVec 16) : (setFlag s c f v).nbus = s.nbus := rfl
@[simp] theorem setFlag_launches (c f : Nat) (v : BitVec 16) : (setFlag s c f v).launches = s.launches := rfl
@[simp] theorem setFlag_nextLaunch (c f : Nat) (v : BitVec 16) : (setFlag s c f v).nextLaunch = s.nextLaunch := rfl
@[simp] theorem setFlag_seq (c f : Nat) (v : BitVec 16) : (setFlag s c f v).seq = s.seq := rfl
@[simp] theorem setFlag_stks (c f : Nat) (v : BitVec 16) : (setFlag s c f v).stks = s.stks := rfl
@[simp] theorem setFlag_boot (c f : Nat) (v : BitVec 16) : (setFlag s c f v).boot = s.boot := rfl
@[simp] theorem setFlag_srv (c f : Nat) (v : BitVec 16) : (setFlag s c f v).srv = s.srv := rfl
@[simp] theorem setFlag_keys (c f : Nat) (v : BitVec 16) : (setFlag s c f v).keys = s.keys := rfl
@[simp] theorem setFlag_crk (c f : Nat) (v : BitVec 16) : (setFlag s c f v).crk = s.crk := rfl
@[simp] theorem setFlag_ecc (c f : Nat) (v : BitVec 16) : (setFlag s c f v).ecc = s.ecc := rfl
@[simp] theorem setFlag_hif (c f : Nat) (v : BitVec 16) : (setFlag s c f v).hif = s.hif := rfl
@[simp] theorem setFlag_folds (c f : Nat) (v : BitVec 16) : (setFlag s c f v).folds = s.folds := rfl
@[simp] theorem setFlag_fab (c f : Nat) (v : BitVec 16) : (setFlag s c f v).fab = s.fab := rfl
@[simp] theorem setFlag_trust (c f : Nat) (v : BitVec 16) : (setFlag s c f v).trust = s.trust := rfl
@[simp] theorem setFlag_power (c f : Nat) (v : BitVec 16) : (setFlag s c f v).power = s.power := rfl
@[simp] theorem setFlag_life (c f : Nat) (v : BitVec 16) : (setFlag s c f v).life = s.life := rfl
@[simp] theorem setFlag_msix (c f : Nat) (v : BitVec 16) : (setFlag s c f v).msix = s.msix := rfl
@[simp] theorem setFlag_mgtOut (c f : Nat) (v : BitVec 16) : (setFlag s c f v).mgtOut = s.mgtOut := rfl
@[simp] theorem setFlag_hostAns (c f : Nat) (v : BitVec 16) : (setFlag s c f v).hostAns = s.hostAns := rfl
@[simp] theorem setFlag_hostOut (c f : Nat) (v : BitVec 16) : (setFlag s c f v).hostOut = s.hostOut := rfl
@[simp] theorem setFlag_fabOut (c f : Nat) (v : BitVec 16) : (setFlag s c f v).fabOut = s.fabOut := rfl
@[simp] theorem setFlag_puts (c f : Nat) (v : BitVec 16) : (setFlag s c f v).puts = s.puts := rfl
@[simp] theorem setFlag_asks (c f : Nat) (v : BitVec 16) : (setFlag s c f v).asks = s.asks := rfl
@[simp] theorem setFlag_nextAsk (c f : Nat) (v : BitVec 16) : (setFlag s c f v).nextAsk = s.nextAsk := rfl
@[simp] theorem setFlag_free (c f : Nat) (v : BitVec 16) : (setFlag s c f v).free = s.free := rfl
@[simp] theorem setFlag_epoch (c f : Nat) (v : BitVec 16) : (setFlag s c f v).epoch = s.epoch := rfl
@[simp] theorem setFlag_lost (c f : Nat) (v : BitVec 16) : (setFlag s c f v).lost = s.lost := rfl
@[simp] theorem setFlag_pending (c f : Nat) (v : BitVec 16) : (setFlag s c f v).pending = s.pending := rfl

/-! ### setTally -/

@[simp] theorem setTally_grade (u n : Nat) (v : BitVec 48) : (setTally s u n v).grade = s.grade := rfl
@[simp] theorem setTally_badCores (u n : Nat) (v : BitVec 48) : (setTally s u n v).badCores = s.badCores := rfl
@[simp] theorem setTally_fwRanges (u n : Nat) (v : BitVec 48) : (setTally s u n v).fwRanges = s.fwRanges := rfl
@[simp] theorem setTally_remaps (u n : Nat) (v : BitVec 48) : (setTally s u n v).remaps = s.remaps := rfl
@[simp] theorem setTally_devid (u n : Nat) (v : BitVec 48) : (setTally s u n v).devid = s.devid := rfl
@[simp] theorem setTally_time (u n : Nat) (v : BitVec 48) : (setTally s u n v).time = s.time := rfl
@[simp] theorem setTally_regs (u n : Nat) (v : BitVec 48) : (setTally s u n v).regs = s.regs := rfl
@[simp] theorem setTally_mem (u n : Nat) (v : BitVec 48) : (setTally s u n v).mem = s.mem := rfl
@[simp] theorem setTally_errs (u n : Nat) (v : BitVec 48) : (setTally s u n v).errs = s.errs := rfl
@[simp] theorem setTally_gerrs (u n : Nat) (v : BitVec 48) : (setTally s u n v).gerrs = s.gerrs := rfl
@[simp] theorem setTally_flags (u n : Nat) (v : BitVec 48) : (setTally s u n v).flags = s.flags := rfl
@[simp] theorem setTally_tallies (u n : Nat) (v : BitVec 48) : (setTally s u n v).tallies = tput 0 s.tallies (u * 64 + n) v := rfl
@[simp] theorem setTally_acc (u n : Nat) (v : BitVec 48) : (setTally s u n v).acc = s.acc := rfl
@[simp] theorem setTally_accTy (u n : Nat) (v : BitVec 48) : (setTally s u n v).accTy = s.accTy := rfl
@[simp] theorem setTally_parAcc (u n : Nat) (v : BitVec 48) : (setTally s u n v).parAcc = s.parAcc := rfl
@[simp] theorem setTally_parX (u n : Nat) (v : BitVec 48) : (setTally s u n v).parX = s.parX := rfl
@[simp] theorem setTally_parNbu (u n : Nat) (v : BitVec 48) : (setTally s u n v).parNbu = s.parNbu := rfl
@[simp] theorem setTally_encBad (u n : Nat) (v : BitVec 48) : (setTally s u n v).encBad = s.encBad := rfl
@[simp] theorem setTally_ctxs (u n : Nat) (v : BitVec 48) : (setTally s u n v).ctxs = s.ctxs := rfl
@[simp] theorem setTally_ars (u n : Nat) (v : BitVec 48) : (setTally s u n v).ars = s.ars := rfl
@[simp] theorem setTally_xs (u n : Nat) (v : BitVec 48) : (setTally s u n v).xs = s.xs := rfl
@[simp] theorem setTally_cores (u n : Nat) (v : BitVec 48) : (setTally s u n v).cores = s.cores := rfl
@[simp] theorem setTally_rings (u n : Nat) (v : BitVec 48) : (setTally s u n v).rings = s.rings := rfl
@[simp] theorem setTally_chans (u n : Nat) (v : BitVec 48) : (setTally s u n v).chans = s.chans := rfl
@[simp] theorem setTally_nbus (u n : Nat) (v : BitVec 48) : (setTally s u n v).nbus = s.nbus := rfl
@[simp] theorem setTally_launches (u n : Nat) (v : BitVec 48) : (setTally s u n v).launches = s.launches := rfl
@[simp] theorem setTally_nextLaunch (u n : Nat) (v : BitVec 48) : (setTally s u n v).nextLaunch = s.nextLaunch := rfl
@[simp] theorem setTally_seq (u n : Nat) (v : BitVec 48) : (setTally s u n v).seq = s.seq := rfl
@[simp] theorem setTally_stks (u n : Nat) (v : BitVec 48) : (setTally s u n v).stks = s.stks := rfl
@[simp] theorem setTally_boot (u n : Nat) (v : BitVec 48) : (setTally s u n v).boot = s.boot := rfl
@[simp] theorem setTally_srv (u n : Nat) (v : BitVec 48) : (setTally s u n v).srv = s.srv := rfl
@[simp] theorem setTally_keys (u n : Nat) (v : BitVec 48) : (setTally s u n v).keys = s.keys := rfl
@[simp] theorem setTally_crk (u n : Nat) (v : BitVec 48) : (setTally s u n v).crk = s.crk := rfl
@[simp] theorem setTally_ecc (u n : Nat) (v : BitVec 48) : (setTally s u n v).ecc = s.ecc := rfl
@[simp] theorem setTally_hif (u n : Nat) (v : BitVec 48) : (setTally s u n v).hif = s.hif := rfl
@[simp] theorem setTally_folds (u n : Nat) (v : BitVec 48) : (setTally s u n v).folds = s.folds := rfl
@[simp] theorem setTally_fab (u n : Nat) (v : BitVec 48) : (setTally s u n v).fab = s.fab := rfl
@[simp] theorem setTally_trust (u n : Nat) (v : BitVec 48) : (setTally s u n v).trust = s.trust := rfl
@[simp] theorem setTally_power (u n : Nat) (v : BitVec 48) : (setTally s u n v).power = s.power := rfl
@[simp] theorem setTally_life (u n : Nat) (v : BitVec 48) : (setTally s u n v).life = s.life := rfl
@[simp] theorem setTally_msix (u n : Nat) (v : BitVec 48) : (setTally s u n v).msix = s.msix := rfl
@[simp] theorem setTally_mgtOut (u n : Nat) (v : BitVec 48) : (setTally s u n v).mgtOut = s.mgtOut := rfl
@[simp] theorem setTally_hostAns (u n : Nat) (v : BitVec 48) : (setTally s u n v).hostAns = s.hostAns := rfl
@[simp] theorem setTally_hostOut (u n : Nat) (v : BitVec 48) : (setTally s u n v).hostOut = s.hostOut := rfl
@[simp] theorem setTally_fabOut (u n : Nat) (v : BitVec 48) : (setTally s u n v).fabOut = s.fabOut := rfl
@[simp] theorem setTally_puts (u n : Nat) (v : BitVec 48) : (setTally s u n v).puts = s.puts := rfl
@[simp] theorem setTally_asks (u n : Nat) (v : BitVec 48) : (setTally s u n v).asks = s.asks := rfl
@[simp] theorem setTally_nextAsk (u n : Nat) (v : BitVec 48) : (setTally s u n v).nextAsk = s.nextAsk := rfl
@[simp] theorem setTally_free (u n : Nat) (v : BitVec 48) : (setTally s u n v).free = s.free := rfl
@[simp] theorem setTally_epoch (u n : Nat) (v : BitVec 48) : (setTally s u n v).epoch = s.epoch := rfl
@[simp] theorem setTally_lost (u n : Nat) (v : BitVec 48) : (setTally s u n v).lost = s.lost := rfl
@[simp] theorem setTally_pending (u n : Nat) (v : BitVec 48) : (setTally s u n v).pending = s.pending := rfl

/-! ### setTy -/

@[simp] theorem setTy_grade (c e : Nat) (t : AccTy) : (setTy s c e t).grade = s.grade := rfl
@[simp] theorem setTy_badCores (c e : Nat) (t : AccTy) : (setTy s c e t).badCores = s.badCores := rfl
@[simp] theorem setTy_fwRanges (c e : Nat) (t : AccTy) : (setTy s c e t).fwRanges = s.fwRanges := rfl
@[simp] theorem setTy_remaps (c e : Nat) (t : AccTy) : (setTy s c e t).remaps = s.remaps := rfl
@[simp] theorem setTy_devid (c e : Nat) (t : AccTy) : (setTy s c e t).devid = s.devid := rfl
@[simp] theorem setTy_time (c e : Nat) (t : AccTy) : (setTy s c e t).time = s.time := rfl
@[simp] theorem setTy_regs (c e : Nat) (t : AccTy) : (setTy s c e t).regs = s.regs := rfl
@[simp] theorem setTy_mem (c e : Nat) (t : AccTy) : (setTy s c e t).mem = s.mem := rfl
@[simp] theorem setTy_errs (c e : Nat) (t : AccTy) : (setTy s c e t).errs = s.errs := rfl
@[simp] theorem setTy_gerrs (c e : Nat) (t : AccTy) : (setTy s c e t).gerrs = s.gerrs := rfl
@[simp] theorem setTy_flags (c e : Nat) (t : AccTy) : (setTy s c e t).flags = s.flags := rfl
@[simp] theorem setTy_tallies (c e : Nat) (t : AccTy) : (setTy s c e t).tallies = s.tallies := rfl
@[simp] theorem setTy_acc (c e : Nat) (t : AccTy) : (setTy s c e t).acc = s.acc := rfl
@[simp] theorem setTy_accTy (c e : Nat) (t : AccTy) : (setTy s c e t).accTy = tput .unset s.accTy (accKey c e) t := rfl
@[simp] theorem setTy_parAcc (c e : Nat) (t : AccTy) : (setTy s c e t).parAcc = s.parAcc := rfl
@[simp] theorem setTy_parX (c e : Nat) (t : AccTy) : (setTy s c e t).parX = s.parX := rfl
@[simp] theorem setTy_parNbu (c e : Nat) (t : AccTy) : (setTy s c e t).parNbu = s.parNbu := rfl
@[simp] theorem setTy_encBad (c e : Nat) (t : AccTy) : (setTy s c e t).encBad = s.encBad := rfl
@[simp] theorem setTy_ctxs (c e : Nat) (t : AccTy) : (setTy s c e t).ctxs = s.ctxs := rfl
@[simp] theorem setTy_ars (c e : Nat) (t : AccTy) : (setTy s c e t).ars = s.ars := rfl
@[simp] theorem setTy_xs (c e : Nat) (t : AccTy) : (setTy s c e t).xs = s.xs := rfl
@[simp] theorem setTy_cores (c e : Nat) (t : AccTy) : (setTy s c e t).cores = s.cores := rfl
@[simp] theorem setTy_rings (c e : Nat) (t : AccTy) : (setTy s c e t).rings = s.rings := rfl
@[simp] theorem setTy_chans (c e : Nat) (t : AccTy) : (setTy s c e t).chans = s.chans := rfl
@[simp] theorem setTy_nbus (c e : Nat) (t : AccTy) : (setTy s c e t).nbus = s.nbus := rfl
@[simp] theorem setTy_launches (c e : Nat) (t : AccTy) : (setTy s c e t).launches = s.launches := rfl
@[simp] theorem setTy_nextLaunch (c e : Nat) (t : AccTy) : (setTy s c e t).nextLaunch = s.nextLaunch := rfl
@[simp] theorem setTy_seq (c e : Nat) (t : AccTy) : (setTy s c e t).seq = s.seq := rfl
@[simp] theorem setTy_stks (c e : Nat) (t : AccTy) : (setTy s c e t).stks = s.stks := rfl
@[simp] theorem setTy_boot (c e : Nat) (t : AccTy) : (setTy s c e t).boot = s.boot := rfl
@[simp] theorem setTy_srv (c e : Nat) (t : AccTy) : (setTy s c e t).srv = s.srv := rfl
@[simp] theorem setTy_keys (c e : Nat) (t : AccTy) : (setTy s c e t).keys = s.keys := rfl
@[simp] theorem setTy_crk (c e : Nat) (t : AccTy) : (setTy s c e t).crk = s.crk := rfl
@[simp] theorem setTy_ecc (c e : Nat) (t : AccTy) : (setTy s c e t).ecc = s.ecc := rfl
@[simp] theorem setTy_hif (c e : Nat) (t : AccTy) : (setTy s c e t).hif = s.hif := rfl
@[simp] theorem setTy_folds (c e : Nat) (t : AccTy) : (setTy s c e t).folds = s.folds := rfl
@[simp] theorem setTy_fab (c e : Nat) (t : AccTy) : (setTy s c e t).fab = s.fab := rfl
@[simp] theorem setTy_trust (c e : Nat) (t : AccTy) : (setTy s c e t).trust = s.trust := rfl
@[simp] theorem setTy_power (c e : Nat) (t : AccTy) : (setTy s c e t).power = s.power := rfl
@[simp] theorem setTy_life (c e : Nat) (t : AccTy) : (setTy s c e t).life = s.life := rfl
@[simp] theorem setTy_msix (c e : Nat) (t : AccTy) : (setTy s c e t).msix = s.msix := rfl
@[simp] theorem setTy_mgtOut (c e : Nat) (t : AccTy) : (setTy s c e t).mgtOut = s.mgtOut := rfl
@[simp] theorem setTy_hostAns (c e : Nat) (t : AccTy) : (setTy s c e t).hostAns = s.hostAns := rfl
@[simp] theorem setTy_hostOut (c e : Nat) (t : AccTy) : (setTy s c e t).hostOut = s.hostOut := rfl
@[simp] theorem setTy_fabOut (c e : Nat) (t : AccTy) : (setTy s c e t).fabOut = s.fabOut := rfl
@[simp] theorem setTy_puts (c e : Nat) (t : AccTy) : (setTy s c e t).puts = s.puts := rfl
@[simp] theorem setTy_asks (c e : Nat) (t : AccTy) : (setTy s c e t).asks = s.asks := rfl
@[simp] theorem setTy_nextAsk (c e : Nat) (t : AccTy) : (setTy s c e t).nextAsk = s.nextAsk := rfl
@[simp] theorem setTy_free (c e : Nat) (t : AccTy) : (setTy s c e t).free = s.free := rfl
@[simp] theorem setTy_epoch (c e : Nat) (t : AccTy) : (setTy s c e t).epoch = s.epoch := rfl
@[simp] theorem setTy_lost (c e : Nat) (t : AccTy) : (setTy s c e t).lost = s.lost := rfl
@[simp] theorem setTy_pending (c e : Nat) (t : AccTy) : (setTy s c e t).pending = s.pending := rfl

/-! ### setNbu -/

@[simp] theorem setNbu_grade (b : Nat) (v : Nbu) : (setNbu s b v).grade = s.grade := rfl
@[simp] theorem setNbu_badCores (b : Nat) (v : Nbu) : (setNbu s b v).badCores = s.badCores := rfl
@[simp] theorem setNbu_fwRanges (b : Nat) (v : Nbu) : (setNbu s b v).fwRanges = s.fwRanges := rfl
@[simp] theorem setNbu_remaps (b : Nat) (v : Nbu) : (setNbu s b v).remaps = s.remaps := rfl
@[simp] theorem setNbu_devid (b : Nat) (v : Nbu) : (setNbu s b v).devid = s.devid := rfl
@[simp] theorem setNbu_time (b : Nat) (v : Nbu) : (setNbu s b v).time = s.time := rfl
@[simp] theorem setNbu_regs (b : Nat) (v : Nbu) : (setNbu s b v).regs = s.regs := rfl
@[simp] theorem setNbu_mem (b : Nat) (v : Nbu) : (setNbu s b v).mem = s.mem := rfl
@[simp] theorem setNbu_errs (b : Nat) (v : Nbu) : (setNbu s b v).errs = s.errs := rfl
@[simp] theorem setNbu_gerrs (b : Nat) (v : Nbu) : (setNbu s b v).gerrs = s.gerrs := rfl
@[simp] theorem setNbu_flags (b : Nat) (v : Nbu) : (setNbu s b v).flags = s.flags := rfl
@[simp] theorem setNbu_tallies (b : Nat) (v : Nbu) : (setNbu s b v).tallies = s.tallies := rfl
@[simp] theorem setNbu_acc (b : Nat) (v : Nbu) : (setNbu s b v).acc = s.acc := rfl
@[simp] theorem setNbu_accTy (b : Nat) (v : Nbu) : (setNbu s b v).accTy = s.accTy := rfl
@[simp] theorem setNbu_parAcc (b : Nat) (v : Nbu) : (setNbu s b v).parAcc = s.parAcc := rfl
@[simp] theorem setNbu_parX (b : Nat) (v : Nbu) : (setNbu s b v).parX = s.parX := rfl
@[simp] theorem setNbu_parNbu (b : Nat) (v : Nbu) : (setNbu s b v).parNbu = s.parNbu := rfl
@[simp] theorem setNbu_encBad (b : Nat) (v : Nbu) : (setNbu s b v).encBad = s.encBad := rfl
@[simp] theorem setNbu_ctxs (b : Nat) (v : Nbu) : (setNbu s b v).ctxs = s.ctxs := rfl
@[simp] theorem setNbu_ars (b : Nat) (v : Nbu) : (setNbu s b v).ars = s.ars := rfl
@[simp] theorem setNbu_xs (b : Nat) (v : Nbu) : (setNbu s b v).xs = s.xs := rfl
@[simp] theorem setNbu_cores (b : Nat) (v : Nbu) : (setNbu s b v).cores = s.cores := rfl
@[simp] theorem setNbu_rings (b : Nat) (v : Nbu) : (setNbu s b v).rings = s.rings := rfl
@[simp] theorem setNbu_chans (b : Nat) (v : Nbu) : (setNbu s b v).chans = s.chans := rfl
@[simp] theorem setNbu_nbus (b : Nat) (v : Nbu) : (setNbu s b v).nbus = tput {} s.nbus b v := rfl
@[simp] theorem setNbu_launches (b : Nat) (v : Nbu) : (setNbu s b v).launches = s.launches := rfl
@[simp] theorem setNbu_nextLaunch (b : Nat) (v : Nbu) : (setNbu s b v).nextLaunch = s.nextLaunch := rfl
@[simp] theorem setNbu_seq (b : Nat) (v : Nbu) : (setNbu s b v).seq = s.seq := rfl
@[simp] theorem setNbu_stks (b : Nat) (v : Nbu) : (setNbu s b v).stks = s.stks := rfl
@[simp] theorem setNbu_boot (b : Nat) (v : Nbu) : (setNbu s b v).boot = s.boot := rfl
@[simp] theorem setNbu_srv (b : Nat) (v : Nbu) : (setNbu s b v).srv = s.srv := rfl
@[simp] theorem setNbu_keys (b : Nat) (v : Nbu) : (setNbu s b v).keys = s.keys := rfl
@[simp] theorem setNbu_crk (b : Nat) (v : Nbu) : (setNbu s b v).crk = s.crk := rfl
@[simp] theorem setNbu_ecc (b : Nat) (v : Nbu) : (setNbu s b v).ecc = s.ecc := rfl
@[simp] theorem setNbu_hif (b : Nat) (v : Nbu) : (setNbu s b v).hif = s.hif := rfl
@[simp] theorem setNbu_folds (b : Nat) (v : Nbu) : (setNbu s b v).folds = s.folds := rfl
@[simp] theorem setNbu_fab (b : Nat) (v : Nbu) : (setNbu s b v).fab = s.fab := rfl
@[simp] theorem setNbu_trust (b : Nat) (v : Nbu) : (setNbu s b v).trust = s.trust := rfl
@[simp] theorem setNbu_power (b : Nat) (v : Nbu) : (setNbu s b v).power = s.power := rfl
@[simp] theorem setNbu_life (b : Nat) (v : Nbu) : (setNbu s b v).life = s.life := rfl
@[simp] theorem setNbu_msix (b : Nat) (v : Nbu) : (setNbu s b v).msix = s.msix := rfl
@[simp] theorem setNbu_mgtOut (b : Nat) (v : Nbu) : (setNbu s b v).mgtOut = s.mgtOut := rfl
@[simp] theorem setNbu_hostAns (b : Nat) (v : Nbu) : (setNbu s b v).hostAns = s.hostAns := rfl
@[simp] theorem setNbu_hostOut (b : Nat) (v : Nbu) : (setNbu s b v).hostOut = s.hostOut := rfl
@[simp] theorem setNbu_fabOut (b : Nat) (v : Nbu) : (setNbu s b v).fabOut = s.fabOut := rfl
@[simp] theorem setNbu_puts (b : Nat) (v : Nbu) : (setNbu s b v).puts = s.puts := rfl
@[simp] theorem setNbu_asks (b : Nat) (v : Nbu) : (setNbu s b v).asks = s.asks := rfl
@[simp] theorem setNbu_nextAsk (b : Nat) (v : Nbu) : (setNbu s b v).nextAsk = s.nextAsk := rfl
@[simp] theorem setNbu_free (b : Nat) (v : Nbu) : (setNbu s b v).free = s.free := rfl
@[simp] theorem setNbu_epoch (b : Nat) (v : Nbu) : (setNbu s b v).epoch = s.epoch := rfl
@[simp] theorem setNbu_lost (b : Nat) (v : Nbu) : (setNbu s b v).lost = s.lost := rfl
@[simp] theorem setNbu_pending (b : Nat) (v : Nbu) : (setNbu s b v).pending = s.pending := rfl

/-! ### setModel -/

@[simp] theorem setModel_grade (m : Nat) (v : Model) : (setModel s m v).grade = s.grade := rfl
@[simp] theorem setModel_badCores (m : Nat) (v : Model) : (setModel s m v).badCores = s.badCores := rfl
@[simp] theorem setModel_fwRanges (m : Nat) (v : Model) : (setModel s m v).fwRanges = s.fwRanges := rfl
@[simp] theorem setModel_remaps (m : Nat) (v : Model) : (setModel s m v).remaps = s.remaps := rfl
@[simp] theorem setModel_devid (m : Nat) (v : Model) : (setModel s m v).devid = s.devid := rfl
@[simp] theorem setModel_time (m : Nat) (v : Model) : (setModel s m v).time = s.time := rfl
@[simp] theorem setModel_regs (m : Nat) (v : Model) : (setModel s m v).regs = s.regs := rfl
@[simp] theorem setModel_mem (m : Nat) (v : Model) : (setModel s m v).mem = s.mem := rfl
@[simp] theorem setModel_errs (m : Nat) (v : Model) : (setModel s m v).errs = s.errs := rfl
@[simp] theorem setModel_gerrs (m : Nat) (v : Model) : (setModel s m v).gerrs = s.gerrs := rfl
@[simp] theorem setModel_flags (m : Nat) (v : Model) : (setModel s m v).flags = s.flags := rfl
@[simp] theorem setModel_tallies (m : Nat) (v : Model) : (setModel s m v).tallies = s.tallies := rfl
@[simp] theorem setModel_acc (m : Nat) (v : Model) : (setModel s m v).acc = s.acc := rfl
@[simp] theorem setModel_accTy (m : Nat) (v : Model) : (setModel s m v).accTy = s.accTy := rfl
@[simp] theorem setModel_parAcc (m : Nat) (v : Model) : (setModel s m v).parAcc = s.parAcc := rfl
@[simp] theorem setModel_parX (m : Nat) (v : Model) : (setModel s m v).parX = s.parX := rfl
@[simp] theorem setModel_parNbu (m : Nat) (v : Model) : (setModel s m v).parNbu = s.parNbu := rfl
@[simp] theorem setModel_encBad (m : Nat) (v : Model) : (setModel s m v).encBad = s.encBad := rfl
@[simp] theorem setModel_ctxs (m : Nat) (v : Model) : (setModel s m v).ctxs = s.ctxs := rfl
@[simp] theorem setModel_ars (m : Nat) (v : Model) : (setModel s m v).ars = s.ars := rfl
@[simp] theorem setModel_xs (m : Nat) (v : Model) : (setModel s m v).xs = s.xs := rfl
@[simp] theorem setModel_cores (m : Nat) (v : Model) : (setModel s m v).cores = s.cores := rfl
@[simp] theorem setModel_rings (m : Nat) (v : Model) : (setModel s m v).rings = s.rings := rfl
@[simp] theorem setModel_chans (m : Nat) (v : Model) : (setModel s m v).chans = s.chans := rfl
@[simp] theorem setModel_nbus (m : Nat) (v : Model) : (setModel s m v).nbus = s.nbus := rfl
@[simp] theorem setModel_launches (m : Nat) (v : Model) : (setModel s m v).launches = s.launches := rfl
@[simp] theorem setModel_nextLaunch (m : Nat) (v : Model) : (setModel s m v).nextLaunch = s.nextLaunch := rfl
@[simp] theorem setModel_seq (m : Nat) (v : Model) : (setModel s m v).seq = s.seq := rfl
@[simp] theorem setModel_stks (m : Nat) (v : Model) : (setModel s m v).stks = s.stks := rfl
@[simp] theorem setModel_boot (m : Nat) (v : Model) : (setModel s m v).boot = s.boot := rfl
@[simp] theorem setModel_srv (m : Nat) (v : Model) : (setModel s m v).srv = { s.srv with models := tput {} s.srv.models m v } := rfl
@[simp] theorem setModel_keys (m : Nat) (v : Model) : (setModel s m v).keys = s.keys := rfl
@[simp] theorem setModel_crk (m : Nat) (v : Model) : (setModel s m v).crk = s.crk := rfl
@[simp] theorem setModel_ecc (m : Nat) (v : Model) : (setModel s m v).ecc = s.ecc := rfl
@[simp] theorem setModel_hif (m : Nat) (v : Model) : (setModel s m v).hif = s.hif := rfl
@[simp] theorem setModel_folds (m : Nat) (v : Model) : (setModel s m v).folds = s.folds := rfl
@[simp] theorem setModel_fab (m : Nat) (v : Model) : (setModel s m v).fab = s.fab := rfl
@[simp] theorem setModel_trust (m : Nat) (v : Model) : (setModel s m v).trust = s.trust := rfl
@[simp] theorem setModel_power (m : Nat) (v : Model) : (setModel s m v).power = s.power := rfl
@[simp] theorem setModel_life (m : Nat) (v : Model) : (setModel s m v).life = s.life := rfl
@[simp] theorem setModel_msix (m : Nat) (v : Model) : (setModel s m v).msix = s.msix := rfl
@[simp] theorem setModel_mgtOut (m : Nat) (v : Model) : (setModel s m v).mgtOut = s.mgtOut := rfl
@[simp] theorem setModel_hostAns (m : Nat) (v : Model) : (setModel s m v).hostAns = s.hostAns := rfl
@[simp] theorem setModel_hostOut (m : Nat) (v : Model) : (setModel s m v).hostOut = s.hostOut := rfl
@[simp] theorem setModel_fabOut (m : Nat) (v : Model) : (setModel s m v).fabOut = s.fabOut := rfl
@[simp] theorem setModel_puts (m : Nat) (v : Model) : (setModel s m v).puts = s.puts := rfl
@[simp] theorem setModel_asks (m : Nat) (v : Model) : (setModel s m v).asks = s.asks := rfl
@[simp] theorem setModel_nextAsk (m : Nat) (v : Model) : (setModel s m v).nextAsk = s.nextAsk := rfl
@[simp] theorem setModel_free (m : Nat) (v : Model) : (setModel s m v).free = s.free := rfl
@[simp] theorem setModel_epoch (m : Nat) (v : Model) : (setModel s m v).epoch = s.epoch := rfl
@[simp] theorem setModel_lost (m : Nat) (v : Model) : (setModel s m v).lost = s.lost := rfl
@[simp] theorem setModel_pending (m : Nat) (v : Model) : (setModel s m v).pending = s.pending := rfl

/-! ### setReq -/

@[simp] theorem setReq_grade (i : Nat) (r : Req) : (setReq s i r).grade = s.grade := rfl
@[simp] theorem setReq_badCores (i : Nat) (r : Req) : (setReq s i r).badCores = s.badCores := rfl
@[simp] theorem setReq_fwRanges (i : Nat) (r : Req) : (setReq s i r).fwRanges = s.fwRanges := rfl
@[simp] theorem setReq_remaps (i : Nat) (r : Req) : (setReq s i r).remaps = s.remaps := rfl
@[simp] theorem setReq_devid (i : Nat) (r : Req) : (setReq s i r).devid = s.devid := rfl
@[simp] theorem setReq_time (i : Nat) (r : Req) : (setReq s i r).time = s.time := rfl
@[simp] theorem setReq_regs (i : Nat) (r : Req) : (setReq s i r).regs = s.regs := rfl
@[simp] theorem setReq_mem (i : Nat) (r : Req) : (setReq s i r).mem = s.mem := rfl
@[simp] theorem setReq_errs (i : Nat) (r : Req) : (setReq s i r).errs = s.errs := rfl
@[simp] theorem setReq_gerrs (i : Nat) (r : Req) : (setReq s i r).gerrs = s.gerrs := rfl
@[simp] theorem setReq_flags (i : Nat) (r : Req) : (setReq s i r).flags = s.flags := rfl
@[simp] theorem setReq_tallies (i : Nat) (r : Req) : (setReq s i r).tallies = s.tallies := rfl
@[simp] theorem setReq_acc (i : Nat) (r : Req) : (setReq s i r).acc = s.acc := rfl
@[simp] theorem setReq_accTy (i : Nat) (r : Req) : (setReq s i r).accTy = s.accTy := rfl
@[simp] theorem setReq_parAcc (i : Nat) (r : Req) : (setReq s i r).parAcc = s.parAcc := rfl
@[simp] theorem setReq_parX (i : Nat) (r : Req) : (setReq s i r).parX = s.parX := rfl
@[simp] theorem setReq_parNbu (i : Nat) (r : Req) : (setReq s i r).parNbu = s.parNbu := rfl
@[simp] theorem setReq_encBad (i : Nat) (r : Req) : (setReq s i r).encBad = s.encBad := rfl
@[simp] theorem setReq_ctxs (i : Nat) (r : Req) : (setReq s i r).ctxs = s.ctxs := rfl
@[simp] theorem setReq_ars (i : Nat) (r : Req) : (setReq s i r).ars = s.ars := rfl
@[simp] theorem setReq_xs (i : Nat) (r : Req) : (setReq s i r).xs = s.xs := rfl
@[simp] theorem setReq_cores (i : Nat) (r : Req) : (setReq s i r).cores = s.cores := rfl
@[simp] theorem setReq_rings (i : Nat) (r : Req) : (setReq s i r).rings = s.rings := rfl
@[simp] theorem setReq_chans (i : Nat) (r : Req) : (setReq s i r).chans = s.chans := rfl
@[simp] theorem setReq_nbus (i : Nat) (r : Req) : (setReq s i r).nbus = s.nbus := rfl
@[simp] theorem setReq_launches (i : Nat) (r : Req) : (setReq s i r).launches = s.launches := rfl
@[simp] theorem setReq_nextLaunch (i : Nat) (r : Req) : (setReq s i r).nextLaunch = s.nextLaunch := rfl
@[simp] theorem setReq_seq (i : Nat) (r : Req) : (setReq s i r).seq = s.seq := rfl
@[simp] theorem setReq_stks (i : Nat) (r : Req) : (setReq s i r).stks = s.stks := rfl
@[simp] theorem setReq_boot (i : Nat) (r : Req) : (setReq s i r).boot = s.boot := rfl
@[simp] theorem setReq_srv (i : Nat) (r : Req) : (setReq s i r).srv = { s.srv with reqs := tput none s.srv.reqs i (some r) } := rfl
@[simp] theorem setReq_keys (i : Nat) (r : Req) : (setReq s i r).keys = s.keys := rfl
@[simp] theorem setReq_crk (i : Nat) (r : Req) : (setReq s i r).crk = s.crk := rfl
@[simp] theorem setReq_ecc (i : Nat) (r : Req) : (setReq s i r).ecc = s.ecc := rfl
@[simp] theorem setReq_hif (i : Nat) (r : Req) : (setReq s i r).hif = s.hif := rfl
@[simp] theorem setReq_folds (i : Nat) (r : Req) : (setReq s i r).folds = s.folds := rfl
@[simp] theorem setReq_fab (i : Nat) (r : Req) : (setReq s i r).fab = s.fab := rfl
@[simp] theorem setReq_trust (i : Nat) (r : Req) : (setReq s i r).trust = s.trust := rfl
@[simp] theorem setReq_power (i : Nat) (r : Req) : (setReq s i r).power = s.power := rfl
@[simp] theorem setReq_life (i : Nat) (r : Req) : (setReq s i r).life = s.life := rfl
@[simp] theorem setReq_msix (i : Nat) (r : Req) : (setReq s i r).msix = s.msix := rfl
@[simp] theorem setReq_mgtOut (i : Nat) (r : Req) : (setReq s i r).mgtOut = s.mgtOut := rfl
@[simp] theorem setReq_hostAns (i : Nat) (r : Req) : (setReq s i r).hostAns = s.hostAns := rfl
@[simp] theorem setReq_hostOut (i : Nat) (r : Req) : (setReq s i r).hostOut = s.hostOut := rfl
@[simp] theorem setReq_fabOut (i : Nat) (r : Req) : (setReq s i r).fabOut = s.fabOut := rfl
@[simp] theorem setReq_puts (i : Nat) (r : Req) : (setReq s i r).puts = s.puts := rfl
@[simp] theorem setReq_asks (i : Nat) (r : Req) : (setReq s i r).asks = s.asks := rfl
@[simp] theorem setReq_nextAsk (i : Nat) (r : Req) : (setReq s i r).nextAsk = s.nextAsk := rfl
@[simp] theorem setReq_free (i : Nat) (r : Req) : (setReq s i r).free = s.free := rfl
@[simp] theorem setReq_epoch (i : Nat) (r : Req) : (setReq s i r).epoch = s.epoch := rfl
@[simp] theorem setReq_lost (i : Nat) (r : Req) : (setReq s i r).lost = s.lost := rfl
@[simp] theorem setReq_pending (i : Nat) (r : Req) : (setReq s i r).pending = s.pending := rfl

/-! ### setLink -/

@[simp] theorem setLink_grade (l : Nat) (v : LinkSt) : (setLink s l v).grade = s.grade := rfl
@[simp] theorem setLink_badCores (l : Nat) (v : LinkSt) : (setLink s l v).badCores = s.badCores := rfl
@[simp] theorem setLink_fwRanges (l : Nat) (v : LinkSt) : (setLink s l v).fwRanges = s.fwRanges := rfl
@[simp] theorem setLink_remaps (l : Nat) (v : LinkSt) : (setLink s l v).remaps = s.remaps := rfl
@[simp] theorem setLink_devid (l : Nat) (v : LinkSt) : (setLink s l v).devid = s.devid := rfl
@[simp] theorem setLink_time (l : Nat) (v : LinkSt) : (setLink s l v).time = s.time := rfl
@[simp] theorem setLink_regs (l : Nat) (v : LinkSt) : (setLink s l v).regs = s.regs := rfl
@[simp] theorem setLink_mem (l : Nat) (v : LinkSt) : (setLink s l v).mem = s.mem := rfl
@[simp] theorem setLink_errs (l : Nat) (v : LinkSt) : (setLink s l v).errs = s.errs := rfl
@[simp] theorem setLink_gerrs (l : Nat) (v : LinkSt) : (setLink s l v).gerrs = s.gerrs := rfl
@[simp] theorem setLink_flags (l : Nat) (v : LinkSt) : (setLink s l v).flags = s.flags := rfl
@[simp] theorem setLink_tallies (l : Nat) (v : LinkSt) : (setLink s l v).tallies = s.tallies := rfl
@[simp] theorem setLink_acc (l : Nat) (v : LinkSt) : (setLink s l v).acc = s.acc := rfl
@[simp] theorem setLink_accTy (l : Nat) (v : LinkSt) : (setLink s l v).accTy = s.accTy := rfl
@[simp] theorem setLink_parAcc (l : Nat) (v : LinkSt) : (setLink s l v).parAcc = s.parAcc := rfl
@[simp] theorem setLink_parX (l : Nat) (v : LinkSt) : (setLink s l v).parX = s.parX := rfl
@[simp] theorem setLink_parNbu (l : Nat) (v : LinkSt) : (setLink s l v).parNbu = s.parNbu := rfl
@[simp] theorem setLink_encBad (l : Nat) (v : LinkSt) : (setLink s l v).encBad = s.encBad := rfl
@[simp] theorem setLink_ctxs (l : Nat) (v : LinkSt) : (setLink s l v).ctxs = s.ctxs := rfl
@[simp] theorem setLink_ars (l : Nat) (v : LinkSt) : (setLink s l v).ars = s.ars := rfl
@[simp] theorem setLink_xs (l : Nat) (v : LinkSt) : (setLink s l v).xs = s.xs := rfl
@[simp] theorem setLink_cores (l : Nat) (v : LinkSt) : (setLink s l v).cores = s.cores := rfl
@[simp] theorem setLink_rings (l : Nat) (v : LinkSt) : (setLink s l v).rings = s.rings := rfl
@[simp] theorem setLink_chans (l : Nat) (v : LinkSt) : (setLink s l v).chans = s.chans := rfl
@[simp] theorem setLink_nbus (l : Nat) (v : LinkSt) : (setLink s l v).nbus = s.nbus := rfl
@[simp] theorem setLink_launches (l : Nat) (v : LinkSt) : (setLink s l v).launches = s.launches := rfl
@[simp] theorem setLink_nextLaunch (l : Nat) (v : LinkSt) : (setLink s l v).nextLaunch = s.nextLaunch := rfl
@[simp] theorem setLink_seq (l : Nat) (v : LinkSt) : (setLink s l v).seq = s.seq := rfl
@[simp] theorem setLink_stks (l : Nat) (v : LinkSt) : (setLink s l v).stks = s.stks := rfl
@[simp] theorem setLink_boot (l : Nat) (v : LinkSt) : (setLink s l v).boot = s.boot := rfl
@[simp] theorem setLink_srv (l : Nat) (v : LinkSt) : (setLink s l v).srv = s.srv := rfl
@[simp] theorem setLink_keys (l : Nat) (v : LinkSt) : (setLink s l v).keys = s.keys := rfl
@[simp] theorem setLink_crk (l : Nat) (v : LinkSt) : (setLink s l v).crk = s.crk := rfl
@[simp] theorem setLink_ecc (l : Nat) (v : LinkSt) : (setLink s l v).ecc = s.ecc := rfl
@[simp] theorem setLink_hif (l : Nat) (v : LinkSt) : (setLink s l v).hif = s.hif := rfl
@[simp] theorem setLink_folds (l : Nat) (v : LinkSt) : (setLink s l v).folds = s.folds := rfl
@[simp] theorem setLink_fab (l : Nat) (v : LinkSt) : (setLink s l v).fab = { s.fab with links := tput {} s.fab.links l v } := rfl
@[simp] theorem setLink_trust (l : Nat) (v : LinkSt) : (setLink s l v).trust = s.trust := rfl
@[simp] theorem setLink_power (l : Nat) (v : LinkSt) : (setLink s l v).power = s.power := rfl
@[simp] theorem setLink_life (l : Nat) (v : LinkSt) : (setLink s l v).life = s.life := rfl
@[simp] theorem setLink_msix (l : Nat) (v : LinkSt) : (setLink s l v).msix = s.msix := rfl
@[simp] theorem setLink_mgtOut (l : Nat) (v : LinkSt) : (setLink s l v).mgtOut = s.mgtOut := rfl
@[simp] theorem setLink_hostAns (l : Nat) (v : LinkSt) : (setLink s l v).hostAns = s.hostAns := rfl
@[simp] theorem setLink_hostOut (l : Nat) (v : LinkSt) : (setLink s l v).hostOut = s.hostOut := rfl
@[simp] theorem setLink_fabOut (l : Nat) (v : LinkSt) : (setLink s l v).fabOut = s.fabOut := rfl
@[simp] theorem setLink_puts (l : Nat) (v : LinkSt) : (setLink s l v).puts = s.puts := rfl
@[simp] theorem setLink_asks (l : Nat) (v : LinkSt) : (setLink s l v).asks = s.asks := rfl
@[simp] theorem setLink_nextAsk (l : Nat) (v : LinkSt) : (setLink s l v).nextAsk = s.nextAsk := rfl
@[simp] theorem setLink_free (l : Nat) (v : LinkSt) : (setLink s l v).free = s.free := rfl
@[simp] theorem setLink_epoch (l : Nat) (v : LinkSt) : (setLink s l v).epoch = s.epoch := rfl
@[simp] theorem setLink_lost (l : Nat) (v : LinkSt) : (setLink s l v).lost = s.lost := rfl
@[simp] theorem setLink_pending (l : Nat) (v : LinkSt) : (setLink s l v).pending = s.pending := rfl

/-! ### sendFab -/

@[simp] theorem sendFab_grade (m : Msg) : (sendFab s m).grade = s.grade := rfl
@[simp] theorem sendFab_badCores (m : Msg) : (sendFab s m).badCores = s.badCores := rfl
@[simp] theorem sendFab_fwRanges (m : Msg) : (sendFab s m).fwRanges = s.fwRanges := rfl
@[simp] theorem sendFab_remaps (m : Msg) : (sendFab s m).remaps = s.remaps := rfl
@[simp] theorem sendFab_devid (m : Msg) : (sendFab s m).devid = s.devid := rfl
@[simp] theorem sendFab_time (m : Msg) : (sendFab s m).time = s.time := rfl
@[simp] theorem sendFab_regs (m : Msg) : (sendFab s m).regs = s.regs := rfl
@[simp] theorem sendFab_mem (m : Msg) : (sendFab s m).mem = s.mem := rfl
@[simp] theorem sendFab_errs (m : Msg) : (sendFab s m).errs = s.errs := rfl
@[simp] theorem sendFab_gerrs (m : Msg) : (sendFab s m).gerrs = s.gerrs := rfl
@[simp] theorem sendFab_flags (m : Msg) : (sendFab s m).flags = s.flags := rfl
@[simp] theorem sendFab_tallies (m : Msg) : (sendFab s m).tallies = s.tallies := rfl
@[simp] theorem sendFab_acc (m : Msg) : (sendFab s m).acc = s.acc := rfl
@[simp] theorem sendFab_accTy (m : Msg) : (sendFab s m).accTy = s.accTy := rfl
@[simp] theorem sendFab_parAcc (m : Msg) : (sendFab s m).parAcc = s.parAcc := rfl
@[simp] theorem sendFab_parX (m : Msg) : (sendFab s m).parX = s.parX := rfl
@[simp] theorem sendFab_parNbu (m : Msg) : (sendFab s m).parNbu = s.parNbu := rfl
@[simp] theorem sendFab_encBad (m : Msg) : (sendFab s m).encBad = s.encBad := rfl
@[simp] theorem sendFab_ctxs (m : Msg) : (sendFab s m).ctxs = s.ctxs := rfl
@[simp] theorem sendFab_ars (m : Msg) : (sendFab s m).ars = s.ars := rfl
@[simp] theorem sendFab_xs (m : Msg) : (sendFab s m).xs = s.xs := rfl
@[simp] theorem sendFab_cores (m : Msg) : (sendFab s m).cores = s.cores := rfl
@[simp] theorem sendFab_rings (m : Msg) : (sendFab s m).rings = s.rings := rfl
@[simp] theorem sendFab_chans (m : Msg) : (sendFab s m).chans = s.chans := rfl
@[simp] theorem sendFab_nbus (m : Msg) : (sendFab s m).nbus = s.nbus := rfl
@[simp] theorem sendFab_launches (m : Msg) : (sendFab s m).launches = s.launches := rfl
@[simp] theorem sendFab_nextLaunch (m : Msg) : (sendFab s m).nextLaunch = s.nextLaunch := rfl
@[simp] theorem sendFab_seq (m : Msg) : (sendFab s m).seq = s.seq := rfl
@[simp] theorem sendFab_stks (m : Msg) : (sendFab s m).stks = s.stks := rfl
@[simp] theorem sendFab_boot (m : Msg) : (sendFab s m).boot = s.boot := rfl
@[simp] theorem sendFab_srv (m : Msg) : (sendFab s m).srv = s.srv := rfl
@[simp] theorem sendFab_keys (m : Msg) : (sendFab s m).keys = s.keys := rfl
@[simp] theorem sendFab_crk (m : Msg) : (sendFab s m).crk = s.crk := rfl
@[simp] theorem sendFab_ecc (m : Msg) : (sendFab s m).ecc = s.ecc := rfl
@[simp] theorem sendFab_hif (m : Msg) : (sendFab s m).hif = s.hif := rfl
@[simp] theorem sendFab_folds (m : Msg) : (sendFab s m).folds = s.folds := rfl
@[simp] theorem sendFab_fab (m : Msg) : (sendFab s m).fab = s.fab := rfl
@[simp] theorem sendFab_trust (m : Msg) : (sendFab s m).trust = s.trust := rfl
@[simp] theorem sendFab_power (m : Msg) : (sendFab s m).power = s.power := rfl
@[simp] theorem sendFab_life (m : Msg) : (sendFab s m).life = s.life := rfl
@[simp] theorem sendFab_msix (m : Msg) : (sendFab s m).msix = s.msix := rfl
@[simp] theorem sendFab_mgtOut (m : Msg) : (sendFab s m).mgtOut = s.mgtOut := rfl
@[simp] theorem sendFab_hostAns (m : Msg) : (sendFab s m).hostAns = s.hostAns := rfl
@[simp] theorem sendFab_hostOut (m : Msg) : (sendFab s m).hostOut = s.hostOut := rfl
@[simp] theorem sendFab_fabOut (m : Msg) : (sendFab s m).fabOut = s.fabOut ++ [m] := rfl
@[simp] theorem sendFab_puts (m : Msg) : (sendFab s m).puts = s.puts := rfl
@[simp] theorem sendFab_asks (m : Msg) : (sendFab s m).asks = s.asks := rfl
@[simp] theorem sendFab_nextAsk (m : Msg) : (sendFab s m).nextAsk = s.nextAsk := rfl
@[simp] theorem sendFab_free (m : Msg) : (sendFab s m).free = s.free := rfl
@[simp] theorem sendFab_epoch (m : Msg) : (sendFab s m).epoch = s.epoch := rfl
@[simp] theorem sendFab_lost (m : Msg) : (sendFab s m).lost = s.lost := rfl
@[simp] theorem sendFab_pending (m : Msg) : (sendFab s m).pending = s.pending := rfl

/-! ### sendMgt -/

@[simp] theorem sendMgt_grade (m : MgtMsg) : (sendMgt s m).grade = s.grade := rfl
@[simp] theorem sendMgt_badCores (m : MgtMsg) : (sendMgt s m).badCores = s.badCores := rfl
@[simp] theorem sendMgt_fwRanges (m : MgtMsg) : (sendMgt s m).fwRanges = s.fwRanges := rfl
@[simp] theorem sendMgt_remaps (m : MgtMsg) : (sendMgt s m).remaps = s.remaps := rfl
@[simp] theorem sendMgt_devid (m : MgtMsg) : (sendMgt s m).devid = s.devid := rfl
@[simp] theorem sendMgt_time (m : MgtMsg) : (sendMgt s m).time = s.time := rfl
@[simp] theorem sendMgt_regs (m : MgtMsg) : (sendMgt s m).regs = s.regs := rfl
@[simp] theorem sendMgt_mem (m : MgtMsg) : (sendMgt s m).mem = s.mem := rfl
@[simp] theorem sendMgt_errs (m : MgtMsg) : (sendMgt s m).errs = s.errs := rfl
@[simp] theorem sendMgt_gerrs (m : MgtMsg) : (sendMgt s m).gerrs = s.gerrs := rfl
@[simp] theorem sendMgt_flags (m : MgtMsg) : (sendMgt s m).flags = s.flags := rfl
@[simp] theorem sendMgt_tallies (m : MgtMsg) : (sendMgt s m).tallies = s.tallies := rfl
@[simp] theorem sendMgt_acc (m : MgtMsg) : (sendMgt s m).acc = s.acc := rfl
@[simp] theorem sendMgt_accTy (m : MgtMsg) : (sendMgt s m).accTy = s.accTy := rfl
@[simp] theorem sendMgt_parAcc (m : MgtMsg) : (sendMgt s m).parAcc = s.parAcc := rfl
@[simp] theorem sendMgt_parX (m : MgtMsg) : (sendMgt s m).parX = s.parX := rfl
@[simp] theorem sendMgt_parNbu (m : MgtMsg) : (sendMgt s m).parNbu = s.parNbu := rfl
@[simp] theorem sendMgt_encBad (m : MgtMsg) : (sendMgt s m).encBad = s.encBad := rfl
@[simp] theorem sendMgt_ctxs (m : MgtMsg) : (sendMgt s m).ctxs = s.ctxs := rfl
@[simp] theorem sendMgt_ars (m : MgtMsg) : (sendMgt s m).ars = s.ars := rfl
@[simp] theorem sendMgt_xs (m : MgtMsg) : (sendMgt s m).xs = s.xs := rfl
@[simp] theorem sendMgt_cores (m : MgtMsg) : (sendMgt s m).cores = s.cores := rfl
@[simp] theorem sendMgt_rings (m : MgtMsg) : (sendMgt s m).rings = s.rings := rfl
@[simp] theorem sendMgt_chans (m : MgtMsg) : (sendMgt s m).chans = s.chans := rfl
@[simp] theorem sendMgt_nbus (m : MgtMsg) : (sendMgt s m).nbus = s.nbus := rfl
@[simp] theorem sendMgt_launches (m : MgtMsg) : (sendMgt s m).launches = s.launches := rfl
@[simp] theorem sendMgt_nextLaunch (m : MgtMsg) : (sendMgt s m).nextLaunch = s.nextLaunch := rfl
@[simp] theorem sendMgt_seq (m : MgtMsg) : (sendMgt s m).seq = s.seq := rfl
@[simp] theorem sendMgt_stks (m : MgtMsg) : (sendMgt s m).stks = s.stks := rfl
@[simp] theorem sendMgt_boot (m : MgtMsg) : (sendMgt s m).boot = s.boot := rfl
@[simp] theorem sendMgt_srv (m : MgtMsg) : (sendMgt s m).srv = s.srv := rfl
@[simp] theorem sendMgt_keys (m : MgtMsg) : (sendMgt s m).keys = s.keys := rfl
@[simp] theorem sendMgt_crk (m : MgtMsg) : (sendMgt s m).crk = s.crk := rfl
@[simp] theorem sendMgt_ecc (m : MgtMsg) : (sendMgt s m).ecc = s.ecc := rfl
@[simp] theorem sendMgt_hif (m : MgtMsg) : (sendMgt s m).hif = s.hif := rfl
@[simp] theorem sendMgt_folds (m : MgtMsg) : (sendMgt s m).folds = s.folds := rfl
@[simp] theorem sendMgt_fab (m : MgtMsg) : (sendMgt s m).fab = s.fab := rfl
@[simp] theorem sendMgt_trust (m : MgtMsg) : (sendMgt s m).trust = s.trust := rfl
@[simp] theorem sendMgt_power (m : MgtMsg) : (sendMgt s m).power = s.power := rfl
@[simp] theorem sendMgt_life (m : MgtMsg) : (sendMgt s m).life = s.life := rfl
@[simp] theorem sendMgt_msix (m : MgtMsg) : (sendMgt s m).msix = s.msix := rfl
@[simp] theorem sendMgt_mgtOut (m : MgtMsg) : (sendMgt s m).mgtOut = s.mgtOut ++ [m] := rfl
@[simp] theorem sendMgt_hostAns (m : MgtMsg) : (sendMgt s m).hostAns = s.hostAns := rfl
@[simp] theorem sendMgt_hostOut (m : MgtMsg) : (sendMgt s m).hostOut = s.hostOut := rfl
@[simp] theorem sendMgt_fabOut (m : MgtMsg) : (sendMgt s m).fabOut = s.fabOut := rfl
@[simp] theorem sendMgt_puts (m : MgtMsg) : (sendMgt s m).puts = s.puts := rfl
@[simp] theorem sendMgt_asks (m : MgtMsg) : (sendMgt s m).asks = s.asks := rfl
@[simp] theorem sendMgt_nextAsk (m : MgtMsg) : (sendMgt s m).nextAsk = s.nextAsk := rfl
@[simp] theorem sendMgt_free (m : MgtMsg) : (sendMgt s m).free = s.free := rfl
@[simp] theorem sendMgt_epoch (m : MgtMsg) : (sendMgt s m).epoch = s.epoch := rfl
@[simp] theorem sendMgt_lost (m : MgtMsg) : (sendMgt s m).lost = s.lost := rfl
@[simp] theorem sendMgt_pending (m : MgtMsg) : (sendMgt s m).pending = s.pending := rfl

/-! ### answer -/

@[simp] theorem answer_grade (r : HostAns) : (answer s r).grade = s.grade := rfl
@[simp] theorem answer_badCores (r : HostAns) : (answer s r).badCores = s.badCores := rfl
@[simp] theorem answer_fwRanges (r : HostAns) : (answer s r).fwRanges = s.fwRanges := rfl
@[simp] theorem answer_remaps (r : HostAns) : (answer s r).remaps = s.remaps := rfl
@[simp] theorem answer_devid (r : HostAns) : (answer s r).devid = s.devid := rfl
@[simp] theorem answer_time (r : HostAns) : (answer s r).time = s.time := rfl
@[simp] theorem answer_regs (r : HostAns) : (answer s r).regs = s.regs := rfl
@[simp] theorem answer_mem (r : HostAns) : (answer s r).mem = s.mem := rfl
@[simp] theorem answer_errs (r : HostAns) : (answer s r).errs = s.errs := rfl
@[simp] theorem answer_gerrs (r : HostAns) : (answer s r).gerrs = s.gerrs := rfl
@[simp] theorem answer_flags (r : HostAns) : (answer s r).flags = s.flags := rfl
@[simp] theorem answer_tallies (r : HostAns) : (answer s r).tallies = s.tallies := rfl
@[simp] theorem answer_acc (r : HostAns) : (answer s r).acc = s.acc := rfl
@[simp] theorem answer_accTy (r : HostAns) : (answer s r).accTy = s.accTy := rfl
@[simp] theorem answer_parAcc (r : HostAns) : (answer s r).parAcc = s.parAcc := rfl
@[simp] theorem answer_parX (r : HostAns) : (answer s r).parX = s.parX := rfl
@[simp] theorem answer_parNbu (r : HostAns) : (answer s r).parNbu = s.parNbu := rfl
@[simp] theorem answer_encBad (r : HostAns) : (answer s r).encBad = s.encBad := rfl
@[simp] theorem answer_ctxs (r : HostAns) : (answer s r).ctxs = s.ctxs := rfl
@[simp] theorem answer_ars (r : HostAns) : (answer s r).ars = s.ars := rfl
@[simp] theorem answer_xs (r : HostAns) : (answer s r).xs = s.xs := rfl
@[simp] theorem answer_cores (r : HostAns) : (answer s r).cores = s.cores := rfl
@[simp] theorem answer_rings (r : HostAns) : (answer s r).rings = s.rings := rfl
@[simp] theorem answer_chans (r : HostAns) : (answer s r).chans = s.chans := rfl
@[simp] theorem answer_nbus (r : HostAns) : (answer s r).nbus = s.nbus := rfl
@[simp] theorem answer_launches (r : HostAns) : (answer s r).launches = s.launches := rfl
@[simp] theorem answer_nextLaunch (r : HostAns) : (answer s r).nextLaunch = s.nextLaunch := rfl
@[simp] theorem answer_seq (r : HostAns) : (answer s r).seq = s.seq := rfl
@[simp] theorem answer_stks (r : HostAns) : (answer s r).stks = s.stks := rfl
@[simp] theorem answer_boot (r : HostAns) : (answer s r).boot = s.boot := rfl
@[simp] theorem answer_srv (r : HostAns) : (answer s r).srv = s.srv := rfl
@[simp] theorem answer_keys (r : HostAns) : (answer s r).keys = s.keys := rfl
@[simp] theorem answer_crk (r : HostAns) : (answer s r).crk = s.crk := rfl
@[simp] theorem answer_ecc (r : HostAns) : (answer s r).ecc = s.ecc := rfl
@[simp] theorem answer_hif (r : HostAns) : (answer s r).hif = s.hif := rfl
@[simp] theorem answer_folds (r : HostAns) : (answer s r).folds = s.folds := rfl
@[simp] theorem answer_fab (r : HostAns) : (answer s r).fab = s.fab := rfl
@[simp] theorem answer_trust (r : HostAns) : (answer s r).trust = s.trust := rfl
@[simp] theorem answer_power (r : HostAns) : (answer s r).power = s.power := rfl
@[simp] theorem answer_life (r : HostAns) : (answer s r).life = s.life := rfl
@[simp] theorem answer_msix (r : HostAns) : (answer s r).msix = s.msix := rfl
@[simp] theorem answer_mgtOut (r : HostAns) : (answer s r).mgtOut = s.mgtOut := rfl
@[simp] theorem answer_hostAns (r : HostAns) : (answer s r).hostAns = s.hostAns ++ [r] := rfl
@[simp] theorem answer_hostOut (r : HostAns) : (answer s r).hostOut = s.hostOut := rfl
@[simp] theorem answer_fabOut (r : HostAns) : (answer s r).fabOut = s.fabOut := rfl
@[simp] theorem answer_puts (r : HostAns) : (answer s r).puts = s.puts := rfl
@[simp] theorem answer_asks (r : HostAns) : (answer s r).asks = s.asks := rfl
@[simp] theorem answer_nextAsk (r : HostAns) : (answer s r).nextAsk = s.nextAsk := rfl
@[simp] theorem answer_free (r : HostAns) : (answer s r).free = s.free := rfl
@[simp] theorem answer_epoch (r : HostAns) : (answer s r).epoch = s.epoch := rfl
@[simp] theorem answer_lost (r : HostAns) : (answer s r).lost = s.lost := rfl
@[simp] theorem answer_pending (r : HostAns) : (answer s r).pending = s.pending := rfl

end Sys2Proof.Machine
end

