-- ==== Sys2Proof/Laws/Reads.lean ====
section
/-! SUPPORT. Reading after writing, for each named pair of operations; the stores are canonical. -/

set_option Elab.async false

namespace Sys2Proof.Machine

variable {s : State}

/-- An entry other than the default reads back, whatever the table. -/
theorem tget_tput_self {α : Type} [DecidableEq α] {d : α} {t : Tab α} {i : Nat} {x : α} (h : x ≠ d) :
    tget d (tput d t i x) i = x := by
  induction t with
  | nil => simp [tput, h, tget]
  | cons p t ih =>
    obtain ⟨k, v⟩ := p
    unfold tput
    simp only [if_neg h]
    split
    · simp [tget]
    · split
      · simp [tget]
      · unfold tget; simp [*]

theorem memGet_memPut {l j : Nat} {b : Byte} (h : StoresWf s) :
    memGet (memPut s l b) j = if j = l then b else memGet s j := by
  have hm : lostMask (memPut s l b) j = lostMask s j := rfl
  unfold memGet
  rw [hm, memPut_mem, tget_tput h.mem]
  split
  · next e => rw [e, BitVec.xor_assoc, BitVec.xor_self, BitVec.xor_zero]
  · rfl

theorem getCore_setCore {c d : Nat} {v : CoreSt} (h : StoresWf s) :
    getCore (setCore s c v) d = if d = c then v else getCore s d := tget_tput h.cores

theorem getChan_setChan {g d : Nat} {v : Chan} (h : StoresWf s) :
    getChan (setChan s g v) d = if d = g then v else getChan s d := tget_tput h.chans

theorem getRing_setRing {n d : Nat} {v : RingSt} (h : StoresWf s) :
    getRing (setRing s n v) d = if d = n then v else getRing s d := tget_tput h.rings

theorem getNbu_setNbu {b d : Nat} {v : Nbu} (h : StoresWf s) :
    getNbu (setNbu s b v) d = if d = b then v else getNbu s d := tget_tput h.nbus

/-- Contexts of four queues and eight contexts have keys of their own. -/
theorem ctxKey_inj {c q x d p y : Nat} (hq : q < 4) (hp : p < 4) (hx : x < 8) (hy : y < 8) :
    ctxKey c q x = ctxKey d p y ↔ c = d ∧ q = p ∧ x = y := by unfold ctxKey; omega

theorem getCtx_setCtx {c q x d p y : Nat} {v : QCtx} (h : StoresWf s) (hq : q < 4) (hp : p < 4) (hx : x < 8) (hy : y < 8) :
    getCtx (setCtx s c q x v) d p y = if d = c ∧ p = q ∧ y = x then v else getCtx s d p y := by
  refine (tget_tput h.ctxs).trans ?_
  simp only [ctxKey_inj hp hq hy hx]; rfl

theorem getX_setX {c x r d y j : Nat} {v : Word} (h : StoresWf s) (hx : x < 8) (hy : y < 8) (hr : r < 32) (hj : j < 32) :
    getX (setX s c x r v) d y j = if d = c ∧ y = x ∧ j = r then v else getX s d y j := by
  refine (tget_tput h.xs).trans ?_
  have e : (d * 8 + y) * 32 + j = (c * 8 + x) * 32 + r ↔ d = c ∧ y = x ∧ j = r := by omega
  simp only [e]; rfl

theorem getAr_setAr {c q x r d p y j : Nat} {v : AReg} (h : StoresWf s) (hq : q < 4) (hp : p < 4) (hx : x < 8) (hy : y < 8)
    (hr : r < 16) (hj : j < 16) :
    getAr (setAr s c q x r v) d p y j = if d = c ∧ p = q ∧ y = x ∧ j = r then v else getAr s d p y j := by
  refine (tget_tput h.ars).trans ?_
  have e : ctxKey d p y * 16 + j = ctxKey c q x * 16 + r ↔ d = c ∧ p = q ∧ y = x ∧ j = r := by unfold ctxKey; omega
  simp only [e]; rfl

theorem getFlag_setFlag {c f d j : Nat} {v : BitVec 16} (h : StoresWf s) (hf : f < 256) (hj : j < 256) :
    getFlag (setFlag s c f v) d j = if d = c ∧ j = f then v else getFlag s d j := by
  refine (tget_tput h.flags).trans ?_
  have e : d * 256 + j = c * 256 + f ↔ d = c ∧ j = f := by omega
  simp only [e]; rfl

theorem getTally_setTally {u n d j : Nat} {v : BitVec 48} (h : StoresWf s) (hn : n < 64) (hj : j < 64) :
    getTally (setTally s u n v) d j = if d = u ∧ j = n then v else getTally s d j := by
  refine (tget_tput h.tallies).trans ?_
  have e : d * 64 + j = u * 64 + n ↔ d = u ∧ j = n := by omega
  simp only [e]; rfl

theorem rput_none {gr : Config.Grade} {d : Word} {t : Tab Word} {lo i : Nat} (h : regsWfFrom gr lo t = true) (hi : i < lo) :
    tget d t i = d := by
  induction t generalizing lo with
  | nil => rfl
  | cons p t ih =>
    obtain ⟨k, v⟩ := p
    simp only [regsWfFrom, Bool.and_eq_true, decide_eq_true_eq] at h
    unfold tget
    rw [if_neg (by omega), if_pos (by omega)]

theorem rget_rset_from {gr : Config.Grade} {d e : Word} {t : Tab Word} {lo i j : Nat} {x : Word} (h : regsWfFrom gr lo t = true)
    (he : i = j → e = d) : tget d (tput e t i x) j = if j = i then x else tget d t j := by
  induction t generalizing lo with
  | nil =>
    unfold tput
    by_cases c : j = i
    · subst c; have := he rfl; subst this; by_cases c : x = e <;> simp [c, tget]
    · by_cases c' : x = e <;> simp [c, c', tget]
  | cons p t ih =>
    obtain ⟨k, v⟩ := p
    simp only [regsWfFrom, Bool.and_eq_true, decide_eq_true_eq] at h
    unfold tput
    by_cases c1 : i < k
    · rw [if_pos c1]
      by_cases c2 : x = e
      · rw [if_pos c2]
        by_cases c : j = i
        · subst c; rw [if_pos rfl]; have := he rfl; subst this
          unfold tget; rw [if_neg (by omega), if_pos c1, c2]
        · rw [if_neg c]
      · rw [if_neg c2]
        conv => lhs; unfold tget
        by_cases c : j = i
        · rw [if_pos c, if_pos c]
        · rw [if_neg c, if_neg c]
          by_cases c3 : j < i
          · rw [if_pos c3]; unfold tget; rw [if_neg (by omega), if_pos (by omega)]
          · rw [if_neg c3]
    · rw [if_neg c1]
      by_cases c2 : i = k
      · rw [if_pos c2]
        by_cases c3 : x = e
        · rw [if_pos c3]
          by_cases c : j = i
          · rw [if_pos c]; have := he c.symm; subst this
            rw [c3]; exact rput_none h.2 (by omega)
          · rw [if_neg c]
            conv => rhs; unfold tget
            rw [if_neg (by omega)]
            by_cases c4 : j < k
            · rw [if_pos c4]; exact rput_none h.2 (by omega)
            · rw [if_neg c4]
        · rw [if_neg c3]
          conv => lhs; unfold tget
          by_cases c : j = i
          · rw [if_pos c, if_pos c]
          · rw [if_neg c, if_neg c]
            conv => rhs; unfold tget
            rw [if_neg (by omega : ¬j = k), c2]
      · rw [if_neg c2]
        unfold tget
        by_cases c : j = k
        · rw [if_pos c, if_pos c, if_neg (by omega)]
        · rw [if_neg c, if_neg c]
          by_cases c4 : j < k
          · rw [if_pos c4, if_pos c4, if_neg (by omega)]
          · rw [if_neg c4, if_neg c4, ih h.2]

/-- A stored register reads as written, and no other changes. -/
theorem rget_rset {a b : Nat} {v : Word} (h : StoresWf s) : rget (rset s a v) b = if b = a then v else rget s b :=
  rget_rset_from h.regs fun e => e ▸ rfl

end Sys2Proof.Machine
end

