-- ==== Sys2Proof/Laws/Rows.lean ====
section
/-! SUPPORT. What each shared row operation answers where it goes through: one lemma for each, so that a statement about
a command unfolds the command's own words only. -/

set_option Elab.async false

namespace Sys2Proof.Machine

/-- A slot's command that begins, and whose own check passes, acts on the state after its issue. -/
theorem beginAt_next {op q : Nat} {bad : State → Slot → Option Nat} {go : Slot → State → State} {s : State} {t : Slot}
    (h : opcode t.cmd = op) (hh : headerBad q t.cmd = false) (hb : bad (slotBegin s t) t = none) :
    beginAt op q bad go (some t) s = .next (go t (slotBegin s t)) := by
  unfold beginAt
  simp only [h, hh, hb]
  simp

/-- A slot's command whose own check passes acts on the state after its issue. -/
theorem beginOp_next {op q : Nat} {bad : State → Slot → Option Nat} {go : Slot → State → State} {c : Nat} {s : State} {t : Slot}
    (h : Acts s c q op t) (hb : bad (slotBegin s t) t = none) : beginOp op q bad go c s = .next (go t (slotBegin s t)) := by
  unfold beginOp onCore
  rw [if_pos h.core, if_neg (by have := h.queue; omega), h.slot, beginAt_next h.op h.header hb]

/-- A scalar command that is well formed and ready, has a repeat to do, and whose registers have good parity, acts. -/
theorem scRow_next {op : Nat} {bad : Slot → Bool} {ready : State → Slot → Bool} {regs : Cmd → List Nat} {go : Slot → State → State}
    {c : Nat} {s : State} {t : Slot} (h : ScActs s c op t) (hb : bad t = false) (hr : ready s t = true)
    (h0 : total t.cmd ≠ 0) (hx : XClean (slotBegin s t) t.w) :
    scRow op bad ready regs go c s = .next (go t (slotBegin s t)) := by
  unfold scRow onCore
  rw [if_pos h.core, h.slot]
  dsimp only
  rw [if_neg (by simp [hr, h.signal]), beginAt_next h.op h.header (by simp [hb, fmtIf])]
  rw [if_neg h0, if_pos]
  rw [List.isEmpty_iff, List.filter_eq_nil_iff]
  intro r _
  rw [hx r]
  simp

/-- A running engine command whose one repeat goes through. -/
theorem engineRow_done {e : EngRow} {s u : State} {x inc : Nat} {r : Run} (hr : EngRuns e s x r) (hn : e.n = 1)
    (hrep : e.eng.rep s (whoOf s e.core e.q x) r.cmd r = .done u inc) :
    engineRow e.eng e.q e.op e.it e.core e.n s = .next (engDone e (whoOf s e.core e.q x) u r inc) := by
  have hrun : (getCtx s (whoOf s e.core e.q x).core (whoOf s e.core e.q x).q (whoOf s e.core e.q x).ctx).run = some r := hr.run
  unfold engineRow onCore engDone
  rw [if_pos hr.core, hr.cur]
  dsimp only
  rw [hr.going.2, hr.run, hn]
  simp only [hr.cmd.1, hr.cmd.2.1, hr.cmd.2.2, hr.rate, Bool.false_eq_true, if_false, Bool.not_false, and_self, if_true]
  unfold repeats
  rw [hrun]
  dsimp only
  rw [hrep]
  dsimp only
  split
  · rfl
  · unfold repeats; split <;> rfl

/-- A running engine command whose repeat faults. -/
theorem engineRow_fault {e : EngRow} {s u : State} {x st inc : Nat} {r : Run} (hr : EngRuns e s x r) (hn : e.n = 1)
    (hrep : e.eng.rep s (whoOf s e.core e.q x) r.cmd r = .fault u st inc) :
    engineRow e.eng e.q e.op e.it e.core e.n s =
      .next (faultCmd u (whoOf s e.core e.q x) r.cmd (cTag r.cmd) st (r.pos % max 1 (cInner r.cmd))
        (r.pos / max 1 (cInner r.cmd)) (r.count + inc)) := by
  have hrun : (getCtx s (whoOf s e.core e.q x).core (whoOf s e.core e.q x).q (whoOf s e.core e.q x).ctx).run = some r := hr.run
  unfold engineRow onCore
  rw [if_pos hr.core, hr.cur]
  dsimp only
  rw [hr.going.2, hr.run, hn]
  simp only [hr.cmd.1, hr.cmd.2.1, hr.cmd.2.2, hr.rate, Bool.false_eq_true, if_false, Bool.not_false, and_self, if_true]
  unfold repeats
  rw [hrun]
  dsimp only
  rw [hrep]

/-- A next engine command that passes its checks issues. -/
theorem engineRow_issue {e : EngRow} {s : State} {x : Nat} {m : Cmd} (hm : EngNext e s x m)
    (h2 : (getCtx s e.core e.q x).suspended = false) :
    engineRow e.eng e.q e.op e.it e.core e.n s =
      .next (if total m = 0 ∨ e.eng.zero m = true
        then endCmd (issue s (whoOf s e.core e.q x) m) (whoOf s e.core e.q x) m (cTag m) stOk 0 0 0
        else repeats e.eng (whoOf s e.core e.q x) e.n (issue s (whoOf s e.core e.q x) m)) := by
  unfold engineRow onCore
  rw [if_pos hm.core, hm.cur]
  dsimp only
  rw [h2, hm.idle, hm.front]
  simp only [hm.cmd.1, hm.cmd.2.1, hm.cmd.2.2, hm.may, hm.check]
  simp
  split <;> rfl

/-- An in-bank instruction that fits into the bout, and that no active bank refuses. -/
theorem nbuIssue_next {op g : Nat} {fx : State → NCtx → Nat → Fx} {next : State → NCtx → State} {s : State} {n : NCtx}
    (h : NbuRuns s g op fx n) : nbuIssue op fx next g s = .next (match (nbuAll s g fx n).2 with
      | none => next (nbuAll s g fx n).1 n
      | some b => nbuFault (nbuAll s g fx n).1 n b.1 stUncorr b.2) := by
  have hc := h.clear
  unfold nbuIssue
  rw [h.chan, h.stands]
  dsimp only
  rw [if_neg (by simp), if_neg (by simp [h.op]), if_neg (by simp [h.fits])]
  have b1 : ((activeBanks n).map fun b => (b, fx s n b)).find?
      (fun p => p.2.need.any needBad || p.2.ragged || tapOver n p.1 p.2) = none := by
    rw [List.find?_eq_none]
    intro p hp
    have := List.all_eq_true.mp hc p hp
    simp only [Bool.and_eq_true, Bool.not_eq_true'] at this
    simp [this.1.1.1, this.1.1.2, this.1.2]
  have b2 : ((activeBanks n).map fun b => (b, fx s n b)).find? (fun p => p.2.palette) = none := by
    rw [List.find?_eq_none]
    intro p hp
    have := List.all_eq_true.mp hc p hp
    simp only [Bool.and_eq_true, Bool.not_eq_true'] at this
    simp [this.2]
  rw [b1, b2]
  dsimp only
  generalize nbuAll s g fx n = r
  cases r.2 <;> rfl

/-- An instruction that reads no register and no data and writes nothing meets no fault of R149. -/
theorem bankDo_plain {s : State} {n : NCtx} {b : Nat} {fx : Fx} (hr : readsRegs n.i = false) (h : fx.reads = []) (hw : fx.writes = false) :
    (bankDo s n b fx).2 = none := by
  have e : (eccTouch s { path := 3, tag := n.l.tag, core := n.l.core, ring := n.l.ring } []).2 = none := by
    unfold eccTouch; split <;> rfl
  unfold bankDo
  simp only [hr, h, hw, List.flatMap_nil, e, Bool.false_and, Bool.false_eq_true, if_false]

/-- The front command of a service ring that ends where it is served. -/
theorem svcRow_done {tgt op n st c : Nat} {bad : Cmd → Bool} {go : State → Svc → SvcOut} {s s' t : State} {k : Cmd}
    (h : Serves s s' n tgt op k) (hb : bad k = false) (hg : go s' (svcOf s' n k) = .done t st c) :
    svcRow tgt op bad go n s = .next (svcAnswer t n k st c) := by
  obtain ⟨bs, hl, rfl⟩ := h.line
  unfold svcRow
  rw [if_neg (by simp [h.target, h.ready]), hl]
  dsimp only
  rw [if_neg (by simp [h.op]), if_neg (by simp [h.header, hb])]
  unfold svcOf at hg
  rw [hg]
  rfl

/-- The front command of a service ring that is accepted. -/
theorem svcRow_accept {tgt op n : Nat} {bad : Cmd → Bool} {go : State → Svc → SvcOut} {s s' t : State} {k : Cmd} {f : State → Nat → State}
    (h : Serves s s' n tgt op k) (hb : bad k = false) (hg : go s' (svcOf s' n k) = .accept t f) :
    svcRow tgt op bad go n s = .next (f (svcTaken t n k).1 (svcTaken t n k).2) := by
  obtain ⟨bs, hl, rfl⟩ := h.line
  unfold svcRow
  rw [if_neg (by simp [h.target, h.ready]), hl]
  dsimp only
  rw [if_neg (by simp [h.op]), if_neg (by simp [h.header, hb])]
  unfold svcOf at hg
  rw [hg]
  rfl

/-- The number in the first n bytes of a number. -/
theorem leNat_leBytes {n x : Nat} : leNat (leBytes n x) = x % 256 ^ n := by
  induction n generalizing x with
  | zero => simp [leBytes, leNat, Nat.mod_one]
  | succ n ih =>
    have h : leNat (leBytes (n + 1) x) = (BitVec.ofNat 8 x).toNat + 256 * leNat (leBytes n (x / 256)) := rfl
    have e : (BitVec.ofNat 8 x).toNat = x % 256 := BitVec.toNat_ofNat ..
    rw [h, e, ih, Nat.pow_succ', Nat.mod_mul]

theorem leBytes_length {n x : Nat} : (leBytes n x).length = n := by
  induction n generalizing x with
  | zero => rfl
  | succ n ih => simp [leBytes, ih]

/-- A register write of the host that is let through. -/
theorem regRow_next {fn a size : Nat} {v : Word} {s : State} (h : HostWrites s fn a size) :
    regRow fn a size v s = .next (regStore s { fn := fn, host := true } a size (BitVec.ofNat 64 (v.toNat % 256 ^ size))) := by
  unfold regRow execHostWrite
  rw [if_neg (by simpa using h.fn_ok), if_neg (by simp [h.link])]
  dsimp only
  rw [leBytes_length, h.gate]
  dsimp only
  rw [if_neg (by simp), if_neg (by simp [h.free]), leNat_leBytes]

end Sys2Proof.Machine
end

