-- ==== Sys2Proof/Tests/Slice0.lean ====
section
/-! SUPPORT. Tests of the model: ill-formed commands, the spec's worked examples, and for every statement with hypotheses
a concrete state and operands that meet them. -/

set_option Elab.async false

namespace Sys2Proof.Tests

open Sys2Proof.Machine

/-! ## Well-formedness: each check refuses an ill-formed command and passes the last well-formed one -/

theorem test_wf_core : (Instr.mma 192 1).wellFormed .f = false ∧ (Instr.mma 191 1).wellFormed .f = true ∧
    (Instr.mma 160 1).wellFormed .e = false := by decide
theorem test_wf_queue : (Instr.nop 0 4).wellFormed .f = false ∧ (Instr.nop 0 3).wellFormed .f = true := by decide
theorem test_wf_channel : (Instr.ldw 384).wellFormed .f = false ∧ (Instr.ldw 383).wellFormed .f = true := by decide
theorem test_wf_bank : (Instr.migrationStart 12288).wellFormed .f = false ∧ (Instr.spareSwitch 12287).wellFormed .f = true := by decide
theorem test_wf_stack : (Instr.capAdmit 12).wellFormed .f = false ∧ (Instr.repair 11).wellFormed .f = true := by decide
theorem test_wf_ring : (Instr.ringSuspend 65536).wellFormed .f = false ∧ (Instr.secRevokeKey 65535).wellFormed .f = true := by decide
theorem test_wf_function : (Instr.flr 17).wellFormed .f = false ∧ (Instr.flr 16).wellFormed .f = true := by decide
theorem test_wf_fold : (Instr.foldForm 0 16 0).wellFormed .f = false ∧ (Instr.foldRelease 0 15 0).wellFormed .f = true := by decide
theorem test_wf_regulator : (Instr.regulatorRelease 0 6 0).wellFormed .f = false ∧
    (Instr.regulatorRelease 15 5 11).wellFormed .f = true := by decide
theorem test_wf_link : (Instr.linkDown 32).wellFormed .f = false ∧ (Instr.laneDrop 31 4).wellFormed .f = false ∧
    (Instr.laneDrop 31 3).wellFormed .f = true := by decide
theorem test_wf_device : (Instr.memberMissing 64).wellFormed .f = false ∧ (Instr.memberMissing 63).wellFormed .f = true := by decide
theorem test_wf_model : (Instr.stepBoundary 256).wellFormed .f = false ∧ (Instr.stepTimeout 255).wellFormed .f = true := by decide
theorem test_wf_request : (Instr.parkImageDone 131072).wellFormed .f = false ∧
    (Instr.parkImageDone 131071).wellFormed .f = true := by decide
theorem test_wf_tally : (Instr.tallyAdd 0 204 0 0).wellFormed .f = false ∧ (Instr.tallyAdd 0 0 64 0).wellFormed .f = false ∧
    (Instr.tallySet 0 203 63 0).wellFormed .f = true := by decide
theorem test_wf_access : (Instr.ordinaryAccess 0 { addr := blinBase + 0x5FFFFFF, len := 2, write := false }).wellFormed .f = false ∧
    (Instr.ordinaryAccess 0 { addr := blinBase + 0x5FFFFFE, len := 2, write := false }).wellFormed .f = true ∧
    (Instr.ordinaryAccess 0 { addr := blinBase, len := 2, write := false, ask := some 1 }).wellFormed .f = false ∧
    (Instr.ordinaryAccess 0 { addr := blinBase + 4, len := 8, write := true, kind := .atomic 0 true 1 0 }).wellFormed .f = false := by decide +kernel
theorem test_wf_graze : (Instr.grazeVisit 0).wellFormed .f = false ∧ (Instr.grazeVisit cmnBase).wellFormed .f = true := by decide +kernel
theorem test_wf_cap : (Instr.capUpdate 0 64).wellFormed .f = false ∧ (Instr.capUpdate 11 63).wellFormed .f = true := by decide
theorem test_wf_granule : (Instr.spdCeWriteback 0 0xC0000).wellFormed .f = false ∧
    (Instr.spdCeWriteback 0 0xBFFFF).wellFormed .f = true := by decide
theorem test_wf_flip : (Instr.flipArm 0 576 0).wellFormed .f = false ∧ (Instr.flipArm 0 575 0).wellFormed .f = true := by decide
theorem test_wf_topology : (Instr.fabricBringup 3 [] []).wellFormed .f = false ∧ (Instr.fabricBringup 2 [] []).wellFormed .f = true := by decide
theorem test_wf_bar : (Instr.hostRead 0 1 0 4).wellFormed .f = false ∧ (Instr.hostRead 0 2 0 4).wellFormed .f = true := by decide
theorem test_wf_atomic : (Instr.hostAtomicop 0 2 0 3 4 0 0).wellFormed .f = false ∧
    (Instr.hostAtomicop 0 2 0 2 4 0 0).wellFormed .f = true := by decide
theorem test_wf_window : (Instr.hifWinWrite 0 17 0 0).wellFormed .f = false ∧ (Instr.hifWinWrite 0 0 16 0).wellFormed .f = false ∧
    (Instr.hifWinWrite 0 16 15 0).wellFormed .f = true := by decide
theorem test_wf_resize : (Instr.bar2Resize 0 42).wellFormed .f = false ∧ (Instr.bar2Resize 0 27).wellFormed .f = false ∧
    (Instr.bar2Resize 0 41).wellFormed .f = true := by decide
theorem test_wf_vector : (Instr.msixUnmask 0 2048).wellFormed .f = false ∧ (Instr.msixUnmask 0 2047).wellFormed .f = true := by decide
theorem test_wf_ide : (Instr.ideKeyProg 18 true).wellFormed .f = false ∧ (Instr.ideKeyProg 17 true).wellFormed .f = true := by decide
theorem test_wf_tdi : (Instr.tdiError 0).wellFormed .f = false ∧ (Instr.tdispRequest 16 .locked).wellFormed .f = true := by decide
theorem test_wf_sample : (Instr.powerSample 65536).wellFormed .f = false ∧ (Instr.powerSample 65535).wellFormed .f = true := by decide
theorem test_wf_temps : (Instr.thermtripRelease []).wellFormed .f = false ∧
    (Instr.thermalUpdate (List.replicate 15 (0, 0)) (List.replicate 15 0)).wellFormed .f = true ∧
    (Instr.thermalCalibrate [(15, 0, 0)]).wellFormed .f = false := by decide
theorem test_wf_body : (Instr.analogTrip 15).wellFormed .f = false ∧ (Instr.analogTrip 14).wellFormed .f = true := by decide
theorem test_wf_reset : (Instr.coldReset 64 0 true true []).wellFormed .f = false ∧
    (Instr.warmReset true 63 4 true true []).wellFormed .f = false ∧ (Instr.coldReset 63 3 true true []).wellFormed .f = true := by decide
theorem test_wf_register : (Instr.registerWrite 0 csrEnd 8 0).wellFormed .f = false ∧
    (Instr.registerWrite 0 csrBase 8 0).wellFormed .f = true := by decide
theorem test_wf_width : (Instr.pcieLinkUp 0 16 true).wellFormed .f = false ∧ (Instr.pcieLinkUp 7 2 true).wellFormed .f = false ∧
    (Instr.pcieLinkUp 7 16 true).wellFormed .f = true := by decide
theorem test_wf_vfs : (Instr.vfEnable 17).wellFormed .f = false ∧ (Instr.vfEnable 16).wellFormed .f = true := by decide
theorem test_wf_i3c : (Instr.i3cDynamicAddressAssignment 128).wellFormed .f = false ∧
    (Instr.i3cDynamicAddressAssignment 127).wellFormed .f = true := by decide
theorem test_no_words : decodeTableWord 64 0 = none ∧ (State.reset.withFetchWord 64 0).pending = [] := by decide

/-! ## States the witnesses share -/

/-- A word with x at bit k. -/
def at_ (x k : Nat) : Word := BitVec.ofNat 64 (x * 2 ^ k)

/-- READY on a part of grade F. Ring 0 is enabled, of one core, with 16 slots in its areas; fold 0 has all cores, channels, rings 0 to
3 and hub tallies, and is active. -/
def live : State := { State.reset with
  boot := { state := 4, step := 8 }
  regs := [(ringReg 0 0, 1), (ringReg 0 1, at_ 4 56 ||| 0x1000), (ringReg 0 2, at_ 4 56 ||| 0x2000), (ringReg 0 3, at_ 1 8),
    (fldReg 0 0x00, 3), (fldReg 0 0x08, -1), (fldReg 0 0x10, -1), (fldReg 0 0x18, -1), (fldReg 0 0x20, -1), (fldReg 0 0x28, -1),
    (fldReg 0 0x30, -1), (fldReg 0 0x38, -1), (fldReg 0 0x40, at_ 4 16), (fldReg 0 0x50, -1)]
  rings := [(0, { state := 1, fetch := [0], tail := [0], halted := [false], suspended := [false], saved := [none] })] }

/-- Core 0 with context 1, of ring 0, in queue q: running r, with the commands m next. -/
def queue (q : Nat) (r : Option Run) (m : List Cmd) : State := { live with
  cores := [(0, { cur := lset [none, none, none, none] q (some 1) })]
  ctxs := [(ctxKey 0 q 1, { bound := true, run := r, buf := m })] }

/-- Word 0 of a command: opcode and engine. -/
def w0 (op q : Nat) : Word := BitVec.ofNat 64 (op + q * 256)

/-- INNER 1, OUTER 1. -/
def once : Word := at_ 1 24 ||| at_ 1 44

/-- The slot of the front command m of queue q. -/
def slot (q : Nat) (m : Cmd) : Slot := { w := whoOf (queue q none [m]) 0 q 1, cmd := m, blk := false }

/-- The same state held at m. -/
def heldAt (q : Nat) (m : Cmd) (aux : Nat) : State := queue q (some { cmd := m, held := true, aux := aux }) []

theorem acts {q op : Nat} {m : Cmd} (h : (decide (q < 4) && decide (slotOf (queue q none [m]) 0 q = some (slot q m)) && opcode m == op &&
    !(headerBad q m)) = true) : Acts (queue q none [m]) 0 q op (slot q m) := by
  simp only [Bool.and_eq_true, decide_eq_true_eq, beq_iff_eq, Bool.not_eq_true'] at h
  exact ⟨rfl, h.1.1.1, h.1.1.2, h.1.2, h.2⟩

theorem held {q op aux : Nat} {m : Cmd} (h : (decide (heldOf (heldAt q m aux) 0 q =
    some ({ w := whoOf (heldAt q m aux) 0 q 1, cmd := m, blk := false }, { cmd := m, held := true, aux := aux })) && opcode m == op) = true) :
    Held (heldAt q m aux) 0 q op { w := whoOf (heldAt q m aux) 0 q 1, cmd := m, blk := false } { cmd := m, held := true, aux := aux } := by
  simp only [Bool.and_eq_true, decide_eq_true_eq, beq_iff_eq] at h
  exact ⟨rfl, h.1, h.2⟩

/-! ## The block and its queue -/

theorem reset_inv : Inv State.reset := by
  refine ⟨⟨?_, ?_, ?_, ?_, ?_, ?_, ?_, ?_, ?_, ?_, ?_, ?_, ?_, ?_, ?_, ?_, ?_, ?_⟩, ?_, ?_⟩ <;> decide

theorem live_inv : Inv live := by
  refine ⟨⟨?_, ?_, ?_, ?_, ?_, ?_, ?_, ?_, ?_, ?_, ?_, ?_, ?_, ?_, ?_, ?_, ?_, ?_⟩, ?_, ?_⟩ <;> decide +kernel

theorem witness_IdleStepIsOneTick : ∃ s : State, s.pending = [] ∧ (∀ x ∈ s.folds.fills, s.time + 1 < x.due) ∧ s.folds.fills ≠ [] :=
  ⟨{ State.reset with folds := { fills := [{ fold := 2, again := true, due := 2, cfg := [] }] } }, rfl, by decide, by decide⟩

theorem witness_SoundStateIsKept : ∃ s t, Inv s ∧ s.pending ≠ [] ∧ step s = .next t :=
  ⟨{ live with pending := [.refresh 383] }, live, ⟨{ live_inv.stores with }, live_inv.boot, live_inv.rails⟩, by decide, rfl⟩

theorem witness_WellFormedCommandsRun : (Instr.mma 191 0).wellFormed live.grade = true ∧ (Instr.mma 192 0).wellFormed live.grade = false := by
  decide

theorem witness_CommandsLeaveQueueFusesAndTime : ∃ t, exec (.tsvRemap 383) live = .next t ∧ t ≠ live := by
  refine ⟨_, rfl, ?_⟩; decide +kernel

theorem witness_LifeLogOnlyGrows : ∃ t, exec (.tsvRemap 0) live = .next t ∧ t.life.recs.length = 1 ∧
    (t.life.held.filter fun r => logPermanent r.kind).length = 1 := by
  refine ⟨_, rfl, ?_⟩; decide +kernel

/-! ## Engine queues -/

/-- ACC.INIT of entry e with IMODE zero, FP32. -/
def aiCmd (e : Nat) : Cmd := { w0 := w0 0x03 0, w1 := once, w2 := at_ e 16 ||| 0x1A }

/-- It runs. -/
def aiRun (e : Nat) : Run := { cmd := aiCmd e }

theorem isDone {o : RepOut} (h : (match o with | .done _ _ => true | _ => false) = true) : ∃ u inc, o = .done u inc := by
  cases o <;> simp at h; exact ⟨_, _, rfl⟩

theorem isFault {o : RepOut} (h : (match o with | .fault _ _ _ => true | _ => false) = true) : ∃ u st inc, o = .fault u st inc := by
  cases o <;> simp at h; exact ⟨_, _, _, rfl⟩

theorem witness_EngineRepeatRuns : ∃ (i : Instr) (e : EngRow) (s u : State) (x inc : Nat) (r : Run),
    engRow i = some e ∧ EngRuns e s x r ∧ e.n = 1 ∧ e.eng.rep s (whoOf s e.core e.q x) r.cmd r = .done u inc :=
  have ⟨u, inc, h⟩ := isDone (o := aiEng.rep (queue 0 (some (aiRun 59)) []) (whoOf (queue 0 (some (aiRun 59)) []) 0 0 1) (aiCmd 59) (aiRun 59))
    (by decide +kernel)
  ⟨.accInit 0 1, _, queue 0 (some (aiRun 59)) [], u, 1, inc, aiRun 59, rfl,
   ⟨by decide +kernel, by decide +kernel, by decide +kernel, by decide +kernel, by decide +kernel, by decide +kernel⟩, rfl, h⟩

theorem witness_EngineCommandIssues : ∃ (i : Instr) (e : EngRow) (s : State) (x : Nat) (m : Cmd),
    engRow i = some e ∧ EngNext e s x m ∧ (getCtx s e.core e.q x).halted = false ∧ (getCtx s e.core e.q x).suspended = false :=
  ⟨.accInit 0 1, _, queue 0 none [aiCmd 0], 1, aiCmd 0, rfl,
   ⟨by decide +kernel, by decide +kernel, by decide +kernel, by decide +kernel, by decide +kernel, by decide +kernel, by decide +kernel⟩,
   by decide +kernel, by decide +kernel⟩

theorem witness_EngineRepeatRuns_fault : ∃ (i : Instr) (e : EngRow) (s u : State) (x st inc : Nat) (r : Run),
    engRow i = some e ∧ EngRuns e s x r ∧ e.n = 1 ∧ e.eng.rep s (whoOf s e.core e.q x) r.cmd r = .fault u st inc :=
  have ⟨u, st, inc, h⟩ := isFault (o := aiEng.rep (queue 0 (some (aiRun 60)) []) (whoOf (queue 0 (some (aiRun 60)) []) 0 0 1) (aiCmd 60) (aiRun 60))
    (by decide +kernel)
  ⟨.accInit 0 1, _, queue 0 (some (aiRun 60)) [], u, 1, st, inc, aiRun 60, rfl,
   ⟨by decide +kernel, by decide +kernel, by decide +kernel, by decide +kernel, by decide +kernel, by decide +kernel⟩, rfl, h⟩

theorem witness_AccInitZeroesEntry : ∃ (s : State) (w : Who) (k : Cmd) (r : Run), StoresWf s ∧
    entryAt w.ctx (mmaEntry k) r.pos = none ∧ aiZero k = true :=
  ⟨live, whoOf live 0 0 1, aiCmd 59, aiRun 59, live_inv.stores, by decide +kernel, by decide +kernel⟩

theorem live_whole : Whole live := ⟨by decide +kernel, by decide +kernel, by decide +kernel⟩

/-- Core 0 runs m in queue q, whose address registers name an empty place of its scratchpad. -/
def engine (q : Nat) (m : Cmd) : State := { queue q (some { cmd := m }) [] with
  ars := [(ctxKey 0 q 1 * 16, { origin := BitVec.ofNat 56 (spdBase + 0x10000), whi := -1 })] }

theorem engine_whole (q : Nat) (m : Cmd) : Whole (engine q m) := ⟨rfl, live_whole.chans, live_whole.cores⟩

/-- Its stores are canonical. -/
theorem engine_wf {q : Nat} {m : Cmd} (h : (twf {} (engine q m).ctxs && twf {} (engine q m).ars && twf {} (engine q m).cores) = true) :
    StoresWf (engine q m) := by
  simp only [Bool.and_eq_true] at h
  exact { live_inv.stores with ctxs := h.1.1, ars := h.1.2, cores := h.2 }

/-- Row e's command r runs in context x. -/
def engOk (e : EngRow) (s : State) (x : Nat) (r : Run) : Bool :=
  coreOk s e.core && decide (curCtx s e.core e.q = some x) && !(getCtx s e.core e.q x).halted && !(getCtx s e.core e.q x).suspended &&
    decide ((getCtx s e.core e.q x).run = some r) && opcode r.cmd == e.op && e.it r.cmd && !r.held && !(rests s e.core e.q)

theorem engRuns {i : Instr} {s : State} {x : Nat} {r : Run} (h : (engRow i).any (fun e => engOk e s x r) = true) :
    ∃ e, engRow i = some e ∧ EngRuns e s x r := by
  obtain ⟨e, h1, h2⟩ := Option.any_eq_true _ _ |>.mp h
  simp only [engOk, Bool.and_eq_true, decide_eq_true_eq, Bool.not_eq_true', beq_iff_eq] at h2
  exact ⟨e, h1, ⟨h2.1.1.1.1.1.1.1.1, h2.1.1.1.1.1.1.1.2, ⟨h2.1.1.1.1.1.1.2, h2.1.1.1.1.1.2⟩, h2.1.1.1.1.2, ⟨h2.1.1.1.2, h2.1.1.2, h2.1.2⟩, h2.2⟩⟩

/-! Witnesses of MatrixRepeatsComplete, one per clause. -/

/-- MMA of two FP8 k-steps into entry 59. -/
def mmaCmd : Cmd := { w0 := w0 0x01 0, w1 := once, w2 := at_ 1 12 ||| at_ 59 16 ||| at_ 2 32, w3 := at_ 128 0 ||| at_ 128 32 }

theorem witness_mma : StoresWf (engine 0 mmaCmd) ∧ Whole (engine 0 mmaCmd) ∧ (engine 0 mmaCmd).parAcc = [] ∧
    pairing (mmaA mmaCmd) (mmaB mmaCmd) (mmaAmx mmaCmd) (mmaBmx mmaCmd) = some .one ∧ mmaInit mmaCmd = true ∧
    (let s := engine 0 mmaCmd
     let w := whoOf s 0 0 1
     checkRanges s w (opndRngs s w mmaCmd (mmaKlen mmaCmd) (mmaOpA mmaCmd) ++ opndRngs s w mmaCmd (mmaKlen mmaCmd) (mmaOpB mmaCmd)) = none ∧
     opndCheck s w mmaCmd (mmaKlen mmaCmd) (mmaOpA mmaCmd) (mmaOpB mmaCmd) = none ∧ palPending s 0 = none ∧
     ∀ v ∈ (readPort s w mmaCmd (mmaKlen mmaCmd) (mmaOpA mmaCmd)).reads ++ (readPort s w mmaCmd (mmaKlen mmaCmd) (mmaOpB mmaCmd)).reads,
       v.2.2 = false) ∧
    ∃ e, engRow (.mma 0 1) = some e ∧ EngRuns e (engine 0 mmaCmd) 1 { cmd := mmaCmd } :=
  ⟨engine_wf (by decide +kernel), engine_whole _ _, rfl, by decide +kernel, by decide +kernel, by decide +kernel, engRuns (by decide +kernel)⟩

/-- MMA.SLICE of four slices and one k-step into the entries from 0 on. -/
def sliceCmd : Cmd := { w0 := w0 0x02 0, w1 := once, w2 := 4 ||| at_ 1 12 ||| at_ 1 32, w4 := at_ 128 0 ||| at_ 128 32 }

theorem witness_mmaSlice : StoresWf (engine 0 sliceCmd) ∧ Whole (engine 0 sliceCmd) ∧ (engine 0 sliceCmd).parAcc = [] ∧ mmaInit sliceCmd = true ∧
    pairCount (slS sliceCmd) = 10 ∧ checkRanges (engine 0 sliceCmd) (whoOf (engine 0 sliceCmd) 0 0 1) (slRngs (engine 0 sliceCmd) (whoOf (engine 0 sliceCmd) 0 0 1) sliceCmd) = none ∧
    ∃ e, engRow (.mmaSlice 0 1) = some e ∧ EngRuns e (engine 0 sliceCmd) 1 { cmd := sliceCmd } :=
  ⟨engine_wf (by decide +kernel), engine_whole _ _, rfl, by decide +kernel, by decide +kernel, by decide +kernel, engRuns (by decide +kernel)⟩

/-- ACC.INIT of entry 59 from FP32 rows. -/
def loadCmd : Cmd := { w0 := w0 0x03 0, w1 := once, w2 := 0xA ||| at_ 59 16 ||| at_ 512 32 }

theorem witness_accInit : StoresWf (engine 0 loadCmd) ∧ Whole (engine 0 loadCmd) ∧ (engine 0 loadCmd).parAcc = [] ∧
    entryAt 1 (mmaEntry loadCmd) 0 = none ∧ aiZero loadCmd = false ∧
    checkRanges (engine 0 loadCmd) (whoOf (engine 0 loadCmd) 0 0 1) [aiRng (engine 0 loadCmd) (whoOf (engine 0 loadCmd) 0 0 1) loadCmd] = none ∧
    ∃ e, engRow (.accInit 0 1) = some e ∧ EngRuns e (engine 0 loadCmd) 1 { cmd := loadCmd } :=
  ⟨engine_wf (by decide +kernel), engine_whole _ _, rfl, by decide +kernel, by decide +kernel, by decide +kernel, engRuns (by decide +kernel)⟩

/-- ACC.DRAIN of entry 59 to FP32 rows. -/
def drainCmd : Cmd := { w0 := w0 0x04 0, w1 := once, w2 := 0xA ||| at_ 59 16 ||| at_ 512 32 }

/-- Entry 59 of core 0 has type FP32. -/
def drainable : State := { engine 0 drainCmd with accTy := [(accKey 0 59, .fp32)] }

theorem witness_accDrain : StoresWf drainable ∧ Whole drainable ∧ drainable.parAcc = [] ∧ entryAt 1 (mmaEntry drainCmd) 0 = none ∧
    adTyBad drainCmd (accTyOf drainable 0 59) = false ∧
    checkRanges drainable (whoOf drainable 0 0 1) (adRngs drainable (whoOf drainable 0 0 1) drainCmd) = none ∧
    ∃ e, engRow (.accDrain 0 1) = some e ∧ EngRuns e drainable 1 { cmd := drainCmd } :=
  have h : StoresWf (engine 0 drainCmd) := engine_wf (by decide +kernel)
  ⟨{ h with accTy := by decide }, ⟨rfl, live_whole.chans, live_whole.cores⟩, rfl, by decide +kernel, by decide +kernel, by decide +kernel, engRuns (by decide +kernel)⟩

/-! Witnesses of VectorRepeatFrame, one per clause. -/

/-- A plan that stores one byte. -/
theorem witness_VectorRepeatFrame : ∃ (plan : State → Who → Cmd → VPlan) (s t : State) (w : Who) (k : Cmd) (r : Run) (o : VOut) (inc : Nat),
    clean s = true ∧ (plan s w k).run s = .ok o ∧ o.writes ≠ [] ∧ vecRep plan s w k r = .done t inc := by
  let plan : State → Who → Cmd → VPlan := fun _ _ _ => 
    { rngs := [], loads := [], stores := [], run := fun _ => .ok { writes := [(spdBase, [1])], count := 1 } }
  have ⟨t, inc, h⟩ := isDone (o := vecRep plan live (whoOf live 0 1 1) {} { cmd := {} }) (by decide +kernel)
  exact ⟨plan, live, t, whoOf live 0 1 1, {}, { cmd := {} }, _, inc, rfl, rfl, by decide, h⟩

/-- A vector command on one FP32 element. -/
def vecCmd (op sub : Nat) : Cmd := { w0 := w0 op 1, w1 := once, w2 := at_ sub 0 ||| at_ 0xA 8 ||| at_ 0xA 12 ||| at_ 1 32 }

/-- Row i's command k runs, and its plan's ranges pass their checks. -/
def vecRuns (i : Instr) (plan : State → Who → Cmd → VPlan) (k : Cmd) : Bool :=
  (engRow i).any (fun e => engOk e (engine 1 k) 1 { cmd := k }) &&
    decide (checkRanges (engine 1 k) (whoOf (engine 1 k) 0 1 1) (plan (engine 1 k) (whoOf (engine 1 k) 0 1 1) k).rngs = none)

theorem vecOk {i : Instr} {plan : State → Who → Cmd → VPlan} {k : Cmd} (h : vecRuns i plan k = true) : Whole (engine 1 k) ∧
    checkRanges (engine 1 k) (whoOf (engine 1 k) 0 1 1) (plan (engine 1 k) (whoOf (engine 1 k) 0 1 1) k).rngs = none ∧
    ∃ e, engRow i = some e ∧ EngRuns e (engine 1 k) 1 { cmd := k } := by
  simp only [vecRuns, Bool.and_eq_true, decide_eq_true_eq] at h
  exact ⟨engine_whole _ _, h.2, engRuns h.1⟩

theorem witness_vectorRows : ∀ p ∈ [((.vew 0 1 : Instr), vewPlan, vecCmd 1 0), (.vfunc 0 1, vfuncPlan, vecCmd 2 0), (.vred 0 1, vredPlan, vecCmd 3 0),
      (.vcvt 0 1, vcvtPlan, vecCmd 4 0), (.vperm 0 1, vpermPlan, vecCmd 5 0), (.smerge 0 1, smergePlan, vecCmd 8 0),
      (.topk 0 1, topkPlan, vecCmd 9 0), (.topkMerge 0 1, topkMergePlan, vecCmd 9 1), (.sliceCombine 0 1, combPlan, vecCmd 11 0)],
    Whole (engine 1 p.2.2) ∧ checkRanges (engine 1 p.2.2) (whoOf (engine 1 p.2.2) 0 1 1)
      (p.2.1 (engine 1 p.2.2) (whoOf (engine 1 p.2.2) 0 1 1) p.2.2).rngs = none ∧
    ∃ e, engRow p.1 = some e ∧ EngRuns e (engine 1 p.2.2) 1 { cmd := p.2.2 } := by
  simp only [List.mem_cons, List.not_mem_nil, or_false, forall_eq_or_imp, forall_eq]
  refine ⟨?_, ?_, ?_, ?_, ?_, ?_, ?_, ?_, ?_⟩ <;> exact vecOk (by decide +kernel)

/-- SLICE.SPLIT of one vector of zeros into four slices. -/
def splitCmd (sub : Nat) : Cmd := { vecCmd 10 sub with w4 := at_ 128 0 ||| at_ 4 32, w5 := 4, w6 := 4 }

theorem witness_sliceSplit : ∀ sub ∈ [0, 1], let k := splitCmd sub; let s := engine 1 k; let w := whoOf s 0 1 1
    Whole s ∧ checkRanges s w (splitPlan s w k).rngs = none ∧
    (vSub k = 1 → ∀ v < vLen k, ∀ p ∈ ((unpack 32 128 (viewBytes s (vAt s w k 2) 512)).map slEntOf).zip
      ((unpack 64 128 (viewBytes s (vAt s w k 0 + v * fld k.w3 31 0) 1024)).map (fdec fp64)), slOver p.1 p.2 = false) ∧
    ∃ e, engRow (.sliceSplit 0 1) = some e ∧ EngRuns e s 1 { cmd := k } := by
  simp only [List.mem_cons, List.not_mem_nil, or_false, forall_eq_or_imp, forall_eq]
  exact ⟨⟨engine_whole _ _, by decide +kernel, by decide +kernel, engRuns (by decide +kernel)⟩,
    ⟨engine_whole _ _, by decide +kernel, by decide +kernel, engRuns (by decide +kernel)⟩⟩

theorem witness_bfly4 : Whole (engine 1 (vecCmd 12 0)) ∧
    checkRanges (engine 1 (vecCmd 12 0)) (whoOf (engine 1 (vecCmd 12 0)) 0 1 1)
      (bflyRngs (engine 1 (vecCmd 12 0)) (whoOf (engine 1 (vecCmd 12 0)) 0 1 1) (vecCmd 12 0)) = none ∧
    ∃ e, engRow (.bfly4 0 1) = some e ∧ EngRuns e (engine 1 (vecCmd 12 0)) 1 { cmd := vecCmd 12 0 } :=
  ⟨engine_whole _ _, by decide +kernel, engRuns (by decide +kernel)⟩

/-! Witnesses of TransferRepeatsComplete, one per clause. -/

/-- A command of the transfer unit that reads at AR0 and writes at AR1. -/
def moveCmd (op : Nat) (w2 : Word) : Cmd := { w0 := w0 op 2, w1 := once ||| at_ 1 5, w2 := w2 }

/-- A layout descriptor of n 8-bit elements, or of the n by 2 elements that DMA.PERM exchanges. -/
def layout (perm : Bool) (n : Nat) : List Byte :=
  let w (x : Nat) : List Byte := leBytes 8 x
  let ps := if perm then 1 + 2 * 2 ^ 6 + 3 * 2 ^ 9 + 4 * 2 ^ 12 else 2 ^ 3 + 2 * 2 ^ 6 + 3 * 2 ^ 9 + 4 * 2 ^ 12
  w (2 + (if perm then 2 else 1) * 2 ^ 4 + ps * 2 ^ 8) ++ w 0 ++ w 0 ++ w 0 ++
    (if perm then w n ++ w 2 ++ w 1 ++ w 1 ++ w 2 ++ w n ++ w 2 ++ w n else w n ++ w n ++ w 1 ++ w 1) ++
    (List.range (if perm then 96 else 128)).map fun _ => 0

def moveRun (op : Nat) : Run :=
  { cmd := moveCmd op (if op = 3 then 63 else 0), desc := layout (op == 2) 4 }

/-- Core 0's transfer unit at run r, with AR0 and AR1 at two places of its scratchpad. -/
def moving (r : Run) : State := { queue 2 (some r) [] with
  ars := [(ctxKey 0 2 1 * 16, { origin := BitVec.ofNat 56 (spdBase + 0x10000), whi := -1 }),
    (ctxKey 0 2 1 * 16 + 1, { origin := BitVec.ofNat 56 (spdBase + 0x20000), whi := -1 })] }

theorem moving_whole (r : Run) : Whole (moving r) := ⟨rfl, live_whole.chans, live_whole.cores⟩

theorem moving_wf {r : Run} (h : (twf {} (moving r).ctxs && twf {} (moving r).ars && twf {} (moving r).cores) = true) : StoresWf (moving r) := by
  simp only [Bool.and_eq_true] at h
  exact { live_inv.stores with ctxs := h.1.1, ars := h.1.2, cores := h.2 }

/-- The clause of the beginning of a repeat. -/
def beginOk (op : Nat) (i : Instr) : Bool :=
  let r := moveRun op
  let s := moving r
  let w := whoOf s 0 2 1
  let a0 := arAddr (roleAr s w r.cmd 0)
  let a1 := arAddr (roleAr s w r.cmd 1)
  let l := layOf r.desc
  let ps := xferPlans s l a0 a1
  (engRow i).any (fun e => engOk e s 1 r) && !(layBad op l a0 a1) && decide (∀ d < lNdim l, (lDim l d).n ≠ 0) &&
    decide (checkRanges s w (xferRngs op l a0 a1 (roleAr s w r.cmd 0) (roleAr s w r.cmd 1)) (op == 3 && putAbsent s w r.cmd)
      (op == 3 && putFar s w r.cmd) = none) &&
    (match srcSpan l a0 (roleAr s w r.cmd 0), dstSpan l a1 (roleAr s w r.cmd 1) with | some p, some q => !(spansMeet s p q) | _, _ => false) &&
    decide (askOf s (.queue 0 2 1) = none) && decide (4 ≤ ps.length) &&
    (ps.flatMap (·.srcs)).all (fun v => !(runOut s v) && regOk s w.fold v.1 v.2 false) &&
    (xferReads l a0 ps).all (fun v => !(rangeHeld s (gLoc v.1) v.2)) && twf {} s.ctxs && twf {} s.ars && twf {} s.cores

theorem witness_transferBegins : beginOk 1 (.dmaCopy 0 1) = true ∧ beginOk 2 (.dmaPerm 0 1) = true ∧ beginOk 3 (.dmaPut 0 1) = true ∧
    ∀ r, Whole (moving r) := ⟨by decide +kernel, by decide +kernel, by decide +kernel, moving_whole⟩

/-- Its one write is left. -/
def writeRun (op : Nat) : Run := { moveRun op with begun := true, todo := [{ addr := spdBase + 0x20000, data := [7], weight := 1 }] }

theorem spd_atHand {s : State} {a n : Nat} (h : (gDev a == s.devid && decide (region s.grade (gLoc a) = .spd) && populated s.grade (gLoc a) n &&
    !(rangeHeld s (gLoc a) n)) = true) : AtHand s a n := by
  simp only [Bool.and_eq_true, decide_eq_true_eq, beq_iff_eq, Bool.not_eq_true'] at h
  exact ⟨h.1.1.1, .inr (.inl h.1.1.2), h.1.2, h.2⟩

theorem witness_transferWrites : ∀ p ∈ [(1, (.dmaCopy 0 1 : Instr)), (2, .dmaPerm 0 1), (3, .dmaPut 0 1)], let r := writeRun p.1; let s := moving r
    Whole s ∧ StoresWf s ∧ (∃ e, engRow p.2 = some e ∧ EngRuns e s 1 r) ∧ r.desc ≠ [] ∧ r.todo ≠ [] ∧ (∀ a, postedOf s 0 2 1 = some a → a.left < 256) ∧
    ∀ v ∈ (nextPieces r.todo).1, AtHand s v.addr v.data.length ∧ regOk s (whoOf s 0 2 1).fold v.addr v.data.length true = true := by
  have no (r : Run) : ∀ a, postedOf (moving r) 0 2 1 = some a → a.left < 256 := fun _ h => by cases h
  have at1 (op : Nat) (h : (gDev (spdBase + 0x20000) == (moving (writeRun op)).devid &&
      decide (region (moving (writeRun op)).grade (gLoc (spdBase + 0x20000)) = .spd) && populated (moving (writeRun op)).grade (gLoc (spdBase + 0x20000)) 1 &&
      !(rangeHeld (moving (writeRun op)) (gLoc (spdBase + 0x20000)) 1)) = true)
      (g : regOk (moving (writeRun op)) (whoOf (moving (writeRun op)) 0 2 1).fold (spdBase + 0x20000) 1 true = true) :
      ∀ v ∈ (nextPieces (writeRun op).todo).1, AtHand (moving (writeRun op)) v.addr v.data.length ∧
        regOk (moving (writeRun op)) (whoOf (moving (writeRun op)) 0 2 1).fold v.addr v.data.length true = true := by
    intro v hv
    cases hv with
    | head => exact ⟨spd_atHand h, g⟩
    | tail _ x => cases x
  simp only [List.mem_cons, List.not_mem_nil, or_false, forall_eq_or_imp, forall_eq]
  exact ⟨⟨moving_whole _, moving_wf (by decide +kernel), engRuns (by decide +kernel), by decide +kernel, by decide +kernel, no _,
      at1 1 (by decide +kernel) (by decide +kernel)⟩,
    ⟨moving_whole _, moving_wf (by decide +kernel), engRuns (by decide +kernel), by decide +kernel, by decide +kernel, no _,
      at1 2 (by decide +kernel) (by decide +kernel)⟩,
    ⟨moving_whole _, moving_wf (by decide +kernel), engRuns (by decide +kernel), by decide +kernel, by decide +kernel, no _,
      at1 3 (by decide +kernel) (by decide +kernel)⟩⟩

/-- All its writes have been made. -/
def madeRun (op : Nat) : Run := { moveRun op with begun := true, moved := 4 }

theorem witness_transferDone : ∀ p ∈ [(1, (.dmaCopy 0 1 : Instr)), (2, .dmaPerm 0 1), (3, .dmaPut 0 1)], let r := madeRun p.1; let s := moving r
    Whole s ∧ StoresWf s ∧ (∃ e, engRow p.2 = some e ∧ EngRuns e s 1 r) ∧ r.desc ≠ [] ∧ r.begun = true ∧ r.todo = [] ∧ r.fail = none ∧
    postWaits s (whoOf s 0 2 1) = false := by
  simp only [List.mem_cons, List.not_mem_nil, or_false, forall_eq_or_imp, forall_eq]
  refine ⟨?_, ?_, ?_⟩ <;>
    exact ⟨moving_whole _, moving_wf (by decide +kernel), engRuns (by decide +kernel), by decide +kernel, rfl, rfl, rfl, by decide +kernel⟩

/-- DMA.AMO adds 8 bytes in its own scratchpad, with RET or without. -/
def amoRun (ret : Nat) : Run := { cmd := moveCmd 4 (at_ 1 4 ||| at_ ret 7) }

theorem witness_dmaAmo : ∀ ret ∈ [0, 1], let r := amoRun ret; let s := moving r; let w := whoOf s 0 2 1
    let a0 := arAddr (roleAr s w r.cmd 0)
    let a1 := arAddr (roleAr s w r.cmd 1)
    Whole s ∧ StoresWf s ∧ (∃ e, engRow (.dmaAmo 0 1) = some e ∧ EngRuns e s 1 r) ∧ amoSize8 r.cmd = true ∧ amoRet r.cmd = (ret == 1) ∧
    checkRanges s w (amoRngs s w r.cmd) = none ∧ a1 % 8 = 0 ∧ AtHand s a1 8 ∧ regOk s w.fold a1 8 true = true ∧ askOf s (.queue 0 2 1) = none ∧
    AtHand s a0 8 ∧ regOk s w.fold a0 8 true = true ∧ gLoc a0 % 8 = 0 := by
  simp only [List.mem_cons, List.not_mem_nil, or_false, forall_eq_or_imp, forall_eq]
  refine ⟨?_, ?_⟩ <;>
    exact ⟨moving_whole _, moving_wf (by decide +kernel), engRuns (by decide +kernel), by decide +kernel, by decide +kernel, by decide +kernel,
      by decide +kernel, spd_atHand (by decide +kernel), by decide +kernel, by decide +kernel, spd_atHand (by decide +kernel), by decide +kernel,
      by decide +kernel⟩

/-! ## Commands that every engine has -/

def nopCmd (q : Nat) : Cmd := { w0 := w0 0xF0 q }
def arsCmd (q r : Nat) : Cmd := { w0 := w0 0xF5 q, w2 := at_ r 0, w3 := -1 >>> 8, w4 := -1, w5 := -1 >>> 16, w7 := -1 >>> 8 }
def fenceCmd (q scope : Nat) : Cmd := { w0 := w0 0xF6 q, w2 := at_ scope 0 }
def sigCmd (q f n : Nat) : Cmd := { w0 := w0 0xF2 q, w2 := at_ f 0 ||| at_ n 16 }
def waitCmd (q f n : Nat) : Cmd := { w0 := w0 0xF3 q, w2 := at_ f 0 ||| at_ n 16 ||| at_ 1 32 }
def wtCmd (q unit num n lim : Nat) : Cmd := { w0 := w0 0xF4 q, w2 := at_ num 0 ||| at_ unit 6, w3 := at_ n 0, w4 := at_ lim 0 }
def hurCmd (q n m : Nat) : Cmd := { w0 := w0 0xF1 q, w2 := at_ n 0 ||| at_ m 8 }

/-! Witnesses of CommonCommandsComplete, one per clause. -/

theorem witness_nop : Acts (queue 3 none [nopCmd 3]) 0 3 0xF0 (slot 3 (nopCmd 3)) ∧ (nopCmd 3).w2 = 0 ∧ tailZero (nopCmd 3) = true :=
  ⟨acts (by decide +kernel), by decide +kernel, by decide +kernel⟩

theorem witness_arSet : Acts (queue 2 none [arsCmd 2 15]) 0 2 0xF5 (slot 2 (arsCmd 2 15)) ∧ arsBad (arsCmd 2 15) = false :=
  ⟨acts (by decide +kernel), by decide +kernel⟩

theorem witness_fence : Acts (queue 1 none [fenceCmd 1 3]) 0 1 0xF6 (slot 1 (fenceCmd 1 3)) ∧
    NoneOpen (queue 1 none [fenceCmd 1 3]) 0 1 (slot 1 (fenceCmd 1 3)) ∧ (∀ k ∈ (queue 1 none [fenceCmd 1 3]).asks, ∀ p x, k.owner ≠ .posted 0 p x) ∧
    fld (fenceCmd 1 3).w2 63 2 = 0 ∧ tailZero (fenceCmd 1 3) = true :=
  ⟨acts (by decide +kernel), by unfold NoneOpen; decide +kernel,
   fun k h => absurd (show k ∈ ([] : List Ask) from h) List.not_mem_nil, by decide +kernel, by decide +kernel⟩

theorem witness_signal : Acts (queue 3 none [sigCmd 3 255 65535]) 0 3 0xF2 (slot 3 (sigCmd 3 255 65535)) ∧
    NoneOpen (queue 3 none [sigCmd 3 255 65535]) 0 3 (slot 3 (sigCmd 3 255 65535)) ∧ fld (sigCmd 3 255 65535).w2 15 8 = 0 ∧
    fld (sigCmd 3 255 65535).w2 63 32 = 0 ∧ tailZero (sigCmd 3 255 65535) = true ∧ flagOwner (fld (sigCmd 3 255 65535).w2 7 0) = 3 :=
  ⟨acts (by decide +kernel), by unfold NoneOpen; decide +kernel, by decide +kernel, by decide +kernel, by decide +kernel, by decide +kernel⟩

/-! Witnesses of WaitingCommandsHold, one per clause. -/

theorem witness_wait : Acts (queue 0 none [waitCmd 0 255 65535]) 0 0 0xF3 (slot 0 (waitCmd 0 255 65535)) ∧
    fld (waitCmd 0 255 65535).w2 15 8 = 0 ∧ fld (waitCmd 0 255 65535).w2 63 33 = 0 ∧ tailZero (waitCmd 0 255 65535) = true ∧
    flN (waitCmd 0 255 65535) = 65535 :=
  ⟨acts (by decide +kernel), by decide +kernel, by decide +kernel, by decide +kernel, by decide +kernel⟩

theorem witness_waitTally : Acts (queue 0 none [wtCmd 0 0 63 5 9]) 0 0 0xF4 (slot 0 (wtCmd 0 0 63 5 9)) ∧ wtBad (wtCmd 0 0 63 5 9) = false ∧
    tallyReach (slotBegin (queue 0 none [wtCmd 0 0 63 5 9]) (slot 0 (wtCmd 0 0 63 5 9))) (slot 0 (wtCmd 0 0 63 5 9)).w.fold
      (wtUnit 0 (wtCmd 0 0 63 5 9)) (wtNum (wtCmd 0 0 63 5 9)) = true :=
  ⟨acts (by decide +kernel), by decide +kernel, by decide +kernel⟩

theorem witness_hurdle : Acts (queue 0 none [hurCmd 0 255 3]) 0 0 0xF1 (slot 0 (hurCmd 0 255 3)) ∧ fld (hurCmd 0 255 3).w2 63 12 = 0 ∧
    tailZero (hurCmd 0 255 3) = true ∧ (hurMask (hurCmd 0 255 3)).testBit 0 = true ∧
    ∀ v, v = slotBegin (queue 0 none [hurCmd 0 255 3]) (slot 0 (hurCmd 0 255 3)) →
      ∀ p < 4, p ≠ 0 → hurHeld v 0 1 p (hurId (hurCmd 0 255 3)) = none := by
  refine ⟨acts (by decide +kernel), by decide +kernel, by decide +kernel, by decide +kernel, ?_⟩
  intro v e; subst e; decide +kernel

/-- WAIT in queue 3, where no lower queue's WAIT may pass. -/
def waiting3 : State := heldAt 3 (waitCmd 3 255 0) 0

/-! Witnesses of HeldCommandsPass, one per clause. -/

theorem witness_waitPass : Held waiting3 0 3 0xF3 { w := whoOf waiting3 0 3 1, cmd := waitCmd 3 255 0, blk := false }
      { cmd := waitCmd 3 255 0, held := true, aux := 0 } ∧ StoresWf waiting3 ∧ bit (waitCmd 3 255 0).w2 32 = true ∧
    flN (waitCmd 3 255 0) ≤ (getFlag waiting3 0 (fld (waitCmd 3 255 0).w2 7 0)).toNat ∧ ∀ p < 3, waitReady waiting3 0 p = none :=
  ⟨held (by decide +kernel), { live_inv.stores with ctxs := by decide +kernel, cores := by decide +kernel }, by decide +kernel, by decide +kernel,
   by decide +kernel⟩

theorem witness_waitTallyPass : Held (heldAt 0 (wtCmd 0 0 63 0 9) 0) 0 0 0xF4
      { w := whoOf (heldAt 0 (wtCmd 0 0 63 0 9) 0) 0 0 1, cmd := wtCmd 0 0 63 0 9, blk := false }
      { cmd := wtCmd 0 0 63 0 9, held := true, aux := 0 } ∧ wtN (wtCmd 0 0 63 0 9) = 0 :=
  ⟨held (by decide +kernel), by decide +kernel⟩

theorem witness_waitTallyTimeout : ∃ (s : State) (t : Slot) (r : Run), Held s 0 0 0xF4 t r ∧
    (getTally s (wtUnit 0 t.cmd) (wtNum t.cmd)).toNat < wtN t.cmd ∧ wtTimeout t.cmd ≠ 0 ∧ r.issued + wtTimeout t.cmd = s.time := by
  have h := held (q := 0) (op := 0xF4) (aux := 0) (m := wtCmd 0 0 63 1 9) (by decide +kernel)
  exact ⟨{ heldAt 0 (wtCmd 0 0 63 1 9) 0 with time := 9 }, _, _, ⟨rfl, h.held, h.op⟩, by decide +kernel, by decide +kernel, by decide +kernel⟩

theorem witness_hurdlePass : ∃ s : State, Held s 0 0 0xF1 { w := whoOf s 0 0 1, cmd := hurCmd 0 255 1, blk := false }
      { cmd := hurCmd 0 255 1, held := true, aux := 1 } ∧ hurdleOpen s 0 1 255 1 (hurMask (hurCmd 0 255 1)) = true :=
  ⟨setCtx (heldAt 0 (hurCmd 0 255 1) 1) 0 0 1 { getCtx (heldAt 0 (hurCmd 0 255 1) 1) 0 0 1 with hurdles := [(255, 1)] },
   ⟨rfl, by decide +kernel, by decide +kernel⟩, by decide +kernel⟩

/-- A command of queue q has waited for a resource since 2, with a limit of 5. -/
def overdue (q : Nat) (r : Run) : State := { queue q (some { r with waiting := some (2, 5) }) [] with time := 7 }

theorem witness_resourceWaitTimeout : ∃ r, coreOk (overdue 0 (aiRun 0)) 0 = true ∧ (∀ y < 1, ctxTimeout (overdue 0 (aiRun 0)) 0 0 y = none) ∧
    (getCtx (overdue 0 (aiRun 0)) 0 0 1).run = some r ∧ waitOver (overdue 0 (aiRun 0)) r.waiting = true ∧ r.held = false :=
  ⟨{ aiRun 0 with waiting := some (2, 5) }, by decide +kernel, by decide +kernel, by decide +kernel, by decide +kernel, rfl⟩

theorem witness_resourceWaitTimeout_held : ∃ r, coreOk (overdue 2 { cmd := {}, held := true }) 0 = true ∧
    (∀ y < 1, ctxTimeout (overdue 2 { cmd := {}, held := true }) 0 2 y = none) ∧ (getCtx (overdue 2 { cmd := {}, held := true }) 0 2 1).run = some r ∧
    waitOver (overdue 2 { cmd := {}, held := true }) r.waiting = true ∧ r.held = true :=
  ⟨{ cmd := {}, held := true, waiting := some (2, 5) }, by decide +kernel, by decide +kernel, by decide +kernel, by decide +kernel, rfl⟩

/-- SC.LD waits. -/
def ldRun : Run := { cmd := { w0 := w0 0x02 3, w1 := once } }

theorem witness_resourceWaitTimeout_scalar : ∃ r v, coreOk (overdue 3 ldRun) 0 = true ∧ (∀ y < 1, ctxTimeout (overdue 3 ldRun) 0 3 y = none) ∧
    (getCtx (overdue 3 ldRun) 0 3 1).run = some r ∧ waitOver (overdue 3 ldRun) r.waiting = true ∧ r.held = false ∧ slotAt (overdue 3 ldRun) 0 3 1 = some v :=
  ⟨{ ldRun with waiting := some (2, 5) }, { w := whoOf (overdue 3 ldRun) 0 3 1, cmd := ldRun.cmd, blk := false, cont := true }, by decide +kernel,
   by decide +kernel, by decide +kernel, by decide +kernel, rfl, by decide +kernel⟩

/-- A launch of core 0's launch unit waits for admission. -/
def overdueLaunch : State := { queue 2 none [] with
  time := 7
  launches := [(5, some { ring := 0, fold := 0, ctx := 1, prog := [], mask := 5, chans := [{ chan := 383, tapBase := 0, resBase := 0 }] })]
  ctxs := [(ctxKey 0 2 1, { bound := true, opens := [{ cmd := {}, lu := some { pos := 1, ids := [[5]], waiting := some (2, 5) } }] })] }

theorem witness_resourceWaitTimeout_launch : coreOk overdueLaunch 0 = true ∧ (∀ y < 1, ctxTimeout overdueLaunch 0 2 y = none) ∧
    (∀ v, (getCtx overdueLaunch 0 2 1).run = some v → waitOver overdueLaunch v.waiting = false) ∧
    luOver overdueLaunch (whoOf overdueLaunch 0 2 1) = some (0, 0) :=
  ⟨by decide +kernel, by decide +kernel, fun v e => (by
    rw [show (getCtx overdueLaunch 0 2 1).run = none by decide +kernel] at e; cases e), by decide +kernel⟩

/-! ## Scalar engine and palettes -/

/-- Word 2 of a scalar command: SUB, RD, RS1, RS2. -/
def sc2 (sub rd a b : Nat) : Word := at_ sub 0 ||| at_ rd 8 ||| at_ a 13 ||| at_ b 18

def scCmd (op sub rd a b : Nat) : Cmd := { w0 := w0 op 3, w1 := once, w2 := sc2 sub rd a b }

/-- The scalar queue of core 0 stands in a block whose only command is m. -/
def inBlock (m : Cmd) : State :=
  let b : Cmd := { w0 := w0 0x05 3, w2 := at_ 1 32 }
  { live with
    cores := [(0, { cur := [none, none, none, some 1] })]
    ctxs := [(ctxKey 0 3 1, { bound := true, run := some { cmd := b }, blk := some { need := 1, cmds := [m] } })] }

theorem xclean {s : State} {w : Who} (h : s.parX = []) : XClean s w := fun _ => by rw [h]; rfl

/-- A scalar row acts on the slot t, whose command passes the checks that every scalar command's clause names. -/
def scOk (op : Nat) (s : State) (t : Slot) : Bool :=
  coreOk s 0 && decide (scSlot s 0 op = some t) && opcode t.cmd == op && !(headerBad 3 t.cmd) && !(signalWaits s t) &&
    (slotBegin s t).parX.isEmpty && fld t.cmd.w2 63 24 == 0 && t.cmd.w5 == 0 && t.cmd.w6 == 0 && t.cmd.w7 == 0

theorem scActs {op : Nat} {s : State} {t : Slot} (h : scOk op s t = true) :
    ScActs s 0 op t ∧ XClean (slotBegin s t) t.w ∧ fld t.cmd.w2 63 24 = 0 ∧ t.cmd.w5 = 0 ∧ t.cmd.w6 = 0 ∧ t.cmd.w7 = 0 := by
  simp only [scOk, Bool.and_eq_true, decide_eq_true_eq, beq_iff_eq, Bool.not_eq_true', List.isEmpty_iff] at h
  exact ⟨⟨h.1.1.1.1.1.1.1.1.1, h.1.1.1.1.1.1.1.1.2, h.1.1.1.1.1.1.1.2, h.1.1.1.1.1.1.2, h.1.1.1.1.1.2⟩, xclean h.1.1.1.1.2, h.1.1.1.2, h.1.1.2,
    h.1.2, h.2⟩

/-! Witnesses of ScalarCommandsComplete, one per clause. -/

theorem witness_scAlu : scOk 1 (queue 3 none [scCmd 1 14 31 31 31]) (slot 3 (scCmd 1 14 31 31 31)) = true ∧
    (scCmd 1 14 31 31 31).w4 = 0 ∧ aluDefined (aluSub (scCmd 1 14 31 31 31)) = true ∧ operandBad (scCmd 1 14 31 31 31) = false := by decide +kernel

theorem witness_scAlu_move : scOk 1 (queue 3 none [scCmd 1 16 0 0 0]) (slot 3 (scCmd 1 16 0 0 0)) = true ∧
    (scCmd 1 16 0 0 0).w4 = 0 ∧ aluDefined (aluSub (scCmd 1 16 0 0 0)) = true ∧ operandBad (scCmd 1 16 0 0 0) = false ∧
    scRs1 (scCmd 1 16 0 0 0) = 0 := by decide +kernel

theorem witness_scArw : scOk 6 (queue 3 none [scCmd 6 0xFE 0 31 0]) (slot 3 (scCmd 6 0xFE 0 31 0)) = true ∧
    (scCmd 6 0xFE 0 31 0).w4 = 0 ∧ fld (scCmd 6 0xFE 0 31 0).w2 1 0 ≠ 3 ∧ scRd (scCmd 6 0xFE 0 31 0) = 0 ∧ scRs2 (scCmd 6 0xFE 0 31 0) = 0 ∧
    scImmb (scCmd 6 0xFE 0 31 0) = false ∧ (scCmd 6 0xFE 0 31 0).w3 = 0 := by decide +kernel

theorem witness_scRdt : scOk 7 (queue 3 none [scCmd 7 0 31 0 0]) (slot 3 (scCmd 7 0 31 0 0)) = true ∧
    (scCmd 7 0 31 0 0).w4 = 0 ∧ fld (scCmd 7 0 31 0 0).w2 7 0 = 0 ∧ fld (scCmd 7 0 31 0 0).w2 63 13 = 0 ∧ (scCmd 7 0 31 0 0).w3 = 0 := by decide +kernel

def rdtally : Cmd := { scCmd 8 0 0 0 0 with w3 := 63 }

theorem witness_scRdtally : scOk 8 (queue 3 none [rdtally]) (slot 3 rdtally) = true ∧ rdtally.w4 = 0 ∧ fld rdtally.w2 7 0 = 0 ∧
    fld rdtally.w2 63 13 = 0 ∧ fld rdtally.w3 63 6 = 0 ∧
    tallyReach (slotBegin (queue 3 none [rdtally]) (slot 3 rdtally)) (slot 3 rdtally).w.fold 0 (fld rdtally.w3 5 0) = true := by decide +kernel

/-- SC.BR, condition 7, to the block's end. -/
def brCmd : Cmd := { scCmd 4 7 0 31 0 with w4 := 1 }

theorem witness_scBr : let t : Slot := { w := whoOf (inBlock brCmd) 0 3 1, cmd := brCmd, blk := true }
    scOk 4 (inBlock brCmd) t = true ∧ t.blk = true ∧ brBad brCmd = false ∧ brCond brCmd = 7 := by decide +kernel

/-- X1 of context 1 holds an address; channels as given. -/
def pointed (a : Nat) (chs : List (Nat × Chan)) (m : Cmd) : State := { queue 3 none [m] with xs := [(1 * 32 + 1, BitVec.ofNat 64 a)], chans := chs }

def pSlot (m : Cmd) : Slot := { w := whoOf (queue 3 none [m]) 0 3 1, cmd := m, blk := false }

/-- What every clause of ScalarMemoryCompletes asks for. -/
def scMem (op : Nat) (s : State) (t : Slot) : Bool :=
  scOk op s t && endZero t.cmd && total t.cmd != 0 && decide (askOf (slotBegin s t) (.queue t.w.core 3 t.w.ctx) = none) &&
    clean (slotBegin s t) && !(scWaiting (slotBegin s t) t)

/-- The fields of LD and ST, and the checks of the access. -/
def ldOk (s : State) (t : Slot) : Bool :=
  scMem 2 s t && fld t.cmd.w2 7 0 == 0 && scRs2 t.cmd == 0 && !(scImmb t.cmd) && scMemReady false s t &&
    decide (scFault (slotBegin s t) t.w t.cmd false = none)

def storeOk (s : State) (t : Slot) : Bool :=
  scMem 3 s t && fld t.cmd.w2 7 0 == 0 && scRd t.cmd == 0 && !(scImmb t.cmd) && scMemReady true s t &&
    decide (scFault (slotBegin s t) t.w t.cmd true = none)

def amoOk (s : State) (t : Slot) : Bool :=
  scMem 9 s t && amoOp t.cmd ≤ 10 && !(bit t.cmd.w2 7) && !(operandBad t.cmd) && scAmoReady s t && decide (scAmoFault (slotBegin s t) t.w t.cmd = none)

/-- The stores of a state are canonical. -/
def storesB (s : State) : Bool :=
  twf 0 s.mem && twf 0 s.errs && twf 0 s.gerrs && regsWfFrom s.grade 0 s.regs && twf 0 s.flags && twf 0 s.tallies && twf 0 s.acc &&
    twf .unset s.accTy && twf {} s.ctxs && twf {} s.ars && twf 0 s.xs && twf {} s.cores && twf {} s.rings && twf {} s.chans && twf {} s.nbus &&
    twf none s.launches && twf {} s.stks && twf 0 s.crk

theorem storesWf {s : State} (h : storesB s = true) : StoresWf s := by
  simp only [storesB, Bool.and_eq_true] at h
  obtain ⟨⟨⟨⟨⟨⟨⟨⟨⟨⟨⟨⟨⟨⟨⟨⟨⟨h1, h2⟩, h3⟩, h4⟩, h5⟩, h6⟩, h7⟩, h8⟩, h9⟩, h10⟩, h11⟩, h12⟩, h13⟩, h14⟩, h15⟩, h16⟩, h17⟩, h18⟩ := h
  exact ⟨h1, h2, h3, h4, h5, h6, h7, h8, h9, h10, h11, h12, h13, h14, h15, h16, h17, h18⟩

/-- The last 8 bytes of core 0's scratchpad. -/
def spdLast : Nat := spdBase + 0x5FFFF8

/-- Channel 0 is in a bout. -/
def bout0 : List (Nat × Chan) := [(0, { mode := 2 })]

/-! Witnesses of ScalarMemoryCompletes, one per clause. -/

theorem witness_scLd : let s := pointed spdLast [] (scCmd 2 0 31 1 0); let t := pSlot (scCmd 2 0 31 1 0)
    ldOk s t = true ∧ AtHand (slotBegin s t) (scAddr (slotBegin s t) t.w t.cmd) 8 := ⟨by decide +kernel, spd_atHand (by decide +kernel)⟩

theorem witness_scLd_register : let s := pointed (dbReg 0 0) [] (scCmd 2 0 31 1 0); let t := pSlot (scCmd 2 0 31 1 0)
    ldOk s t = true ∧ region (slotBegin s t).grade (gLoc (scAddr (slotBegin s t) t.w t.cmd)) = .csr := by decide +kernel

theorem witness_scLd_held : let s := pointed blinBase bout0 (scCmd 2 0 31 1 0); let t := pSlot (scCmd 2 0 31 1 0)
    ldOk s t = true ∧ rangeHeld (slotBegin s t) (gLoc (scAddr (slotBegin s t) t.w t.cmd)) 8 = true := by decide +kernel

theorem witness_scSt : let s := pointed spdLast [] (scCmd 3 0 0 1 31); let t := pSlot (scCmd 3 0 0 1 31)
    storeOk s t = true ∧ AtHand (slotBegin s t) (scAddr (slotBegin s t) t.w t.cmd) 8 ∧ Whole (slotBegin s t) ∧ StoresWf (slotBegin s t) :=
  ⟨by decide +kernel, spd_atHand (by decide +kernel), ⟨by decide +kernel, by decide +kernel, by decide +kernel⟩, storesWf (by decide +kernel)⟩

theorem witness_scSt_register : let s := pointed (dbReg 0 0) [] (scCmd 3 0 0 1 2); let t := pSlot (scCmd 3 0 0 1 2)
    storeOk s t = true ∧ region (slotBegin s t).grade (gLoc (scAddr (slotBegin s t) t.w t.cmd)) = .csr := by decide +kernel

theorem witness_scSt_held : let s := pointed blinBase bout0 (scCmd 3 0 0 1 31); let t := pSlot (scCmd 3 0 0 1 31)
    storeOk s t = true ∧ rangeHeld (slotBegin s t) (gLoc (scAddr (slotBegin s t) t.w t.cmd)) 8 = true := by decide +kernel

theorem witness_scAmo : let s := pointed spdLast [] (scCmd 9 0 2 1 1); let t := pSlot (scCmd 9 0 2 1 1)
    amoOk s t = true ∧ AtHand (slotBegin s t) (scAmoRng (slotBegin s t) t.w t.cmd).addr (scAmoN t.cmd) ∧ Whole (slotBegin s t) ∧ StoresWf (slotBegin s t) :=
  ⟨by decide +kernel, spd_atHand (by decide +kernel), ⟨by decide +kernel, by decide +kernel, by decide +kernel⟩, storesWf (by decide +kernel)⟩

theorem witness_scAmo_held : let s := pointed blinBase bout0 (scCmd 9 0x20 2 1 1); let t := pSlot (scCmd 9 0x20 2 1 1)
    amoOk s t = true ∧ gDev (scAmoRng (slotBegin s t) t.w t.cmd).addr = (slotBegin s t).devid ∧
    rangeHeld (slotBegin s t) (gLoc (scAmoRng (slotBegin s t) t.w t.cmd).addr) (scAmoN t.cmd) = true := by decide +kernel

/-- SC.BLOCK of n commands. -/
def blockCmd (n : Nat) : Cmd := { w0 := w0 0x05 3, w1 := once, w2 := at_ n 32 }

/-! Witnesses of BlocksAndPalettesRun, one per clause. -/

theorem witness_scBlock : ∃ (s : State) (t : Slot) (b : Blk), Acts s 0 3 0x05 t ∧ t.blk = false ∧ blockBad t.cmd = false ∧
    (getCtx s 0 3 t.w.ctx).blk = some b ∧ (getCtx (slotBegin s t) 0 3 t.w.ctx).blk = some b ∧ b.need ≤ b.cmds.length ∧
    b.cmds.all (inBlockOk b.need) = true ∧ total t.cmd ≠ 0 := by
  let s := setCtx (queue 3 none [blockCmd 1]) 0 3 1
    { getCtx (queue 3 none [blockCmd 1]) 0 3 1 with blk := some { need := 1, cmds := [scCmd 7 0 0 0 0] } }
  exact ⟨s, slot 3 (blockCmd 1), { need := 1, cmds := [scCmd 7 0 0 0 0] },
    ⟨rfl, by decide, by decide +kernel, by decide +kernel, by decide +kernel⟩, rfl, by decide +kernel, by decide +kernel, by decide +kernel,
    by decide, by decide +kernel, by decide +kernel⟩

/-- PAL.WRITE of a wide palette in slot 7. -/
def palCmd : Cmd := { w0 := w0 0x10 2, w2 := 0x17, w6 := -1 }

theorem witness_palWrite : Acts (queue 2 none [palCmd]) 0 2 0x10 (slot 2 palCmd) ∧ palBad palCmd = false :=
  ⟨acts (by decide +kernel), by decide +kernel⟩

theorem witness_palPending : coreOk (heldAt 2 palCmd 0) 0 = true ∧ palPending (heldAt 2 palCmd 0) 0 = some palCmd := by decide +kernel

theorem witness_palWriteApply : Held (heldAt 2 palCmd 0) 0 2 0x10 { w := whoOf (heldAt 2 palCmd 0) 0 2 1, cmd := palCmd, blk := false }
    { cmd := palCmd, held := true, aux := 0 } := held (by decide +kernel)

/-! ## Launch unit -/

def luCmd (op n : Nat) : Cmd := { w0 := w0 op 2, w1 := at_ n 24 ||| at_ 1 44 ||| at_ 1 5 }

/-- A pool of one bundle slot in bank 0, pool 0 of fold 0: L = H = 1, D = 32, FP8, T = 32. -/
def pooled (s : State) : State :=
  { rset (rset (rset s (srvReg 0x1000) (at_ 1 8 ||| at_ 1 16 ||| at_ 1 24)) (srvReg 0x1008) 1) (srvReg 0x1018) 1 with
    srv := { s.srv with pools := [(0, some { chans := [0] })] } }

/-- The clauses of LaunchCommandsPassToUnit: the launch unit's command op stands next in a queue that runs r. -/
def passOk (op n : Nat) (r : Option Run) : Bool :=
  let m := luCmd op n
  let s := queue 2 r [m]
  coreOk s 0 && decide (curCtx s 0 2 = some 1) && decide ((getCtx s 0 2 1).buf.head? = some m) && opcode m == op && mayIssue s 0 2 1 (getCtx s 0 2 1) &&
    !(headerBad 2 m) && m.w2 == 0 && tailZero m && decide ((getCtx s 0 2 1).run = r)

theorem witness_LaunchCommandsPassToUnit : ∀ op ∈ [0x30, 0x31],
    (∀ n ∈ [0, 0xFFFFF], passOk op n none = true) ∧
    (passOk op 1 (some (amoRun 0)) = true ∧ total (luCmd op 1) ≠ 0 ∧
      mayPass (getCtx (queue 2 (some (amoRun 0)) [luCmd op 1]) 0 2 1) (amoRun 0) (luCmd op 1) = true) := by decide +kernel

/-- The bytes of a word at a place, those that are not zero. -/
def wordAt (a : Nat) (v : Word) : List (Nat × Byte) := ((List.range 8).zip (leBytes 8 v.toNat)).filterMap fun p => if p.2 = 0 then none else some (a + p.1, p.2)

/-- Words from address a on, in memory. -/
def wordsFrom (a : Nat) (vs : List Word) : List (Nat × Byte) := ((List.range vs.length).zip vs).flatMap fun p => wordAt (a + 8 * p.1) p.2

/-- A command of the launch unit with one repeat to go, its descriptor at the front of core 0's scratchpad. -/
def launching (op whi : Nat) (mem : List (Nat × Byte)) : State :=
  let r : AReg := { origin := BitVec.ofNat 56 spdBase, whi := BitVec.ofNat 56 whi }
  { queue 2 none [] with
    ctxs := [(ctxKey 0 2 1, { bound := true, opens := [{ cmd := luCmd op 1, lu := some { ar := r, ar1 := r } }] })]
    mem := mem }

def isOk {α : Type} : Got α → Bool
  | .ok _ _ => true
  | _ => false

theorem gotOk {α : Type} {g : Got α} (h : isOk g = true) : ∃ u d, g = .ok u d := by
  cases g <;> simp [isOk] at h; exact ⟨_, _, rfl⟩

theorem gotBad {α : Type} {g : Got α} (h : (match g with | .bad _ _ => true | _ => false) = true) : ∃ u st, g = .bad u st := by
  cases g <;> simp at h; exact ⟨_, _, rfl⟩

/-- What the clauses of LaunchRepeatRuns ask of the state. -/
def luGo (op : Nat) (s : State) : Bool :=
  coreOk s 0 && decide (curCtx s 0 2 = some 1) && decide ((getCtx s 0 2 1).buf = []) && !(luStaged s 0) && (luActive op (getCtx s 0 2 1)).isSome

/-- AR0 and AR1 before the repeat. -/
def luReg (whi : Nat) : AReg := { origin := BitVec.ofNat 56 spdBase, whi := BitVec.ofNat 56 whi }

/-- A descriptor of LEN 1 with an empty mask. -/
def noBanks : State := launching 0x30 (2 ^ 56 - 1) [(spdBase + 6, 4)]

/-! Witnesses of LaunchRepeatRuns, one per clause. -/

theorem witness_nbuLaunch : luGo 0x30 noBanks = true ∧
    ∃ u d, launchOf noBanks (whoOf noBanks 0 2 1) (luCmd 0x30 1) (luReg (2 ^ 56 - 1)) 0 = .ok u d :=
  ⟨by decide +kernel, gotOk (by decide +kernel)⟩

theorem witness_nbuLaunch_stopped : luGo 0x30 (launching 0x30 spdBase []) = true ∧ ∃ u st, launchOf (launching 0x30 spdBase [])
    (whoOf (launching 0x30 spdBase []) 0 2 1) (luCmd 0x30 1) (luReg spdBase) 0 = .bad u st :=
  ⟨by decide +kernel, gotBad (by decide +kernel)⟩

/-- A launch of the program END on bank 0 of channel 0. -/
def oneBank : State := launching 0x30 (2 ^ 56 - 1) (wordsFrom spdBase
    [BitVec.ofNat 64 (spdBase + 0x100) ||| at_ 1 50, 0, at_ 1 32, BitVec.ofNat 64 (spdBase + 0x120)] ++
  wordAt (spdBase + 0x100) (at_ 1 56) ++ wordAt (spdBase + 0x138) (BitVec.ofNat 64 (spdBase + 0x180)))

theorem witness_LaunchReady : luGo 0x30 oneBank = true ∧ LaunchReady oneBank (whoOf oneBank 0 2 1) (luReg (2 ^ 56 - 1)) := by
  refine ⟨by decide +kernel, ?_, ?_, ?_, ?_, ?_, ?_, ?_, ?_, ?_, ?_, ?_, ?_, ?_⟩ <;> first | decide +kernel | (unfold LaunchReads; decide +kernel)

theorem witness_attnDispatch : luGo 0x31 (launching 0x31 (2 ^ 56 - 1) []) = true ∧
    ∃ u d, attnOf (launching 0x31 (2 ^ 56 - 1) []) (whoOf (launching 0x31 (2 ^ 56 - 1) []) 0 2 1) (luCmd 0x31 1)
      (luReg (2 ^ 56 - 1)) (luReg (2 ^ 56 - 1)) 0 = .ok u d :=
  ⟨by decide +kernel, gotOk (by decide +kernel)⟩

theorem witness_attnDispatch_stopped : luGo 0x31 (launching 0x31 spdBase []) = true ∧
    ∃ u st, attnOf (launching 0x31 spdBase []) (whoOf (launching 0x31 spdBase []) 0 2 1) (luCmd 0x31 1) (luReg spdBase) (luReg spdBase) 0
    = .bad u st := ⟨by decide +kernel, gotBad (by decide +kernel)⟩

/-- A dispatch of one item of one query, on pool 0. -/
def oneItem : State := pooled (launching 0x31 (2 ^ 56 - 1) (wordsFrom spdBase
  [at_ 1 16, at_ 63 24, 0, 0, 0, 0, 0, 0, BitVec.ofNat 64 (spdBase + 0x400), at_ 1 32, at_ 1 32, BitVec.ofNat 64 (spdBase + 0x800), 0x1000]))

theorem witness_AttnReady : luGo 0x31 oneItem = true ∧ AttnReady oneItem (whoOf oneItem 0 2 1) (luReg (2 ^ 56 - 1)) (luReg (2 ^ 56 - 1)) [0] := by
  refine ⟨by decide +kernel, ?_, ?_, ?_, ?_, ?_, ?_, ?_, ?_, ?_, ?_, ?_⟩
  all_goals first
    | decide +kernel
    | (unfold LaunchReads; decide +kernel)
    | (intro i h
       have e : i = 0 := by have n : (attnHead oneItem (luReg (2 ^ 56 - 1))).nitem = 1 := by decide +kernel
                            omega
       subst e
       refine ⟨?_, ?_, ?_, ?_, ?_, ?_⟩ <;> first | decide +kernel | (unfold LaunchReads; decide +kernel))

/-- Launch 5 of core 0, of two banks of channel 383, whose program is one instruction. -/
def launch5 (i : Word) (admitted : Bool) (state : Nat) : Launch :=
  { ring := 0, fold := 0, ctx := 1, prog := [i, at_ 1 56], mask := 5, chans := [{ chan := 383, tapBase := 0, resBase := 0, state := state }],
    admitted := admitted }

/-! Witnesses of LaunchesProgress, one per clause. -/

theorem witness_launchAdmit : tget none [(5, some (launch5 1 false 0))] 5 = some (launch5 1 false 0) ∧
    mayAdmit { live with launches := [(5, some (launch5 1 false 0))] } 5 (launch5 1 false 0) = true :=
  ⟨by decide +kernel, by decide +kernel⟩

/-- The launch unit's only command has made its repeat, and its launches have ended. -/
def launched : State :=
  { queue 2 none [] with ctxs := [(ctxKey 0 2 1, { bound := true, opens := [{ cmd := luCmd 0x30 1, lu := some { pos := 1, ids := [[]] } }] })] }

theorem witness_launchComplete : coreOk launched 0 = true ∧
    luDone launched 0 = some (whoOf launched 0 2 1, 0, luCmd 0x30 1, { pos := 1, ids := [[]] }) ∧ StoresWf launched ∧
    (getCtx launched 0 2 1).opens.any (·.runs) = false :=
  ⟨by decide +kernel, by decide +kernel, storesWf (by decide +kernel), by decide +kernel⟩

theorem witness_launchFaultPropagate : tget none [(5, some (launch5 1 true 3))] 5 = some (launch5 1 true 3) ∧ (launch5 1 true 3).told = false ∧
    ∃ e ∈ (launch5 1 true 3).chans, e.state = 3 := by decide +kernel

/-! ## In-bank units -/

/-- Channel 383 in a bout at instruction i of launch 5. -/
def bout (i : Word) (used : Nat) : State := { live with
  chans := [(383, { mode := 2, launches := [5], started := true, prog := [i, at_ 1 56], used := used })]
  launches := [(5, some (launch5 i true 0))] }

/-- It stands there, as a context. -/
def boutCtx (i : Word) (used : Nat) : NCtx :=
  { g := 383, ch := getChan (bout i used) 383, id := 5, l := launch5 i true 0,
    e := { chan := 383, tapBase := 0, resBase := 0 }, i := i, pc := 0 }

theorem runs {op used : Nat} {i : Word} {fx : State → NCtx → Nat → Fx} (h : (iOp i == op &&
    nbuFits (boutCtx i used) ((activeBanks (boutCtx i used)).map fun b => (b, fx (bout i used) (boutCtx i used) b)) &&
    ((activeBanks (boutCtx i used)).map fun b => (b, fx (bout i used) (boutCtx i used) b)).all (fun p =>
      !(p.2.need.any needBad) && !p.2.ragged && !(tapOver (boutCtx i used) p.1 p.2) && !p.2.palette)) = true) :
    NbuRuns (bout i used) 383 op fx (boutCtx i used) := by
  simp only [Bool.and_eq_true, beq_iff_eq] at h
  exact ⟨rfl, rfl, h.1.1, h.1.2, h.2⟩

/-- An opcode in the place of R128. -/
def iw (op : Nat) : Word := at_ op 56

theorem witness_InBankInstructionsRun : ∀ n ∈ [0, 4, 5, 6, 0x10, 0x12, 0x13, 0x20, 0x33], ∃ (i : Instr) (fx : State → NCtx → Nat → Fx),
    nbuOf i = some (383, n, fx) ∧ NbuRuns (bout (iw n) 0) 383 n fx (boutCtx (iw n) 0) := by
  simp only [List.mem_cons, List.not_mem_nil, or_false, forall_eq_or_imp, forall_eq]
  exact ⟨⟨.nbuNop 383, _, rfl, runs (by decide +kernel)⟩, ⟨.padd 383, _, rfl, runs (by decide +kernel)⟩,
    ⟨.posadd 383, _, rfl, runs (by decide +kernel)⟩, ⟨.lpset 383, _, rfl, runs (by decide +kernel)⟩,
    ⟨.ldw 383, _, rfl, runs (by decide +kernel)⟩, ⟨.stp 383, _, rfl, runs (by decide +kernel)⟩,
    ⟨.fill 383, _, rfl, runs (by decide +kernel)⟩, ⟨.dotr 383, _, rfl, runs (by decide +kernel)⟩,
    ⟨.ainit 383, _, rfl, runs (by decide +kernel)⟩⟩

theorem bout_whole (i : Word) (used : Nat) : Whole (bout i used) ∧ (∀ b, b ∉ (bout i used).parNbu ∧ b ∉ (bout i used).encBad) :=
  ⟨⟨rfl, live_whole.chans, live_whole.cores⟩, fun b => ⟨fun h => absurd (show b ∈ ([] : List Nat) from h) List.not_mem_nil,
    fun h => absurd (show b ∈ ([] : List Nat) from h) List.not_mem_nil⟩⟩

theorem witness_InBankControlRuns : NbuRuns (bout (iw 1) 0) 383 1 fxNone (boutCtx (iw 1) 0) ∧
    NbuRuns (bout (iw 2) 0) 383 2 fxNone (boutCtx (iw 2) 0) ∧ NbuRuns (bout (iw 3) 0) 383 3 fxNone (boutCtx (iw 3) 0) :=
  ⟨runs (by decide +kernel), runs (by decide +kernel), runs (by decide +kernel)⟩

/-! ## Rings and the drover -/

/-- Ring 0 runs on core 0 in context 1, with one command to fetch at slot 15. -/
def fetching (base : Nat) : State := { live with
  regs := tput 0 live.regs (ringReg 0 1) (at_ 4 56 ||| BitVec.ofNat 64 base)
  rings := [(0, { state := 1, fetch := [15], tail := [0], halted := [false], suspended := [false], saved := [none] })]
  cores := [(0, { running := some (0, 1), cur := [some 1, some 1, some 1, some 1] })]
  ctxs := (List.range 4).map fun q => (ctxKey 0 q 1, { bound := true }) }

theorem ofSome {α : Type} {o : Option α} (h : o.isSome = true) : ∃ v, o = some v := Option.isSome_iff_exists.mp h

/-! Witnesses of RingFetchAndRecords, one per clause. -/

theorem witness_fetchDispatch : ∃ u v bs, ringTarget (fetching 0x1000) 0 = 0 ∧ mayFetch (fetching 0x1000) 0 0 = true ∧
    ringCtx (fetching 0x1000) 0 0 = some 1 ∧ fetchLine (fetching 0x1000) 0 0 = .ok u bs ∧ dispatch u 0 0 0 1 (cmdOf bs) = some v := by
  have ⟨u, bs, h⟩ := gotOk (g := fetchLine (fetching 0x1000) 0 0) (by decide +kernel)
  have h2 : (match fetchLine (fetching 0x1000) 0 0 with | .ok u bs => (dispatch u 0 0 0 1 (cmdOf bs)).isSome | _ => false) = true := by decide +kernel
  rw [h] at h2
  have ⟨v, g⟩ := ofSome h2
  exact ⟨u, v, bs, by decide +kernel, by decide +kernel, by decide +kernel, h, g⟩

theorem witness_fetchDispatch_faults : ∃ u st, mayFetch (fetching aprBase) 0 0 = true ∧ ringCtx (fetching aprBase) 0 0 = some 1 ∧
    fetchLine (fetching aprBase) 0 0 = .bad u st :=
  have ⟨u, st, h⟩ := gotBad (g := fetchLine (fetching aprBase) 0 0) (by decide +kernel)
  ⟨u, st, by decide +kernel, by decide +kernel, h⟩

/-- A line of DRAM is at hand. -/
theorem dram_atHand {s : State} {a n : Nat} (h : (gDev a == s.devid && decide (region s.grade (gLoc a) = .dram) && populated s.grade (gLoc a) n &&
    !(rangeHeld s (gLoc a) n)) = true) : AtHand s a n := by
  simp only [Bool.and_eq_true, decide_eq_true_eq, beq_iff_eq, Bool.not_eq_true'] at h
  exact ⟨h.1.1.1, .inl h.1.1.2, h.1.2, h.2⟩

/-- What both clauses of a line at hand ask for. -/
def lineOk (s : State) : Bool :=
  decide (ringTarget s 0 = 0) && mayFetch s 0 0 && decide (ringCtx s 0 0 = some 1) && decide ((getRing s 0).line.getD 0 [] = []) && clean s &&
    decide (askOf s (.fetch 0 0) = none) && regOk s ((ringFold s 0).getD 16) (lineAddr s 0 0) 64 false

/-- Context 1 collects a block of one command. -/
def collecting : State := setCtx (fetching 0x1000) 0 3 1 { bound := true, blk := some { need := 1 } }

theorem witness_fetchDispatch_block : lineOk collecting = true ∧ AtHand collecting (lineAddr collecting 0 0) 64 ∧
    (getCtx collecting 0 3 1).blk = some { need := 1 } := ⟨by decide +kernel, dram_atHand (by decide +kernel), by decide +kernel⟩

/-- The line is SC.BLOCK of one command. -/
def blockNext : State := { fetching blinBase with mem := [(blinBase + 960, 5), (blinBase + 961, 3), (blinBase + 980, 1)] }

theorem witness_fetchDispatch_buffer : ∀ s ∈ [fetching 0x1000, blockNext], lineOk s = true ∧ AtHand s (lineAddr s 0 0) 64 ∧
    (getCtx s 0 3 1).blk = none ∧ cEngine (cmdOf (viewBytes s (gLoc (lineAddr s 0 0)) 64)) < 4 ∧ (getCtx s 0 3 1).buf = [] ∧ (getCtx s 0 0 1).buf = [] := by
  simp only [List.mem_cons, List.not_mem_nil, or_false, forall_eq_or_imp, forall_eq]
  refine ⟨?_, ?_⟩ <;>
    exact ⟨by decide +kernel, dram_atHand (by decide +kernel), by decide +kernel, by decide +kernel, by decide +kernel, by decide +kernel⟩

theorem witness_deferredRecordWrite : ∃ s : State, recGo s 0 = true ∧ (getRing s 0).waiting ≠ [] :=
  ⟨setRing live 0 { getRing live 0 with waiting := [{ tag := 1, status := 0, engine := 0, context := 0, core := 0 }] },
   by decide +kernel, by decide +kernel⟩

theorem witness_irqCoalesceTimeout : ∃ s : State, (getRing s 0).pendIrq ≠ 0 ∧ coalTime s 0 = 1 ∧
    (getRing s 0).firstIrq + Config.tick * coalTime s 0 = s.time :=
  ⟨{ setRing (rset live (ringReg 0 3) (at_ 1 40)) 0 { getRing live 0 with pendIrq := 1 } with time := 475 },
   by decide +kernel, by decide +kernel, by decide +kernel⟩

/-- The host link is up. -/
def hosted : State := { live with hif := { live.hif with linkUp := true } }

theorem hostWrites {s : State} {a n : Nat} (h : (s.hif.linkUp && decide (accessGate s 0 0 (bar0Off a) n true false = .reg a) &&
    !(orderedReg a && postedHeld s 0)) = true) : HostWrites s 0 a n := by
  simp only [Bool.and_eq_true, decide_eq_true_eq, Bool.not_eq_true'] at h
  exact ⟨h.1.1, by decide, h.1.2, h.2⟩

theorem witness_RingRegistersAct : HostWrites hosted 0 (dbReg 65535 0) 8 ∧ HostWrites hosted 0 (dbReg 65535 8) 8 ∧
    HostWrites hosted 0 (ringReg 65535 0) 8 ∧ (∀ f, ringFold hosted 65535 = some f → tdiFrozen hosted f = false) :=
  ⟨hostWrites (by decide +kernel), hostWrites (by decide +kernel), hostWrites (by decide +kernel), fun _ h => by cases h⟩

/-- The tail may move to any slot but the one before the fetch position. -/
theorem witness_DoorbellMovesTail : StoresWf live ∧
    (let ok (t : Nat) : Bool := decide ((t + cmdLen live 0 - 0) % cmdLen live 0 ≤ (0 + 2 * cmdLen live 0 - 1 - 0) % cmdLen live 0)
     (getRing live 0).state = 1 ∧ cmdLen live 0 = 16 ∧ ringMembers live 0 = 1 ∧ ok 15 = true ∧ 0 < (getRing live 0).tail.length) ∧
    fld (at_ 1 20) 27 20 = 1 := by
  exact ⟨live_inv.stores, by decide +kernel, by decide +kernel⟩

theorem witness_HostRegisterRowsAct :
    HostWrites hosted 0 (fldReg 15 0) 8 ∧ HostWrites hosted 0 (fldReg 0 0) 8 ∧
    tallyWf hosted.grade 203 63 = true ∧ HostWrites hosted 0 (addReg 203 63) 8 ∧ HostWrites hosted 0 (addReg 0 0) 8 ∧
    HostWrites hosted 0 (eccReg 0x20) 8 ∧ HostWrites hosted 0 (chnReg 383 0x60) 8 ∧ coreOk hosted 191 = true ∧
    HostWrites hosted 0 (coreReg 191 0xD48) 8 ∧ HostWrites hosted 0 (swvReg 0x18) 8 ∧ HostWrites hosted 0 (srvReg 0x200) 8 :=
  ⟨hostWrites (by decide +kernel), hostWrites (by decide +kernel), by decide, hostWrites (by decide +kernel), hostWrites (by decide +kernel),
   hostWrites (by decide +kernel), hostWrites (by decide +kernel), by decide, hostWrites (by decide +kernel), hostWrites (by decide +kernel),
   hostWrites (by decide +kernel)⟩

/-! Witnesses of HostRegisterRowsAct, registerWrite, one per clause. -/

theorem witness_registerWrite : csrBase ≤ thmReg 0 ∧ thmReg 0 < csrEnd ∧ bar0Of (bar0Off (thmReg 0)) = .reg (thmReg 0) ∧
    HostWrites hosted 0 (thmReg 0) 4 ∧ regSizeOk (thmReg 0) 4 = true ∧ regSizeOk (thmReg 0) 2 = false :=
  ⟨by decide, by decide, by decide +kernel, hostWrites (by decide +kernel), by decide +kernel, by decide +kernel⟩

/-- Ring 0, bound as context 1 of core 191, has a command to fetch; the core runs `run` and has been asked for `req`. -/
def drover (run : Option (Nat × Nat)) (req : Option (Nat × Nat)) (stride : Nat) : State := { live with
  regs := tput 0 (tput 0 (tput 0 live.regs (ringReg 0 3) (at_ 191 0 ||| at_ 1 8)) (ringReg 1 0) (at_ 2 4 ||| 1)) (ringReg 1 5) (BitVec.ofNat 64 stride)
  rings := [(0, { state := 1, fetch := [0], tail := [1], halted := [false], suspended := [false], saved := [none] }),
    (1, { state := 1, fetch := [0], tail := [0], halted := [false], suspended := [false], saved := [none] })]
  cores := [(191, { running := run, request := req })]
  ctxs := [(ctxKey 191 0 1, { bound := true }), (ctxKey 191 0 2, { bound := true, ring := 1 })] }

/-! Witnesses of DroverActs, one per clause. -/

theorem witness_ringSwitch_idle : coreOk (drover none none 0) 191 = true ∧ (getCore (drover none none 0) 191).running = none ∧
    nextRing (drover none none 0) 191 65535 = some (0, 1) := by decide +kernel

theorem witness_ringSwitch : ∀ stride ∈ [255, 256], let s := drover (some (1, 2)) (some (0, 7)) stride
    coreOk s 191 = true ∧ (getCore s 191).running = some (1, 2) ∧ notRestored s 1 (getCtx s 191 0 2).member = false ∧
    (getCore s 191).request ≠ none ∧ fullMark s 191 2 = true ∧ wantSwitch s 191 = some 0 ∧ ringCtx s 191 0 = some 1 ∧
    liveSaved s 191 2 1 = 0 ∧ saveStride s 1 = stride := by decide +kernel

theorem witness_ringSwitch_withdrawn : let s := drover (some (0, 1)) (some (1, 7)) 0
    (getCore s 191).running = some (0, 1) ∧ notRestored s 0 (getCtx s 191 0 1).member = false ∧ (getCore s 191).request ≠ none ∧
    fullMark s 191 1 = true ∧ wantSwitch s 191 = none := by decide +kernel

/-- R68: general entries are cleared for the context of another ring, and not for the first one. -/
theorem test_ringSwitch_clears : ∀ p ∈ [(some 5, true), (some 0, false), (none, false)],
    bit (rget (switchIn (setCore live 0 { matrixRing := p.1 }) 0 0 1) (coreReg 0 0xC40)) 3 = p.2 := by decide +kernel

theorem witness_ringSwitch_restores : ∃ s, (getCore s 191).running = some (1, 2) ∧ notRestored s 1 (getCtx s 191 0 2).member = true :=
  ⟨setRing (drover (some (1, 2)) none 0) 1 { getRing (drover (some (1, 2)) none 0) 1 with saved := [some []] }, by decide +kernel, by decide +kernel⟩

theorem witness_class0Takeover : ∀ x ∈ [6, 7],
    let s := { queue 3 none [] with ctxs := [(ctxKey 0 3 1, { bound := true }), (ctxKey 0 3 x, { bound := true, buf := [nopCmd 3] })] }
    coreOk s 0 = true ∧ taker s 0 3 = some x ∧ curCtx s 0 3 ≠ some x ∧ curCtx s 0 3 ≠ some 6 ∧ takePoint s 0 3 = true := by decide +kernel

theorem witness_class0Release : let s := { live with cores := [(0, { cur := [some 6, none, none, none], displaced := [some (some 1), none, none, none] })] }
    coreOk s 0 = true ∧ (((getCore s 0).cur.zip (getCore s 0).displaced).any fun p => p.2.isSome && (p.1 == some 6 && quiescent s 0 6)) = true := by
  decide +kernel

theorem witness_switchRequest : (getCore (drover none none 0) 191).request = none ∧
    (getCore (drover none none 0) 191).retry ≤ (drover none none 0).time ∧ wantSwitch (drover none none 0) 191 = some 0 := by decide +kernel

theorem witness_switchWithdraw : ∃ s : State, coreOk s 191 = true ∧ (getCore s 191).request = some (0, 7) ∧ fld (rget s (drvReg 0)) 31 16 = 1 ∧
    7 + Config.tick * fld (rget s (drvReg 0)) 31 16 = s.time ∧ (getCore s 191).running = some (1, 2) ∧
    (fullMark s 191 2 = false ∨ liveFits s 191 2 1 = false) :=
  ⟨{ rset (drover (some (1, 2)) (some (0, 7)) 0) (drvReg 0) (at_ 1 16) with time := 482 }, by decide +kernel, by decide +kernel, by decide +kernel,
   by decide +kernel, by decide +kernel, by decide +kernel⟩

/-- Queues 0 and 1 of core 0 each wait at a hurdle that the other has not reached. -/
def crossed : State := { live with
  time := 475
  cores := [(0, { cur := [some 1, some 1, none, none] })]
  ctxs := [(ctxKey 0 0 1, { bound := true, run := some { cmd := hurCmd 0 0 3, held := true, aux := 1 }, hurdles := [(0, 1)] }),
    (ctxKey 0 1 1, { bound := true, run := some { cmd := hurCmd 1 1 3, held := true, aux := 1 }, hurdles := [(1, 1)] })] }

theorem witness_DeadlockConfirmActs : coreOk crossed 0 = true ∧ curCtx crossed 0 0 = some 1 ∧ curCtx crossed 0 1 = some 1 ∧
    (∃ p r, blockOf crossed 0 0 = some p ∧ blockOf crossed 0 1 = some r ∧ p.edges = [1] ∧ r.edges = [0] ∧ p.holds = true ∧ r.holds = true ∧
      Config.tick + p.since = crossed.time ∧ Config.tick + r.since = crossed.time) ∧ Config.tick + (getCore crossed 0).changed ≤ crossed.time ∧
    (∀ q < 4, q ≠ 0 → q ≠ 1 → blockOf crossed 0 q = none) := by
  refine ⟨by decide +kernel, by decide +kernel, by decide +kernel, ⟨_, _, rfl, rfl, ?_⟩, by decide +kernel, ?_⟩
  · decide +kernel
  · intro q h a b
    have : q = 2 ∨ q = 3 := by omega
    rcases this with rfl | rfl <;> rfl

theorem witness_deadlockConfirm_none : ∀ q < 4, blockOf live 0 q = none := by
  intro q h
  have : q = 0 ∨ q = 1 ∨ q = 2 ∨ q = 3 := by omega
  rcases this with rfl | rfl | rfl | rfl <;> rfl

/-! ## Service rings -/

/-- The bytes of memory from the front line of a service ring on, the offsets of those that are not zero listed. -/
abbrev Line := List (Nat × Byte)

/-- Service ring n of target tgt has the line at the front of its 16 slots, which lie in bank 0. Ring 0 is as in `live`. -/
def serving (n tgt : Nat) (line : Line) : State := { live with
  regs := [(ringReg 0 0, 1), (ringReg 0 1, at_ 4 56 ||| 0x1000), (ringReg 0 2, at_ 4 56 ||| 0x2000), (ringReg 0 3, at_ 1 8),
    (ringReg n 0, at_ tgt 6 ||| 1), (ringReg n 1, at_ 4 56 ||| BitVec.ofNat 64 blinBase), (ringReg n 2, at_ 4 56 ||| 0x4000),
    (fldReg 0 0x00, 3), (fldReg 0 0x08, -1), (fldReg 0 0x10, -1), (fldReg 0 0x18, -1), (fldReg 0 0x20, -1), (fldReg 0 0x28, -1),
    (fldReg 0 0x30, -1), (fldReg 0 0x38, -1), (fldReg 0 0x40, at_ 4 16), (fldReg 0 0x50, -1)]
  rings := [(0, { state := 1, fetch := [0], tail := [0], halted := [false], suspended := [false], saved := [none] }),
    (n, { state := 1, fetch := [0], tail := [1], halted := [false], suspended := [false], saved := [none] })]
  mem := line.map fun p => (blinBase + p.1, p.2) }

/-- The state after the front line of ring n was read. -/
def fetched (s : State) (n : Nat) : State := match fetchLine s n 0 with | .ok u _ => u | _ => s

theorem serves {s : State} {n tgt op : Nat} {k : Cmd} (h : (decide (ringTarget s n = tgt) && svcReady s n && opcode k == op &&
    !(svcHeaderBad tgt k) && (match fetchLine s n 0 with | .ok _ bs => decide (cmdOf bs = k) | _ => false)) = true) :
    Serves s (fetched s n) n tgt op k := by
  simp only [Bool.and_eq_true, decide_eq_true_eq, beq_iff_eq, Bool.not_eq_true'] at h
  refine ⟨h.1.1.1.1, h.1.1.1.2, ?_, h.1.1.2, h.1.2⟩
  have h5 := h.2
  unfold fetched
  cases e : fetchLine s n 0 with
  | ok u bs => rw [e] at h5; exact ⟨bs, rfl, (of_decide_eq_true h5).symm⟩
  | bad u st => rw [e] at h5; simp at h5
  | held u => rw [e] at h5; simp at h5

/-- A ring command for all members of ring 0, from ring 3. -/
def rcCmd (op : Nat) : Cmd := { w0 := w0 op 5, w2 := at_ 1 24 }
def rcLine (op : Byte) : Line := [(0, op), (1, 5), (19, 1)]

/-- Ring 0's member suspended and halted, or neither. -/
def ring0 (s : State) (b : Bool) : State := setRing s 0 { getRing s 0 with suspended := [b], halted := [b] }

/-! Witnesses of RingCommandsComplete, one per clause. -/

theorem witness_ring_commands : ∀ op ∈ [0x20, 0x21, 0x22, 0x23], ∀ b ∈ [true, false],
    let u := fetched (ring0 (serving 3 2 (rcLine op)) b) 3
    rcBad (rcCmd op.toNat) = false ∧ rcCheck u (svcOf u 3 (rcCmd op.toNat)) = none ∧ rcMembers u (rcCmd op.toNat) = [0] ∧
    ((getRing u 0).suspended.getD 0 false) = b ∧ ((getRing u 0).halted.getD 0 false) = b ∧ launchesRun u 0 0 = false := by decide +kernel

theorem witness_RingCommandsComplete :
    Serves (ring0 (serving 3 2 (rcLine 0x20)) false) (fetched (ring0 (serving 3 2 (rcLine 0x20)) false) 3) 3 2 0x20 (rcCmd 0x20) ∧
    Serves (ring0 (serving 3 2 (rcLine 0x21)) true) (fetched (ring0 (serving 3 2 (rcLine 0x21)) true) 3) 3 2 0x21 (rcCmd 0x21) ∧
    Serves (ring0 (serving 3 2 (rcLine 0x22)) true) (fetched (ring0 (serving 3 2 (rcLine 0x22)) true) 3) 3 2 0x22 (rcCmd 0x22) ∧
    Serves (ring0 (serving 3 2 (rcLine 0x23)) true) (fetched (ring0 (serving 3 2 (rcLine 0x23)) true) 3) 3 2 0x23 (rcCmd 0x23) :=
  ⟨serves (by decide +kernel), serves (by decide +kernel), serves (by decide +kernel), serves (by decide +kernel)⟩

theorem witness_ringSuspend_acting : ∃ s, (getRing s 3).acting = some (9, rcCmd 0x20) ∧ rcBad (rcCmd 0x20) = false ∧ rcMembers s (rcCmd 0x20) = [0] ∧
    (rcMembers s (rcCmd 0x20)).any (launchesRun s 0) = false :=
  ⟨setRing (serving 3 2 (rcLine 0x20)) 3 { getRing (serving 3 2 (rcLine 0x20)) 3 with acting := some (9, rcCmd 0x20) }, by decide +kernel,
   by decide +kernel, by decide +kernel, by decide +kernel⟩

theorem fwReads {s : State} {o : Owner} {a n : Nat} (h : (clean s && decide (askOf s o = none) && gDev (gOwn s a) == s.devid &&
    decide (region s.grade a = .dram) && populated s.grade a n && !(rangeHeld s a n)) = true) : FwReads s o a n := by
  simp only [Bool.and_eq_true, decide_eq_true_eq, beq_iff_eq, Bool.not_eq_true'] at h
  exact ⟨h.1.1.1.1.1, h.1.1.1.1.2, h.1.1.1.2, .inl h.1.1.2, h.1.2, h.2⟩

/-- POOL.DEFINE of pool 31, whose descriptor lies at 0x8000. -/
def defineCmd : Cmd := { w0 := w0 0x18 4, w2 := 0x8000 }
def defineLine : Line := [(0, 0x18), (1, 4), (17, 0x80)]

/-! Witnesses of PoolAndModelCommandsComplete, one per clause. -/

/-- The descriptor and the channel table are at hand, and firmware reads both. -/
theorem witness_poolDefine : let u := fetched (serving 3 1 defineLine) 3
    let g := geoOf fun i => (wordsAt (viewBytes u 0x8000 64)).getD i 0
    Serves (serving 3 1 defineLine) u 3 1 0x18 defineCmd ∧ fld defineCmd.w2 63 50 = 0 ∧ tailZero defineCmd = true ∧
    fwCan u 0 0x8000 64 false = true ∧ fwCan u 0 g.chtab (2 * g.nch) false = true ∧ FwReads u (.service 3) 0x8000 64 ∧
    FwReads u (.service 3) g.chtab (2 * g.nch) ∧
    isOk ((fwRead u (.service 3) 0x8000 64).bind fun v bs =>
      let h := geoOf fun i => (wordsAt bs).getD i 0
      (Got.guard v (!(fwCan v 0 h.chtab (2 * h.nch) false)) 0).bind fun v _ => fwRead v (.service 3) h.chtab (2 * h.nch)) = true :=
  ⟨serves (by decide +kernel), by decide +kernel, by decide +kernel, by decide +kernel, by decide +kernel, fwReads (by decide +kernel),
   fwReads (by decide +kernel), by decide +kernel⟩

def dropCmd (p : Nat) : Cmd := { w0 := w0 0x19 4, w2 := at_ p 0 }
def dropLine : Line := [(0, 0x19), (1, 4), (16, 31)]

theorem witness_poolDrop : Serves (serving 3 1 dropLine) (fetched (serving 3 1 dropLine) 3) 3 1 0x19 (dropCmd 31) ∧
    fld (dropCmd 31).w2 63 5 = 0 ∧ tailZero (dropCmd 31) = true := ⟨serves (by decide +kernel), by decide +kernel, by decide +kernel⟩

/-- MODEL.BIND of model 255: one partition, a vocabulary of one token, a step budget of 4. -/
def bindCmd : Cmd := { w0 := w0 0x12 4, w2 := 255 ||| at_ 1 16, w3 := 1 ||| at_ 4 32, w4 := 0x10000, w5 := 0x20000 }
def bindLine : Line := [(0, 0x12), (1, 4), (16, 255), (18, 1), (24, 1), (28, 4), (34, 1), (42, 2)]

theorem witness_modelBind : ∃ s u : State, Serves s u 3 1 0x12 bindCmd ∧ mbBad bindCmd = false ∧ mbAbsent u bindCmd = false ∧
    (getPool u (fld bindCmd.w2 12 8)).isSome = true ∧ sameGroup u ((svcOf u 3 bindCmd).fold.getD 16) (poolGeo u (fld bindCmd.w2 12 8)).fold = true ∧
    tallyReach u ((svcOf u 3 bindCmd).fold.getD 16) (mbUnit bindCmd) (fld bindCmd.w2 29 24) = true ∧
    fwCan u ((svcOf u 3 bindCmd).fold.getD 16) (fld bindCmd.w4 49 0) (2 * sheetSize (fld bindCmd.w3 41 32)) true = true ∧
    fwCan u ((svcOf u 3 bindCmd).fold.getD 16) (fld bindCmd.w5 49 0)
      (tokBudget (fld bindCmd.w3 41 32) * fld bindCmd.w3 20 0 * lfBytes (fld bindCmd.w2 31 31)) true = true ∧
    (getModel u (fld bindCmd.w2 7 0)).bound = false :=
  ⟨pooled (serving 3 1 bindLine), fetched (pooled (serving 3 1 bindLine)) 3, serves (by decide +kernel), by decide +kernel, by decide +kernel,
   by decide +kernel, by decide +kernel, by decide +kernel, by decide +kernel, by decide +kernel, by decide +kernel⟩

/-- Model 255 of fold 0 is bound. -/
def modelled (s : State) : State := setModel (pooled s) 255 { bound := true, nparts := 1, vocab := 1, budget := 4, chunk := 32 }

def unbindCmd : Cmd := { w0 := w0 0x13 4, w2 := 255 }
def unbindLine : Line := [(0, 0x13), (1, 4), (16, 255)]

theorem witness_modelUnbind : ∃ s u : State, Serves s u 3 1 0x13 unbindCmd ∧ fld unbindCmd.w2 63 8 = 0 ∧ tailZero unbindCmd = true ∧
    (getModel u 255).bound = true ∧ (svcOf u 3 unbindCmd).fold = some (getModel u 255).fold ∧ modelReqs u 255 = [] ∧ (getModel u 255).isOpen = false :=
  ⟨modelled (serving 3 1 unbindLine), fetched (modelled (serving 3 1 unbindLine)) 3, serves (by decide +kernel), by decide +kernel, by decide +kernel,
   by decide +kernel, by decide +kernel, by decide +kernel, by decide +kernel⟩

/-- A command about request 131,071, of generation 0, in state QUEUED of fold 0. -/
def reqCmd (op : Nat) (x : Word) : Cmd := { w0 := w0 op 4, w2 := BitVec.ofNat 64 131071 ||| x }
def reqLine (op : Byte) (l : Line) : Line := [(0, op), (1, 4), (16, 255), (17, 255), (18, 1)] ++ l
def asked (line : Line) : State := { serving 3 1 line with
  mem := (serving 3 1 line).mem ++ [(rtEntry 131071, 1)]
  srv := { (serving 3 1 line).srv with reqs := [(131071, some {})] } }

/-! Witnesses of RequestCommandsAccepted, one per clause. -/

theorem witness_RequestCommandsAccepted : ∀ p ∈ [(reqLine 0x11 [], 0x11, 0), (reqLine 0x14 [(20, 9)], 0x14, at_ 9 32), (reqLine 0x15 [], 0x15, 0),
      (reqLine 0x16 [], 0x16, 0)], Serves (asked p.1) (fetched (asked p.1) 3) 3 1 p.2.1 (reqCmd p.2.1 p.2.2) ∧
    handleCheck (fetched (asked p.1) 3) ((svcOf (fetched (asked p.1) 3) 3 (reqCmd p.2.1 p.2.2)).fold.getD 16) (fld (reqCmd p.2.1 p.2.2).w2 31 0) = none := by
  simp only [List.mem_cons, List.not_mem_nil, or_false, forall_eq_or_imp, forall_eq]
  exact ⟨⟨serves (by decide +kernel), by decide +kernel⟩, ⟨serves (by decide +kernel), by decide +kernel⟩,
    ⟨serves (by decide +kernel), by decide +kernel⟩, ⟨serves (by decide +kernel), by decide +kernel⟩⟩

theorem witness_req_words : fld (reqCmd 0x11 0).w2 63 32 = 0 ∧ tailZero (reqCmd 0x11 0) = true ∧ fld (reqCmd 0x14 (at_ 9 32)).w2 63 36 = 0 ∧
    chNch (reqCmd 0x14 (at_ 9 32)) = 9 ∧ pkDest (reqCmd 0x15 0) = 0 ∧ fwCan live 0 0x8000 4096 true = true := by decide +kernel

/-- REQ.SUBMIT of p prompt tokens and one new token for model 255, with a prefix match where `hit`. -/
def submitCmd (p : Nat) (hit : Bool) : Cmd :=
  { w0 := w0 0x10 4, w2 := 255 ||| (if hit then 0 else at_ 1 13), w3 := 0x8000, w4 := at_ p 0 ||| at_ 1 32, w6 := 0x9000, w7 := 0xA000 }
def submitLine (p : Byte) (hit : Bool) : Line :=
  [(0, 0x10), (1, 4), (16, 255)] ++ (if hit then [] else [(17, 0x20)]) ++ [(25, 0x80), (32, p), (36, 1), (49, 0x90), (57, 0xA0)]

/-- Fold 0 has a share of one entry and n bundles, and its pool n slots. -/
def submitting (n : Nat) (l : Line) : State :=
  rset (rset (modelled (serving 3 1 l)) (fldReg 0 0x48) (1 ||| at_ n 32)) (srvReg 0x1018) (at_ n 0)

/-- The checks of an admission, and room for n bundles. -/
def submitOk (u : State) (k : Cmd) (n : Nat) : Bool :=
  let d := getModel u (fld k.w2 7 0)
  let g := poolGeo u d.pool
  let plen := cdiv (fld k.w4 24 0 + fld k.w4 56 32 + fld k.w2 35 32) g.t
  let lim := if bit k.w2 13 then 0 else (fld k.w4 24 0 - 1) / g.t
  let admits (v : State) (toks : List Nat) : Bool :=
    let hits := prefixMatch v 0 d.pool g.tsel g.t toks lim 0 0
    hits.isEmpty && foldBundles v 0 + (plen - hits.length) ≤ kvQuota v 0 && plen - hits.length ≤ freeSlots v d.pool
  !(rqBad k) && d.bound && d.fold == 0 && (svcOf u 3 k).fold.getD 16 == 0 && (getPool u d.pool).isSome && plen == n &&
    fwCan u 0 (fld k.w3 49 0) (4 * fld k.w4 24 0) false && fwCan u 0 (fld k.w7 49 0) 128 false && fwCan u 0 (fld k.w6 49 0) (4 * plen) true &&
    foldRing u 0 (fld k.w2 31 16) && decide (((liveReqs u).filter fun i => eFold u i == 0).length < rtShare u 0) &&
    decide ((liveReqs u).length < nReq) &&
    (match fwRead32 u (.service 3) (fld k.w3 49 0) (lim * g.t) with | .ok v toks => admits v toks | _ => false) &&
    admits (fwAfter u (4 * (lim * g.t))) (unpack 32 (lim * g.t) (viewBytes u (fld k.w3 49 0) (4 * (lim * g.t))))

theorem witness_RequestSubmitAdmits : Serves (submitting 1 (submitLine 1 false)) (fetched (submitting 1 (submitLine 1 false)) 3) 3 1 0x10 (submitCmd 1 false) ∧
    submitOk (fetched (submitting 1 (submitLine 1 false)) 3) (submitCmd 1 false) 1 = true ∧ bit (submitCmd 1 false).w2 13 = true :=
  ⟨serves (by decide +kernel), by decide +kernel, by decide +kernel⟩

/-- A prompt of 33 tokens, the first 32 of which are looked up. -/
theorem witness_reqSubmit_prompt : Serves (submitting 2 (submitLine 33 true)) (fetched (submitting 2 (submitLine 33 true)) 3) 3 1 0x10 (submitCmd 33 true) ∧
    submitOk (fetched (submitting 2 (submitLine 33 true)) 3) (submitCmd 33 true) 2 = true ∧ bit (submitCmd 33 true).w2 13 = false ∧
    FwReads (fetched (submitting 2 (submitLine 33 true)) 3) (.service 3) 0x8000 128 :=
  ⟨serves (by decide +kernel), by decide +kernel, by decide +kernel, fwReads (by decide +kernel)⟩

/-! ## The serving engine and security -/

/-! Witnesses of ServingStepsAct, one per clause. -/

theorem witness_srvStepDone : (65535 < 65536 ∧ 255 < 256) ∧ ((getModel (modelled live) 255).bound = true →
    ringFold (modelled live) 0 = some (getModel (modelled live) 255).fold) := ⟨by decide, fun _ => by decide +kernel⟩

/-- The model's step is open since 3, with a limit of 1 us. -/
def stepping : State := { setModel (modelled live) 255 { getModel (modelled live) 255 with isOpen := true, limit := 1, pubTime := 3 } with time := 478 }

theorem witness_stepTimeout : (getModel stepping 255).isOpen = true ∧ (getModel stepping 255).limit ≠ 0 ∧
    (getModel stepping 255).pubTime + Config.tick * (getModel stepping 255).limit = stepping.time := by decide +kernel

theorem witness_stepBoundary : (getModel (modelled live) 255).isOpen = false ∧ fwFatal (modelled live) = false ∧
    (getModel (modelled live) 255).bound = true ∧ (getModel (modelled live) 255).planned = none ∧ ∃ u, boundary (modelled live) 255 = .ok u () := by
  have ⟨u, d, h⟩ := gotOk (g := boundary (modelled live) 255) (by decide +kernel)
  exact ⟨by decide +kernel, by decide +kernel, by decide +kernel, by decide +kernel, u, h⟩

/-- A step is planned. -/
def plannedStep : State := setModel (modelled live) 255 { getModel (modelled live) 255 with planned := some ([], []) }

theorem witness_stepBoundary_planned : (getModel plannedStep 255).isOpen = false ∧ fwFatal plannedStep = false ∧ (getModel plannedStep 255).bound = true ∧
    (getModel plannedStep 255).planned = some ([], []) ∧ (getModel plannedStep 255).late = 0 := by decide +kernel

theorem witness_stepBoundary_idle : modelReqs (modelled live) 255 = [] ∧ (modelled live).srv.cmds = [] ∧ (modelled live).srv.groups = [] ∧
    (getModel (modelled live) 255).batches = [] ∧ (getModel (modelled live) 255).closing = none := by decide +kernel

/-- Request 131,071 of one token is parked, its only page not yet written to its image. -/
def parking : State := { pooled live with
  mem := [(rtEntry 131071 + 8, 1)]
  srv := { (pooled live).srv with
    reqs := [(131071, some { pages := [(0, some 0)], image := some { addr := 0x8000, size := 8192, area := false, job := some (3, 9) } })] } }

/-- The pages of its image. -/
def parkRuns : List (Nat × Nat) :=
  (imgOrder (poolGeo parking (getReq parking 131071).pool) (eC parking 131071)).map fun e =>
    (imgAddr parking 131071 e.1 e.2, (poolGeo parking (getReq parking 131071).pool).page)

theorem witness_parkImageDone : 131071 < nReq ∧ (∃ im, (getReq parking 131071).image = some im ∧ im.job = some (3, 9)) ∧ parkRuns.length = 1 ∧
    (∀ r ∈ parkRuns, FwReads parking (.request 131071) r.1 r.2) ∧ isOk (fwReadAll (.request 131071) parkRuns parking) = true := by
  refine ⟨by decide, ⟨_, rfl, rfl⟩, by decide +kernel, fun r h => fwReads (of_decide_eq_true (List.all_eq_true.mp (?_ : parkRuns.all (fun r => decide
    ((clean parking && decide (askOf parking (.request 131071) = none) && gDev (gOwn parking r.1) == parking.devid &&
    decide (region parking.grade r.1 = .dram) && populated parking.grade r.1 r.2 && !(rangeHeld parking r.1 r.2)) = true)) = true) r h)), by decide +kernel⟩
  decide +kernel

def commitCmd (kind : Nat) : Cmd := { w0 := w0 0x31 5, w2 := at_ kind 0 }
def commitLine : Line := [(0, 0x31), (1, 5), (16, 3)]
def revokeCmd : Cmd := { w0 := w0 0x32 5 }
def revokeLine : Line := [(0, 0x32), (1, 5)]
def unlockCmd : Cmd := { w0 := w0 0x30 5, w2 := 0x8000 }
def unlockLine : Line := [(0, 0x30), (1, 5), (17, 0x80)]

/-! Witnesses of SecurityCommandsComplete, one per clause. -/

theorem witness_secCommitSvn : Serves (serving 65535 2 commitLine) (fetched (serving 65535 2 commitLine) 65535) 65535 2 0x31 (commitCmd 3) ∧
    fld (commitCmd 3).w2 63 8 = 0 ∧ tailZero (commitCmd 3) = true ∧ fld (commitCmd 3).w2 7 0 = 3 ∧
    debugScope (fetched (serving 65535 2 commitLine) 65535) = 0 :=
  ⟨serves (by decide +kernel), by decide +kernel, by decide +kernel, by decide +kernel, by decide +kernel⟩

theorem witness_secRevokeKey : Serves (serving 65535 2 revokeLine) (fetched (serving 65535 2 revokeLine) 65535) 65535 2 0x32 revokeCmd ∧
    tailZero revokeCmd = true ∧ debugScope (fetched (serving 65535 2 revokeLine) 65535) = 0 ∧
    ((fetched (serving 65535 2 revokeLine) 65535).boot.images.any fun i => i.keyIndex == 0) = false :=
  ⟨serves (by decide +kernel), by decide +kernel, by decide +kernel, by decide +kernel⟩

theorem witness_secDebugUnlock : let u := fetched (serving 65535 2 unlockLine) 65535
    Serves (serving 65535 2 unlockLine) u 65535 2 0x30 unlockCmd ∧ fld unlockCmd.w2 63 50 = 0 ∧ fld unlockCmd.w2 2 0 = 0 ∧ tailZero unlockCmd = true ∧
    populated u.grade (fld unlockCmd.w2 49 0) 136 = true ∧ region u.grade (fld unlockCmd.w2 49 0) ≠ .csr ∧
    FwReads u (.service 65535) (fld unlockCmd.w2 49 0) 136 ∧ isOk (fwRead u (.service 65535) (fld unlockCmd.w2 49 0) 136) = true :=
  ⟨serves (by decide +kernel), by decide +kernel, by decide +kernel, by decide +kernel, by decide +kernel, by decide +kernel,
   fwReads (by decide +kernel), by decide +kernel⟩

/-! ## Channels and stored data -/

/-- Channel 383 as ch. -/
def chan (ch : Chan) : State := { live with chans := [(383, ch)] }

/-! Witnesses of ChannelBoutsAct, one per clause. -/

theorem witness_boutStart : ∃ l, (getChan { chan { mode := 1, launches := [5] } with launches := [(5, some (launch5 1 true 0))] } 383).mode = 1 ∧
    tget none [(5, some (launch5 1 true 0))] 5 = some l := ⟨_, by decide +kernel, rfl⟩

theorem witness_boutStart_gap : (getChan (chan { mode := 3, launches := [5] }) 383).mode = 3 ∧
    (getChan (chan { mode := 3, launches := [5] }) 383).committed = false ∧ (getChan (chan { mode := 3, launches := [5] }) 383).launches ≠ [] := by
  decide +kernel

/-- Its launch has faulted, so that the bout is over. -/
theorem witness_boutEnd : ∃ s, (getChan s 383).mode = 2 ∧ boutOver s 383 = true :=
  ⟨{ bout (iw 0) 0 with chans := [(383, { mode := 2, launches := [5], started := true, fault := some stUncorr })] }, by decide +kernel, by decide +kernel⟩

theorem witness_channelSwitchOut : (getChan (chan { mode := 4, committed := true }) 383).mode = 4 ∧ StoresWf (chan { mode := 4, committed := true }) :=
  ⟨by decide +kernel, { live_inv.stores with chans := by decide +kernel }⟩

theorem witness_capAdmit : ∃ s, computeNow s 11 < capOf s 11 ∧ ∃ h, h < 384 ∧ chanStack h = 11 ∧ (getChan s h).mode = 5 :=
  ⟨chan { mode := 5, launches := [5] }, by decide +kernel, 383, by decide, by decide +kernel, by decide +kernel⟩

/-! Witnesses of ArrivalsAct, one per clause. -/

theorem witness_ordinaryAccess : ∀ f ∈ [none, some 15], let a : Access := { addr := bankAddr 12287 0x5FFFFFF, len := 1, write := false, fold := f }
    accessWf live.grade 383 a = true ∧ innerAccess a = false ∧ regGo live 15 0 (chanStack 383) = true ∧
    (live.folds.held.any fun h => h.1 == 15 && h.2.1 == 0 && h.2.2.1 == chanStack 383) = false := by decide +kernel

/-- A repair's read of a fold's word is no traffic of the fold. -/
theorem witness_ordinaryAccess_inner : let a : Access := { addr := bankAddr 12287 0, len := 32, write := false, fold := some 15, kind := .repair }
    accessWf live.grade 383 a = true ∧ innerAccess a = true := by decide +kernel

theorem witness_channelTakes : (∀ m ∈ [0, 5], (getChan (chan { mode := m }) 383).mode = 0 ∨ (getChan (chan { mode := m }) 383).mode = 5) ∧
    ∀ m ∈ [1, 2, 3, 4], (getChan (chan { mode := m }) 383).mode ∈ [1, 2, 3, 4] := by decide +kernel

/-- One word of channel 383 on its way, toward a scratchpad or toward a bank of a channel in a bout. -/
def arriving (tap : Bool) (a m : Nat) : State := { live with
  chans := [(0, { mode := 2 }), (383, { mode := m, up := [{ launch := 5, isTap := tap, addr := a, data := [1], core := 0, tally := 63 }] })] }

theorem witness_upArrives : ∀ tap ∈ [true, false], ∀ a ∈ [spdBase, blinBase], ∀ m ∈ [2, 3],
    (getChan (arriving tap a m) 383).up[0]?.map (·.isTap) = some tap ∧
    ¬((getChan (arriving tap a m) 383).mode = 3 ∧ (getChan (arriving tap a m) 383).hold ≠ []) ∧
    rangeHeld (arriving tap a m) a 1 = decide (a = blinBase) := by decide +kernel

/-- Two runs of one repeat of a DMA.PUT toward address a. -/
def putting (a : Nat) (d : List Byte) : State :=
  let p : PutB := { addr := a, data := d, weight := 8, unit := 203, num := 63, fold := 0, key := 1 }
  { live with puts := [p, p] }

/-- The earlier run of the named byte goes first. -/
def putBefore (s : State) (k : Nat) : Bool := (s.puts[k]?).any fun p =>
  (s.puts.take k).any fun q => q.key == p.key && q.addr < p.addr + p.data.length && p.addr < q.addr + q.data.length

theorem witness_putArrive : (putting spdLast [1]).puts.length = 2 ∧ putBefore (putting spdLast [1]) 1 = true ∧
    putBefore (putting spdLast [1]) 0 = false ∧ region live.grade spdLast = .spd ∧
    putBefore (putting cmnBase [1]) 0 = false ∧ region live.grade cmnBase = .cmn ∧
    putBefore (putting blinBase [1]) 0 = false ∧ region live.grade blinBase = .dram ∧
    putBefore (putting (dbReg 0 0) (leBytes 8 1)) 0 = false ∧ region live.grade (dbReg 0 0) = .csr ∧ regSizeOk (dbReg 0 0) 8 = true := by decide +kernel

theorem witness_regulatorRelease : ∃ s a, regGo s 15 5 11 = true ∧
    s.folds.held.find? (fun h => h.1 == 15 && h.2.1 == 5 && h.2.2.1 == 11) = some (15, 5, 11, a) :=
  ⟨{ live with folds := { held := [(15, 5, 11, { addr := bankAddr 0 0, len := 1, write := false })] } }, _, by decide +kernel, rfl⟩

theorem witness_StoredDataUpkeepActs : coreOk live 191 = true ∧
    (tget {} [(11, ({ repairs := [(bankAddr 12287 0, 0)] } : Stack))] 11).repairs = [(bankAddr 12287 0, 0)] ∧
    grazeWf live.grade (bankAddr 12287 0x5FFFFFF) = true ∧ grazeWf live.grade (cmnEnd - 1) = true ∧ grazeWf live.grade cmnEnd = false ∧
    11 * grazeTicks live < 10 * (({ live with time := 11 * grazeTicks live } : State).time - live.ecc.passStart) := by decide +kernel

/-! Witnesses of SparingActs, one per clause. -/

/-- Bank 12,287 has reached two uncorrectable words, with AUTO_SPARE. -/
theorem witness_migrationStart : ∃ s, StoresWf s ∧ migrationDue s 12287 = true ∧ bankSpared s 12287 = false ∧ bit (rget s (spareReg 12287)) 37 = false ∧
    tget 0 s.ecc.sparesUsed (12287 / 64) < 2 :=
  ⟨{ live with ecc := { requests := [12287] } }, { live_inv.stores with }, by decide +kernel, by decide +kernel, by decide +kernel, by decide +kernel⟩

theorem witness_spareSwitch : ∃ s, StoresWf s ∧ bit (rget s (spareReg 12287)) 37 = true ∧ fld (rget s (spareReg 12287)) 36 32 = 12287 % 32 ∧
    (getChan s (12287 / 32)).mode ≠ 2 :=
  ⟨{ live with regs := [(spareReg 12287, at_ 1 37 ||| at_ 31 32)] }, { live_inv.stores with regs := by decide +kernel }, by decide +kernel, by decide +kernel,
   by decide +kernel⟩

theorem witness_tsvRemap : (getChan (chan { tsvs := 1 }) 383).mode ≠ 2 ∧ (getChan (chan { tsvs := 1 }) 383).tsvs = 1 := by decide +kernel

/-! ## Links and the domain -/

/-- Link 31 is up with all four lanes, to device 1; the device is a member of a domain of two. -/
def linked (k : LinkSt) : State := { live with
  regs := live.regs ++ [(swvReg 0, 2), (linkReg 31, at_ 0xF 4 ||| at_ 1 10 ||| at_ 1 21)]
  fab := { links := [(31, k)] } }

theorem linked_wf (k : LinkSt) : StoresWf (linked k) :=
  have h : regsWfFrom .f 0 (linked {}).regs = true := by decide +kernel
  { live_inv.stores with regs := h }

/-! Witnesses of LinkEventsAct, one per clause. -/

theorem witness_LinkEventsAct : linkUp (linked { reeq := some 3 }) 31 = true ∧ linkLanes (linked {}) 31 = 0xF ∧
    (∀ n < 4, bit (linkLanes (linked {}) 31) n = true) ∧ (getLink (linked { reeq := some 3 }) 31).reeq = some 3 ∧
    (∀ t, (getLink (linked {}) 31).reeqAt = some t → 10000000 * Config.tick + t ≤ (linked {}).time) :=
  ⟨by decide +kernel, by decide +kernel, by decide +kernel, by decide +kernel, fun t h => by
    have : (getLink (linked {}) 31).reeqAt = none := by decide +kernel
    rw [this] at h; cases h⟩

theorem witness_linkDown : NoneAway (linked {}) := fun _ _ _ h => nomatch h

theorem witness_laneReequalisation_again : ∃ s, linkUp s 31 = true ∧ linkLanes s 31 = 0xF ∧ (getLink s 31).reeqAt = some 1 ∧
    10000000 * Config.tick + 1 = s.time := ⟨{ linked { reeqAt := some 1 } with time := 10000000 * Config.tick + 1 }, by decide +kernel, by decide +kernel,
      by decide +kernel, by decide +kernel⟩

/-! Witnesses of DomainEventsAct, one per clause. -/

theorem witness_DomainEventsAct : live.devid = 0 ∧ live.boot.state = 4 ∧ bringupOpen live = true := by decide +kernel

theorem witness_bringupReportDeadline : ∃ s, bringupOpen s = true ∧ s.boot.state = 1 ∧ s.boot.joined = false ∧
    190000 * Config.tick + s.fab.began = s.time :=
  ⟨{ State.reset with time := 190000 * Config.tick, boot := { step := 7 } }, by decide +kernel, by decide, by decide, by decide⟩

/-! ## The host interface -/

/-- A word of core 191's scratchpad that the physical function reaches through BAR2: segment 0 of its window, moved. -/
def windowed : State := { hosted with hif := { hosted.hif with wins := [(0, some (BitVec.ofNat 64 spdBase ||| at_ 1 63))] } }

/-! Witnesses of HostAccessesAct, one per clause. -/

theorem witness_hostRead_register : accessGate hosted 0 0 (bar0Off (thmReg 0)) 8 false false = .reg (thmReg 0) := by decide +kernel

theorem witness_hostRead_memory : ∃ a, accessGate hosted 0 2 0 8 false false = .mem a ∧ rangeHeld hosted a 8 = false ∧ hostGo hosted 0 4 (gOwn hosted a) 8 false = true :=
  ⟨0, by decide +kernel, by decide +kernel, by decide +kernel⟩

theorem witness_hostWrite_register : accessGate hosted 0 0 (bar0Off (thmReg 0)) [1, 2, 3, 4].length true false = .reg (thmReg 0) ∧
    (orderedReg (thmReg 0) && postedHeld hosted 0) = false := by decide +kernel

theorem witness_hostWrite_memory : ∃ a, accessGate hosted 0 2 255 [1].length true false = .mem a ∧ hostGo hosted 0 5 (gOwn hosted a) 1 true = true :=
  ⟨255, by decide +kernel, by decide +kernel⟩

theorem ofOk {ε α : Type} {p : State × Except ε α} (h : (match p.2 with | .ok _ => true | .error _ => false) = true) :
    ∃ v o, p = (v, .ok o) := by
  obtain ⟨v, x⟩ := p
  cases x with
  | ok o => exact ⟨v, o, rfl⟩
  | error e => simp at h

/-- What every clause of an AtomicOp asks for. -/
def aopOk (s : State) : Bool := decide (accessGate s 0 2 8 8 true true = .mem 8) && regSizeOk 8 8 && s.hif.linkUp && hostGo s 0 5 (gOwn s 8) 8 true

theorem witness_hostAtomicop : ∃ u old, aopOk hosted = true ∧ rangeHeld hosted 8 8 = false ∧ Whole hosted ∧ StoresWf hosted ∧
    firstUe (hostPay hosted 0 5 (gOwn hosted 8) 8 true) (unitsOf 8 8) = none ∧
    atomicAt (hostPay hosted 0 5 (gOwn hosted 8) 8 true) { path := 9 } 8 (8 == 8) (pcieAop 2) 1 2 = (u, .ok old) := by
  have ⟨u, old, h⟩ := ofOk (p := atomicAt (hostPay hosted 0 5 (gOwn hosted 8) 8 true) { path := 9 } 8 (8 == 8) (pcieAop 2) 1 2) (by decide +kernel)
  exact ⟨u, old, by decide +kernel, by decide +kernel, ⟨rfl, live_whole.chans, live_whole.cores⟩, { live_inv.stores with }, by decide +kernel, h⟩

/-- The word's channel computes. -/
def hostedBusy : State := { hosted with chans := [(locChan (locOf 8), { mode := 2 })] }

theorem witness_hostAccess_held : aopOk hostedBusy = true ∧ rangeHeld hostedBusy 8 8 = true ∧
    accessGate hostedBusy 0 2 8 8 false false = .mem 8 ∧ hostGo hostedBusy 0 4 (gOwn hostedBusy 8) 8 false = true := by decide +kernel

/-- The lead of a domain of two: device 1 is a member whose requests device 0 relays. -/
def lead : State := { hosted with
  regs := hosted.regs ++ [(swvReg 0, 2), (swvReg 8, 3), (hifReg 0, at_ 1 32)] }

/-! Witnesses of HostEventsAct, one per clause. -/

theorem witness_relayDoorbell : ∃ m, ({ lead with fab := { doors := [{ dst := 63, src := 0, cls := .tal, op := .doorbell }] } } : State).fab.doors.find?
    (fun m => m.dst == 63) = some m := ⟨_, rfl⟩

theorem witness_relayDeviceRequest : lead.devid = 0 ∧ memberBit lead 1 = true ∧ missingBit lead 1 = false ∧ bit (rget lead (hifReg 0)) 32 = true ∧
    bit (relayMap lead 1) 8 = true ∧ lead.hif.linkUp = true ∧ lead.hif.d3.contains (relayFn lead 1) = false ∧ relayGo lead (relayFn lead 1) 4 = true := by
  decide +kernel

theorem witness_hostCompletion : ∃ q, findReq { lead with hif := { lead.hif with outst := [{ id := 7, dev := 1, fn := 0, addr := 0, len := 4, issued := 0 }] } } 7 = some q :=
  ⟨_, rfl⟩

theorem witness_pcieLinkUp : live.boot.state ≠ 0 ∧ live.boot.strap ≠ 2 ∧ live.boot.perst = true ∧ live.hif.linkUp = false := by decide

theorem witness_FunctionEventsAct : ∃ s, numVf s = 16 ∧ s.boot.state = 4 ∧ s.hif.linkUp = true ∧ fnInReset s 16 = false ∧ s.hif.d3.contains 16 = false ∧ s.hif.d3.contains 15 = true ∧
    tget .unlocked s.hif.tdi 16 = .unlocked ∧ tget .unlocked s.hif.tdi 15 = .locked ∧ tget .unlocked s.hif.tdi 14 = .run ∧ s.trust.sessions ≠ [] ∧
    (s.hif.outst.any fun q => q.fn == 16 && q.addr / 4096 ≤ 5 && 5 ≤ (q.addr + q.len) / 4096) = false :=
  ⟨{ hosted with
      regs := hosted.regs ++ [(hifReg 8, at_ 16 19)]
      trust := { sessions := [(0, 0)] }
      hif := { hosted.hif with d3 := [15], tdi := [(14, .run), (15, .locked)], outst := [{ id := 0, dev := 0, fn := 16, addr := 6 * 4096, len := 4, issued := 0 }] } },
   by decide +kernel, by decide, by decide, by decide +kernel, by decide, by decide, by decide +kernel, by decide +kernel, by decide +kernel, by decide, by decide +kernel⟩

/-! ## Trust and management -/

/-- The three images of a bundle that verify. -/
def bundle : List ImageCheck := [{ kind := 1 }, { kind := 3 }, { kind := 2 }]

/-- READY with its images running, and one session of eight left. -/
def attested : State := { hosted with
  boot := { hosted.boot with images := bundle }
  trust := { sessions := (List.range 7).map fun i => (i, 0), nextSession := 7 } }

theorem witness_SpdmRequestsAnswered : stage1Up attested = true ∧ attested.trust.sessions.length = 7 ∧ sessionOpen attested 6 = true ∧
    attested.boot.state = 4 ∧ attested.hif.linkUp = true := by decide +kernel

theorem witness_ManagementRequestsAnswered : ∃ s, standby s = true ∧ running s = true ∧ 1000 * Config.tick + s.power.refreshed = s.time :=
  ⟨{ live with time := 1000 * Config.tick }, by decide +kernel, by decide +kernel, by decide +kernel⟩

/-! ## Power, temperature, reset and boot -/

/-! Witnesses of PowerLoopActs, one per clause. -/

theorem witness_powerSample : live.boot.state = 4 ∧ live.power.pin = false ∧ 65535 < 65536 := by decide

/-- The average lies below 0.95 of the target, and the last raise was 100 us ago. -/
theorem witness_knobRaise : ∃ s, s.boot.state = 4 ∧ 20 * fld (rget s (thmReg 0x18)) 15 0 < 19 * target s ∧ 100 * Config.tick + s.power.raised = s.time :=
  ⟨{ live with time := 100 * Config.tick }, by decide, by decide +kernel, by decide +kernel⟩

/-! Witnesses of ThermalEventsAct, one per clause. -/

theorem witness_thermalUpdate : (List.replicate 15 ((1968, 0) : Int × Nat)).length = 15 ∧ (List.replicate 15 (0 : Int)).length = 15 ∧ running live = true ∧
    ∃ d, ((List.replicate 15 ((1968, 0) : Int × Nat)).getD d (0, 0)).1 ≥ 1968 ∧ d < 15 :=
  ⟨by decide, by decide, by decide +kernel, 14, by decide, by decide⟩

theorem witness_thermalCalibrate : (∀ n ∈ [((14, 97, 0) : Nat × Int × Int)], n.1 < 15) ∧ running live = true := ⟨by decide, by decide +kernel⟩

theorem witness_throttleStep : ∃ s, running s = true ∧ 1000 * Config.tick + s.power.stepped = s.time :=
  ⟨{ live with time := 1000 * Config.tick }, by decide +kernel, by decide +kernel⟩

theorem witness_shutdownDeadline : ∃ s : State, s.power.sd = some (1, 14) ∧ 18 * 100 * Config.tick + 1 = s.time :=
  ⟨{ live with time := 18 * 100 * Config.tick + 1, power := { sd := some (1, 14) } }, rfl, by decide +kernel⟩

theorem witness_analogTrip : live.boot.thermtrip = false ∧ railsUp live = true ∧ 14 < 15 := by decide +kernel

theorem witness_thermtripRelease : ∃ s, s.boot.thermtrip = true ∧ standby s = true ∧ (∀ x ∈ List.replicate 15 (1855 : Int), x < 1856) :=
  ⟨{ live with boot := { thermtrip := true, state := 0 } }, rfl, by decide +kernel, by decide⟩

/-! Witnesses of ResetsAct, one per clause. -/

theorem witness_ResetsAct : live.boot.thermtrip = false ∧ railsUp live = true ∧ live.boot.stuck = false ∧ live.boot.pwrgd = true ∧ hosted.hif.linkUp = true ∧
    63 < 64 ∧ 3 < 4 ∧ railUp live (railNo .core) = true := by decide +kernel

theorem witness_supplyRailUp : ∃ s, s.boot.thermtrip = false ∧ railUp s (railNo .core) = false ∧ railUp s (railNo .core - 1) = true :=
  ⟨{ live with boot := { rails := [true, true, true, true, false], state := 0 } }, rfl, by decide +kernel, by decide +kernel⟩

theorem witness_railSequenceError : ∃ s, s.boot.thermtrip = false ∧ railUp s (railNo .core) = false ∧ railNo .core ≠ 0 ∧ railUp s (railNo .core - 1) = false :=
  ⟨{ live with boot := { rails := [true, true, true, false, false], state := 0 } }, rfl, by decide +kernel, by decide, by decide +kernel⟩

/-! Witnesses of RecoveryActs, one per clause. -/

theorem witness_lifeLogSummary : ∃ s, running s = true ∧ 3600000000 * Config.tick + s.life.summary = s.time :=
  ⟨{ live with time := 3600000000 * Config.tick }, by decide +kernel, by decide +kernel⟩

theorem witness_bootReady : ∃ s, s.boot.state = 1 ∧ s.boot.joined = true ∧ ∀ k ∈ [1, 2, 3], (runningImage s k).isSome = true :=
  ⟨{ State.reset with boot := { images := bundle, joined := true } }, rfl, rfl, by decide +kernel⟩

/-- In RECOVERY, with the host link up. -/
def recovering : State := { State.reset with boot := { state := 2, cause := 1 }, hif := { linkUp := true } }

theorem witness_rcvChunk : recovering.hif.linkUp = true ∧ accessGate recovering 0 0 0xF000008 8 true false = .rcv 8 := by decide +kernel

theorem witness_rcvChunkCopied : ∃ s, s.boot.rcvJob = some (1, true) ∧ StoresWf s ∧ twf 0 s.boot.rcvBuf = true :=
  ⟨{ recovering with boot := { recovering.boot with rcvJob := some (1, true), rcvBuf := [(0, 7)] } }, rfl, { reset_inv.stores with }, by decide⟩

theorem witness_rcvVerify : ∃ s, s.boot.rcvCheck = true ∧ s.boot.cause ≠ 7 ∧ bundleCause s bundle = 0 :=
  ⟨{ recovering with boot := { recovering.boot with rcvCheck := true } }, rfl, by decide, by decide +kernel⟩

/-! ## Single operations and frames -/

theorem witness_TallyArithmetic : StoresWf live ∧ 203 < 204 ∧ 63 < 64 := ⟨live_inv.stores, by decide, by decide⟩

theorem witness_SignalSaturates : StoresWf live ∧ 255 < 256 ∧ ∃ (s : State) (k : Slot), Acts s 0 3 0xF2 k ∧ ¬NoneOpen s 0 3 k := by
  let s := setCtx (queue 3 none [sigCmd 3 255 1]) 0 3 1 { getCtx (queue 3 none [sigCmd 3 255 1]) 0 3 1 with opens := [{ cmd := {} }] }
  refine ⟨live_inv.stores, by decide, s, slot 3 (sigCmd 3 255 1),
    ⟨rfl, by decide, by decide +kernel, by decide +kernel, by decide +kernel⟩, ?_⟩
  unfold NoneOpen; decide +kernel

theorem witness_InterleaveIsBijective : ilvEnd - 1 < ilvEnd ∧ 0 < ilvEnd ∧ 12287 < 12288 ∧ 0x5FFFFFF < 0x6000000 ∧
    (0 : Nat) / 256 / 384 = (256 * 383) / 256 / 384 := by decide

theorem witness_SecDedCode : secSyndrome 0 = 0 ∧ secSyndrome (BitVec.ofNat 72 (2 ^ 71)) = secCol 71 ∧
    (secSyndrome (BitVec.ofNat 72 3) ≠ 0 ∧ popc 8 (secSyndrome (BitVec.ofNat 72 3)) % 2 = 0) ∧
    (secSyndrome (BitVec.ofNat 72 (2 ^ 64 + 2 ^ 71)) ≠ 0 ∧ ∀ i, i < 72 → secSyndrome (BitVec.ofNat 72 (2 ^ 64 + 2 ^ 71)) ≠ secCol i) := by decide +kernel

theorem witness_WritesStayInPlace : StoresWf live ∧ clean live = true ∧ 0 + [(1 : Byte)].length ≤ ilvEnd := ⟨live_inv.stores, by decide, by decide⟩

theorem witness_ScalarArithmetic : StoresWf live ∧ (whoOf live 0 3 7).ctx < 8 ∧ 31 < 32 := ⟨live_inv.stores, by decide +kernel, by decide⟩

def isNext : Out State → Bool
  | .next _ => true
  | _ => false

theorem nextOf {o : Out State} (h : isNext o = true) : ∃ t, o = .next t := by
  cases o with
  | next t => exact ⟨t, rfl⟩
  | fault f => simp [isNext] at h
  | refused r => simp [isNext] at h

theorem witness_QueueCommandsFrame : queueRow (.nop 0 3) = true ∧ ∃ t, exec (.nop 0 3) (queue 3 none [nopCmd 3]) = .next t :=
  ⟨rfl, nextOf (by decide +kernel)⟩

theorem witness_InBankInstructionsFrame : nbuRowOf (.ainit 383) = true ∧ ∃ t, exec (.ainit 383) (bout (iw 0x33) 0) = .next t :=
  ⟨rfl, nextOf (by decide +kernel)⟩

theorem witness_EventsLeaveData : quietRow .brakeAssert = true ∧ ∃ t, exec .brakeAssert live = .next t := ⟨rfl, nextOf (by decide +kernel)⟩

theorem witness_EventsLeaveData_loss : lossRow (.linkDown 31) = true ∧ NoneAway (linked {}) ∧ ∃ t, exec (.linkDown 31) (linked {}) = .next t :=
  ⟨rfl, witness_linkDown, nextOf (by decide +kernel)⟩

/-! ## Worked examples of the spec -/

/-- R98's example (spec/04, "one interleaved address"). -/
theorem test_interleave : ilvToLin 0x100000100 = 0x117EF8055500 ∧ locChan (ilvToLin 0x100000200) = 383 := by decide +kernel

/-- AR1 of the B walk (spec/07, "the B walk of a prefill tile"). -/
def bWalk (off : Nat) : AReg := { off := BitVec.ofNat 64 off, istr := 196608, ostr := 36864, wrap := 1253376 }

theorem test_advance : (arAdvance (bWalk 196608) false).off = 393216 ∧ (arAdvance (bWalk 393216) true).off = 626688 ∧
    (arAdvance (bWalk 1019904) true).off = 0 := by decide +kernel

/-- The Kestrel-60 pool (spec/12). -/
def kestrel : Geo :=
  { l := 60, h := 4, dq := 4, kfmt := 0, tsel := 1, fold := 0, mask := 0xFFFFFFFF, nch := 384, chtab := 0, slots := 270336, pbase := 0 }

theorem test_pool : kestrel.k = 51 ∧ kestrel.pstride = 16384 ∧ kestrel.perBank * kestrel.pstride = 0x5280000 ∧
    pageBase kestrel (List.range 384) 100000 150 = 0x112412058000 := by decide +kernel

theorem test_pool_neighbours : (pageAt kestrel 100001 150).1 = 9347 ∧ (pageAt kestrel 100000 151).1 = 9397 := by decide +kernel

/-- The remap of logical core 101 (spec/01, "a remap"). -/
def remapped (rs : List Nat) : State := { State.reset with grade := .e, badCores := [117], remaps := rs }

theorem test_remap : fld (coreMapReg (remapped []) 101) 7 0 = 122 ∧ fld (coreMapReg (remapped [101]) 101) 7 0 = 141 ∧
    coreMapReg (remapped [101]) 100 = coreMapReg (remapped []) 100 := by decide +kernel

/-- Segment 13 of BAR2 names the commons of device 17 (spec/18, "starting a ring on device 17"). -/
theorem test_window : targetOf { hosted with hif := { hosted.hif with
      bar2 := [(0, 41)], wins := [(13, some (BitVec.ofNat 64 cmnBase ||| at_ 17 2 ||| 1))] } } 0 2 0x1A004000140 = .seg 0x0044210004000140 true := by
  decide +kernel

/-- A brake at P_LIM 3,600 W (spec/20, "a brake during serving"): 1,800 W, E at its maximum, rate 4, CAP 4. -/
theorem test_brake : pLim live = 3600 ∧ (match exec .brakeAssert live with
    | .next t => decide (pLim t = 1800) && decide (t.power.rate ≤ 4) && decide (t.power.cap ≤ 4) && braked t
    | _ => false) = true := by decide +kernel

theorem test_tally_wraps : getTally (addTally (setTally live 203 63 (-1)) 203 63 2) 203 63 = 1 ∧
    bit (rget (addTally (setTally live 203 63 (-1)) 203 63 2) (wrapReg 203)) 63 = true := by decide +kernel

theorem test_signal_saturates : getFlag (signalFlag (setFlag live 0 255 65535) 0 255 1) 0 255 = 65535 ∧
    getFlag (signalFlag (setFlag live 0 255 65534) 0 255 1) 0 255 = 65535 := by decide +kernel

theorem test_shift : aluOp 8 (-8) 65 = -4 ∧ aluOp 7 (-1) 64 = -1 ∧ aluOp 9 (-1) 0 = -1 ∧ aluOp 11 (-1) 0 = 0 := by decide

theorem test_nop_record : (match exec (.nop 0 3) (queue 3 none [nopCmd 3]) with
    | .next t => decide ((getRing t 0).wpos = 1) && (getCtx t 0 3 1).buf.isEmpty && (getCtx t 0 3 1).run.isNone
    | _ => false) = true := by decide +kernel

/-- A tail may not move backwards (R398). -/
theorem test_doorbell : (getRing (doorbell live 0 15) 0).tail = [15] ∧ (getRing (doorbell (doorbell live 0 15) 0 14) 0).tail = [15] ∧
    bit (rget (doorbell (doorbell live 0 15) 0 14) (drvReg 8)) 0 = true := by decide +kernel

/-- E2M1 6.0, E4M3 448, BF16 rounding to even (R36-R46). -/
theorem test_formats : fenc fp32 none false (fdec e2m1 7) = (0x40C00000, 0) ∧ fenc fp32 none false (fdec e4m3 0x7E) = (0x43E00000, 0) ∧
    (fenc bf16 none false (fdec fp32 0x3F808000)).1 = 0x3F80 ∧ (fenc bf16 none false (fdec fp32 0x3F818000)).1 = 0x3F82 := by decide +kernel

/-- The WAIT's N is subtracted from its flag where it consumes (R196). -/
theorem test_wait_consumes : (match exec (.waitPass 0 0) (setFlag (heldAt 0 (waitCmd 0 255 7) 0) 0 255 9) with
    | .next t => decide (getFlag t 0 255 = 2) | _ => false) = true := by decide +kernel

/-- An in-bank END ends the slot; NOP at the bout's last cycle still runs, and not one later (R109). -/
theorem test_bout_limit : (match exec (.nbuNop 383) (bout (iw 0) 3799) with | .next t => decide ((getChan t 383).pc = [1, 0]) | _ => false) = true ∧
    (match exec (.nbuNop 383) (bout (iw 0) 3800) with | .next t => decide (t = bout (iw 0) 3800) | _ => false) = true := by decide +kernel

/-- FIPS 197, appendix C.3: AES-256 of 00112233… under the key 000102… . -/
theorem test_aes : beNat (aes256 (List.range 32) ((List.range 16).map (17 * ·))) = 0x8EA2B7CA516745BFEAFC49904B496089 := by decide +kernel

/-- SP 800-38D: one block of zeros under the key and the IV zero, and its tag. -/
theorem test_gcm : beNat (natsOf (gcmXor 0 0 (List.replicate 16 0))) = 0xCEA7403D4D606B6E074EC5D3BAF39D18 ∧
    beNat (natsOf (leBytes 16 (gcmTag 0 0 [] (gcmXor 0 0 (List.replicate 16 0))).toNat)) = 0xD0D1C8A799996BF0265B98B5D48AB919 := by decide +kernel

/-- FIPS 180-4: SHA-384 of "abc". -/
theorem test_sha : beNat (sha384Bytes [0x61, 0x62, 0x63]) =
    0xCB00753F45A35E8BB5A03D699AC65007272C32AB0EDED1631A8B605A43FF5BED8086072BA1E7CC2358BAECA134C825A7 := by decide +kernel

/-- CORE_MAP names no core beyond the grade, and no command acts on one. -/
theorem test_absent_core : (match exec (.nop 192 0) live with | .fault f => decide (f = .noSuchUnit) | _ => false) = true := by decide +kernel

end Sys2Proof.Tests
end

/-! ## The interleaved view (R98)

An interleaved address is a group `q` of 384 lines, a line `r` of the group and a byte `w` of the line. `ilvLine`, the
model's R98 read backwards, is a two-sided inverse of the map on lines; the bijection is these two facts. -/

namespace Sys2Proof.Machine

/-- R98's h: how far the channels of group q are turned. -/
def ilvTurn (q : Nat) : Nat := (q ^^^ (q >>> 7) ^^^ (q >>> 14)) % 512

/-- R98's gch: the global channel of line r of group q. -/
def ilvChan (q r : Nat) : Nat := (r + ilvTurn q) % 384

/-- R98's bank: the bank, within its channel, of every line of group q. -/
def ilvBank (q : Nat) : Nat := (q % 32) ^^^ (q / 32 % 32)

/-- The group of the interleaved view at row `row` of bank b of each channel. -/
def ilvGroup (b row : Nat) : Nat := row * 32 + (b ^^^ (row % 32))

/-! ### The model's functions in these parts -/

theorem ilvToLin_eq_bankAddr (a : Nat) :
    ilvToLin a = bankAddr (ilvChan (a / 256 / 384) (a / 256 % 384) * 32 + ilvBank (a / 256 / 384))
      (a / 256 / 384 / 32 * 256 + a % 256) := by
  have line : a >>> 8 = a / 256 := Nat.shiftRight_eq_div_pow a 8
  simp only [ilvToLin, line]
  rfl

theorem ilvLine_eq (g row : Nat) :
    ilvLine g row = ilvGroup (g % 32) row * 384 + (g / 32 + 768 - ilvTurn (ilvGroup (g % 32) row)) % 384 := rfl

theorem ilvLine_div (g row : Nat) : ilvLine g row / 384 = ilvGroup (g % 32) row := by
  rw [ilvLine_eq, Nat.mul_comm, Nat.mul_add_div (by decide), Nat.div_eq_of_lt (Nat.mod_lt _ (by decide)), Nat.add_zero]

theorem ilvLine_mod (g row : Nat) :
    ilvLine g row % 384 = (g / 32 + 768 - ilvTurn (ilvGroup (g % 32) row)) % 384 := by
  rw [ilvLine_eq, Nat.mul_add_mod', Nat.mod_mod]

theorem ilvTurn_lt (q : Nat) : ilvTurn q < 512 := Nat.mod_lt _ (by decide)

theorem ilvChan_lt (q r : Nat) : ilvChan q r < 384 := Nat.mod_lt _ (by decide)

theorem xor_row_lt {b : Nat} (hb : b < 32) (row : Nat) : b ^^^ (row % 32) < 32 :=
  Nat.xor_lt_two_pow (n := 5) hb (Nat.mod_lt _ (by decide))

theorem ilvBank_lt (q : Nat) : ilvBank q < 32 := xor_row_lt (Nat.mod_lt _ (by decide)) (q / 32)

/-! ### Bank-linear addresses (R99): the bank and the offset of `bankAddr` -/

theorem locBank_bankAddr (g : Nat) {o : Nat} (ho : o < 0x8000000) : locBank (bankAddr g o) = g := by
  unfold locBank bankAddr
  omega

theorem locOff_bankAddr (g : Nat) {o : Nat} (ho : o < 0x8000000) : locOff (bankAddr g o) = o := by
  unfold locOff bankAddr
  omega

/-! ### Rows and banks: the group and the pair of bank and row name each other -/

theorem ilvGroup_div {b : Nat} (hb : b < 32) (row : Nat) : ilvGroup b row / 32 = row := by
  have := xor_row_lt hb row
  unfold ilvGroup
  omega

theorem ilvBank_ilvGroup {b : Nat} (hb : b < 32) (row : Nat) : ilvBank (ilvGroup b row) = b := by
  have hmod : ilvGroup b row % 32 = b ^^^ (row % 32) := by
    have := xor_row_lt hb row
    unfold ilvGroup
    omega
  rw [ilvBank, hmod, ilvGroup_div hb, Nat.xor_xor_cancel_right]

theorem ilvGroup_ilvBank (q : Nat) : ilvGroup (ilvBank q) (q / 32) = q := by
  rw [ilvGroup, ilvBank, Nat.xor_xor_cancel_right]
  omega

/-! ### Channels: within a group, the line and the channel name each other -/

theorem ilvChan_of_channel {c : Nat} (hc : c < 384) (q : Nat) : ilvChan q ((c + 768 - ilvTurn q) % 384) = c := by
  have := ilvTurn_lt q
  unfold ilvChan
  omega

theorem line_of_ilvChan {r : Nat} (hr : r < 384) (q : Nat) : (ilvChan q r + 768 - ilvTurn q) % 384 = r := by
  have := ilvTurn_lt q
  unfold ilvChan
  omega

/-! ### The map and its inverse -/

theorem ilvOffset_lt {a : Nat} (ha : a < ilvEnd) : a / 256 / 384 / 32 * 256 + a % 256 < 0x6000000 := by
  unfold ilvEnd at ha
  omega

theorem locBank_ilvToLin {a : Nat} (ha : a < ilvEnd) :
    locBank (ilvToLin a) = ilvChan (a / 256 / 384) (a / 256 % 384) * 32 + ilvBank (a / 256 / 384) := by
  rw [ilvToLin_eq_bankAddr, locBank_bankAddr _ ((ilvOffset_lt ha).trans (by decide))]

theorem locOff_ilvToLin {a : Nat} (ha : a < ilvEnd) : locOff (ilvToLin a) = a / 256 / 384 / 32 * 256 + a % 256 := by
  rw [ilvToLin_eq_bankAddr, locOff_bankAddr _ ((ilvOffset_lt ha).trans (by decide))]

theorem locChan_ilvToLin {a : Nat} (ha : a < ilvEnd) :
    locChan (ilvToLin a) = ilvChan (a / 256 / 384) (a / 256 % 384) := by
  have := ilvBank_lt (a / 256 / 384)
  rw [locChan, locBank_ilvToLin ha]
  omega

/-- `ilvLine` is a left inverse of R98's map. -/
theorem ilvLine_ilvToLin {a : Nat} (ha : a < ilvEnd) :
    ilvLine (locBank (ilvToLin a)) (locOff (ilvToLin a) / 256) = a / 256 := by
  have hb := ilvBank_lt (a / 256 / 384)
  have bank : (ilvChan (a / 256 / 384) (a / 256 % 384) * 32 + ilvBank (a / 256 / 384)) % 32 =
      ilvBank (a / 256 / 384) := by omega
  have chan : (ilvChan (a / 256 / 384) (a / 256 % 384) * 32 + ilvBank (a / 256 / 384)) / 32 =
      ilvChan (a / 256 / 384) (a / 256 % 384) := by omega
  have row : (a / 256 / 384 / 32 * 256 + a % 256) / 256 = a / 256 / 384 / 32 := by omega
  rw [locBank_ilvToLin ha, locOff_ilvToLin ha, ilvLine_eq, bank, chan, row, ilvGroup_ilvBank,
    line_of_ilvChan (Nat.mod_lt _ (by decide))]
  exact Nat.div_add_mod' _ _

/-- `ilvLine` is a right inverse of R98's map. -/
theorem ilvToLin_ilvLine {g row w : Nat} (hg : g < 12288) (hw : w < 256) :
    ilvToLin (ilvLine g row * 256 + w) = bankAddr g (row * 256 + w) := by
  have hb : g % 32 < 32 := Nat.mod_lt _ (by decide)
  have line : (ilvLine g row * 256 + w) / 256 = ilvLine g row := by omega
  have byte : (ilvLine g row * 256 + w) % 256 = w := by omega
  rw [ilvToLin_eq_bankAddr, line, byte, ilvLine_div, ilvLine_mod, ilvGroup_div hb, ilvBank_ilvGroup hb,
    ilvChan_of_channel (by omega), Nat.div_add_mod']

theorem ilvLine_lt {g row : Nat} (hrow : row < 0x60000) : ilvLine g row < ilvEnd / 256 := by
  have := xor_row_lt (Nat.mod_lt g (show 0 < 32 by decide)) row
  rw [ilvLine_eq, ilvGroup, ilvEnd]
  omega

theorem ilvToLin_injective {a b : Nat} (ha : a < ilvEnd) (hb : b < ilvEnd) (h : ilvToLin a = ilvToLin b) : a = b := by
  have line : a / 256 = b / 256 := by rw [← ilvLine_ilvToLin ha, ← ilvLine_ilvToLin hb, h]
  have byte : a / 256 / 384 / 32 * 256 + a % 256 = b / 256 / 384 / 32 * 256 + b % 256 := by
    rw [← locOff_ilvToLin ha, ← locOff_ilvToLin hb, h]
  omega

theorem ilvToLin_surjective {g o : Nat} (hg : g < 12288) (ho : o < 0x6000000) :
    ∃ a, a < ilvEnd ∧ ilvToLin a = bankAddr g o := by
  have hline : ilvLine g (o / 256) < ilvEnd / 256 := ilvLine_lt (by omega)
  refine ⟨ilvLine g (o / 256) * 256 + o % 256, ?_, ?_⟩
  · unfold ilvEnd at *
    omega
  · rw [ilvToLin_ilvLine hg (Nat.mod_lt _ (by decide)), Nat.div_add_mod']

theorem locChan_ilvToLin_ne {a b : Nat} (ha : a < ilvEnd) (hb : b < ilvEnd) (group : a / 256 / 384 = b / 256 / 384)
    (line : a / 256 ≠ b / 256) : locChan (ilvToLin a) ≠ locChan (ilvToLin b) := by
  intro h
  rw [locChan_ilvToLin ha, locChan_ilvToLin hb, group] at h
  have inGroup : a / 256 % 384 = b / 256 % 384 := by
    rw [← line_of_ilvChan (Nat.mod_lt _ (by decide)) (b / 256 / 384), h, line_of_ilvChan (Nat.mod_lt _ (by decide))]
  omega

/-- Settles O54: R98's map and `ilvLine` are inverse to each other, and a group only turns its 384 channels. -/
theorem interleaveIsBijective : Obligations.InterleaveIsBijective := by
  unfold Obligations.InterleaveIsBijective
  refine ⟨fun a ha => ?_, fun _ _ => ilvToLin_injective, fun _ _ => ilvToLin_surjective, fun _ _ => locChan_ilvToLin_ne⟩
  have turn (q : Nat) : (q ^^^ (q >>> 7) ^^^ (q >>> 14)) &&& 0x1FF = ilvTurn q := Nat.and_two_pow_sub_one_eq_mod _ 9
  simp only [turn]
  exact ⟨ilvToLin_eq_bankAddr a, ilvChan_lt _ _, ilvBank_lt _, ilvOffset_lt ha⟩

end Sys2Proof.Machine

/-! ## Tallies (R290)

An addition writes one entry of the tallies and, on a carry, or-s one bit into the unit's WRAP register; each clause of
the statement reads one of the two stores back. -/

namespace Sys2Proof.Machine

variable {s : State}

/-- What an addition writes. -/
theorem addTally_eq (s : State) (u n a : Nat) : addTally s u n a =
    if 2 ^ 48 ≤ (getTally s u n).toNat + a
    then ror (setTally s u n (BitVec.ofNat 48 ((getTally s u n).toNat + a))) (wrapReg u) (BitVec.ofNat 64 (2 ^ n))
    else setTally s u n (BitVec.ofNat 48 ((getTally s u n).toNat + a)) := rfl

/-! ### The WRAP register -/

theorem rget_ror {a b : Nat} {v : Word} (h : StoresWf s) :
    rget (ror s a v) b = if b = a then rget s a ||| v else rget s b := rget_rset h

theorem bit_or_two_pow (w : Word) {n : Nat} (hn : n < 64) (j : Nat) :
    bit (w ||| BitVec.ofNat 64 (2 ^ n)) j = (bit w j || decide (j = n)) := by
  have one : (BitVec.ofNat 64 (2 ^ n)).getLsbD j = decide (j = n) := by
    rw [BitVec.getLsbD_ofNat, Nat.testBit_two_pow, Bool.eq_iff_iff]
    simp only [Bool.and_eq_true, decide_eq_true_eq]
    omega
  rw [bit, BitVec.getLsbD_or, one]
  rfl

/-- WRAP after an addition: the tally's bit is set on a carry, and nothing is cleared. -/
theorem bit_wrapReg_addTally {u n a : Nat} (h : StoresWf s) (hn : n < 64) (j : Nat) :
    bit (rget (addTally s u n a) (wrapReg u)) j =
      (bit (rget s (wrapReg u)) j || decide (j = n ∧ 2 ^ 48 ≤ (getTally s u n).toNat + a)) := by
  have regs (v : BitVec 48) : rget (setTally s u n v) (wrapReg u) = rget s (wrapReg u) := rfl
  rw [addTally_eq]
  split
  next carry =>
    rw [rget_ror ((setTally_keeps Keeps.rfl).stores h), if_pos rfl, regs, bit_or_two_pow _ hn]
    simp only [carry, and_true]
  next noCarry =>
    rw [regs]
    simp only [noCarry, and_false, decide_false, Bool.or_false]

/-! ### The tallies -/

theorem getTally_ror (b : Nat) (w : Word) (v j : Nat) : getTally (ror s b w) v j = getTally s v j := rfl

/-- The tallies after an addition: the one added to holds the sum's low 48 bits. -/
theorem getTally_addTally {u n a v j : Nat} (h : StoresWf s) (hn : n < 64) (hj : j < 64) :
    getTally (addTally s u n a) v j =
      if v = u ∧ j = n then BitVec.ofNat 48 ((getTally s u n).toNat + a) else getTally s v j := by
  rw [← getTally_setTally h hn hj]
  rw [addTally_eq]
  split
  · exact getTally_ror ..
  · rfl

/-! ### What an addition leaves unchanged -/

/-- A byte reads from `mem` and `lost` alone. -/
theorem sameMem_of_eq {t : State} (mem : t.mem = s.mem) (lost : t.lost = s.lost) : SameMem s t := by
  intro l
  simp only [memGet, lostMask, mem, lost]

theorem addTally_frame (s : State) (u n a : Nat) : SameMem s (addTally s u n a) ∧ (addTally s u n a).flags = s.flags := by
  rw [addTally_eq]
  split
  · exact ⟨sameMem_of_eq rfl rfl, rfl⟩
  · exact ⟨sameMem_of_eq rfl rfl, rfl⟩

/-! ### WAIT_TALLY (R198) -/

/-- A held WAIT_TALLY passes exactly where its tally has reached N; its COUNT is the tally's value. -/
theorem exec_waitTallyPass_of_held {c q : Nat} {k : Slot} {r : Run} (h : Held s c q 0xF4 k r) :
    exec (.waitTallyPass c q) s =
      .next (if wtN k.cmd ≤ (getTally s (wtUnit c k.cmd) (wtNum k.cmd)).toNat
        then slotDone s k none (getTally s (wtUnit c k.cmd) (wtNum k.cmd)).toNat else s) := by
  have row : exec (.waitTallyPass c q) s = execWaitTallyPass c q s := rfl
  rw [row, execWaitTallyPass, onCore, if_pos h.core, h.held]
  simp only [h.op, true_and]
  split
  · rfl
  · rfl

/-- Settles O52: an addition writes one tally and, on a carry, or-s that tally's bit into WRAP. -/
theorem tallyArithmetic : Obligations.TallyArithmetic := by
  unfold Obligations.TallyArithmetic
  intro s u n a h _ hn
  obtain ⟨mem, flags⟩ := addTally_frame s u n a
  refine ⟨?sum, ?carry, ?otherBits, ?otherTallies, mem, flags, fun _ _ _ _ => exec_waitTallyPass_of_held⟩
  case sum => rw [getTally_addTally h hn hn, if_pos ⟨rfl, rfl⟩, BitVec.toNat_ofNat]
  case carry => simp [bit_wrapReg_addTally h hn]
  case otherBits =>
    intro j hj
    simp [bit_wrapReg_addTally h hn, hj]
  case otherTallies =>
    intro v j hj other
    rw [getTally_addTally h hn hj, if_neg (by omega)]

end Sys2Proof.Machine

/-! ## The SRAM granule code (R596)

The syndrome is linear over XOR, and its bit j is the parity of the stored bits whose columns hold bit j; both are
inductions over the fold that computes it. The reader's outcomes rest on the columns being distinct and of odd weight. -/

namespace Sys2Proof.Machine

/-! ### The columns -/

theorem secCol_weight : ∀ i < 56, popc 8 (secCol i) = 3 := by decide +kernel

theorem secCol_ascending : ∀ j < 56, ∀ i < j, secCol i < secCol j := by decide +kernel

theorem secCol_weight_odd : ∀ i < 72, popc 8 (secCol i) % 2 = 1 := by decide +kernel

theorem secCol_lt : ∀ i < 72, secCol i < 2 ^ 8 := by decide +kernel

theorem secCol_distinct : ∀ i < 72, ∀ j < i, secCol j ≠ secCol i := by decide +kernel

theorem secCol_check (j : Nat) : secCol (64 + j) = 2 ^ j := by
  rw [secCol, if_neg (by omega), Nat.add_sub_cancel_left]

theorem ne_secCol_of_weight_even {v i : Nat} (even : popc 8 v % 2 = 0) (hi : i < 72) : v ≠ secCol i := by
  rintro rfl
  have := secCol_weight_odd i hi
  omega

theorem secCol_ne_zero {i : Nat} (hi : i < 72) : secCol i ≠ 0 := (ne_secCol_of_weight_even rfl hi).symm

/-! ### The syndrome -/

/-- One step of the reader's sum: the column of stored bit i, where that bit is 1, XORed into a. -/
def secAdd (e : BitVec 72) (a i : Nat) : Nat := if e.getLsbD i then a ^^^ secCol i else a

theorem secSyndrome_eq_foldl (e : BitVec 72) : secSyndrome e = (List.range 72).foldl (secAdd e) 0 := rfl

theorem secAdd_xor (x e : BitVec 72) (a b i : Nat) : secAdd (x ^^^ e) (a ^^^ b) i = secAdd x a i ^^^ secAdd e b i := by
  simp only [secAdd, BitVec.getLsbD_xor]
  cases x.getLsbD i <;> cases e.getLsbD i <;> simp [Nat.xor_assoc, Nat.xor_comm, Nat.xor_left_comm]

theorem testBit_secAdd (e : BitVec 72) (a i j : Nat) :
    (secAdd e a i).testBit j = (a.testBit j ^^ (e.getLsbD i && (secCol i).testBit j)) := by
  unfold secAdd
  cases e.getLsbD i <;> simp

theorem foldl_secAdd_xor (x e : BitVec 72) (l : List Nat) (a b : Nat) :
    l.foldl (secAdd (x ^^^ e)) (a ^^^ b) = l.foldl (secAdd x) a ^^^ l.foldl (secAdd e) b := by
  induction l generalizing a b with
  | nil => rfl
  | cons i l ih => rw [List.foldl_cons, secAdd_xor, ih]; rfl

theorem secSyndrome_xor (x e : BitVec 72) : secSyndrome (x ^^^ e) = secSyndrome x ^^^ secSyndrome e :=
  foldl_secAdd_xor x e (List.range 72) 0 0

/-- The parity of the first n stored bits whose columns hold bit j: for n = 64, what R596's encoder sets c_j to. -/
def secParity (e : BitVec 72) (j n : Nat) : Bool :=
  (List.range n).foldl (fun b i => b ^^ (e.getLsbD i && (secCol i).testBit j)) false

theorem secParity_succ (e : BitVec 72) (j n : Nat) :
    secParity e j (n + 1) = (secParity e j n ^^ (e.getLsbD n && (secCol n).testBit j)) := by
  rw [secParity, List.range_succ, List.foldl_concat]
  rfl

theorem testBit_foldl_secAdd (e : BitVec 72) (j n : Nat) :
    ((List.range n).foldl (secAdd e) 0).testBit j = secParity e j n := by
  induction n with
  | zero => exact Nat.zero_testBit j
  | succ n ih => rw [List.range_succ, List.foldl_concat, testBit_secAdd, ih, secParity_succ]

/-- Of the first n check bits, bit j of the syndrome counts c_j alone. -/
theorem secParity_check (e : BitVec 72) (j n : Nat) :
    secParity e j (64 + n) = (secParity e j 64 ^^ (decide (j < n) && e.getLsbD (64 + j))) := by
  induction n with
  | zero => simp
  | succ n ih =>
    rw [← Nat.add_assoc, secParity_succ, ih, secCol_check, Nat.testBit_two_pow]
    rcases eq_or_ne j n with rfl | h
    · simp
    · simp [h.symm, h.le_iff_lt]

theorem testBit_secSyndrome (e : BitVec 72) {j : Nat} (hj : j < 8) :
    (secSyndrome e).testBit j = (secParity e j 64 ^^ e.getLsbD (64 + j)) := by
  rw [secSyndrome_eq_foldl, testBit_foldl_secAdd, secParity_check e j 8, decide_eq_true hj, Bool.true_and]

theorem secAdd_lt (e : BitVec 72) {a i : Nat} (ha : a < 2 ^ 8) (hi : i < 72) : secAdd e a i < 2 ^ 8 := by
  unfold secAdd
  split
  · exact Nat.xor_lt_two_pow ha (secCol_lt i hi)
  · exact ha

theorem secSyndrome_lt (e : BitVec 72) : secSyndrome e < 2 ^ 8 :=
  List.foldlRecOn (List.range 72) (secAdd e) (motive := (· < 2 ^ 8)) (by decide)
    fun _ ha _ hi => secAdd_lt e ha (List.mem_range.mp hi)

/-- An encoded word has syndrome 0: each c_j cancels the parity that the encoder set it to. -/
theorem secSyndrome_of_encoded {x : BitVec 72} (h : ∀ j < 8, x.getLsbD (64 + j) = secParity x j 64) :
    secSyndrome x = 0 := by
  refine Nat.eq_of_testBit_eq fun j => ?_
  rw [Nat.zero_testBit]
  by_cases hj : j < 8
  · rw [testBit_secSyndrome x hj, h j hj, Bool.xor_self]
  · exact Nat.testBit_lt_two_pow ((secSyndrome_lt x).trans_le (Nat.pow_le_pow_right (by decide) (by omega)))

/-! ### The reader -/

theorem sramView_of_zero {e : BitVec 72} (h : secSyndrome e = 0) : sramView e = { mask := e.toNat % 2 ^ 64 } := by
  rw [sramView, if_pos h]

theorem sramView_of_column {e : BitVec 72} {i : Nat} (hi : i < 72) (h : secSyndrome e = secCol i) :
    sramView e = { ce := true, mask := (e.toNat ^^^ 2 ^ i) % 2 ^ 64, syn := secCol i } := by
  have first : (List.range 72).find? (fun k => secCol k == secCol i) = some i := by
    simp only [List.find?_range_eq_some, beq_self_eq_true, List.mem_range, true_and]
    exact ⟨hi, fun k hk => by simpa using secCol_distinct i hi k hk⟩
  simp only [sramView, h, if_neg (secCol_ne_zero hi), first]

theorem sramView_of_no_column {e : BitVec 72} (nonzero : secSyndrome e ≠ 0)
    (h : ∀ i, i < 72 → secSyndrome e ≠ secCol i) : sramView e = { ue := true, syn := secSyndrome e } := by
  have noBit : (List.range 72).find? (fun k => secCol k == secSyndrome e) = none := by
    simpa using fun i hi => (h i hi).symm
  simp only [sramView, if_neg nonzero, noBit]

/-- Settles O55: the syndrome is linear and sums the columns, which are distinct and of odd weight. -/
theorem secDedCode : Obligations.SecDedCode := by
  unfold Obligations.SecDedCode
  refine ⟨⟨?columns, fun i j hij hj => secCol_ascending j hj i hij, by decide +kernel, by decide +kernel,
    by decide +kernel, fun j _ => secCol_check j⟩, fun x => secSyndrome_of_encoded, ?difference, ?noError, ?corrected,
    ?evenWeight, ?noColumn⟩
  case columns => exact fun i hi => ⟨secCol_weight i hi, secCol_lt i (by omega)⟩
  case difference =>
    intro x e hx
    rw [secSyndrome_xor, hx, Nat.zero_xor]
  case noError =>
    intro e h
    simp [sramView_of_zero h]
  case corrected =>
    intro e i hi h
    simp [sramView_of_column hi h]
  case evenWeight =>
    intro e nonzero even
    simp [sramView_of_no_column nonzero fun _ => ne_secCol_of_weight_even even]
  case noColumn =>
    intro e nonzero h
    simp [sramView_of_no_column nonzero h]

end Sys2Proof.Machine

/-! ## What every command and every step keeps (R21, R33, R435, R555, R556, R567)

Every meaning keeps what `Keeps` says: the waiting commands, the fuses, the life log, the canonical stores, STATE and the rails. -/

namespace Sys2Proof.Machine

/-- Every command keeps what `Keeps` says. -/
theorem exec_keeps (i : Instr) (s : State) : KeepsOut s (exec i s) :=
  match i with
  | .mma .. => execMma_keeps .rfl
  | .mmaSlice .. => execMmaSlice_keeps .rfl
  | .accInit .. => execAccInit_keeps .rfl
  | .accDrain .. => execAccDrain_keeps .rfl
  | .nop .. => execNop_keeps .rfl
  | .hurdle .. => execHurdle_keeps .rfl
  | .hurdlePass .. => execHurdlePass_keeps .rfl
  | .signal .. => execSignal_keeps .rfl
  | .wait .. => execWait_keeps .rfl
  | .waitPass .. => execWaitPass_keeps .rfl
  | .waitTally .. => execWaitTally_keeps .rfl
  | .waitTallyPass .. => execWaitTallyPass_keeps .rfl
  | .waitTallyTimeout .. => execWaitTallyTimeout_keeps .rfl
  | .resourceWaitTimeout .. => execResourceWaitTimeout_keeps .rfl
  | .arSet .. => execArSet_keeps .rfl
  | .fence .. => execFence_keeps .rfl
  | .vew .. => execVew_keeps .rfl
  | .vfunc .. => execVfunc_keeps .rfl
  | .vred .. => execVred_keeps .rfl
  | .vcvt .. => execVcvt_keeps .rfl
  | .vperm .. => execVperm_keeps .rfl
  | .smerge .. => execSmerge_keeps .rfl
  | .topk .. => execTopk_keeps .rfl
  | .topkMerge .. => execTopkMerge_keeps .rfl
  | .sliceSplit .. => execSliceSplit_keeps .rfl
  | .sliceCombine .. => execSliceCombine_keeps .rfl
  | .bfly4 .. => execBfly4_keeps .rfl
  | .scAlu .. => execScAlu_keeps .rfl
  | .scLd .. => execScLd_keeps .rfl
  | .scSt .. => execScSt_keeps .rfl
  | .scBr .. => execScBr_keeps .rfl
  | .scBlock .. => execScBlock_keeps .rfl
  | .scArw .. => execScArw_keeps .rfl
  | .scRdt .. => execScRdt_keeps .rfl
  | .scRdtally .. => execScRdtally_keeps .rfl
  | .scAmo .. => execScAmo_keeps .rfl
  | .dmaCopy .. => execDmaCopy_keeps .rfl
  | .dmaPerm .. => execDmaPerm_keeps .rfl
  | .dmaPut .. => execDmaPut_keeps .rfl
  | .dmaAmo .. => execDmaAmo_keeps .rfl
  | .palWrite .. => execPalWrite_keeps .rfl
  | .palWriteApply .. => execPalWriteApply_keeps .rfl
  | .nbuLaunch .. => execNbuLaunch_keeps .rfl
  | .launchAdmit .. => execLaunchAdmit_keeps .rfl
  | .launchComplete .. => execLaunchComplete_keeps .rfl
  | .launchFaultPropagate .. => execLaunchFaultPropagate_keeps .rfl
  | .attnDispatch .. => execAttnDispatch_keeps .rfl
  | .nbuNop .. => execNbuNop_keeps .rfl
  | .nbuEnd .. => execNbuEnd_keeps .rfl
  | .loop .. => execLoop_keeps .rfl
  | .loopb .. => execLoopb_keeps .rfl
  | .padd .. => execPadd_keeps .rfl
  | .posadd .. => execPosadd_keeps .rfl
  | .lpset .. => execLpset_keeps .rfl
  | .ldw .. => execLdw_keeps .rfl
  | .stw .. => execStw_keeps .rfl
  | .stp .. => execStp_keeps .rfl
  | .fill .. => execFill_keeps .rfl
  | .gath .. => execGath_keeps .rfl
  | .wres .. => execWres_keeps .rfl
  | .wresa .. => execWresa_keeps .rfl
  | .dotr .. => execDotr_keeps .rfl
  | .axpy .. => execAxpy_keeps .rfl
  | .vop .. => execVop_keeps .rfl
  | .vfma .. => execVfma_keeps .rfl
  | .vdot .. => execVdot_keeps .rfl
  | .redv .. => execRedv_keeps .rfl
  | .sten7 .. => execSten7_keeps .rfl
  | .ascore .. => execAscore_keeps .rfl
  | .asoft .. => execAsoft_keeps .rfl
  | .avsum .. => execAvsum_keeps .rfl
  | .ainit .. => execAinit_keeps .rfl
  | .fetchDispatch .. => execFetchDispatch_keeps .rfl
  | .deadlockConfirm .. => execDeadlockConfirm_keeps .rfl
  | .deferredRecordWrite .. => execDeferredRecordWrite_keeps .rfl
  | .irqCoalesceTimeout .. => execIrqCoalesceTimeout_keeps .rfl
  | .ringDoorbell .. => execRingDoorbell_keeps .rfl
  | .cplHeadWrite .. => execCplHeadWrite_keeps .rfl
  | .ringEnable .. => execRingEnable_keeps .rfl
  | .ringDisable .. => execRingDisable_keeps .rfl
  | .switchRequest .. => execSwitchRequest_keeps .rfl
  | .ringSwitch .. => execRingSwitch_keeps .rfl
  | .switchWithdraw .. => execSwitchWithdraw_keeps .rfl
  | .class0Takeover .. => execClass0Takeover_keeps .rfl
  | .class0Release .. => execClass0Release_keeps .rfl
  | .ringSuspend .. => execRingSuspend_keeps .rfl
  | .ringResume .. => execRingResume_keeps .rfl
  | .ringCancel .. => execRingCancel_keeps .rfl
  | .ringRestart .. => execRingRestart_keeps .rfl
  | .poolDefine .. => execPoolDefine_keeps .rfl
  | .poolDrop .. => execPoolDrop_keeps .rfl
  | .reqSubmit .. => execReqSubmit_keeps .rfl
  | .reqCancel .. => execReqCancel_keeps .rfl
  | .modelBind .. => execModelBind_keeps .rfl
  | .modelUnbind .. => execModelUnbind_keeps .rfl
  | .reqChoose .. => execReqChoose_keeps .rfl
  | .reqPark .. => execReqPark_keeps .rfl
  | .parkImageDone .. => execParkImageDone_keeps .rfl
  | .reqResume .. => execReqResume_keeps .rfl
  | .srvStepDone .. => execSrvStepDone_keeps .rfl
  | .stepBoundary .. => execStepBoundary_keeps .rfl
  | .stepTimeout .. => execStepTimeout_keeps .rfl
  | .secCommitSvn .. => execSecCommitSvn_keeps .rfl
  | .secRevokeKey .. => execSecRevokeKey_keeps .rfl
  | .secDebugUnlock .. => execSecDebugUnlock_keeps .rfl
  | .foldForm .. => execFoldForm_keeps .rfl
  | .foldRelease .. => execFoldRelease_keeps .rfl
  | .regulatorRelease .. => execRegulatorRelease_keeps .rfl
  | .capAdmit .. => execCapAdmit_keeps .rfl
  | .boutStart .. => execBoutStart_keeps .rfl
  | .boutEnd .. => execBoutEnd_keeps .rfl
  | .gapEnd .. => execGapEnd_keeps .rfl
  | .channelSwitchOut .. => execChannelSwitchOut_keeps .rfl
  | .capUpdate .. => execCapUpdate_keeps .rfl
  | .ordinaryAccess .. => execOrdinaryAccess_keeps .rfl
  | .tapDataArrive .. => execTapDataArrive_keeps .rfl
  | .resultDataArrive .. => execResultDataArrive_keeps .rfl
  | .putArrive .. => execPutArrive_keeps .rfl
  | .tallyAdd .. => execTallyAdd_keeps .rfl
  | .tallySet .. => execTallySet_keeps .rfl
  | .spdCeWriteback .. => execSpdCeWriteback_keeps .rfl
  | .dmaStarve .. => execDmaStarve_keeps .rfl
  | .repair .. => execRepair_keeps .rfl
  | .grazeVisit .. => execGrazeVisit_keeps .rfl
  | .grazeLate => execGrazeLate_keeps .rfl
  | .migrationStart .. => execMigrationStart_keeps .rfl
  | .spareSwitch .. => execSpareSwitch_keeps .rfl
  | .tsvRemap .. => execTsvRemap_keeps .rfl
  | .fwCodeReload .. => execFwCodeReload_keeps .rfl
  | .spareReq .. => execSpareReq_keeps .rfl
  | .flipArm .. => execFlipArm_keeps .rfl
  | .messageReceive .. => execMessageReceive_keeps .rfl
  | .nakReplay .. => execNakReplay_keeps .rfl
  | .macGroupClose .. => execMacGroupClose_keeps .rfl
  | .ageIncrement => execAgeIncrement_keeps .rfl
  | .laneDrop .. => execLaneDrop_keeps .rfl
  | .linkAckTimeout .. => execLinkAckTimeout_keeps .rfl
  | .linkDown .. => execLinkDown_keeps .rfl
  | .memberMissing .. => execMemberMissing_keeps .rfl
  | .degradedNotice .. => execDegradedNotice_keeps .rfl
  | .fabricBringup .. => execFabricBringup_keeps .rfl
  | .bringupReportDeadline .. => execBringupReportDeadline_keeps .rfl
  | .measurementReport .. => execMeasurementReport_keeps .rfl
  | .domainReset .. => execDomainReset_keeps .rfl
  | .hostRead .. => execHostRead_keeps .rfl
  | .hostWrite .. => execHostWrite_keeps .rfl
  | .hostAtomicop .. => execHostAtomicop_keeps .rfl
  | .relayDoorbellForward .. => execRelayDoorbellForward_keeps .rfl
  | .relayDeviceRequest .. => execRelayDeviceRequest_keeps .rfl
  | .hostCompletion .. => execHostCompletion_keeps .rfl
  | .devCplTimeout .. => execDevCplTimeout_keeps .rfl
  | .pcieLinkDown => execPcieLinkDown_keeps .rfl
  | .hifWinWrite .. => execHifWinWrite_keeps .rfl
  | .bar2Resize .. => execBar2Resize_keeps .rfl
  | .msixUnmask .. => execMsixUnmask_keeps .rfl
  | .flr .. => execFlr_keeps .rfl
  | .d3hotEntry .. => execD3hotEntry_keeps .rfl
  | .d0Return .. => execD0Return_keeps .rfl
  | .ideKeyProg .. => execIdeKeyProg_keeps .rfl
  | .tdiError .. => execTdiError_keeps .rfl
  | .spdmGetCertificate .. => execSpdmGetCertificate_keeps .rfl
  | .spdmChallenge => execSpdmChallenge_keeps .rfl
  | .spdmGetMeasurements .. => execSpdmGetMeasurements_keeps .rfl
  | .spdmKeyExchange => execSpdmKeyExchange_keeps .rfl
  | .spdmHeartbeat .. => execSpdmHeartbeat_keeps .rfl
  | .spdmKeyUpdate .. => execSpdmKeyUpdate_keeps .rfl
  | .doeFlashUpdate .. => execDoeFlashUpdate_keeps .rfl
  | .pldmGetPdr .. => execPldmGetPdr_keeps .rfl
  | .pldmGetSensorReading .. => execPldmGetSensorReading_keeps .rfl
  | .pldmGetStateSensorReadings .. => execPldmGetStateSensorReadings_keeps .rfl
  | .pldmSetNumericEffecterValue .. => execPldmSetNumericEffecterValue_keeps .rfl
  | .pldmSetEventReceiver .. => execPldmSetEventReceiver_keeps .rfl
  | .telemetryRefresh => execTelemetryRefresh_keeps .rfl
  | .powerSample .. => execPowerSample_keeps .rfl
  | .knobRaise => execKnobRaise_keeps .rfl
  | .brakeAssert => execBrakeAssert_keeps .rfl
  | .brakeRelease => execBrakeRelease_keeps .rfl
  | .thermalUpdate .. => execThermalUpdate_keeps .rfl
  | .thermalCalibrate .. => execThermalCalibrate_keeps .rfl
  | .throttleStep => execThrottleStep_keeps .rfl
  | .shutdownDeadline => execShutdownDeadline_keeps .rfl
  | .analogTrip .. => execAnalogTrip_keeps .rfl
  | .thermtripRelease .. => execThermtripRelease_keeps .rfl
  | .lifeLogSummary => execLifeLogSummary_keeps .rfl
  | .refLoss => execRefLoss_keeps .rfl
  | .coldReset .. => execColdReset_keeps .rfl
  | .warmReset .. => execWarmReset_keeps .rfl
  | .pwrgdFall => execPwrgdFall_keeps .rfl
  | .railSequenceError .. => execRailSequenceError_keeps .rfl
  | .bootReady => execBootReady_keeps .rfl
  | .rcvChunk .. => execRcvChunk_keeps .rfl
  | .rcvChunkCopied => execRcvChunkCopied_keeps .rfl
  | .rcvVerify .. => execRcvVerify_keeps .rfl
  | .rcvRestart .. => execRcvRestart_keeps .rfl
  | .prefixGroupWrite .. => execPrefixGroupWrite_keeps .rfl
  | .jtagInstruction .. => execJtagInstruction_keeps .rfl
  | .registerWrite .. => execRegisterWrite_keeps .rfl
  | .supplyRailUp .. => execSupplyRailUp_keeps .rfl
  | .supplyRailDown .. => execSupplyRailDown_keeps .rfl
  | .pcieLinkUp .. => execPcieLinkUp_keeps .rfl
  | .laneReequalisation .. => execLaneReequalisation_keeps .rfl
  | .laneReequalisationDone .. => execLaneReequalisationDone_keeps .rfl
  | .refresh .. => execRefresh_keeps .rfl
  | .referenceToleranceChange .. => execReferenceToleranceChange_keeps .rfl
  | .atsInvalidation .. => execAtsInvalidation_keeps .rfl
  | .tdispRequest .. => execTdispRequest_keeps .rfl
  | .vfEnable .. => execVfEnable_keeps .rfl
  | .i3cDynamicAddressAssignment .. => execI3cDynamicAddressAssignment_keeps .rfl

/-- A sound state stays sound under whatever keeps the stores, STATE and the rails. -/
theorem Inv.of_keeps {s t : State} (hs : Inv s) (h : Keeps s t) : Inv t :=
  ⟨h.stores hs.stores, h.boot hs.boot, h.rails hs.rails⟩

/-- The queue of waiting commands is no part of what makes a state sound. -/
theorem Inv.with_pending {s : State} (hs : Inv s) (p : List Instr) : Inv { s with pending := p } :=
  ⟨{ hs.stores with }, hs.boot, hs.rails⟩

/-- DEV_TIME is no part of what makes a state sound. -/
theorem Inv.with_time {s : State} (hs : Inv s) (n : Nat) : Inv { s with time := n } :=
  ⟨{ hs.stores with }, hs.boot, hs.rails⟩

theorem step_of_empty {s : State} (h : s.pending = []) : step s = .next (tick s) := by
  unfold step
  rw [h]

theorem step_of_front {s : State} {c : Instr} {rest : List Instr} (h : s.pending = c :: rest) :
    step s = exec c { s with pending := rest } := by
  unfold step
  rw [h]

theorem step_keeps_inv {s t : State} (hs : Inv s) (h : step s = .next t) : Inv t := by
  cases hp : s.pending with
  | nil =>
    rw [step_of_empty hp] at h
    cases h
    exact (hs.with_time _).of_keeps (tick_keeps s)
  | cons c rest =>
    rw [step_of_front hp] at h
    exact (hs.with_pending rest).of_keeps ((exec_keeps c _).out t h)

/-- Settles O4: every command keeps the stores canonical, STATE legal and five rails, and so does a tick. -/
theorem soundStateIsKept : Obligations.SoundStateIsKept := by
  unfold Obligations.SoundStateIsKept
  exact fun _ _ => step_keeps_inv

/-- Settles O6. -/
theorem commandsLeaveQueueFusesAndTime : Obligations.CommandsLeaveQueueFusesAndTime := by
  unfold Obligations.CommandsLeaveQueueFusesAndTime
  intro i s t h
  have k := (exec_keeps i s).out t h
  exact ⟨k.pending, k.grade, k.badCores, k.fwRanges, k.time⟩

/-- Settles O7. -/
theorem lifeLogOnlyGrows : Obligations.LifeLogOnlyGrows := by
  unfold Obligations.LifeLogOnlyGrows
  exact fun i s t h => ((exec_keeps i s).out t h).log

/-- Settles O1: the definition of a step on a queue with a front command. -/
theorem stepRunsFrontCommand : Obligations.StepRunsFrontCommand := by
  unfold Obligations.StepRunsFrontCommand
  exact fun _ _ _ => step_of_front rfl

end Sys2Proof.Machine

/-! ## Reset and the idle tick (R33, R435, R524, R563, R567) -/

namespace Sys2Proof.Machine

/-- A fold of steps that each leave a part of the state alone leaves it alone. -/
theorem foldl_proj {α β γ : Type} {p : γ → α} {f : γ → β → γ} {l : List β} {s : γ} (h : ∀ t x, p (f t x) = p t) :
    p (l.foldl f s) = p s :=
  List.foldlRecOn l f (motive := fun t => p t = p s) rfl fun t ht x _ => (h t x).trans ht

/-- Settles O3: State.reset is every field's default. -/
theorem resetLeaves : Obligations.ResetLeaves := by
  unfold Obligations.ResetLeaves
  have stores : StoresWf State.reset := by constructor <;> rfl
  refine ⟨⟨stores, by decide, rfl⟩, rfl, rfl, rfl, rfl, fun _ _ => rfl, fun _ _ => rfl, fun l => ?_, rfl, rfl, rfl, rfl⟩
  have noLoss : lostMask State.reset l = 0 := by
    unfold lostMask
    split <;> rfl
  exact (congrArg (tget 0 State.reset.mem l ^^^ ·) noLoss).trans (BitVec.xor_zero ..)

theorem drawWords_state (n : Nat) (s : State) : (drawWords n s).2 = { s with free := s.free + n } := by
  induction n generalizing s with
  | zero => rfl
  | succ n ih =>
    unfold drawWords
    rw [ih]
    show { s with free := s.free + 1 + n } = _
    rw [Nat.add_right_comm, Nat.add_assoc]

/-- New keys of a fold touch the keys and the count of draws alone. -/
theorem drawFoldKeys_state (s : State) (f : Nat) :
    drawFoldKeys s f = { s with free := s.free + 10, keys := (drawFoldKeys s f).keys } := by
  unfold drawFoldKeys
  simp only [drawWords_state]

@[simp] theorem drawFoldKeys_time (s : State) (f : Nat) : (drawFoldKeys s f).time = s.time := by rw [drawFoldKeys_state]
@[simp] theorem drawFoldKeys_mem (s : State) (f : Nat) : (drawFoldKeys s f).mem = s.mem := by rw [drawFoldKeys_state]
@[simp] theorem drawFoldKeys_folds (s : State) (f : Nat) : (drawFoldKeys s f).folds = s.folds := by rw [drawFoldKeys_state]

@[simp] theorem endFill_time (s : State) (x : Fill) : (endFill s x).time = s.time := by unfold endFill; split <;> simp
@[simp] theorem endFill_mem (s : State) (x : Fill) : (endFill s x).mem = s.mem := by unfold endFill; split <;> simp
@[simp] theorem endFill_fills (s : State) (x : Fill) :
    (endFill s x).folds.fills = s.folds.fills.filter fun y => y.fold != x.fold := by
  unfold endFill; split <;> simp

@[simp] theorem applyKnobs_time (s : State) : (applyKnobs s).time = s.time := foldl_proj (p := State.time) fun _ _ => rfl
@[simp] theorem applyKnobs_mem (s : State) : (applyKnobs s).mem = s.mem := foldl_proj (p := State.mem) fun _ _ => rfl
@[simp] theorem applyKnobs_folds (s : State) : (applyKnobs s).folds = s.folds := foldl_proj (p := State.folds) fun _ _ => rfl

/-- Fills ended one after the other: those that remain are of other folds. -/
theorem foldl_endFill_fills {l : List Fill} {s : State} {y : Fill} (h : y ∈ (l.foldl endFill s).folds.fills) :
    y ∈ s.folds.fills ∧ ∀ x ∈ l, y.fold ≠ x.fold := by
  induction l generalizing s with
  | nil => exact ⟨h, fun _ hx => nomatch hx⟩
  | cons x l ih =>
    obtain ⟨hy, others⟩ := ih h
    simp only [endFill_fills, List.mem_filter, bne_iff_ne] at hy
    exact ⟨hy.1, List.forall_mem_cons.mpr ⟨hy.2, others⟩⟩

@[simp] theorem endFills_time (s : State) : (endFills s).time = s.time := foldl_proj (p := State.time) endFill_time
@[simp] theorem endFills_mem (s : State) : (endFills s).mem = s.mem := foldl_proj (p := State.mem) endFill_mem

theorem endFills_fills {s : State} {y : Fill} (h : y ∈ (endFills s).folds.fills) : y ∈ s.folds.fills ∧ s.time < y.due := by
  obtain ⟨hy, others⟩ := foldl_endFill_fills h
  refine ⟨hy, Nat.lt_of_not_le fun due => others y (List.mem_filter.mpr ⟨hy, by simpa using due⟩) rfl⟩

theorem tick_of_no_due {s : State} (h : ∀ x ∈ s.folds.fills, s.time + 1 < x.due) : tick s = { s with time := s.time + 1 } := by
  unfold tick
  exact if_neg (by simpa using h)

@[simp] theorem tick_time (s : State) : (tick s).time = s.time + 1 := by unfold tick; dsimp only; split <;> simp
@[simp] theorem tick_mem (s : State) : (tick s).mem = s.mem := by unfold tick; dsimp only; split <;> simp

theorem tick_fills {s : State} {x : Fill} (h : x ∈ (tick s).folds.fills) : x ∈ s.folds.fills ∧ s.time + 1 < x.due := by
  unfold tick at h
  dsimp only at h
  split at h
  · rw [applyKnobs_folds] at h
    exact endFills_fills h
  · next none_due => exact ⟨h, Nat.lt_of_not_le fun due => none_due (List.any_eq_true.mpr ⟨x, h, by simpa using due⟩)⟩

/-- Settles O2: the fills that a tick ends are those due at the new time. -/
theorem idleStepIsOneTick : Obligations.IdleStepIsOneTick := by
  unfold Obligations.IdleStepIsOneTick
  intro s idle
  rw [step_of_empty idle]
  refine ⟨fun h => by rw [tick_of_no_due h], _, rfl, tick_time s, (tick_keeps s).pending.trans idle, tick_mem s, fun x hx => ?_⟩
  rw [tick_time]
  exact tick_fills hx

end Sys2Proof.Machine

/-! ## Every well-formed command answers a next state (log entry 6) -/

namespace Sys2Proof.Machine

/-- A meaning answers a next state, or says that a named unit does not exist, which a well-formed command's does not. -/
def Answers (ok : Bool) (o : Out State) : Prop := (∃ t, o = .next t) ∨ (o = .fault .noSuchUnit ∧ ok = false)

variable {ok : Bool} {s : State}

@[simp] theorem answers_next {t : State} : Answers ok (.next t) := .inl ⟨t, rfl⟩

@[simp] theorem answers_fault : Answers ok (.fault .noSuchUnit) ↔ ok = false := by simp [Answers]

@[simp] theorem answers_ite {p : Prop} [Decidable p] {a b : Out State} :
    Answers ok (if p then a else b) ↔ (p → Answers ok a) ∧ (¬p → Answers ok b) := by
  split <;> simp [*]

/-- A check of the operands that only an ill-formed command fails. -/
theorem guard_answers {p : Prop} [Decidable p] {o : Out State} (h : p → ok = false) (k : Answers ok o) :
    Answers ok (if p then .fault .noSuchUnit else o) := by
  simp only [answers_ite, answers_fault]
  exact ⟨h, fun _ => k⟩

/-- A named core that the part has. -/
theorem onCore_answers {c : Nat} {k : Out State} (h : coreOk s c = false → ok = false) (hk : Answers ok k) :
    Answers ok (onCore s c k) := by
  unfold onCore
  simp only [answers_ite, answers_fault]
  exact ⟨fun _ => hk, fun bad => h (by simpa using bad)⟩

theorem beginAt_answers {op q : Nat} {bad : State → Slot → Option Nat} {go : Slot → State → State} {t : Option Slot} :
    Answers ok (beginAt op q bad go t s) := by
  unfold beginAt
  dsimp only
  repeat' split
  all_goals exact answers_next

theorem beginOp_answers {op q c : Nat} {bad : State → Slot → Option Nat} {go : Slot → State → State}
    (h : coreOk s c = false → ok = false) (hq : 4 ≤ q → ok = false) : Answers ok (beginOp op q bad go c s) := by
  unfold beginOp
  refine onCore_answers h ?_
  exact guard_answers hq beginAt_answers

theorem scRow_answers {op c : Nat} {bad : Slot → Bool} {ready : State → Slot → Bool} {regs : Cmd → List Nat}
    {go : Slot → State → State} (h : coreOk s c = false → ok = false) : Answers ok (scRow op bad ready regs go c s) := by
  unfold scRow
  refine onCore_answers h ?_
  repeat' split
  · exact answers_next
  · exact answers_next
  · exact beginAt_answers

theorem engineRow_answers {e : Eng} {q op c n : Nat} {isIt : Cmd → Bool} (h : coreOk s c = false → ok = false) :
    Answers ok (engineRow e q op isIt c n s) := by
  unfold engineRow
  refine onCore_answers h ?_
  dsimp only
  repeat' split
  all_goals exact answers_next

theorem luRow_answers {op c n : Nat} {check : State → Who → Cmd → Option Nat}
    {mk : State → Who → Cmd → AReg → AReg → Nat → Got (List Launch × Nat)} (h : coreOk s c = false → ok = false) :
    Answers ok (luRow op check mk c n s) := by
  unfold luRow
  refine onCore_answers h ?_
  dsimp only
  repeat' split
  all_goals exact answers_next

theorem nbuIssue_answers {op g : Nat} {fx : State → NCtx → Nat → Fx} {next : State → NCtx → State}
    (h : chanOk g = false → ok = false) : Answers ok (nbuIssue op fx next g s) := by
  unfold nbuIssue
  refine guard_answers (fun bad => h (by simpa using bad)) ?_
  dsimp only
  repeat' split
  all_goals exact answers_next

theorem svcRow_answers {tgt op n : Nat} {bad : Cmd → Bool} {go : State → Svc → SvcOut} : Answers ok (svcRow tgt op bad go n s) := by
  unfold svcRow
  repeat' first | split | dsimp only
  all_goals exact answers_next

theorem reqRow_answers {op n : Nat} {bad : Cmd → Bool} {more : State → Nat → Cmd → Option Nat} : Answers ok (reqRow op bad more n s) :=
  svcRow_answers

theorem upArrive_answers {isTap : Bool} {g k : Nat} (h : chanOk g = false → ok = false) : Answers ok (upArrive isTap g k s) := by
  unfold upArrive
  refine guard_answers (fun bad => h (by simpa using bad)) ?_
  dsimp only
  repeat' split
  all_goals exact answers_next

theorem execHostWrite_answers {fn bar off : Nat} {data : List Byte} {ep : Bool} (h : 16 < fn ∨ ¬(bar = 0 ∨ bar = 2) → ok = false) :
    Answers ok (execHostWrite fn bar off data ep s) := by
  unfold execHostWrite
  refine guard_answers (by simpa using h) ?_
  dsimp only
  repeat' split
  all_goals exact answers_next

theorem regRow_answers {fn a size : Nat} {v : Word} (h : 16 < fn → ok = false) : Answers ok (regRow fn a size v s) :=
  execHostWrite_answers (by simpa using h)

theorem execRelayDeviceRequest_answers {d ha : Nat} {write : Bool} {data : List Byte} {msix : Option Nat} (h : 64 ≤ d → ok = false) :
    Answers ok (execRelayDeviceRequest d write ha data msix s) := by
  unfold execRelayDeviceRequest
  refine guard_answers h ?_
  dsimp only
  repeat' split
  all_goals exact answers_next

theorem takeMsg_answers {m : Msg} (h : 64 ≤ m.src → ok = false) : Answers ok (takeMsg s m) := by
  unfold takeMsg
  dsimp only
  repeat' split
  all_goals first | exact answers_next | exact execRelayDeviceRequest_answers h

theorem countOut_answers {l : Nat} {o : Out State} (h : Answers ok o) : Answers ok (countOut l o) := by
  obtain ⟨t, rfl⟩ | ⟨rfl, bad⟩ := h
  · exact answers_next
  · exact answers_fault.mpr bad

theorem onLink_answers {l : Nat} {k : Out State} (h : 32 ≤ l → ok = false) (hk : Answers ok k) : Answers ok (onLink s l k) := by
  unfold onLink
  refine guard_answers h ?_
  split
  · exact hk
  · exact answers_next

/-- The ordinary accesses that a row may name are those whose operands are well formed. -/
theorem accessOk_eq_accessWf (s : State) (g : Nat) (a : Access) : accessOk s g a = accessWf s.grade g a := by
  have room (n : Nat) (dram : region s.grade a.addr = .dram) (lo : blinBase ≤ a.addr) :
      populated s.grade a.addr n = (n == 0 || decide (a.addr + n ≤ a.addr - (a.addr - blinBase) % 0x8000000 + 0x6000000)) := by
    have : ¬ a.addr < ilvEnd := Nat.not_lt.mpr (Nat.le_trans (by decide) lo)
    unfold populated runEnd
    simp only [dram, if_neg this]
  unfold accessOk accessWf
  by_cases dram : region s.grade a.addr = .dram
  · by_cases lo : blinBase ≤ a.addr
    · simp only [room _ dram lo]
      unfold accessLen
      cases a.kind <;> simp [Bool.and_comm, Bool.and_left_comm]
    · simp [lo]
  · simp [beq_false_of_ne dram]

theorem cores_le (g : Config.Grade) : Config.cores g ≤ 192 := by cases g <;> decide

/-- Each row answers a next state but where an operand names no unit, which its well-formedness excludes. -/
theorem exec_answers (i : Instr) (s : State) : Answers (i.wellFormed s.grade) (exec i s) := by
  cases i
  all_goals dsimp only [exec, Instr.wellFormed]
  case mma | mmaSlice | accInit | accDrain | vew | vfunc | vred | vcvt | vperm | smerge | topk | topkMerge | sliceSplit |
    sliceCombine | bfly4 | dmaCopy | dmaPerm | dmaPut | dmaAmo => exact engineRow_answers fun h => h
  case scAlu | scLd | scSt | scBr | scArw | scRdt | scRdtally | scAmo => exact scRow_answers fun h => h
  case nbuLaunch | attnDispatch => exact luRow_answers fun h => h
  case nbuNop | nbuEnd | loop | loopb | padd | posadd | lpset | ldw | stw | stp | fill | gath | wres | wresa | dotr | axpy |
    vop | vfma | vdot | redv | sten7 | ascore | asoft | avsum | ainit => exact nbuIssue_answers fun h => h
  case ringSuspend =>
    unfold execRingSuspend
    repeat' first | exact answers_next | exact svcRow_answers | split | dsimp only
  case ringResume | ringCancel | ringRestart | poolDefine | poolDrop | reqSubmit | modelBind | modelUnbind | secCommitSvn |
    secRevokeKey => exact svcRow_answers
  case reqCancel | reqChoose | reqPark | reqResume => exact reqRow_answers
  case tapDataArrive | resultDataArrive => exact upArrive_answers fun h => h
  case spdmGetCertificate | spdmChallenge | spdmGetMeasurements | spdmKeyExchange | spdmHeartbeat | spdmKeyUpdate | pldmGetPdr |
    pldmGetSensorReading | pldmGetStateSensorReadings => exact answers_next
  case hurdlePass | waitPass | waitTallyPass | waitTallyTimeout | palWriteApply | launchComplete | deadlockConfirm |
    switchRequest | ringSwitch | switchWithdraw | class0Release | dmaStarve =>
    refine onCore_answers (by grind [coreOk, coreWf]) ?_
    repeat' first | exact answers_next | split | dsimp only
  case launchAdmit | launchFaultPropagate | fetchDispatch | deferredRecordWrite | irqCoalesceTimeout | putArrive |
    grazeLate | fwCodeReload | ageIncrement | bringupReportDeadline | hostCompletion | devCplTimeout | pcieLinkDown |
    doeFlashUpdate | pldmSetEventReceiver | telemetryRefresh | knobRaise | brakeAssert | brakeRelease |
    throttleStep | shutdownDeadline | lifeLogSummary | refLoss | pwrgdFall | railSequenceError | bootReady |
    rcvChunkCopied | rcvVerify | jtagInstruction | supplyRailUp | supplyRailDown | referenceToleranceChange =>
    dsimp only [execLaunchAdmit, execLaunchFaultPropagate, execFetchDispatch, execDeferredRecordWrite,
      execIrqCoalesceTimeout, execPutArrive, execGrazeLate, execFwCodeReload, execAgeIncrement,
      execBringupReportDeadline, execHostCompletion, execDevCplTimeout, execPcieLinkDown, execDoeFlashUpdate,
      execPldmSetEventReceiver, execTelemetryRefresh, execKnobRaise, execBrakeAssert, execBrakeRelease,
      execThrottleStep, execShutdownDeadline, execLifeLogSummary, execRefLoss, execPwrgdFall, execRailSequenceError,
      execBootReady, execRcvChunkCopied, execRcvVerify, execJtagInstruction, execSupplyRailUp, execSupplyRailDown,
      execReferenceToleranceChange]
    repeat' first | exact answers_next | split
  case parkImageDone | srvStepDone | stepBoundary | stepTimeout | regulatorRelease | capAdmit | boutStart | boutEnd |
    gapEnd | channelSwitchOut | capUpdate | repair | migrationStart | spareSwitch | tsvRemap | memberMissing |
    degradedNotice | fabricBringup | measurementReport | hostRead | hostAtomicop | relayDoorbellForward |
    hifWinWrite | bar2Resize | msixUnmask | flr | d3hotEntry | d0Return | ideKeyProg | tdiError | powerSample |
    thermalUpdate | thermalCalibrate | analogTrip | thermtripRelease | coldReset | warmReset | pcieLinkUp |
    atsInvalidation | tdispRequest | vfEnable | i3cDynamicAddressAssignment =>
    dsimp only [execParkImageDone, execSrvStepDone, execStepBoundary, execStepTimeout, execRegulatorRelease,
      execCapAdmit, execBoutStart, execBoutEnd, execGapEnd, execChannelSwitchOut, execCapUpdate, execRepair,
      execMigrationStart, execSpareSwitch, execTsvRemap, execMemberMissing, execDegradedNotice, execFabricBringup,
      execMeasurementReport, execHostRead, execHostAtomicop, execRelayDoorbellForward, execHifWinWrite,
      execBar2Resize, execMsixUnmask, execFlr, execD3hotEntry, execD0Return, execIdeKeyProg, execTdiError,
      execPowerSample, execThermalUpdate, execThermalCalibrate, execAnalogTrip, execThermtripRelease, execColdReset,
      execWarmReset, execPcieLinkUp, execAtsInvalidation, execTdispRequest, execVfEnable,
      execI3cDynamicAddressAssignment]
    refine guard_answers (fun bad => ?_) ?_
    · grind [chanOk, stackOk, nReq, coreWf, queueWf, chanWf, bankWf, stackWf, ringWf, fnWf, foldWf, linkWf, devWf, modelWf, reqWf]
    · repeat' first | exact answers_next | split
  case nop | hurdle | wait | waitTally | arSet => exact beginOp_answers (by grind [coreOk, coreWf]) (by grind [queueWf])
  case palWrite => exact beginOp_answers (by grind [coreOk, coreWf]) (by omega)
  case signal | fence =>
    dsimp only [execSignal, execFence]
    repeat' split
    all_goals first
      | exact beginOp_answers (by grind [coreOk, coreWf]) (by grind [queueWf])
      | exact onCore_answers (by grind [coreOk, coreWf]) answers_next
  case scBlock =>
    dsimp only [execScBlock]
    repeat' split
    all_goals first
      | exact beginOp_answers (fun h => h) (by omega)
      | exact onCore_answers (fun h => h) answers_next
  case resourceWaitTimeout | class0Takeover | spdCeWriteback =>
    refine onCore_answers (by grind [coreOk, coreWf]) (guard_answers (by grind [queueWf]) ?_)
    repeat' first | exact answers_next | split
  case ordinaryAccess =>
    refine guard_answers (fun bad => ?_) ?_
    · grind [accessOk_eq_accessWf, chanOk, chanWf]
    · repeat' first | exact answers_next | split | dsimp only
  case grazeVisit =>
    dsimp only [execGrazeVisit]
    refine guard_answers (fun bad => ?_) ?_
    · grind [grazeWf]
    · repeat' split
      all_goals exact answers_next
  case refresh =>
    simp only [execRefresh, answers_ite, answers_next, answers_fault]
    exact ⟨fun _ => trivial, fun bad => (Bool.not_eq_true _).mp bad⟩
  case hostWrite => exact execHostWrite_answers (by grind [fnWf])
  case rcvChunk | rcvRestart => exact execHostWrite_answers (by grind [fnWf])
  case relayDeviceRequest => exact execRelayDeviceRequest_answers (by grind [devWf])
  case ringDoorbell | cplHeadWrite | ringEnable | ringDisable | foldForm | foldRelease =>
    exact guard_answers (by grind [ringWf, foldWf]) (regRow_answers (by grind [fnWf]))
  case spareReq | domainReset | prefixGroupWrite => exact regRow_answers (by grind [fnWf])
  case tallyAdd | tallySet =>
    have := cores_le s.grade
    exact guard_answers (by grind [tallyWf]) (regRow_answers (by grind [fnWf]))
  case flipArm =>
    dsimp only [execFlipArm]
    repeat' split
    · exact regRow_answers (by grind [fnWf])
    · exact regRow_answers (by grind [fnWf])
    · grind [answers_fault, coreOk, coreWf]
  case registerWrite =>
    refine guard_answers (by grind) ?_
    split
    · exact regRow_answers (by grind [fnWf])
    · exact answers_next
  case nakReplay | macGroupClose | linkAckTimeout | linkDown | laneReequalisationDone =>
    refine onLink_answers (by grind [linkWf]) ?_
    repeat' first | exact answers_next | split | dsimp only
  case laneDrop | laneReequalisation =>
    refine onLink_answers (by grind [linkWf]) (guard_answers (by grind) ?_)
    repeat' first | exact answers_next | split | dsimp only
  case messageReceive =>
    refine onLink_answers (by grind [linkWf]) (countOut_answers ?_)
    repeat' first | exact answers_next | exact takeMsg_answers (by grind [devWf]) | split | dsimp only
  case secDebugUnlock =>
    dsimp only [execSecDebugUnlock]
    repeat' first | exact answers_next | exact svcRow_answers | split
  case pldmSetNumericEffecterValue =>
    dsimp only [execPldmSetNumericEffecterValue]
    split <;> exact answers_next

/-- Settles O5. -/
theorem wellFormedCommandsRun : Obligations.WellFormedCommandsRun := by
  unfold Obligations.WellFormedCommandsRun
  intro i s
  obtain next | ⟨fault, bad⟩ := exec_answers i s
  · exact ⟨fun _ => next, .inl next⟩
  · exact ⟨fun good => absurd good (by simp [bad]), .inr fault⟩

end Sys2Proof.Machine

/-! ## Engine queues: one row for every engine command (R186, R206, R209) -/

namespace Sys2Proof.Machine

/-- Every engine command is the shared engine row with its own engine. -/
theorem exec_engRow {i : Instr} {e : EngRow} (h : engRow i = some e) (s : State) :
    exec i s = engineRow e.eng e.q e.op e.it e.core e.n s := by
  cases i <;> cases h <;> rfl

/-- Settles O8: a repeat of the shared row, where it goes through and where it faults. -/
theorem engineRepeatRuns : Obligations.EngineRepeatRuns := by
  intro i e s u x st inc r hi hr hn w
  rw [exec_engRow hi]
  exact ⟨engineRow_done hr hn, engineRow_fault hr hn⟩

/-- Settles O9: the issue of the shared row. -/
theorem engineCommandIssues : Obligations.EngineCommandIssues := by
  intro i e s x m hi hm _ hs w
  rw [exec_engRow hi]
  exact engineRow_issue hm hs

/-! ## Commands that every engine has (R183-R199, R298) -/

/-- Settles O14: each command passes its own check, and its row acts on the state after its issue. -/
theorem commonCommandsComplete : Obligations.CommonCommandsComplete := by
  intro s c q t
  refine ⟨?nop, ?arSet, ?fence, ?signal⟩
  case nop =>
    intro ht h2 h3
    exact beginOp_next ht (by simp [fmtIf, h2, h3])
  case arSet =>
    intro ht hb
    exact beginOp_next ht (by simp [fmtIf, hb])
  case fence =>
    intro ht hopen hasks h2 h3 u
    have hended : ended s c q t.w.ctx = true := hopen
    show execFence c q s = _
    unfold execFence
    dsimp only
    rw [ht.slot]
    dsimp only
    rw [if_neg]
    · exact beginOp_next ht (by simp [fmtIf, h2, h3])
    · rintro ⟨-, hwait⟩
      simp only [hended, Bool.not_true, Bool.or_false, List.any_eq_true] at hwait
      obtain ⟨k, hk, howner⟩ := hwait
      have := hasks k hk
      grind
  case signal =>
    intro ht hopen h1 h2 h3 h4
    have hended : ended s c q t.w.ctx = true := hopen
    show execSignal c q s = _
    unfold execSignal
    rw [ht.slot]
    dsimp only
    rw [if_neg (by simp [hended])]
    exact beginOp_next ht (by simp [fmtIf, h1, h2, h3, h4])

/-- Settles O15: each command passes its own check and holds its queue; a HURDLE finds no other mask. -/
theorem waitingCommandsHold : Obligations.WaitingCommandsHold := by
  intro s c q t
  refine ⟨?wait, ?waitTally, ?hurdle⟩
  case wait =>
    intro ht h1 h2 h3
    exact beginOp_next ht (by simp [fmtIf, h1, h2, h3])
  case waitTally =>
    intro ht hb hr
    exact beginOp_next ht (by simp [hb, hr])
  case hurdle =>
    intro ht h1 h2 h3 u k a v hmask
    refine (beginOp_next ht (by simp [fmtIf, h1, h2, h3])).trans ?_
    refine congrArg _ (if_pos (List.isEmpty_iff.mpr (List.filter_eq_nil_iff.mpr fun p hp => ?_)))
    have := hmask p (List.mem_range.mp hp)
    grind

/-! ## SIGNAL's saturation (R195) -/

/-- The new value of CORE_SYNC_STATUS after a saturated SIGNAL of flag f: FLAG_SAT set, with the first such flag kept. -/
def flagSatWord (w : Word) (f : Nat) : Word := if bit w 0 then w else setFld (w ||| 1) 15 8 f

theorem signalFlag_eq (s : State) (c f n : Nat) : signalFlag s c f n =
    if (getFlag s c f).toNat + n ≤ 65535 then setFlag s c f (BitVec.ofNat 16 ((getFlag s c f).toNat + n))
    else rset (setFlag s c f 65535) (coreReg c 0x880) (flagSatWord (rget s (coreReg c 0x880)) f) := rfl

theorem bit_flagSatWord (w : Word) (f : Nat) : bit (flagSatWord w f) 0 = true := by
  unfold flagSatWord
  split
  · assumption
  · simp [bit, setFld]

/-- The flags after SIGNAL: the one it names holds the saturated sum. -/
theorem getFlag_signalFlag {s : State} {c f n d j : Nat} (h : StoresWf s) (hf : f < 256) (hj : j < 256) :
    getFlag (signalFlag s c f n) d j =
      if d = c ∧ j = f then BitVec.ofNat 16 (min 65535 ((getFlag s c f).toNat + n)) else getFlag s d j := by
  rw [signalFlag_eq]
  split
  next fits => rw [getFlag_setFlag h hf hj, Nat.min_eq_right fits]
  next carry =>
    rw [Nat.min_eq_left (by omega)]
    exact getFlag_setFlag h hf hj

theorem signalFlag_frame (s : State) (c f n : Nat) :
    SameMem s (signalFlag s c f n) ∧ (signalFlag s c f n).tallies = s.tallies := by
  rw [signalFlag_eq]
  split
  · exact ⟨sameMem_of_eq rfl rfl, rfl⟩
  · exact ⟨sameMem_of_eq rfl rfl, rfl⟩

/-- A SIGNAL waits while an earlier command of its queue has not ended (R195). -/
theorem exec_signal_of_open {s : State} {c q : Nat} {k : Slot} (h : Acts s c q 0xF2 k) (hopen : ¬NoneOpen s c q k) :
    exec (.signal c q) s = .next s := by
  have hended : ended s c q k.w.ctx = false := by simpa [NoneOpen] using hopen
  show execSignal c q s = _
  unfold execSignal
  rw [h.slot]
  dsimp only
  rw [if_pos (by simp [h.op, hended]), onCore, if_pos h.core]

/-- Settles O53: the two branches of `signalFlag`. -/
theorem signalSaturates : Obligations.SignalSaturates := by
  intro s c f n h hf t
  obtain ⟨mem, tallies⟩ := signalFlag_frame s c f n
  refine ⟨?sum, ?others, ?saturates, ?fits, mem, tallies, fun _ _ => exec_signal_of_open⟩
  case sum =>
    rw [getFlag_signalFlag h hf hf, if_pos ⟨rfl, rfl⟩, BitVec.toNat_ofNat]
    omega
  case others =>
    intro d j hj other
    rw [getFlag_signalFlag h hf hj, if_neg (by omega)]
  case saturates =>
    intro carry
    show bit (rget (signalFlag s c f n) _) 0 = true
    rw [signalFlag_eq, if_neg (by omega), rget_rset ((setFlag_keeps Keeps.rfl).stores h), if_pos rfl, bit_flagSatWord]
  case fits =>
    intro fits
    show rget (signalFlag s c f n) _ = _
    rw [signalFlag_eq, if_pos fits]
    rfl

end Sys2Proof.Machine

/-! ## What reads and writes of stored bytes leave alone (chapters 08, 16)

Every operation of the memory layer changes memory, its codes, the registers that report on them, the repair queues, the life log
and the interrupts only. `beyondMem` is the rest of a state; each operation keeps it. -/

namespace Sys2Proof.Machine

/-- A state without what operations on stored bytes change. -/
def beyondMem (s : State) : State :=
  { s with regs := [], mem := [], errs := [], gerrs := [], stks := [], ecc := {}, life := {}, msix := [], fabOut := [],
           hif := { s.hif with pend := [] } }

variable {s : State}

@[simp] theorem beyondMem_memPut (l : Nat) (b : Byte) : beyondMem (memPut s l b) = beyondMem s := rfl
@[simp] theorem beyondMem_rset (a : Nat) (v : Word) : beyondMem (rset s a v) = beyondMem s := rfl
@[simp] theorem beyondMem_ror (a : Nat) (v : Word) : beyondMem (ror s a v) = beyondMem s := rfl
@[simp] theorem beyondMem_rfld (a hi lo x : Nat) : beyondMem (rfld s a hi lo x) = beyondMem s := rfl
@[simp] theorem beyondMem_rinc (a n : Nat) : beyondMem (rinc s a n) = beyondMem s := rfl
@[simp] theorem beyondMem_lifeCe (g : Nat) : beyondMem (lifeCe s g) = beyondMem s := rfl
@[simp] theorem beyondMem_lifeUe (g : Nat) : beyondMem (lifeUe s g) = beyondMem s := rfl

@[simp] theorem beyondMem_sendMsix (fn vec : Nat) : beyondMem (sendMsix s fn vec) = beyondMem s := by
  unfold sendMsix
  repeat' first | exact rfl | split | dsimp only

@[simp] theorem beyondMem_raiseErr : beyondMem (raiseErr s) = beyondMem s := beyondMem_sendMsix ..

@[simp] theorem beyondMem_raiseThm : beyondMem (raiseThm s) = beyondMem s := beyondMem_sendMsix ..

@[simp] theorem beyondMem_setAlert (w : Word) : beyondMem (setAlert s w) = beyondMem s := by
  unfold setAlert alerting
  split <;> simp

@[simp] theorem beyondMem_lifeAdd (event : Bool) (kind detail : Nat) (data : List Nat) :
    beyondMem (lifeAdd s event kind detail data) = beyondMem s := by
  unfold lifeAdd
  dsimp only
  repeat' split
  all_goals rfl

@[simp] theorem beyondMem_coreFail (c : Nat) : beyondMem (coreFail s c) = beyondMem s := by
  unfold coreFail
  dsimp only
  split <;> simp

@[simp] theorem beyondMem_logUe (m : Meet) (addr syn : Nat) : beyondMem (logUe s m addr syn) = beyondMem s := by
  have record : beyondMem (logUeRec s m addr syn) = beyondMem s := by
    simp only [logUeRec, beyondMem_lifeAdd, beyondMem_ror, beyondMem_rinc, beyondMem_rset]
  unfold logUe
  generalize logUeRec s m addr syn = t at record ⊢
  refine (beyondMem_raiseErr ..).trans (Eq.trans ?_ record)
  split
  · rfl
  · rfl

@[simp] theorem beyondMem_offerRepair (u : Nat) : beyondMem (offerRepair s u) = beyondMem s := by
  unfold offerRepair
  dsimp only
  repeat' split
  all_goals rfl

@[simp] theorem beyondMem_countCe (u : Nat) : beyondMem (countCe s u) = beyondMem s := by
  unfold countCe
  dsimp only
  split <;> rfl

@[simp] theorem beyondMem_flipDram (u : Nat) : beyondMem (flipDram s u).1 = beyondMem s := by
  unfold flipDram
  dsimp only
  split <;> rfl

@[simp] theorem beyondMem_flipSram (u : Nat) : beyondMem (flipSram s u).1 = beyondMem s := by
  unfold flipSram
  dsimp only
  repeat' split
  all_goals rfl

@[simp] theorem beyondMem_applyView (u : Nat) : beyondMem (applyView s u) = beyondMem s := by
  unfold applyView
  dsimp only
  split
  · rfl
  · exact foldl_proj fun t x => beyondMem_memPut ..

@[simp] theorem beyondMem_rewriteSram (u : Nat) : beyondMem (rewriteSram s u) = beyondMem s :=
  (beyondMem_flipSram (s := applyView s u) u).trans (beyondMem_applyView u)

@[simp] theorem beyondMem_rewriteDram (u : Nat) : beyondMem (rewriteDram s u) = beyondMem s :=
  (beyondMem_flipDram (s := applyView s u) u).trans (beyondMem_applyView u)

@[simp] theorem beyondMem_noteCe (u : Nat) : beyondMem (noteCe s u) = beyondMem s := by
  unfold noteCe
  split <;> rfl

@[simp] theorem beyondMem_noteUe (u : Nat) : beyondMem (noteUe s u) = beyondMem s := by
  unfold noteUe
  split <;> rfl

@[simp] theorem beyondMem_correctSram (u : Nat) : beyondMem (correctSram s u) = beyondMem s := by
  unfold correctSram
  dsimp only
  repeat' split
  · rfl
  · exact beyondMem_noteCe u
  · exact beyondMem_rewriteSram u

@[simp] theorem beyondMem_flushWb : beyondMem (flushWb s) = beyondMem s :=
  foldl_proj fun _ _ => beyondMem_rewriteSram _

@[simp] theorem beyondMem_touchUnit (u : Nat) : beyondMem (touchUnit s u) = beyondMem s := by
  unfold touchUnit
  dsimp only
  repeat' split
  all_goals simp

@[simp] theorem beyondMem_eccTouch (m : Meet) (us : List Nat) : beyondMem (eccTouch s m us).1 = beyondMem s := by
  have touched (t : State) (l : List Nat) : beyondMem (l.foldl touchUnit t) = beyondMem t :=
    foldl_proj fun _ _ => beyondMem_touchUnit _
  unfold eccTouch
  dsimp only
  repeat' split
  · rfl
  · exact (touched ..).trans beyondMem_flushWb
  · simp [touched]

@[simp] theorem beyondMem_encodeUnit (u : Nat) : beyondMem (encodeUnit s u) = beyondMem s := by
  unfold encodeUnit
  split
  · exact beyondMem_flipDram u
  · exact beyondMem_flipSram u

@[simp] theorem beyondMem_putBytes (ok : Nat → Bool) (a : Nat) (bs : List Byte) :
    beyondMem (putBytes ok s a bs) = beyondMem s := by
  induction bs generalizing s a with
  | nil => rfl
  | cons b bs ih =>
    unfold putBytes
    rw [ih]
    split <;> simp

@[simp] theorem beyondMem_mergeRead (u : Nat) : beyondMem (mergeRead s u) = beyondMem s := by
  unfold mergeRead
  dsimp only
  repeat' split
  all_goals simp

/-- The units of a write that are merged are read first. -/
theorem beyondMem_merges (full : Nat → Bool) (us : List Nat) :
    beyondMem (us.foldl (fun t u => if full u then t else mergeRead t u) s) = beyondMem s :=
  foldl_proj fun t u => by split <;> simp

@[simp] theorem beyondMem_writeBytes (m : Meet) (a : Nat) (bs : List Byte) :
    beyondMem (writeBytes s m a bs).1 = beyondMem s := by
  have encoded (t : State) (l : List Nat) : beyondMem (l.foldl encodeUnit t) = beyondMem t :=
    foldl_proj fun _ _ => beyondMem_encodeUnit _
  have failed (t : State) (l : List Nat) : beyondMem (l.foldl (fun t u => coreFail t (locCore u)) t) = beyondMem t :=
    foldl_proj fun _ _ => beyondMem_coreFail _
  have logged (t : State) (v : Nat → Nat) (l : List Nat) :
      beyondMem (l.foldl (fun t b => logUe t { m with path := 8 } b (v b)) t) = beyondMem t :=
    foldl_proj fun _ _ => beyondMem_logUe ..
  unfold writeBytes
  extract_lets s' us full bad s1 s2 s3 s3'
  have begun : beyondMem s' = beyondMem s := by
    unfold s'
    split <;> simp
  have merged : beyondMem s1 = beyondMem s' := by
    unfold s1
    split
    · rfl
    · exact beyondMem_merges ..
  have written : beyondMem s3' = beyondMem s := by
    have h3 : beyondMem s3 = beyondMem s := (encoded ..).trans ((beyondMem_putBytes ..).trans (merged.trans begun))
    unfold s3'
    split
    · exact h3
    · exact (failed ..).trans h3
  clear_value s3' bad
  cases bad with
  | nil => exact written
  | cons u rest => exact (logged ..).trans written

@[simp] theorem beyondMem_extWrite (a : Nat) (bs : List Byte) (m : Meet) :
    beyondMem (extWrite s a bs m).1 = beyondMem s := by
  have written := beyondMem_writeBytes (s := s) m a bs
  unfold extWrite
  dsimp only
  split
  · exact written
  · split
    · exact written
    · exact written

@[simp] theorem beyondMem_writeLe (a n v : Nat) : beyondMem (writeLe s a n v) = beyondMem s := beyondMem_writeBytes ..

@[simp] theorem beyondMem_writeW (a : Nat) (v : Word) : beyondMem (writeW s a v) = beyondMem s := beyondMem_writeBytes ..

/-- Operations on stored bytes leave the engines' registers alone. -/
theorem sameEngines_of_beyondMem {t : State} (h : beyondMem t = beyondMem s) : SameEngines s t :=
  ⟨(congrArg State.acc h :), (congrArg State.accTy h :), (congrArg State.ars h :), (congrArg State.xs h :)⟩

end Sys2Proof.Machine

/-! ## Writes of runs of bytes (R98, R224-R227, R426) -/

namespace Sys2Proof.Machine

/-! ### Units and locations -/

theorem isDramLoc_unitOf_add {l i : Nat} (hi : i < unitLen l) : isDramLoc (unitOf l + i) = isDramLoc l := by
  unfold unitOf unitLen isDramLoc at *
  grind [blinBase, blinEnd]

theorem unitLen_unitOf (l : Nat) : unitLen (unitOf l) = unitLen l := by
  have h : isDramLoc (unitOf l + 0) = isDramLoc l := isDramLoc_unitOf_add (by unfold unitLen; split <;> omega)
  unfold unitLen
  rw [← h, Nat.add_zero]

/-- Every byte of a unit lies in that unit. -/
theorem unitOf_unitOf_add {l i : Nat} (hi : i < unitLen l) : unitOf (unitOf l + i) = unitOf l := by
  have h := isDramLoc_unitOf_add hi
  unfold unitLen at hi
  unfold unitOf at h ⊢
  grind

theorem locOf_eq_self {a : Nat} (h : blinBase ≤ a) : locOf a = a := if_neg (by unfold ilvEnd blinBase at *; omega)

/-- Locations of a run that lies on one side of the interleaved view's end are distinct (R98, R100). -/
theorem locOf_injective {a b : Nat} (h : a < ilvEnd ∧ b < ilvEnd ∨ blinBase ≤ a ∧ blinBase ≤ b)
    (e : locOf a = locOf b) : a = b := by
  rcases h with ⟨ha, hb⟩ | ⟨ha, hb⟩
  · unfold locOf at e
    rw [if_pos ha, if_pos hb] at e
    exact ilvToLin_injective ha hb e
  · rwa [locOf_eq_self ha, locOf_eq_self hb] at e

theorem mem_dedup {x : Nat} : ∀ {l : List Nat}, x ∈ dedup l ↔ x ∈ l
  | [] => Iff.rfl
  | [y] => Iff.rfl
  | y :: z :: t => by
    unfold dedup
    split
    next e => rw [mem_dedup, e]; simp
    next => rw [List.mem_cons, mem_dedup, List.mem_cons (a := x) (b := y)]

theorem mem_unitsOf {a len u : Nat} : u ∈ unitsOf a len ↔ ∃ i < len, unitOf (locOf (a + i)) = u := by
  simp [unitsOf, mem_dedup]

/-! ### Which operations leave the bytes themselves alone -/

variable {s : State}

@[simp] theorem sendMsix_mem (fn vec : Nat) : (sendMsix s fn vec).mem = s.mem := by
  unfold sendMsix
  repeat' first | exact rfl | split | dsimp only

@[simp] theorem raiseErr_mem : (raiseErr s).mem = s.mem := sendMsix_mem ..

@[simp] theorem lifeAdd_mem (event : Bool) (kind detail : Nat) (data : List Nat) :
    (lifeAdd s event kind detail data).mem = s.mem := by
  unfold lifeAdd
  dsimp only
  repeat' split
  all_goals rfl

@[simp] theorem coreFail_mem (c : Nat) : (coreFail s c).mem = s.mem := by
  unfold coreFail
  dsimp only
  split <;> simp [ror]

@[simp] theorem logUe_mem (m : Meet) (addr syn : Nat) : (logUe s m addr syn).mem = s.mem := by
  have record : (logUeRec s m addr syn).mem = s.mem := by simp [logUeRec, ror, rinc]
  unfold logUe
  generalize logUeRec s m addr syn = t at record ⊢
  refine raiseErr_mem.trans (Eq.trans ?_ record)
  split
  · rfl
  · rfl

@[simp] theorem noteCe_mem (u : Nat) : (noteCe s u).mem = s.mem := by
  unfold noteCe
  split <;> rfl

@[simp] theorem noteUe_mem (u : Nat) : (noteUe s u).mem = s.mem := by
  unfold noteUe
  split <;> rfl

@[simp] theorem countCe_mem (u : Nat) : (countCe s u).mem = s.mem := by
  unfold countCe
  dsimp only
  split <;> rfl

@[simp] theorem offerRepair_mem (u : Nat) : (offerRepair s u).mem = s.mem := by
  unfold offerRepair
  dsimp only
  repeat' split
  all_goals rfl

@[simp] theorem flipDram_mem (u : Nat) : (flipDram s u).1.mem = s.mem := by
  unfold flipDram
  dsimp only
  split <;> rfl

@[simp] theorem flipSram_mem (u : Nat) : (flipSram s u).1.mem = s.mem := by
  unfold flipSram
  dsimp only
  repeat' split
  all_goals rfl

@[simp] theorem encodeUnit_mem (u : Nat) : (encodeUnit s u).mem = s.mem := by
  unfold encodeUnit
  split
  · exact flipDram_mem u
  · exact flipSram_mem u

/-- A byte reads the same where the bytes and the unspecified areas are the same. -/
theorem memGet_congr {t : State} (mem : t.mem = s.mem) (h : beyondMem t = beyondMem s) (l : Nat) : memGet t l = memGet s l :=
  sameMem_of_eq mem (congrArg State.lost h :) l

/-! ### Where bytes change -/

/-- A fold of steps on sound stores, each of which leaves a byte alone, leaves it alone. -/
theorem memGet_foldl {α : Type} {f : State → α → State} {l : List α} {j : Nat} (h : StoresWf s)
    (keeps : ∀ {s t x}, Keeps s t → Keeps s (f t x))
    (same : ∀ t, StoresWf t → ∀ x ∈ l, memGet (f t x) j = memGet t j) : memGet (l.foldl f s) j = memGet s j := by
  induction l generalizing s with
  | nil => rfl
  | cons x l ih =>
    rw [List.foldl_cons, ih ((keeps .rfl).stores h) fun t ht y hy => same t ht y (List.mem_cons_of_mem x hy)]
    exact same s h x List.mem_cons_self

/-- A corrected unit put back changes its own bytes alone. -/
theorem memGet_applyView {u j : Nat} (h : StoresWf s) (out : j < u ∨ u + unitLen u ≤ j) :
    memGet (applyView s u) j = memGet s j := by
  unfold applyView
  dsimp only
  split
  · rfl
  · refine memGet_foldl h (fun hk => memPut_keeps hk) fun t ht i hi => ?_
    rw [memGet_memPut ht, if_neg]
    have := List.mem_range.mp hi
    omega

theorem memGet_rewriteSram {u j : Nat} (h : StoresWf s) (out : j < u ∨ u + unitLen u ≤ j) :
    memGet (rewriteSram s u) j = memGet s j :=
  (memGet_congr (t := (flipSram (applyView s u) u).1) (flipSram_mem u) (beyondMem_flipSram u) j).trans (memGet_applyView h out)

theorem memGet_flushWb {j : Nat} (h : StoresWf s) (out : ∀ u ∈ s.ecc.writeback, j < u ∨ u + unitLen u ≤ j) :
    memGet (flushWb s) j = memGet s j :=
  memGet_foldl h (fun hk => rewriteSram_keeps hk) fun _ ht u hu => memGet_rewriteSram ht (out u hu)

theorem memGet_mergeRead {u j : Nat} (h : StoresWf s) (out : j < u ∨ u + unitLen u ≤ j) :
    memGet (mergeRead s u) j = memGet s j := by
  unfold mergeRead
  dsimp only
  repeat' split
  · exact memGet_congr (noteUe_mem u) (beyondMem_noteUe u) j
  · rw [memGet_applyView ((offerRepair_keeps (countCe_keeps .rfl)).stores h) out]
    exact memGet_congr (by simp) (by simp) j
  · rw [memGet_applyView ((noteCe_keeps .rfl).stores h) out]
    exact memGet_congr (noteCe_mem u) (beyondMem_noteCe u) j
  · exact memGet_applyView h out

/-- Bytes outside the locations written stay. -/
theorem memGet_putBytes_of_outside {ok : Nat → Bool} {a j : Nat} {bs : List Byte} (h : StoresWf s)
    (out : ∀ i < bs.length, j ≠ locOf (a + i)) : memGet (putBytes ok s a bs) j = memGet s j := by
  induction bs generalizing s a with
  | nil => rfl
  | cons b bs ih =>
    unfold putBytes
    have first : j ≠ locOf a := out 0 (by simp)
    have rest (i : Nat) (hi : i < bs.length) : j ≠ locOf (a + 1 + i) := by
      have := out (i + 1) (by simpa using hi)
      rwa [Nat.add_assoc, Nat.add_comm 1]
    split
    · rw [ih ((memPut_keeps .rfl).stores h) rest, memGet_memPut h, if_neg first]
    · exact ih h rest

/-- Written bytes read as written, where the locations of the run are distinct. -/
theorem memGet_putBytes_of_mem {a i : Nat} {bs : List Byte} (h : StoresWf s) (side : a + bs.length ≤ ilvEnd ∨ blinBase ≤ a)
    (hi : i < bs.length) : memGet (putBytes (fun _ => true) s a bs) (locOf (a + i)) = bs.getD i 0 := by
  induction bs generalizing s a i with
  | nil => exact absurd hi (Nat.not_lt_zero i)
  | cons b bs ih =>
    rw [List.length_cons] at side hi
    unfold putBytes
    rw [if_pos rfl]
    cases i with
    | zero =>
      rw [List.getD_cons_zero, memGet_putBytes_of_outside ((memPut_keeps .rfl).stores h), memGet_memPut h, Nat.add_zero, if_pos rfl]
      intro k hk e
      have := locOf_injective (by omega) e
      omega
    | succ i =>
      have shift : a + (i + 1) = a + 1 + i := by omega
      rw [shift, List.getD_cons_succ]
      exact ih ((memPut_keeps .rfl).stores h) (by omega) (by omega)

/-! ### The whole write -/

theorem unitView_of_clean (h : clean s = true) (u : Nat) : unitView s u = {} := by
  obtain ⟨errs, gerrs⟩ := Bool.and_eq_true_iff.mp h
  unfold unitView
  rw [List.isEmpty_iff.mp errs, List.isEmpty_iff.mp gerrs]
  split <;> rfl

/-- Where no codeword differs from its encoding, a write puts its bytes and encodes their units. -/
theorem writeBytes_of_clean (h : clean s = true) (m : Meet) (a : Nat) (bs : List Byte) :
    writeBytes s m a bs = ((unitsOf a bs.length).foldl encodeUnit (putBytes (fun _ => true) s a bs), none) := by
  unfold writeBytes
  simp [h]

theorem memGet_foldl_encodeUnit (us : List Nat) (j : Nat) : memGet (us.foldl encodeUnit s) j = memGet s j :=
  memGet_congr (foldl_proj (p := State.mem) fun _ _ => encodeUnit_mem _) (foldl_proj (p := beyondMem) fun _ _ => beyondMem_encodeUnit _) j

/-- Where no codeword differs from its encoding, a write changes the bytes it puts alone. -/
theorem memGet_writeBytes_of_clean (h : clean s = true) (m : Meet) (a : Nat) (bs : List Byte) (j : Nat) :
    memGet (writeBytes s m a bs).1 j = memGet (putBytes (fun _ => true) s a bs) j := by
  rw [writeBytes_of_clean h, memGet_foldl_encodeUnit]

/-- A unit of a run has no byte of another unit. -/
theorem outside_of_unitOf_notMem {a len j u : Nat} (out : unitOf j ∉ unitsOf a len) (hu : u ∈ unitsOf a len) :
    j < u ∨ u + unitLen u ≤ j := by
  obtain ⟨i, -, rfl⟩ := mem_unitsOf.mp hu
  rw [unitLen_unitOf]
  by_contra inside
  obtain ⟨k, hk⟩ := Nat.exists_eq_add_of_le (Nat.le_of_not_lt fun hj => inside (.inl hj))
  have inUnit : unitOf j = unitOf (locOf (a + i)) := hk ▸ unitOf_unitOf_add (by omega)
  exact out (inUnit ▸ hu)

theorem memGet_foldl_coreFail (us : List Nat) (j : Nat) :
    memGet (us.foldl (fun t u => coreFail t (locCore u)) s) j = memGet s j := by
  rw [← List.foldl_map]
  exact memGet_congr (foldl_proj (p := State.mem) fun _ _ => coreFail_mem _) (foldl_proj (p := beyondMem) fun _ _ => beyondMem_coreFail _) j

theorem memGet_foldl_logUe (m : Meet) (syn : Nat → Nat) (us : List Nat) (j : Nat) :
    memGet (us.foldl (fun t b => logUe t m b (syn b)) s) j = memGet s j :=
  memGet_congr (foldl_proj (p := State.mem) fun _ _ => logUe_mem ..) (foldl_proj (p := beyondMem) fun _ _ => beyondMem_logUe ..) j

/-- A byte outside a unit of the run, and outside the corrected granules that wait, stays (R226). -/
theorem memGet_writeBytes_of_outside {m : Meet} {a j : Nat} {bs : List Byte} (h : StoresWf s)
    (out : unitOf j ∉ unitsOf a bs.length) (wb : ∀ u ∈ s.ecc.writeback, j < u ∨ u + unitLen u ≤ j) :
    memGet (writeBytes s m a bs).1 j = memGet s j := by
  have outRun (i : Nat) (hi : i < bs.length) : j ≠ locOf (a + i) := fun e => out (mem_unitsOf.mpr ⟨i, hi, congrArg unitOf e.symm⟩)
  unfold writeBytes
  extract_lets s' us full bad s1 s2 s3 s3'
  have hs' : StoresWf s' ∧ memGet s' j = memGet s j := by
    unfold s'
    split
    · exact ⟨h, rfl⟩
    · exact ⟨(flushWb_keeps .rfl).stores h, memGet_flushWb h wb⟩
  clear_value s'
  have hs1 : StoresWf s1 ∧ memGet s1 j = memGet s' j := by
    have merges {s t : State} {u : Nat} (hk : Keeps s t) : Keeps s (if full u = true then t else mergeRead t u) := by
      split
      · exact hk
      · exact mergeRead_keeps hk
    unfold s1
    split
    · exact ⟨hs'.1, rfl⟩
    · refine ⟨(Keeps.foldl .rfl fun _ _ hk => merges hk).stores hs'.1, memGet_foldl hs'.1 merges fun t ht u hu => ?_⟩
      split
      · rfl
      · exact memGet_mergeRead ht (outside_of_unitOf_notMem out hu)
  clear_value s1
  have hs2 : memGet s2 j = memGet s1 j := memGet_putBytes_of_outside hs1.1 outRun
  clear_value s2
  have hs3 : memGet s3 j = memGet s2 j := memGet_foldl_encodeUnit _ j
  clear_value s3
  have written : memGet s3' j = memGet s j := by
    refine Eq.trans ?_ (hs3.trans (hs2.trans (hs1.2.trans hs'.2)))
    unfold s3'
    split
    · rfl
    · exact memGet_foldl_coreFail ..
  clear_value s3' bad
  cases bad with
  | nil => exact written
  | cons u rest => exact (memGet_foldl_logUe ..).trans written

/-- Settles O56: what a write does to each byte, and the frame of the memory layer. -/
theorem writesStayInPlace : Obligations.WritesStayInPlace := by
  intro s m a bs h t
  have frame : beyondMem t = beyondMem s := beyondMem_writeBytes m a bs
  refine ⟨fun l => memGet_writeBytes_of_outside h, fun hc => ⟨?whole, ?others, ?written⟩, sameEngines_of_beyondMem frame,
    (congrArg State.flags frame :), (congrArg State.tallies frame :), (congrArg State.ctxs frame :)⟩
  case whole => rw [writeBytes_of_clean hc]
  case others =>
    intro l out
    exact (memGet_writeBytes_of_clean hc m a bs l).trans (memGet_putBytes_of_outside h out)
  case written =>
    intro side i hi
    exact (memGet_writeBytes_of_clean hc m a bs _).trans (memGet_putBytes_of_mem h side hi)

end Sys2Proof.Machine

/-! ## In-bank instructions (chapter 05)

What an instruction does in one bank is made of two operations: a change of a bank's registers and a write of the bank's words. What
both keep, every instruction keeps. -/

namespace Sys2Proof.Machine

/-! ### Whole stores stay whole -/

/-- What decides whether a codeword differs from its encoding: the codes held and the flip masks' registers. -/
def codes (s : State) : Tab Word × Tab (BitVec 288) × Tab (BitVec 72) := (s.regs, s.errs, s.gerrs)

variable {s t : State}

theorem rget_congr (regs : t.regs = s.regs) (grade : t.grade = s.grade) (a : Nat) : rget t a = rget s a := by
  simp only [rget, regs, grade]

theorem Whole.congr (h : Whole s) (hcodes : codes t = codes s) (grade : t.grade = s.grade) : Whole t := by
  obtain ⟨regs, errs, gerrs⟩ : t.regs = s.regs ∧ t.errs = s.errs ∧ t.gerrs = s.gerrs := by simpa [codes] using hcodes
  refine ⟨?_, fun g hg => ?_, fun c hc => ?_⟩
  · rw [Machine.clean, errs, gerrs]
    exact h.clean
  · rw [rget_congr regs grade]
    exact h.chans g hg
  · rw [rget_congr regs grade]
    exact h.cores c hc

theorem locChan_lt {l : Nat} (h : isDramLoc l = true) : locChan l < 384 := by
  simp only [isDramLoc, Bool.and_eq_true, decide_eq_true_eq] at h
  unfold locChan locBank
  unfold blinBase blinEnd at *
  omega

/-- A scratchpad location lies in the window of one of the part's cores. -/
def CoreLoc (l : Nat) : Prop := isSpdLoc l = true → locCore l < 192

/-- Where no flip mask is armed, encoding a unit anew leaves no difference. -/
theorem codes_encodeUnit (h : Whole s) {u : Nat} (hu : CoreLoc u) : codes (encodeUnit s u) = codes s := by
  obtain ⟨errs, gerrs⟩ := Bool.and_eq_true_iff.mp h.clean
  rw [List.isEmpty_iff] at errs gerrs
  unfold encodeUnit
  split
  next dram =>
    have unarmed : flipDram s u = (s, 0) := by simp [flipDram, h.chans _ (locChan_lt dram)]
    simp only [unarmed, codes, errs, gerrs]
    rfl
  next =>
    have unarmed : flipSram s u = (s, 0) := by
      unfold flipSram
      split
      next spd => simp [h.cores _ (hu spd)]
      next => rfl
    simp only [unarmed, codes, errs, gerrs]
    rfl

theorem codes_memPut (l : Nat) (b : Byte) : codes (memPut s l b) = codes s := rfl

theorem codes_putBytes (ok : Nat → Bool) (a : Nat) (bs : List Byte) : codes (putBytes ok s a bs) = codes s := by
  induction bs generalizing s a with
  | nil => rfl
  | cons b bs ih =>
    unfold putBytes
    rw [ih]
    split
    · rfl
    · rfl

theorem grade_of_beyondMem (h : beyondMem t = beyondMem s) : t.grade = s.grade := (congrArg State.grade h :)

theorem codes_foldl_encodeUnit {us : List Nat} (h : Whole s) (hu : ∀ u ∈ us, CoreLoc u) :
    codes (us.foldl encodeUnit s) = codes s := by
  induction us generalizing s with
  | nil => rfl
  | cons u us ih =>
    obtain ⟨first, rest⟩ := List.forall_mem_cons.mp hu
    have step := codes_encodeUnit h first
    exact (ih (h.congr step (grade_of_beyondMem (beyondMem_encodeUnit u))) rest).trans step

theorem coreLoc_unitOf {l : Nat} (h : CoreLoc l) : CoreLoc (unitOf l) := by
  unfold CoreLoc unitOf isSpdLoc isDramLoc locCore at *
  grind [spdBase, spdEnd, blinBase, blinEnd]

/-- A write on whole stores leaves the codes and the flip masks as they were. -/
theorem codes_writeBytes (h : Whole s) {m : Meet} {a : Nat} {bs : List Byte}
    (hc : ∀ i < bs.length, CoreLoc (locOf (a + i))) : codes (writeBytes s m a bs).1 = codes s := by
  have put := codes_putBytes (s := s) (fun _ => true) a bs
  rw [writeBytes_of_clean h.clean]
  refine (codes_foldl_encodeUnit (h.congr put (grade_of_beyondMem (beyondMem_putBytes ..))) fun u hu => ?_).trans put
  obtain ⟨i, hi, rfl⟩ := mem_unitsOf.mp hu
  exact coreLoc_unitOf (hc i hi)

/-- A write on whole stores leaves them whole. -/
theorem Whole.writeBytes (h : Whole s) {m : Meet} {a : Nat} {bs : List Byte}
    (hc : ∀ i < bs.length, CoreLoc (locOf (a + i))) : Whole (writeBytes s m a bs).1 :=
  h.congr (codes_writeBytes h hc) (grade_of_beyondMem (beyondMem_writeBytes ..))

/-- No location up to the end of the bank-linear view's numbering lies in a scratchpad. -/
theorem coreLoc_of_lt {l : Nat} (h : l < spdBase) : CoreLoc l := by
  intro spd
  simp only [isSpdLoc, Bool.and_eq_true, decide_eq_true_eq] at spd
  omega

/-! ### The two operations of a bank -/

/-- What an instruction may do in bank b: change a bank's registers, and write words of the bank. -/
inductive BankSteps (n : NCtx) (b : Nat) (s : State) : State → Prop where
  | refl : BankSteps n b s s
  | nbu {t : State} (k : Nat) (v : Nbu) : BankSteps n b s t → BankSteps n b s (setNbu t k v)
  | write {t : State} (o : Nat) (bs : List Byte) (bound : o + bs.length ≤ 2 ^ 33) :
      BankSteps n b s t → BankSteps n b s (bankWrite t n b o bs)

theorem BankSteps.onNbu {n : NCtx} {b : Nat} {f : Nbu → Nbu} (h : BankSteps n b s t) : BankSteps n b s (onNbu n b f t) := .nbu _ _ h

theorem BankSteps.foldl {n : NCtx} {b : Nat} {f : State → Nat → State} {l : List Nat} (h : BankSteps n b s t)
    (step : ∀ u x, x ∈ l → BankSteps n b s u → BankSteps n b s (f u x)) : BankSteps n b s (l.foldl f t) := by
  induction l generalizing t with
  | nil => exact h
  | cons x l ih => exact ih (step t x List.mem_cons_self h) fun u y hy => step u y (List.mem_cons_of_mem x hy)

/-! ### The extent of what a bank writes -/

theorem wrapN_lt (n : Nat) (i : Int) : wrapN n i < 2 ^ n := by
  have pos : (0 : Int) < ((2 ^ n : Nat) : Int) := by positivity
  have := Int.emod_lt_of_pos i pos
  have := Int.emod_nonneg i pos.ne'
  unfold wrapN
  omega

theorem pbBase_lt (s : State) (n : NCtx) (b : Nat) : pbBase s n b < 2 ^ 32 := by
  unfold pbBase a32
  exact wrapN_lt 32 _

theorem iRep_lt (i : Word) : iRep i < 2 ^ 11 := Nat.mod_lt _ (by decide)

theorem nP_lt (x : Nbu) (r : Nat) : nP x r < 2 ^ 32 := BitVec.isLt _

theorem vBytes_length (v : BitVec 256) : (vBytes v).length = 32 := leBytes_length

/-- A packed row of as many elements as a word has is at most a word long. -/
theorem pack_length_le {w : Nat} {l : List Nat} (h : l.length ≤ 256 / w) : (pack w l).length ≤ 32 := by
  have bits : l.length * w ≤ 256 := (Nat.mul_le_mul_right w h).trans (Nat.div_mul_le_self 256 w)
  unfold pack rowBytes cdiv
  rw [leBytes_length]
  omega

theorem nbits_le (f : Nat) : nbits f ≤ 64 := by
  unfold nbits
  split <;> omega

theorem nSize_le (f : Nat) : nSize f ≤ 8 := by
  have := nbits_le f
  unfold nSize
  omega

theorem nPerWord_le (f : Nat) : nPerWord f ≤ 256 := Nat.div_le_self ..

theorem foldl_cons_length {α β : Type} (f : List α → β → α) (l : List β) (o : List α) :
    (l.foldl (fun o i => f o i :: o) o).length = o.length + l.length := by
  induction l generalizing o with
  | nil => rfl
  | cons x l ih =>
    rw [List.foldl_cons, ih, List.length_cons, List.length_cons]
    omega

theorem flatMap_leBytes_length (k : Nat) (l : List Nat) : (l.flatMap (leBytes k)).length = k * l.length := by
  induction l with
  | nil => rfl
  | cons x l ih =>
    rw [List.flatMap_cons, List.length_append, ih, leBytes_length, List.length_cons]
    ring

/-! ### Each instruction's effect -/

variable {n : NCtx} {b : Nat} {u : State}

theorem bankSteps_unlessRep0 {i : Word} {x : Fx} (h : BankSteps n b s (x.run s)) : BankSteps n b s ((unlessRep0 i x).run s) := by
  unfold unlessRep0
  split
  · exact .refl
  · exact h

theorem bankSteps_attnFx {part partLen sPart sPartLen : Nat} {run : (Nat → List CByte) → (Nat → List Byte) → State → State}
    (h : ∀ row scl u, BankSteps n b u (run row scl u)) : BankSteps n b u ((attnFx s n b part partLen sPart sPartLen run).run u) :=
  .onNbu (h ..)

theorem bankSteps_fxStp : BankSteps n b u ((fxStp s n b).run u) :=
  .write _ _ (by
    have := pbBase_lt s n b
    rw [List.length_map, List.length_range]
    omega) .refl

theorem bankSteps_fxFill : BankSteps n b u ((fxFill s n b).run u) := by
  refine bankSteps_unlessRep0 ?_
  dsimp only
  refine .onNbu (.foldl .refl fun t j hj ht => .write _ _ ?_ ht)
  have := pbBase_lt s n b
  have := iRep_lt n.i
  have := List.mem_range.mp hj
  rw [vBytes_length]
  omega

theorem bankSteps_fxAxpy : BankSteps n b u ((fxAxpy s n b).run u) := by
  refine bankSteps_unlessRep0 ?_
  dsimp only
  refine .onNbu (.foldl .refl fun t j hj ht => .write _ _ ?_ ht)
  have base := nP_lt (getNbu s (gBank n b)) (iFa n.i)
  have := iRep_lt n.i
  have := List.mem_range.mp hj
  have word (xs ys : List Nat) (g : Nat × Nat → Nat) (hx : xs.length ≤ 256 / nbits (iFmt n.i)) :
      (pack (nbits (iFmt n.i)) ((xs.zip ys).map g)).length ≤ 32 :=
    pack_length_le (by rw [List.length_map, List.length_zip]; omega)
  have := word (unpack (nbits (iFmt n.i)) (256 / nbits (iFmt n.i)) (bankBytes t n b (pbBase s n b + 32 * j) 32))
    (unpack (nbits (iFmt n.i)) (256 / nbits (iFmt n.i)) (bankBytes t n b (nP (getNbu s (gBank n b)) (iFa n.i) + 32 * j) 32))
    (fun p => nFma (nFmt (iFmt n.i)) (bcastAt n (4 * iX n.i) (nSize (iFmt n.i))) p.1 p.2) (by simp [unpack])
  omega

theorem bankSteps_fxSten7 : BankSteps n b u ((fxSten7 s n b).run u) := by
  refine bankSteps_unlessRep0 ?_
  dsimp only
  refine .onNbu (.write _ _ ?_ .refl)
  have base := nP_lt (getNbu s (gBank n b)) (iFa n.i)
  have size := nSize_le (iFmt n.i)
  have points : iRep n.i * nPerWord (iFmt n.i) ≤ 2 ^ 11 * 256 := Nat.mul_le_mul (iRep_lt n.i).le (nPerWord_le _)
  have bytes := Nat.mul_le_mul size points
  rw [flatMap_leBytes_length, List.length_reverse, foldl_cons_length, List.length_nil, List.length_range, Nat.zero_add]
  omega

/-- Every in-bank instruction that falls through is made of the two operations. -/
theorem bankSteps_of_nbuOf {i : Instr} {g op : Nat} {fx : State → NCtx → Nat → Fx} (h : nbuOf i = some (g, op, fx)) :
    BankSteps n b u ((fx s n b).run u) := by
  cases i <;> cases h
  case nbuNop | wres | wresa => exact .refl
  case padd | posadd | lpset | ldw | gath | vop | vfma | redv | asoft | ainit =>
    dsimp only [fxPadd, fxPosadd, fxLpset, fxLdw, fxGath, fxVop, fxVfma, fxRedv, fxAsoft, fxAinit]
    exact .onNbu .refl
  case dotr | vdot =>
    refine bankSteps_unlessRep0 ?_
    dsimp only
    exact .onNbu .refl
  case ascore | avsum =>
    dsimp only [fxAscore, fxAvsum]
    exact bankSteps_attnFx fun _ _ _ => .onNbu .refl
  case stw =>
    refine .write _ _ ?_ .refl
    have := pbBase_lt s n b
    rw [vBytes_length]
    omega
  case stp => exact bankSteps_fxStp
  case fill => exact bankSteps_fxFill
  case axpy => exact bankSteps_fxAxpy
  case sten7 => exact bankSteps_fxSten7

/-! ### What an instruction leaves alone -/

/-- A state without what an in-bank instruction may change: stored bytes with their codes and reports, in-bank registers, channels and
launches. -/
def beyondBank (s : State) : State :=
  { beyondMem s with nbus := [], chans := [], launches := [], parNbu := [], encBad := [] }

theorem beyondBank_of_beyondMem (h : beyondMem t = beyondMem s) : beyondBank t = beyondBank s := by
  unfold beyondBank
  rw [h]

@[simp] theorem beyondBank_setChan (g : Nat) (v : Chan) : beyondBank (setChan s g v) = beyondBank s := rfl

@[simp] theorem beyondBank_goTo (ls : List LoopF) (next : Nat) : beyondBank (goTo s n ls next) = beyondBank s := rfl

@[simp] theorem beyondBank_nbuFault (b st cause : Nat) : beyondBank (nbuFault s n b st cause) = beyondBank s := by
  unfold nbuFault
  dsimp only
  repeat' split
  all_goals rfl

theorem BankSteps.beyondBank_eq (h : BankSteps n b s t) : beyondBank t = beyondBank s := by
  induction h with
  | refl => rfl
  | nbu k v _ ih => exact ih
  | write o bs _ _ ih => exact (beyondBank_of_beyondMem (beyondMem_writeBytes ..)).trans ih

/-- An instruction's effect in one bank, of an instruction made of the two operations. -/
theorem beyondBank_bankDo {fx : Fx} (h : ∀ u, BankSteps n b u (fx.run u)) : beyondBank (bankDo s n b fx).1 = beyondBank s := by
  unfold bankDo
  dsimp only
  split
  · exact (beyondBank_of_beyondMem (beyondMem_logUe ..)).trans rfl
  · have read := beyondBank_of_beyondMem (beyondMem_eccTouch (s := s)
      { path := 3, tag := n.l.tag, core := n.l.core, ring := n.l.ring } (fx.reads.flatMap fun r => unitsOf (bankAddr (gBank n b) r.1) r.2))
    repeat' split
    · exact read
    · exact read
    · exact ((h _).beyondBank_eq).trans read

theorem beyondBank_nbuAll {g : Nat} {fx : State → NCtx → Nat → Fx} (h : ∀ b u, BankSteps n b u ((fx s n b).run u)) :
    beyondBank (nbuAll s g fx n).1 = beyondBank s := by
  unfold nbuAll
  dsimp only
  rw [List.foldl_map]
  exact foldl_proj (p := fun q : State × Option (Nat × Nat) => beyondBank q.1) fun q b => beyondBank_bankDo fun u => h b u

/-- One issue of an instruction whose effect is made of the two operations, and which goes on to a position. -/
theorem beyondBank_nbuIssue {op g : Nat} {fx : State → NCtx → Nat → Fx} {next : State → NCtx → State} (h : nbuIssue op fx next g s = .next t)
    (steps : ∀ n b u, BankSteps n b u ((fx s n b).run u)) (goes : ∀ u n, beyondBank (next u n) = beyondBank u) :
    beyondBank t = beyondBank s := by
  unfold nbuIssue at h
  repeat' first | split at h | dsimp only at h
  all_goals cases h
  all_goals simp only [beyondBank_nbuFault, beyondBank_nbuAll, steps, goes, implies_true]

theorem exec_nbuOf {i : Instr} {g op : Nat} {fx : State → NCtx → Nat → Fx} (h : nbuOf i = some (g, op, fx)) (s : State) :
    exec i s = nbuRow op fx g s := by
  cases i <;> cases h <;> rfl

/-- Every row of an in-bank instruction leaves alone what `beyondBank` shows. -/
theorem beyondBank_exec {i : Instr} (hi : nbuRowOf i = true) (h : exec i s = .next t) : beyondBank t = beyondBank s := by
  have plain {i : Instr} (hi : (nbuOf i).isSome = true) (h : exec i s = .next t) : beyondBank t = beyondBank s := by
    obtain ⟨⟨g, op, fx⟩, hi⟩ := Option.isSome_iff_exists.mp hi
    rw [exec_nbuOf hi] at h
    exact beyondBank_nbuIssue h (fun _ _ _ => bankSteps_of_nbuOf hi) fun _ _ => beyondBank_goTo ..
  have none (n : NCtx) (b : Nat) (u : State) : BankSteps n b u (({} : Fx).run u) := .refl
  unfold nbuRowOf at hi
  split at hi
  case h_1 g =>
    replace h : execNbuEnd g s = .next t := h
    unfold execNbuEnd at h
    exact beyondBank_nbuIssue h none fun _ _ => rfl
  case h_2 g =>
    replace h : execLoop g s = .next t := h
    unfold execLoop at h
    refine beyondBank_nbuIssue h none fun u n => ?_
    dsimp only
    split
    · rfl
    · rfl
  case h_3 g =>
    replace h : execLoopb g s = .next t := h
    unfold execLoopb at h
    refine beyondBank_nbuIssue h none fun u n => ?_
    dsimp only
    split
    · rfl
    · rfl
  case h_4 => exact plain hi h

/-- Settles O59: the frame of the in-bank rows. -/
theorem inBankInstructionsFrame : Obligations.InBankInstructionsFrame := by
  intro i s t hi h
  have frame : beyondBank t = beyondBank s := beyondBank_exec hi h
  have same {α : Type} (f : State → α) : f (beyondBank t) = f (beyondBank s) := congrArg f frame
  exact ⟨⟨same State.devid, same State.remaps, same State.time, same State.boot, same State.srv, same State.keys, same State.fab,
      same State.trust, same State.power, same State.mgtOut, same State.hostAns, same State.epoch⟩,
    ⟨⟨same State.acc, same State.accTy, same State.ars, same State.xs⟩, same State.flags, same State.tallies, same State.ctxs,
      same State.cores, same State.rings⟩,
    same State.hostOut, same State.puts, same State.seq, same State.folds⟩

/-! ### Instructions that no bank refuses -/

/-- No bank's part of an instruction meets a fault, where each keeps what the next one needs. -/
theorem nbuAll_snd_eq_none {g : Nat} {fx : State → NCtx → Nat → Fx} {P : State → Prop} (start : ∀ v, P (setChan s g v))
    (bank : ∀ u, P u → ∀ b ∈ activeBanks n, (bankDo u n b (fx s n b)).2 = none ∧ P (bankDo u n b (fx s n b)).1) :
    (nbuAll s g fx n).2 = none := by
  have banks (l : List Nat) (hl : ∀ b ∈ l, b ∈ activeBanks n) (q : State × Option (Nat × Nat)) (hq : P q.1) :
      (l.foldl (fun q b => ((bankDo q.1 n b (fx s n b)).1, q.2.or ((bankDo q.1 n b (fx s n b)).2.map fun c => (b, c)))) q).2 = q.2 := by
    induction l generalizing q with
    | nil => rfl
    | cons b l ih =>
      obtain ⟨none, next⟩ := bank q.1 hq b (hl b List.mem_cons_self)
      rw [List.foldl_cons, ih (fun c hc => hl c (List.mem_cons_of_mem b hc)) _ next]
      simp [none]
  unfold nbuAll
  dsimp only
  rw [List.foldl_map]
  exact banks _ (fun _ hb => hb) _ (start _)

theorem activeBanks_lt (hb : b ∈ activeBanks n) : b < 32 := by
  have := (List.mem_filter.mp (List.mem_filter.mp hb).1).1
  exact List.mem_range.mp this

/-- A write of a bank's word lies in no scratchpad. -/
theorem coreLoc_bankAddr (hg : n.g < 384) (hb : b < 32) {o i : Nat} (h : o + i ≤ 2 ^ 33) : CoreLoc (locOf (bankAddr (gBank n b) o + i)) := by
  unfold bankAddr gBank
  rw [locOf_eq_self (by omega)]
  apply coreLoc_of_lt
  unfold blinBase spdBase
  omega

/-- What the two operations keep of whole stores. -/
theorem BankSteps.keeps_whole (h : BankSteps n b s t) (hg : n.g < 384) (hb : b < 32) (hs : Whole s) :
    Whole t ∧ t.parNbu = s.parNbu ∧ t.encBad = s.encBad := by
  induction h with
  | refl => exact ⟨hs, rfl, rfl⟩
  | nbu k v _ ih =>
    obtain ⟨whole, par, enc⟩ := ih
    exact ⟨whole.congr rfl rfl, par, enc⟩
  | @write t o bs bound _ ih =>
    obtain ⟨whole, par, enc⟩ := ih
    have frame : beyondMem (bankWrite t n b o bs) = beyondMem t := beyondMem_writeBytes ..
    exact ⟨whole.writeBytes fun i hi => coreLoc_bankAddr hg hb (by omega), (congrArg State.parNbu frame :).trans par,
      (congrArg State.encBad frame :).trans enc⟩

theorem eccTouch_of_clean (h : clean s = true) (m : Meet) (us : List Nat) : eccTouch s m us = (s, none) := by
  unfold eccTouch
  rw [if_pos h]

/-- On whole stores, a bank of good parity whose encoder agrees meets no fault. -/
theorem bankDo_of_whole {fx : Fx} (steps : ∀ u, BankSteps n b u (fx.run u)) (hg : n.g < 384) (hb : b < 32) (hs : Whole s)
    (par : gBank n b ∉ s.parNbu) (enc : gBank n b ∉ s.encBad) :
    (bankDo s n b fx).2 = none ∧ Whole (bankDo s n b fx).1 ∧ (bankDo s n b fx).1.parNbu = s.parNbu ∧
      (bankDo s n b fx).1.encBad = s.encBad := by
  obtain ⟨whole, samePar, sameEnc⟩ := (steps s).keeps_whole hg hb hs
  unfold bankDo
  dsimp only
  rw [if_neg (by simp [par]), eccTouch_of_clean hs.clean]
  dsimp only
  rw [if_neg (by simp [enc])]
  exact ⟨rfl, whole.congr rfl rfl, samePar, sameEnc⟩

theorem nbuAt_chan {g : Nat} (h : nbuAt s g = some n) : n.g = g := by
  unfold nbuAt at h
  dsimp only at h
  repeat' split at h
  all_goals cases h
  rfl

/-- Settles O23: the shared row of an instruction, and that no bank meets a fault on whole stores. -/
theorem inBankInstructionsRun : Obligations.InBankInstructionsRun := by
  intro s i g op fx n hi hn
  have row : exec i s = .next (match (nbuAll s g fx n).2 with
      | none => nbuNext (nbuAll s g fx n).1 n
      | some b => nbuFault (nbuAll s g fx n).1 n b.1 stUncorr b.2) := (exec_nbuOf hi s).trans (nbuIssue_next hn)
  refine ⟨row, fun hs banks => row.trans ?_⟩
  have chan : n.g < 384 := by
    rw [nbuAt_chan hn.stands]
    exact of_decide_eq_true hn.chan
  have noFault : (nbuAll s g fx n).2 = none :=
    nbuAll_snd_eq_none (P := fun u => Whole u ∧ u.parNbu = s.parNbu ∧ u.encBad = s.encBad) (fun _ => ⟨hs.congr rfl rfl, rfl, rfl⟩)
      fun u ⟨whole, par, enc⟩ b hb => by
        obtain ⟨none, whole', par', enc'⟩ := bankDo_of_whole (fun _ => bankSteps_of_nbuOf hi) chan (activeBanks_lt hb) whole
          (par ▸ (banks b hb).1) (enc ▸ (banks b hb).2)
        exact ⟨none, whole', par'.trans par, enc'.trans enc⟩
  rw [noFault]

/-- END and LOOP read no register, so no bank meets a fault. -/
theorem nbuAll_fxNone_of_noRegs {g : Nat} (h : readsRegs n.i = false) : (nbuAll s g fxNone n).2 = none :=
  nbuAll_snd_eq_none (P := fun _ => True) (fun _ => trivial) fun _ _ _ _ => ⟨bankDo_plain h rfl rfl, trivial⟩

/-- An instruction without effect leaves the parities as they are, and meets a fault only where one is bad. -/
theorem bankDo_fxNone (par : gBank n b ∉ s.parNbu) : (bankDo s n b {}).2 = none ∧ (bankDo s n b {}).1.parNbu = s.parNbu := by
  have frame : (eccTouch s { path := 3, tag := n.l.tag, core := n.l.core, ring := n.l.ring } []).1.parNbu = s.parNbu :=
    (congrArg State.parNbu (beyondMem_eccTouch ..) :)
  have none : (eccTouch s { path := 3, tag := n.l.tag, core := n.l.core, ring := n.l.ring } []).2 = none := by
    unfold eccTouch
    split <;> rfl
  unfold bankDo
  dsimp only
  rw [if_neg (by simp [par])]
  simp only [List.flatMap_nil, none, Bool.false_and, Bool.false_eq_true, if_false]
  exact ⟨trivial, frame⟩

/-- Settles O24: the control instructions act through the shared row, with no effect in a bank. -/
theorem inBankControlRuns : Obligations.InBankControlRuns := by
  intro s g n u ls past into
  refine ⟨fun hn => ?ends, fun hn => ?loops, ?loopb⟩
  case ends =>
    show execNbuEnd g s = _
    unfold execNbuEnd
    refine (nbuIssue_next (fx := fxNone) hn).trans ?_
    rw [nbuAll_fxNone_of_noRegs (by simp [readsRegs, hn.op])]
    dsimp only
    rw [nbuAt_chan hn.stands]
  case loops =>
    show execLoop g s = _
    unfold execLoop
    refine (nbuIssue_next (fx := fxNone) hn).trans ?_
    rw [nbuAll_fxNone_of_noRegs (by simp [readsRegs, hn.op])]
  case loopb =>
    intro hn cs most
    refine ⟨?_, fun banks => ?_⟩
    · show execLoopb g s = _
      unfold execLoopb
      refine (nbuIssue_next (fx := fxNone) hn).trans ?_
      cases (nbuAll s g fxNone n).2 with
      | none => rfl
      | some c => rfl
    · exact nbuAll_snd_eq_none (P := fun u => u.parNbu = s.parNbu) (fun _ => rfl) fun u hu b hb => by
        obtain ⟨none, same⟩ := bankDo_fxNone (s := u) (hu ▸ banks b hb)
        exact ⟨none, same.trans hu⟩

end Sys2Proof.Machine

/-! ## Register writes of the host (R6-R11, R276, R286, R395-R398) -/

namespace Sys2Proof.Machine

variable {s : State}

/-! ### One bit of a word -/

theorem bit_setBit {v : Word} {i j : Nat} {b : Bool} (hi : i < 64) : bit (setBit v i b) j = if j = i then b else bit v j := by
  have mask : 2 ^ (i + 1 - i) - 1 = 1 := by simp
  unfold bit setBit setFld
  rw [mask, BitVec.getLsbD_or, BitVec.getLsbD_and, BitVec.getLsbD_not, BitVec.getLsbD_and, BitVec.getLsbD_ofNat, BitVec.getLsbD_ofNat,
    Nat.testBit_shiftLeft, Nat.testBit_shiftLeft]
  by_cases e : j = i
  · subst e
    cases b <;> simp [hi]
  · have one : (decide (j ≥ i) && (1 : Nat).testBit (j - i)) = false := by
      rw [Bool.eq_false_iff]
      intro h
      simp only [Bool.and_eq_true, decide_eq_true_eq, Nat.testBit_one_eq_true_iff_self_eq_zero] at h
      omega
    simp only [e, one, Bool.and_false, Bool.or_false, Bool.not_false, Bool.and_true, if_false,
      Bool.and_eq_left_iff_imp, decide_eq_true_eq]
    exact BitVec.lt_of_getLsbD

/-- A bit above a field does not show in it. -/
theorem setWidth_setBit {v : Word} {i n : Nat} {b : Bool} (hn : n ≤ i) (hi : i < 64) : (setBit v i b).setWidth n = v.setWidth n := by
  apply BitVec.eq_of_getLsbD_eq
  intro j hj
  rw [BitVec.getLsbD_setWidth, BitVec.getLsbD_setWidth]
  congr 1
  exact (bit_setBit hi).trans (if_neg (by omega))

theorem fld_eq_setWidth (v : Word) : fld v 47 0 = (v.setWidth 48).toNat := by
  simp [fld, nfld]

/-! ### A write of a whole register -/

theorem regStore_eight {who : Writer} {a : Nat} (h : a % 8 = 0) (v : Word) : regStore s who a 8 v = regPut s who a v v := by
  have aligned : a / 8 * 8 = a := by omega
  unfold regStore regSizeOk
  simp [h, aligned]

/-- The written value of 8 bytes is the value itself. -/
theorem ofNat_toNat_mod (v : Word) : BitVec.ofNat 64 (v.toNat % 256 ^ 8) = v := by
  have bytes : 256 ^ 8 = 2 ^ 64 := by norm_num
  rw [bytes, BitVec.toNat_mod_cancel, BitVec.ofNat_toNat, BitVec.setWidth_eq]

/-- A write of the host to a whole register that is let through. -/
theorem regRow_eight {fn a : Nat} {v : Word} (h : HostWrites s fn a 8) (ha : a % 8 = 0) :
    regRow fn a 8 v s = .next (regPut s { fn := fn, host := true } a v v) := by
  rw [regRow_next h, ofNat_toNat_mod, regStore_eight ha]

/-- The block and the offset that a register's address spells. -/
theorem block_offset {a k o : Nat} (h : a = csrBase + k * 2 ^ 32 + o) (ho : o < 2 ^ 32) : (a - csrBase) / 2 ^ 32 = k ∧ (a - csrBase) % 2 ^ 32 = o := by
  omega

/-! ### The registers of a ring (R286, R395, R397, R398) -/

theorem regPut_doorbell {who : Writer} {n : Nat} (hn : n < 65536) (v w : Word) : regPut s who (dbReg n 0) v w = doorbell s n w := by
  obtain ⟨block, offset⟩ := block_offset (a := dbReg n 0) (k := 5) (o := 0x1000000 + 64 * n) (by unfold dbReg csrBase; omega) (by omega)
  have ring : (0x1000000 + 64 * n - 0x1000000) / 64 = n := by omega
  have notDesc : ¬(0x100000 ≤ 0x1000000 + 64 * n ∧ 0x1000000 + 64 * n < 0x500000) := by omega
  have isDb : 0x1000000 ≤ 0x1000000 + 64 * n ∧ 0x1000000 + 64 * n < 0x1400000 := by omega
  have word : (0x1000000 + 64 * n) % 64 = 0 := by omega
  unfold regPut
  simp only [block, offset]
  rw [if_neg notDesc, if_pos isDb, ring, if_pos word]

theorem regPut_cplHead {who : Writer} {n : Nat} (hn : n < 65536) (v w : Word) : regPut s who (dbReg n 8) v w = cplHead s n w := by
  obtain ⟨block, offset⟩ := block_offset (a := dbReg n 8) (k := 5) (o := 0x1000000 + 64 * n + 8) (by unfold dbReg csrBase; omega) (by omega)
  have ring : (0x1000000 + 64 * n + 8 - 0x1000000) / 64 = n := by omega
  have notDesc : ¬(0x100000 ≤ 0x1000000 + 64 * n + 8 ∧ 0x1000000 + 64 * n + 8 < 0x500000) := by omega
  have isDb : 0x1000000 ≤ 0x1000000 + 64 * n + 8 ∧ 0x1000000 + 64 * n + 8 < 0x1400000 := by omega
  have word : (0x1000000 + 64 * n + 8) % 64 = 8 := by omega
  unfold regPut
  simp only [block, offset]
  rw [if_neg notDesc, if_pos isDb, ring, if_neg (by omega), if_pos word]

theorem regPut_ringWord {who : Writer} {n : Nat} (hn : n < 65536) (free : ∀ f, ringFold s n = some f → tdiFrozen s f = false) (v w : Word) :
    regPut s who (ringReg n 0) v w = descWrite s n 0 v := by
  obtain ⟨block, offset⟩ := block_offset (a := ringReg n 0) (k := 5) (o := 0x100000 + 64 * n) (by unfold ringReg csrBase; omega) (by omega)
  have ring : (0x100000 + 64 * n - 0x100000) / 64 = n := by omega
  have isDesc : 0x100000 ≤ 0x100000 + 64 * n ∧ 0x100000 + 64 * n < 0x500000 := by omega
  have word : (0x100000 + 64 * n) % 64 / 8 = 0 := by omega
  unfold regPut
  simp only [block, offset]
  rw [if_pos isDesc, ring, word, if_neg]
  cases hf : ringFold s n with
  | none => simp
  | some f => simp [free f hf]

/-- Settles O26: each row is a write of one register of the ring. -/
theorem ringRegistersAct : Obligations.RingRegistersAct := by
  intro s fn n v hn
  have exists_ : ¬65536 ≤ n := by omega
  refine ⟨fun h => ?doorbell, fun h => ?cplHead, fun h free => ⟨?enable, ?disable⟩⟩
  case doorbell =>
    refine (if_neg exists_).trans ?_
    rw [regRow_eight h (by unfold dbReg; omega), regPut_doorbell hn]
  case cplHead =>
    refine (if_neg exists_).trans ?_
    rw [regRow_eight h (by unfold dbReg; omega), regPut_cplHead hn]
  case enable =>
    refine (if_neg exists_).trans ?_
    rw [regRow_eight h (by unfold ringReg; omega), regPut_ringWord hn free]
  case disable =>
    refine (if_neg exists_).trans ?_
    rw [regRow_eight h (by unfold ringReg; omega), regPut_ringWord hn free]

/-! ### The host's other registers (R291, R301, R382, R416, R445, R452, R479) -/

theorem regPut_tally {who : Writer} {u n : Nat} (h : tallyWf s.grade u n = true) (v w : Word) :
    regPut s who (addReg u n) v w = tallyWrite s u n w := by
  simp only [tallyWf, Bool.and_eq_true, Bool.or_eq_true, decide_eq_true_eq] at h
  obtain ⟨unit, hn⟩ := h
  have few := cores_le s.grade
  by_cases hu : u < 192
  · have core : ¬Config.cores s.grade ≤ u := by omega
    obtain ⟨block, offset⟩ := block_offset (a := addReg u n) (k := 1) (o := u * 0x100000 + (0xA00 + 8 * n))
      (by unfold addReg coreReg csrBase; rw [if_pos hu]; omega) (by omega)
    have num : (u * 0x100000 + (0xA00 + 8 * n)) / 0x100000 = u := by omega
    have reg : (u * 0x100000 + (0xA00 + 8 * n)) % 0x100000 = 0xA00 + 8 * n := by omega
    have isAdd : 0xA00 ≤ 0xA00 + 8 * n ∧ 0xA00 + 8 * n < 0xC00 := by omega
    have tally : (0xA00 + 8 * n - 0xA00) / 8 = n := by omega
    unfold regPut
    simp only [block, offset]
    rw [num, reg, if_neg core, if_pos isAdd, tally]
  · obtain ⟨k, rfl⟩ : ∃ k, u = 192 + k := ⟨u - 192, by omega⟩
    obtain ⟨block, offset⟩ := block_offset (a := addReg (192 + k) n) (k := 3) (o := k * 0x100000 + (0x400 + 8 * n))
      (by unfold addReg stkReg csrBase; rw [if_neg hu]; omega) (by omega)
    have isStk : k * 0x100000 + (0x400 + 8 * n) < 0x1000000 := by omega
    have num : (k * 0x100000 + (0x400 + 8 * n)) / 0x100000 = k := by omega
    have reg : (k * 0x100000 + (0x400 + 8 * n)) % 0x100000 = 0x400 + 8 * n := by omega
    have isAdd : 0x400 ≤ 0x400 + 8 * n ∧ 0x400 + 8 * n < 0x600 := by omega
    have tally : (0x400 + 8 * n - 0x400) / 8 = n := by omega
    unfold regPut
    simp only [block, offset]
    rw [if_pos isStk, num, reg, if_neg (by omega), if_pos isAdd, tally]

theorem addReg_aligned (u n : Nat) : addReg u n % 8 = 0 := by
  unfold addReg coreReg stkReg
  split <;> omega

theorem regPut_chanFlip {g : Nat} (hg : g < 384) (v : Word) : regPut s { fn := 0, host := true } (chnReg g 0x60) v v =
    flipWrite s (chnReg g 0x60) (chnReg g 0x60) 32 0xFFFFFFFF 0x3FFFFF7E00000000 v v := by
  obtain ⟨block, offset⟩ := block_offset (a := chnReg g 0x60) (k := 3) (o := 0x1000000 + g * 0x1000 + 0x60)
    (by unfold chnReg csrBase; omega) (by omega)
  have notStk : ¬0x1000000 + g * 0x1000 + 0x60 < 0x1000000 := by omega
  have num : (0x1000000 + g * 0x1000 + 0x60 - 0x1000000) / 0x1000 = g := by omega
  have reg : (0x1000000 + g * 0x1000 + 0x60) % 0x1000 = 0x60 := by omega
  unfold regPut
  simp only [block, offset]
  rw [if_neg notStk, num, reg, if_neg (by omega), if_pos (by decide)]
  exact if_pos rfl

theorem regPut_coreFlip {c : Nat} (hc : coreOk s c = true) (v : Word) : regPut s { fn := 0, host := true } (coreReg c 0xD48) v v =
    flipWrite s (coreReg c 0xD48) (coreReg c 0xD48) 8 0xFF 0xFFFFF0200 v v := by
  have core : c < Config.cores s.grade := of_decide_eq_true hc
  have few := cores_le s.grade
  obtain ⟨block, offset⟩ := block_offset (a := coreReg c 0xD48) (k := 1) (o := c * 0x100000 + 0xD48)
    (by unfold coreReg csrBase; omega) (by omega)
  have num : (c * 0x100000 + 0xD48) / 0x100000 = c := by omega
  have reg : (c * 0x100000 + 0xD48) % 0x100000 = 0xD48 := by omega
  unfold regPut
  simp only [block, offset]
  rw [num, reg, if_neg (by omega), if_neg (by decide), if_pos (.inr rfl)]
  exact if_pos rfl

theorem regPut_foldWord {f : Nat} (hf : f < 16) (v : Word) : regPut s { fn := 0, host := true } (fldReg f 0) v v = fldWrite s f 0 v := by
  obtain ⟨block, offset⟩ := block_offset (a := fldReg f 0) (k := 6) (o := f * 0x1000) (by unfold fldReg csrBase; omega) (by omega)
  have num : f * 0x1000 / 0x1000 = f := by omega
  have reg : f * 0x1000 % 0x1000 = 0 := by omega
  have inBlock : f * 0x1000 < 0x10000 := by omega
  unfold regPut
  simp only [block, offset, num, reg, inBlock]
  rfl

/-- Settles O28: each row is a write of one register, which does what its rule says. -/
theorem hostRegisterRowsAct : Obligations.HostRegisterRowsAct := by
  intro s fn v
  refine ⟨?fold, ?tally, ?spare, ?chanFlip, ?coreFlip, ?domain, ?group, ?any, ?size⟩
  case fold =>
    intro f hf h
    constructor
    · refine (if_neg (by omega)).trans ?_
      rw [regRow_eight h (by unfold fldReg; omega), regPut_foldWord hf]
    · refine (if_neg (by omega)).trans ?_
      rw [regRow_eight h (by unfold fldReg; omega), regPut_foldWord hf]
  case tally =>
    intro u n hw h
    have exists_ : ¬(204 ≤ u ∨ 64 ≤ n) := by
      have few := cores_le s.grade
      simp only [tallyWf, Bool.and_eq_true, Bool.or_eq_true, decide_eq_true_eq] at hw
      omega
    constructor
    · refine (if_neg exists_).trans ?_
      rw [regRow_eight h (addReg_aligned u n), regPut_tally hw, tallyWrite, bit_setBit (by omega), if_pos rfl, fld_eq_setWidth,
        setWidth_setBit (by omega) (by omega), ← fld_eq_setWidth]
      rfl
    · refine (if_neg exists_).trans ?_
      rw [regRow_eight h (addReg_aligned u n), regPut_tally hw, tallyWrite, bit_setBit (by omega), if_pos rfl,
        setWidth_setBit (by omega) (by omega)]
      rfl
  case spare =>
    intro h
    exact regRow_eight h (by decide)
  case chanFlip =>
    intro g hg h
    refine (if_pos hg).trans ?_
    rw [regRow_eight h (by unfold chnReg; omega), regPut_chanFlip hg]
  case coreFlip =>
    intro c hc h
    have unit : 384 + c - 384 = c := by omega
    refine (if_neg (by omega)).trans ?_
    rw [unit, if_pos hc, regRow_eight h (by unfold coreReg; omega), regPut_coreFlip hc]
  case domain =>
    intro h
    exact regRow_eight h (by decide)
  case group =>
    intro h
    exact regRow_eight h (by decide)
  case any =>
    intro a size lo hi mapped h sizeOk
    refine (if_neg (by omega)).trans ((if_pos mapped).trans ?_)
    rw [regRow_next h]
    simp only [regSizeOk, Bool.and_eq_true, Bool.or_eq_true, beq_iff_eq] at sizeOk
    obtain ⟨rfl | rfl, _⟩ := sizeOk
    · simp [regStore, Nat.mod_mod_of_dvd]
    · rw [ofNat_toNat_mod]
  case size =>
    intro a size who h
    unfold regStore
    rw [h]
    rfl

end Sys2Proof.Machine

/-! ## Doorbells and service commands (R341-R357, R377, R384, R397, R398, R411-R414) -/

namespace Sys2Proof.Machine

variable {s u : State} {n : Nat} {k : Cmd}

/-! ### Doorbells (R398) -/

theorem getD_lset {α : Type} {l : List α} {i j : Nat} {x d : α} (h : i < l.length) :
    (lset l i x).getD j d = if j = i then x else l.getD j d := by
  induction l generalizing i j with
  | nil => exact absurd h (Nat.not_lt_zero i)
  | cons y l ih =>
    cases i with
    | zero => cases j <;> simp [lset]
    | succ i =>
      cases j with
      | zero => simp [lset]
      | succ j =>
        rw [lset, List.getD_cons_succ, List.getD_cons_succ, ih (Nat.lt_of_succ_lt_succ h)]
        simp

/-- Settles O27: the two outcomes of a doorbell. -/
theorem doorbellMovesTail : Obligations.DoorbellMovesTail := by
  intro s n v j h r m t ok
  have outcome : doorbell s n v = if ok then setRing s n { r with tail := lset r.tail m t } else dbErr s := by
    unfold doorbell
    grind
  constructor
  · intro hok hm
    rw [outcome, if_pos hok, getRing_setRing h, if_pos rfl]
    exact getD_lset hm
  · intro hbad
    rw [outcome, if_neg hbad]
    refine ⟨rfl, ?_⟩
    rw [dbErr, rget_ror h, if_pos rfl, bit, BitVec.getLsbD_or]
    simp

/-! ### Commands about requests (R347, R357, R377, R384) -/

/-- A command about a live request whose further checks pass is kept for the boundary of its model. -/
theorem reqRow_kept {op : Nat} {bad : Cmd → Bool} {more : State → Nat → Cmd → Option Nat} (h : Serves s u n 1 op k) (hb : bad k = false)
    (live : handleCheck u ((svcOf u n k).fold.getD 16) (fld k.w2 31 0) = none)
    (hm : more u ((svcOf u n k).fold.getD 16) k = none) : reqRow op bad more n s = .next (svcKept u n k) := by
  unfold reqRow
  refine svcRow_accept (t := u) (f := fun s id => keepCmd s n (fld k.w2 31 0 % 2 ^ 17) id k) h hb ?_
  dsimp only
  have same : (svcOf u n k).cmd = k := rfl
  rw [same, live]
  dsimp only
  rw [hm]

/-- Settles O33: each request command passes its own checks. -/
theorem requestCommandsAccepted : Obligations.RequestCommandsAccepted := by
  intro s u n k f live
  refine ⟨fun h h2 h3 => ?cancel, fun h h2 lo hi => ?choose, fun h h2 h3 h4 h5 h6 h7 reach => ?park,
    fun h h2 h3 h4 h5 h6 h7 reach => ?resume⟩
  case cancel =>
    show execReqCancel n s = _
    exact reqRow_kept h (by simp [h2, h3]) live rfl
  case choose =>
    show execReqChoose n s = _
    have low : (chNch k == 0) = false := by simp; omega
    exact reqRow_kept h (by simp [h2, low, hi]) live rfl
  case park =>
    show execReqPark n s = _
    exact reqRow_kept h (by simp [h2, h3, h4, h5, h6, h7]) live (if_neg fun ⟨h0, no⟩ => by simp [f, reach h0] at no)
  case resume =>
    show execReqResume n s = _
    exact reqRow_kept h (by simp [h2, h3, h4, h5, h6, h7]) live (if_neg fun ⟨h0, no⟩ => by simp [f, reach h0] at no)

/-! ### Ring commands (R412, R414) -/

/-- A ring whose next command is served has none under way in the drover (R411). -/
theorem Serves.acting_none {op tgt : Nat} (h : Serves s u n tgt op k) : (getRing s n).acting = none := by
  have ready := h.ready
  simp only [svcReady, Bool.and_eq_true, Option.isNone_iff_eq_none] at ready
  tauto

/-- Settles O31: each ring command passes the shared checks, and its effect is its own. -/
theorem ringCommandsComplete : Obligations.RingCommandsComplete := by
  intro s u n k hb hc g ms
  refine ⟨?suspend, ?ended, ?resume, ?cancel, ?restart⟩
  case suspend =>
    intro h v some_
    have notAll : ms.all (fun m => (getRing u g).suspended.getD m false) = false := by
      rw [List.all_eq_not_any_not, some_]
      rfl
    show execRingSuspend n s = _
    unfold execRingSuspend
    rw [h.acting_none]
    dsimp only
    split
    next running =>
      refine svcRow_accept (t := v) (f := fun s id => setRing s n { getRing s n with acting := some (id, k) }) h hb ?_
      rw [hc]
      dsimp only
      exact (if_neg (Bool.eq_false_iff.mp notAll)).trans (if_pos running)
    next idle =>
      refine svcRow_done h hb ?_
      rw [hc]
      dsimp only
      exact (if_neg (Bool.eq_false_iff.mp notAll)).trans (if_neg idle)
  case ended =>
    intro id acting idle
    show execRingSuspend n s = _
    unfold execRingSuspend
    rw [acting]
    exact if_neg (by simp [idle, g])
  case resume =>
    intro h some_
    show execRingResume n s = _
    unfold execRingResume
    refine svcRow_done h hb ?_
    rw [hc]
    dsimp only
    refine if_neg ?_
    rw [Bool.not_eq_true', Bool.not_eq_false]
    exact some_
  case cancel =>
    intro h
    show execRingCancel n s = _
    unfold execRingCancel
    refine svcRow_done h hb ?_
    rw [hc]
    rfl
  case restart =>
    intro h hs one
    show execRingRestart n s = _
    unfold execRingRestart
    split
    next none =>
      refine svcRow_done h hb ?_
      rw [hc]
      exact if_pos none
    next some_ =>
      refine svcRow_done h hb ?_
      rw [hc]
      exact if_neg some_

end Sys2Proof.Machine


/-! ## Scalar arithmetic and the answers of management -/

namespace Sys2Proof.Machine

open Sys2Proof.Config (Grade cores)

/-- Settles O57: a register's key names its core, context and number, and each operation is the library's on machine words. -/
theorem scalarArithmetic : Obligations.ScalarArithmetic := by
  refine ⟨fun s w x r j v hs hr hj hw hx => getX_setX hs hw hx hr hj, fun a b => ?_⟩
  intro n
  refine ⟨BitVec.toNat_add .., ?sub, BitVec.toNat_mul .., BitVec.toNat_and .., BitVec.toNat_or .., BitVec.toNat_xor .., ?shl, ?shr, ?sar,
    ?imin, ?imax, ?umin, ?umax, rfl, rfl, rfl⟩
  case sub => 
    have := a.isLt
    simp only [aluOp, BitVec.toNat_sub]; congr 1; omega
  case shl => simp only [aluOp, BitVec.toNat_shiftLeft, Nat.shiftLeft_eq]; rfl
  case shr => simp only [aluOp, BitVec.toNat_ushiftRight, Nat.shiftRight_eq_div_pow]; rfl
  case sar => simp only [aluOp, BitVec.toInt_sshiftRight, Int.shiftRight_eq_div_pow]; rfl
  case imin => simp only [aluOp]; split <;> omega
  case imax => simp only [aluOp]; split <;> omega
  case umin => simp only [aluOp]; split <;> omega
  case umax => simp only [aluOp]; split <;> omega

/-! ### SPDM, PLDM, I3C and JTAG (R514-R521, R583-R590) -/

/-- While stage 1 runs, a row of the SPDM responder gives its answer. -/
theorem spdm_up {s t : State} {k : State → State} (h : stage1Up s = true) (e : k s = t) : spdm s k = .next t := by
  rw [spdm, if_pos h, e]

theorem pldm_standby {s : State} {m : MgtMsg} (h : standby s = true) : pldm s m = .next (sendMgt s m) := by
  rw [pldm, if_pos h]

/-- Settles O46: each request's row with stage 1 running. -/
theorem spdmRequestsAnswered : Obligations.SpdmRequestsAnswered := by
  intro s k is h
  refine ⟨?cert, ?chal, fun h1 h7 => ?meas, fun hn => ?kex, ?beat, fun ho => ?upd, fun hb hl => ?flash⟩
  case cert => show execSpdmGetCertificate k s = _; exact spdm_up h rfl
  case chal => show execSpdmChallenge s = _; exact spdm_up h rfl
  case meas =>
    show execSpdmGetMeasurements k s = _
    dsimp only [execSpdmGetMeasurements]
    refine spdm_up h ?_
    rw [if_neg (by omega), if_neg (by omega), if_pos h7]
  case kex =>
    show execSpdmKeyExchange s = _
    refine spdm_up h ?_
    rw [if_neg (by omega)]
  case beat => show execSpdmHeartbeat k s = _; exact spdm_up h rfl
  case upd =>
    show execSpdmKeyUpdate k s = _
    refine spdm_up h ?_
    rw [if_pos ho]
  case flash =>
    show execDoeFlashUpdate is s = _
    simp only [execDoeFlashUpdate, hb, hl, not_true, Bool.not_true, Bool.false_eq_true, or_false, if_false, ne_eq]
    split <;> rfl

/-- Settles O47: each request's row on standby power. -/
theorem managementRequestsAnswered : Obligations.ManagementRequestsAnswered := by
  intro s k x h
  refine ⟨pldm_standby h, pldm_standby h, pldm_standby h, fun hr => ?eff, if_pos h, fun hk => ?i3c, if_pos h, fun hr ht => ?tel⟩
  case eff =>
    have hs : standby (rfld s (thmReg 0) 12 0 (min 8191 x)) = true := h
    refine .trans (if_neg ?_) (pldm_standby hs)
    simp [hr]
  case i3c => exact (if_neg (by omega)).trans (if_pos h)
  case tel =>
    intro v
    refine if_neg ?_
    simp only [hr, Bool.not_true, Bool.false_eq_true, false_or]
    omega

/-! ### Relays and the host link (R487, R498, R505, R506) -/

/-- What the fall of the host link keeps, beside the requests it ends. -/
def fallOf (s : State) : Bool × Tab Byte × Tab RingSt × Boot × List Nat := (s.hif.linkUp, s.mem, s.rings, s.boot, s.remaps)

theorem fallOf_pcieDown (s : State) : fallOf (pcieDown s) = (false, s.mem, s.rings, s.boot, s.remaps) := by
  unfold pcieDown
  split
  case isTrue h => exact Prod.ext (by simpa [fallOf] using h) rfl
  case isFalse =>
    dsimp only
    exact (foldl_proj (p := fallOf) (f := fun t q => endReqOut t q .ur) fun _ _ => rfl).trans rfl

theorem pcieDown_leaves (s : State) :
    (pcieDown s).hif.linkUp = false ∧ (pcieDown s).mem = s.mem ∧ (pcieDown s).rings = s.rings := by
  have e := fallOf_pcieDown s
  simp only [fallOf, Prod.mk.injEq] at e
  exact ⟨e.1, e.2.1, e.2.2.1⟩

/-- Settles O44: each row where its own conditions hold; the requests that a falling link ends touch neither memory nor rings. -/
theorem hostEventsAct : Obligations.HostEventsAct := by
  intro s d id ha speed width data m q st flit
  refine ⟨fun hd hm => ?door, fun hd h0 hne hmb hms hon hb8 hl h3 hgo => ?relay, fun hq => ⟨?done, ?time⟩, ?down,
    fun h1 h7 hw hb hs hp hl => ?up⟩
  case door =>
    show execRelayDoorbellForward d s = _
    simp only [execRelayDoorbellForward, if_neg (Nat.not_le.mpr hd), hm]
  case relay =>
    have hc : ¬(s.devid ≠ 0 ∨ d = s.devid ∨ !(memberBit s d) ∨ missingBit s d) := by simp [h0, hne, hmb, hms]
    constructor
    · show execRelayDeviceRequest d true ha data none s = _
      rw [execRelayDeviceRequest, if_neg (Nat.not_le.mpr hd), if_neg hc]
      simp only [hon, hb8, hl, h3, hgo, Bool.and_true, Bool.not_true, Bool.or_false, Bool.false_eq_true, if_false, if_true]
    · show execRelayDeviceRequest d false ha data none s = _
      rw [execRelayDeviceRequest, if_neg (Nat.not_le.mpr hd), if_neg hc]
      simp only [hon, hb8, hl, h3, hgo, Bool.and_true, Bool.not_true, Bool.or_false, Bool.false_eq_true, if_false]
  case done =>
    show execHostCompletion id st s = _
    simp only [execHostCompletion, hq]
  case time =>
    show execDevCplTimeout id s = _
    simp only [execDevCplTimeout, hq]
  case down => exact ⟨_, rfl, pcieDown_leaves s⟩
  case up =>
    show execPcieLinkUp speed width flit s = _
    have hf : ¬(speed = 0 ∨ 7 < speed ∨ (!([1, 4, 8, 16].contains width)) = true) := by
      simp only [List.contains_iff_mem.mpr hw, Bool.not_true, Bool.false_eq_true, or_false]; omega
    simp only [execPcieLinkUp, if_neg hf, hb, hs, hp, hl, Bool.not_true, Bool.false_eq_true, or_false, if_false]

end Sys2Proof.Machine


/-! ## What events leave of stored data (chapters 12 to 21)

`dataOf` is the stored data of a state: memory and its codes, what the engines hold, flags, tallies and in-bank registers. The
operations of the host interface, the fabric, the drover, power and management keep it. -/

namespace Sys2Proof.Machine

open Sys2Proof.Config (Grade cores)

/-- The stored data of a state. -/
def dataOf (s : State) : State :=
  { mem := s.mem, lost := s.lost, errs := s.errs, gerrs := s.gerrs, acc := s.acc, accTy := s.accTy, ars := s.ars, xs := s.xs,
    flags := s.flags, tallies := s.tallies, nbus := s.nbus }

theorem sameData_of_dataOf {s t : State} (h : dataOf t = dataOf s) : SameData s t :=
  have same {α : Type} (f : State → α) : f (dataOf t) = f (dataOf s) := congrArg f h
  ⟨same State.mem, same State.lost, same State.errs, same State.gerrs,
    ⟨same State.acc, same State.accTy, same State.ars, same State.xs⟩, same State.flags, same State.tallies, same State.nbus⟩

/-- Where a row answers a next state, that state has the data of s. -/
def KeepsData (s : State) (o : Out State) : Prop := ∀ t, o = .next t → dataOf t = dataOf s

variable {s : State}

@[simp] theorem keepsData_next {t : State} : KeepsData s (.next t) ↔ dataOf t = dataOf s :=
  ⟨fun h => h t rfl, fun h _ e => by cases e; exact h⟩

@[simp] theorem keepsData_fault {e : Fault} : KeepsData s (.fault e) := fun _ h => nomatch h

theorem keepsData_onCore {c : Nat} {o : Out State} (h : KeepsData s o) : KeepsData s (onCore s c o) := by
  unfold onCore
  split
  · exact h
  · exact keepsData_fault

theorem keepsData_onLink {l : Nat} {o : Out State} (h : KeepsData s o) : KeepsData s (onLink s l o) := by
  unfold onLink
  split
  · exact keepsData_fault
  · split
    · exact h
    · exact keepsData_next.mpr rfl

/-! ### Registers, interrupts and the life log -/

@[simp] theorem dataOf_rset (a : Nat) (v : Word) : dataOf (rset s a v) = dataOf s := rfl
@[simp] theorem dataOf_ror (a : Nat) (v : Word) : dataOf (ror s a v) = dataOf s := rfl
@[simp] theorem dataOf_rfld (a hi lo x : Nat) : dataOf (rfld s a hi lo x) = dataOf s := rfl
@[simp] theorem dataOf_rinc (a n : Nat) : dataOf (rinc s a n) = dataOf s := rfl
@[simp] theorem dataOf_sendFab (m : Msg) : dataOf (sendFab s m) = dataOf s := rfl
@[simp] theorem dataOf_sendMgt (m : MgtMsg) : dataOf (sendMgt s m) = dataOf s := rfl
@[simp] theorem dataOf_relayAnswer (d : Nat) (op : MsgOp) (bs : List Byte) : dataOf (relayAnswer s d op bs) = dataOf s := rfl

@[simp] theorem dataOf_sendMsix (fn vec : Nat) : dataOf (sendMsix s fn vec) = dataOf s := by
  unfold sendMsix
  dsimp only
  repeat' split
  all_goals rfl

@[simp] theorem dataOf_ringIrq (n : Nat) : dataOf (ringIrq s n) = dataOf s := dataOf_sendMsix ..
@[simp] theorem dataOf_raiseFab : dataOf (raiseFab s) = dataOf s := dataOf_sendMsix ..
@[simp] theorem dataOf_raiseThm : dataOf (raiseThm s) = dataOf s := dataOf_sendMsix ..

@[simp] theorem dataOf_setAlert (w : Word) : dataOf (setAlert s w) = dataOf s := by
  unfold setAlert alerting
  split
  · exact dataOf_raiseThm
  · rfl

@[simp] theorem dataOf_lifeAdd (event : Bool) (kind detail : Nat) (data : List Nat) :
    dataOf (lifeAdd s event kind detail data) = dataOf s := by
  unfold lifeAdd
  dsimp only
  repeat' split
  all_goals rfl

theorem dataOf_withLife (t : State) (l : Life) : dataOf { t with life := l } = dataOf t := rfl

@[simp] theorem dataOf_summaries : dataOf (summaries s) = dataOf s := by
  have e (l : List Nat) : dataOf (l.foldl (fun t k => lifeAdd t false k 0 (summaryData s.life k)) s) = dataOf s :=
    foldl_proj fun _ _ => dataOf_lifeAdd ..
  unfold summaries
  dsimp only
  exact (dataOf_withLife _ _).trans (e _)

/-! ### Cores, channels and rings -/

@[simp] theorem dataOf_setCore (c : Nat) (v : CoreSt) : dataOf (setCore s c v) = dataOf s := rfl
@[simp] theorem dataOf_setChan (g : Nat) (v : Chan) : dataOf (setChan s g v) = dataOf s := rfl
@[simp] theorem dataOf_setCtx (c q x : Nat) (v : QCtx) : dataOf (setCtx s c q x v) = dataOf s := rfl
@[simp] theorem dataOf_setRing (n : Nat) (v : RingSt) : dataOf (setRing s n v) = dataOf s := rfl
@[simp] theorem dataOf_setModel (m : Nat) (v : Model) : dataOf (setModel s m v) = dataOf s := rfl
@[simp] theorem dataOf_setLink (l : Nat) (v : LinkSt) : dataOf (setLink s l v) = dataOf s := rfl
@[simp] theorem dataOf_setLanes (l : Nat) (m : BitVec 4) : dataOf (setLanes s l m) = dataOf s := rfl
@[simp] theorem dataOf_setLu (w : Who) (i : Nat) (f : LRun → LRun) : dataOf (setLu s w i f) = dataOf s := rfl

@[simp] theorem dataOf_dropLaunch (id : Nat) : dataOf (dropLaunch s id) = dataOf s := by
  unfold dropLaunch
  split
  case h_1 => rfl
  case h_2 =>
    refine foldl_proj (p := dataOf) fun t e => ?_
    dsimp only
    repeat' split
    all_goals rfl

@[simp] theorem dataOf_ringRestate (n : Nat) : dataOf (ringRestate s n) = dataOf s := by
  unfold ringRestate
  dsimp only
  split
  · rfl
  · rfl

@[simp] theorem dataOf_setSuspended (n m : Nat) (b : Bool) : dataOf (setSuspended s n m b) = dataOf s :=
  foldl_proj (p := dataOf) fun _ _ => rfl

@[simp] theorem dataOf_ringPower (b : Bool) (n : Nat) : dataOf (ringPower b s n) = dataOf s :=
  (dataOf_ringRestate ..).trans (foldl_proj (p := dataOf) fun _ _ => dataOf_setSuspended ..)

/-! ### Folds and functions -/

@[simp] theorem dataOf_regCharge (f k st n : Nat) : dataOf (regCharge s f k st n) = dataOf s := by
  unfold regCharge
  split
  · rfl
  · rfl

@[simp] theorem dataOf_relayPay (fn k n : Nat) : dataOf (relayPay s fn k n) = dataOf s := by
  simp only [relayPay, dataOf_regCharge]

@[simp] theorem dataOf_accErr (fn kind addr bar : Nat) (write : Bool) : dataOf (accErr s fn kind addr bar write) = dataOf s := by
  have one (t : State) (own : Nat) : dataOf (accErrOne t own fn kind addr bar write) = dataOf t := by
    unfold accErrOne
    dsimp only
    split
    · rfl
    · rfl
  unfold accErr
  dsimp only
  split
  · exact one ..
  · exact (one ..).trans (one ..)

@[simp] theorem dataOf_winWrite (fn vf j : Nat) (v : Word) : dataOf (winWrite s fn vf j v) = dataOf s := by
  unfold winWrite
  dsimp only
  repeat' split
  case isTrue => exact dataOf_accErr ..
  case isTrue => rfl
  case isTrue => exact dataOf_accErr ..
  case isFalse => rfl

@[simp] theorem dataOf_unmask (fn vec : Nat) : dataOf (unmask s fn vec) = dataOf s := by
  unfold unmask
  dsimp only
  repeat' split
  case isTrue.isTrue => exact dataOf_sendMsix ..
  case isTrue.isFalse => rfl
  case isFalse.isTrue => exact dataOf_sendMsix ..
  case isFalse.isFalse => rfl

@[simp] theorem dataOf_endReqOut (q : HostReq) (st : HostCpl) : dataOf (endReqOut s q st) = dataOf s := by
  unfold endReqOut
  dsimp only
  split
  case h_1 => exact (dataOf_relayAnswer ..).trans (dataOf_relayPay ..)
  case h_2 => rfl
  case h_3 => rfl

@[simp] theorem dataOf_pcieDown : dataOf (pcieDown s) = dataOf s := by
  unfold pcieDown
  split
  · rfl
  · exact foldl_proj (p := dataOf) fun _ _ => dataOf_endReqOut ..

/-! ### Models and their steps -/

@[simp] theorem dataOf_failStep (m st : Nat) : dataOf (failStep s m st) = dataOf s := rfl
@[simp] theorem dataOf_prefixSweep (p : Nat) : dataOf (prefixSweep s p) = dataOf s := rfl

@[simp] theorem dataOf_doneWrite (m : Nat) (v : Word) : dataOf (doneWrite s m v) = dataOf s := by
  unfold doneWrite
  dsimp only
  repeat' split
  all_goals rfl

/-! ### Power and temperature -/

@[simp] theorem dataOf_thmStatus (i : Nat) (b : Bool) : dataOf (thmStatus s i b) = dataOf s := rfl
@[simp] theorem dataOf_burstOut : dataOf (burstOut s) = dataOf s := rfl
@[simp] theorem dataOf_countWatts (w : Nat) : dataOf (countWatts s w) = dataOf s := rfl

@[simp] theorem dataOf_applyKnobs : dataOf (applyKnobs s) = dataOf s := by
  unfold applyKnobs
  exact foldl_proj (p := dataOf) fun _ _ => rfl

@[simp] theorem dataOf_brakeOn : dataOf (brakeOn s) = dataOf s := by
  simp only [brakeOn, dataOf_applyKnobs, dataOf_lifeAdd, dataOf_rinc, dataOf_setAlert, dataOf_burstOut]
  rfl

@[simp] theorem dataOf_sensorEvent (i id : Nat) : dataOf (sensorEvent s i id) = dataOf s := by
  unfold sensorEvent
  dsimp only
  repeat' split
  all_goals rfl

theorem dataOf_throttleOne (d : Nat) : dataOf (throttleOne s d) = dataOf s := by
  unfold throttleOne
  split
  · rfl
  · rfl

/-! ### Links and the boot -/

@[simp] theorem dataOf_formDomain (topo : Nat) (ds : List Nat) : dataOf (formDomain s topo ds) = dataOf s := by
  unfold formDomain
  extract_lets _ _ _ _ _ _ _ _ _ changed _ v u
  have e : dataOf u = dataOf v := by
    show dataOf (if changed then raiseFab v else v) = _
    split
    · exact dataOf_raiseFab
    · rfl
  exact e

@[simp] theorem dataOf_dice : dataOf (dice s) = dataOf s := by
  unfold dice
  split
  · rfl
  · split
    · rfl
    · rfl

@[simp] theorem dataOf_startBringup : dataOf (startBringup s) = dataOf s := rfl

/-! ### The quiet rows -/

/-- A row splits into its branches, each of which only updates what `dataOf` does not show. -/
theorem keepsData_ite {p : Prop} [Decidable p] {a b : Out State} (ha : KeepsData s a) (hb : KeepsData s b) :
    KeepsData s (if p then a else b) := by
  split
  · exact ha
  · exact hb

theorem dataOf_ite {p : Prop} [Decidable p] {a b : State} (ha : dataOf a = dataOf s) (hb : dataOf b = dataOf s) :
    dataOf (if p then a else b) = dataOf s := by
  split
  · exact ha
  · exact hb

theorem keepsData_same : KeepsData s (.next s) := keepsData_next.mpr rfl

theorem launchFaultPropagate_keepsData (id : Nat) : KeepsData s (execLaunchFaultPropagate id s) := by
  unfold execLaunchFaultPropagate
  split
  · exact keepsData_same
  · dsimp only
    split
    · exact keepsData_same
    · exact keepsData_same
    · split
      · exact keepsData_next.mpr ((dataOf_dropLaunch ..).trans rfl)
      · exact keepsData_next.mpr ((foldl_proj (p := dataOf) fun _ _ => dataOf_dropLaunch ..).trans
          ((dataOf_setLu ..).trans (dataOf_dropLaunch ..)))

theorem switchRequest_keepsData (c : Nat) : KeepsData s (execSwitchRequest c s) := by
  unfold execSwitchRequest
  refine keepsData_onCore ?_
  dsimp only
  refine keepsData_ite keepsData_same ?_
  split
  · exact keepsData_next.mpr rfl
  · exact keepsData_same

theorem switchWithdraw_keepsData (c : Nat) : KeepsData s (execSwitchWithdraw c s) := by
  unfold execSwitchWithdraw
  refine keepsData_onCore ?_
  dsimp only
  split
  · exact keepsData_same
  · exact keepsData_ite (keepsData_next.mpr rfl) keepsData_same

theorem irqCoalesceTimeout_keepsData (n : Nat) : KeepsData s (execIrqCoalesceTimeout n s) :=
  keepsData_ite (keepsData_next.mpr ((dataOf_ringIrq ..).trans rfl)) keepsData_same

theorem srvStepDone_keepsData (ring m : Nat) (v : Word) : KeepsData s (execSrvStepDone ring m v s) :=
  keepsData_ite keepsData_fault (keepsData_ite keepsData_same (keepsData_next.mpr (dataOf_doneWrite ..)))

theorem stepTimeout_keepsData (m : Nat) : KeepsData s (execStepTimeout m s) :=
  keepsData_ite keepsData_fault (keepsData_ite (keepsData_next.mpr rfl) keepsData_same)

theorem capAdmit_keepsData (st : Nat) : KeepsData s (execCapAdmit st s) := by
  unfold execCapAdmit
  refine keepsData_ite keepsData_fault (keepsData_ite keepsData_same ?_)
  dsimp only
  split
  · exact keepsData_next.mpr rfl
  · exact keepsData_same

theorem migrationStart_keepsData (b : Nat) : KeepsData s (execMigrationStart b s) :=
  keepsData_ite keepsData_fault <| keepsData_ite keepsData_same <| keepsData_ite keepsData_same <|
    keepsData_ite (keepsData_next.mpr rfl) (keepsData_next.mpr rfl)

theorem tsvRemap_keepsData (g : Nat) : KeepsData s (execTsvRemap g s) :=
  keepsData_ite keepsData_fault <| keepsData_ite keepsData_same <| keepsData_next.mpr ((dataOf_lifeAdd ..).trans rfl)

theorem macGroupClose_keepsData (l : Nat) : KeepsData s (execMacGroupClose l s) := by
  refine keepsData_onLink (keepsData_next.mpr ?_)
  split
  · rfl
  · rfl

theorem laneReequalisation_keepsData (l lane : Nat) : KeepsData s (execLaneReequalisation l lane s) :=
  keepsData_onLink <| keepsData_ite keepsData_fault <| keepsData_ite keepsData_same <| keepsData_next.mpr rfl

theorem laneReequalisationDone_keepsData (l : Nat) : KeepsData s (execLaneReequalisationDone l s) := by
  refine keepsData_onLink ?_
  dsimp only
  split
  · exact keepsData_next.mpr rfl
  · exact keepsData_same

theorem relayDoorbellForward_keepsData (d : Nat) : KeepsData s (execRelayDoorbellForward d s) := by
  refine keepsData_ite keepsData_fault ?_
  dsimp only
  split
  · exact keepsData_same
  · exact keepsData_next.mpr rfl

theorem relayDeviceRequest_keepsData (d : Nat) (write : Bool) (ha : Nat) (data : List Byte) (msix : Option Nat) :
    KeepsData s (execRelayDeviceRequest d write ha data msix s) := by
  refine keepsData_ite keepsData_fault (keepsData_ite keepsData_same ?_)
  dsimp only
  split
  case h_1 =>
    refine keepsData_next.mpr ?_
    split
    · exact dataOf_sendMsix ..
    · rfl
  case h_2 =>
    exact keepsData_ite (keepsData_next.mpr rfl) <| keepsData_ite keepsData_same <|
      keepsData_ite (keepsData_next.mpr (Eq.trans rfl (dataOf_relayPay ..))) (keepsData_next.mpr rfl)

theorem hostCompletion_keepsData (id : Nat) (st : HostCpl) : KeepsData s (execHostCompletion id st s) := by
  unfold execHostCompletion
  split
  · exact keepsData_next.mpr (dataOf_endReqOut ..)
  · exact keepsData_same

theorem devCplTimeout_keepsData (id : Nat) : KeepsData s (execDevCplTimeout id s) := by
  unfold execDevCplTimeout
  split
  case h_1 =>
    refine keepsData_next.mpr ?_
    split
    · exact dataOf_endReqOut ..
    · rfl
  case h_2 => exact keepsData_same

theorem d3hotEntry_keepsData (fn : Nat) : KeepsData s (execD3hotEntry fn s) := by
  refine keepsData_ite keepsData_fault <| keepsData_ite keepsData_same <| keepsData_next.mpr ?_
  have e : dataOf ((fnRings s fn).foldl (ringPower true) s) = dataOf s := foldl_proj fun _ _ => dataOf_ringPower ..
  dsimp only
  split
  · exact e
  · exact e

theorem d0Return_keepsData (fn : Nat) : KeepsData s (execD0Return fn s) := by
  refine keepsData_ite keepsData_fault <| keepsData_ite keepsData_same <| keepsData_next.mpr ?_
  exact (foldl_proj (p := dataOf) fun _ _ => dataOf_unmask ..).trans
    ((foldl_proj (p := dataOf) fun _ _ => dataOf_ringPower ..).trans rfl)

theorem tdispRequest_keepsData (vf : Nat) (st : Tdi) : KeepsData s (execTdispRequest vf st s) := by
  refine keepsData_ite keepsData_fault <| keepsData_ite keepsData_same ?_
  dsimp only
  split
  case h_5 => exact keepsData_same
  all_goals exact keepsData_next.mpr rfl

theorem ideKeyProg_keepsData (n : Nat) (b : Bool) : KeepsData s (execIdeKeyProg n b s) := by
  refine keepsData_ite keepsData_fault <| keepsData_ite keepsData_same <| keepsData_next.mpr ?_
  dsimp only
  split
  · rfl
  · rfl

theorem spdm_keepsData {k : State → State} (h : dataOf (k s) = dataOf s) : KeepsData s (spdm s k) := by
  refine keepsData_next.mpr ?_
  split
  · exact h
  · rfl

theorem pldm_keepsData {t : State} (m : MgtMsg) (h : dataOf t = dataOf s) : KeepsData s (pldm t m) := by
  refine keepsData_next.mpr ?_
  split
  · exact h
  · exact h

theorem spdmGetMeasurements_keepsData (k : Nat) : KeepsData s (execSpdmGetMeasurements k s) := by
  unfold execSpdmGetMeasurements
  dsimp only
  refine spdm_keepsData ?_
  repeat' split
  case isTrue => rfl
  case isTrue => exact foldl_proj (p := dataOf) fun _ _ => rfl
  case isTrue => rfl
  case isFalse => rfl

theorem spdmKeyExchange_keepsData : KeepsData s (execSpdmKeyExchange s) := by
  refine spdm_keepsData ?_
  split
  · rfl
  · rfl

theorem spdmKeyUpdate_keepsData (k : Nat) : KeepsData s (execSpdmKeyUpdate k s) := by
  refine spdm_keepsData ?_
  split
  · rfl
  · rfl

theorem pldmSetNumericEffecterValue_keepsData (k v : Nat) : KeepsData s (execPldmSetNumericEffecterValue k v s) :=
  keepsData_ite (pldm_keepsData _ rfl) (pldm_keepsData _ rfl)

theorem powerSample_keepsData (w : Nat) : KeepsData s (execPowerSample w s) := by
  refine keepsData_ite keepsData_fault <| keepsData_ite keepsData_same ?_
  extract_lets v u _ _ _ x _ y
  have e : dataOf u = dataOf s := by
    show dataOf (if (v.power.pin && !(braked v)) = true then brakeOn v else v) = _
    split
    · exact dataOf_brakeOn
    · rfl
  exact keepsData_ite (keepsData_next.mpr ((dataOf_applyKnobs ..).trans e)) (keepsData_next.mpr e)

theorem knobRaise_keepsData : KeepsData s (execKnobRaise s) :=
  keepsData_ite keepsData_same (keepsData_next.mpr (dataOf_applyKnobs ..))

theorem brakeAssert_keepsData : KeepsData s (execBrakeAssert s) := by
  refine keepsData_next.mpr ?_
  dsimp only
  split
  · exact dataOf_brakeOn
  · rfl

theorem brakeRelease_keepsData : KeepsData s (execBrakeRelease s) := by
  refine keepsData_next.mpr ?_
  dsimp only
  split
  · exact dataOf_applyKnobs
  · rfl

theorem throttleStep_keepsData : KeepsData s (execThrottleStep s) := by
  have e (l : List Nat) : dataOf (l.foldl throttleOne s) = dataOf s := foldl_proj fun _ _ => dataOf_throttleOne ..
  refine keepsData_ite keepsData_same (keepsData_next.mpr ?_)
  dsimp only
  generalize List.range 14 = l
  exact (dataOf_applyKnobs ..).trans (e l)

theorem lifeLogSummary_keepsData : KeepsData s (execLifeLogSummary s) := by
  unfold execLifeLogSummary
  exact keepsData_ite keepsData_same (keepsData_next.mpr ((dataOf_withLife (summaries s) _).trans dataOf_summaries))

theorem rcvVerify_keepsData (is : List ImageCheck) : KeepsData s (execRcvVerify is s) := by
  refine keepsData_ite keepsData_same ?_
  dsimp only
  refine keepsData_ite (keepsData_next.mpr rfl) <| keepsData_ite (keepsData_next.mpr (dataOf_dice ..)) <| keepsData_next.mpr ?_
  split
  · exact dataOf_dice
  · exact dataOf_dice

theorem supplyRailUp_keepsData (r : Rail) : KeepsData s (execSupplyRailUp r s) :=
  keepsData_ite keepsData_same <| keepsData_ite (keepsData_next.mpr rfl) (keepsData_next.mpr rfl)

/-! ### Members and links that are lost while no transfer is under way to another device (R477, R478) -/

/-- What the loss of a member keeps beside the data: what the contexts run, and the device's own number. -/
def lossOf (s : State) : State × Tab QCtx × Nat := (dataOf s, s.ctxs, s.devid)

theorem lossOf_sendMsix (fn vec : Nat) : lossOf (sendMsix s fn vec) = lossOf s :=
  Prod.ext (dataOf_sendMsix ..) (Prod.ext (congrArg State.ctxs (beyondMem_sendMsix ..) :) (congrArg State.devid (beyondMem_sendMsix ..) :))

theorem lossOf_lifeAdd (event : Bool) (kind detail : Nat) (data : List Nat) : lossOf (lifeAdd s event kind detail data) = lossOf s :=
  Prod.ext (dataOf_lifeAdd ..) (Prod.ext (congrArg State.ctxs (beyondMem_lifeAdd ..) :) (congrArg State.devid (beyondMem_lifeAdd ..) :))

theorem noneAway_of_lossOf {t : State} (e : lossOf t = lossOf s) (h : NoneAway s) : NoneAway t := by
  have hc : t.ctxs = s.ctxs := congrArg (·.2.1) e
  have hd : t.devid = s.devid := congrArg (·.2.2) e
  intro c x r hr
  rw [hd]
  refine h c x r ?_
  unfold getCtx at hr ⊢
  rw [← hc]
  exact hr

theorem faultOut_of_noneAway {p : Nat → Bool} (h : NoneAway s) (hp : p s.devid = false) (c x : Nat) : faultOut p s c x = s := by
  unfold faultOut
  split
  case h_1 => rfl
  case h_2 r hr =>
    have none : (r.todo.any fun q => p (gDev q.addr)) = false := by
      refine List.any_eq_false.mpr fun q hq => ?_
      rw [h c x r hr q hq, hp]
      exact Bool.false_ne_true
    rw [none]
    rfl

theorem faultFabric_of_noneAway {p : Nat → Bool} (h : NoneAway s) (hp : p s.devid = false) : faultFabric p s = s :=
  List.foldl_fixed' (fun c => List.foldl_fixed' (fun x => faultOut_of_noneAway h hp c x) _) _

theorem degrade_of_noneAway {d : Nat} (h : NoneAway s) (hd : d ≠ s.devid) :
    degrade s d = raiseFab (rset (rfld s (swvReg 0) 1 0 3) (swvReg 0x10)
      (setBit (rget (rfld s (swvReg 0) 1 0 3) (swvReg 0x10)) d true)) := by
  have e : faultFabric (· == d) s = s := faultFabric_of_noneAway h (beq_eq_false_iff_ne.mpr hd.symm)
  unfold degrade
  rw [e]

theorem lossOf_degrade {d : Nat} (h : NoneAway s) (hd : d ≠ s.devid) : lossOf (degrade s d) = lossOf s := by
  rw [degrade_of_noneAway h hd]
  exact lossOf_sendMsix ..

theorem lossOf_sendNotices (d : Nat) : lossOf (sendNotices s d) = lossOf s := by
  unfold sendNotices
  exact foldl_proj (p := lossOf) fun _ _ => rfl

theorem lossOf_loseMember {d : Nat} (h : NoneAway s) : lossOf (loseMember s d) = lossOf s := by
  unfold loseMember
  split
  case isTrue => rfl
  case isFalse hd =>
    push Not at hd
    exact (lossOf_sendNotices ..).trans (lossOf_degrade h hd.1)

theorem lossOf_takeNotice {d : Nat} (h : NoneAway s) : lossOf (takeNotice s d) = lossOf s := by
  unfold takeNotice
  split
  case isTrue => rfl
  case isFalse hd =>
    push Not at hd
    repeat' split
    case isTrue => rfl
    case isTrue => rfl
    case isTrue => exact lossOf_degrade h hd.2
    case isFalse => rfl

theorem lossOf_loseMembers {l : List Nat} (h : NoneAway s) : lossOf (l.foldl loseMember s) = lossOf s :=
  List.foldlRecOn l loseMember (motive := fun t => lossOf t = lossOf s) rfl fun _ ht _ _ =>
    (lossOf_loseMember (noneAway_of_lossOf ht h)).trans ht

theorem lossOf_dropLink {l : Nat} (h : NoneAway s) : lossOf (dropLink s l) = lossOf s := by
  unfold dropLink
  split
  case isTrue => rfl
  case isFalse =>
    extract_lets v t u t' w
    have e : lossOf w = lossOf s := (lossOf_sendMsix ..).trans ((lossOf_lifeAdd ..).trans rfl)
    exact (lossOf_loseMembers (noneAway_of_lossOf e h)).trans e

theorem dataOf_of_lossOf {t : State} (e : lossOf t = lossOf s) : dataOf t = dataOf s := congrArg Prod.fst e

theorem dataOf_dropLink {t : State} {l : Nat} (e : lossOf t = lossOf s) (h : NoneAway s) : dataOf (dropLink t l) = dataOf s :=
  dataOf_of_lossOf ((lossOf_dropLink (noneAway_of_lossOf e h)).trans e)

theorem nakReplay_keepsData (h : NoneAway s) (l seq : Nat) : KeepsData s (execNakReplay l seq s) :=
  keepsData_onLink <| keepsData_next.mpr <| dataOf_ite (dataOf_dropLink rfl h) rfl

theorem laneDrop_keepsData (h : NoneAway s) (l lane : Nat) : KeepsData s (execLaneDrop l lane s) :=
  keepsData_onLink <| keepsData_ite keepsData_fault <| keepsData_ite keepsData_same <| keepsData_next.mpr <|
    dataOf_ite (dataOf_dropLink ((lossOf_lifeAdd ..).trans rfl) h) (dataOf_of_lossOf ((lossOf_lifeAdd ..).trans rfl))

theorem refLoss_keepsData : KeepsData s (execRefLoss s) := by
  refine keepsData_ite keepsData_same (keepsData_next.mpr ?_)
  rw [dataOf_lifeAdd, dataOf_setAlert, dataOf_rset]

theorem measurementReport_keepsData (h : NoneAway s) (d a b : Nat) : KeepsData s (execMeasurementReport d a b s) :=
  keepsData_ite keepsData_fault <| keepsData_ite keepsData_same <| keepsData_ite keepsData_same <|
    keepsData_next.mpr (dataOf_of_lossOf (lossOf_loseMember h))

theorem lossRow_keepsData {i : Instr} (hi : lossRow i = true) (h : NoneAway s) : KeepsData s (exec i s) := by
  cases i with
  | nakReplay l n => exact nakReplay_keepsData h l n
  | laneDrop l n => exact laneDrop_keepsData h l n
  | linkAckTimeout l => exact keepsData_onLink (keepsData_next.mpr (dataOf_of_lossOf (lossOf_dropLink h)))
  | linkDown l => exact keepsData_onLink (keepsData_next.mpr (dataOf_of_lossOf (lossOf_dropLink h)))
  | memberMissing d => exact keepsData_ite keepsData_fault (keepsData_next.mpr (dataOf_of_lossOf (lossOf_loseMember h)))
  | degradedNotice d => exact keepsData_ite keepsData_fault (keepsData_next.mpr (dataOf_of_lossOf (lossOf_takeNotice h)))
  | measurementReport d a b => exact measurementReport_keepsData h d a b
  | _ => cases hi

theorem quietRow_keepsData {i : Instr} (hi : quietRow i = true) : KeepsData s (exec i s) := by
  cases i with
  | launchFaultPropagate id => exact launchFaultPropagate_keepsData id
  | switchRequest c => exact switchRequest_keepsData c
  | switchWithdraw c => exact switchWithdraw_keepsData c
  | irqCoalesceTimeout n => exact irqCoalesceTimeout_keepsData n
  | srvStepDone r m v => exact srvStepDone_keepsData r m v
  | stepTimeout m => exact stepTimeout_keepsData m
  | capAdmit k => exact capAdmit_keepsData k
  | capUpdate k c => exact keepsData_ite keepsData_fault (keepsData_next.mpr rfl)
  | dmaStarve c => exact keepsData_onCore (keepsData_next.mpr rfl)
  | grazeLate => exact keepsData_ite (keepsData_next.mpr rfl) keepsData_same
  | migrationStart b => exact migrationStart_keepsData b
  | tsvRemap g => exact tsvRemap_keepsData g
  | refresh g => exact keepsData_ite keepsData_same keepsData_fault
  | macGroupClose l => exact macGroupClose_keepsData l
  | ageIncrement => exact keepsData_next.mpr rfl
  | laneReequalisation l n => exact laneReequalisation_keepsData l n
  | laneReequalisationDone l => exact laneReequalisationDone_keepsData l
  | bringupReportDeadline ds => exact keepsData_ite keepsData_same (keepsData_next.mpr (dataOf_formDomain ..))
  | relayDoorbellForward d => exact relayDoorbellForward_keepsData d
  | relayDeviceRequest d w a bs v => exact relayDeviceRequest_keepsData d w a bs v
  | hostCompletion id st => exact hostCompletion_keepsData id st
  | devCplTimeout id => exact devCplTimeout_keepsData id
  | pcieLinkDown => exact keepsData_next.mpr dataOf_pcieDown
  | pcieLinkUp a b c => exact keepsData_ite keepsData_fault (keepsData_ite keepsData_same (keepsData_next.mpr rfl))
  | hifWinWrite a b c v => exact keepsData_ite keepsData_fault (keepsData_ite keepsData_same (keepsData_next.mpr (dataOf_winWrite ..)))
  | bar2Resize a b => exact keepsData_ite keepsData_fault (keepsData_ite keepsData_same (keepsData_next.mpr rfl))
  | msixUnmask a b => exact keepsData_ite keepsData_fault (keepsData_ite keepsData_same (keepsData_next.mpr (dataOf_unmask ..)))
  | d3hotEntry f => exact d3hotEntry_keepsData f
  | d0Return f => exact d0Return_keepsData f
  | ideKeyProg n b => exact ideKeyProg_keepsData n b
  | tdispRequest vf st => exact tdispRequest_keepsData vf st
  | atsInvalidation a b =>
    exact keepsData_ite keepsData_fault (keepsData_ite keepsData_same (keepsData_ite keepsData_same (keepsData_next.mpr rfl)))
  | spdmGetCertificate k =>
    show KeepsData s (execSpdmGetCertificate k s)
    exact spdm_keepsData rfl
  | spdmChallenge =>
    show KeepsData s (execSpdmChallenge s)
    exact spdm_keepsData rfl
  | spdmGetMeasurements k => exact spdmGetMeasurements_keepsData k
  | spdmKeyExchange => exact spdmKeyExchange_keepsData
  | spdmHeartbeat k =>
    show KeepsData s (execSpdmHeartbeat k s)
    exact spdm_keepsData rfl
  | spdmKeyUpdate k => exact spdmKeyUpdate_keepsData k
  | doeFlashUpdate is => exact keepsData_ite keepsData_same (keepsData_ite (keepsData_next.mpr rfl) (keepsData_next.mpr rfl))
  | pldmGetPdr k => exact pldm_keepsData _ rfl
  | pldmGetSensorReading k => exact pldm_keepsData _ rfl
  | pldmGetStateSensorReadings k => exact pldm_keepsData _ rfl
  | pldmSetNumericEffecterValue k v => exact pldmSetNumericEffecterValue_keepsData k v
  | pldmSetEventReceiver r => exact keepsData_ite (keepsData_next.mpr rfl) keepsData_same
  | i3cDynamicAddressAssignment a => exact keepsData_ite keepsData_fault (keepsData_ite (keepsData_next.mpr rfl) keepsData_same)
  | jtagInstruction k => exact keepsData_ite (keepsData_next.mpr rfl) keepsData_same
  | telemetryRefresh =>
    exact keepsData_ite keepsData_same (keepsData_next.mpr ((dataOf_sensorEvent ..).trans (dataOf_sensorEvent ..)))
  | powerSample w => exact powerSample_keepsData w
  | knobRaise => exact knobRaise_keepsData
  | brakeAssert => exact brakeAssert_keepsData
  | brakeRelease => exact brakeRelease_keepsData
  | thermalCalibrate ns =>
    exact keepsData_ite keepsData_fault (keepsData_ite keepsData_same (keepsData_ite (keepsData_next.mpr (dataOf_setAlert ..)) keepsData_same))
  | throttleStep => exact throttleStep_keepsData
  | thermtripRelease ts => exact keepsData_ite keepsData_fault (keepsData_ite (keepsData_next.mpr rfl) keepsData_same)
  | lifeLogSummary => exact lifeLogSummary_keepsData
  | refLoss => exact refLoss_keepsData
  | referenceToleranceChange a b => exact keepsData_ite (keepsData_next.mpr rfl) keepsData_same
  | bootReady => exact keepsData_ite (keepsData_next.mpr rfl) keepsData_same
  | rcvVerify is => exact rcvVerify_keepsData is
  | railSequenceError r => exact keepsData_ite keepsData_same (keepsData_next.mpr rfl)
  | supplyRailUp r => exact supplyRailUp_keepsData r
  | _ => cases hi

/-- Settles O60: the frame of the quiet rows, and of the rows that lose a member. -/
theorem eventsLeaveData : Obligations.EventsLeaveData := by
  intro i s t hi h
  refine sameData_of_dataOf ?_
  obtain hi | ⟨hi, hn⟩ := hi
  · exact quietRow_keepsData hi t h
  · exact lossRow_keepsData hi hn t h

end Sys2Proof.Machine


/-! ## Links, members and the domain (R460-R465, R474-R478, R520, R551, R552) -/

namespace Sys2Proof.Machine

open Sys2Proof.Config (Grade cores)

variable {s : State}

/-! ### Fields of a word -/

/-- The bits of a word with a field written. -/
theorem bit_setFld {w : Nat} {v : BitVec w} {hi lo x j : Nat} (hl : lo ≤ hi) (hw : hi < w) :
    bit (setFld v hi lo x) j = if lo ≤ j ∧ j ≤ hi then x.testBit (j - lo) else bit v j := by
  unfold bit setFld
  rw [BitVec.getLsbD_or, BitVec.getLsbD_and, BitVec.getLsbD_not, BitVec.getLsbD_and, BitVec.getLsbD_ofNat, BitVec.getLsbD_ofNat,
    Nat.testBit_shiftLeft, Nat.testBit_shiftLeft, Nat.testBit_two_pow_sub_one]
  by_cases hj : lo ≤ j ∧ j ≤ hi
  · have h1 : j < w := by omega
    have h2 : j - lo < hi + 1 - lo := by omega
    simp [hj, h1, h2]
  · have none : (decide (j ≥ lo) && decide (j - lo < hi + 1 - lo)) = false := by
      rw [Bool.eq_false_iff]
      intro h
      simp only [Bool.and_eq_true, decide_eq_true_eq] at h
      omega
    rw [none, if_neg hj]
    simp only [Bool.and_false, Bool.or_false, Bool.not_false, Bool.and_true, Bool.and_eq_left_iff_imp, decide_eq_true_eq]
    exact BitVec.lt_of_getLsbD

theorem fld_setFld {w : Nat} {v : BitVec w} {hi lo x : Nat} (hl : lo ≤ hi) (hw : hi < w) (hx : x < 2 ^ (hi + 1 - lo)) :
    fld (setFld v hi lo x) hi lo = x := by
  apply Nat.eq_of_testBit_eq
  intro i
  have b : (setFld v hi lo x).toNat.testBit (i + lo) = bit (setFld v hi lo x) (i + lo) := rfl
  rw [fld, nfld, Nat.testBit_mod_two_pow, Nat.testBit_shiftRight, Nat.add_comm lo, b, bit_setFld hl hw]
  by_cases h : i < hi + 1 - lo
  · rw [if_pos (by omega), Nat.add_sub_cancel]
    simp [h]
  · have : x < 2 ^ i := lt_of_lt_of_le hx (Nat.pow_le_pow_right (by norm_num) (by omega))
    rw [Nat.testBit_lt_two_pow this]
    simp [h]

/-! ### Registers beside interrupts and the life log -/

theorem rget_sendMsix (fn vec a : Nat) : rget (sendMsix s fn vec) a = rget s a := by
  unfold sendMsix
  dsimp only
  repeat' split
  all_goals rfl

theorem rget_lifeAdd (event : Bool) (kind detail : Nat) (data : List Nat) (a : Nat) :
    rget (lifeAdd s event kind detail data) a = rget s a := by
  unfold lifeAdd
  dsimp only
  repeat' split
  all_goals rfl

/-! ### A link that goes down -/

theorem linkUp_congr {t : State} {l : Nat} (h : rget t (linkReg l) = rget s (linkReg l)) : linkUp t l = linkUp s l := by
  rw [linkUp, linkUp, h]

theorem linkReg_ne_swvReg {l o : Nat} (h : o < 0x100) : linkReg l ≠ swvReg o := by
  unfold linkReg swvReg
  omega

theorem linkUp_degrade {l d : Nat} (hs : StoresWf s) (h : NoneAway s) (hd : d ≠ s.devid) : linkUp (degrade s d) l = linkUp s l := by
  refine linkUp_congr ?_
  have hs' : StoresWf (rfld s (swvReg 0) 1 0 3) := (rset_keeps .rfl).stores hs
  rw [degrade_of_noneAway h hd, raiseFab, rget_sendMsix, rget_rset hs', if_neg (linkReg_ne_swvReg (by decide)), rfld, rget_rset hs,
    if_neg (linkReg_ne_swvReg (by decide))]

theorem linkUp_sendNotices {l d : Nat} : linkUp (sendNotices s d) l = linkUp s l := by
  unfold sendNotices
  exact foldl_proj (p := fun t => linkUp t l) fun _ _ => rfl

theorem linkUp_loseMember {l d : Nat} (hs : StoresWf s) (h : NoneAway s) : linkUp (loseMember s d) l = linkUp s l := by
  unfold loseMember
  split
  case isTrue => rfl
  case isFalse hd =>
    push Not at hd
    exact linkUp_sendNotices.trans (linkUp_degrade hs h hd.1)

theorem linkUp_loseMembers {l : Nat} {ds : List Nat} (hs : StoresWf s) (h : NoneAway s) :
    linkUp (ds.foldl loseMember s) l = linkUp s l := by
  induction ds generalizing s with
  | nil => rfl
  | cons d ds ih =>
    exact (ih ((loseMember_keeps .rfl).stores hs) (noneAway_of_lossOf (lossOf_loseMember h) h)).trans (linkUp_loseMember hs h)

theorem linkUp_dropLink {l : Nat} (hu : linkUp s l = true) (hs : StoresWf s) (h : NoneAway s) : linkUp (dropLink s l) l = false := by
  unfold dropLink
  rw [if_neg (by simp [hu])]
  extract_lets v t u t' w
  have hw : lossOf w = lossOf s := (lossOf_sendMsix ..).trans ((lossOf_lifeAdd ..).trans rfl)
  have hk : StoresWf w := (raiseFab_keeps (lifeAdd_keeps (setLink_keeps (rset_keeps .rfl)))).stores hs
  refine (linkUp_loseMembers hk (noneAway_of_lossOf hw h)).trans ?_
  have e : rget w (linkReg l) = setFld (setBit v 10 false) 9 4 0 := by
    refine (rget_sendMsix ..).trans ((rget_lifeAdd ..).trans ?_)
    exact (rget_rset hs).trans (if_pos rfl)
  rw [linkUp, e, bit_setFld (by decide) (by decide), if_neg (by decide), bit_setBit (by decide), if_pos rfl]

/-- Settles O42: each row where its own conditions hold. -/
theorem domainEventsAct : Obligations.DomainEventsAct := by
  intro s d topo a b ds links
  refine ⟨fun hd => ⟨if_neg (Nat.not_le.mpr hd), if_neg (Nat.not_le.mpr hd)⟩, fun hd h0 h4 => ?report, fun ht ho => ?bring, fun ho hc ht => ?dead⟩
  case report =>
    show execMeasurementReport d a b s = _
    rw [execMeasurementReport, if_neg (Nat.not_le.mpr hd), if_neg (by simp [h0, h4])]
    split
    · rfl
    · rfl
  case bring =>
    show execFabricBringup topo ds links s = _
    rw [execFabricBringup, if_neg (Nat.not_le.mpr ht), if_neg (by simp [ho])]
    simp only [Bool.not_eq_true']
  case dead =>
    show execBringupReportDeadline ds s = _
    have hb : (bit (rget s (swvReg 0)) 2 || (s.boot.state == 1 && !s.boot.joined)) = true := by simpa using hc
    simp only [execBringupReportDeadline, ho, hb, Nat.not_lt.mpr ht, decide_false, Bool.not_true, Bool.or_false, Bool.false_eq_true, if_false]

/-! ### The rows of a live link -/

theorem onLink_up {l : Nat} {o : Out State} (hl : l < 32) (hu : linkUp s l = true) : onLink s l o = o := by
  rw [onLink, if_neg (Nat.not_le.mpr hl), if_pos hu]

/-- Settles O41: each row of a link that is up, and what its fall leaves alone. -/
theorem linkEventsAct : Obligations.LinkEventsAct := by
  intro s l n j m ok hl
  refine ⟨fun hu => ⟨?msg, fun hm => ?takes⟩, fun hu hs => ⟨?drop, ?nak, ?group, ?lane, ?reeq, ?reeqDone⟩, rfl⟩
  case msg =>
    show execMessageReceive l ok m s = _
    rw [execMessageReceive, onLink_up hl hu]
    simp only [Bool.and_eq_true, Bool.not_eq_true']
  case takes =>
    obtain h | ⟨-, bad⟩ := takeMsg_answers (ok := true) (fun h => absurd hm (Nat.not_lt.mpr h))
    · exact h
    · cases bad
  case drop =>
    intro i hi
    refine ⟨?_, fun h => ⟨linkUp_dropLink hu hs h, ?_, ?_⟩⟩
    · simp only [List.mem_cons, List.not_mem_nil, or_false] at hi
      obtain rfl | rfl := hi
      · exact onLink_up hl hu
      · exact onLink_up hl hu
    · exact (sameData_of_dataOf (dataOf_of_lossOf (lossOf_dropLink h))).mem
    · exact (sameData_of_dataOf (dataOf_of_lossOf (lossOf_dropLink h))).tallies
  case nak => exact onLink_up hl hu
  case group => exact onLink_up hl hu
  case lane =>
    intro hn hb
    refine (onLink_up hl hu).trans ((if_neg (Nat.not_le.mpr hn)).trans (if_neg ?_))
    simp [hb]
  case reeq =>
    intro hn hf ht
    refine (onLink_up hl hu).trans ((if_neg (Nat.not_le.mpr hn)).trans (if_neg ?_))
    rintro (h | h)
    · exact h hf
    · split at h
      next u hu => exact absurd (ht u hu) (Nat.not_le.mpr (of_decide_eq_true h))
      next => cases h
  case reeqDone =>
    intro hj
    refine (onLink_up hl hu).trans ?_
    simp only [hj]

end Sys2Proof.Machine


/-! ## Functions, resets, boot and recovery (chapters 18, 20 and 21) -/

namespace Sys2Proof.Machine

open Sys2Proof.Config (Grade cores)

variable {s : State}

/-! ### D-states (R504) -/

/-- Which functions are in D3hot: suspending rings and sending kept messages leaves it. -/
theorem d3_setSuspended (n m : Nat) (b : Bool) : (setSuspended s n m b).hif = s.hif :=
  foldl_proj (p := State.hif) fun _ _ => rfl

theorem hif_ringRestate (n : Nat) : (ringRestate s n).hif = s.hif := by
  unfold ringRestate
  dsimp only
  split
  · rfl
  · rfl

theorem hif_ringPower (b : Bool) (n : Nat) : (ringPower b s n).hif = s.hif :=
  (hif_ringRestate ..).trans (foldl_proj (p := State.hif) fun _ _ => d3_setSuspended ..)

theorem hif_ringPowers (b : Bool) (l : List Nat) : (l.foldl (ringPower b) s).hif = s.hif :=
  foldl_proj (p := State.hif) fun _ _ => hif_ringPower ..

theorem d3_sendMsix (fn vec : Nat) : (sendMsix s fn vec).hif.d3 = s.hif.d3 := by
  unfold sendMsix
  dsimp only
  repeat' split
  all_goals rfl

theorem d3_unmask (fn vec : Nat) : (unmask s fn vec).hif.d3 = s.hif.d3 := by
  unfold unmask
  dsimp only
  repeat' split
  case isTrue.isTrue => exact (d3_sendMsix ..).trans rfl
  case isTrue.isFalse => rfl
  case isFalse.isTrue => exact (d3_sendMsix ..).trans rfl
  case isFalse.isFalse => rfl

theorem d3hotEntry_runs {fn : Nat} (hf : fn ≤ 16) (h4 : s.boot.state = 4) (hv : fn ≤ numVf s) (h3 : fn ∉ s.hif.d3) :
    ∃ t, execD3hotEntry fn s = .next t ∧ t.mem = s.mem ∧
      (if (fnRings s fn).any (ringLaunches s) = true then t.hif.d3 = s.hif.d3 ∧ fn ∈ t.hif.d3Wait else t.hif.d3 = s.hif.d3 ++ [fn]) := by
  have hmem : ((fnRings s fn).foldl (ringPower true) s).mem = s.mem :=
    (sameData_of_dataOf (foldl_proj (p := dataOf) fun _ _ => dataOf_ringPower ..)).mem
  have hhif : ((fnRings s fn).foldl (ringPower true) s).hif = s.hif := hif_ringPowers ..
  have hc : ¬(s.boot.state = 0 ∨ numVf s < fn ∨ s.hif.d3.contains fn = true) := by simp [h4, h3, Nat.not_lt.mpr hv]
  refine ⟨_, (if_neg (Nat.not_lt.mpr hf)).trans (if_neg hc), ?_⟩
  dsimp only
  generalize (fnRings s fn).foldl (ringPower true) s = v at hmem hhif ⊢
  split
  · exact ⟨hmem, (congrArg Hif.d3 hhif :), by simp⟩
  · exact ⟨hmem, (congrArg (fun h => Hif.d3 h ++ [fn]) hhif :)⟩

theorem d0Return_runs {fn : Nat} (hf : fn ≤ 16) (h3 : fn ∈ s.hif.d3) :
    ∃ t, execD0Return fn s = .next t ∧ t.hif.d3 = s.hif.d3.filter (· ≠ fn) ∧ t.mem = s.mem := by
  have hc : ¬(!(s.hif.d3.contains fn || s.hif.d3Wait.contains fn)) = true := by simp [h3]
  have e : execD0Return fn s = .next _ := (if_neg (Nat.not_lt.mpr hf)).trans (if_neg hc)
  refine ⟨_, e, ?_, (sameData_of_dataOf (d0Return_keepsData fn _ e)).mem⟩
  exact (foldl_proj (p := fun t : State => t.hif.d3) fun _ _ => d3_unmask ..).trans (congrArg Hif.d3 (hif_ringPowers ..))

/-! ### Functions -/

theorem vfEnable_runs {n : Nat} (hn : n ≤ 16) (h4 : s.boot.state = 4) :
    ∃ t, execVfEnable n s = .next t ∧ (StoresWf s → numVf t = n) := by
  refine ⟨_, (if_neg (Nat.not_lt.mpr hn)).trans (if_neg (by simp [h4])), fun hs => ?_⟩
  generalize (rangeFrom 1 16).filter _ = l
  have hw : StoresWf (l.foldl (fun t v => resetFn (tdiFail t v) v) s) :=
    (Keeps.foldl .rfl fun u x h => resetFn_keeps (tdiFail_keeps h)).stores hs
  rw [numVf, rget_rset hw, if_pos rfl, fld_setFld (by decide) (by decide) (by omega)]

theorem ideKeyProg_runs {k : Nat} (hk : k ≤ 17) (h4 : s.boot.state = 4) (hs : s.trust.sessions ≠ []) :
    ∃ t, execIdeKeyProg k true s = .next t ∧
      t.hif.ide = s.hif.ide.filter (fun e => e.1 != k) ++ [(k, true)] ∧ tget 0 t.hif.ideKeys k = tget 0 s.hif.ideKeys k + 1 := by
  refine ⟨_, (if_neg (Nat.not_lt.mpr hk)).trans (if_neg (by simp [h4, hs])), ?_⟩
  dsimp only
  have key : tget 0 (tput 0 s.hif.ideKeys k (tget 0 s.hif.ideKeys k + 1)) k = tget 0 s.hif.ideKeys k + 1 := tget_tput_self (Nat.succ_ne_zero _)
  split
  · exact ⟨rfl, key⟩
  · exact ⟨rfl, key⟩

/-- Settles O45: each row of a function of a device that is READY. -/
theorem functionEventsAct : Obligations.FunctionEventsAct := by
  intro s fn j k v hf h4 hv
  have hf' := Nat.not_lt.mpr hf
  have hv' := Nat.not_lt.mpr hv
  refine ⟨fun hl h3 hr hj hk => ?win, fun h28 h41 => ?bar, fun hl hr hk => ?unmask, ?flr, fun h3 => d3hotEntry_runs hf h4 hv (by simpa using h3), fun h3 => d0Return_runs hf (by simpa using h3),
    fun h1 => ?tdi, fun h1 a b hab ha => ?tdisp, fun hk => vfEnable_runs hk h4, fun hs hk => ideKeyProg_runs hk h4 hs, fun hl ho => ?ats⟩
  case win =>
    refine (if_neg (by omega)).trans (if_neg ?_)
    have h3' : fn ∉ s.hif.d3 := by simpa using h3
    simp [hl, h3', hr, h4, hv']
  case bar =>
    refine (if_neg (by omega)).trans (if_neg ?_)
    simp [h4, hv']
  case unmask =>
    refine (if_neg (by omega)).trans (if_neg ?_)
    simp [hl, hr, h4, hv']
  case flr =>
    show execFlr fn s = _
    rw [execFlr, if_neg hf', if_neg (by simp [h4])]
    simp only [hv', if_false]
    split
    · rfl
    · rfl
  case tdi => exact if_neg (by omega)
  case tdisp =>
    show execTdispRequest fn b s = _
    rw [execTdispRequest, if_neg (by omega), if_neg (by simp [h4, hv'])]
    simp only [List.mem_cons, Prod.mk.injEq, List.not_mem_nil, or_false] at hab
    obtain ⟨rfl, rfl⟩ | ⟨rfl, rfl⟩ | ⟨rfl, rfl⟩ | ⟨rfl, rfl⟩ := hab
    all_goals rw [ha]
  case ats =>
    refine (if_neg hf').trans ((if_neg ?_).trans (if_neg (Bool.eq_false_iff.mp ho)))
    simp [hl, hv']

/-! ### What a reset leaves (R563-R567, R574, R575) -/

/-- The part of a state that a reset gives its value before the boot begins: the boot's steps and records keep it. -/
def resetView (s : State) : State :=
  { devid := s.devid, time := s.time, mem := s.mem, acc := s.acc, ctxs := s.ctxs, rings := s.rings,
    boot := { strap := s.boot.strap, resetCause := s.boot.resetCause, rails := s.boot.rails } }

/-- The same with the cores that have been remapped. -/
def bootView (s : State) : State × List Nat := (resetView s, s.remaps)

theorem bootView_rset (a : Nat) (v : Word) : bootView (rset s a v) = bootView s := rfl

theorem bootView_lifeAdd (event : Bool) (kind detail : Nat) (data : List Nat) : bootView (lifeAdd s event kind detail data) = bootView s := by
  unfold lifeAdd
  dsimp only
  repeat' split
  all_goals rfl

theorem boot_lifeAdd (event : Bool) (kind detail : Nat) (data : List Nat) : (lifeAdd s event kind detail data).boot = s.boot :=
  (congrArg State.boot (beyondMem_lifeAdd ..) :)

theorem bootView_dice : bootView (dice s) = bootView s := by
  unfold dice
  split
  · rfl
  · split
    · rfl
    · rfl

theorem boot_dice : (dice s).boot = s.boot := by
  unfold dice
  split
  · rfl
  · split
    · rfl
    · rfl

theorem bootRecord_view (cause : Nat) :
    bootView (bootRecord s cause) = bootView s ∧ (bootRecord s cause).boot.state = s.boot.state := by
  unfold bootRecord
  extract_lets v t b u
  have e : bootView t = bootView s ∧ t.boot = s.boot := by
    show bootView (if s.boot.tripped = true then _ else s) = _ ∧ State.boot (if s.boot.tripped = true then _ else s) = _
    split
    · exact ⟨bootView_lifeAdd .., boot_lifeAdd ..⟩
    · exact ⟨rfl, rfl⟩
  have hv : bootView u = bootView s := Eq.trans rfl e.1
  have hb : u.boot.state = s.boot.state := (congrArg Boot.state e.2 :)
  split
  · exact ⟨(bootView_lifeAdd ..).trans hv, (congrArg Boot.state (boot_lifeAdd ..)).trans hb⟩
  · exact ⟨(bootView_lifeAdd ..).trans hv, (congrArg Boot.state (boot_lifeAdd ..)).trans hb⟩

theorem bootSteps_view (strap : Nat) (is : List ImageCheck) :
    bootView (bootSteps s strap is) = bootView s ∧ (bootSteps s strap is).boot.state ∈ [1, 2] := by
  unfold bootSteps
  extract_lets good cause stage1 b set
  have hset (st step c : Nat) (js : List ImageCheck) (h : st ∈ [1, 2]) :
      bootView (dice (set st step c js)) = bootView s ∧ (dice (set st step c js)).boot.state ∈ [1, 2] :=
    ⟨bootView_dice.trans rfl, by rw [boot_dice]; exact h⟩
  repeat' split
  case isTrue => exact ⟨rfl, by simp [set]⟩
  case isTrue => exact ⟨rfl, by simp [set]⟩
  case isTrue => exact hset 2 7 cause good (by simp)
  case isTrue => exact hset 2 6 cause good (by simp)
  case isFalse => exact hset 2 4 cause good (by simp)
  case isFalse =>
    obtain ⟨hv, hb⟩ := hset 1 6 0 good (by simp)
    exact ⟨Eq.trans rfl hv, hb⟩

theorem remapCores_view : resetView (remapCores s) = resetView s := by
  have records (l : List Nat) : resetView (l.foldl (fun t c =>
      let u := { t with remaps := t.remaps ++ [c] }
      lifeAdd u false 0x0011 c [physCore t c, physCore u c]) s) = resetView s :=
    foldl_proj fun _ _ => (congrArg Prod.fst (bootView_lifeAdd ..) :)
  have cleared {t : State} (l : List Nat) : resetView (l.foldl (fun t w => rset t (eccReg (0x100 + 8 * w)) 0) t) = resetView t :=
    foldl_proj fun _ _ => congrArg Prod.fst (bootView_rset ..)
  unfold remapCores
  dsimp only
  exact (cleared _).trans (records _)

theorem resetCore_view (warm : Bool) :
    bootView (resetCore s warm) = ({ devid := s.devid, boot := { strap := s.boot.strap, resetCause := s.boot.resetCause, rails := s.boot.rails } },
      s.remaps) := by
  unfold resetCore
  dsimp only
  exact (foldl_proj (p := bootView) fun _ _ => bootView_rset ..).trans rfl

theorem resetCore_pcieDown_view (warm : Bool) :
    bootView (resetCore (pcieDown s) warm) =
      ({ devid := (pcieDown s).devid, boot := { strap := s.boot.strap, resetCause := s.boot.resetCause, rails := s.boot.rails } }, s.remaps) := by
  have e := fallOf_pcieDown s
  simp only [fallOf, Prod.mk.injEq] at e
  obtain ⟨-, -, -, hb, hr⟩ := e
  rw [resetCore_view, hb, hr]

/-- What a reset with a reference gives the device that boots: the cause and straps that it is given, no memory, no commands and
no rings; a warm one that no scan is due for keeps the cores as they are remapped. -/
def Rebooted (s : State) (cold : Bool) (cause d strap : Nat) (t : State) : Prop :=
  resetView t = { devid := d, boot := { strap := strap, resetCause := cause, rails := s.boot.rails } } ∧
    (cold = false → s.boot.scan = false → t.remaps = s.remaps)

theorem Rebooted.of_bootView {cold : Bool} {cause d strap : Nat} {t u : State} (h : Rebooted s cold cause d strap t)
    (e : bootView u = bootView t) : Rebooted s cold cause d strap u :=
  ⟨(congrArg Prod.fst e).trans h.1, fun hc hs => (congrArg Prod.snd e).trans (h.2 hc hs)⟩

theorem startBoot_leaves (cold alt : Bool) (cause d strap : Nat) (is : List ImageCheck) :
    Rebooted s cold cause d strap (startBoot s cold cause d strap true alt is) ∧
      (startBoot s cold cause d strap true alt is).boot.state ∈ [1, 2, 3] := by
  unfold startBoot
  extract_lets exh cold' t b u b2 v l w fail x b3 y
  have hu : bootView u = ({ devid := d, boot := { strap := strap, resetCause := cause, rails := s.boot.rails } }, s.remaps) := by
    have ht : bootView t = _ := resetCore_pcieDown_view (!cold')
    have e : bootView u = ({ (bootView t).1 with devid := d, boot := { (bootView t).1.boot with strap := strap, resetCause := cause } },
      (bootView t).2) := rfl
    rw [e, ht]
  have hw : Rebooted s cold cause d strap w := ⟨congrArg Prod.fst hu, fun _ _ => congrArg Prod.snd hu⟩
  have hx : Rebooted s cold cause d strap x := by
    show Rebooted s cold cause d strap (if cold' = true then remapCores w else w)
    split
    case isTrue hc => exact ⟨remapCores_view.trans hw.1, fun h1 h2 => absurd hc (by simp [cold', h1, h2])⟩
    case isFalse => exact hw
  have hy : Rebooted s cold cause d strap y := by
    show Rebooted s cold cause d strap (if strap = 0 ∧ is ≠ [] then _ else x)
    split
    · exact hx.of_bootView rfl
    · exact hx
  have failed (e : Nat) : Rebooted s cold cause d strap (bootRecord (fail w e) cause) ∧
      (bootRecord (fail w e) cause).boot.state ∈ [1, 2, 3] :=
    ⟨hw.of_bootView ((bootRecord_view cause).1.trans rfl), by rw [(bootRecord_view cause).2]; simp [fail]⟩
  have boots (js : List ImageCheck) : Rebooted s cold cause d strap (bootRecord (bootSteps y strap js) cause) ∧
      (bootRecord (bootSteps y strap js) cause).boot.state ∈ [1, 2, 3] := by
    obtain ⟨hv, hb⟩ := bootSteps_view (s := y) strap js
    refine ⟨hy.of_bootView ((bootRecord_view cause).1.trans hv), ?_⟩
    rw [(bootRecord_view cause).2]
    exact List.mem_of_mem_dropLast hb
  clear_value x y w
  rw [if_neg (by simp)]
  split
  · exact failed exh
  · split
    · exact failed _
    · exact boots _

/-! ### Rails -/

theorem powerDown_view : resetView (powerDown s) = { devid := (pcieDown s).devid, boot := { strap := s.boot.strap, resetCause := 1, rails := s.boot.rails } } := by
  have e := congrArg Prod.fst (resetCore_pcieDown_view (s := s) false)
  have h : resetView (powerDown s) = { resetView (resetCore (pcieDown s) false) with
    boot := { (resetView (resetCore (pcieDown s) false)).boot with resetCause := 1 } } := rfl
  rw [h]
  exact congrArg (fun t : State => { t with boot := { t.boot with resetCause := 1 } }) e

theorem supplyRailDown_runs {r : Rail} (hu : railUp s (railNo r) = true) :
    ∃ t, execSupplyRailDown r s = .next t ∧ t.mem = [] ∧ t.boot.state = 0 ∧ t.boot.rails = lset s.boot.rails (railNo r) false := by
  have hm : (powerDown s).mem = [] := (congrArg State.mem powerDown_view :)
  have hr : (powerDown s).boot.rails = s.boot.rails := (congrArg (fun t : State => t.boot.rails) powerDown_view :)
  have hs : (powerDown s).boot.state = 0 := rfl
  unfold execSupplyRailDown
  dsimp only
  rw [if_neg (by simp [hu])]
  generalize powerDown s = v at hm hr hs ⊢
  split
  · exact ⟨_, rfl, hm, hs, (congrArg (fun rs => lset rs (railNo r) false) hr :)⟩
  · exact ⟨_, rfl, hm, hs, (congrArg (fun rs => lset rs (railNo r) false) hr :)⟩

/-- Settles O50: what the boot keeps of a reset, and the rails' own rows. -/
theorem resetsAct : Obligations.ResetsAct := by
  intro s d strap hot alt is r hd hst htrip
  have hf : ¬(64 ≤ d ∨ 4 ≤ strap) := by omega
  refine ⟨fun hr hstuck => ?cold, fun hr hp hstuck hhot => ?warm, ?fall, supplyRailDown_runs, fun hu ho => ?up, fun hu h0 hl => ⟨?err, ?early⟩⟩
  case cold =>
    obtain ⟨⟨hv, -⟩, hb⟩ := startBoot_leaves (s := s) true alt (if s.boot.tripped then 4 else 1) d strap is
    have e : execColdReset d strap true alt is s = .next (startBoot s true (if s.boot.tripped then 4 else 1) d strap true alt is) := by
      rw [execColdReset, if_neg hf, if_neg (by simp [htrip, hr]), if_neg (by simp [hstuck])]
    generalize startBoot s true _ d strap true alt is = t at hv hb e
    have same {α : Type} (f : State → α) := congrArg f hv
    exact ⟨t, e, same State.devid, same (·.boot.strap), same State.time, same State.mem, same State.acc, same State.ctxs, same State.rings,
      same (·.boot.resetCause), hb⟩
  case warm =>
    obtain ⟨⟨hv, hm⟩, hb⟩ := startBoot_leaves (s := s) false alt (if hot then 3 else 2) d strap is
    have e : execWarmReset hot d strap true alt is s = .next (startBoot s false (if hot then 3 else 2) d strap true alt is) := by
      rw [execWarmReset, if_neg hf, if_neg (by simpa [htrip, hr, hp, hstuck] using hhot)]
    generalize startBoot s false _ d strap true alt is = t at hv hm hb e
    have same {α : Type} (f : State → α) := congrArg f hv
    exact ⟨t, e, same State.devid, same State.time, same State.mem, same State.ctxs, same State.rings,
      same (·.boot.resetCause), hb, hm rfl⟩
  case fall =>
    have e : execPwrgdFall s = .next _ := if_neg (by simp [htrip])
    exact ⟨_, e, rfl, rfl, (congrArg State.mem powerDown_view :), (congrArg State.time powerDown_view :)⟩
  case up =>
    refine (if_neg (Bool.eq_false_iff.mp hu)).trans (if_neg ?_)
    rintro ⟨h0, hl⟩
    obtain h | h := ho
    · exact h0 h
    · simp [h] at hl
  case err =>
    refine if_neg ?_
    simp [hu, h0, hl]
  case early =>
    refine (if_neg (Bool.eq_false_iff.mp hu)).trans (if_pos ⟨h0, ?_⟩)
    simp [hl]

end Sys2Proof.Machine


/-! ## Boot and recovery (R31, R556, R567, R570-R572) -/

namespace Sys2Proof.Machine

variable {s : State}

/-! ### Sparse tables -/

theorem tget_tdrop_from {α : Type} [DecidableEq α] {d : α} {p : Nat → Bool} {t : Tab α} {lo j : Nat} (h : twfFrom d lo t = true) :
    tget d (tdrop p t) j = if p j = true then d else tget d t j := by
  induction t generalizing lo with
  | nil => simp [tdrop, tget]
  | cons e t ih =>
    obtain ⟨k, v⟩ := e
    simp only [twfFrom, Bool.and_eq_true, decide_eq_true_eq] at h
    have below (hj : j < k) : tget d (tdrop p t) j = d := tget_none (tdrop_wfFrom h.2) (by omega)
    have self : tget d (tdrop p t) k = d := tget_none (tdrop_wfFrom h.2) (by omega)
    by_cases hp : p k = true
    · rw [tdrop, List.filter_cons_of_neg (by simp [hp]), ← tdrop, ih h.2, tget]
      by_cases hk : j = k
      · simp [hk, hp]
      · rw [if_neg hk]
        by_cases hj : j < k
        · have : tget d t j = d := tget_none h.2 (by omega)
          simp [hj, this]
        · simp [hj]
    · rw [tdrop, List.filter_cons_of_pos (by simp [hp]), ← tdrop, tget, tget]
      by_cases hk : j = k
      · simp [hk, hp]
      · rw [if_neg hk, if_neg hk]
        by_cases hj : j < k
        · simp [hj]
        · rw [if_neg hj, if_neg hj, ih h.2]

theorem tget_tdrop {α : Type} [DecidableEq α] {d : α} {p : Nat → Bool} {t : Tab α} {j : Nat} (h : twf d t = true) :
    tget d (tdrop p t) j = if p j = true then d else tget d t j := tget_tdrop_from h

/-- A table copied into another from key `lo` on, up to `len` of its keys. -/
def copied (lo len : Nat) (m b : Tab Byte) : Tab Byte := (b.filter fun e => e.1 < len).foldl (fun m e => tput 0 m (lo + e.1) e.2) m

theorem copied_cons {lo len k : Nat} {v : Byte} {m b : Tab Byte} :
    copied lo len m ((k, v) :: b) = copied lo len (if k < len then tput 0 m (lo + k) v else m) b := by
  unfold copied
  by_cases h : k < len
  · rw [List.filter_cons_of_pos (by simpa using h), List.foldl_cons, if_pos h]
  · rw [List.filter_cons_of_neg (by simpa using h), if_neg h]

theorem tget_copied_outside {lo len l : Nat} {m b : Tab Byte} (hm : twf 0 m = true) (hl : l < lo ∨ lo + len ≤ l) :
    tget 0 (copied lo len m b) l = tget 0 m l := by
  induction b generalizing m with
  | nil => rfl
  | cons e b ih =>
    rw [copied_cons]
    split
    case isTrue h => rw [ih (tput_wf hm), tget_tput hm, if_neg (by omega)]
    case isFalse => exact ih hm

theorem tget_copied_inside {lo len i k : Nat} {m b : Tab Byte} (hm : twf 0 m = true) (hb : twfFrom 0 k b = true) (hi : i < len) :
    tget 0 (copied lo len m b) (lo + i) = if tget 0 b i = 0 then tget 0 m (lo + i) else tget 0 b i := by
  induction b generalizing m k with
  | nil => rfl
  | cons e b ih =>
    obtain ⟨j, v⟩ := e
    simp only [twfFrom, Bool.and_eq_true, decide_eq_true_eq] at hb
    obtain ⟨⟨-, hv⟩, hb⟩ := hb
    have put : tget 0 (if j < len then tput 0 m (lo + j) v else m) (lo + i) = if i = j then v else tget 0 m (lo + i) := by
      split
      case isTrue => simp only [tget_tput hm, Nat.add_left_cancel_iff]
      case isFalse => rw [if_neg (by omega)]
    have hm' : twf 0 (if j < len then tput 0 m (lo + j) v else m) = true := by
      split
      · exact tput_wf hm
      · exact hm
    rw [copied_cons, ih hm' hb, put, tget]
    by_cases hj : i = j
    · rw [if_pos (tget_none hb (by omega)), if_pos hj, if_pos hj, if_neg hv]
    · rw [if_neg hj, if_neg hj]
      by_cases hlt : i < j
      · rw [if_pos (tget_none hb (by omega)), if_pos hlt, if_pos rfl]
      · rw [if_neg hlt]

/-! ### The recovery window -/

theorem memGet_of_cmn {t : State} {l : Nat} (h : cmnBase ≤ l) : memGet t l = tget 0 t.mem l := by
  have : isSpdLoc l = false := by
    unfold isSpdLoc spdEnd
    unfold cmnBase at h
    simp only [Bool.and_eq_false_iff, decide_eq_false_iff_not]
    omega
  unfold memGet lostMask
  rw [this]
  simp

theorem rcvChunkCopied_runs {len : Nat} {last : Bool} (hj : s.boot.rcvJob = some (len, last)) (hs : StoresWf s)
    (hb : twf 0 s.boot.rcvBuf = true) :
    ∃ t, execRcvChunkCopied s = .next t ∧ t.boot.rcvNext = s.boot.rcvNext + len ∧ t.boot.rcvJob = none ∧ t.boot.rcvCheck = last ∧
      (∀ i, i < len → memGet t (rcvBase + s.boot.rcvNext + i) = tget 0 s.boot.rcvBuf i) ∧
      (∀ l, l < rcvBase + s.boot.rcvNext ∨ rcvBase + s.boot.rcvNext + len ≤ l → memGet t l = memGet s l) := by
  have hbase : cmnBase ≤ rcvBase := Nat.le_add_right ..
  have drop {j : Nat} := tget_tdrop (p := fun l => decide (rcvBase + s.boot.rcvNext ≤ l) && decide (l < rcvBase + s.boot.rcvNext + len)) (j := j) hs.mem
  have e : execRcvChunkCopied s = .next { s with
      mem := copied (rcvBase + s.boot.rcvNext) len (tdrop (fun l => decide (rcvBase + s.boot.rcvNext ≤ l) && decide (l < rcvBase + s.boot.rcvNext + len)) s.mem) s.boot.rcvBuf
      gerrs := tdrop (fun l => decide (rcvBase + s.boot.rcvNext ≤ l) && decide (l < rcvBase + s.boot.rcvNext + len)) s.gerrs
      boot := { s.boot with rcvNext := s.boot.rcvNext + len, rcvJob := none, rcvCheck := last } } := by
    simp only [execRcvChunkCopied, hj]
    rfl
  refine ⟨_, e, rfl, rfl, rfl, fun i hi => ?_, fun l hl => ?_⟩
  · rw [memGet_of_cmn (by omega)]
    refine (tget_copied_inside (tdrop_wf hs.mem) hb hi).trans ?_
    split
    case isTrue h0 => rw [drop, if_pos (by simpa using hi), h0]
    case isFalse => rfl
  · show tget 0 (copied _ _ _ _) l ^^^ lostMask s l = _
    rw [tget_copied_outside (tdrop_wf hs.mem) hl, drop, if_neg]
    · rfl
    · simp only [Bool.and_eq_true, decide_eq_true_eq]
      omega

theorem rcvWrite_ctrl (v : Word) : rcvWrite s 8 (leBytes 8 v.toNat) = rcvCtrl s v := by
  have e : BitVec.ofNat 64 (leNat (leBytes 8 v.toNat) * 2 ^ (8 * (8 % 8))) = v := by
    rw [leNat_leBytes, Nat.mod_eq_of_lt (by have := v.isLt; omega), Nat.mod_self, Nat.mul_zero, pow_zero, Nat.mul_one]
    simp
  unfold rcvWrite
  dsimp only
  rw [e]
  rfl

theorem execHostWrite_rcv (hl : s.hif.linkUp = true) (hg : accessGate s 0 0 0xF000008 8 true false = .rcv 8) (v : Word) :
    execHostWrite 0 0 0xF000008 (leBytes 8 v.toNat) false s = .next (rcvCtrl s v) := by
  unfold execHostWrite
  rw [if_neg (by simp), if_neg (by simp [hl])]
  dsimp only
  rw [leBytes_length, hg]
  exact congrArg Host.Outcome.next (rcvWrite_ctrl v)

/-- Where the boot resumes, it goes on as it was recorded; neither memory nor the life log changes. -/
theorem resumed_leaves (joined : Bool) (v : State) :
    (if joined = true then dice v else startBringup (dice v)).boot = v.boot ∧
      (if joined = true then dice v else startBringup (dice v)).mem = v.mem ∧
      (if joined = true then dice v else startBringup (dice v)).life = v.life := by
  have h : (dice v).boot = v.boot ∧ (dice v).mem = v.mem ∧ (dice v).life = v.life := by
    unfold dice
    split
    · exact ⟨rfl, rfl, rfl⟩
    · split
      · exact ⟨rfl, rfl, rfl⟩
      · exact ⟨rfl, rfl, rfl⟩
  split
  · exact h
  · exact h

theorem rcvVerify_runs {is : List ImageCheck} (hc : s.boot.rcvCheck = true) (h7 : s.boot.cause ≠ 7) (hb : bundleCause s is = 0) :
    ∃ t, execRcvVerify is s = .next t ∧ t.boot.state = 1 ∧ t.boot.cause = 0 ∧ t.boot.images = withStage1 s is ∧ t.boot.rcvCheck = false ∧
      t.mem = s.mem ∧ t.life = s.life := by
  obtain ⟨hboot, hmem, hlife⟩ := resumed_leaves s.boot.joined { s with boot := { s.boot with
    rcvCheck := false, state := 1, cause := 0, step := max 6 s.boot.step, images := withStage1 s is } }
  unfold execRcvVerify
  dsimp only
  rw [if_neg (by simp [hc]), if_neg h7, if_neg (by simp [hb])]
  exact ⟨_, rfl, (congrArg Boot.state hboot :), (congrArg Boot.cause hboot :), (congrArg Boot.images hboot :),
    (congrArg Boot.rcvCheck hboot :), hmem, hlife⟩

theorem time_lifeAdd (event : Bool) (kind detail : Nat) (data : List Nat) : (lifeAdd s event kind detail data).time = s.time :=
  (congrArg State.time (beyondMem_lifeAdd ..) :)

theorem time_summaries : (summaries s).time = s.time := by
  have e (l : List Nat) : (l.foldl (fun t k => lifeAdd t false k 0 (summaryData s.life k)) s).time = s.time :=
    foldl_proj (p := State.time) fun _ _ => time_lifeAdd ..
  unfold summaries
  dsimp only
  exact e _

theorem lifeLogSummary_runs (hr : running s = true) (ht : 3600000000 * Config.tick + s.life.summary ≤ s.time) :
    ∃ t, execLifeLogSummary s = .next t ∧ t.life.summary = s.time ∧ (∃ new, t.life.recs = s.life.recs ++ new) ∧ t.mem = s.mem := by
  have e : execLifeLogSummary s = .next { summaries s with life := { (summaries s).life with summary := s.time } } := by
    have htime : (summaries s).time = s.time := time_summaries
    unfold execLifeLogSummary
    rw [if_neg (by simp [hr]; omega)]
    dsimp only
    rw [htime]
  have hm := (sameData_of_dataOf (dataOf_summaries (s := s))).mem
  obtain ⟨new, hn, -⟩ := (summaries_keeps (s := s) .rfl).log
  generalize summaries s = v at e hm hn
  exact ⟨_, e, rfl, ⟨new, hn⟩, hm⟩

/-- Settles O51: each row where its own conditions hold. -/
theorem recoveryActs : Obligations.RecoveryActs := by
  intro s v len last alt tol is
  refine ⟨fun hr => ⟨if_neg (by simp [hr]), if_pos hr, lifeLogSummary_runs hr⟩, fun h1 hj hi => ?ready,
    fun hl hg => ⟨execHostWrite_rcv hl hg _, execHostWrite_rcv hl hg _⟩, rcvChunkCopied_runs, rcvVerify_runs⟩
  case ready => exact if_pos ⟨h1, hj, List.all_eq_true.mpr hi⟩

end Sys2Proof.Machine


/-! ## What a command of an engine queue leaves alone (chapters 00, 07)

`controlOf` is what stands above the engines: clock, boot, serving engine, keys, domain, trust, power, and the in-bank units. The
operations that the commands of the queues are made of keep it. -/

namespace Sys2Proof.Machine

/-- What stands above the engines of a state. -/
def controlOf (s : State) : State :=
  { remaps := s.remaps, devid := s.devid, time := s.time, boot := s.boot, srv := s.srv, keys := s.keys, fab := s.fab, trust := s.trust, power := s.power, mgtOut := s.mgtOut, hostAns := s.hostAns, epoch := s.epoch, nbus := s.nbus, seq := s.seq, parNbu := s.parNbu }

/-- A record update of what does not stand above the engines. -/
@[simp] theorem controlOf_mk (t : State) {grade_ badCores_ fwRanges_ regs_ mem_ errs_ gerrs_ flags_ tallies_ acc_ accTy_ parAcc_ parX_ encBad_ ctxs_ ars_ xs_ cores_ rings_ chans_ launches_ nextLaunch_ stks_ crk_ ecc_ hif_ folds_ life_ msix_ hostOut_ fabOut_ puts_ asks_ nextAsk_ free_ lost_ pending_} :
    controlOf (State.mk grade_ badCores_ fwRanges_ t.remaps t.devid t.time regs_ mem_ errs_ gerrs_ flags_ tallies_ acc_ accTy_ parAcc_ parX_ t.parNbu encBad_ ctxs_ ars_ xs_ cores_ rings_ chans_ t.nbus launches_ nextLaunch_ t.seq stks_ t.boot t.srv t.keys crk_ ecc_ hif_ folds_ t.fab t.trust t.power life_ msix_ t.mgtOut t.hostAns hostOut_ fabOut_ puts_ asks_ nextAsk_ free_ t.epoch lost_ pending_) = controlOf t := by
  simp only [controlOf]

variable {s : State}

theorem controlOf_of_beyondMem {t : State} (h : beyondMem t = beyondMem s) : controlOf t = controlOf s :=
  (congrArg controlOf h :)

@[simp] theorem controlOf_foldl {β : Type} {f : State → β → State} {l : List β} (h : ∀ t x, controlOf (f t x) = controlOf t) :
    controlOf (l.foldl f s) = controlOf s :=
  foldl_proj h

@[simp] theorem controlOf_foldl_fst {β γ : Type} {f : State × γ → β → State × γ} {l : List β} {q : State × γ}
    (h : ∀ t x, controlOf (f t x).1 = controlOf t.1) : controlOf (l.foldl f q).1 = controlOf q.1 :=
  foldl_proj (p := fun q : State × γ => controlOf q.1) h

/-! ### Registers, interrupts and stored bytes -/

@[simp] theorem controlOf_rset (a : Nat) (v : Word) : controlOf (rset s a v) = controlOf s := controlOf_mk ..
@[simp] theorem controlOf_ror (a : Nat) (v : Word) : controlOf (ror s a v) = controlOf s := controlOf_mk ..
@[simp] theorem controlOf_rinc (a n : Nat) : controlOf (rinc s a n) = controlOf s := controlOf_mk ..
@[simp] theorem controlOf_sendFab (m : Msg) : controlOf (sendFab s m) = controlOf s := controlOf_mk ..

@[simp] theorem controlOf_sendMsix (fn vec : Nat) : controlOf (sendMsix s fn vec) = controlOf s :=
  controlOf_of_beyondMem (beyondMem_sendMsix ..)

@[simp] theorem controlOf_coreFail (c : Nat) : controlOf (coreFail s c) = controlOf s := controlOf_of_beyondMem (beyondMem_coreFail ..)
@[simp] theorem controlOf_logUe (m : Meet) (addr syn : Nat) : controlOf (logUe s m addr syn) = controlOf s :=
  controlOf_of_beyondMem (beyondMem_logUe ..)
@[simp] theorem controlOf_eccTouch (m : Meet) (us : List Nat) : controlOf (eccTouch s m us).1 = controlOf s :=
  controlOf_of_beyondMem (beyondMem_eccTouch ..)
@[simp] theorem controlOf_applyView (u : Nat) : controlOf (applyView s u) = controlOf s := controlOf_of_beyondMem (beyondMem_applyView ..)
@[simp] theorem controlOf_encodeUnit (u : Nat) : controlOf (encodeUnit s u) = controlOf s := controlOf_of_beyondMem (beyondMem_encodeUnit ..)
@[simp] theorem controlOf_putBytes (p : Nat → Bool) (a : Nat) (bs : List Byte) : controlOf (putBytes p s a bs) = controlOf s :=
  controlOf_of_beyondMem (beyondMem_putBytes ..)
@[simp] theorem controlOf_writeBytes (m : Meet) (a : Nat) (bs : List Byte) : controlOf (writeBytes s m a bs).1 = controlOf s :=
  controlOf_of_beyondMem (beyondMem_writeBytes ..)
@[simp] theorem controlOf_extWrite (a : Nat) (bs : List Byte) (m : Meet) : controlOf (extWrite s a bs m).1 = controlOf s :=
  controlOf_of_beyondMem (beyondMem_extWrite ..)

@[simp] theorem controlOf_writeRows (m : Meet) (l : List (Nat × List Byte)) : controlOf (writeRows m l s).1 = controlOf s := by
  induction l generalizing s with
  | nil => rfl
  | cons p l ih => simp only [writeRows, ih, controlOf_writeBytes]

@[simp] theorem controlOf_scramble (rs : List (Nat × Nat)) : controlOf (scramble s rs) = controlOf s := by
  simp [scramble]

@[simp] theorem controlOf_atomicAt (m : Meet) (a : Nat) (size8 : Bool) (aop opd cmp : Nat) :
    controlOf (atomicAt s m a size8 aop opd cmp).1 = controlOf s := by
  unfold atomicAt
  dsimp only
  split
  · simp
  · simp

/-! ### Engine state -/

@[simp] theorem controlOf_setCtx (c q x : Nat) (v : QCtx) : controlOf (setCtx s c q x v) = controlOf s := controlOf_mk ..
@[simp] theorem controlOf_setCore (c : Nat) (v : CoreSt) : controlOf (setCore s c v) = controlOf s := controlOf_mk ..
@[simp] theorem controlOf_setChan (g : Nat) (v : Chan) : controlOf (setChan s g v) = controlOf s := controlOf_mk ..
@[simp] theorem controlOf_setRing (n : Nat) (v : RingSt) : controlOf (setRing s n v) = controlOf s := controlOf_mk ..
@[simp] theorem controlOf_setAr (c q x r : Nat) (v : AReg) : controlOf (setAr s c q x r v) = controlOf s := controlOf_mk ..
@[simp] theorem controlOf_xSet (w : Who) (r : Nat) (v : Word) : controlOf (xSet s w r v) = controlOf s := controlOf_mk ..
@[simp] theorem controlOf_setFlag (c f : Nat) (v : BitVec 16) : controlOf (setFlag s c f v) = controlOf s := controlOf_mk ..
@[simp] theorem controlOf_setTally (u n : Nat) (v : BitVec 48) : controlOf (setTally s u n v) = controlOf s := controlOf_mk ..
@[simp] theorem controlOf_setRun (w : Who) (r : Run) : controlOf (setRun s w r) = controlOf s := controlOf_mk ..
@[simp] theorem controlOf_setLu (w : Who) (i : Nat) (f : LRun → LRun) : controlOf (setLu s w i f) = controlOf s := controlOf_mk ..
@[simp] theorem controlOf_stir (c : Nat) : controlOf (stir s c) = controlOf s := controlOf_mk ..
@[simp] theorem controlOf_setTy (c e : Nat) (t : AccTy) : controlOf (setTy s c e t) = controlOf s := controlOf_mk ..
@[simp] theorem controlOf_accPut (c e : Nat) (vs : List (BitVec 48)) : controlOf (accPut s c e vs) = controlOf s := controlOf_mk ..
@[simp] theorem controlOf_accZero (c e : Nat) (t : AccTy) : controlOf (accZero s c e t) = controlOf s := controlOf_mk ..
@[simp] theorem controlOf_raiseNum (c : Nat) (f : NumFlags) : controlOf (raiseNum s c f) = controlOf s := controlOf_mk ..
@[simp] theorem controlOf_partCycles (c cyc stall : Nat) : controlOf (partCycles s c cyc stall) = controlOf s := by
  simp [partCycles, draw]
@[simp] theorem controlOf_fetchNext (n m : Nat) : controlOf (fetchNext s n m) = controlOf s := controlOf_mk ..
@[simp] theorem controlOf_keepLine (n m : Nat) (bs : List Byte) : controlOf (keepLine s n m bs) = controlOf s := controlOf_mk ..
@[simp] theorem controlOf_addLaunch (l : Launch) : controlOf (addLaunch s l) = controlOf s := controlOf_mk ..
@[simp] theorem controlOf_heldOnly (t : State) : controlOf (heldOnly s t) = controlOf s := controlOf_mk ..
@[simp] theorem controlOf_putAsk (k : Ask) : controlOf (putAsk s k) = controlOf s := controlOf_mk ..

@[simp] theorem controlOf_accKill (c : Nat) (es : List Nat) : controlOf (accKill s c es) = controlOf s := by
  exact controlOf_foldl fun _ _ => controlOf_accZero ..

@[simp] theorem controlOf_accSat (c e : Nat) : controlOf (accSat s c e) = controlOf s := by
  unfold accSat
  dsimp only
  split
  · rfl
  · rfl

@[simp] theorem controlOf_srTake (c rnd n : Nat) : controlOf (srTake s c rnd n) = controlOf s := by
  unfold srTake
  split
  · rfl
  · rfl

@[simp] theorem controlOf_parityHit (w : Who) (k : Cmd) : controlOf (parityHit s w k) = controlOf s := by
  unfold parityHit
  dsimp only
  split
  · simp
  · simp

@[simp] theorem controlOf_addTally (u n amount : Nat) : controlOf (addTally s u n amount) = controlOf s := by
  unfold addTally
  dsimp only
  split
  · rfl
  · rfl

@[simp] theorem controlOf_signalFlag (c f n : Nat) : controlOf (signalFlag s c f n) = controlOf s := by
  unfold signalFlag
  dsimp only
  split
  · rfl
  · rfl

@[simp] theorem controlOf_advanceAll (c q x : Nat) (k : Cmd) (roles : List Nat) (last : Bool) :
    controlOf (advanceAll s c q x k roles last) = controlOf s := by
  exact controlOf_foldl fun _ _ => controlOf_setAr ..

@[simp] theorem controlOf_engineRest (w : Who) (cyc : Nat) : controlOf (engineRest s w cyc) = controlOf s := by
  unfold engineRest
  dsimp only
  split
  · rfl
  · rfl

@[simp] theorem controlOf_markWait (w : Who) : controlOf (markWait s w) = controlOf s := by
  unfold markWait
  repeat' split
  all_goals rfl

@[simp] theorem controlOf_takeCounts (c q f n : Nat) : controlOf (takeCounts s c q f n) = controlOf s := by
  refine (controlOf_foldl fun t p => ?_).trans (controlOf_setFlag ..)
  repeat' split
  all_goals rfl

@[simp] theorem controlOf_luCommit (w : Who) (os : List Open) : controlOf (luCommit s w os) = controlOf s := by
  refine foldl_proj fun t o => ?_
  dsimp only
  repeat' split
  all_goals rfl

@[simp] theorem controlOf_arwFlush (c x p : Nat) : controlOf (arwFlush s c x p) = controlOf s := by
  exact (controlOf_setCtx ..).trans (controlOf_foldl fun _ _ => controlOf_setAr ..)

/-! ### Posted writes and held accesses -/

@[simp] theorem controlOf_holdPush (g : Nat) (x : Access) : controlOf (holdPush s g x) = controlOf s := by
  unfold holdPush
  dsimp only
  split
  · rfl
  · rfl

@[simp] theorem controlOf_askMore (k : Ask) (x : Access) : controlOf (askMore s k x) = controlOf s := by
  simp [askMore]

@[simp] theorem controlOf_askNew (o : Owner) (fold : Option Nat) (x : Access) : controlOf (askNew s o fold x) = controlOf s := by
  simp [askNew]

@[simp] theorem controlOf_askPush (o : Owner) (fold : Option Nat) (x : Access) : controlOf (askPush s o fold x) = controlOf s := by
  unfold askPush
  split
  · simp
  · simp

@[simp] theorem controlOf_dropAsks (o : Owner) : controlOf (dropAsks s o) = controlOf s := by
  unfold dropAsks
  split
  · rfl
  · rfl

@[simp] theorem controlOf_sendReqs (rs : List (Nat × Nat)) (k : Ask) : controlOf (sendReqs rs s k).1 = controlOf s := by
  induction rs generalizing s k with
  | nil => rfl
  | cons r rs ih =>
    unfold sendReqs
    repeat' split
    case isTrue => rfl
    case isTrue => rw [ih, controlOf_holdPush]
    case isFalse => exact ih ..

@[simp] theorem controlOf_askStart (o : Owner) (fold : Option Nat) (rs : List (Nat × Nat)) : controlOf (askStart s o fold rs) = controlOf s := by
  simp [askStart]

@[simp] theorem controlOf_askRead (o : Owner) (fold : Option Nat) (rs : List (Nat × Nat)) : controlOf (askRead s o fold rs).1 = controlOf s := by
  unfold askRead
  split
  · rfl
  · split
    · rfl
    · exact controlOf_askStart ..

@[simp] theorem controlOf_putCaps (cs : List Cap) : controlOf (putCaps s cs) = controlOf s := by
  simp [putCaps]

@[simp] theorem controlOf_onCaps {α : Type} {cs : List Cap} {f : State → State × α} (h : ∀ t, controlOf (f t).1 = controlOf t) :
    controlOf (onCaps s cs f).1 = controlOf s := by
  unfold onCaps
  split
  · exact h s
  · simp [h]

@[simp] theorem controlOf_regCharge (f k st n : Nat) : controlOf (regCharge s f k st n) = controlOf s := by
  unfold regCharge
  split
  · rfl
  · rfl

@[simp] theorem controlOf_regPay (f ga n : Nat) (write : Bool) : controlOf (regPay s f ga n write) = controlOf s := by
  simp [regPay]

@[simp] theorem controlOf_hostPost (fold ha : Nat) (bs : List Byte) (relaxed : Bool) : controlOf (hostPost s fold ha bs relaxed).1 = controlOf s := by
  unfold hostPost
  repeat' split
  all_goals rfl

@[simp] theorem controlOf_dramWrite (fold : Option Nat) (tally : Option (Nat × Nat × Nat)) (a : Nat) (bs : List Byte) (host : Option Nat)
    (mask : Byte) (launch : Option Nat) : controlOf (dramWrite s fold tally a bs host mask launch) = controlOf s := by
  unfold dramWrite
  extract_lets whole id count r
  have counted (t : State) (n : Nat) : controlOf (count t n) = controlOf t := by
    dsimp only [count]
    repeat' split
    all_goals simp
  have written : controlOf r.1 = controlOf s := by
    refine controlOf_foldl_fst fun q i => ?_
    dsimp only
    repeat' split
    all_goals simp [counted]
  clear_value r
  split
  · exact written
  · split
    · exact written
    · split
      · split
        · exact written
        · exact (controlOf_addTally ..).trans written
      · exact (controlOf_putAsk ..).trans ((controlOf_mk ..).trans written)

@[simp] theorem controlOf_devWrite (fold : Option Nat) (ga : Nat) (bs : List Byte) : controlOf (devWrite s fold ga bs).1 = controlOf s := by
  unfold devWrite
  dsimp only
  repeat' split
  all_goals simp

@[simp] theorem controlOf_regWrite (f ga : Nat) (bs : List Byte) : controlOf (regWrite s f ga bs) = controlOf s := by
  unfold regWrite
  dsimp only
  split
  · simp
  · simp

/-! ### Records and the end of a command -/

@[simp] theorem controlOf_ringIrq (n : Nat) : controlOf (ringIrq s n) = controlOf s := controlOf_sendMsix ..

@[simp] theorem controlOf_haltMember (n m : Nat) : controlOf (haltMember s n m) = controlOf s := by
  simp [haltMember]

@[simp] theorem controlOf_haltRing (n : Nat) : controlOf (haltRing s n) = controlOf s := by
  refine (controlOf_foldl fun t c => ?_).trans rfl
  dsimp only
  split
  · simp
  · rfl

@[simp] theorem controlOf_writeRec (n : Nat) (r : Rec) : controlOf (writeRec s n r) = controlOf s := by
  unfold writeRec
  dsimp only
  repeat' split
  all_goals simp

@[simp] theorem controlOf_emitRec (c q x : Nat) (r : Rec) : controlOf (emitRec s c q x r) = controlOf s := by
  unfold emitRec
  dsimp only
  split
  · simp
  · simp

@[simp] theorem controlOf_emitSvc (n : Nat) (r : Rec) : controlOf (emitSvc s n r) = controlOf s := by
  unfold emitSvc
  dsimp only
  split
  · simp
  · simp

@[simp] theorem controlOf_trace (w : Who) (k : Cmd) (status : Nat) (done : Bool) : controlOf (trace s w k status done) = controlOf s := by
  unfold trace
  dsimp only
  repeat' split
  all_goals simp

@[simp] theorem controlOf_settle (w : Who) (k : Cmd) (r : Rec) : controlOf (settle s w k r) = controlOf s := by
  unfold settle
  dsimp only
  split
  · simp
  · simp

@[simp] theorem controlOf_drainOpens (w : Who) (n : Nat) : controlOf (drainOpens w n s) = controlOf s := by
  induction n generalizing s with
  | zero => rfl
  | succ n ih =>
    unfold drainOpens
    dsimp only
    repeat' split
    all_goals simp [ih]

@[simp] theorem controlOf_endCmd (w : Who) (k : Cmd) (tag status inner outer count : Nat) :
    controlOf (endCmd s w k tag status inner outer count) = controlOf s := by
  unfold endCmd
  dsimp only
  repeat' split
  all_goals simp

@[simp] theorem controlOf_dropLaunch (id : Nat) : controlOf (dropLaunch s id) = controlOf s := by
  unfold dropLaunch
  split
  case h_1 => rfl
  case h_2 =>
    refine controlOf_foldl fun t e => ?_
    dsimp only
    repeat' split
    all_goals rfl

@[simp] theorem controlOf_dropLaunches (w : Who) : controlOf (dropLaunches s w) = controlOf s := by
  unfold dropLaunches
  dsimp only
  rw [controlOf_setCtx, controlOf_dropAsks]
  refine controlOf_foldl fun t o => ?_
  repeat' split
  all_goals simp

@[simp] theorem controlOf_qfault (w : Who) (tag status otherTag otherQ detail cause : Nat) :
    controlOf (qfault s w tag status otherTag otherQ detail cause) = controlOf s := by
  unfold qfault
  dsimp only
  split
  · rfl
  · rfl

@[simp] theorem controlOf_endCtx (c q x st : Nat) : controlOf (endCtx s c q x st) = controlOf s := by
  unfold endCtx
  dsimp only
  repeat' split
  all_goals simp

@[simp] theorem controlOf_cancelCtx (c q x : Nat) : controlOf (cancelCtx s c q x) = controlOf s := controlOf_endCtx ..

@[simp] theorem controlOf_faultRing (w : Who) (qs : List Nat) : controlOf (faultRing s w qs) = controlOf s := by
  unfold faultRing
  dsimp only
  refine (controlOf_foldl fun t q => ?_).trans (by simp)
  split
  · simp
  · simp

@[simp] theorem controlOf_faultQueue (w : Who) (k : Cmd) (tag status inner outer count : Nat) (why : Why) :
    controlOf (faultQueue s w k tag status inner outer count why) = controlOf s := by
  simp [faultQueue]

@[simp] theorem controlOf_faultCmd (w : Who) (k : Cmd) (tag status inner outer count : Nat) (why : Why) :
    controlOf (faultCmd s w k tag status inner outer count why) = controlOf s := by
  simp [faultCmd]

end Sys2Proof.Machine


/-! ## The frame of the queues' commands (O58) -/

namespace Sys2Proof.Machine

variable {s : State}

/-- Where a row answers a next state, what stands above the engines is as in s. -/
def KeepsControl (s : State) (o : Out State) : Prop := ∀ t, o = .next t → controlOf t = controlOf s

theorem keepsControl_next {t : State} (h : controlOf t = controlOf s) : KeepsControl s (.next t) := fun _ e => by cases e; exact h

theorem keepsControl_fault {e : Fault} : KeepsControl s (.fault e) := fun _ h => nomatch h

theorem keepsControl_ite {p : Prop} [Decidable p] {a b : Out State} (ha : KeepsControl s a) (hb : KeepsControl s b) :
    KeepsControl s (if p then a else b) := by
  split
  · exact ha
  · exact hb

theorem keepsControl_same : KeepsControl s (.next s) := keepsControl_next rfl

theorem keepsControl_onCore {c : Nat} {o : Out State} (h : KeepsControl s o) : KeepsControl s (onCore s c o) :=
  keepsControl_ite h keepsControl_fault

theorem controlOf_of_askRead {u : State} {o : Owner} {fold : Option Nat} {rs : List (Nat × Nat)} {r : Option (List Cap)}
    (h : askRead s o fold rs = (u, r)) : controlOf u = controlOf s := by
  have e := controlOf_askRead (s := s) o fold rs
  rw [h] at e
  exact e

theorem controlOf_of_onCaps {α : Type} {u : State} {cs : List Cap} {f : State → State × α} {v : α} (h : onCaps s cs f = (u, v))
    (hf : ∀ t, controlOf (f t).1 = controlOf t) : controlOf u = controlOf s := by
  have e := controlOf_onCaps (s := s) (cs := cs) hf
  rw [h] at e
  exact e

/-! ### Slots: the common and the scalar commands -/

@[simp] theorem controlOf_issue (w : Who) (k : Cmd) : controlOf (issue s w k) = controlOf s := by
  simp [issue]

@[simp] theorem controlOf_slotBegin (t : Slot) : controlOf (slotBegin s t) = controlOf s := by
  unfold slotBegin
  repeat' split
  all_goals simp

@[simp] theorem controlOf_slotFault (t : Slot) (st count : Nat) (why : Why) : controlOf (slotFault s t st count why) = controlOf s := by
  unfold slotFault
  dsimp only
  repeat' split
  all_goals simp

@[simp] theorem controlOf_blkDone (t : Slot) (next : Option Nat) : controlOf (blkDone s t next) = controlOf s := by
  unfold blkDone
  extract_lets u v x
  have hu : controlOf u = controlOf s := by
    show controlOf (if cSigen t.cmd = true then _ else s) = _
    split
    · simp
    · rfl
  have hv : controlOf v = controlOf s := (controlOf_trace ..).trans hu
  clear_value v x
  split
  · dsimp only
    split
    · simp [hv]
    · simp [hv]
  · exact hv

@[simp] theorem controlOf_slotDone (t : Slot) (next : Option Nat) (count : Nat) : controlOf (slotDone s t next count) = controlOf s := by
  unfold slotDone
  repeat' split
  all_goals simp

@[simp] theorem controlOf_slotHold (t : Slot) (aux : Nat) : controlOf (slotHold s t aux) = controlOf s := by
  unfold slotHold
  split
  · simp
  · rfl

@[simp] theorem controlOf_slotVoid (t : Slot) : controlOf (slotVoid s t) = controlOf s := by
  unfold slotVoid
  split
  · simp
  · simp

@[simp] theorem controlOf_blkSkip (t : Slot) : controlOf (blkSkip s t) = controlOf s := by
  simp [blkSkip]

@[simp] theorem controlOf_hurdleClash (t : Slot) (qs : List Nat) : controlOf (hurdleClash s t qs) = controlOf s := by
  unfold hurdleClash
  dsimp only
  rw [controlOf_faultRing]
  refine (controlOf_foldl fun u q => ?_).trans (by simp)
  repeat' split
  all_goals simp

theorem keepsControl_beginAt {op q : Nat} {bad : State → Slot → Option Nat} {go : Slot → State → State} {t : Option Slot}
    (h : ∀ x u, controlOf (go x u) = controlOf u) : KeepsControl s (beginAt op q bad go t s) := by
  unfold beginAt
  split
  · exact keepsControl_same
  · dsimp only
    repeat' split
    all_goals exact keepsControl_next (by simp [h])

theorem keepsControl_beginOp {op q c : Nat} {bad : State → Slot → Option Nat} {go : Slot → State → State}
    (h : ∀ x u, controlOf (go x u) = controlOf u) : KeepsControl s (beginOp op q bad go c s) :=
  keepsControl_onCore (keepsControl_ite keepsControl_fault (keepsControl_beginAt h))

theorem keepsControl_scRow {op c : Nat} {bad : Slot → Bool} {ready : State → Slot → Bool} {regs : Cmd → List Nat} {go : Slot → State → State}
    (h : ∀ x u, controlOf (go x u) = controlOf u) : KeepsControl s (scRow op bad ready regs go c s) := by
  refine keepsControl_onCore ?_
  split
  · exact keepsControl_same
  · refine keepsControl_ite keepsControl_same (keepsControl_beginAt fun x u => ?_)
    dsimp only
    repeat' split
    all_goals simp [h]

theorem hurdle_keepsControl (c q : Nat) : KeepsControl s (execHurdle c q s) := by
  refine keepsControl_beginOp fun x u => ?_
  dsimp only
  split
  · simp
  · simp

theorem hurdlePass_keepsControl (c q : Nat) : KeepsControl s (execHurdlePass c q s) := by
  refine keepsControl_onCore ?_
  split
  · exact keepsControl_same
  · refine keepsControl_ite (keepsControl_next ?_) keepsControl_same
    refine (controlOf_foldl fun u p => ?_).trans ?_
    · repeat' split
      all_goals simp
    · split
      · simp
      · rfl

theorem signal_keepsControl (c q : Nat) : KeepsControl s (execSignal c q s) := by
  unfold execSignal
  split
  · refine keepsControl_ite (keepsControl_onCore keepsControl_same) (keepsControl_beginOp fun x u => ?_)
    split
    · simp
    · simp
  · exact keepsControl_beginOp fun _ _ => rfl

theorem wait_keepsControl (c q : Nat) : KeepsControl s (execWait c q s) := by
  refine keepsControl_beginOp fun x u => ?_
  split
  · simp
  · simp

theorem waitPass_keepsControl (c q : Nat) : KeepsControl s (execWaitPass c q s) := by
  refine keepsControl_onCore ?_
  split
  · refine keepsControl_ite keepsControl_same (keepsControl_next ?_)
    split
    · simp
    · simp
  · exact keepsControl_same

theorem waitTallyPass_keepsControl (c q : Nat) : KeepsControl s (execWaitTallyPass c q s) := by
  refine keepsControl_onCore ?_
  split
  · exact keepsControl_ite (keepsControl_next (by simp)) keepsControl_same
  · exact keepsControl_same

theorem waitTallyTimeout_keepsControl (c q : Nat) : KeepsControl s (execWaitTallyTimeout c q s) := by
  refine keepsControl_onCore ?_
  split
  · exact keepsControl_ite (keepsControl_next (by simp)) keepsControl_same
  · exact keepsControl_same

theorem controlOf_luTimeout (w : Who) (i rep : Nat) : controlOf (luTimeout s w i rep) = controlOf s := by
  unfold luTimeout
  split
  · rfl
  · simp

theorem ctxTimeout_keepsControl {c q x : Nat} {t : State} (h : ctxTimeout s c q x = some t) : controlOf t = controlOf s := by
  unfold ctxTimeout at h
  dsimp only at h
  split at h
  · split at h
    · cases h; simp
    · split at h
      · obtain ⟨_, -, rfl⟩ := Option.map_eq_some_iff.mp h
        simp
      · cases h; simp
  · split at h
    · obtain ⟨_, -, rfl⟩ := Option.map_eq_some_iff.mp h
      exact controlOf_luTimeout ..
    · cases h

theorem resourceWaitTimeout_keepsControl (c q : Nat) : KeepsControl s (execResourceWaitTimeout c q s) := by
  refine keepsControl_onCore (keepsControl_ite keepsControl_fault (keepsControl_next ?_))
  cases e : (List.range 8).findSome? (ctxTimeout s c q) with
  | none => rfl
  | some t =>
    obtain ⟨x, -, h⟩ := List.exists_of_findSome?_eq_some e
    exact ctxTimeout_keepsControl h

theorem fence_keepsControl (c q : Nat) : KeepsControl s (execFence c q s) := by
  unfold execFence
  dsimp only
  split
  · exact keepsControl_ite (keepsControl_onCore keepsControl_same) (keepsControl_beginOp fun x u => by simp)
  · exact keepsControl_beginOp fun _ _ => rfl

theorem scAlu_keepsControl (c : Nat) : KeepsControl s (execScAlu c s) := by
  refine keepsControl_scRow fun _ _ => ?_
  simp only [controlOf_slotDone, controlOf_xSet]

theorem scArw_keepsControl (c : Nat) : KeepsControl s (execScArw c s) := by
  refine keepsControl_scRow fun _ _ => ?_
  simp only [controlOf_slotDone, controlOf_setCtx]

theorem scRdt_keepsControl (c : Nat) : KeepsControl s (execScRdt c s) := by
  refine keepsControl_scRow fun _ _ => ?_
  simp only [controlOf_slotDone, controlOf_xSet]

theorem controlOf_scLoad (w : Who) (k : Cmd) : controlOf (scLoad s w k).1 = controlOf s := by
  unfold scLoad
  dsimp only
  repeat' split
  all_goals simp

theorem scLd_keepsControl (c : Nat) : KeepsControl s (execScLd c s) := by
  refine keepsControl_scRow fun x u => ?_
  split
  · simp
  · dsimp only
    split
    next _ v hr => simp [controlOf_of_askRead hr]
    next _ v got hr =>
      split
      next _ t st hc => simp [controlOf_of_onCaps hc fun _ => controlOf_scLoad .., controlOf_of_askRead hr]
      next _ t val hc => simp [controlOf_of_onCaps hc fun _ => controlOf_scLoad .., controlOf_of_askRead hr]

theorem scBr_keepsControl (c : Nat) : KeepsControl s (execScBr c s) := by
  refine keepsControl_scRow fun x u => ?_
  dsimp only
  split
  · simp
  · simp

theorem scBlock_keepsControl (c : Nat) : KeepsControl s (execScBlock c s) := by
  unfold execScBlock
  extract_lets fetched run
  have hrun : KeepsControl s run := by
    refine keepsControl_beginOp fun x u => ?_
    split
    · simp
    · rfl
  split
  · exact keepsControl_ite (keepsControl_onCore keepsControl_same) hrun
  · exact hrun

theorem scRdtally_keepsControl (c : Nat) : KeepsControl s (execScRdtally c s) := by
  refine keepsControl_scRow fun x u => ?_
  dsimp only
  split
  · simp
  · simp

theorem controlOf_atomicDo (w : Who) (k : Cmd) (a : Nat) (size8 : Bool) (aop : Nat) (opd cmp : Word) :
    controlOf (atomicDo s w k a size8 aop opd cmp).1 = controlOf s := by
  unfold atomicDo
  dsimp only
  repeat' split
  all_goals simp

theorem controlOf_queueAtomic (w : Who) (k : Cmd) (a : Nat) (size8 : Bool) (aop : Nat) (opd cmp : Word) :
    controlOf (queueAtomic s w k a size8 aop opd cmp).1 = controlOf s := by
  unfold queueAtomic
  dsimp only
  repeat' split
  all_goals simp [controlOf_atomicDo]

theorem scAmo_keepsControl (c : Nat) : KeepsControl s (execScAmo c s) := by
  refine keepsControl_scRow fun x u => ?_
  dsimp only
  split
  · simp
  · have atomic {v : State} {r : Option (Except Nat Nat)} {w : Who} {k : Cmd} {a aop : Nat} {size8 : Bool} {opd cmp : Word}
        (h : queueAtomic u w k a size8 aop opd cmp = (v, r)) : controlOf v = controlOf u := by
      have e := controlOf_queueAtomic (s := u) w k a size8 aop opd cmp
      rw [h] at e
      exact e
    split
    next _ v h => simp [atomic h]
    next _ v st h => simp [atomic h]
    next _ v old h => simp [atomic h]

theorem palWriteApply_keepsControl (c : Nat) : KeepsControl s (execPalWriteApply c s) := by
  refine keepsControl_onCore ?_
  split
  · refine keepsControl_ite (keepsControl_next ?_) keepsControl_same
    rw [controlOf_slotDone, controlOf_rset, controlOf_foldl fun _ _ => controlOf_rset ..]
  · exact keepsControl_same

/-! ### Launches -/

theorem controlOf_bind {α β : Type} {g : Got α} {f : State → α → Got β} (hg : controlOf g.st = controlOf s)
    (hf : ∀ t v, controlOf (f t v).st = controlOf t) : controlOf (g.bind f).st = controlOf s := by
  cases g with
  | bad t st => exact hg
  | held t => exact hg
  | ok t v => exact (hf t v).trans hg

theorem controlOf_guard (bad : Bool) (st : Nat) : controlOf (Got.guard s bad st).st = controlOf s := by
  unfold Got.guard
  split
  · rfl
  · rfl

theorem controlOf_launchRead (w : Who) (k : Cmd) (ar : Option AReg) (a n : Nat) :
    controlOf (launchRead s w k ar a n).st = controlOf s := by
  unfold launchRead
  split
  · rfl
  · split
    next _ v hr => exact controlOf_of_askRead hr
    next _ v got hr =>
      split
      next _ t hc => exact (controlOf_of_onCaps hc fun _ => controlOf_eccTouch ..).trans (controlOf_of_askRead hr)
      next _ t bs hc => exact (controlOf_of_onCaps hc fun _ => controlOf_eccTouch ..).trans (controlOf_of_askRead hr)

theorem controlOf_readAll {rd : State → Nat → Got (List Byte)} (h : ∀ t a, controlOf (rd t a).st = controlOf t)
    (l : List Nat) (acc : List (List Byte)) : controlOf (readAll rd l s acc).st = controlOf s := by
  induction l generalizing s acc with
  | nil => rfl
  | cons a l ih =>
    unfold readAll
    have e := h s a
    split
    next _ t st hr => rw [hr] at e; exact e
    next _ t hr => rw [hr] at e; exact e
    next _ t v hr => rw [hr] at e; exact (ih ..).trans e

theorem controlOf_launchOf (w : Who) (k : Cmd) (ar : AReg) (rep : Nat) : controlOf (launchOf s w k ar rep).st = controlOf s := by
  unfold launchOf
  refine controlOf_bind (controlOf_launchRead ..) fun t db => ?_
  refine controlOf_bind (controlOf_guard ..) fun t _ => ?_
  split
  · rfl
  · refine controlOf_bind (controlOf_launchRead ..) fun t tb => ?_
    refine controlOf_bind (controlOf_guard ..) fun t _ => ?_
    refine controlOf_bind (controlOf_readAll (fun _ _ => controlOf_launchRead ..) ..) fun t rs => ?_
    refine controlOf_bind (controlOf_launchRead ..) fun t pb => ?_
    refine controlOf_bind (controlOf_launchRead ..) fun t bb => ?_
    refine controlOf_bind (controlOf_guard ..) fun t _ => ?_
    dsimp only
    repeat' split
    all_goals rfl

theorem controlOf_aItem (w : Who) (k : Cmd) (h : AHead) (g : Geo) (chans : List Nat) (ar1 : AReg) (i : Nat) (d : List Word) :
    controlOf (aItem w k h g chans ar1 i d s).st = controlOf s := by
  unfold aItem
  refine controlOf_bind (controlOf_guard ..) fun t _ => ?_
  refine controlOf_bind (controlOf_launchRead ..) fun t qb => ?_
  refine controlOf_bind (controlOf_readAll (fun _ _ => controlOf_launchRead ..) ..) fun t es => ?_
  refine controlOf_bind (controlOf_guard ..) fun t _ => ?_
  refine controlOf_bind (controlOf_guard ..) fun t _ => ?_
  split
  · rfl
  · rfl

theorem controlOf_aItems (w : Who) (k : Cmd) (h : AHead) (g : Geo) (chans : List Nat) (ar1 : AReg) (db : List Word) (l : List Nat) :
    controlOf (aItems w k h g chans ar1 db l s).st = controlOf s := by
  induction l generalizing s with
  | nil => rfl
  | cons i l ih =>
    refine controlOf_bind (controlOf_guard ..) fun t _ => ?_
    refine controlOf_bind (controlOf_aItem ..) fun t p => ?_
    exact controlOf_bind ih fun t ps => rfl

@[simp] theorem controlOf_aEmpties (fold id : Nat) (p : APlan) : controlOf (aEmpties s fold id p) = controlOf s := by
  refine controlOf_foldl fun t u => ?_
  refine controlOf_foldl fun t hf => ?_
  refine controlOf_foldl fun t i => ?_
  dsimp only
  repeat' split
  all_goals simp

theorem controlOf_attnOf (w : Who) (k : Cmd) (ar ar1 : AReg) (rep : Nat) : controlOf (attnOf s w k ar ar1 rep).st = controlOf s := by
  unfold attnOf
  refine controlOf_bind (controlOf_launchRead ..) fun t hb => ?_
  refine controlOf_bind (controlOf_guard ..) fun t _ => ?_
  split
  · rfl
  · refine controlOf_bind (controlOf_guard ..) fun t _ => ?_
    refine controlOf_bind (controlOf_guard ..) fun t _ => ?_
    split
    · rfl
    · refine controlOf_bind (controlOf_guard ..) fun t _ => ?_
      refine controlOf_bind (controlOf_guard ..) fun t _ => ?_
      refine controlOf_bind (controlOf_launchRead ..) fun t db => ?_
      refine controlOf_bind (controlOf_aItems ..) fun t ps => ?_
      exact (controlOf_foldl fun _ _ => controlOf_aEmpties ..).trans (controlOf_mk ..)

@[simp] theorem controlOf_luIssue (w : Who) (k : Cmd) : controlOf (luIssue s w k) = controlOf s := by
  simp [luIssue]

@[simp] theorem controlOf_luTake (w : Who) (k : Cmd) : controlOf (luTake s w k) = controlOf s := by
  unfold luTake
  dsimp only
  repeat' split
  all_goals simp

theorem controlOf_luRepeats {op : Nat} {w : Who} {mk : State → Who → Cmd → AReg → AReg → Nat → Got (List Launch × Nat)}
    (h : ∀ t w k ar ar1 r, controlOf (mk t w k ar ar1 r).st = controlOf t) (n : Nat) : controlOf (luRepeats op w mk n s) = controlOf s := by
  induction n generalizing s with
  | zero => rfl
  | succ n ih =>
    unfold luRepeats
    split
    · rfl
    · next i k l _ =>
      split
      · rfl
      · dsimp only
        have e := h s w k (arAfter k 0 l.ar l.pos) (arAfter k 1 l.ar1 l.pos) l.pos
        split
        next t st hr => rw [hr] at e; exact (controlOf_setLu ..).trans ((controlOf_dropAsks ..).trans e)
        next t hr => simp
        next t ls items hr =>
          rw [hr] at e
          rw [ih, controlOf_setLu, controlOf_foldl fun _ _ => controlOf_addLaunch .., controlOf_dropAsks]
          exact e

theorem keepsControl_luRow {op c n : Nat} {check : State → Who → Cmd → Option Nat}
    {mk : State → Who → Cmd → AReg → AReg → Nat → Got (List Launch × Nat)}
    (h : ∀ t w k ar ar1 r, controlOf (mk t w k ar ar1 r).st = controlOf t) : KeepsControl s (luRow op check mk c n s) := by
  have go (t : State) (w : Who) : controlOf (luRepeats op w mk n t) = controlOf t := controlOf_luRepeats h n
  refine keepsControl_onCore ?_
  split
  · exact keepsControl_same
  · dsimp only
    repeat' split
    all_goals exact keepsControl_next (by simp [go])

theorem nbuLaunch_keepsControl (c n : Nat) : KeepsControl s (execNbuLaunch c n s) :=
  keepsControl_luRow fun _ _ _ _ _ _ => controlOf_bind (controlOf_launchOf ..) fun _ _ => rfl

theorem attnDispatch_keepsControl (c n : Nat) : KeepsControl s (execAttnDispatch c n s) :=
  keepsControl_luRow fun _ _ _ _ _ _ => controlOf_attnOf ..

@[simp] theorem controlOf_releaseCtx (c n x : Nat) : controlOf (releaseCtx s c n x) = controlOf s := by
  simp [releaseCtx]

@[simp] theorem controlOf_finishStop (n : Nat) : controlOf (finishStop s n) = controlOf s := by
  unfold finishStop
  dsimp only
  split
  · rfl
  · split
    · rw [controlOf_setRing]
      refine controlOf_foldl fun t c => ?_
      split
      · simp
      · rfl
    · rfl

theorem controlOf_ite {p : Prop} [Decidable p] {a b : State} (ha : controlOf a = controlOf s) (hb : controlOf b = controlOf s) :
    controlOf (if p then a else b) = controlOf s := by
  split
  · exact ha
  · exact hb

theorem launchComplete_keepsControl (c : Nat) : KeepsControl s (execLaunchComplete c s) := by
  refine keepsControl_onCore ?_
  split
  · exact keepsControl_same
  · extract_lets inner count firstOpen end_ idx r ar ar1 freed x kept fin fault y halt drained
    have har : controlOf ar = controlOf s := controlOf_ite (controlOf_setAr ..) rfl
    have har1 : controlOf ar1 = controlOf s := controlOf_ite ((controlOf_setAr ..).trans har) har
    have hfreed : controlOf freed = controlOf s := (controlOf_foldl fun _ _ => controlOf_mk ..).trans har1
    have hfin : controlOf fin = controlOf s := (controlOf_setCtx ..).trans hfreed
    have hfault : controlOf fault = controlOf s := controlOf_ite ((controlOf_qfault ..).trans hfin) hfin
    have hhalt : controlOf halt = controlOf s := controlOf_ite ((controlOf_setCtx ..).trans hfault) hfault
    have hdrained : controlOf drained = controlOf s := (controlOf_drainOpens ..).trans hhalt
    clear_value drained
    exact keepsControl_ite (keepsControl_next (by simp [hdrained])) (keepsControl_next (by simp [hdrained]))

/-! ### Fetch -/

theorem controlOf_readLine (n a : Nat) : controlOf (readLine s n a).1 = controlOf s := by
  unfold readLine
  dsimp only
  repeat' split
  all_goals simp

@[simp] theorem controlOf_fetchFault (n m c : Nat) (tag status count : Nat) (irq : Bool) :
    controlOf (fetchFault s n m c tag status count irq) = controlOf s := by
  unfold fetchFault
  dsimp only
  repeat' split
  all_goals simp

theorem controlOf_fetchLine (n m : Nat) : controlOf (fetchLine s n m).st = controlOf s := by
  unfold fetchLine
  dsimp only
  split
  · rfl
  · split
    · rfl
    · split
      next _ v hr => exact controlOf_of_askRead hr
      next _ v got hr =>
        split
        next _ t st hc =>
          simp [Got.st, controlOf_of_onCaps hc fun _ => controlOf_readLine .., controlOf_of_askRead hr]
        next _ t bs hc =>
          simp [Got.st, controlOf_of_onCaps hc fun _ => controlOf_readLine .., controlOf_of_askRead hr]

theorem controlOf_dispatch {n m c x : Nat} {k : Cmd} {t : State} (h : dispatch s n m c x k = some t) : controlOf t = controlOf s := by
  unfold dispatch at h
  dsimp only at h
  repeat' split at h
  all_goals cases h
  all_goals simp

theorem fetchDispatch_keepsControl (n m : Nat) : KeepsControl s (execFetchDispatch n m s) := by
  refine keepsControl_ite keepsControl_same ?_
  dsimp only
  split
  · exact keepsControl_same
  · have e := controlOf_fetchLine (s := s) n m
    split
    next _ t hr => rw [hr] at e; exact keepsControl_next e
    next _ t st hr => rw [hr] at e; exact keepsControl_next ((controlOf_fetchFault ..).trans e)
    next _ t bs hr =>
      rw [hr] at e
      split
      next _ u hd => exact keepsControl_next ((controlOf_dispatch hd).trans e)
      next => exact keepsControl_next ((controlOf_keepLine ..).trans e)

/-! ### Engine commands -/

theorem controlOf_repeats {e : Eng} (h : ∀ t w k r, controlOf (e.rep t w k r).st = controlOf t) (w : Who) (n : Nat) :
    controlOf (repeats e w n s) = controlOf s := by
  induction n generalizing s with
  | zero => rfl
  | succ n ih =>
    unfold repeats
    split
    · rfl
    · next r _ =>
      dsimp only
      have hr := h s w r.cmd r
      split
      next t e => rw [e] at hr; exact (controlOf_markWait ..).trans hr
      next t e => rw [e] at hr; exact ih.trans hr
      next t e => rw [e] at hr; exact (controlOf_endCmd ..).trans hr
      next t st inc e => rw [e] at hr; exact (controlOf_faultCmd ..).trans hr
      next t inc e =>
        rw [e] at hr
        have hr : controlOf t = controlOf s := hr
        split
        · simp [hr]
        · split
          · simp [hr]
          · simp [ih, hr]

theorem keepsControl_engineRow {e : Eng} {q op c n : Nat} {isIt : Cmd → Bool} (h : ∀ t w k r, controlOf (e.rep t w k r).st = controlOf t) :
    KeepsControl s (engineRow e q op isIt c n s) := by
  have go (t : State) (w : Who) : controlOf (repeats e w n t) = controlOf t := controlOf_repeats h w n
  refine keepsControl_onCore ?_
  split
  · exact keepsControl_same
  · dsimp only
    repeat' split
    all_goals exact keepsControl_next (by simp [go])

theorem controlOf_mmaRep (w : Who) (k : Cmd) (r : Run) : controlOf (mmaRep s w k r).st = controlOf s := by
  unfold mmaRep
  extract_lets c e kl
  split
  · rfl
  · split
    · rfl
    · split
      · rfl
      · split
        · rfl
        · split
          · rfl
          · extract_lets v
            have hv : controlOf v = controlOf s := controlOf_ite (controlOf_accZero ..) rfl
            clear_value v
            split
            · exact (controlOf_accKill ..).trans ((controlOf_parityHit ..).trans ((controlOf_mk ..).trans hv))
            · rename_i sa sb x0 x1 nu t u5 u4 u3 core u2 u1 cells vs u0 vs' _
              have ht : controlOf t.1 = controlOf s := (controlOf_eccTouch ..).trans ((controlOf_mk ..).trans hv)
              have hu : controlOf u1 = controlOf s := (controlOf_setRun ..).trans <| (controlOf_setCore ..).trans <|
                (controlOf_rinc ..).trans <| (controlOf_rinc ..).trans ht
              have h0 : controlOf u0 = controlOf s := (controlOf_accPut ..).trans hu
              have lost (cyc stall : Nat) : controlOf (accKill (partCycles t.1 c cyc stall) c [e]) = controlOf s :=
                (controlOf_accKill ..).trans ((controlOf_partCycles ..).trans ht)
              clear_value u0 vs' vs cells u1 u2 core u3 u4 t nu x1 x0 sb sa
              split
              · exact lost ..
              · split
                · exact lost ..
                · split
                  · exact controlOf_ite ((controlOf_accSat ..).trans h0) h0
                  · exact (controlOf_raiseNum ..).trans ((controlOf_accPut ..).trans hu)

theorem controlOf_slRep (w : Who) (k : Cmd) (r : Run) : controlOf (slRep s w k r).st = controlOf s := by
  unfold slRep
  extract_lets c n kl ra rb fresh
  split
  · rfl
  · split
    · rfl
    · rename_i tys v a b cyc x t u2 core u1 u0 va vb q _ _ _
      have hv : controlOf v = controlOf s := controlOf_ite (controlOf_foldl fun _ _ => controlOf_accZero ..) rfl
      have ht : controlOf t.1 = controlOf s := (controlOf_eccTouch ..).trans ((controlOf_mk ..).trans hv)
      have hu : controlOf u0 = controlOf s := (controlOf_setRun ..).trans <| (controlOf_setCore ..).trans <| (controlOf_rinc ..).trans ht
      have hq : controlOf q.1 = controlOf s := by
        refine (controlOf_foldl_fst fun p tu => ?_).trans hu
        exact controlOf_accPut ..
      clear_value q t v
      split
      · exact (controlOf_accKill ..).trans ((controlOf_parityHit ..).trans ((controlOf_mk ..).trans hv))
      · split
        · exact (controlOf_accKill ..).trans ((controlOf_partCycles ..).trans ht)
        · show controlOf (match firstSat q.2 with | some e => accSat q.1 c e | none => q.1) = controlOf s
          split
          · exact (controlOf_accSat ..).trans hq
          · exact hq

theorem controlOf_aiRep (w : Who) (k : Cmd) (r : Run) : controlOf (aiRep s w k r).st = controlOf s := by
  unfold aiRep
  dsimp only
  repeat' split
  all_goals simp [RepOut.st]

theorem controlOf_adRep (w : Who) (k : Cmd) (r : Run) : controlOf (adRep s w k r).st = controlOf s := by
  unfold adRep
  extract_lets c e
  split
  · rfl
  · rename_i ty r0 r1 n p lost t u2 rows u1 u0 o _ _
    have ht : controlOf t.1 = controlOf s := controlOf_eccTouch ..
    have ho : controlOf o.1 = controlOf s :=
      (controlOf_writeRows ..).trans ((controlOf_srTake ..).trans ((controlOf_raiseNum ..).trans ht))
    have hlost (u : State) : controlOf (lost u) = controlOf u := controlOf_scramble ..
    clear_value o t lost
    split
    · rfl
    · split
      · rfl
      · split
        · exact (hlost _).trans ht
        · split
          · exact (controlOf_accKill ..).trans ((hlost _).trans ((controlOf_parityHit ..).trans ((controlOf_mk ..).trans ht)))
          · split
            · exact (hlost _).trans ho
            · exact ho

theorem controlOf_vecRep (plan : State → Who → Cmd → VPlan) (w : Who) (k : Cmd) (r : Run) :
    controlOf (vecRep plan s w k r).st = controlOf s := by
  unfold vecRep
  dsimp only
  repeat' split
  all_goals simp [RepOut.st]

theorem controlOf_bflyRep (w : Who) (k : Cmd) (r : Run) : controlOf (bflyRep s w k r).st = controlOf s := by
  unfold bflyRep
  extract_lets n eb size qs inA outA twA
  split
  · rfl
  · rename_i t cx q u _ _
    have ht : controlOf t.1 = controlOf s := controlOf_eccTouch ..
    have hq : controlOf q.1 = controlOf s := by
      refine (controlOf_foldl_fst fun p e => ?_).trans ht
      exact controlOf_writeRows ..
    have hu : controlOf u = controlOf s := (controlOf_srTake ..).trans ((controlOf_raiseNum ..).trans hq)
    clear_value q u t
    split
    · simp only [RepOut.st, controlOf_scramble, ht]
    · split
      · exact hu
      · exact hu

theorem controlOf_putPiece (w : Who) (k : Cmd) (key : Nat) (p : Piece) : controlOf (putPiece s w k key p).1 = controlOf s := by
  unfold putPiece
  split
  · exact controlOf_mk ..
  · exact controlOf_sendFab ..

theorem controlOf_readPlans (io : RegIo) (w : Who) (k : Cmd) (ps : List Plan) : controlOf (readPlans io s w k ps).1 = controlOf s := by
  unfold readPlans
  extract_lets f rs out ue cut cut' t fail v
  have hv : controlOf v = controlOf s := (controlOf_foldl fun _ _ => controlOf_regPay ..).trans (controlOf_eccTouch ..)
  exact (controlOf_mk ..).trans hv

theorem controlOf_readDesc (io : RegIo) (w : Who) (k : Cmd) : controlOf (readDesc io s w k).1 = controlOf s := by
  unfold readDesc
  extract_lets a r
  have hr : controlOf r.1 = controlOf s := controlOf_readPlans ..
  clear_value r
  split
  · exact hr
  · exact hr

theorem controlOf_xferBegin (io : RegIo) (op : Nat) (w : Who) (k : Cmd) (r : Run) :
    controlOf (xferBegin io op s w k r).st = controlOf s := by
  unfold xferBegin
  extract_lets r0 r1 a0 a1 l
  split
  · rfl
  · split
    · rfl
    · split
      · rfl
      · split
        · rfl
        · split
          · rfl
          · split
            next _ v hr => exact controlOf_of_askRead hr
            next _ v got hr =>
              extract_lets t key v' d u todo
              have ht : controlOf t.1 = controlOf s :=
                (controlOf_onCaps fun _ => controlOf_readPlans ..).trans (controlOf_of_askRead hr)
              have hd : controlOf d.2 = controlOf s := (controlOf_mk ..).trans ((controlOf_dropAsks ..).trans ((controlOf_mk ..).trans ht))
              exact (controlOf_setRun ..).trans ((controlOf_rinc ..).trans hd)

theorem controlOf_xferRep (io : RegIo) (w : Who) (k : Cmd) (r : Run) : controlOf (xferRep io 3 s w k r).st = controlOf s := by
  unfold xferRep
  extract_lets o
  split
  · split
    · rfl
    · split
      next _ v hr => exact controlOf_of_askRead hr
      next _ v got hr =>
        split
        next _ t st hc => exact (controlOf_of_onCaps hc fun _ => controlOf_readDesc ..).trans (controlOf_of_askRead hr)
        next _ t bs hc =>
          exact (controlOf_setRun ..).trans <| (controlOf_dropAsks ..).trans <|
            (controlOf_of_onCaps hc fun _ => controlOf_readDesc ..).trans (controlOf_of_askRead hr)
  · split
    · exact controlOf_xferBegin ..
    · split
      · split
        · rfl
        · split
          · rfl
          · rfl
      · rename_i g q _ _ _
        have hq : controlOf q.1 = controlOf s := by
          refine controlOf_foldl_fst fun t p => ?_
          split
          · rfl
          · exact (controlOf_regPay ..).trans (controlOf_putPiece ..)
        clear_value q
        rw [if_neg (by simp)]
        split
        · rfl
        · split
          · exact hq
          · exact (controlOf_setRun ..).trans hq

/-! ### The rows -/

theorem engRow_keepsControl {i : Instr} {e : EngRow} (hi : queueRow i = true) (he : engRow i = some e) : KeepsControl s (exec i s) := by
  rw [exec_engRow he]
  refine keepsControl_engineRow fun t w k r => ?_
  cases i <;> cases he
  case mma => exact controlOf_mmaRep ..
  case mmaSlice => exact controlOf_slRep ..
  case accInit => exact controlOf_aiRep ..
  case accDrain => exact controlOf_adRep ..
  case bfly4 => exact controlOf_bflyRep w k r
  case dmaCopy => cases hi
  case dmaPerm => cases hi
  case dmaAmo => cases hi
  case dmaPut => exact controlOf_xferRep ..
  all_goals exact controlOf_vecRep _ w k r

theorem queueRow_keepsControl {i : Instr} (hi : queueRow i = true) : KeepsControl s (exec i s) := by
  cases he : engRow i with
  | some e => exact engRow_keepsControl hi he
  | none =>
    cases i with
    | nop c q =>
      refine keepsControl_beginOp fun _ _ => ?_
      simp only [controlOf_slotDone]
    | hurdle c q => exact hurdle_keepsControl c q
    | hurdlePass c q => exact hurdlePass_keepsControl c q
    | signal c q => exact signal_keepsControl c q
    | wait c q => exact wait_keepsControl c q
    | waitPass c q => exact waitPass_keepsControl c q
    | waitTally c q =>
      refine keepsControl_beginOp fun _ _ => ?_
      simp only [controlOf_slotHold]
    | waitTallyPass c q => exact waitTallyPass_keepsControl c q
    | waitTallyTimeout c q => exact waitTallyTimeout_keepsControl c q
    | resourceWaitTimeout c q => exact resourceWaitTimeout_keepsControl c q
    | arSet c q =>
      refine keepsControl_beginOp fun _ _ => ?_
      simp only [controlOf_slotDone, controlOf_setAr]
    | fence c q => exact fence_keepsControl c q
    | scAlu c => exact scAlu_keepsControl c
    | scLd c => exact scLd_keepsControl c
    | scBr c => exact scBr_keepsControl c
    | scBlock c => exact scBlock_keepsControl c
    | scArw c => exact scArw_keepsControl c
    | scRdt c => exact scRdt_keepsControl c
    | scRdtally c => exact scRdtally_keepsControl c
    | scAmo c => exact scAmo_keepsControl c
    | palWrite c =>
      refine keepsControl_beginOp fun _ _ => ?_
      simp only [controlOf_markWait, controlOf_slotHold]
    | palWriteApply c => exact palWriteApply_keepsControl c
    | nbuLaunch c n => exact nbuLaunch_keepsControl c n
    | attnDispatch c n => exact attnDispatch_keepsControl c n
    | launchComplete c => exact launchComplete_keepsControl c
    | fetchDispatch n m => exact fetchDispatch_keepsControl n m
    | _ => simp [queueRow, he] at hi

/-- Settles O58: the frame of the queues' rows. -/
theorem queueCommandsFrame : Obligations.QueueCommandsFrame := by
  intro i s t hi h
  have e : controlOf t = controlOf s := queueRow_keepsControl hi t h
  have same {α : Type} (f : State → α) : f (controlOf t) = f (controlOf s) := congrArg f e
  exact ⟨⟨same State.devid, same State.remaps, same State.time, same State.boot, same State.srv, same State.keys, same State.fab,
    same State.trust, same State.power, same State.mgtOut, same State.hostAns, same State.epoch⟩, same State.nbus, same State.seq,
    same State.parNbu⟩

end Sys2Proof.Machine


/-! ## Arrivals and the upkeep of stored data (chapters 04, 08, 09, 15, 16) -/

namespace Sys2Proof.Machine

variable {s : State}

/-! ### Arrivals (O38) -/

theorem upArrive_served {isTap : Bool} {g k : Nat} {u : Up} (hg : g < 384) (hu : (getChan s g).up[k]? = some u) (ht : u.isTap = isTap)
    (hm : ¬((getChan s g).mode = 3 ∧ (getChan s g).hold ≠ [])) :
    let v := setChan s g { getChan s g with up := (getChan s g).up.take k ++ (getChan s g).up.drop (k + 1) }
    let r := extWrite v u.addr u.data
    upArrive isTap g k s = .next (if rangeHeld v u.addr u.data.length = true
      then dramWrite v none (some (u.core, u.tally, u.data.length)) u.addr u.data (launch := some u.launch)
      else if r.2 = true then addTally r.1 u.core u.tally u.data.length else r.1) := by
  intro v r
  have hok : ¬(!(chanOk g)) = true := by simp [chanOk, hg]
  have hc : ¬(u.isTap ≠ isTap ∨ ((getChan s g).mode = 3 ∧ (!(getChan s g).hold.isEmpty) = true)) := by simpa [ht] using hm
  unfold upArrive
  rw [if_neg hok]
  simp only [hu]
  rw [if_neg hc]
  exact (apply_ite Host.Outcome.next ..).symm

theorem putArrive_before {k : Nat} {p : PutB} (hp : s.puts[k]? = some p)
    (hb : ((s.puts.take k).any fun q => q.key == p.key && q.addr < p.addr + p.data.length && p.addr < q.addr + q.data.length) = true) :
    putArrive regIo k s = s := by
  unfold putArrive
  simp only [hp]
  exact if_pos hb

/-- Where a run of a PUT that no earlier one overlaps is put. -/
def putPlace (s : State) (p : PutB) : State :=
  match region s.grade p.addr with
  | .dram => dramWrite s (some p.fold) (some (p.unit, p.num, p.weight)) p.addr p.data none p.mask
  | .aperture =>
    let r := hostPost s p.fold (p.addr - aprBase) p.data p.relaxed
    if r.2 then addTally r.1 p.unit p.num p.weight else r.1
  | .csr => addTally (regStore s { fn := p.fold + 1 } p.addr p.data.length (BitVec.ofNat 64 (leNat p.data))) p.unit p.num p.weight
  | _ =>
    let r := extWrite s p.addr (maskBytes s p.addr p.mask p.data)
    if r.2 then addTally r.1 p.unit p.num p.weight else r.1

theorem putArrive_next {k : Nat} {p : PutB} (hp : s.puts[k]? = some p)
    (hb : ((s.puts.take k).any fun q => q.key == p.key && q.addr < p.addr + p.data.length && p.addr < q.addr + q.data.length) = false) :
    putArrive regIo k s = putPlace { s with puts := s.puts.take k ++ s.puts.drop (k + 1) } p := by
  unfold putArrive
  simp only [hp]
  rw [if_neg (Bool.eq_false_iff.mp hb)]
  rfl

/-- Settles O38: each arrival's row where its own conditions hold. -/
theorem arrivalsAct : Obligations.ArrivalsAct := by
  intro s g k f r st a u p hg
  have hgo {x : Access} (hx : accessWf s.grade g x = true) : ¬(!(chanOk g && accessOk s g x)) = true := by
    simp [chanOk, hg, accessOk_eq_accessWf, hx]
  refine ⟨fun ha hf => ?plain, fun ha hf => ?fold, fun hm => if_pos hm, fun hm => if_neg ?_, fun hu hm => ?up, fun hp => ?put,
    fun hf hr hst hgo => ?release⟩
  case plain =>
    show execOrdinaryAccess g a s = _
    rw [execOrdinaryAccess, if_neg (hgo ha)]
    simp only [hf]
  case fold =>
    intro waits
    show execOrdinaryAccess g a s = _
    rw [execOrdinaryAccess, if_neg (hgo ha)]
    simp only [hf]
    cases hi : innerAccess a with
    | true => simp
    | false =>
      simp only [Bool.not_false, true_and, Bool.false_eq_true, if_false]
      split
      · rfl
      · rfl
  case up =>
    intro v r t
    refine ⟨fun ht => upArrive_served hg hu ht hm, fun ht => upArrive_served hg hu ht hm⟩
  case put =>
    intro before v r
    have arrives (hb : before = false) : exec (.putArrive k) s = .next (putPlace v p) := congrArg Host.Outcome.next (putArrive_next hp hb)
    refine ⟨fun hb => congrArg Host.Outcome.next (putArrive_before hp hb), fun hb hreg => ?_, fun hb hreg => ?_, fun hb hreg hsz => ?_⟩
    · rw [arrives hb, putPlace]
      obtain h | h := hreg
      · rw [show region v.grade p.addr = .spd from h]
      · rw [show region v.grade p.addr = .cmn from h]
    · rw [arrives hb, putPlace, show region v.grade p.addr = .dram from hreg]
    · rw [arrives hb, putPlace, show region v.grade p.addr = .csr from hreg]
  case release =>
    intro isIt hfind v
    show execRegulatorRelease f r st s = _
    rw [execRegulatorRelease, if_neg (by omega), if_neg (by simp [hgo])]
    simp only [isIt] at hfind
    simp only [hfind]
    rfl
  · simp only [List.mem_cons, List.not_mem_nil, or_false] at hm
    omega

/-! ### What the end of commands leaves of accumulators, scalar registers, tallies and launches -/

/-- The accumulators, scalar registers, tallies and launches of a state. -/
def valuesOf (s : State) : State := { acc := s.acc, xs := s.xs, tallies := s.tallies, launches := s.launches }

theorem valuesOf_of_beyondMem {t : State} (h : beyondMem t = beyondMem s) : valuesOf t = valuesOf s := (congrArg valuesOf h :)

@[simp] theorem valuesOf_extWrite (a : Nat) (bs : List Byte) (m : Meet) : valuesOf (extWrite s a bs m).1 = valuesOf s :=
  valuesOf_of_beyondMem (beyondMem_extWrite ..)

@[simp] theorem valuesOf_holdPush (g : Nat) (x : Access) : valuesOf (holdPush s g x) = valuesOf s := by
  unfold holdPush
  dsimp only
  split
  · rfl
  · rfl

@[simp] theorem valuesOf_hostPost (fold ha : Nat) (bs : List Byte) (relaxed : Bool) : valuesOf (hostPost s fold ha bs relaxed).1 = valuesOf s := by
  unfold hostPost
  repeat' split
  all_goals rfl

/-- A posted write that counts on no tally. -/
@[simp] theorem valuesOf_dramWrite (fold : Option Nat) (a : Nat) (bs : List Byte) : valuesOf (dramWrite s fold none a bs) = valuesOf s := by
  refine foldl_proj (p := fun q : State × Nat × Bool => valuesOf q.1) fun q i => ?_
  dsimp only
  split
  · exact valuesOf_holdPush ..
  · split
    · exact valuesOf_extWrite ..
    · exact valuesOf_extWrite ..

@[simp] theorem valuesOf_devWrite (fold : Option Nat) (ga : Nat) (bs : List Byte) : valuesOf (devWrite s fold ga bs).1 = valuesOf s := by
  unfold devWrite
  dsimp only
  split
  · rfl
  · split
    · exact valuesOf_hostPost ..
    · exact valuesOf_dramWrite ..
    · exact valuesOf_extWrite ..
    · exact valuesOf_extWrite ..
    · rfl

@[simp] theorem valuesOf_regPay (f ga n : Nat) (write : Bool) : valuesOf (regPay s f ga n write) = valuesOf s := by
  refine foldl_proj fun t r => ?_
  unfold regCharge
  split
  · rfl
  · rfl

@[simp] theorem valuesOf_ringIrq (n : Nat) : valuesOf (ringIrq s n) = valuesOf s := valuesOf_of_beyondMem (beyondMem_sendMsix ..)

@[simp] theorem valuesOf_setRing (n : Nat) (v : RingSt) : valuesOf (setRing s n v) = valuesOf s := rfl

@[simp] theorem valuesOf_haltMember (n m : Nat) : valuesOf (haltMember s n m) = valuesOf s :=
  (valuesOf_ringIrq ..).trans (valuesOf_setRing ..)

@[simp] theorem valuesOf_haltRing (n : Nat) : valuesOf (haltRing s n) = valuesOf s := by
  refine (foldl_proj (p := valuesOf) fun t c => ?_).trans (valuesOf_setRing ..)
  dsimp only
  split
  · exact foldl_proj fun _ _ => rfl
  · rfl

@[simp] theorem valuesOf_writeRec (n : Nat) (r : Rec) : valuesOf (writeRec s n r) = valuesOf s := by
  unfold writeRec
  dsimp only
  repeat' split
  all_goals simp

@[simp] theorem valuesOf_emitSvc (n : Nat) (r : Rec) : valuesOf (emitSvc s n r) = valuesOf s := by
  unfold emitSvc
  dsimp only
  split
  · exact valuesOf_writeRec ..
  · exact valuesOf_setRing ..

@[simp] theorem valuesOf_svcDrain (n k : Nat) : valuesOf (svcDrain n k s) = valuesOf s := by
  induction k generalizing s with
  | zero => rfl
  | succ k ih =>
    unfold svcDrain
    dsimp only
    split
    · rw [ih, valuesOf_emitSvc, valuesOf_setRing]
    · rfl

@[simp] theorem valuesOf_svcKill (n st : Nat) : valuesOf (svcKill s n st) = valuesOf s := by simp [svcKill]

@[simp] theorem valuesOf_svcKillAll (st : Nat) : valuesOf (svcKillAll s st) = valuesOf s :=
  (foldl_proj fun _ _ => valuesOf_svcKill ..).trans rfl

/-! ### Upkeep of stored data (O39) -/

theorem grazeWf_place {g : Config.Grade} {a : Nat} (h : grazeWf g a = true) :
    ¬(!(region g a == .dram && blinBase ≤ a || region g a == .spd || region g a == .cmn)) = true := by
  rw [show (region g a == .dram && blinBase ≤ a || region g a == .spd || region g a == .cmn) = true from h]
  exact Bool.false_ne_true

/-- The firmware's processor meets a word of its code that does not decode, and logs it. -/
def codeMet (s : State) : State :=
  raiseErr (logUeRec (draw s).2 { path := 13 } (fld (Config.freeWord (draw s).1) 55 0) (fld (Config.freeWord (draw s).1) 63 56))

theorem execFwCodeReload_eq (ok : Bool) : execFwCodeReload ok s =
    .next (if ok = true then codeMet s else svcKillAll (raiseErr (setAlert (ror (codeMet s) (eccReg 8) 16) 16)) stUncorr) :=
  (apply_ite Host.Outcome.next ..).symm

@[simp] theorem beyondMem_logUeRec (m : Meet) (addr syn : Nat) : beyondMem (logUeRec s m addr syn) = beyondMem s := by
  unfold logUeRec
  simp

@[simp] theorem beyondMem_codeMet : beyondMem (codeMet s) = beyondMem (draw s).2 := by simp [codeMet]

@[simp] theorem codeMet_mem : (codeMet s).mem = s.mem := by simp [codeMet, logUeRec, ror, rinc, draw]

theorem valuesOf_codeLost (st : Nat) : valuesOf (svcKillAll (raiseErr (setAlert (ror (codeMet s) (eccReg 8) 16) 16)) st) = valuesOf s := by
  have met : valuesOf (raiseErr (setAlert (ror (codeMet s) (eccReg 8) 16) 16)) = valuesOf (draw s).2 :=
    valuesOf_of_beyondMem (by simp)
  exact (valuesOf_svcKillAll st).trans met

/-- Settles O39: upkeep of stored data. -/
theorem storedDataUpkeepActs : Obligations.StoredDataUpkeepActs := by
  intro s c k a g u x t
  refine ⟨fun hc hk => ?_, fun hc => if_pos hc, fun hk hr => ?_, fun ha => ?_, fun h => if_pos h, ?_, ?_, fun hg => ?_⟩
  · show execSpdCeWriteback c k s = _
    rw [execSpdCeWriteback, onCore, if_pos hc, if_neg (by omega)]
  · have hok : ¬(!(stackOk k)) = true := by simp [stackOk, hk]
    show execRepair k s = _
    rw [execRepair, if_neg hok]
    simp only [hr]
  · intro v
    show execGrazeVisit a s = _
    rw [execGrazeVisit]
    dsimp only
    rw [if_neg (grazeWf_place ha), apply_ite Host.Outcome.next]
  · have srv : (beyondMem (codeMet s)).srv = s.srv := by rw [beyondMem_codeMet]; rfl
    have rings : (beyondMem (codeMet s)).rings = s.rings := by rw [beyondMem_codeMet]; rfl
    exact ⟨codeMet s, execFwCodeReload_eq true, codeMet_mem, srv, rings⟩
  · have values := valuesOf_codeLost (s := s) stUncorr
    refine ⟨_, execFwCodeReload_eq false, ?_⟩
    rw [if_neg Bool.false_ne_true]
    generalize svcKillAll _ stUncorr = v at values
    exact ⟨(congrArg State.xs values :), (congrArg State.tallies values :), (congrArg State.acc values :)⟩
  · have hok : chanOk g = true := by simp [chanOk, hg]
    exact if_pos hok

end Sys2Proof.Machine


/-! ## Reads of this device's memory (chapters 07, 09, 11, 12)

A run of bytes at hand lies in one region of this device, so that a read of it finds the stored bytes. -/

namespace Sys2Proof.Machine

open Sys2Proof.Config (Grade)

variable {s : State} {g : Grade} {a n i : Nat}

/-! ### The regions of stored bytes -/

theorem region_dram : region g a = .dram ↔
    a < ilvEnd ∨ blinBase ≤ a ∧ a < blinEnd ∧ (a - blinBase) % 0x8000000 < 0x6000000 := by
  have h1 : ilvEnd < blinBase := by decide
  unfold region
  repeat' split
  all_goals simp only [reduceCtorEq, true_iff, false_iff]
  all_goals omega

theorem region_spd : region g a = .spd ↔
    spdBase ≤ a ∧ a < spdEnd ∧ (a - spdBase) / 0x800000 < Config.cores g ∧ (a - spdBase) % 0x800000 < 0x600000 := by
  have h1 : ilvEnd < blinBase := by decide
  have h2 : blinBase < blinEnd := by decide
  have h3 : blinEnd < spdBase := by decide
  unfold region
  repeat' split
  all_goals simp only [reduceCtorEq, true_iff, false_iff]
  all_goals omega

theorem region_cmn : region g a = .cmn ↔ cmnBase ≤ a ∧ a < cmnEnd := by
  have h1 : ilvEnd < blinBase := by decide
  have h2 : blinBase < blinEnd := by decide
  have h3 : blinEnd < spdBase := by decide
  have h4 : spdBase < spdEnd := by decide
  have h5 : spdEnd = cmnBase := rfl
  unfold region
  repeat' split
  all_goals simp only [reduceCtorEq, true_iff, false_iff]
  all_goals omega

/-- A local address of stored bytes: DRAM, scratchpad or common memory. -/
def InMemory (g : Grade) (a : Nat) : Prop := region g a = .dram ∨ region g a = .spd ∨ region g a = .cmn

theorem InMemory.below (m : InMemory g a) : a < cmnEnd := by
  have h1 : ilvEnd < cmnEnd := by decide
  have h2 : blinEnd < cmnEnd := by decide
  have h3 : spdEnd < cmnEnd := by decide
  obtain m | m | m := m
  · have := region_dram.mp m
    omega
  · have := region_spd.mp m
    omega
  · have := region_cmn.mp m
    omega

theorem region_run (m : InMemory g a) (p : populated g a n = true) (hi : i < n) : region g (a + i) = region g a := by
  have pop : a + n ≤ runEnd g a := by
    simp only [populated, Bool.or_eq_true, beq_iff_eq, decide_eq_true_eq] at p
    omega
  unfold runEnd at pop
  obtain m | m | m := m
  · rw [m] at pop ⊢
    dsimp only at pop
    have := region_dram.mp m
    refine region_dram.mpr ?_
    have h1 : ilvEnd < blinBase := by decide
    split at pop
    · omega
    · have : blinEnd = blinBase + 384 * 32 * 0x8000000 := rfl
      omega
  · rw [m] at pop ⊢
    dsimp only at pop
    have := region_spd.mp m
    refine region_spd.mpr ?_
    have : spdEnd = spdBase + 131072 * 0x800000 := rfl
    omega
  · rw [m] at pop ⊢
    have := region_cmn.mp m
    exact region_cmn.mpr (by dsimp only at pop; omega)

/-! ### Global addresses -/

theorem gDev_eq (a : Nat) : gDev a = a / 2 ^ 50 % 64 :=
  congrArg (· % 64) (Nat.shiftRight_eq_div_pow a 50)

/-- Byte i of a run of stored bytes: its device and its local address. -/
theorem gDev_run (m : InMemory g (gLoc a)) (p : populated g (gLoc a) n = true) (hi : i < n) :
    gDev ((a + i) % 2 ^ 56) = gDev a ∧ gLoc ((a + i) % 2 ^ 56) = gLoc a + i := by
  have low : gLoc a + i < cmnEnd := InMemory.below (g := g) (by unfold InMemory; rw [region_run m p hi]; exact m)
  have small : cmnEnd < 2 ^ 50 := by decide
  rw [gDev_eq, gDev_eq]
  unfold gLoc at *
  omega

theorem gLoc_gOwn (m : InMemory g a) : gLoc (gOwn s a) = a := by
  have low := m.below
  have small : cmnEnd < 2 ^ 50 := by decide
  unfold gLoc gOwn
  omega

/-! ### Reads on clean stores -/

theorem clean_free (f : Nat) : clean { s with free := f } = clean s := rfl

theorem viewByte_of_clean (h : clean s = true) (l : Nat) : viewByte s l = memGet s l := by
  simp [viewByte, unitView_of_clean h]

/-- A draw changes no stored byte. -/
theorem viewBytes_free (h : clean s = true) (f a n : Nat) : viewBytes { s with free := f } a n = viewBytes s a n := by
  refine List.map_congr_left fun i _ => ?_
  rw [viewByte_of_clean h, viewByte_of_clean (s := { s with free := f }) h]
  rfl

theorem AtHand.inMemory (h : AtHand s a n) : InMemory s.grade (gLoc a) := h.memory

theorem AtHand.not_aperture (h : AtHand s a n) : region s.grade (gLoc a) ≠ .aperture := by
  obtain m | m | m := h.memory <;> simp [m]

theorem AtHand.not_runOut (h : AtHand s a n) : runOut s (a, n) = false := by
  simp [runOut, h.dev, h.not_aperture]

theorem srcBytes_of_atHand (h : AtHand s a n) (f : Nat) : srcBytes s f (a, n) = viewBytes s (gLoc a) n := by
  refine List.map_congr_left fun i hi => ?_
  have hi : i < n := List.mem_range.mp hi
  obtain ⟨dev, loc⟩ := gDev_run h.inMemory h.whole hi
  have out : region s.grade (gLoc a + i) ≠ .aperture := by
    rw [region_run h.inMemory h.whole hi]
    exact h.not_aperture
  unfold srcByte
  dsimp only
  rw [dev, loc, if_neg (not_not_intro h.dev), if_neg out]

theorem outFail_of_runs {rs : List (Nat × Nat)} (h : ∀ r ∈ rs, runOut s r = false) (f : Nat) : outFail s f rs = none := by
  have none : rs.find? (runOut s) = none := List.find?_eq_none.mpr fun r hr => by simp [h r hr]
  unfold outFail
  rw [none]

/-! ### Reads of the fetch unit and of firmware -/

theorem readLine_of_atHand (hc : clean s = true) (h : AtHand s a 64) (n : Nat) :
    readLine s n a = ({ s with free := s.free + 1 }, .ok (viewBytes s (gLoc a) 64)) := by
  have run : ∀ r ∈ [(a, 64)], runOut s r = false := by simpa using h.not_runOut
  unfold readLine
  dsimp only
  rw [outFail_of_runs run, eccTouch_of_clean (s := { s with free := s.free + 1 }) hc]
  dsimp only
  have here : AtHand { s with free := s.free + 1 } a 64 := ⟨h.dev, h.memory, h.whole, h.free⟩
  rw [srcBytes_of_atHand here, viewBytes_free hc]

theorem FwReads.atHand {o : Owner} (h : FwReads s o a n) : AtHand s (gOwn s a) n := by
  have loc : gLoc (gOwn s a) = a := gLoc_gOwn (g := s.grade) h.memory
  exact ⟨h.own, by rw [loc]; exact h.memory, by rw [loc]; exact h.whole, by rw [loc]; exact h.free⟩

theorem askRead_of_free {o : Owner} {fold : Option Nat} {rs : List (Nat × Nat)} (h : askOf s o = none)
    (free : ∀ r ∈ rs, rangeHeld s r.1 r.2 = false) : askRead s o fold rs = (s, some []) := by
  have none : s.asks.find? (fun k => k.owner == o && k.runs == rs) = none := by
    refine List.find?_eq_none.mpr fun k hk => ?_
    have := List.find?_eq_none.mp h k hk
    simp_all
  unfold askRead
  rw [none]
  dsimp only
  rw [if_pos]
  simpa using free

/-- What firmware reads of bytes at hand. -/
theorem fwRead_of_reads {o : Owner} (h : FwReads s o a n) : fwRead s o a n = .ok (fwAfter s n) (viewBytes s a n) := by
  unfold fwRead fwAfter
  by_cases h0 : n = 0
  · subst h0
    rfl
  · have loc : gLoc (gOwn s a) = a := gLoc_gOwn (g := s.grade) h.memory
    have run : ∀ r ∈ [(gOwn s a, n)], runOut s r = false := by simpa using h.atHand.not_runOut
    have here : AtHand { s with free := s.free + 1 } (gOwn s a) n := ⟨h.atHand.dev, h.atHand.memory, h.atHand.whole, h.atHand.free⟩
    rw [if_neg h0, if_neg h0, askRead_of_free h.asks (by simpa using h.free)]
    dsimp only [onCaps, List.isEmpty]
    rw [if_pos rfl]
    unfold fwReads
    dsimp only
    rw [outFail_of_runs run, eccTouch_of_clean (s := { s with free := s.free + 1 }) h.clean]
    dsimp only
    rw [srcBytes_of_atHand here, viewBytes_free h.clean, loc]

/-! ### What reads of firmware keep -/

theorem controlOf_fwReads (a n : Nat) : controlOf (fwReads s a n).1 = controlOf s := by
  unfold fwReads
  dsimp only
  split
  · rfl
  · split
    · exact controlOf_eccTouch ..
    · exact controlOf_eccTouch ..

theorem controlOf_fwRead (o : Owner) (a n : Nat) : controlOf (fwRead s o a n).st = controlOf s := by
  unfold fwRead
  split
  · rfl
  · split
    next _ v hr => exact controlOf_of_askRead hr
    next _ v got hr =>
      split
      next _ t st hc => exact (controlOf_of_onCaps hc fun _ => controlOf_fwReads ..).trans (controlOf_of_askRead hr)
      next _ t bs hc => exact (controlOf_of_onCaps hc fun _ => controlOf_fwReads ..).trans (controlOf_of_askRead hr)

end Sys2Proof.Machine


/-! ## Commands of the management engine on security (R518, R519, R529 to R531)

Every operation but the taking of a service command keeps the number that the next one gets. -/

namespace Sys2Proof.Machine

variable {s : State}

/-- The number of the next service command. -/
def cmdNo (s : State) : Nat := s.srv.nextCmd

theorem cmdNo_of_controlOf {t : State} (h : controlOf t = controlOf s) : cmdNo t = cmdNo s := (congrArg cmdNo h :)

@[simp] theorem cmdNo_foldl {β : Type} {f : State → β → State} {l : List β} (h : ∀ t x, cmdNo (f t x) = cmdNo t) :
    cmdNo (l.foldl f s) = cmdNo s :=
  foldl_proj h

/-- A record update that keeps the service commands. -/
theorem cmdNo_of_srv {t : State} (h : t.srv = s.srv) : cmdNo t = cmdNo s := congrArg Srv.nextCmd h

theorem cmdNo_ite {p : Prop} [Decidable p] {a b : State} (ha : cmdNo a = cmdNo s) (hb : cmdNo b = cmdNo s) :
    cmdNo (if p then a else b) = cmdNo s := by
  split
  · exact ha
  · exact hb

@[simp] theorem cmdNo_rset (a : Nat) (v : Word) : cmdNo (rset s a v) = cmdNo s := cmdNo_of_controlOf (controlOf_rset ..)
@[simp] theorem cmdNo_rfld (a hi lo x : Nat) : cmdNo (rfld s a hi lo x) = cmdNo s := cmdNo_of_controlOf (controlOf_rset ..)
@[simp] theorem cmdNo_rinc (a n : Nat) : cmdNo (rinc s a n) = cmdNo s := cmdNo_of_controlOf (controlOf_rinc ..)
@[simp] theorem cmdNo_setRing (n : Nat) (v : RingSt) : cmdNo (setRing s n v) = cmdNo s := cmdNo_of_controlOf (controlOf_setRing ..)
@[simp] theorem cmdNo_setChan (g : Nat) (v : Chan) : cmdNo (setChan s g v) = cmdNo s := cmdNo_of_controlOf (controlOf_setChan ..)
@[simp] theorem cmdNo_setCore (c : Nat) (v : CoreSt) : cmdNo (setCore s c v) = cmdNo s := cmdNo_of_controlOf (controlOf_setCore ..)
@[simp] theorem cmdNo_dropAsks (o : Owner) : cmdNo (dropAsks s o) = cmdNo s := cmdNo_of_controlOf (controlOf_dropAsks ..)
@[simp] theorem cmdNo_finishStop (n : Nat) : cmdNo (finishStop s n) = cmdNo s := cmdNo_of_controlOf (controlOf_finishStop ..)
@[simp] theorem cmdNo_haltMember (n m : Nat) : cmdNo (haltMember s n m) = cmdNo s := cmdNo_of_controlOf (controlOf_haltMember ..)
@[simp] theorem cmdNo_draw : cmdNo (draw s).2 = cmdNo s := cmdNo_of_srv rfl

/-! ### Operations of rings and channels -/

@[simp] theorem cmdNo_svcDrain (n k : Nat) : cmdNo (svcDrain n k s) = cmdNo s := by
  induction k generalizing s with
  | zero => rfl
  | succ k ih =>
    unfold svcDrain
    dsimp only
    split
    · rw [ih]
      exact cmdNo_of_controlOf (by simp)
    · rfl

@[simp] theorem cmdNo_svcEnd (n id st count : Nat) : cmdNo (svcEnd s n id st count) = cmdNo s := by
  unfold svcEnd
  dsimp only
  rw [cmdNo_finishStop]
  exact cmdNo_ite (by simp) (by simp)

@[simp] theorem cmdNo_cancelMember (n m : Nat) : cmdNo (cancelMember s n m) = cmdNo s := by
  have dropped : cmdNo (discard s n m) = cmdNo s := by simp [discard]
  unfold cancelMember
  dsimp only
  generalize discard s n m = t at dropped ⊢
  split
  · split
    · simp [dropped]
    · exact dropped
  · split
    · exact dropped
    · exact (cmdNo_of_controlOf (by simp)).trans dropped

@[simp] theorem cmdNo_ringDisable (n : Nat) : cmdNo (ringDisable s n) = cmdNo s := by
  unfold ringDisable
  dsimp only
  exact cmdNo_ite rfl (by simp)

@[simp] theorem cmdNo_clearChan (g : Nat) : cmdNo (clearChan s g) = cmdNo s := by
  unfold clearChan
  dsimp only
  split
  · simp
  · simp

@[simp] theorem cmdNo_foldChannels (f : Nat) : cmdNo (foldChannels s f) = cmdNo s :=
  (cmdNo_foldl fun _ _ => cmdNo_clearChan ..).trans (cmdNo_of_srv rfl)

@[simp] theorem cmdNo_endLaunches (n c : Nat) : cmdNo (endLaunches n c s) = cmdNo s := by
  induction n generalizing s with
  | zero => rfl
  | succ n ih =>
    unfold endLaunches
    split
    next t h => rw [ih, cmdNo_of_controlOf (launchComplete_keepsControl c t h)]
    next => rfl

@[simp] theorem cmdNo_deferredRec (n : Nat) : cmdNo (deferredRec s n) = cmdNo s := by
  unfold deferredRec
  dsimp only
  repeat' split
  all_goals exact cmdNo_of_controlOf (by simp)

@[simp] theorem cmdNo_flushRecs (n k : Nat) : cmdNo (flushRecs n k s) = cmdNo s := by
  induction k generalizing s with
  | zero => rfl
  | succ k ih =>
    unfold flushRecs
    split
    · rw [ih, cmdNo_deferredRec]
    · rfl

@[simp] theorem cmdNo_lastRecords (n : Nat) : cmdNo (lastRecords s n) = cmdNo s := by
  unfold lastRecords
  extract_lets r opens drained records k
  have h1 : cmdNo drained = cmdNo s := by simp [drained]
  have h2 : cmdNo records = cmdNo drained := cmdNo_foldl fun _ _ => cmdNo_of_controlOf (by simp)
  rw [cmdNo_flushRecs, h2, h1]

@[simp] theorem cmdNo_forceStop (n : Nat) : cmdNo (forceStop s n) = cmdNo s := by
  refine (cmdNo_setRing ..).trans (cmdNo_foldl fun t c => ?_)
  split
  · exact cmdNo_of_controlOf (controlOf_releaseCtx ..)
  · rfl

/-! ### Operations of the serving engine -/

@[simp] theorem cmdNo_eSet (i w hi lo v : Nat) : cmdNo (eSet s i w hi lo v) = cmdNo s := cmdNo_of_controlOf (controlOf_writeBytes ..)
@[simp] theorem cmdNo_setReq (i : Nat) (v : Req) : cmdNo (setReq s i v) = cmdNo s := rfl
@[simp] theorem cmdNo_setModel (m : Nat) (v : Model) : cmdNo (setModel s m v) = cmdNo s := rfl
@[simp] theorem cmdNo_prefixSweep (p : Nat) : cmdNo (prefixSweep s p) = cmdNo s := rfl
@[simp] theorem cmdNo_prefixStat : cmdNo (prefixStat s) = cmdNo s := cmdNo_rset ..
@[simp] theorem cmdNo_rtCount : cmdNo (rtCount s) = cmdNo s := cmdNo_rset ..
@[simp] theorem cmdNo_setSlots (i : Nat) (pages : Tab (Option Nat)) (resv : List Nat) : cmdNo (setSlots s i pages resv) = cmdNo s :=
  (cmdNo_eSet ..).trans (cmdNo_setReq ..)

@[simp] theorem cmdNo_poolStat (p : Nat) : cmdNo (poolStat s p) = cmdNo s := by
  unfold poolStat
  split
  · simp
  · simp

/-- The pools and prefixes of a state replaced. -/
theorem cmdNo_withPools (pools : Tab (Option Pool)) (prefixes : List PEntry) :
    cmdNo { s with srv := { s.srv with pools := pools, prefixes := prefixes } } = cmdNo s := rfl

@[simp] theorem cmdNo_poolForget (p : Nat) : cmdNo (poolForget s p) = cmdNo s := by
  have cleared : cmdNo ((List.range 8).foldl (fun t i => rset t (srvReg (0x1000 + 64 * p + 8 * i)) 0) s) = cmdNo s :=
    cmdNo_foldl fun _ _ => cmdNo_rset ..
  unfold poolForget
  dsimp only
  generalize (List.range 8).foldl (fun t i => rset t (srvReg (0x1000 + 64 * p + 8 * i)) 0) s = t at cleared ⊢
  rw [cmdNo_poolStat, cmdNo_prefixStat, cmdNo_withPools, cleared]

@[simp] theorem cmdNo_modelForget (m : Nat) : cmdNo (modelForget s m) = cmdNo s := (cmdNo_prefixSweep ..).trans (cmdNo_setModel ..)

@[simp] theorem cmdNo_freeReq (i : Nat) : cmdNo (freeReq s i) = cmdNo s :=
  (cmdNo_of_controlOf (controlOf_writeBytes ..)).trans rfl

@[simp] theorem cmdNo_stopImage (i : Nat) (im : Image) : cmdNo (stopImage s i im).1 = cmdNo s :=
  cmdNo_ite cmdNo_draw ((cmdNo_of_controlOf (controlOf_devWrite ..)).trans cmdNo_draw)

@[simp] theorem cmdNo_endReq (i st reason : Nat) (keep : Bool) : cmdNo (endReq s i st reason keep) = cmdNo s := by
  unfold endReq
  extract_lets r t e u
  have ht : cmdNo t = cmdNo s := by
    dsimp only [t]
    split
    · split
      · exact (cmdNo_svcEnd ..).trans (cmdNo_stopImage ..)
      · rfl
    · rfl
  have hu : cmdNo u = cmdNo s := by simp only [u, e, cmdNo_setReq, cmdNo_eSet, ht]
  split
  · exact (cmdNo_svcEnd ..).trans hu
  · exact hu

@[simp] theorem cmdNo_releaseSlots (i : Nat) (keep : Bool) : cmdNo (releaseSlots s i keep) = cmdNo s := by
  unfold releaseSlots
  dsimp only
  rw [cmdNo_prefixSweep, cmdNo_setSlots]
  exact cmdNo_ite (cmdNo_setModel ..) rfl

/-! ### The reset of a fold (R524) -/

@[simp] theorem cmdNo_foldStop (f : Nat) : cmdNo (foldStop s f) = cmdNo s := by
  unfold foldStop
  extract_lets rs disabled channels ended stopped
  have h1 : cmdNo disabled = cmdNo s := cmdNo_foldl fun _ _ => by simp
  have h2 : cmdNo channels = cmdNo disabled := cmdNo_foldChannels f
  have h3 : cmdNo ended = cmdNo channels := cmdNo_foldl fun _ _ => cmdNo_endLaunches ..
  have h4 : cmdNo stopped = cmdNo ended := cmdNo_foldl fun _ _ => cmdNo_ite rfl (by simp)
  exact (cmdNo_of_srv (s := stopped) rfl).trans (h4.trans (h3.trans (h2.trans h1)))

@[simp] theorem cmdNo_foldGuests (f : Nat) : cmdNo (foldGuests s f) = cmdNo s :=
  (cmdNo_foldl fun _ _ => cmdNo_modelForget ..).trans (cmdNo_foldl fun _ _ => (cmdNo_releaseSlots ..).trans (cmdNo_endReq ..))

@[simp] theorem cmdNo_foldServing (f : Nat) : cmdNo (foldServing s f) = cmdNo s := by
  unfold foldServing
  extract_lets _ a _ b mine freed unbound forgotten
  have h1 : cmdNo freed = cmdNo b := cmdNo_foldl fun _ _ => (cmdNo_prefixSweep ..).trans (cmdNo_freeReq ..)
  have h2 : cmdNo unbound = cmdNo freed := cmdNo_foldl fun _ _ => (cmdNo_rset ..).trans (cmdNo_prefixSweep ..)
  have h3 : cmdNo forgotten = cmdNo unbound := cmdNo_foldl fun _ _ => cmdNo_poolForget ..
  have h4 : cmdNo ((forgotten.srv.pools.map (·.1)).foldl poolStat forgotten) = cmdNo forgotten := cmdNo_foldl fun _ _ => cmdNo_poolStat ..
  exact (cmdNo_rtCount ..).trans (h4.trans (h3.trans (h2.trans h1)))

theorem drawWords_cmdNo (n : Nat) : cmdNo (drawWords n s).2 = cmdNo s := by
  induction n generalizing s with
  | zero => rfl
  | succ n ih =>
    unfold drawWords
    exact (ih (s := (draw s).2)).trans cmdNo_draw

@[simp] theorem cmdNo_drawGroupKey (g : Nat) : cmdNo (drawGroupKey s g) = cmdNo s := by
  have drawn := drawWords_cmdNo (s := s) 6
  unfold drawGroupKey
  generalize drawWords 6 s = a at drawn ⊢
  exact (cmdNo_of_srv rfl).trans drawn

@[simp] theorem cmdNo_dropFoldKeys (f : Nat) : cmdNo (dropFoldKeys s f) = cmdNo s := by
  unfold dropFoldKeys
  extract_lets k t g
  have ht : cmdNo t = cmdNo s := cmdNo_of_srv rfl
  exact cmdNo_ite ht ((cmdNo_drawGroupKey g).trans ht)

@[simp] theorem cmdNo_coreFlrRegs (c : Nat) : cmdNo (coreFlrRegs s c) = cmdNo s := by
  unfold coreFlrRegs
  extract_lets a b queues d e g dropped
  have hq : cmdNo queues = cmdNo b := cmdNo_foldl fun _ _ => cmdNo_rset ..
  have hb : cmdNo b = cmdNo s := (cmdNo_rset ..).trans (cmdNo_rset ..)
  have hg : cmdNo g = cmdNo queues := by rw [cmdNo_rset, cmdNo_rset, cmdNo_rset]
  clear_value g
  have hd : cmdNo dropped = cmdNo g := cmdNo_of_srv rfl
  exact (cmdNo_rset ..).trans (hd.trans (hg.trans (hq.trans hb)))

@[simp] theorem cmdNo_foldRegs (f : Nat) : cmdNo (foldRegs s f) = cmdNo s := by
  unfold foldRegs
  extract_lets own hub tal cleared cores hubs
  have h1 : cmdNo cores = cmdNo cleared := cmdNo_foldl fun _ _ => (cmdNo_coreFlrRegs ..).trans (cmdNo_setCore ..)
  have h2 : cmdNo hubs = cmdNo cores := cmdNo_foldl fun _ _ => cmdNo_rset ..
  exact (cmdNo_rset ..).trans (h2.trans h1)

@[simp] theorem cmdNo_startFill (f : Nat) (again : Bool) : cmdNo (startFill s f again) = cmdNo s := by
  unfold startFill
  extract_lets d x t
  have ht : cmdNo t = cmdNo d.2 := cmdNo_of_srv rfl
  have hd : cmdNo d.2 = cmdNo s := cmdNo_draw.trans (cmdNo_rset ..)
  clear_value t
  exact (cmdNo_foldl fun _ _ => cmdNo_ite (cmdNo_rfld ..) rfl).trans (ht.trans hd)

@[simp] theorem cmdNo_foldZero (f : Nat) : cmdNo (foldZero s f) = cmdNo s := cmdNo_of_srv rfl

@[simp] theorem cmdNo_resetFold (f : Nat) : cmdNo (resetFold s f) = cmdNo s := by
  unfold resetFold foldClear
  exact cmdNo_ite (by simp) rfl

@[simp] theorem cmdNo_resetFn (fn : Nat) : cmdNo (resetFn s fn) = cmdNo s := by
  unfold resetFn
  extract_lets st own lo _ t
  have ht : cmdNo t = cmdNo s := cmdNo_of_srv rfl
  exact cmdNo_ite ((cmdNo_rset ..).trans ht) ht

@[simp] theorem cmdNo_tdiFail (vf : Nat) : cmdNo (tdiFail s vf) = cmdNo s := by
  unfold tdiFail
  exact cmdNo_ite (by simp) rfl

/-! ### A link dropped -/

@[simp] theorem cmdNo_lifeAdd (event : Bool) (kind detail : Nat) (data : List Nat) : cmdNo (lifeAdd s event kind detail data) = cmdNo s :=
  cmdNo_of_controlOf (controlOf_of_beyondMem (beyondMem_lifeAdd ..))

@[simp] theorem cmdNo_raiseFab : cmdNo (raiseFab s) = cmdNo s := cmdNo_of_controlOf (controlOf_sendMsix ..)

@[simp] theorem cmdNo_faultOut (p : Nat → Bool) (c x : Nat) : cmdNo (faultOut p s c x) = cmdNo s := by
  unfold faultOut
  split
  · rfl
  · exact cmdNo_ite (cmdNo_of_controlOf (controlOf_faultCmd ..)) rfl

@[simp] theorem cmdNo_loseMember (d : Nat) : cmdNo (loseMember s d) = cmdNo s := by
  have faulted : cmdNo (faultFabric (· == d) s) = cmdNo s := cmdNo_foldl fun _ _ => cmdNo_foldl fun _ _ => cmdNo_faultOut ..
  have lost : cmdNo (degrade s d) = cmdNo s := by
    unfold degrade
    dsimp only
    rw [cmdNo_raiseFab, cmdNo_rset, cmdNo_rfld, faulted]
  have noticed (t : State) : cmdNo (sendNotices t d) = cmdNo t := cmdNo_foldl fun _ _ => cmdNo_of_controlOf (controlOf_sendFab ..)
  exact cmdNo_ite rfl ((noticed _).trans lost)

@[simp] theorem cmdNo_dropLink (l : Nat) : cmdNo (dropLink s l) = cmdNo s := by
  unfold dropLink
  extract_lets v a _ b d
  have hd : cmdNo d = cmdNo s := by
    simp only [d, cmdNo_raiseFab, cmdNo_lifeAdd]
    exact (cmdNo_of_srv (s := a) rfl).trans (cmdNo_rset ..)
  exact cmdNo_ite rfl ((cmdNo_foldl fun _ _ => cmdNo_loseMember ..).trans hd)

@[simp] theorem cmdNo_unlockDebug (scope : Nat) : cmdNo (unlockDebug s scope) = cmdNo s := by
  unfold unlockDebug
  extract_lets _ _ a b _ c d e _ f g
  have hb : cmdNo b = cmdNo s := (cmdNo_foldl fun _ _ => cmdNo_poolStat ..).trans ((cmdNo_prefixStat ..).trans rfl)
  have hd : cmdNo d = cmdNo c := cmdNo_foldl fun _ _ => cmdNo_tdiFail ..
  have he : cmdNo e = cmdNo d := cmdNo_foldl fun _ _ => cmdNo_dropLink ..
  have hc : cmdNo c = cmdNo b := (cmdNo_rset ..).trans (cmdNo_of_srv rfl)
  rw [cmdNo_lifeAdd]
  exact (cmdNo_rset ..).trans ((cmdNo_of_srv (s := e) rfl).trans (he.trans (hd.trans (hc.trans hb))))

/-! ### The commands (O36) -/

theorem cmdNo_svcAnswer (n : Nat) (k : Cmd) (st count : Nat) : cmdNo (svcAnswer s n k st count) = cmdNo s + 1 := by
  have taken : cmdNo (svcTaken s n k).1 = cmdNo (dropAsks s (.service n)) + 1 := rfl
  rw [svcAnswer, cmdNo_svcEnd, taken, cmdNo_dropAsks]

/-- A token that the command has read: it ends with the token's status, and the nonce is drawn anew. -/
theorem secDebugUnlock_done {u v : State} {k : Cmd} {bs : List Byte} (h : Serves s u 65535 2 0x30 k) (h1 : fld k.w2 63 50 = 0) (h2 : fld k.w2 2 0 = 0)
    (h3 : tailZero k = true) (hp : populated u.grade (fld k.w2 49 0) 136 = true) (hr : region u.grade (fld k.w2 49 0) ≠ .csr)
    (read : fwRead u (.service 65535) (fld k.w2 49 0) 136 = .ok v bs) : exec (.secDebugUnlock 65535) s =
      .next (newNonce (svcAnswer (if tokenStatus v bs = stOk then unlockDebug v (tokenScope bs) else v) 65535 k (tokenStatus v bs) 0)) := by
  obtain ⟨line, fetched, rfl⟩ := h.line
  have number : cmdNo v = cmdNo s := by
    have hv := controlOf_fwRead (s := u) (.service 65535) (fld (cmdOf line).w2 49 0) 136
    have hu := controlOf_fetchLine (s := s) 65535 0
    rw [read] at hv
    rw [fetched] at hu
    exact (cmdNo_of_controlOf hv).trans (cmdNo_of_controlOf hu)
  have unlock : isUnlock s 65535 = true := by
    unfold isUnlock
    rw [fetched]
    simp [h.op]
  show execSecDebugUnlock 65535 s = _
  unfold execSecDebugUnlock
  dsimp only
  rw [svcRow_done (st := tokenStatus v bs) (c := 0) (t := if tokenStatus v bs = stOk then unlockDebug v (tokenScope bs) else v) h ?_ ?_]
  · have counted : cmdNo (if tokenStatus v bs = stOk then unlockDebug v (tokenScope bs) else v) = cmdNo s :=
      (cmdNo_ite (cmdNo_unlockDebug ..) rfl).trans number
    generalize (if tokenStatus v bs = stOk then unlockDebug v (tokenScope bs) else v) = t at counted ⊢
    have later : (svcAnswer t 65535 (cmdOf line) (tokenStatus v bs) 0).srv.nextCmd ≠ s.srv.nextCmd := by
      have := (cmdNo_svcAnswer (s := t) 65535 (cmdOf line) (tokenStatus v bs) 0).trans (congrArg (· + 1) counted)
      unfold cmdNo at this
      omega
    dsimp only
    rw [if_pos ⟨later, unlock⟩]
  · simp [h1, h2, h3]
  · dsimp only [svcOf]
    rw [if_neg (by simp [hp, hr]), read]

/-- Settles O36: each command passes its own checks. -/
theorem securityCommandsComplete : Obligations.SecurityCommandsComplete := by
  intro s u k
  refine ⟨fun h h1 h2 h3 h4 => ?_, fun h h1 h2 h3 h4 => ?_, fun h h1 h2 h3 h4 h5 => ⟨?_, ?_⟩⟩
  · intro kind svn
    show execSecCommitSvn 65535 s = _
    have known : fld k.w2 7 0 ≠ 0 ∧ fld k.w2 7 0 ≤ 3 := by
      simp only [List.mem_cons, List.not_mem_nil, or_false] at h3
      omega
    unfold execSecCommitSvn
    split
    next fused => exact svcRow_done h (by simp [h1, h2, known]) ((if_neg (by simp [svcOf])).trans ((if_neg (by simp [h4])).trans (if_pos fused)))
    next later => exact svcRow_done h (by simp [h1, h2, known]) ((if_neg (by simp [svcOf])).trans ((if_neg (by simp [h4])).trans (if_neg later)))
  · show execSecRevokeKey 65535 s = _
    unfold execSecRevokeKey
    split
    next gone => exact svcRow_done h (by simp [h1, h2]) ((if_neg (by simp [svcOf])).trans ((if_neg (by simp [h3, h4])).trans (if_pos gone)))
    next held => exact svcRow_done h (by simp [h1, h2]) ((if_neg (by simp [svcOf])).trans ((if_neg (by simp [h3, h4])).trans (if_neg held)))
  · exact fun v bs read => secDebugUnlock_done h h1 h2 h3 h4 h5 read
  · exact fun reads => secDebugUnlock_done h h1 h2 h3 h4 h5 (fwRead_of_reads reads)

end Sys2Proof.Machine


/-! ## Passages and timeouts of held commands (R190, R196, R198, R199) -/

namespace Sys2Proof.Machine

variable {s : State} {c q : Nat} {t : Slot} {r : Run}

theorem findSome?_range_first {α : Type} {f : Nat → Option α} {x n : Nat} {v : α} (hx : x < n) (before : ∀ y < x, f y = none)
    (h : f x = some v) : (List.range n).findSome? f = some v := by
  obtain ⟨k, rfl⟩ := Nat.exists_eq_add_of_lt hx
  have none : (List.range x).findSome? f = none := List.findSome?_eq_none_iff.mpr fun y hy => before y (List.mem_range.mp hy)
  rw [show x + k + 1 = (x + 1) + k by omega, List.range_add, List.range_succ, List.findSome?_append, List.findSome?_append, none]
  simp [h]

/-- Beginning the other waits anew changes no flag. -/
theorem getFlag_takeCounts (f n : Nat) : getFlag (takeCounts s c q f n) c f = getFlag (setFlag s c f (getFlag s c f - BitVec.ofNat 16 n)) c f := by
  refine congrArg (fun m => tget 0 m _) (foldl_proj (p := State.flags) fun u p => ?_)
  repeat' split
  all_goals rfl

/-- A resource wait that is over, in the first context that has one. -/
theorem execResourceWaitTimeout_first {x : Nat} {u : State} (hc : coreOk s c = true) (hq : q < 4) (hx : x < 8)
    (before : ∀ y < x, ctxTimeout s c q y = none) (h : ctxTimeout s c q x = some u) :
    exec (.resourceWaitTimeout c q) s = .next u := by
  show execResourceWaitTimeout c q s = _
  rw [execResourceWaitTimeout, onCore, if_pos hc, if_neg (by omega), findSome?_range_first hx before h]
  rfl

theorem waitReady_of_held (h : Held s c q 0xF3 t r) (le : flN t.cmd ≤ (getFlag s c (fld t.cmd.w2 7 0)).toNat) :
    waitReady s c q = some t := by
  unfold waitReady
  rw [h.held]
  exact if_pos ⟨h.op, le⟩

/-- Settles O16: each passage and timeout, by its own conditions. -/
theorem heldCommandsPass : Obligations.HeldCommandsPass := by
  intro s c q t r
  refine ⟨fun h le first => ⟨?_, fun wf => ?_⟩, fun h le => ?_, fun h lt some_ late => ?_, fun h open_ => ?_, fun x hc hq hx before => ?_⟩
  · show execWaitPass c q s = _
    have none : ¬((List.range q).any fun p => (waitReady s c p).isSome) = true := by
      simp only [List.any_eq_true, List.mem_range, not_exists, not_and]
      intro p hp
      simp [first p hp]
    rw [execWaitPass, onCore, if_pos h.core, waitReady_of_held h le]
    exact if_neg none
  · rw [getFlag_takeCounts]
    have named : fld t.cmd.w2 7 0 < 256 := Nat.mod_lt _ (by decide)
    rw [getFlag_setFlag wf named named, if_pos ⟨rfl, rfl⟩]
  · show execWaitTallyPass c q s = _
    rw [execWaitTallyPass, onCore, if_pos h.core, h.held]
    exact if_pos ⟨h.op, le⟩
  · show execWaitTallyTimeout c q s = _
    rw [execWaitTallyTimeout, onCore, if_pos h.core, h.held]
    exact if_pos ⟨h.op, lt, some_, late⟩
  · intro v
    show execHurdlePass c q s = _
    rw [execHurdlePass, onCore, if_pos h.core, h.held]
    exact if_pos ⟨h.op, open_⟩
  · intro w k
    refine ⟨fun run late => ?_, fun idle hq2 n m found => ?_⟩
    · have waits : (k.run.bind fun r => if waitOver s r.waiting then some r else none) = some r := by simp [run, late]
      refine ⟨fun free hq3 => ?_, fun held => ?_, fun free hq3 v at_ => ?_⟩
      · refine execResourceWaitTimeout_first hc hq hx before ?_
        unfold ctxTimeout
        dsimp only
        rw [waits]
        dsimp only
        rw [if_neg (by simp [free]), if_neg hq3]
      · refine execResourceWaitTimeout_first hc hq hx before ?_
        unfold ctxTimeout
        dsimp only
        rw [waits]
        dsimp only
        rw [if_pos held]
      · refine execResourceWaitTimeout_first hc hq hx before ?_
        unfold ctxTimeout
        dsimp only
        rw [waits]
        dsimp only
        rw [if_neg (by simp [free]), if_pos hq3, hq3, at_]
        rfl
    · have waits : (k.run.bind fun r => if waitOver s r.waiting then some r else none) = none := by
        cases hr : k.run with
        | none => rfl
        | some v => simp [idle v hr]
      refine execResourceWaitTimeout_first hc hq hx before ?_
      unfold ctxTimeout
      dsimp only
      rw [waits]
      dsimp only
      rw [if_pos hq2, found]
      rfl

end Sys2Proof.Machine


/-! ## The scalar engine's commands, blocks and palettes (R170-R174, R266, R271) -/

namespace Sys2Proof.Machine

variable {s : State} {c op : Nat} {t : Slot}

/-- A scalar command that is well formed and ready, and whose registers have good parity: with a repeat count of zero it has no
effect. -/
theorem scRow_acts {bad : Slot → Bool} {ready : State → Slot → Bool} {regs : Cmd → List Nat} {go : Slot → State → State}
    (h : ScActs s c op t) (hb : bad t = false) (hr : ready s t = true) (hx : XClean (slotBegin s t) t.w) :
    scRow op bad ready regs go c s =
      .next (if total t.cmd = 0 then slotVoid (slotBegin s t) t else go t (slotBegin s t)) := by
  by_cases h0 : total t.cmd = 0
  · unfold scRow onCore
    rw [if_pos h.core, h.slot]
    dsimp only
    rw [if_neg (by simp [h0]), beginAt_next h.op h.header (by simp [hb, fmtIf]), if_pos h0, if_pos h0]
  · rw [scRow_next h hb hr h0 hx, if_neg h0]

theorem endZero_of {k : Cmd} (h4 : k.w4 = 0) (h5 : k.w5 = 0) (h6 : k.w6 = 0) (h7 : k.w7 = 0) : endZero k = true := by
  simp [endZero, h4, h5, h6, h7]

/-- Settles O17: each scalar command is well formed, and its row acts. -/
theorem scalarCommandsComplete : Obligations.ScalarCommandsComplete := by
  intro s c t hx h2 h5 h6 h7 u k or0
  refine ⟨fun h h4 known good only => ?_, fun h h4 reg rd rs2 form => ?_, fun h h4 low high h3 => ?_,
    fun h h4 low high h3 reach => ?_, fun h blk good => ?_⟩
  · show execScAlu c s = _
    unfold execScAlu
    refine scRow_acts h ?_ rfl hx
    have other : (aluSub t.cmd == 16 && scRs1 t.cmd != 0) = false := by
      by_cases h16 : aluSub t.cmd = 16
      · simp [only h16, k]
      · simp [h16]
    simp only [k] at h4 known good
    simp [endZero_of h4 h5 h6 h7, known, good, h2, other]
  · show execScArw c s = _
    unfold execScArw
    refine scRow_acts h ?_ rfl hx
    simp only [k] at h4 reg rd rs2 form
    cases imm : scImmb t.cmd with
    | true => simp_all [endZero_of h4 h5 h6 h7]
    | false => simp_all [endZero_of h4 h5 h6 h7]
  · show execScRdt c s = _
    unfold execScRdt
    refine scRow_acts h ?_ rfl hx
    simp only [k] at h4 low high h3
    simp [endZero_of h4 h5 h6 h7, low, high, h3]
  · show execScRdtally c s = _
    unfold execScRdtally
    rw [scRow_acts h ?_ rfl hx]
    · rw [if_pos reach]
    · simp only [k] at h4 low high h3
      simp [endZero_of h4 h5 h6 h7, low, high, h3]
  · intro a
    show execScBr c s = _
    unfold execScBr
    rw [scRow_acts h ?_ rfl hx]
    · simp [or0, u, k, a]
    · simp only [k] at good
      simp [blk, good]

/-- Settles O19: a block is entered once fetched, and a palette is written once its slot is free. -/
theorem blocksAndPalettesRun : Obligations.BlocksAndPalettesRun := by
  intro s c t r b
  refine ⟨fun h blk good have_ still whole allowed => ?_, fun h good => ?_, fun k hc pending => ?_, fun h => ?_⟩
  · show execScBlock c s = _
    unfold execScBlock
    dsimp only
    rw [h.slot]
    dsimp only
    rw [if_neg]
    · refine beginOp_next h ?_
      rw [still]
      simp [fmtIf, blk, good, allowed]
    · rintro ⟨-, -, -, -, no⟩
      simp [have_, whole] at no
  · exact beginOp_next h (by simp [fmtIf, good])
  · have here : ¬Config.cores s.grade ≤ c := by simpa [coreOk] using hc
    have read : coreRead s c 0xE10 = setFld (setBit (rget s (coreReg c 0xE10)) 16 true) 10 8 (palSlotNo k) := by
      simp [coreRead, here, zsStatus, pending]
    rw [read]
    constructor
    · rw [bit_setFld (by omega) (by omega), if_neg (by omega), bit_setBit (by omega), if_pos rfl]
    · exact fld_setFld (by omega) (by omega) (Nat.mod_lt _ (by omega))
  · intro n u
    show execPalWriteApply c s = _
    rw [execPalWriteApply, onCore, if_pos h.core, h.held]
    exact if_pos h.op

end Sys2Proof.Machine


/-! ## The launch unit (R102, R139-R144, R150, R178, R313) -/

namespace Sys2Proof.Machine

variable {s : State} {c x op : Nat} {m : Cmd} {check : State → Who → Cmd → Option Nat}
  {mk : State → Who → Cmd → AReg → AReg → Nat → Got (List Launch × Nat)}

/-! ### Issue (O20) -/

/-- A next command of the launch unit that passes its checks, where the queue runs none. -/
theorem luRow_issue (hc : coreOk s c = true) (hx : curCtx s c 2 = some x) (hm : (getCtx s c 2 x).buf.head? = some m) (ho : opcode m = op)
    (may : mayIssue s c 2 x (getCtx s c 2 x) = true) (hh : headerBad 2 m = false)
    (good : check (luIssue s (whoOf s c 2 x) m) (whoOf s c 2 x) m = none) (idle : (getCtx s c 2 x).run = none) :
    luRow op check mk c 0 s = .next (if total m = 0
      then endCmd (luIssue s (whoOf s c 2 x) m) (whoOf s c 2 x) m (cTag m) stOk 0 0 0
      else luTake (luIssue s (whoOf s c 2 x) m) (whoOf s c 2 x) m) := by
  rw [luRow, onCore, if_pos hc, hx]
  dsimp only
  rw [hm]
  dsimp only
  rw [if_neg (by simp [may, ho]), idle, hh]
  dsimp only
  rw [if_neg Bool.false_ne_true, good]
  exact (apply_ite Host.Outcome.next ..).symm

/-- One that passes beside a running transfer. -/
theorem luRow_passes {r : Run} (hc : coreOk s c = true) (hx : curCtx s c 2 = some x) (hm : (getCtx s c 2 x).buf.head? = some m)
    (ho : opcode m = op) (may : mayIssue s c 2 x (getCtx s c 2 x) = true) (hh : headerBad 2 m = false)
    (good : check s (whoOf s c 2 x) m = none) (run : (getCtx s c 2 x).run = some r) (pass : mayPass (getCtx s c 2 x) r m = true)
    (some_ : total m ≠ 0) :
    luRow op check mk c 0 s = .next (luTake (luIssue s (whoOf s c 2 x) m) (whoOf s c 2 x) m) := by
  rw [luRow, onCore, if_pos hc, hx]
  dsimp only
  rw [hm]
  dsimp only
  rw [if_neg (by simp [may, ho]), run]
  dsimp only
  exact if_pos (by simp [pass, ho, hh, good, some_])

/-- Settles O20: both rows are the launch unit's. -/
theorem launchCommandsPassToUnit : Obligations.LaunchCommandsPassToUnit := by
  intro s c x m i op hi hc hx hm ho may hh h2 h3 w u
  have good : fmtIf (m.w2 != 0 || !(tailZero m)) = none := by simp [fmtIf, h2, h3]
  simp only [List.mem_cons, Prod.mk.injEq, List.not_mem_nil, or_false] at hi
  obtain ⟨rfl, rfl⟩ | ⟨rfl, rfl⟩ := hi
  · refine ⟨fun idle => ?_, fun r run pass some_ => ?_⟩
    · show execNbuLaunch c 0 s = _
      exact luRow_issue hc hx hm ho may hh (by exact good) idle
    · show execNbuLaunch c 0 s = _
      exact luRow_passes hc hx hm ho may hh (by exact good) run pass some_
  · refine ⟨fun idle => ?_, fun r run pass some_ => ?_⟩
    · show execAttnDispatch c 0 s = _
      exact luRow_issue hc hx hm ho may hh (by exact good) idle
    · show execAttnDispatch c 0 s = _
      exact luRow_passes hc hx hm ho may hh (by exact good) run pass some_

/-! ### Launch input at hand -/

@[simp] theorem Got.bind_ok {α β : Type} (f : State → α → Got β) (v : α) : (Got.ok s v).bind f = f s v := rfl

theorem guard_of {b : Bool} (h : b = false) (st : Nat) : Got.guard s b st = .ok s () := by
  subst h
  rfl

variable {w : Who} {k : Cmd} {ar : Option AReg} {ga n : Nat}

/-- Launch input that may be read at once is what its memory holds, and reading it changes nothing. -/
theorem launchRead_of_reads (hc : clean s = true) (ha : askOf s (.unit w.core w.ctx) = none) (h : LaunchReads s w ar ga n) :
    launchRead s w k ar ga n = .ok s (viewBytes s (gLoc ga) n) := by
  unfold launchRead
  rw [h.1, askRead_of_free ha (by simpa using h.2)]
  dsimp only [onCaps, List.isEmpty]
  rw [if_pos rfl, eccTouch_of_clean hc]
  rfl

theorem readAll_of_ok {rd : State → Nat → Got (List Byte)} {f : Nat → List Byte} {l : List Nat} {acc : List (List Byte)}
    (h : ∀ a ∈ l, rd s a = .ok s (f a)) : readAll rd l s acc = .ok s (acc.reverse ++ l.map f) := by
  induction l generalizing acc with
  | nil => simp [readAll]
  | cons a l ih =>
    rw [readAll, h a List.mem_cons_self]
    dsimp only
    rw [ih fun b hb => h b (List.mem_cons_of_mem a hb)]
    simp

/-! ### Launches (R140-R143) -/

theorem launchOf_of_ready {ar : AReg} (h : LaunchReady s w ar) (rep : Nat) : launchOf s w k ar rep = .ok s (some (launchNamed s w k ar rep)) := by
  have read {ar' : Option AReg} {ga n : Nat} (h' : LaunchReads s w ar' ga n) := launchRead_of_reads (k := k) h.clean h.asks h'
  have recs := readAll_of_ok (s := s) (rd := fun t a => launchRead t w k none (gOwn s a) 64) (f := fun a => launchBytes s a 64) (acc := [])
    fun a ha => read (h.recs a ha)
  have dest (st : Nat) : (launchDests s w (lDescOf (launchWords s ar)) (launchEntries s (lDescOf (launchWords s ar)))).contains (some st) = false := by
    rw [Bool.eq_false_iff, ne_eq, List.contains_iff_mem]
    intro hm
    simpa using h.dests _ hm
  have chans : (launchEntries s (lDescOf (launchWords s ar))).any (fun e => !(foldChan s w.fold e.chan)) = false := by
    rw [List.any_eq_false]
    intro e he
    simp [h.chans e he]
  have desc : wordsAt (viewBytes s (gLoc (arAddr ar)) 128) = launchWords s ar := rfl
  have table (x : LDesc) : wordsAt (viewBytes s (gLoc (gOwn s x.chtab)) (32 * x.nch)) = launchTable s x := rfl
  have entries (x : LDesc) : (List.range x.nch).map (lEntryOf (launchTable s x)) = launchEntries s x := rfl
  have bytes (a n : Nat) : viewBytes s (gLoc (gOwn s a)) n = launchBytes s a n := rfl
  unfold launchOf
  dsimp only
  rw [read h.desc, Got.bind_ok, desc, guard_of h.fields, Got.bind_ok, if_neg h.banks, read h.table, Got.bind_ok, table,
    guard_of h.entries, Got.bind_ok, entries, recs, Got.bind_ok, read h.prog, Got.bind_ok, read h.bcast, Got.bind_ok, bytes, bytes,
    List.reverse_nil, List.nil_append, guard_of h.valid, Got.bind_ok, dest, dest, dest, chans]
  rfl

/-! ### Attention dispatches (R314-R319) -/

theorem aItem_of_ready {ar ar1 : AReg} {chans : List Nat} {i : Nat} (hc : clean s = true) (ha : askOf s (.unit w.core w.ctx) = none)
    (h : ItemReady s w ar ar1 chans i) :
    aItem w k (attnHead s ar) (poolGeo s (attnHead s ar).pool) chans ar1 i (attnItem s ar i) s = .ok s (attnPlan s ar ar1 chans i) := by
  have read {ga n : Nat} (h' : LaunchReads s w none ga n) := launchRead_of_reads (k := k) hc ha h'
  have slots := readAll_of_ok (s := s) (rd := fun t b => launchRead t w k none (gOwn s ((aItemOf (attnItem s ar i)).plist + 4 * b)) 4)
    (f := fun b => launchBytes s ((aItemOf (attnItem s ar i)).plist + 4 * b) 4) (acc := []) fun b hb => read (h.pages b hb).1
  have head : decide ((poolGeo s (attnHead s ar).pool).h ≤ (aItemOf (attnItem s ar i)).kvh) = false := by simpa using h.head
  have room : decide ((aItemOf (attnItem s ar i)).trimax < (attnPlan s ar ar1 chans i).pairs) = false := by simpa using h.room
  unfold aItem
  dsimp only
  rw [guard_of head, Got.bind_ok, read h.query, Got.bind_ok, slots, Got.bind_ok, List.reverse_nil, List.nil_append]
  have plan : aPlanMk (attnHead s ar) (poolGeo s (attnHead s ar).pool) chans ar1 i (aItemOf (attnItem s ar i))
      (viewBytes s (gLoc (gOwn s (aItemOf (attnItem s ar i)).qaddr))
        (2 * ((aItemOf (attnItem s ar i)).g * (aItemOf (attnItem s ar i)).ntok) * (poolGeo s (attnHead s ar).pool).d))
      (((aBlocks ((aItemOf (attnItem s ar i)).toks (attnHead s ar).win) (poolGeo s (attnHead s ar).pool).t).map fun b =>
        launchBytes s ((aItemOf (attnItem s ar i)).plist + 4 * b) 4).map leNat) = attnPlan s ar ar1 chans i := by
    rw [List.map_map]
    rfl
  have bound : ((((aBlocks ((aItemOf (attnItem s ar i)).toks (attnHead s ar).win) (poolGeo s (attnHead s ar).pool).t).map fun b =>
      launchBytes s ((aItemOf (attnItem s ar i)).plist + 4 * b) 4).map leNat).any fun v =>
        decide ((poolGeo s (attnHead s ar).pool).slots ≤ v)) = false := by
    rw [List.any_eq_false]
    intro v hv
    obtain ⟨bs, hbs, rfl⟩ := List.mem_map.mp hv
    obtain ⟨b, hb, rfl⟩ := List.mem_map.mp hbs
    simpa using (h.pages b hb).2
  rw [guard_of bound, Got.bind_ok, plan, guard_of room, Got.bind_ok, h.triples]

theorem aItems_of_ready {ar ar1 : AReg} {chans : List Nat} {l : List Nat} (hc : clean s = true) (ha : askOf s (.unit w.core w.ctx) = none)
    (h : ∀ i ∈ l, ItemReady s w ar ar1 chans i) :
    aItems w k (attnHead s ar) (poolGeo s (attnHead s ar).pool) chans ar1 (attnWords s ar (64 + 64 * (attnHead s ar).nitem)) l s =
      .ok s (l.map (attnPlan s ar ar1 chans)) := by
  induction l with
  | nil => rfl
  | cons i l ih =>
    have item : ((attnWords s ar (64 + 64 * (attnHead s ar).nitem)).drop (8 + 8 * i)).take 8 = attnItem s ar i := rfl
    have hi := h i List.mem_cons_self
    rw [aItems, item, guard_of hi.fields, Got.bind_ok, aItem_of_ready hc ha hi, Got.bind_ok, ih fun j hj => h j (List.mem_cons_of_mem i hj)]
    rfl

theorem attnOf_of_ready {ar ar1 : AReg} {chans : List Nat} (h : AttnReady s w ar ar1 chans) (rep : Nat) :
    let ps := (List.range (attnHead s ar).nitem).map (attnPlan s ar ar1 chans)
    attnOf s w k ar ar1 rep = .ok (ps.foldl (fun t p => aEmpties t w.fold s.nextLaunch p) { s with nextLaunch := s.nextLaunch + 1 })
      (ps.flatMap fun p => aLaunches w k rep p.job p.segs 0, (attnHead s ar).nitem) := by
  intro ps
  have read {ga n : Nat} (h' : LaunchReads s w (some ar) ga n) := launchRead_of_reads (k := k) h.clean h.asks h'
  have words (n : Nat) : wordsAt (viewBytes s (gLoc (arAddr ar)) n) = attnWords s ar n := rfl
  have head : aHeadOf (attnWords s ar 64) = attnHead s ar := rfl
  have unit : (!(attnHead s ar).hub && decide (Config.cores s.grade ≤ (attnHead s ar).unit)) = false := by
    obtain hub | low := h.unit
    · simp [hub]
    · simp [low]
  obtain ⟨poolChans, poolFold⟩ := h.pool
  obtain ⟨p, pool, rfl⟩ := Option.map_eq_some_iff.mp poolChans
  unfold attnOf
  dsimp only
  rw [read h.head, Got.bind_ok, words, head, guard_of h.fields, Got.bind_ok, if_neg h.items, guard_of unit, Got.bind_ok,
    guard_of (by simp [h.tally]), Got.bind_ok, pool]
  dsimp only
  rw [guard_of (by simp [poolFold]), Got.bind_ok, guard_of (by simpa using h.layer), Got.bind_ok, read h.input, Got.bind_ok, words,
    aItems_of_ready h.clean h.asks fun i hi => h.each i (List.mem_range.mp hi), Got.bind_ok]

/-! ### Repeats (O21) -/

/-- A context of the launch unit with nothing in its input buffer goes on with the command that it has. -/
theorem luRow_goes (hc : coreOk s c = true) (hx : curCtx s c 2 = some x) (idle : (getCtx s c 2 x).buf = []) :
    luRow op check mk c 1 s = .next (luRepeats op (whoOf s c 2 x) mk 1 s) := by
  rw [luRow, onCore, if_pos hc, hx]
  dsimp only
  rw [idle]
  rfl

/-- The state after a repeat that gave launches. -/
def luRan (s u : State) (w : Who) (j : Nat) (ls : List Launch) (items : Nat) : State :=
  let v := ls.foldl addLaunch (dropAsks u (.unit w.core w.ctx))
  setLu v w j fun l => { l with
    pos := l.pos + 1, ids := l.ids ++ [rangeFrom s.nextLaunch (v.nextLaunch - s.nextLaunch)], items := l.items + items,
    waiting := if ls.isEmpty then none else some (s.time, resLimit s w.core) }

theorem luRepeats_ok {u : State} {i : Nat} {l : LRun} {ls : List Launch} {items : Nat}
    (active : luActive op (getCtx s w.core w.q w.ctx) = some (i, k, l)) (staged : luStaged s w.core = false)
    (h : mk s w k (arAfter k 0 l.ar l.pos) (arAfter k 1 l.ar1 l.pos) l.pos = .ok u (ls, items)) :
    luRepeats op w mk 1 s = luRan s u w i ls items := by
  unfold luRepeats
  rw [active]
  dsimp only
  rw [if_neg (by simp [staged]), h]
  rfl

theorem luRepeats_bad {u : State} {i st : Nat} {l : LRun} (active : luActive op (getCtx s w.core w.q w.ctx) = some (i, k, l))
    (staged : luStaged s w.core = false) (h : mk s w k (arAfter k 0 l.ar l.pos) (arAfter k 1 l.ar1 l.pos) l.pos = .bad u st) :
    luRepeats op w mk 1 s = setLu (dropAsks u (.unit w.core w.ctx)) w i fun l => { l with stop := some (l.pos, st, 0), waiting := none } := by
  unfold luRepeats
  rw [active]
  dsimp only
  rw [if_neg (by simp [staged]), h]

/-- Settles O21: a repeat of either command, as its descriptor is read. -/
theorem launchRepeatRuns : Obligations.LaunchRepeatRuns := by
  intro s u c x j k l hc hx idle staged w o ar ar1 ran stopped
  refine ⟨fun active => ?_, fun active => ?_⟩
  · have done {v : State} {d : Option Launch} (h : launchOf s w k ar l.pos = .ok v d) :
        exec (.nbuLaunch c 1) s = .next (luRan s v w j d.toList 0) := by
      show execNbuLaunch c 1 s = _
      unfold execNbuLaunch
      rw [luRow_goes hc hx idle]
      exact congrArg Host.Outcome.next (luRepeats_ok (w := w) active staged (by rw [h]; rfl))
    refine ⟨fun d h => done h, fun st h => ?_, fun ready => done (launchOf_of_ready ready l.pos)⟩
    show execNbuLaunch c 1 s = _
    unfold execNbuLaunch
    rw [luRow_goes hc hx idle]
    exact congrArg Host.Outcome.next (luRepeats_bad (w := w) active staged (by rw [h]; rfl))
  · have done {v : State} {d : List Launch × Nat} (h : attnOf s w k ar ar1 l.pos = .ok v d) :
        exec (.attnDispatch c 1) s = .next (luRan s v w j d.1 d.2) := by
      show execAttnDispatch c 1 s = _
      unfold execAttnDispatch
      rw [luRow_goes hc hx idle]
      exact congrArg Host.Outcome.next (luRepeats_ok (w := w) active staged h)
    refine ⟨fun d h => done h, fun st h => ?_, fun chans ready => done (attnOf_of_ready ready l.pos)⟩
    show execAttnDispatch c 1 s = _
    unfold execAttnDispatch
    rw [luRow_goes hc hx idle]
    exact congrArg Host.Outcome.next (luRepeats_bad (w := w) active staged h)

end Sys2Proof.Machine


/-! ## Launches are admitted, end, and report faults (R102, R142, R144, R150) -/

namespace Sys2Proof.Machine

variable {s t u : State}

/-! ### The end of a command leaves accumulators, scalar registers, tallies and launches -/

@[simp] theorem valuesOf_setCtx (c q x : Nat) (v : QCtx) : valuesOf (setCtx s c q x v) = valuesOf s := rfl
@[simp] theorem valuesOf_setAr (c q x r : Nat) (v : AReg) : valuesOf (setAr s c q x r v) = valuesOf s := rfl
@[simp] theorem valuesOf_stir (c : Nat) : valuesOf (stir s c) = valuesOf s := rfl
@[simp] theorem valuesOf_rset (a : Nat) (v : Word) : valuesOf (rset s a v) = valuesOf s := rfl

@[simp] theorem valuesOf_dropAsks (o : Owner) : valuesOf (dropAsks s o) = valuesOf s := by
  unfold dropAsks
  split
  · rfl
  · rfl

@[simp] theorem valuesOf_signalFlag (c f n : Nat) : valuesOf (signalFlag s c f n) = valuesOf s := by
  unfold signalFlag
  dsimp only
  split
  · rfl
  · rfl

@[simp] theorem valuesOf_regWrite (f ga : Nat) (bs : List Byte) : valuesOf (regWrite s f ga bs) = valuesOf s := by
  unfold regWrite
  dsimp only
  split
  · rfl
  · simp

/-- The trace buffer's own position is no value of an engine. -/
theorem valuesOf_withCrk (m : Tab Nat) : valuesOf { s with crk := m } = valuesOf s := rfl

@[simp] theorem valuesOf_trace (w : Who) (k : Cmd) (status : Nat) (done : Bool) : valuesOf (trace s w k status done) = valuesOf s := by
  unfold trace
  dsimp only
  repeat' split
  all_goals simp [ror, valuesOf_withCrk]

@[simp] theorem valuesOf_emitRec (c q x : Nat) (r : Rec) : valuesOf (emitRec s c q x r) = valuesOf s := by
  unfold emitRec
  dsimp only
  split
  · exact valuesOf_writeRec ..
  · exact valuesOf_setCtx ..

@[simp] theorem valuesOf_settle (w : Who) (k : Cmd) (r : Rec) : valuesOf (settle s w k r) = valuesOf s := by
  unfold settle
  dsimp only
  rw [valuesOf_emitRec, valuesOf_setCtx, valuesOf_trace]
  split
  · exact valuesOf_signalFlag ..
  · rfl

@[simp] theorem valuesOf_drainOpens (w : Who) (n : Nat) : valuesOf (drainOpens w n s) = valuesOf s := by
  induction n generalizing s with
  | zero => rfl
  | succ n ih =>
    unfold drainOpens
    dsimp only
    repeat' split
    · rw [ih, valuesOf_settle, valuesOf_setCtx]
    · rfl
    · rfl

@[simp] theorem valuesOf_luCommit (w : Who) (os : List Open) : valuesOf (luCommit s w os) = valuesOf s := by
  refine foldl_proj fun t o => ?_
  dsimp only
  repeat' split
  all_goals rfl

@[simp] theorem valuesOf_endCmd (w : Who) (k : Cmd) (tag status inner outer count : Nat) :
    valuesOf (endCmd s w k tag status inner outer count) = valuesOf s := by
  unfold endCmd
  extract_lets r t x o
  have ht : valuesOf t = valuesOf s := valuesOf_dropAsks ..
  split
  · rw [valuesOf_drainOpens, valuesOf_setCtx]
    split
    · exact (valuesOf_luCommit ..).trans ht
    · exact ht
  · split
    · rw [valuesOf_settle, valuesOf_setCtx, ht]
    · exact ht

@[simp] theorem valuesOf_qfault (w : Who) (tag status otherTag otherQ detail cause : Nat) :
    valuesOf (qfault s w tag status otherTag otherQ detail cause) = valuesOf s := by
  unfold qfault
  dsimp only
  split
  · rfl
  · rfl

@[simp] theorem valuesOf_finishStop (n : Nat) : valuesOf (finishStop s n) = valuesOf s := by
  unfold finishStop
  dsimp only
  split
  · rfl
  · split
    · refine (valuesOf_setRing ..).trans (foldl_proj fun t c => ?_)
      split
      · exact foldl_proj (p := valuesOf) fun _ _ => rfl
      · rfl
    · rfl

/-! ### Launches that have been freed -/

/-- State t has s's accumulators, scalar registers and tallies, and none of some launches. -/
structure Freed (ids : List Nat) (s t : State) : Prop where
  xs : t.xs = s.xs
  acc : t.acc = s.acc
  tallies : t.tallies = s.tallies
  free : StoresWf s → twf none t.launches = true ∧ ∀ n ∈ ids, tget none t.launches n = none

namespace Freed

variable {ids : List Nat}

theorem of_values (h : Freed ids s t) (e : valuesOf u = valuesOf t) : Freed ids s u := by
  have launches : u.launches = t.launches := (congrArg State.launches e :)
  exact ⟨(congrArg State.xs e :).trans h.xs, (congrArg State.acc e :).trans h.acc, (congrArg State.tallies e :).trans h.tallies,
    by rw [launches]; exact h.free⟩

theorem foldl {β : Type} {f : State → β → State} (step : ∀ t x, Freed ids s t → Freed ids s (f t x)) (l : List β) (h : Freed ids s t) :
    Freed ids s (l.foldl f t) := by
  induction l generalizing t with
  | nil => exact h
  | cons x l ih => exact ih (step t x h)

/-- A launch that has not been freed is replaced. -/
theorem put {id : Nat} {m : Launch} (h : Freed ids s t) (still : tget none t.launches id ≠ none) :
    Freed ids s { t with launches := tput none t.launches id (some m) } := by
  refine ⟨h.xs, h.acc, h.tallies, fun wf => ?_⟩
  obtain ⟨table, freed⟩ := h.free wf
  refine ⟨tput_wf table, fun n hn => ?_⟩
  have other : n ≠ id := fun e => still (e ▸ freed n hn)
  exact (tget_tput table).trans ((if_neg other).trans (freed n hn))

theorem dropLaunch (h : Freed ids s t) (id : Nat) : Freed ids s (dropLaunch t id) := by
  unfold Machine.dropLaunch
  split
  · exact h
  · refine h.foldl (fun v e hv => ?_) _
    have channel (g : Nat) (ch : Chan) : Freed ids s (setChan v g ch) := hv.of_values rfl
    dsimp only
    split
    · exact hv
    · split
      · exact channel ..
      · split
        · exact channel ..
        next _ m hm => exact (channel ..).put (by rw [hm]; exact Option.some_ne_none m)

theorem dropLaunches (h : Freed ids s t) (w : Who) : Freed ids s (dropLaunches t w) := by
  have dropped : Freed ids s ((getCtx t w.core w.q w.ctx).opens.foldl (fun t o => match o.lu with
      | some lr => if o.fin.isSome then t else lr.ids.flatten.foldl Machine.dropLaunch t
      | none => t) t) := by
    refine h.foldl (fun v o hv => ?_) _
    split
    · split
      · exact hv
      · exact hv.foldl (fun t id ht => ht.dropLaunch id) _
    · exact hv
  exact dropped.of_values (valuesOf_dropAsks ..)

theorem endCtx (h : Freed ids s t) (c q x st : Nat) : Freed ids s (endCtx t c q x st) := by
  have dropped := h.dropLaunches (whoOf t c q x)
  refine dropped.of_values ?_
  unfold Machine.endCtx
  extract_lets w k d f e y z
  have hf : valuesOf f = valuesOf d := by
    dsimp only [f]
    repeat' split
    all_goals simp
  have he : valuesOf e = valuesOf f := by
    dsimp only [e]
    split
    · rfl
    · simp
  exact (foldl_proj fun _ _ => valuesOf_endCmd ..).trans (he.trans hf)

theorem faultRing (h : Freed ids s t) (w : Who) (qs : List Nat) : Freed ids s (faultRing t w qs) := by
  have halted : Freed ids s (haltMember (stir t w.core) w.ring (getCtx t w.core w.q w.ctx).member) := h.of_values (by simp)
  refine halted.foldl (fun v q hv => ?_) _
  dsimp only
  split
  · exact hv.of_values ((foldl_proj fun _ _ => valuesOf_endCmd ..).trans (valuesOf_setCtx ..))
  · exact hv.endCtx ..

theorem ite {p : Prop} [Decidable p] {a b : State} (ha : Freed ids s a) (hb : Freed ids s b) : Freed ids s (if p then a else b) := by
  split
  · exact ha
  · exact hb

end Freed

/-- The launches of a list freed. -/
def freeLaunches (s : State) (ids : List Nat) : State := ids.foldl (fun t id => { t with launches := tput none t.launches id none }) s

theorem freeLaunches_ctxs (ids : List Nat) : (freeLaunches s ids).ctxs = s.ctxs := foldl_proj (p := State.ctxs) fun _ _ => rfl

theorem tget_freeLaunches (ids : List Nat) (h : twf none s.launches = true) : twf none (freeLaunches s ids).launches = true ∧
    ∀ n, n ∈ ids ∨ tget none s.launches n = none → tget none (freeLaunches s ids).launches n = none := by
  induction ids generalizing s with
  | nil => exact ⟨h, fun n hn => hn.resolve_left List.not_mem_nil⟩
  | cons id ids ih =>
    obtain ⟨table, freed⟩ := ih (s := { s with launches := tput none s.launches id none }) (tput_wf h)
    refine ⟨table, fun n hn => freed n ?_⟩
    by_cases e : n = id
    · exact .inr ((tget_tput h).trans (if_pos e))
    · refine hn.imp (fun m => (List.mem_cons.mp m).resolve_left e) fun none => (tget_tput h).trans ((if_neg e).trans none)

theorem freed_freeLaunches (ids : List Nat) (e : valuesOf t = valuesOf s) : Freed ids s (freeLaunches t ids) := by
  have xs : (freeLaunches t ids).xs = t.xs := foldl_proj (p := State.xs) fun _ _ => rfl
  have acc : (freeLaunches t ids).acc = t.acc := foldl_proj (p := State.acc) fun _ _ => rfl
  have tallies : (freeLaunches t ids).tallies = t.tallies := foldl_proj (p := State.tallies) fun _ _ => rfl
  have launches : t.launches = s.launches := (congrArg State.launches e :)
  refine ⟨xs.trans (congrArg State.xs e :), acc.trans (congrArg State.acc e :), tallies.trans (congrArg State.tallies e :), fun wf => ?_⟩
  obtain ⟨table, freed⟩ := tget_freeLaunches ids (s := t) (by rw [launches]; exact wf.launches)
  exact ⟨table, fun n hn => freed n (.inl hn)⟩

/-! ### The command's end (R144) -/

variable {c j : Nat} {w : Who} {k : Cmd} {r : LRun}

theorem launchComplete_frees (hc : coreOk s c = true) (hd : luDone s c = some (w, j, k, r)) :
    ∃ t, execLaunchComplete c s = .next t ∧ Freed r.ids.flatten s t := by
  unfold execLaunchComplete onCore
  rw [if_pos hc, hd]
  dsimp -zeta only
  extract_lets inner count firstOpen end_ idx record ar ar1 freed x kept fin fault y halt drained
  have har : valuesOf ar = valuesOf s := by
    dsimp only [ar]
    split
    · rfl
    · rfl
  have har1 : valuesOf ar1 = valuesOf s := by
    dsimp only [ar1]
    split
    · exact har
    · exact har
  have hfreed : Freed r.ids.flatten s freed := freed_freeLaunches r.ids.flatten har1
  have hfin : Freed r.ids.flatten s fin := hfreed.of_values (valuesOf_setCtx ..)
  have hfault : Freed r.ids.flatten s fault := .ite (hfin.of_values (valuesOf_qfault ..)) hfin
  have hhalt : Freed r.ids.flatten s halt := .ite (hfault.of_values (valuesOf_setCtx ..)) hfault
  have hdrained : Freed r.ids.flatten s drained := hhalt.of_values (valuesOf_drainOpens ..)
  clear_value drained
  split
  · exact ⟨_, rfl, (((hdrained.endCtx c 2 w.ctx stCancelled).faultRing w [2]).of_values (valuesOf_finishStop ..))⟩
  · exact ⟨_, rfl, hdrained.of_values (valuesOf_finishStop ..)⟩

/-! ### Admission (R102) -/

/-- The launches of a state, and the order numbers given. -/
def launchesOf (s : State) : Tab (Option Launch) × Nat := (s.launches, s.seq)

theorem launchesOf_startOrDefer (g : Nat) : launchesOf (startOrDefer s g) = launchesOf s := by
  unfold startOrDefer
  split
  · rfl
  · rfl

theorem launchAdmit_next {id : Nat} {l : Launch} (hl : tget none s.launches id = some l) (may : mayAdmit s id l = true) :
    ∃ t, execLaunchAdmit id s = .next t ∧ t.seq = s.seq + 1 ∧
      tget none t.launches id = some { l with admitted := true, arr := s.seq + 1 } := by
  unfold execLaunchAdmit
  rw [hl]
  dsimp -zeta only
  rw [if_neg (by simp [may])]
  extract_lets v joined x
  have put : launchesOf v = (tput none s.launches id (some { l with admitted := true, arr := s.seq + 1 }), s.seq + 1) := rfl
  have same : launchesOf joined = launchesOf v := foldl_proj fun t e => by
    dsimp only
    split
    · exact launchesOf_startOrDefer ..
    · rfl
  have of_same (t : State) (h : launchesOf t = launchesOf joined) : t.seq = s.seq + 1 ∧
      tget none t.launches id = some { l with admitted := true, arr := s.seq + 1 } := by
    have e := h.trans (same.trans put)
    refine ⟨congrArg Prod.snd e, ?_⟩
    have launches : t.launches = _ := congrArg Prod.fst e
    rw [launches]
    exact tget_tput_self (Option.some_ne_none _)
  clear_value joined
  split
  · extract_lets waits
    exact ⟨_, rfl, of_same _ (by split <;> rfl)⟩
  · exact ⟨_, rfl, of_same _ rfl⟩

/-! ### A faulted launch is told of (R150) -/

/-- A value that a table holds stays where another key is set. -/
theorem tget_tput_other {α : Type} [DecidableEq α] {d : α} {m : Tab α} {i j : Nat} {x : α} (h : tget d m j ≠ d) (hij : j ≠ i) :
    tget d (tput d m i x) j = tget d m j := by
  induction m with
  | nil => exact absurd rfl h
  | cons e m ih =>
    obtain ⟨k, v⟩ := e
    unfold tput
    simp only [tget] at h ih ⊢
    grind [tget]

/-- One channel of launch id, which has left it unless it runs there: the step that dropLaunch makes for each. -/
def leaveChan (id : Nat) (t : State) (e : LaunchCh) : State :=
  if e.state ≠ 0 then t
  else
    let ch := getChan t e.chan
    if ch.launches.head? = some id ∧ ch.started ∧ ch.mode ≠ 5 then setChan t e.chan { ch with dropping := ch.dropping ++ [id] }
    else
      let t := setChan t e.chan (unqueue ch id)
      match tget none t.launches id with
      | none => t
      | some m =>
        let cs := m.chans.map fun c => if c.chan = e.chan then { c with state := 2 } else c
        { t with launches := tput none t.launches id (some { m with chans := cs }) }

theorem dropLaunch_eq {id : Nat} {l : Launch} (h : tget none s.launches id = some l) : dropLaunch s id = l.chans.foldl (leaveChan id) s := by
  unfold dropLaunch
  rw [h]
  rfl

/-- Each channel where launch id has not ended is told to drop it, but for those of some entries. -/
def ToldBut (rest : List LaunchCh) (id : Nat) (t : State) : Prop :=
  ∃ m, tget none t.launches id = some m ∧ m.told = true ∧ ∀ e ∈ m.chans, e.state = 0 →
    (∃ f ∈ rest, f.chan = e.chan ∧ f.state = 0) ∨ (getChan t e.chan).dropping.contains id = true

/-- A channel that drops a launch goes on to where a channel is set that drops it too. -/
theorem drops_setChan {id g j : Nat} {ch : Chan} (h : (getChan s j).dropping.contains id = true) (hs : j = g → ch.dropping.contains id = true) :
    (getChan (setChan s g ch) j).dropping.contains id = true := by
  have not_fresh {v : Chan} (hv : v.dropping.contains id = true) : v ≠ {} := by
    rintro rfl
    simp at hv
  by_cases e : j = g
  · subst e
    have same : getChan (setChan s j ch) j = ch := tget_tput_self (not_fresh (hs rfl))
    rw [same]
    exact hs rfl
  · have same : getChan (setChan s g ch) j = getChan s j := tget_tput_other (not_fresh h) e
    rw [same]
    exact h

/-- The step for a channel of the launch itself. -/
theorem ToldBut.leaveChan {id : Nat} {e : LaunchCh} {rest : List LaunchCh} (h : ToldBut (e :: rest) id t) :
    ToldBut rest id (leaveChan id t e) := by
  obtain ⟨m, hm, told, each⟩ := h
  unfold Machine.leaveChan
  split
  case isTrue gone =>
    refine ⟨m, hm, told, fun x hx h0 => (each x hx h0).imp (fun ⟨f, hf, at_⟩ => ⟨f, ?_, at_⟩) fun drops => drops⟩
    exact (List.mem_cons.mp hf).resolve_left fun same => gone (same ▸ at_.2)
  case isFalse =>
    dsimp only
    split
    · refine ⟨m, hm, told, fun x hx h0 => ?_⟩
      obtain ⟨f, hf, at_⟩ | drops := each x hx h0
      · obtain rfl | hf := List.mem_cons.mp hf
        · refine .inr ?_
          rw [← at_.1]
          have same : getChan (setChan t f.chan { getChan t f.chan with dropping := (getChan t f.chan).dropping ++ [id] }) f.chan = _ :=
            tget_tput_self (fun no => by simpa using congrArg Chan.dropping no)
          rw [same]
          simp
        · exact .inl ⟨f, hf, at_⟩
      · exact .inr (drops_setChan drops fun same => by
          rw [same] at drops
          simp only [List.contains_eq_mem, List.mem_append, decide_eq_true_eq] at drops ⊢
          exact .inl drops)
    · have hm' : tget none (setChan t e.chan (unqueue (getChan t e.chan) id)).launches id = some m := hm
      rw [hm']
      dsimp only
      refine ⟨_, tget_tput_self (Option.some_ne_none _), told, fun y hy h0 => ?_⟩
      obtain ⟨x, hx, rfl⟩ := List.mem_map.mp hy
      have other : x.chan ≠ e.chan := fun same => by simp [same] at h0
      rw [if_neg other] at h0 ⊢
      obtain ⟨f, hf, at_⟩ | drops := each x hx h0
      · exact .inl ⟨f, (List.mem_cons.mp hf).resolve_left fun same => other (at_.1.symm.trans (same ▸ rfl)), at_⟩
      · exact .inr (drops_setChan (s := t) drops fun same => absurd same other)

/-- The step for a channel of another launch. -/
theorem ToldBut.leaveOther {id other : Nat} {e : LaunchCh} (ho : id ≠ other) (h : ToldBut [] id t) : ToldBut [] id (Machine.leaveChan other t e) := by
  obtain ⟨m, hm, told, each⟩ := h
  have drops (x : LaunchCh) (hx : x ∈ m.chans) (h0 : x.state = 0) : (getChan t x.chan).dropping.contains id = true :=
    (each x hx h0).resolve_left fun ⟨_, hf, _⟩ => List.not_mem_nil hf
  unfold Machine.leaveChan
  split
  · exact ⟨m, hm, told, each⟩
  · dsimp only
    split
    · exact ⟨m, hm, told, fun x hx h0 => .inr (drops_setChan (drops x hx h0) fun same => by
        have d := drops x hx h0
        rw [same] at d
        simp only [List.contains_eq_mem, List.mem_append, decide_eq_true_eq] at d ⊢
        exact .inl d)⟩
    · have kept (x : LaunchCh) (hx : x ∈ m.chans) (h0 : x.state = 0) :
          (getChan (setChan t e.chan (unqueue (getChan t e.chan) other)) x.chan).dropping.contains id = true :=
        drops_setChan (drops x hx h0) fun same => by rw [← same]; exact drops x hx h0
      split
      · exact ⟨m, hm, told, fun x hx h0 => .inr (kept x hx h0)⟩
      · exact ⟨m, (tget_tput_other (by rw [show (setChan t e.chan _).launches = t.launches from rfl, hm]; exact Option.some_ne_none m) ho).trans hm, told,
          fun x hx h0 => .inr (kept x hx h0)⟩

theorem ToldBut.leaveChans {id : Nat} {l : List LaunchCh} (h : ToldBut l id t) : ToldBut [] id (l.foldl (Machine.leaveChan id) t) := by
  induction l generalizing t with
  | nil => exact h
  | cons e l ih => exact ih h.leaveChan

theorem ToldBut.dropLaunch {id other : Nat} (h : ToldBut [] id t) : ToldBut [] id (Machine.dropLaunch t other) := by
  cases hl : tget none t.launches other with
  | none =>
    unfold Machine.dropLaunch
    rw [hl]
    exact h
  | some l =>
    rw [dropLaunch_eq hl]
    by_cases ho : id = other
    · subst ho
      obtain ⟨m, hm, told, each⟩ := h
      exact ToldBut.leaveChans ⟨m, hm, told, fun x hx h0 => .inr ((each x hx h0).resolve_left fun ⟨_, hf, _⟩ => List.not_mem_nil hf)⟩
    · clear hl
      generalize l.chans = cs
      induction cs generalizing t with
      | nil => exact h
      | cons e cs ih => exact ih (h.leaveOther ho)

theorem sortBy_ne_nil {α : Type} {le : α → α → Bool} {l : List α} (h : l ≠ []) : sortBy le l ≠ [] := by
  have insert_ne (x : α) (l : List α) : insertBy le x l ≠ [] := by
    cases l with
    | nil => exact List.cons_ne_nil x []
    | cons y l =>
      unfold insertBy
      split
      · exact List.cons_ne_nil _ _
      · exact List.cons_ne_nil _ _
  cases l with
  | nil => exact absurd rfl h
  | cons x l => exact insert_ne x _

theorem launchFault_told {id : Nat} {l : Launch} (hl : tget none s.launches id = some l) (told : l.told = false)
    (faulted : ∃ e ∈ l.chans, e.state = 3) : ∃ t, execLaunchFaultPropagate id s = .next t ∧ ToldBut [] id t ∧ t.mem = s.mem := by
  obtain ⟨e, he, h3⟩ := faulted
  have some_ : l.chans.filter (·.state == 3) ≠ [] := List.ne_nil_of_mem (List.mem_filter.mpr ⟨he, by simp [h3]⟩)
  unfold execLaunchFaultPropagate
  rw [hl]
  dsimp -zeta only
  extract_lets faults v d x w lower
  obtain ⟨f, rest, hf⟩ := List.exists_cons_of_ne_nil (sortBy_ne_nil (le := fun (a b : LaunchCh) => a.chan ≤ b.chan) some_)
  have hfaults : faults = f :: rest := hf
  rw [told, hfaults]
  dsimp -zeta only
  have first : ToldBut [] id d := by
    have start : ToldBut l.chans id v := ⟨_, tget_tput_self (Option.some_ne_none _), rfl, fun x hx h0 => .inl ⟨x, hx, rfl, h0⟩⟩
    have eq : d = l.chans.foldl (leaveChan id) v := dropLaunch_eq (l := { l with told := true }) (tget_tput_self (Option.some_ne_none _))
    rw [eq]
    exact start.leaveChans
  have mem : d.mem = s.mem := (congrArg State.mem (dataOf_dropLaunch (s := v) id) :)
  clear_value d
  split
  · exact ⟨_, rfl, first, mem⟩
  · extract_lets lowered later
    have drop (ids : List Nat) (t : State) (h : ToldBut [] id t) : ToldBut [] id (ids.foldl dropLaunch t) := by
      induction ids generalizing t with
      | nil => exact h
      | cons i ids ih => exact ih _ h.dropLaunch
    have data : dataOf (later.foldl dropLaunch lowered) = dataOf d := (foldl_proj fun _ _ => dataOf_dropLaunch ..).trans (dataOf_setLu ..)
    exact ⟨_, rfl, drop later lowered first, (congrArg State.mem data :).trans mem⟩

/-- A command that has neither stopped nor been cancelled, and that no transfer runs beside, ends with ST_OK. -/
theorem launchComplete_done (hc : coreOk s c = true) (hd : luDone s c = some (w, j, k, r)) (goes : r.stop = none) (whole : r.cancel = false)
    (idle : (getCtx s c 2 w.ctx).opens.any (·.runs) = false) :
    let u := freeLaunches s r.ids.flatten
    let x := getCtx u c 2 w.ctx
    let count := if opcode k = 0x31 then r.items - unfinishedItems s r.ids.flatten else (r.ids.flatten.map (finishedOn s)).foldl (· + ·) 0
    let rec_ : Rec := { tag := cTag k, status := stOk, engine := 2, context := w.ctx, core := c, inner := 0, outer := cOuter k,
                        count := count, irq := cIrq k }
    execLaunchComplete c s = .next (finishStop (drainOpens w (x.opens.length + 1) (setCtx u c 2 w.ctx
      { x with opens := (x.opens.zip (List.range x.opens.length)).map fun o =>
        if o.2 = j then { o.1 with fin := some rec_, lu := none } else o.1 })) w.ring) := by
  intro u x count rec_
  have same : x = getCtx s c 2 w.ctx := congrArg (fun m => tget ({} : QCtx) m (ctxKey c 2 w.ctx)) (freeLaunches_ctxs r.ids.flatten)
  unfold execLaunchComplete onCore
  rw [if_pos hc, hd]
  dsimp -zeta only
  extract_lets inner count' firstOpen end_ idx record ar ar1 freed y kept fin fault z halt drained
  have hend : end_ = (stOk, total k, 0, count) := by
    dsimp only [end_]
    rw [goes]
    dsimp only
    rw [whole]
    rfl
  have ok : end_.1 = stOk := congrArg Prod.fst hend
  have hidx : idx = (0, cOuter k) := if_pos ok
  have hrecord : record = rec_ := by
    dsimp only [record, rec_]
    rw [hidx, hend]
  have har : ar = s := if_neg fun h => h.1 ok
  have har1 : ar1 = s := (if_neg fun h => h.1 ok).trans har
  have hfreed : freed = u := by
    show freeLaunches ar1 r.ids.flatten = u
    rw [har1]
  have hy : y = x := by
    show getCtx freed c 2 w.ctx = x
    rw [hfreed]
  have hkept : kept = none := if_neg (by rw [hy, same, idle]; exact Bool.false_ne_true)
  have hfin : fin = setCtx u c 2 w.ctx { x with opens := (x.opens.zip (List.range x.opens.length)).map fun o =>
      if o.2 = j then { o.1 with fin := some rec_, lu := none } else o.1 } := by
    dsimp only [fin]
    rw [hfreed, hy, hkept, hrecord]
  have hfault : fault = fin := if_neg (by rw [ok]; decide)
  have hhalt : halt = fin := (if_neg (by simp [goes])).trans hfault
  rw [if_neg (by simp [goes])]
  show Host.Outcome.next (finishStop (drainOpens w (y.opens.length + 1) halt) w.ring) = _
  rw [hhalt, hfin, hy]

/-- Settles O22: admission, the command's end, and faults, each by its own lemma. -/
theorem launchesProgress : Obligations.LaunchesProgress := by
  intro s id c j l w k r
  refine ⟨fun hl may => launchAdmit_next hl may, fun hc hd => ?_, fun hc hd goes whole idle => launchComplete_done hc hd goes whole idle,
    fun hl told faulted => ?_⟩
  · obtain ⟨t, next, freed⟩ := launchComplete_frees hc hd
    exact ⟨t, next, freed.xs, freed.acc, freed.tallies, fun wf => (freed.free wf).2⟩
  · obtain ⟨t, next, ⟨m, hm, told', drops⟩, mem⟩ := launchFault_told hl told faulted
    exact ⟨t, m, next, hm, told', fun e he h0 => (drops e he h0).resolve_left fun ⟨_, hf, _⟩ => List.not_mem_nil hf, mem⟩

end Sys2Proof.Machine


/-! ## Fetch, waiting records and interrupts (R177, R178, R398-R400) -/

namespace Sys2Proof.Machine

variable {s : State} {n m x a : Nat}

/-! ### A line at hand -/

/-- Charging the regulators changes their levels only. -/
theorem regPay_eq (s : State) (f ga n : Nat) (write : Bool) : ∃ b, regPay s f ga n write = { s with folds := b } := by
  unfold regPay
  generalize regFor s ga n write = l
  induction l generalizing s with
  | nil => exact ⟨s.folds, rfl⟩
  | cons r l ih =>
    have charged : ∃ b, regCharge s f r.1 r.2.1 r.2.2 = { s with folds := b } := by
      unfold regCharge
      split
      · exact ⟨s.folds, rfl⟩
      · exact ⟨_, rfl⟩
    obtain ⟨b, hb⟩ := charged
    obtain ⟨b', hb'⟩ := ih { s with folds := b }
    exact ⟨b', by rw [List.foldl_cons, hb, hb']⟩

theorem dropAsks_eq (s : State) (o : Owner) : ∃ l, dropAsks s o = { s with asks := l } := by
  unfold dropAsks
  split
  · exact ⟨s.asks, rfl⟩
  · exact ⟨_, rfl⟩

theorem ownRuns_of_atHand {k : Nat} (h : AtHand s a k) : ownRuns s [(a, k)] = [(gLoc a, k)] := by
  simp [ownRuns, h.dev]

theorem fetchLine_of_atHand (empty : (getRing s n).line.getD m [] = []) (hc : clean s = true) (h : AtHand s (lineAddr s n m) 64)
    (asks : askOf s (.fetch n m) = none) (go : regOk s ((ringFold s n).getD 16) (lineAddr s n m) 64 false = true) :
    fetchLine s n m = .ok (dropAsks { regPay s ((ringFold s n).getD 16) (lineAddr s n m) 64 false with free := s.free + 1 } (.fetch n m))
      (viewBytes s (gLoc (lineAddr s n m)) 64) := by
  unfold fetchLine
  dsimp only
  rw [empty]
  dsimp only
  rw [go, ownRuns_of_atHand h, askRead_of_free asks (by simpa using h.free)]
  obtain ⟨b, hb⟩ := regPay_eq s ((ringFold s n).getD 16) (lineAddr s n m) 64 false
  have here : AtHand { s with folds := b } (lineAddr s n m) 64 := ⟨h.dev, h.memory, h.whole, h.free⟩
  have read : onCaps ({ s with folds := b } : State) [] (fun u => readLine u n (lineAddr s n m)) =
      ({ s with folds := b, free := s.free + 1 }, .ok (viewBytes s (gLoc (lineAddr s n m)) 64)) := readLine_of_atHand (s := { s with folds := b }) hc here n
  dsimp only
  rw [hb, read]
  rfl

/-! ### Dispatch -/

variable {c : Nat} {k : Cmd}

theorem dispatch_collects {b : Blk} (hb : (getCtx s c 3 x).blk = some b) (room : b.cmds.length < b.need) : dispatch s n m c x k =
    some (fetchNext (setCtx s c 3 x { getCtx s c 3 x with blk := some { b with cmds := b.cmds ++ [k] } }) n m) := by
  unfold dispatch
  dsimp only
  rw [hb]
  exact if_pos (decide_eq_true room)

theorem dispatch_buffers (full : ∀ b, (getCtx s c 3 x).blk = some b → b.need ≤ b.cmds.length) (he : cEngine k < 4)
    (room : (getCtx s c (cEngine k) x).buf.length < 32) :
    let b := getCtx s c (cEngine k) x
    let isBlk := cEngine k == 3 && opcode k == 0x05 && 1 ≤ fld k.w2 40 32 && fld k.w2 40 32 ≤ 256
    (isBlk = true → (getCtx s c 3 x).blk = none) → dispatch s n m c x k = some (fetchNext (setCtx s c (cEngine k) x { b with
      buf := b.buf ++ [k], fullAt := if b.buf.length = 31 then s.time else b.fullAt,
      blk := if isBlk = true then some { need := fld k.w2 40 32 } else b.blk }) n m) := by
  intro b isBlk alone
  have room' : ¬(32 ≤ b.buf.length ∨ (isBlk = true ∧ (getCtx s c 3 x).blk.isSome = true)) := by
    rintro (more | ⟨blk, some_⟩)
    · exact absurd room (Nat.not_lt.mpr more)
    · simp [alone blk] at some_
  have placed : (if 4 ≤ cEngine k then some (fetchFault s n m c (cTag k) stFormat 0 (cIrq k))
      else if 32 ≤ b.buf.length ∨ (isBlk = true ∧ (getCtx s c 3 x).blk.isSome = true) then none
      else some (fetchNext (setCtx s c (cEngine k) x (
        if isBlk then { b with buf := b.buf ++ [k], fullAt := if b.buf.length = 31 then s.time else b.fullAt, blk := some { need := fld k.w2 40 32 } }
        else { b with buf := b.buf ++ [k], fullAt := if b.buf.length = 31 then s.time else b.fullAt })) n m)) =
      some (fetchNext (setCtx s c (cEngine k) x { b with
        buf := b.buf ++ [k], fullAt := if b.buf.length = 31 then s.time else b.fullAt,
        blk := if isBlk = true then some { need := fld k.w2 40 32 } else b.blk }) n m) := by
    rw [if_neg (by omega), if_neg room']
    cases isBlk with
    | false => rfl
    | true => rfl
  unfold dispatch
  dsimp only
  cases hb : (getCtx s c 3 x).blk with
  | none =>
    rw [hb] at placed
    exact placed
  | some v =>
    rw [hb] at placed
    exact (if_neg (by simpa using full v hb)).trans placed

/-! ### The rows (O25) -/

theorem fetchDispatch_ok {u : State} {bs : List Byte} (ht : ringTarget s n = 0) (hf : mayFetch s n m = true)
    (hx : ringCtx s (ringFirst s n + m) n = some x) (line : fetchLine s n m = .ok u bs) :
    execFetchDispatch n m s = .next ((dispatch u n m (ringFirst s n + m) x (cmdOf bs)).getD (keepLine u n m bs)) := by
  rw [execFetchDispatch, if_neg (by simp [ht, hf])]
  dsimp only
  rw [hx]
  dsimp only
  rw [line]
  dsimp only
  cases dispatch u n m (ringFirst s n + m) x (cmdOf bs) with
  | none => rfl
  | some t => rfl

theorem fetchDispatch_bad {u : State} {st : Nat} (ht : ringTarget s n = 0) (hf : mayFetch s n m = true)
    (hx : ringCtx s (ringFirst s n + m) n = some x) (line : fetchLine s n m = .bad u st) :
    execFetchDispatch n m s = .next (fetchFault u n m (ringFirst s n + m) 0 st ((getRing s n).fetch.getD m 0) false) := by
  rw [execFetchDispatch, if_neg (by simp [ht, hf])]
  dsimp only
  rw [hx]
  dsimp only
  rw [line]

/-- The state after a line at hand was read: its contexts and its time are the same. -/
theorem lineRead_same (f b : Nat) (o : Owner) : let v := dropAsks { regPay s f a 64 false with free := b } o
    v.ctxs = s.ctxs ∧ v.time = s.time := by
  obtain ⟨folds, hf⟩ := regPay_eq s f a 64 false
  obtain ⟨asks, ha⟩ := dropAsks_eq { regPay s f a 64 false with free := b } o
  dsimp only
  rw [ha, hf]
  exact ⟨rfl, rfl⟩

/-- Settles O25: a line's fetch, a waiting record, and a coalesced interrupt. -/
theorem ringFetchAndRecords : Obligations.RingFetchAndRecords := by
  intro s u n m x st bs r t
  refine ⟨fun ht hf hx => ?_, fun go waits => ?_, fun h1 h2 h3 => if_pos ⟨h1, h2, h3⟩⟩
  · intro c
    refine ⟨fun h => ?_, fun h => fetchDispatch_bad ht hf hx h, ?_⟩
    · refine (fetchDispatch_ok ht hf hx h).trans ?_
      cases dispatch u n m (ringFirst s n + m) x (cmdOf bs) with
      | none => rfl
      | some t => rfl
    · intro a k e v sc isBlk empty hc at_ asks regs
      have line : fetchLine s n m = .ok v (viewBytes s (gLoc a) 64) := fetchLine_of_atHand empty hc at_ asks regs
      obtain ⟨ctxs, time⟩ := lineRead_same (s := s) (a := a) ((ringFold s n).getD 16) (s.free + 1) (.fetch n m)
      have ctx (q : Nat) : getCtx v c q x = getCtx s c q x := congrArg (fun t => tget ({} : QCtx) t (ctxKey c q x)) ctxs
      have hv : v.time = s.time := time
      clear_value v
      have sent {w : State} (h : dispatch v n m c x k = some w) : exec (.fetchDispatch n m) s = .next w := by
        refine (fetchDispatch_ok ht hf hx line).trans ?_
        rw [show dispatch v n m (ringFirst s n + m) x (cmdOf (viewBytes s (gLoc a) 64)) = some w from h]
        rfl
      refine ⟨fun b hb room => sent ?_, fun full he room alone => ?_⟩
      · rw [dispatch_collects (by rw [ctx]; exact hb) room, ctx]
      · intro b
        refine sent ?_
        rw [dispatch_buffers (by rw [ctx]; exact full) he (by rw [ctx]; exact room) (by rw [ctx]; exact alone), ctx, hv]
  · show execDeferredRecordWrite n s = _
    rw [execDeferredRecordWrite, if_pos go, deferredRec]
    simp only [waits]

end Sys2Proof.Machine


/-! ## The drover, and deadlocks (R200-R202, R402-R408) -/

namespace Sys2Proof.Machine

variable {s : State} {c : Nat}

/-! ### The drover (O29) -/

theorem saveBytes_time (n a : Nat) (bs : List Byte) : (saveBytes s n a bs).time = s.time :=
  (congrArg State.time (show controlOf (saveBytes s n a bs) = controlOf s from controlOf_foldl fun _ _ => controlOf_regWrite ..) :)

/-- Settles O29: each of the drover's rows, by its own conditions. -/
theorem droverActs : Obligations.DroverActs := by
  intro s c o y n t x q hc k
  have hk : getCore s c = k := rfl
  clear_value k
  refine ⟨fun idle next => ?_, fun run lacks => ?_, fun run has asked mark => ⟨fun other => ?_, fun want ctx => ?_⟩,
    fun hq take here not6 point => ?_, ?_, fun free late want => ?_, fun asked limit old notYet runs => ?_⟩
  · show execRingSwitch c s = _
    rw [execRingSwitch, onCore, if_pos hc, hk]
    dsimp only
    rw [idle, next]
  · show execRingSwitch c s = _
    rw [execRingSwitch, onCore, if_pos hc, hk]
    dsimp only
    rw [run]
    exact if_pos lacks
  · have ready : ¬(k.request.isNone || !(fullMark s c y)) = true := by simp [asked, mark]
    show execRingSwitch c s = _
    rw [execRingSwitch, onCore, if_pos hc, hk]
    dsimp only
    rw [run]
    dsimp only
    rw [if_neg (by simp [has]), if_neg ready, other]
    rfl
  · intro u
    have ready : ¬(k.request.isNone || !(fullMark s c y)) = true := by simp [asked, mark]
    have onto : ((wantSwitch s c).bind fun n => (ringCtx s c n).map fun x => (n, x)) = some (n, x) := by simp [want, ctx]
    show execRingSwitch c s = _
    rw [execRingSwitch, onCore, if_pos hc, hk]
    dsimp only
    rw [run]
    dsimp only
    rw [if_neg (by simp [has]), if_neg ready, onto]
    dsimp only
    by_cases big : saveStride s o < 256 + liveSaved s c y o
    · have outgrown : liveFits s c y o = false := decide_eq_false (by omega)
      rw [if_pos (by simp [outgrown]), if_pos big]
    · have fits : liveFits s c y o = true := decide_eq_true (by omega)
      rw [if_neg (by simp [fits]), if_neg big]
  · intro u v
    have may : ¬(curCtx s c q = some x ∨ curCtx s c q = some 6 ∨ (!(takePoint s c q)) = true) := by simp [here, not6, point]
    show execClass0Takeover c q s = _
    rw [execClass0Takeover, onCore, if_pos hc, if_neg (by omega), hk]
    dsimp only
    rw [take]
    dsimp only
    rw [if_neg may]
    have time : u.time = s.time := by
      dsimp only [u]
      split
      · split
        · exact saveBytes_time ..
        · rfl
      · rfl
    have hv : setCore u c { k with
        displaced := lset k.displaced q (some ((k.displaced.getD q none).getD (k.cur.getD q none))),
        cur := lset k.cur q (some x), changed := u.time, slow := if x = 6 then lset k.slow q 0 else k.slow } = v := by rw [time]
    exact congrArg (fun z => (Host.Outcome.next (if x = 6 then rinc z (drvReg 0x18) 1 else z) : Out State)) hv
  · intro idle ps ends
    show execClass0Release c s = _
    rw [execClass0Release, onCore, if_pos hc, hk]
    have time (p : Prop) [Decidable p] : (if p then accKill s c (rangeFrom 60 4) else s).time = s.time := by
      split
      · exact (congrArg State.time (controlOf_accKill (s := s) c (rangeFrom 60 4)) :)
      · rfl
    refine (if_neg (show ¬(!(ps.any fun p => p.2.isSome && idle p.1)) = true by rw [ends]; exact Bool.false_ne_true)).trans ?_
    dsimp only
    rw [time] <;> rfl
  · show execSwitchRequest c s = _
    rw [execSwitchRequest, onCore, if_pos hc, hk]
    dsimp only
    rw [if_neg (by simp [free]; omega), want]
  · intro w
    have some_ : Config.tick * fld (rget s (drvReg 0)) 31 16 ≠ 0 := Nat.mul_ne_zero (by decide) limit
    show execSwitchWithdraw c s = _
    rw [execSwitchWithdraw, onCore, if_pos hc, hk]
    dsimp only
    rw [asked]
    dsimp only
    cases run : k.running with
    | none => exact absurd run runs
    | some p =>
      obtain ⟨r, x⟩ := p
      dsimp only
      have early : (!(fullMark s c x && liveFits s c x r)) = true := by
        obtain h | h := notYet r x run
        · simp [h]
        · simp [h]
      have hw : w = quantumOf s r := by
        dsimp only [w]
        rw [run]
      rw [if_pos ⟨some_, old, early⟩, hw]

/-! ### Deadlocks (O30) -/

/-- The queues that queue q waits for, and on through the edges. -/
def waitsFor (bs : List (Option Block)) (q : Nat) : List Nat :=
  match bs.getD q none with
  | some b => reachQ bs 4 (b.edges.filter fun p => (bs.getD p none).isSome)
  | none => []

theorem blocks_getD {q : Nat} (hq : q < 4) : ((List.range 4).map (blockOf s c)).getD q none = blockOf s c q := by
  simp [List.getD_eq_getElem?_getD, hq]

theorem range_pair : ∀ b < 4, ∀ a < b, (List.range 4).filter (fun q => q == a || q == b) = [a, b] := by decide

/-- Two queues that wait for each other alone reach each other, whichever one begins. -/
theorem reachQ_pair {bs : List (Option Block)} {a b : Nat} {p r : Block} (ha : bs.getD a none = some p) (hb : bs.getD b none = some r)
    (pe : p.edges = [b]) (re : r.edges = [a]) (ne : a ≠ b) : reachQ bs 4 [b] = [b, a] := by
  have one (n : Nat) : reachQ bs (n + 1) [b] = reachQ bs n [b, a] := by
    simp [-List.getD_eq_getElem?_getD, reachQ, ha, hb, re, List.eraseDups_cons, ne]
  have two (n : Nat) : reachQ bs (n + 1) [b, a] = reachQ bs n [b, a] := by
    simp [-List.getD_eq_getElem?_getD, reachQ, ha, hb, pe, re, List.eraseDups_cons, ne]
  rw [one, two, two, two, reachQ]

theorem waitsFor_pair {bs : List (Option Block)} {a b : Nat} {p r : Block} (ha : bs.getD a none = some p) (hb : bs.getD b none = some r)
    (pe : p.edges = [b]) (re : r.edges = [a]) (ne : a ≠ b) : waitsFor bs a = [b, a] := by
  have kept : p.edges.filter (fun q => (bs.getD q none).isSome) = [b] := by simp [-List.getD_eq_getElem?_getD, pe, hb]
  unfold waitsFor
  rw [ha]
  dsimp only
  rw [kept, reachQ_pair ha hb pe re ne]

/-- Settles O30: no queue on a cycle, and one cycle of two. -/
theorem deadlockConfirmActs : Obligations.DeadlockConfirmActs := by
  intro s c a b x p r hc
  refine ⟨fun free => ?_, fun hab hb xa xb ba bb pe re ph rh po ro old' others => ?_⟩
  · show execDeadlockConfirm c s = _
    rw [execDeadlockConfirm, onCore, if_pos hc]
    extract_lets bs after cyc
    have none (q : Nat) (hq : q ∈ List.range 4) : ¬(after q).contains q = true := by
      have hq4 : q < 4 := List.mem_range.mp hq
      show ¬(waitsFor bs q).contains q = true
      rw [waitsFor, blocks_getD hq4, free q hq4]
      exact Bool.false_ne_true
    have hcyc : cyc = [] := List.filter_eq_nil_iff.mpr none
    rw [hcyc]
  · intro bs u v
    show execDeadlockConfirm c s = _
    rw [execDeadlockConfirm, onCore, if_pos hc]
    extract_lets after cyc
    have ne : a ≠ b := Nat.ne_of_lt hab
    have ha4 : a < 4 := by omega
    have atA : bs.getD a none = some p := (blocks_getD ha4).trans ba
    have atB : bs.getD b none = some r := (blocks_getD hb).trans bb
    have afterA : after a = [b, a] := waitsFor_pair atA atB pe re ne
    have afterB : after b = [a, b] := waitsFor_pair atB atA re pe ne.symm
    have hcyc : cyc = [a, b] := by
      refine (List.filter_congr fun q hq => ?_).trans (range_pair b hb a hab)
      have hq4 : q < 4 := List.mem_range.mp hq
      by_cases qa : q = a
      · simp [qa, afterA]
      · by_cases qb : q = b
        · simp [qb, afterB]
        · have none : after q = [] := by
            show waitsFor bs q = []
            rw [waitsFor, blocks_getD hq4, others q hq4 qa qb]
          simp [none, qa, qb]
    rw [hcyc]
    dsimp -zeta only
    extract_lets mem aged holders one s1 xs
    have hmem : mem = [a, b] := by simp [mem, afterA, afterB]
    have hold : aged = true := by
      have wait (i j : Nat) (hi : Config.tick + i ≤ s.time) (hj : Config.tick + j ≤ s.time) : Config.tick + max i j ≤ s.time := by omega
      simp only [aged, hmem, List.all_cons, List.all_nil, atA, atB, wait _ _ po old', wait _ _ ro old', decide_true, Bool.and_self]
    have hholders : holders = [a, b] := by simp only [holders, hmem, List.filter_cons, List.filter_nil, atA, atB, ph, rh, if_true]
    have hxs : xs = [x] := by simp [xs, hholders, xa, xb, List.eraseDups_cons]
    have hs1 : s1 = ror v (coreReg c 0x880) 2 := by
      simp only [s1, hholders, List.foldl_cons, List.foldl_nil, one, atA, atB, xa, xb, pe, re, hmem]
      have na : (List.find? (fun q => [a, b].contains q) [b]).getD 0 = b := by simp
      have nb : (List.find? (fun q => [a, b].contains q) [a]).getD 0 = a := by simp
      rw [na, nb]
    have mine : holders.filter (fun q => curCtx s c q == some x) = [a, b] := by simp [hholders, xa, xb]
    rw [hold, hxs]
    simp only [Bool.not_true, Bool.false_eq_true, if_false, List.foldl_cons, List.foldl_nil, mine, hs1]
    rfl

end Sys2Proof.Machine

/-! ## Pool, model and request commands (R306, R340-R345) -/

namespace Sys2Proof.Machine

variable {s u : State} {n : Nat} {k : Cmd}

/-! ### Reads that follow one another -/

theorem readW_free (h : clean s = true) (v a : Nat) : readW { s with free := v } a = readW s a := by
  unfold readW readLe
  rw [viewBytes_free h]

theorem csrReach_free (v f a : Nat) (w : Bool) : csrReach { s with free := v } f a w = csrReach s f a w := rfl

theorem fwCan_free (h : clean s = true) (v f a len : Nat) (w : Bool) : fwCan { s with free := v } f a len w = fwCan s f a len w := by
  have reach : foldReach { s with free := v } f a len w = foldReach s f a len w := by
    unfold foldReach
    simp only [readW_free h, csrReach_free]
    cases region s.grade a <;> rfl
  unfold fwCan
  rw [reach]

theorem fwCan_fwAfter (h : clean s = true) (f a len m : Nat) (w : Bool) : fwCan (fwAfter s m) f a len w = fwCan s f a len w := by
  unfold fwAfter
  split
  · rfl
  · exact fwCan_free h ..

theorem clean_fwAfter (m : Nat) : clean (fwAfter s m) = clean s := by
  unfold fwAfter
  split <;> rfl

theorem viewBytes_fwAfter (h : clean s = true) (m a len : Nat) : viewBytes (fwAfter s m) a len = viewBytes s a len := by
  unfold fwAfter
  split
  · rfl
  · exact viewBytes_free h ..

/-- A read that firmware may make, it may make as well after another. -/
theorem FwReads.after {o : Owner} {a len : Nat} (h : FwReads s o a len) (m : Nat) : FwReads (fwAfter s m) o a len := by
  unfold fwAfter
  split
  · exact h
  · exact ⟨h.clean, h.asks, h.own, h.memory, h.whole, h.free⟩

/-! ### Pools (R306) -/

/-- POOL.DEFINE with both reads made. -/
theorem poolDefine_done {v w : State} {bs tb : List Byte} (h : Serves s u n 1 0x18 k) (h1 : fld k.w2 63 50 = 0) (h2 : tailZero k = true)
    (can : fwCan u ((svcOf u n k).fold.getD 16) (fld k.w2 49 0) 64 false = true)
    (read : fwRead u (.service n) (fld k.w2 49 0) 64 = .ok v bs)
    (canTab : fwCan v ((svcOf u n k).fold.getD 16) (geoOf fun i => (wordsAt bs).getD i 0).chtab
      (2 * (geoOf fun i => (wordsAt bs).getD i 0).nch) false = true)
    (readTab : fwRead v (.service n) (geoOf fun i => (wordsAt bs).getD i 0).chtab (2 * (geoOf fun i => (wordsAt bs).getD i 0).nch) = .ok w tb) :
    exec (.poolDefine n) s =
      let r := poolDefine w ((svcOf u n k).fold.getD 16) (wordsAt bs) (unpack 16 (geoOf fun i => (wordsAt bs).getD i 0).nch tb)
      .next (svcAnswer r.1 n k r.2 0) := by
  show execPoolDefine n s = _
  unfold execPoolDefine
  refine svcRow_done h (by simp [h1, h2]) ?_
  dsimp only
  have same : (svcOf u n k).cmd = k := rfl
  rw [same, if_neg (by simp [can]), read]
  dsimp only
  rw [if_neg (by rw [canTab]; simp), readTab]

/-- Settles O32: each command's checks pass. -/
theorem poolAndModelCommandsComplete : Obligations.PoolAndModelCommandsComplete := by
  intro s u n k
  refine ⟨fun h h1 h2 => ?_, fun h h1 h2 => ?_, fun h hb ha pool group tally sheet res free => ?_, fun h h1 h2 => ?_⟩
  · intro f a geo can
    refine ⟨fun v w bs tb read canTab readTab => poolDefine_done h h1 h2 can read canTab readTab, ?_⟩
    intro bs m reads readsTab canTab
    have tab : FwReads (fwAfter u 64) (.service n) (geo bs).chtab m := readsTab.after 64
    refine (poolDefine_done h h1 h2 can (fwRead_of_reads reads) ((fwCan_fwAfter reads.clean ..).trans canTab) (fwRead_of_reads tab)).trans ?_
    rw [viewBytes_fwAfter reads.clean]
  · intro p
    show execPoolDrop n s = _
    unfold execPoolDrop
    have checked : (fld k.w2 63 5 != 0 || !tailZero k) = false := by simp [h1, h2]
    have same : (svcOf u n k).cmd = k := rfl
    cases hp : getPool u p with
    | none => exact svcRow_done h checked (by dsimp only; rw [same, hp])
    | some d =>
      rw [if_neg (by simp)]
      split
      next other => exact svcRow_done h checked (by dsimp only; rw [same, hp]; exact if_pos other)
      next own =>
        split
        next held => exact svcRow_done h checked (by dsimp only; rw [same, hp]; exact (if_neg own).trans (if_pos (by simpa using held)))
        next free => exact svcRow_done h checked (by dsimp only; rw [same, hp]; exact (if_neg own).trans (if_neg (by simpa using free)))
  · show execModelBind n s = _
    unfold execModelBind
    refine svcRow_done h hb ?_
    dsimp only
    have same : (svcOf u n k).cmd = k := rfl
    rw [same, if_neg (by simp [ha]), if_neg (by simp [pool, group, tally, sheet, res]), if_neg (by simp [free])]
  · intro m bound own idle shut
    show execModelUnbind n s = _
    unfold execModelUnbind
    refine svcRow_done h (by simp [h1, h2]) ?_
    dsimp only
    have same : (svcOf u n k).cmd = k := rfl
    rw [same, if_neg (by simp [m, bound]), if_neg (by simp [m, own]), if_neg (by simp [m, idle, shut])]

/-! ### REQ.SUBMIT (R341) -/

/-- Words that firmware may read, it finds as they stand in memory. -/
theorem fwRead32_of_reads {o : Owner} {a m : Nat} (h : m = 0 ∨ FwReads s o a (4 * m)) :
    fwRead32 s o a m = .ok (fwAfter s (4 * m)) (unpack 32 m (viewBytes s a (4 * m))) := by
  have read : fwRead s o a (4 * m) = .ok (fwAfter s (4 * m)) (viewBytes s a (4 * m)) := by
    obtain rfl | reads := h
    · rfl
    · exact fwRead_of_reads reads
  rw [fwRead32, read]
  rfl

/-- Settles O34: every check of REQ.SUBMIT passes, and the slots suffice. -/
theorem requestSubmitAdmits : Obligations.RequestSubmitAdmits := by
  intro s u n k h hb f m d g p a plen lim admits bound own pool prompt events list ring share room
  have submits : ∀ v toks, fwRead32 u (.service n) a (lim * g.t) = .ok v toks → admits v toks := by
    intro v toks read quota slots
    have its : (d.bound && d.fold == f) = true := by simp [bound, own]
    show execReqSubmit n s = _
    unfold execReqSubmit
    refine svcRow_done h hb ?_
    dsimp only
    have same : (svcOf u n k).cmd = k := rfl
    rw [same]
    have checks : (!(fwCan u f a (4 * p) false) || !(fwCan u f (fld k.w7 49 0) 128 false) ||
        !(!(d.bound && d.fold == f) || fwCan u f (fld k.w6 49 0) (4 * plen) true) || !(foldRing u f (fld k.w2 31 16))) = false := by
      rw [prompt, events, list, ring]
      simp
    have known : (!(d.bound && d.fold == f) || (getPool u d.pool).isNone) = false := by
      rw [its]
      simpa using pool
    refine (if_neg (ne_true_of_eq_false checks)).trans ((if_neg (ne_true_of_eq_false known)).trans
      ((if_neg (Nat.not_le.mpr share)).trans ((if_neg (Nat.not_le.mpr room)).trans ?_)))
    rw [read]
    dsimp only
    exact (if_neg (Nat.not_lt.mpr quota)).trans (if_neg (Nat.not_lt.mpr slots))
  exact ⟨submits, fun reads => submits _ _ (fwRead32_of_reads reads)⟩

end Sys2Proof.Machine

/-! ## The serving engine's own steps (R346, R347, R354, R362, R385) -/

namespace Sys2Proof.Machine

variable {s : State} {m : Nat}

/-! ### A boundary with nothing to do (R347) -/

/-- A model whose state gives its boundary nothing to do: no request, and no command or prefix clearing waits. -/
structure Quiet (s : State) (m : Nat) : Prop where
  reqs : modelReqs s m = []
  cmds : s.srv.cmds = []
  groups : s.srv.groups = []

theorem Quiet.setModel (h : Quiet s m) (v : Model) : Quiet (setModel s m v) m := ⟨h.reqs, h.cmds, h.groups⟩

theorem Quiet.rset (h : Quiet s m) (a : Nat) (v : Word) : Quiet (rset s a v) m := ⟨h.reqs, h.cmds, h.groups⟩

theorem Quiet.poolStat (h : Quiet s m) (p : Nat) : Quiet (poolStat s p) m := by
  unfold Machine.poolStat
  split
  · exact (h.rset ..).rset ..
  · exact (h.rset ..).rset ..

theorem Quiet.rtCount (h : Quiet s m) : Quiet (rtCount s) m := h.rset ..

theorem Quiet.belongNext (h : Quiet s m) : belongNext s m = s := by
  unfold Machine.belongNext
  rw [h.cmds, List.map_nil, ← h.cmds]

theorem Quiet.applyGroups (h : Quiet s m) : applyGroups s = s := by
  unfold Machine.applyGroups
  simp [h.groups]

theorem Quiet.boundCmds (h : Quiet s m) (ops : List Nat) : boundCmds s m ops = [] := by
  unfold Machine.boundCmds
  rw [h.cmds, List.filter_nil]

theorem Quiet.planStep (h : Quiet s m) : planStep s m = .ok s () := by
  unfold Machine.planStep
  rw [h.reqs]
  simp only [gotEach, Got.bind, List.filter_nil, sortBy, planDecode, planPrefill, releaseDrained, List.foldl_nil]
  rw [h.belongNext]
  rfl

/-- Registers are brought up to date and nothing else happens. -/
theorem boundary_of_quiet (h : Quiet s m) (hc : (getModel s m).closing = none) :
    boundary s m =
      let t := setModel s m { getModel s m with batches := [], closing := none }
      let t := rtCount (poolStat t (getModel t m).pool)
      .ok (rtCount (poolStat t (getModel t m).pool)) () := by
  unfold boundary
  dsimp only
  rw [hc]
  simp only [Option.isNone_none, if_true, h.belongNext, h.reqs, List.filter_nil, List.foldl_nil, h.applyGroups, h.boundCmds, gotEach, Got.bind]
  have after := h.setModel { getModel s m with batches := [], closing := none }
  simp only [after.boundCmds, gotEach, releaseDrained, List.foldl_nil, (after.poolStat _).rtCount.planStep]

/-- A boundary that goes through takes back what its model had asked of memory. -/
theorem stepBoundary_ran {u : State} (hm : m < 256) (shut : (getModel s m).isOpen = false) (up : fwFatal s = false)
    (bound : (getModel s m).bound = true) (plan : (getModel s m).planned = none) (did : boundary s m = .ok u ()) :
    exec (.stepBoundary m) s = .next (dropAsks u (.model m)) := by
  show execStepBoundary m s = _
  unfold execStepBoundary
  rw [if_neg (by omega)]
  dsimp only
  rw [shut, up, bound, plan, did]
  rfl

/-! ### The image of a parked request (R385) -/

/-- Ranges that firmware may read one after another, it finds as they stand in memory. -/
theorem fwReadAll_of_reads {o : Owner} (rs : List (Nat × Nat)) (h : ∀ r ∈ rs, FwReads s o r.1 r.2) :
    fwReadAll o rs s = .ok (rs.foldl (fun t r => fwAfter t r.2) s) (rs.map fun r => viewBytes s r.1 r.2) := by
  suffices go : ∀ (t : State) (l : List (List Byte)), (∀ r ∈ rs, FwReads t o r.1 r.2) →
      rs.foldl (fun (a : Got (List (List Byte))) r => a.bind fun s l => (fwRead s o r.1 r.2).bind fun s b => .ok s (l ++ [b])) (.ok t l) =
        .ok (rs.foldl (fun t r => fwAfter t r.2) t) (l ++ rs.map fun r => viewBytes t r.1 r.2) by
    unfold fwReadAll
    simpa using go s [] h
  clear h
  induction rs with
  | nil => simp
  | cons r rs ih =>
    intro t l h
    have first : FwReads t o r.1 r.2 := h r (by simp)
    have rest : ∀ q ∈ rs, FwReads (fwAfter t r.2) o q.1 q.2 := fun q hq => (h q (by simp [hq])).after _
    have one : (fwRead t o r.1 r.2).bind (fun s b => .ok s (l ++ [b])) = .ok (fwAfter t r.2) (l ++ [viewBytes t r.1 r.2]) := by
      rw [fwRead_of_reads first]
      rfl
    refine (congrArg (fun a => List.foldl _ a rs) one).trans ((ih _ _ rest).trans ?_)
    simp [viewBytes_fwAfter first.clean]

/-- PARK ends once the image's pages are read. -/
theorem parkImage_done {i ring id : Nat} {im : Image} {u : State} {pages : List (List Byte)} (hi : i < nReq)
    (image : (getReq s i).image = some im) (job : im.job = some (ring, id))
    (read : fwReadAll (.request i) ((imgOrder (poolGeo s (getReq s i).pool) (eC s i)).map fun e =>
      (imgAddr s i e.1 e.2, (poolGeo s (getReq s i).pool).page)) s = .ok u pages) :
    exec (.parkImageDone i) s =
      let t := fwWrite (dropAsks u (.request i)) (eFold u i) im.addr (imgBytes u i im pages)
      let t := setReq t i { getReq t i with image := some { im with job := none } }
      .next (svcEnd (releaseSlots t i false) ring id stOk im.size) := by
  show execParkImageDone i s = _
  unfold execParkImageDone
  rw [if_neg (Nat.not_le.mpr hi), image]
  dsimp only
  rw [job]
  dsimp only
  rw [read]

/-- Settles O35: done writes, timeouts, boundaries and images. -/
theorem servingStepsAct : Obligations.ServingStepsAct := by
  intro s u ring m i id v im bs elig
  refine ⟨fun hr hm => ?done, fun hm isOpen limit late => ?timeout, fun hm shut up bound => ⟨fun plan did => ?ran, fun plan late => ?planned,
    fun plan reqs cmds groups _ closing => ?quiet⟩, fun hi image job => ?image⟩
  case done =>
    show execSrvStepDone ring m v s = _
    unfold execSrvStepDone
    rw [if_neg (by omega)]
    grind
  case timeout =>
    show execStepTimeout m s = _
    unfold execStepTimeout
    rw [if_neg (by omega)]
    exact if_pos ⟨isOpen, limit, late⟩
  case ran => exact stepBoundary_ran hm shut up bound plan did
  case planned =>
    show execStepBoundary m s = _
    unfold execStepBoundary
    rw [if_neg (by omega)]
    dsimp only
    rw [shut, up, bound, plan]
    exact congrArg Host.Outcome.next (if_pos late)
  case quiet => exact stepBoundary_ran hm shut up bound plan (boundary_of_quiet ⟨reqs, cmds, groups⟩ closing)
  case image =>
    intro g runs written
    refine ⟨fun pages read => parkImage_done hi image job read, fun reads => ?_⟩
    have pages : runs.map (fun r => viewBytes s r.1 r.2) = imgPagesNow s i := by
      unfold imgPagesNow
      exact List.map_map
    rw [← pages]
    exact parkImage_done hi image job (fwReadAll_of_reads runs reads)

end Sys2Proof.Machine

/-! ## Atomics at their home (R292-R294) -/

namespace Sys2Proof.Machine

variable {s : State}

/-! ### A result fits its word -/

/-- What the encoding of a finite value needs to know of its format: it has infinities, and its largest finite value is the one whose
mantissa is full and whose exponent is the last but one. -/
structure Binary (f : FFmt) : Prop where
  ieee : f.sp = .ieee
  mantissa : 1 ≤ f.mb
  exponent : 2 ≤ f.eb
  largest : fdec f (maxEnc f) = .fin false (2 ^ (f.mb + 1) - 1) ((2 : Int) ^ f.eb - 2 - f.bias - f.mb)

theorem binary_fp32 : Binary fp32 := ⟨rfl, by decide, by decide, by decide +kernel⟩

theorem binary_fp64 : Binary fp64 := ⟨rfl, by decide, by decide, by decide +kernel⟩

variable {f : FFmt}

theorem Binary.inf_lt (h : Binary f) : (2 ^ f.eb - 1) <<< f.mb + 2 ^ (f.mb - 1) < 2 ^ (f.eb + f.mb) := by
  have half : 2 ^ (f.mb - 1) < 2 ^ f.mb := Nat.pow_lt_pow_right (by decide) (by have := h.mantissa; omega)
  have one : 1 ≤ 2 ^ f.eb := Nat.one_le_two_pow
  rw [Nat.shiftLeft_eq, Nat.sub_mul, Nat.pow_add, Nat.one_mul]
  have : 2 ^ f.mb ≤ 2 ^ f.eb * 2 ^ f.mb := Nat.le_mul_of_pos_left _ (by omega)
  omega

/-- A magnitude that does not overflow has an exponent that the format has. -/
theorem xlog2_le_of_not_ovf (h : Binary f) {m : Nat} {e : Int} (hm : m ≠ 0) (fits : ovfRne f m e = false) :
    xlog2 m e ≤ (2 : Int) ^ f.eb - 2 - f.bias := by
  unfold ovfRne at fits
  rw [h.largest] at fits
  simp only [Bool.not_eq_eq_eq_not, Bool.not_false] at fits
  unfold magLt at fits
  generalize (2 : Int) ^ f.eb = E at fits ⊢
  have width : 2 * (2 ^ (f.mb + 1) - 1) + 1 < 2 ^ (f.mb + 2) := by
    have := Nat.one_le_two_pow (n := f.mb + 1)
    rw [Nat.pow_succ 2 (f.mb + 1)]
    omega
  unfold xlog2
  split at fits
  next low =>
    simp only [decide_eq_true_eq, Nat.shiftLeft_eq] at fits
    generalize hk : (E - 2 - f.bias - f.mb - 1 - e).toNat = k at fits
    have small : m < 2 ^ (f.mb + 2 + k) := by
      rw [Nat.pow_add]
      exact fits.trans ((Nat.mul_lt_mul_right (Nat.two_pow_pos k)).mpr width)
    have := (Nat.log2_lt hm).mpr small
    omega
  next high =>
    simp only [decide_eq_true_eq, Nat.shiftLeft_eq] at fits
    generalize hk : (e - (E - 2 - f.bias - f.mb - 1)).toNat = k at fits
    have small : m < 2 ^ (f.mb + 2 - k) := by
      have room : 2 ^ k < 2 ^ (f.mb + 2) := (Nat.le_mul_of_pos_left _ (Nat.pos_of_ne_zero hm)).trans_lt (fits.trans width)
      have hk2 : k < f.mb + 2 := (Nat.pow_lt_pow_iff_right (by decide)).mp room
      refine Nat.lt_of_mul_lt_mul_right (a := 2 ^ k) ?_
      rw [← Nat.pow_add, Nat.sub_add_cancel hk2.le]
      exact fits.trans width
    have nonzero : f.mb + 2 - k ≠ 0 := by
      rintro h0
      rw [h0] at small
      omega
    have := (Nat.log2_lt hm).mpr small
    omega

/-- A magnitude rounded at its format's spacing has at most one bit more than the mantissa. -/
theorem roundMag_le (m : Nat) (e : Int) : roundMag none m e (spacing f m e) ≤ 2 ^ (f.mb + 1) := by
  have top : m < 2 ^ (m.log2 + 1) := Nat.lt_log2_self
  have room : xlog2 m e - f.mb ≤ spacing f m e := Int.le_max_left ..
  unfold xlog2 at room
  generalize spacing f m e = q at room ⊢
  unfold roundMag
  split
  next whole =>
    rw [Nat.shiftLeft_eq]
    have bits : m.log2 + 1 + (e - q).toNat ≤ f.mb + 1 := by omega
    calc m * 2 ^ (e - q).toNat ≤ 2 ^ (m.log2 + 1) * 2 ^ (e - q).toNat := Nat.mul_le_mul_right _ top.le
      _ = 2 ^ (m.log2 + 1 + (e - q).toNat) := (Nat.pow_add ..).symm
      _ ≤ 2 ^ (f.mb + 1) := Nat.pow_le_pow_right (by decide) bits
  next =>
    have bits : m.log2 + 1 ≤ f.mb + 1 + (q - e).toNat := by omega
    have short : m >>> (q - e).toNat < 2 ^ (f.mb + 1) := by
      rw [Nat.shiftRight_eq_div_pow, Nat.div_lt_iff_lt_mul (Nat.two_pow_pos _), ← Nat.pow_add]
      exact top.trans_le (Nat.pow_le_pow_right (by decide) bits)
    dsimp only
    split
    · exact short
    · exact short.le

theorem packMag_lt (h : Binary f) {n : Nat} {q : Int} (hn : n ≤ 2 ^ (f.mb + 1)) (hq : (q + f.mb + f.bias).toNat ≤ 2 ^ f.eb - 2) :
    packMag f n q < 2 ^ (f.eb + f.mb) := by
  have top := h.inf_lt
  have four : 2 ^ 2 ≤ 2 ^ f.eb := Nat.pow_le_pow_right (by decide) h.exponent
  unfold packMag
  split
  next small => exact small.trans_le (Nat.pow_le_pow_right (by decide) (by omega))
  next =>
    rw [Nat.shiftLeft_eq] at top ⊢
    have field : (q + f.mb + f.bias).toNat * 2 ^ f.mb + 2 ^ f.mb ≤ (2 ^ f.eb - 1) * 2 ^ f.mb := by
      rw [← Nat.succ_mul]
      exact Nat.mul_le_mul_right _ (by omega)
    rw [Nat.pow_succ] at hn
    have half := Nat.two_pow_pos (f.mb - 1)
    omega

theorem fenc_lt (h : Binary f) (v : XVal) : (fenc f none false v).1 < 2 ^ f.bits := by
  have sign (neg : Bool) {x : Nat} (hx : x < 2 ^ (f.eb + f.mb)) : (if neg then x + 2 ^ (f.eb + f.mb) else x) < 2 ^ f.bits := by
    have : f.bits = f.eb + f.mb + 1 := by unfold FFmt.bits; omega
    rw [this, Nat.pow_succ]
    split <;> omega
  have top := h.inf_lt
  have inf : (2 ^ f.eb - 1) <<< f.mb < 2 ^ (f.eb + f.mb) := (Nat.le_add_right ..).trans_lt top
  unfold fenc
  rw [if_pos h.ieee]
  cases v with
  | nan => exact (by simpa [canonNaN, h.ieee] using sign false top)
  | inf neg => exact sign neg inf
  | fin neg m e =>
    dsimp only
    split
    · exact sign neg (Nat.two_pow_pos _)
    next hm =>
      split
      · exact sign neg inf
      next fits =>
        refine sign neg ?_
        have log := xlog2_le_of_not_ovf h hm (eq_false_of_ne_true fits)
        have mag := roundMag_le (f := f) m e
        have exp : (spacing f m e + f.mb + f.bias).toNat ≤ 2 ^ f.eb - 2 := by
          have four : 2 ^ 2 ≤ 2 ^ f.eb := Nat.pow_le_pow_right (by decide) h.exponent
          have cast : ((2 ^ f.eb : Nat) : Int) = (2 : Int) ^ f.eb := by push_cast; rfl
          unfold spacing
          generalize (2 : Int) ^ f.eb = E at *
          generalize 2 ^ f.eb = F at *
          omega
        exact packMag_lt h mag exp

/-- The word of an atomic, in bytes (R292). -/
def amoBytes (size8 : Bool) : Nat := if size8 then 8 else 4

theorem atomicOp_lt (aop : Nat) (size8 : Bool) (old opd cmp : Nat) : atomicOp aop size8 old opd cmp < 256 ^ amoBytes size8 := by
  have width : 256 ^ amoBytes size8 = 2 ^ (if size8 then 64 else 32) := by cases size8 <;> rfl
  have float (x : XVal) : (fenc (if size8 then fp64 else fp32) none false x).1 < 2 ^ (if size8 then 64 else 32) := by
    cases size8
    · exact fenc_lt binary_fp32 x
    · exact fenc_lt binary_fp64 x
  rw [width]
  unfold atomicOp
  extract_lets n m o x g
  have ho : o < m := Nat.mod_lt _ (Nat.two_pow_pos n)
  have hx : x < m := Nat.mod_lt _ (Nat.two_pow_pos n)
  split
  · exact Nat.mod_lt _ (Nat.two_pow_pos n)
  · exact Nat.and_lt_two_pow _ hx
  · exact Nat.or_lt_two_pow ho hx
  · exact Nat.xor_lt_two_pow ho hx
  · exact hx
  · split
    · exact hx
    · exact ho
  · split
    · exact ho
    · exact hx
  · split
    · exact ho
    · exact hx
  · exact (Nat.min_le_left ..).trans_lt ho
  · exact Nat.max_lt.mpr ⟨ho, hx⟩
  · exact float _

/-! ### A run of memory that is written reads as written -/

variable {a n : Nat} {bs : List Byte} {m : Meet}

theorem InMemory.side (h : InMemory s.grade a) (pop : populated s.grade a n = true) : n = 0 ∨ a + n ≤ ilvEnd ∨ blinBase ≤ a := by
  unfold populated runEnd at pop
  obtain dram | spd | cmn := h
  · rw [dram] at pop
    have where_ := region_dram.mp dram
    simp only [Bool.or_eq_true, beq_iff_eq, decide_eq_true_eq] at pop
    split at pop <;> omega
  · have where_ := region_spd.mp spd
    have h1 : blinBase ≤ spdBase := by decide
    omega
  · have where_ := region_cmn.mp cmn
    have h1 : blinBase ≤ cmnBase := by decide
    omega

theorem ilvToLin_lt (h : a < ilvEnd) : ilvToLin a < spdBase := by
  have bank := ilvBank_lt (a / 256 / 384)
  have chan := ilvChan_lt (a / 256 / 384) (a / 256 % 384)
  have off := ilvOffset_lt h
  rw [ilvToLin_eq_bankAddr]
  unfold bankAddr blinBase spdBase
  omega

theorem InMemory.coreLoc {g : Config.Grade} (h : InMemory g a) : CoreLoc (locOf a) := by
  have h1 : blinEnd ≤ spdBase := by decide
  have h2 : ilvEnd < blinBase := by decide
  have h3 : spdEnd ≤ cmnBase := by decide
  by_cases low : a < ilvEnd
  · rw [locOf, if_pos low]
    exact coreLoc_of_lt (ilvToLin_lt low)
  · rw [locOf, if_neg low]
    obtain dram | spd | cmn := h
    · have := region_dram.mp dram
      exact coreLoc_of_lt (by omega)
    · have := region_spd.mp spd
      have := cores_le g
      intro _
      unfold locCore
      omega
    · have := region_cmn.mp cmn
      intro inSpd
      simp only [isSpdLoc, Bool.and_eq_true, decide_eq_true_eq] at inSpd
      omega

theorem InMemory.coreLoc_run (h : InMemory s.grade a) (pop : populated s.grade a n = true) {i : Nat} (hi : i < n) :
    CoreLoc (locOf (a + i)) := by
  have there : InMemory s.grade (a + i) := by
    unfold InMemory
    rw [region_run h pop hi]
    exact h
  exact there.coreLoc

theorem writeBytes_reads (hw : Whole s) (h : StoresWf s) (mem : InMemory s.grade a) (pop : populated s.grade a bs.length = true) :
    viewBytes (writeBytes s m a bs).1 a bs.length = bs := by
  have clean : Machine.clean (writeBytes s m a bs).1 = true := (hw.writeBytes fun i hi => mem.coreLoc_run pop hi).clean
  refine List.ext_getElem (by simp [viewBytes]) fun i hi hj => ?_
  have side : a + bs.length ≤ ilvEnd ∨ blinBase ≤ a := (mem.side pop).resolve_left (by omega)
  simp only [viewBytes, List.getElem_map, List.getElem_range]
  rw [viewByte_of_clean clean, memGet_writeBytes_of_clean hw.clean,
    memGet_putBytes_of_mem h side hj, List.getD_eq_getElem?_getD, List.getElem?_eq_getElem hj]
  rfl

theorem readLe_writeBytes {x : Nat} (hw : Whole s) (h : StoresWf s) (mem : InMemory s.grade a) (pop : populated s.grade a n = true)
    (fits : x < 256 ^ n) : readLe (writeBytes s m a (leBytes n x)).1 a n = x := by
  have len : (leBytes n x).length = n := leBytes_length
  have read := writeBytes_reads (m := m) (bs := leBytes n x) hw h mem (by rw [len]; exact pop)
  rw [len] at read
  rw [readLe, read, leNat_leBytes, Nat.mod_eq_of_lt fits]

/-! ### The atomic itself -/

theorem foldl_applyView_of_clean (h : clean s = true) (us : List Nat) : us.foldl applyView s = s := by
  induction us with
  | nil => rfl
  | cons u us ih =>
    have stays : applyView s u = s := by simp [applyView, unitView_of_clean h]
    rw [List.foldl_cons, stays, ih]

/-- Where no codeword differs from its encoding, an atomic reads its word and writes what comes of it. -/
theorem atomicAt_of_clean (h : clean s = true) (size8 : Bool) (aop opd cmp : Nat) :
    atomicAt s m a size8 aop opd cmp =
      ((writeBytes s m a (leBytes (amoBytes size8) (atomicOp aop size8 (readLe s a (amoBytes size8)) opd cmp))).1,
        .ok (readLe s a (amoBytes size8))) := by
  rw [writeBytes_of_clean h, leBytes_length]
  unfold atomicAt
  simp only [eccTouch_of_clean h, if_pos h, foldl_applyView_of_clean h]
  rfl

/-- An atomic at its home leaves the new value in its word (R292-R294). -/
theorem atomicAt_done (hw : Whole s) (h : StoresWf s) (mem : InMemory s.grade a) (size8 : Bool) (pop : populated s.grade a (amoBytes size8) = true)
    (aop opd cmp : Nat) : ∃ u, atomicAt s m a size8 aop opd cmp = (u, .ok (readLe s a (amoBytes size8))) ∧ beyondMem u = beyondMem s ∧
      clean u = true ∧ readLe u a (amoBytes size8) = atomicOp aop size8 (readLe s a (amoBytes size8)) opd cmp := by
  refine ⟨_, atomicAt_of_clean hw.clean .., beyondMem_writeBytes .., ?_, readLe_writeBytes hw h mem pop (atomicOp_lt ..)⟩
  exact (hw.writeBytes fun i hi => mem.coreLoc_run pop (by rwa [leBytes_length] at hi)).clean

end Sys2Proof.Machine

/-! ## Host accesses (R226, R445, R490-R497) -/

namespace Sys2Proof.Machine

/-- A device in READY whose window 0 of BAR2 shows the scratchpad of core 0. The scratchpad's first granule has one bad bit and waits for its
write-back (R226), and the flip mask that is armed on the core is itself a codeword: one data bit and its three check bits (R445). -/
def flipArmed : State := { State.reset with
  boot := { state := 4, step := 8 }
  hif := { linkUp := true, wins := [(0, some (BitVec.ofNat 64 (spdBase + 1)))] }
  gerrs := [(spdBase, 32)]
  ecc := { writeback := [spdBase] }
  regs := [(coreReg 0 0xD40, 1), (coreReg 0 0xD48, BitVec.ofNat 64 (256 + secCol 0))] }

/-- The bytes that the host has been answered. -/
def answered (o : Out State) : List (List Byte) :=
  match o with
  | .next t => t.hostAns.map (·.data)
  | _ => []

theorem flipArmed_gate : accessGate flipArmed 0 2 0 8 false false = .mem spdBase ∧
    hostGo flipArmed 0 4 (gOwn flipArmed spdBase) 8 false = true := by decide +kernel

/-- Refutes O43: the read that finds a granule whose write-back waits answers the granule as it stood, but the write-back that the read
completes is the next write of the scratchpad and takes its armed flip mask, so that the bytes of the state after it are others. -/
theorem not_hostAccessesAct : ¬ Obligations.HostAccessesAct := by
  unfold Obligations.HostAccessesAct
  intro h
  obtain ⟨gate, go⟩ := flipArmed_gate
  obtain ⟨-, read, -⟩ := h flipArmed flipArmed 0 2 0 8 spdBase 0 0 0 [] 0 0 (by decide) (.inr rfl) rfl
  exact absurd (congrArg answered (read gate go)) (by decide +kernel)

end Sys2Proof.Machine

/-! ## Pieces of a transfer that are written at once (R98, R111, R218, R245) -/

namespace Sys2Proof.Machine

variable {s v : State} {a n : Nat} {bs : List Byte}

/-! ### Channels of a run -/

theorem locChan_line {b : Nat} (hb : b < ilvEnd) : locChan (ilvToLin (b / 256 * 256)) = locChan (ilvToLin b) := by
  rw [locChan_ilvToLin (by omega), locChan_ilvToLin hb]
  congr 1 <;> omega

/-- Where no channel of a run of DRAM computes, each of its bytes may be accessed at once. -/
theorem chanHolds_of_free (dram : region s.grade a = .dram) (pop : populated s.grade a n = true) (free : rangeHeld s a n = false)
    {i : Nat} (hi : i < n) : chanHolds s (locChan (locOf (a + i))) = false := by
  have none_ : ∀ g ∈ chansOf a n, chanHolds s g = false := by
    simpa [rangeHeld, dram] using free
  have whereA := region_dram.mp dram
  have whereI := region_dram.mp ((region_run (.inl dram) pop hi).trans dram)
  have gap : ilvEnd < blinBase := by decide
  unfold chansOf at none_
  rw [if_neg (by omega)] at none_
  split at none_
  next low =>
    have lowI : a + i < ilvEnd := by
      have side := InMemory.side (s := s) (.inl dram) pop
      omega
    refine none_ _ (List.mem_map.mpr ⟨(a + i) / 256 - a / 256, List.mem_range.mpr (by omega), ?_⟩)
    rw [locOf, if_pos lowI, ← locChan_line lowI]
    congr 3
    omega
  next high =>
    have same : locChan (locOf (a + i)) = locChan a := by
      rw [locOf_eq_self (by omega)]
      unfold populated runEnd at pop
      rw [dram] at pop
      simp only [if_neg high, Bool.or_eq_true, beq_iff_eq, decide_eq_true_eq] at pop
      unfold locChan locBank
      omega
    rw [same]
    exact none_ _ (by simp)

/-! ### What a write of a run leaves -/

/-- The state v is s with the run of bytes at a written under a mask of bits: nothing but memory differs, and no byte outside the run. -/
structure Wrote (s v : State) (a : Nat) (mask : Byte) (bs : List Byte) : Prop where
  beyond : beyondMem v = beyondMem s
  whole : Whole v
  stores : StoresWf v
  outside : ∀ j, (∀ i < bs.length, j ≠ locOf (a + i)) → memGet v j = memGet s j
  inside : mask = 0xFF → ∀ i < bs.length, memGet v (locOf (a + i)) = bs.getD i 0

theorem maskBytes_length (mask : Byte) : (maskBytes s a mask bs).length = bs.length := by
  unfold maskBytes
  split
  · rfl
  · exact List.length_map ..

theorem Wrote.of_writeBytes {mask : Byte} {m : Meet} (hw : Whole s) (h : StoresWf s) (locs : ∀ i < bs.length, CoreLoc (locOf (a + i)))
    (side : a + bs.length ≤ ilvEnd ∨ blinBase ≤ a) : Wrote s (writeBytes s m a (maskBytes s a mask bs)).1 a mask bs := by
  have len := maskBytes_length (s := s) (a := a) (bs := bs) mask
  refine ⟨beyondMem_writeBytes .., hw.writeBytes (by rwa [len]), (writeBytes_keeps .rfl).stores h, fun j out => ?_, fun full i hi => ?_⟩
  · rw [memGet_writeBytes_of_clean hw.clean]
    exact memGet_putBytes_of_outside h (by rwa [len])
  · rw [maskBytes, if_pos full, memGet_writeBytes_of_clean hw.clean]
    exact memGet_putBytes_of_mem h side hi

theorem Wrote.viewBytes {mask : Byte} (h : Wrote s v a mask bs) (full : mask = 0xFF) : viewBytes v a bs.length = bs := by
  refine List.ext_getElem (by simp [Machine.viewBytes]) fun i hi hj => ?_
  simp only [Machine.viewBytes, List.getElem_map, List.getElem_range]
  rw [viewByte_of_clean h.whole.clean, h.inside full i hj, List.getD_eq_getElem?_getD, List.getElem?_eq_getElem hj]
  rfl

theorem Wrote.refl {mask : Byte} (hw : Whole s) (h : StoresWf s) : Wrote s s a mask [] :=
  ⟨rfl, hw, h, fun _ _ => rfl, fun _ i hi => absurd hi (Nat.not_lt_zero i)⟩

/-- Two runs written one after the other, the second behind the first. -/
theorem Wrote.append {u : State} {mask : Byte} {b1 b2 : List Byte} (first : Wrote s u a mask b1) (second : Wrote u v (a + b1.length) mask b2)
    (side : a + (b1.length + b2.length) ≤ ilvEnd ∨ blinBase ≤ a) : Wrote s v a mask (b1 ++ b2) := by
  refine ⟨second.beyond.trans first.beyond, second.whole, second.stores, fun j out => ?_, fun full i hi => ?_⟩
  · rw [List.length_append] at out
    rw [second.outside j fun i hi => by have := out (b1.length + i) (by omega); rwa [← Nat.add_assoc] at this]
    exact first.outside j fun i hi => out i (by omega)
  · rw [List.length_append] at hi
    by_cases h1 : i < b1.length
    · have apart : memGet v (locOf (a + i)) = memGet u (locOf (a + i)) := second.outside _ fun k hk e => by
        have := locOf_injective (by omega) e
        omega
      rw [apart, first.inside full i h1]
      simp [List.getElem?_append_left h1]
    · obtain ⟨k, rfl⟩ := Nat.exists_eq_add_of_le (Nat.le_of_not_lt h1)
      have written := second.inside full k (by omega)
      rw [← Nat.add_assoc, written, List.getD_eq_getElem?_getD, List.getD_eq_getElem?_getD, List.getElem?_append_right (Nat.le_add_right ..),
        Nat.add_sub_cancel_left]

/-! ### A piece (R238, R245) -/

variable {w : Who} {k : Cmd} {p : Piece} {io : RegIo}

/-- How a write of command k of engine w meets an error. -/
def pieceMeet (w : Who) (k : Cmd) : Meet := { path := 8, tag := cTag k, core := w.core, ring := w.ring }

/-- One line of a piece in DRAM is written, or becomes an access of its channel, as the channels stand in s (R111, R218). -/
def lineStep (s : State) (w : Who) (k : Cmd) (p : Piece) (t : State × Option Nat) (i : Nat) : State × Option Nat :=
  let a := gLoc p.addr
  let q := linePart 256 a p.data.length i
  let l := locOf (a + q.1)
  let bs := (p.data.drop q.1).take q.2
  if chanHolds s (locChan l) then
    (askPush t.1 (.posted w.core w.q w.ctx) (some w.fold) { addr := l, len := q.2, write := true, data := bs, mask := p.mask }, t.2)
  else
    let r := writeBytes t.1 (pieceMeet w k) (a + q.1) (maskBytes t.1 (a + q.1) p.mask bs)
    (r.1, t.2.or (r.2.map fun _ => stUncorr))

theorem copyPiece_dram (dram : region s.grade (gLoc p.addr) = .dram) :
    copyPiece io s w k p = (List.range (lineCount 256 (gLoc p.addr) p.data.length)).foldl (lineStep s w k p) (s, none) := by
  unfold copyPiece
  dsimp only
  rw [dram]
  rfl

/-- Bytes of a piece before line i. -/
def lineStart (a n i : Nat) : Nat := min n ((a / 256 + i) * 256 - a)

theorem linePart_eq {i : Nat} (hi : i < lineCount 256 a n) : linePart 256 a n i = (lineStart a n i, lineStart a n (i + 1) - lineStart a n i) ∧
    lineStart a n i < lineStart a n (i + 1) := by
  unfold lineCount at hi
  unfold linePart lineStart
  split at hi
  · omega
  · refine ⟨Prod.ext ?_ ?_, ?_⟩
    · dsimp only
      omega
    · dsimp only
      omega
    · omega

theorem lineStart_zero : lineStart a n 0 = 0 := by
  unfold lineStart
  omega

theorem lineStart_last : lineStart a n (lineCount 256 a n) = n := by
  unfold lineStart lineCount
  split <;> omega

theorem lineStart_le (i : Nat) : lineStart a n i ≤ n := Nat.min_le_left ..

/-- The lines of a piece whose channels do not compute are written one after another. -/
theorem lineStep_lines (hw : Whole s) (h : StoresWf s) (dram : region s.grade (gLoc p.addr) = .dram)
    (pop : populated s.grade (gLoc p.addr) p.data.length = true) (free : rangeHeld s (gLoc p.addr) p.data.length = false) :
    ∀ i ≤ lineCount 256 (gLoc p.addr) p.data.length, ∃ v, (List.range i).foldl (lineStep s w k p) (s, none) = (v, none) ∧
      Wrote s v (gLoc p.addr) p.mask (p.data.take (lineStart (gLoc p.addr) p.data.length i)) := by
  intro i
  induction i with
  | zero =>
    intro _
    rw [lineStart_zero]
    exact ⟨s, rfl, .refl hw h⟩
  | succ i ih =>
    intro hi
    obtain ⟨v, folded, wrote⟩ := ih (Nat.le_of_succ_le hi)
    obtain ⟨part, grows⟩ := linePart_eq (a := gLoc p.addr) (n := p.data.length) hi
    have inside := lineStart_le (a := gLoc p.addr) (n := p.data.length) (i + 1)
    have side := (InMemory.side (s := s) (.inl dram) pop).resolve_left (by omega)
    generalize lineStart (gLoc p.addr) p.data.length i = lo at *
    generalize lineStart (gLoc p.addr) p.data.length (i + 1) = top at *
    have len1 : (p.data.take lo).length = lo := by rw [List.length_take]; omega
    have len2 : ((p.data.drop lo).take (top - lo)).length = top - lo := by rw [List.length_take, List.length_drop]; omega
    have locs (j : Nat) (hj : j < ((p.data.drop lo).take (top - lo)).length) : CoreLoc (locOf (gLoc p.addr + lo + j)) := by
      rw [Nat.add_assoc]
      exact InMemory.coreLoc_run (s := s) (.inl dram) pop (by omega)
    have line := Wrote.of_writeBytes (m := pieceMeet w k) (mask := p.mask) wrote.whole wrote.stores locs (by rw [len2]; omega)
    rw [← Nat.add_sub_of_le grows.le, List.take_add]
    refine ⟨_, ?_, wrote.append (by rw [len1]; exact line) (by rw [len1, len2]; omega)⟩
    rw [List.range_succ, List.foldl_append, folded]
    unfold lineStep
    simp only [List.foldl_cons, List.foldl_nil, part]
    rw [if_neg (by rw [chanHolds_of_free dram pop free (by omega)]; simp)]
    exact Prod.ext rfl (by simp [writeBytes_of_clean wrote.whole.clean])

theorem copyPiece_bank (hc : clean s = true) (hr : region s.grade (gLoc p.addr) = .spd ∨ region s.grade (gLoc p.addr) = .cmn) :
    copyPiece io s w k p = ((writeBytes s (pieceMeet w k) (gLoc p.addr) (maskBytes s (gLoc p.addr) p.mask p.data)).1, none) := by
  have good (bs : List Byte) : (writeBytes s (pieceMeet w k) (gLoc p.addr) bs).2 = none := by rw [writeBytes_of_clean hc]
  have ext (bs : List Byte) : extWrite s (gLoc p.addr) bs (pieceMeet w k) = ((writeBytes s (pieceMeet w k) (gLoc p.addr) bs).1, true) := by
    unfold extWrite
    dsimp only
    rw [good]
  unfold pieceMeet at good ext ⊢
  unfold copyPiece
  obtain spd | cmn := hr
  · simp only [spd, ext, good]
    split <;> rfl
  · simp only [cmn, ext, good]
    split <;> rfl

/-- A piece in this device's memory, where no channel of it computes, is written at once. -/
theorem copyPiece_atHand (hw : Whole s) (h : StoresWf s) (hand : AtHand s p.addr p.data.length) :
    ∃ v, copyPiece io s w k p = (v, none) ∧ Wrote s v (gLoc p.addr) p.mask p.data := by
  have mem := hand.inMemory
  have side (ne : p.data.length ≠ 0) := (mem.side hand.whole).resolve_left ne
  have off (hr : region s.grade (gLoc p.addr) = .spd ∨ region s.grade (gLoc p.addr) = .cmn) :
      Wrote s (writeBytes s (pieceMeet w k) (gLoc p.addr) (maskBytes s (gLoc p.addr) p.mask p.data)).1 (gLoc p.addr) p.mask p.data := by
    refine .of_writeBytes hw h (fun i hi => mem.coreLoc_run hand.whole hi) (.inr ?_)
    have h1 : blinBase ≤ spdBase := by decide
    have h2 : blinBase ≤ cmnBase := by decide
    obtain spd | cmn := hr
    · have := region_spd.mp spd
      omega
    · have := region_cmn.mp cmn
      omega
  obtain dram | spd | cmn := hand.memory
  · obtain ⟨v, folded, wrote⟩ := lineStep_lines (w := w) (k := k) hw h dram hand.whole hand.free _ le_rfl
    rw [lineStart_last, List.take_length] at wrote
    exact ⟨v, (copyPiece_dram dram).trans folded, wrote⟩
  · exact ⟨_, copyPiece_bank hw.clean (.inl spd), off (.inl spd)⟩
  · exact ⟨_, copyPiece_bank hw.clean (.inr cmn), off (.inr cmn)⟩

end Sys2Proof.Machine

/-! ## Loads, stores and atomics of the scalar engine (R114, R171, R294) -/

namespace Sys2Proof.Machine

variable {s u : State} {c op : Nat} {t : Slot}

/-! ### Loads (R171) -/

/-- A load past its checks: its word is fetched. -/
structure Loads (s : State) (c : Nat) (t : Slot) : Prop where
  acts : ScActs s c 0x02 t
  sub : fld t.cmd.w2 7 0 = 0
  rs2 : scRs2 t.cmd = 0
  imm : scImmb t.cmd = false
  rest : fld t.cmd.w2 63 24 = 0
  end_ : endZero t.cmd = true
  some_ : total t.cmd ≠ 0
  parity : XClean (slotBegin s t) t.w
  ready : scMemReady false s t = true
  good : scFault (slotBegin s t) t.w t.cmd false = none

theorem Loads.waits (h : Loads s c t) {v : State} (asked : askRead (slotBegin s t) (.queue t.w.core 3 t.w.ctx) (some t.w.fold)
    (ownRuns (slotBegin s t) [(scAddr (slotBegin s t) t.w t.cmd, 8)]) = (v, none)) : exec (.scLd c) s = .next (markWait v t.w) := by
  show execScLd c s = _
  unfold execScLd
  rw [scRow_next h.acts (by simp [h.sub, h.rs2, h.imm, h.rest, h.end_]) h.ready h.some_ h.parity]
  dsimp only
  rw [h.good]
  dsimp only
  rw [asked]

theorem Loads.found (h : Loads s c t) {v : State} {x : Word}
    (free : ∀ r ∈ ownRuns (slotBegin s t) [(scAddr (slotBegin s t) t.w t.cmd, 8)], rangeHeld (slotBegin s t) r.1 r.2 = false)
    (asks : askOf (slotBegin s t) (.queue t.w.core 3 t.w.ctx) = none) (read : scLoad (slotBegin s t) t.w t.cmd = (v, .ok x)) :
    exec (.scLd c) s = .next (slotDone (xSet (dropAsks v (.queue t.w.core 3 t.w.ctx)) t.w (scRd t.cmd) x) t none 0) := by
  show execScLd c s = _
  unfold execScLd
  rw [scRow_next h.acts (by simp [h.sub, h.rs2, h.imm, h.rest, h.end_]) h.ready h.some_ h.parity]
  dsimp only
  rw [h.good]
  dsimp only
  rw [askRead_of_free asks free]
  dsimp only
  rw [show onCaps (slotBegin s t) [] (fun u => scLoad u t.w t.cmd) = (v, .ok x) from read]

theorem scLoad_csr {w : Who} {k : Cmd} (csr : region u.grade (gLoc (scAddr u w k)) = .csr) :
    scLoad u w k = ({ u with free := u.free + 1 }, .ok (BitVec.ofNat 64 (regLoad u (w.fold + 1) (gLoc (scAddr u w k)) 8))) := by
  unfold scLoad
  exact if_pos csr

theorem scLoad_atHand {w : Who} {k : Cmd} (hc : clean u = true) (h : AtHand u (scAddr u w k) 8) :
    scLoad u w k = (regPay { u with free := u.free + 1 } w.fold (scAddr u w k) 8 false, .ok (readW u (gLoc (scAddr u w k)))) := by
  have word : region u.grade (gLoc (scAddr u w k)) ≠ .csr := by
    obtain m | m | m := h.memory <;> simp [m]
  have later : AtHand { u with free := u.free + 1 } (scAddr u w k) 8 := ⟨h.dev, h.memory, h.whole, h.free⟩
  have runs : ∀ r ∈ [(scAddr u w k, 8)], runOut { u with free := u.free + 1 } r = false := by simpa using later.not_runOut
  unfold scLoad
  dsimp only
  rw [if_neg word, outFail_of_runs runs]
  dsimp only
  rw [eccTouch_of_clean (s := { u with free := u.free + 1 }) hc]
  dsimp only
  rw [srcBytes_of_atHand later, viewBytes_free hc]
  rfl

/-- A word that this device must wait for is of this device: no scalar access goes to another (R188). -/
theorem own_of_scFault {w : Who} {k : Cmd} {b : Bool} (h : scFault u w k b = none) : gDev (scAddr u w k) = u.devid := by
  unfold scFault at h
  split at h
  · cases h
  next =>
    unfold checkRanges at h
    repeat' split at h
    all_goals try cases h
    next access _ =>
      by_contra far
      exact access (by simp [rngAccess, scRng, far])

theorem aligned_of_scFault {w : Who} {k : Cmd} {b : Bool} (h : scFault u w k b = none) : scAddr u w k % 8 = 0 := by
  unfold scFault at h
  split at h
  · cases h
  next aligned => exact Decidable.not_not.mp aligned

theorem askRead_of_held {o : Owner} {fold : Option Nat} {a n : Nat} (h : askOf u o = none) (held : rangeHeld u a n = true) :
    askRead u o fold [(a, n)] = (askStart u o fold [(a, n)], none) := by
  have none_ : u.asks.find? (fun k => k.owner == o && k.runs == [(a, n)]) = none := by
    refine List.find?_eq_none.mpr fun k hk => ?_
    have := List.find?_eq_none.mp h k hk
    simp_all
  unfold askRead
  rw [none_]
  simp [held]

/-! ### Stores (R171, R173, R283) -/

/-- The piece that SC.ST writes. -/
def scPiece (u : State) (t : Slot) : Piece :=
  { addr := scAddr u t.w t.cmd, data := leBytes 8 (scOperand u t.w t.cmd).toNat, weight := 8 }

/-- A store past its checks. -/
structure Storing (s : State) (c : Nat) (t : Slot) : Prop where
  acts : ScActs s c 0x03 t
  sub : fld t.cmd.w2 7 0 = 0
  rd : scRd t.cmd = 0
  imm : scImmb t.cmd = true → scRs2 t.cmd = 0
  rest : fld t.cmd.w2 63 24 = 0
  end_ : endZero t.cmd = true
  some_ : total t.cmd ≠ 0
  parity : XClean (slotBegin s t) t.w
  ready : scMemReady true s t = true
  good : scFault (slotBegin s t) t.w t.cmd true = none
  first : scWaiting (slotBegin s t) t = false

theorem Storing.done (h : Storing s c t) {v : State} (wrote : copyPiece regIo (slotBegin s t) t.w t.cmd (scPiece (slotBegin s t) t) = (v, none)) :
    exec (.scSt c) s = .next (let v := regPay v t.w.fold (scAddr (slotBegin s t) t.w t.cmd) 8 true
      if signalWaits v t = true then markWait v t.w else slotDone v t none 0) := by
  have operand : (scImmb t.cmd && scRs2 t.cmd != 0) = false := by
    cases imm : scImmb t.cmd with
    | true => simp [h.imm imm]
    | false => rfl
  unfold scPiece at wrote
  show execScSt c s = _
  unfold execScSt
  rw [scRow_next h.acts (by simp [h.sub, h.rd, operand, h.rest, h.end_]) h.ready h.some_ h.parity]
  dsimp only
  rw [h.first, h.good]
  dsimp only
  rw [wrote]
  rfl

theorem gLoc_aligned {a n : Nat} (hn : n ∣ 2 ^ 50) (h : a % n = 0) : gLoc a % n = 0 := by
  have low : gLoc a = a % 2 ^ 50 := by simp [gLoc]
  rw [low, Nat.mod_mod_of_dvd _ hn, h]

theorem lineCount_word {a : Nat} (h : a % 8 = 0) : lineCount 256 a 8 = 1 ∧ linePart 256 a 8 0 = (0, 8) := by
  unfold lineCount linePart
  refine ⟨by rw [if_neg (by omega)]; omega, Prod.ext ?_ ?_⟩
  · dsimp only
    omega
  · dsimp only
    omega

/-- An aligned word that is held lies in one channel, which computes (R111). -/
theorem chanHolds_of_held {a : Nat} (h : a % 8 = 0) (held : rangeHeld u a 8 = true) :
    region u.grade a = .dram ∧ chanHolds u (locChan (locOf a)) = true := by
  simp only [rangeHeld, Bool.and_eq_true, beq_iff_eq] at held
  obtain ⟨dram, busy⟩ := held
  refine ⟨dram, ?_⟩
  unfold chansOf at busy
  rw [if_neg (by omega)] at busy
  split at busy
  next low =>
    have one : (a + 8 - 1) / 256 + 1 - a / 256 = 1 := by omega
    rw [one] at busy
    rw [locOf, if_pos low, ← locChan_line low]
    simpa using busy
  next high =>
    rw [locOf, if_neg high]
    simpa using busy

theorem scStore_csr (csr : region u.grade (gLoc (scAddr u t.w t.cmd)) = .csr) : copyPiece regIo u t.w t.cmd (scPiece u t) =
    (regStore u { fn := t.w.fold + 1, ring := if t.w.ring = 65535 then none else some t.w.ring } (gLoc (scAddr u t.w t.cmd)) 8
      (scOperand u t.w t.cmd), none) := by
  have word : BitVec.ofNat 64 (leNat (leBytes 8 (scOperand u t.w t.cmd).toNat)) = scOperand u t.w t.cmd := by
    rw [leNat_leBytes, Nat.mod_eq_of_lt (by exact (scOperand u t.w t.cmd).isLt)]
    exact BitVec.ofNat_toNat ..
  unfold copyPiece scPiece
  dsimp only
  rw [csr]
  simp only [regIo, word, leBytes_length]

theorem scStore_held (aligned : scAddr u t.w t.cmd % 8 = 0) (held : rangeHeld u (gLoc (scAddr u t.w t.cmd)) 8 = true) :
    copyPiece regIo u t.w t.cmd (scPiece u t) = (askPush u (.posted t.w.core t.w.q t.w.ctx) (some t.w.fold)
      { addr := locOf (gLoc (scAddr u t.w t.cmd)), len := 8, write := true, data := leBytes 8 (scOperand u t.w t.cmd).toNat }, none) := by
  have word := gLoc_aligned (n := 8) (by decide) aligned
  obtain ⟨dram, busy⟩ := chanHolds_of_held word held
  obtain ⟨one, part⟩ := lineCount_word word
  have len : (leBytes 8 (scOperand u t.w t.cmd).toNat).length = 8 := leBytes_length
  rw [copyPiece_dram (p := scPiece u t) dram]
  unfold scPiece lineStep
  simp only [len, one, List.range_one, List.foldl_cons, List.foldl_nil, part, Nat.add_zero, busy, if_true, List.drop_zero]
  rw [List.take_of_length_le len.le]

theorem scStore_atHand (hw : Whole u) (hs : StoresWf u) (h : AtHand u (scAddr u t.w t.cmd) 8) : ∃ v,
    copyPiece regIo u t.w t.cmd (scPiece u t) = (v, none) ∧ SameEngines u v ∧
      readW v (gLoc (scAddr u t.w t.cmd)) = scOperand u t.w t.cmd ∧
      ∀ l, (∀ i, i < 8 → l ≠ locOf (gLoc (scAddr u t.w t.cmd) + i)) → memGet v l = memGet u l := by
  have len : (leBytes 8 (scOperand u t.w t.cmd).toNat).length = 8 := leBytes_length
  obtain ⟨v, wrote, did⟩ := copyPiece_atHand (io := regIo) (w := t.w) (k := t.cmd) (p := scPiece u t) hw hs (by unfold scPiece; rwa [len])
  refine ⟨v, wrote, sameEngines_of_beyondMem did.beyond, ?_, fun l out => did.outside l fun i hi => out i (by rwa [scPiece, len] at hi)⟩
  have bytes : viewBytes v (gLoc (scAddr u t.w t.cmd)) 8 = leBytes 8 (scOperand u t.w t.cmd).toNat := by
    have read := did.viewBytes rfl
    rwa [scPiece, len] at read
  rw [readW, readLe, bytes, leNat_leBytes, Nat.mod_eq_of_lt (by exact (scOperand u t.w t.cmd).isLt)]
  exact BitVec.ofNat_toNat ..

/-! ### Atomics (R292-R295) -/

theorem slotAt_queue {q x : Nat} (h : slotAt s c q x = some t) : t.w.q = q := by
  unfold slotAt at h
  dsimp only at h
  repeat' split at h
  · cases h
  · obtain ⟨m, -, rfl⟩ := Option.map_eq_some_iff.mp h
    rfl
  · cases h
  · obtain ⟨m, -, rfl⟩ := Option.map_eq_some_iff.mp h
    rfl
  · cases h
    rfl
  · cases h

theorem ScActs.queue (h : ScActs s c op t) : t.w.q = 3 := by
  have found := h.slot
  unfold scSlot displacedSlot slotOf at found
  simp only [Option.or_eq_some_iff, Option.bind_eq_some_iff] at found
  obtain ⟨y, -, t', at_, same⟩ | ⟨-, x, -, at_⟩ := found
  · rw [Option.ite_none_right_eq_some] at same
    cases same.2
    exact slotAt_queue at_
  · exact slotAt_queue at_

variable {w : Who} {k : Cmd} {a : Nat} {size8 : Bool} {aop : Nat} {opd cmp : Word}

/-- An atomic of a queue on a word at hand is done at once. -/
theorem queueAtomic_atHand (asks : askOf u (.queue w.core w.q w.ctx) = none) (h : AtHand u a (amoBytes size8)) :
    queueAtomic u w k a size8 aop opd cmp =
      let r := atomicAt u { path := 7, tag := cTag k, core := w.core, ring := w.ring } (gLoc a) size8 aop opd.toNat cmp.toNat
      (r.1, some r.2) := by
  have free : ¬(gDev a = u.devid ∧ rangeHeld u (gLoc a) (if size8 then 8 else 4) = true) := by
    rintro ⟨-, held⟩
    exact Bool.false_ne_true (h.free.symm.trans held)
  unfold queueAtomic atomicDo
  dsimp only
  rw [asks]
  dsimp only
  rw [if_neg free, if_pos h.dev]

/-- One whose channel computes becomes an access of the channel (R111, R114). -/
theorem queueAtomic_held (asks : askOf u (.queue w.core w.q w.ctx) = none) (own : gDev a = u.devid)
    (held : rangeHeld u (gLoc a) (amoBytes size8) = true) : queueAtomic u w k a size8 aop opd cmp =
      (askPush u (.queue w.core w.q w.ctx) (some w.fold)
        { addr := locOf (gLoc a), len := amoBytes size8, write := true, kind := .atomic aop size8 opd.toNat cmp.toNat }, none) := by
  unfold queueAtomic
  dsimp only
  rw [asks]
  exact if_pos ⟨own, held⟩

/-- An atomic past its checks. -/
structure Amo (s : State) (c : Nat) (t : Slot) : Prop where
  acts : ScActs s c 0x09 t
  known : amoOp t.cmd ≤ 10
  ret : bit t.cmd.w2 7 = false
  operand : operandBad t.cmd = false
  rest : fld t.cmd.w2 63 24 = 0
  end_ : endZero t.cmd = true
  some_ : total t.cmd ≠ 0
  parity : XClean (slotBegin s t) t.w
  ready : scAmoReady s t = true
  good : scAmoFault (slotBegin s t) t.w t.cmd = none

/-- What SC.AMO does with its word's outcome. -/
theorem Amo.goes (h : Amo s c t) {r : State × Option (Except Nat Nat)}
    (did : queueAtomic (slotBegin s t) t.w t.cmd (scAmoRng (slotBegin s t) t.w t.cmd).addr (amoSize8 t.cmd) (amoOp t.cmd)
      (scOperand (slotBegin s t) t.w t.cmd) (xGet (slotBegin s t) t.w (scRd t.cmd)) = r) :
    (r.2 = none → exec (.scAmo c) s = .next (markWait r.1 t.w)) ∧
    (∀ old, r.2 = some (.ok old) → exec (.scAmo c) s =
      .next (slotDone (xSet (regPay r.1 t.w.fold (scAmoRng (slotBegin s t) t.w t.cmd).addr (scAmoN t.cmd) true) t.w (scRd t.cmd)
        (BitVec.ofNat 64 old)) t none 0)) := by
  have runs : exec (.scAmo c) s = execScAmo c s := rfl
  rw [runs]
  unfold execScAmo
  rw [scRow_next h.acts (by simp [Nat.not_lt.mpr h.known, h.ret, h.operand, h.rest, h.end_]) h.ready h.some_ h.parity]
  dsimp only
  rw [h.good]
  dsimp only
  rw [did]
  obtain ⟨v, o⟩ := r
  refine ⟨fun held => ?_, fun old ok => ?_⟩
  · cases held
    rfl
  · cases ok
    rfl

/-- Settles O18: where the word is at hand, where it is a register, and where its channel computes. -/
theorem scalarMemoryCompletes : Obligations.ScalarMemoryCompletes := by
  intro s c t parity rest end_ some_ u k a o asks hc first
  refine ⟨fun acts sub rs2 imm ready good => ?load, fun acts sub rd imm ready good => ?store, fun acts known ret operand ready good => ?amo⟩
  case load =>
    intro got
    have h : Loads s c t := ⟨acts, sub, rs2, imm, rest, end_, some_, parity, ready, good⟩
    have own := own_of_scFault good
    have mine : ownRuns u [(a, 8)] = [(gLoc a, 8)] := by simp [ownRuns, a, k, own]
    refine ⟨fun hand => ?_, fun csr => ?_, fun held => ?_⟩
    · exact h.found (by rw [mine]; simpa using hand.free) asks (scLoad_atHand hc hand)
    · have free : rangeHeld u (gLoc a) 8 = false := by simp [rangeHeld, csr]
      exact h.found (by rw [mine]; simpa using free) asks (scLoad_csr csr)
    · exact h.waits (by rw [mine]; exact askRead_of_held asks held)
  case store =>
    intro v fin
    have h : Storing s c t := ⟨acts, sub, rd, imm, rest, end_, some_, parity, ready, good, first⟩
    refine ⟨fun csr => h.done (scStore_csr csr), fun hand whole stores => ?_, fun held => h.done (scStore_held (aligned_of_scFault good) held)⟩
    obtain ⟨v, wrote, engines, word, others⟩ := scStore_atHand whole stores hand
    exact ⟨v, h.done wrote, engines, word, others⟩
  case amo =>
    intro r n v d
    have h : Amo s c t := ⟨acts, known, ret, operand, rest, end_, some_, parity, ready, good⟩
    have asksW : askOf u (.queue t.w.core t.w.q t.w.ctx) = none := by
      rw [acts.queue]
      exact asks
    refine ⟨fun hand whole stores => ?_, fun own held => ?_⟩
    · obtain ⟨u', did, beyond, -, word⟩ := atomicAt_done (m := { path := 7, tag := cTag k, core := t.w.core, ring := t.w.ring }) whole stores
        hand.inMemory (amoSize8 k) hand.whole (amoOp k) v.toNat d.toNat
      have goes := (h.goes (queueAtomic_atHand asksW hand)).2
      dsimp only at goes
      rw [did] at goes
      exact ⟨u', goes _ rfl, sameEngines_of_beyondMem beyond, word⟩
    · have waits := (h.goes (queueAtomic_held asksW own held)).1 rfl
      rw [acts.queue] at waits
      exact waits

end Sys2Proof.Machine

/-! ## The accumulator file (R65-R67, R83) -/

namespace Sys2Proof.Machine

variable {s : State} {c e : Nat}

/-! ### Cells read after an entry is replaced -/

/-- The entries of a table of numbered values, zero ones left out. -/
def numbered {n : Nat} (b i w : Nat) (vs : List (BitVec n)) : Tab (BitVec n) :=
  ((List.range' i w).zip vs).filterMap fun p => if p.2 = 0 then none else some (b + p.1, p.2)

theorem tget_numbered {n b w i j : Nat} {vs : List (BitVec n)} :
    tget 0 (numbered b i w vs) (b + i + j) = if j < w then vs.getD j 0 else 0 := by
  induction w generalizing i j vs with
  | zero => rfl
  | succ w ih =>
    cases vs with
    | nil => simp [numbered, tget]
    | cons v vs =>
      have rest := (numbered_wf (w := w) (vs := vs) (show b + (i + 1) = b + i + 1 by omega)).1
      have cons : numbered b i (w + 1) (v :: vs) = if v = 0 then numbered b (i + 1) w vs else (b + i, v) :: numbered b (i + 1) w vs := by
        unfold numbered
        rw [List.range'_succ, List.zip_cons_cons, List.filterMap_cons]
        split <;> simp_all
      rw [cons]
      cases j with
      | zero =>
        rw [if_pos (Nat.succ_pos w), List.getD_cons_zero]
        split
        next zero => exact (tget_none rest (Nat.lt_succ_self _)).trans zero.symm
        next => rw [tget, if_pos (Nat.add_zero _)]
      | succ j =>
        have later := ih (i := i + 1) (j := j) (vs := vs)
        rw [show b + (i + 1) + j = b + i + (j + 1) by omega] at later
        rw [List.getD_cons_succ]
        simp only [Nat.add_lt_add_iff_right]
        split
        · exact later
        · rw [tget, if_neg (by omega), if_neg (by omega)]
          exact later

/-- In two tables one behind the other, a key is found where it belongs. -/
theorem tget_append {α : Type} [DecidableEq α] {d : α} {t u : Tab α} {hi j : Nat} (ht : ∀ e ∈ t, e.1 < hi) (hu : twfFrom d hi u = true) :
    tget d (t ++ u) j = if j < hi then tget d t j else tget d u j := by
  induction t with
  | nil =>
    split
    next low => exact tget_none hu low
    next => rfl
  | cons e t ih =>
    obtain ⟨k, v⟩ := e
    obtain ⟨first, rest⟩ := List.forall_mem_cons.mp ht
    simp only at first
    rw [List.cons_append, tget, tget, ih rest]
    grind

theorem tget_below {α : Type} [DecidableEq α] {d : α} {t : Tab α} {b j : Nat} (h : twf d t = true) :
    tget d (t.filter fun x => x.1 < b) j = if j < b then tget d t j else d := by
  have drop : (t.filter fun x => decide (x.1 < b)) = tdrop (fun k => !(decide (k < b))) t := by simp [tdrop]
  rw [drop, tget_tdrop h]
  by_cases hj : j < b <;> simp [hj]

theorem tget_from {α : Type} [DecidableEq α] {d : α} {t : Tab α} {b j : Nat} (h : twf d t = true) :
    tget d (t.filter fun x => b ≤ x.1) j = if b ≤ j then tget d t j else d := by
  have drop : (t.filter fun x => decide (b ≤ x.1)) = tdrop (fun k => !(decide (b ≤ k))) t := by simp [tdrop]
  rw [drop, tget_tdrop h]
  by_cases hj : b ≤ j <;> simp [hj]

/-- The key of cell n of an entry, row after row. -/
theorem tget_accPut (h : twf 0 s.acc = true) (vs : List (BitVec 48)) (j : Nat) : tget 0 (accPut s c e vs).acc j =
    if j < accKey c e * 16384 then tget 0 s.acc j
    else if j < accKey c e * 16384 + 16384 then vs.getD (j - accKey c e * 16384) 0
    else tget 0 s.acc j := by
  have acc : (accPut s c e vs).acc = s.acc.filter (fun x => decide (x.1 < accKey c e * 16384)) ++
      numbered (accKey c e * 16384) 0 16384 vs ++ s.acc.filter (fun x => decide (accKey c e * 16384 + 16384 ≤ x.1)) := by
    unfold accPut numbered
    rw [List.range_eq_range']
  rw [acc]
  generalize accKey c e * 16384 = b
  obtain ⟨wf, top⟩ : twfFrom 0 b (numbered b 0 16384 vs) = true ∧ ∀ e ∈ numbered b 0 16384 vs, e.1 < b + 16384 := numbered_wf (Nat.add_zero b)
  have high : twfFrom 0 (b + 16384) (s.acc.filter fun x => decide (b + 16384 ≤ x.1)) = true := tfilter_lo h
  rw [List.append_assoc, tget_append (hi := b) (by simp) (twf_append wf high (by omega) top), tget_append (hi := b + 16384) top high,
    tget_below h, tget_from h]
  split
  · rfl
  next low =>
    split
    next mid =>
      obtain ⟨n, rfl⟩ := Nat.exists_eq_add_of_le (Nat.le_of_not_lt low)
      have found := tget_numbered (b := b) (w := 16384) (i := 0) (j := n) (vs := vs)
      rw [if_pos (by omega)] at found
      rw [Nat.add_sub_cancel_left]
      exact found
    next => rw [if_pos (by omega)]

theorem accGet_accPut (h : twf 0 s.acc = true) {vs : List (BitVec 48)} {d f i j : Nat} (hi : i < 128) (hj : j < 128) :
    accGet (accPut s c e vs) d f i j = if accKey d f = accKey c e then vs.getD (i * 128 + j) 0 else accGet s d f i j := by
  unfold accGet
  rw [tget_accPut h]
  generalize accKey d f = b, accKey c e = a
  by_cases same : b = a
  · subst same
    have low : ¬(b * 128 + i) * 128 + j < b * 16384 := by omega
    have top : (b * 128 + i) * 128 + j < b * 16384 + 16384 := by omega
    have index : (b * 128 + i) * 128 + j - b * 16384 = i * 128 + j := by omega
    simp only [low, top, index, if_true, if_false]
  · have apart : (b * 128 + i) * 128 + j < a * 16384 ∨ a * 16384 + 16384 ≤ (b * 128 + i) * 128 + j := by
      obtain less | more := Nat.lt_or_gt_of_ne same
      · exact .inl (by omega)
      · exact .inr (by omega)
    rw [if_neg same]
    obtain low | high := apart
    · exact if_pos low
    · have above : ¬(b * 128 + i) * 128 + j < a * 16384 := by omega
      exact (if_neg above).trans (if_neg (Nat.not_lt.mpr high))

/-! ### Types, and entries set to zero -/

theorem accGet_of_acc {t : State} (h : t.acc = s.acc) (d f i j : Nat) : accGet t d f i j = accGet s d f i j := by
  unfold accGet
  rw [h]

theorem accTyOf_of_accTy {t : State} (h : t.accTy = s.accTy) (d f : Nat) : accTyOf t d f = accTyOf s d f := by
  unfold accTyOf
  rw [h]

theorem accTyOf_setTy (h : twf .unset s.accTy = true) (ty : AccTy) (d f : Nat) :
    accTyOf (setTy s c e ty) d f = if accKey d f = accKey c e then ty else accTyOf s d f := tget_tput h

theorem accGet_setTy (ty : AccTy) (d f i j : Nat) : accGet (setTy s c e ty) d f i j = accGet s d f i j := accGet_of_acc rfl ..

theorem accTyOf_accPut (vs : List (BitVec 48)) (d f : Nat) : accTyOf (accPut s c e vs) d f = accTyOf s d f := rfl

theorem acc_wf_accPut (h : twf 0 s.acc = true) (vs : List (BitVec 48)) : twf 0 (accPut s c e vs).acc = true := cells_wf h

theorem accGet_accZero (h : twf 0 s.acc = true) (ty : AccTy) {d f i j : Nat} (hi : i < 128) (hj : j < 128) :
    accGet (accZero s c e ty) d f i j = if accKey d f = accKey c e then 0 else accGet s d f i j := by
  unfold accZero
  rw [accGet_setTy, accGet_accPut h hi hj]
  rfl

theorem accTyOf_accZero (h : twf .unset s.accTy = true) (ty : AccTy) (d f : Nat) :
    accTyOf (accZero s c e ty) d f = if accKey d f = accKey c e then ty else accTyOf s d f := by
  unfold accZero
  exact accTyOf_setTy h ty d f

theorem aiRep_zero {w : Who} {k : Cmd} {r : Run} (entry : entryAt w.ctx (mmaEntry k) r.pos = none) (zero : aiZero k = true) :
    aiRep s w k r = .done (accZero (setRun s w { r with tys := r.tys ++ tysOf s w.core [mmaEntry k + r.pos] }) w.core (mmaEntry k + r.pos)
      ((aiTy (aiFmt k)).getD .unset)) 1 := by
  unfold aiRep
  simp only [entry, zero, if_true]

/-- Settles O10: the repeat zeroes the entry it names and gives it its type. -/
theorem accInitZeroesEntry : Obligations.AccInitZeroesEntry := by
  intro s w k r h entry zero
  have wf (v : Run) : StoresWf (setRun s w v) := (setRun_keeps .rfl).stores h
  refine ⟨_, aiRep_zero entry zero, fun i j hi hj => ?_, ?_, fun c e i j hi hj other => ?_, fun _ => rfl, rfl, rfl, rfl⟩
  · rw [accGet_accZero (wf _).acc _ hi hj, if_pos rfl]
  · rw [accTyOf_accZero (wf _).accTy, if_pos rfl]
  · rw [accGet_accZero (wf _).acc _ hi hj, if_neg other]
    rfl

end Sys2Proof.Machine

/-! ## Repeats of the matrix commands (R79-R91) -/

namespace Sys2Proof.Machine

variable {s : State} {w : Who} {k : Cmd} {r : Run} {p : Pair}

/-- A repeat whose row performs it completes its command's repeat (R209). -/
theorem repeatCompletes_of_rep {i : Instr} {e : EngRow} {x : Nat} {P : State → Nat → Prop} (hi : engRow i = some e) (one : e.n = 1)
    (did : ∃ u inc, e.eng.rep s (whoOf s e.core e.q x) r.cmd r = .done u inc ∧ P u inc) : RepeatCompletes i s x r P := by
  intro e' he runs
  obtain rfl : e = e' := Option.some.inj (hi.symm.trans he)
  obtain ⟨u, inc, rep, holds⟩ := did
  exact ⟨u, inc, holds, (exec_engRow hi s).trans (engineRow_done runs one rep)⟩

/-! ### Reads in need order (R267, R269) -/

theorem mem_insertBy {α : Type} {le : α → α → Bool} {x y : α} {l : List α} : y ∈ insertBy le x l ↔ y = x ∨ y ∈ l := by
  induction l with
  | nil => simp [insertBy]
  | cons z l ih =>
    unfold insertBy
    split
    · simp
    · simp only [List.mem_cons, ih]
      tauto

theorem mem_sortBy {α : Type} {le : α → α → Bool} {y : α} {l : List α} : y ∈ sortBy le l ↔ y ∈ l := by
  induction l with
  | nil => simp [sortBy]
  | cons x l ih => simp [sortBy, mem_insertBy, ih]

/-- Where no read is of a block that may not be expanded, none is met. -/
theorem needUnits_good {ls : List (List (Nat × List Nat × Bool))} (h : ∀ l ∈ ls, ∀ e ∈ l, e.2.2 = false) : (needUnits ls).2 = false := by
  unfold needUnits
  dsimp only
  rw [List.any_eq_false]
  intro e he
  obtain ⟨q, hq, hm⟩ := List.mem_flatMap.mp (mem_sortBy.mp he)
  obtain ⟨v, hv, rfl⟩ := List.mem_map.mp hm
  simp [h q.2 (List.of_mem_zip hq).2 v hv]

theorem readScales_good (s : State) (w : Who) (k : Cmd) (klen : Nat) (o : Opnd) : ∀ e ∈ (readScales s w k klen o).2, e.2.2 = false := by
  unfold readScales
  split
  · intro e he
    obtain ⟨b, -, rfl⟩ := List.mem_map.mp he
    rfl
  · exact fun e he => nomatch he

/-! ### MMA (R79) -/

/-- A saturation is noted in a register. -/
theorem accSat_eq (s : State) (c e : Nat) : ∃ regs, accSat s c e = { s with regs := regs } := by
  unfold accSat
  dsimp only
  split
  · exact ⟨s.regs, rfl⟩
  · exact ⟨_, rfl⟩

/-- The cells of an entry, with their places. -/
def cellsOf (s : State) (c e : Nat) : List (Nat × Nat × BitVec 48) :=
  (List.range 16384).map fun n => (n / 128, n % 128, accGet s c e (n / 128) (n % 128))

/-- What a repeat of MMA puts into its entry's cells, from what its ports deliver. -/
def mmaPut (p : Pair) (k : Cmd) (c : Nat) (pa pb : Port) (sa sb : Option (List (List Byte))) (s : State) : State :=
  let e := mmaEntry k
  match p with
  | .int =>
    let vs := (cellsOf s c e).map fun q => cellInt (mmaA k) (mmaB k) 32 (sx 32 q.2.2.toNat) (cellPairs pa.vecs pb.vecs q.1 q.2.1)
    let s := accPut s c e (vs.map fun v => BitVec.ofNat 48 (wrapN 32 v.1))
    if vs.any (·.2.isSome) then accSat s c e else s
  | _ =>
    let vs := (cellsOf s c e).map fun q => cellRun p (mmaA k) (mmaB k) sa sb q.1 q.2.1 (q.2.2.toNat % 2 ^ 32) (cellPairs pa.vecs pb.vecs q.1 q.2.1)
    raiseNum (accPut s c e (vs.map fun v => BitVec.ofNat 48 v.1)) c (orFlags vs)

/-- The entry of a repeat as its cells begin: zero in the first repeat of a command with INIT. -/
def mmaFirst (p : Pair) (s : State) (c : Nat) (k : Cmd) (r : Run) : State :=
  if (r.pos = 0 && mmaInit k) = true then accZero s c (mmaEntry k) (pairTy p) else s

/-- The parts of the state that a matrix repeat's bookkeeping leaves alone. -/
structure SameCells (s t : State) : Prop where
  mem : SameMem s t
  acc : t.acc = s.acc
  accTy : t.accTy = s.accTy
  errs : t.errs = s.errs
  gerrs : t.gerrs = s.gerrs

theorem clean_mmaFirst (c : Nat) : clean (mmaFirst p s c k r) = clean s := by
  unfold mmaFirst
  split <;> rfl

theorem parAcc_mmaFirst (c : Nat) : (mmaFirst p s c k r).parAcc = s.parAcc := by
  unfold mmaFirst
  split <;> rfl

theorem readScales_mmaFirst (c klen : Nat) (o : Opnd) : readScales (mmaFirst p s c k r) w k klen o = readScales s w k klen o := by
  unfold mmaFirst
  split <;> rfl

theorem SameCells.clean {t : State} (h : SameCells s t) : Machine.clean t = Machine.clean s := by
  unfold Machine.clean
  rw [h.errs, h.gerrs]

theorem SameCells.rinc {t : State} (h : SameCells s t) (a n : Nat) : SameCells s (rinc t a n) := ⟨h.mem, h.acc, h.accTy, h.errs, h.gerrs⟩

theorem SameCells.setCore {t : State} (h : SameCells s t) (c : Nat) (v : CoreSt) : SameCells s (setCore t c v) := ⟨h.mem, h.acc, h.accTy, h.errs, h.gerrs⟩

theorem SameCells.setRun {t : State} (h : SameCells s t) (w : Who) (r : Run) : SameCells s (setRun t w r) := ⟨h.mem, h.acc, h.accTy, h.errs, h.gerrs⟩

/-- A repeat of MMA whose checks pass and whose reads are good. -/
theorem mmaRep_done (hp : pairing (mmaA k) (mmaB k) (mmaAmx k) (mmaBmx k) = some p) (hc : clean s = true) (par : s.parAcc = [])
    (ty : r.pos = 0 ∧ mmaInit k = true ∨ accTyOf s w.core (mmaEntry k) = pairTy p)
    (ranges : checkRanges s w (opndRngs s w k (mmaKlen k) (mmaOpA k) ++ opndRngs s w k (mmaKlen k) (mmaOpB k)) = none)
    (maps : opndCheck s w k (mmaKlen k) (mmaOpA k) (mmaOpB k) = none) (pal : palPending s w.core = none)
    (good : ∀ v ∈ (readPort s w k (mmaKlen k) (mmaOpA k)).reads ++ (readPort s w k (mmaKlen k) (mmaOpB k)).reads, v.2.2 = false) :
    ∃ v, mmaRep s w k r = .done (mmaPut p k w.core (readPort s w k (mmaKlen k) (mmaOpA k)) (readPort s w k (mmaKlen k) (mmaOpB k))
        (readScales s w k (mmaKlen k) (mmaOpA k)).1 (readScales s w k (mmaKlen k) (mmaOpB k)).1 v) (mmaKlen k) ∧
      SameCells (mmaFirst p s w.core k r) v := by
  have typed : ¬((!(decide (r.pos = 0) && mmaInit k) && accTyOf s w.core (mmaEntry k) != pairTy p) = true) := by
    obtain ⟨h1, h2⟩ | h := ty
    · simp [h1, h2]
    · simp [h]
  have steady : palBlocks s w.core [readPort s w k (mmaKlen k) (mmaOpA k), readPort s w k (mmaKlen k) (mmaOpB k)] = false := by
    unfold palBlocks
    rw [pal]
  unfold mmaRep
  rw [hp]
  dsimp -zeta only
  extract_lets c e kl oa ob fresh pa pb tys s1 sa sb cyc x0 x1 nu t u1 u2 u3 src u4 v
  have start : s1 = mmaFirst p s w.core k r := rfl
  have clean1 : clean s1 = true := by rw [start, clean_mmaFirst]; exact hc
  have par1 : s1.parAcc = [] := by rw [start, parAcc_mmaFirst]; exact par
  have touched : t = ({ s1 with free := s1.free + 1 }, none) := eccTouch_of_clean (s := { s1 with free := s1.free + 1 }) clean1 ..
  have expands : nu.2 = false := by
    refine needUnits_good fun l hl => ?_
    simp only [List.mem_cons, List.not_mem_nil, or_false] at hl
    obtain rfl | rfl | rfl | rfl := hl
    · exact fun v hv => good v (List.mem_append_left _ hv)
    · exact fun v hv => good v (List.mem_append_right _ hv)
    · exact readScales_good _ _ _ _ _
    · exact readScales_good _ _ _ _ _
  have sameA : sa = readScales s w k (mmaKlen k) (mmaOpA k) := by
    show readScales s1 w k kl oa = _
    rw [start, readScales_mmaFirst]
  have sameB : sb = readScales s w k (mmaKlen k) (mmaOpB k) := by
    show readScales s1 w k kl ob = _
    rw [start, readScales_mmaFirst]
  have cells1 : SameCells s1 u1 := by
    show SameCells s1 t.1
    rw [touched]
    exact ⟨fun _ => rfl, rfl, rfl, rfl, rfl⟩
  have cells : SameCells s1 v := ((((cells1.rinc ..).rinc ..).setCore ..).setRun ..)
  refine ⟨v, ?_, start ▸ cells⟩
  rw [if_neg typed, ranges]
  dsimp only
  rw [maps]
  dsimp only
  rw [if_neg (by rw [steady]; exact Bool.false_ne_true), par1, if_neg (by simp), touched]
  dsimp only
  rw [expands, if_neg Bool.false_ne_true, ← sameA, ← sameB]
  cases p <;> rfl

theorem getD_map_cells {α : Type} (c e : Nat) (f : Nat × Nat × BitVec 48 → α) (d : α) {i j : Nat} (hi : i < 128) (hj : j < 128) :
    ((cellsOf s c e).map f).getD (i * 128 + j) d = f (i, j, accGet s c e i j) := by
  have small : i * 128 + j < 16384 := by omega
  have row : (i * 128 + j) / 128 = i := by omega
  have col : (i * 128 + j) % 128 = j := by omega
  unfold cellsOf
  rw [List.getD_eq_getElem?_getD, List.getElem?_map, List.getElem?_map, List.getElem?_range small]
  simp only [Option.map_some, Option.getD_some, row, col]

/-- The cell that a repeat of MMA makes of what stood in it and of the pairs that meet in it (R50, R79). -/
def mmaCell (p : Pair) (k : Cmd) (sa sb : Option (List (List Byte))) (i j : Nat) (start : BitVec 48) (ps : List (Nat × Nat)) : BitVec 48 :=
  BitVec.ofNat 48 (if p = .int then wrapN 32 (cellInt (mmaA k) (mmaB k) 32 (sx 32 start.toNat) ps).1
    else (cellRun p (mmaA k) (mmaB k) sa sb i j (start.toNat % 2 ^ 32) ps).1)

/-- What a repeat puts into an entry leaves memory and types as they were. -/
theorem mmaPut_puts (c : Nat) (pa pb : Port) (sa sb : Option (List (List Byte))) (v : State) :
    ∃ vs : List (BitVec 48), (∃ regs, mmaPut p k c pa pb sa sb v = { accPut v c (mmaEntry k) vs with regs := regs }) ∧
      ∀ i j, i < 128 → j < 128 → vs.getD (i * 128 + j) 0 =
        mmaCell p k sa sb i j (accGet v c (mmaEntry k) i j) (cellPairs pa.vecs pb.vecs i j) := by
  have floats (notInt : p ≠ .int) : ∃ vs : List (BitVec 48), (∃ regs, raiseNum (accPut v c (mmaEntry k) (((cellsOf v c (mmaEntry k)).map fun q =>
      cellRun p (mmaA k) (mmaB k) sa sb q.1 q.2.1 (q.2.2.toNat % 2 ^ 32) (cellPairs pa.vecs pb.vecs q.1 q.2.1)).map fun x => BitVec.ofNat 48 x.1)) c
        (orFlags ((cellsOf v c (mmaEntry k)).map fun q =>
          cellRun p (mmaA k) (mmaB k) sa sb q.1 q.2.1 (q.2.2.toNat % 2 ^ 32) (cellPairs pa.vecs pb.vecs q.1 q.2.1))) =
        { accPut v c (mmaEntry k) vs with regs := regs }) ∧
      ∀ i j, i < 128 → j < 128 → vs.getD (i * 128 + j) 0 =
        mmaCell p k sa sb i j (accGet v c (mmaEntry k) i j) (cellPairs pa.vecs pb.vecs i j) := by
    refine ⟨_, ⟨_, rfl⟩, fun i j hi hj => ?_⟩
    rw [List.map_map, getD_map_cells c (mmaEntry k) _ 0 hi hj, mmaCell, if_neg notInt]
    rfl
  cases p with
  | int =>
    refine ⟨((cellsOf v c (mmaEntry k)).map fun q => cellInt (mmaA k) (mmaB k) 32 (sx 32 q.2.2.toNat)
      (cellPairs pa.vecs pb.vecs q.1 q.2.1)).map fun x => BitVec.ofNat 48 (wrapN 32 x.1), ?_, fun i j hi hj => ?_⟩
    · unfold mmaPut
      dsimp only
      split
      · exact accSat_eq ..
      · exact ⟨_, rfl⟩
    · rw [List.map_map, getD_map_cells c (mmaEntry k) _ 0 hi hj, mmaCell, if_pos rfl]
      rfl
  | two => exact floats nofun
  | one => exact floats nofun
  | half => exact floats nofun
  | block => exact floats nofun

end Sys2Proof.Machine

/-! ## MMA, MMA.SLICE and ACC.INIT as their rows give them (R79-R83) -/

namespace Sys2Proof.Machine

variable {s : State} {w : Who} {k : Cmd} {r : Run}

/-! ### MMA -/

theorem accGet_mmaFirst (h : twf 0 s.acc = true) (p : Pair) (c : Nat) {i j : Nat} (hi : i < 128) (hj : j < 128) :
    accGet (mmaFirst p s c k r) c (mmaEntry k) i j = if r.pos = 0 ∧ mmaInit k = true then 0 else accGet s c (mmaEntry k) i j := by
  unfold mmaFirst
  simp only [Bool.and_eq_true, decide_eq_true_eq]
  split
  · rw [accGet_accZero h _ hi hj, if_pos rfl]
  · rfl

theorem accTyOf_mmaFirst (h : twf .unset s.accTy = true) {p : Pair} {c : Nat}
    (ty : r.pos = 0 ∧ mmaInit k = true ∨ accTyOf s c (mmaEntry k) = pairTy p) : accTyOf (mmaFirst p s c k r) c (mmaEntry k) = pairTy p := by
  unfold mmaFirst
  simp only [Bool.and_eq_true, decide_eq_true_eq]
  split
  · rw [accTyOf_accZero h, if_pos rfl]
  next old => exact ty.resolve_left old

theorem acc_wf_accZero (h : twf 0 s.acc = true) (c e : Nat) (t : AccTy) : twf 0 (accZero s c e t).acc = true := acc_wf_accPut h []

theorem acc_wf_mmaFirst (h : twf 0 s.acc = true) (p : Pair) (c : Nat) : twf 0 (mmaFirst p s c k r).acc = true := by
  unfold mmaFirst
  split
  · exact acc_wf_accZero h ..
  · exact h

theorem sameMem_mmaFirst (p : Pair) (c : Nat) : SameMem s (mmaFirst p s c k r) := by
  unfold mmaFirst
  split <;> exact fun _ => rfl

theorem SameMem.trans {t u : State} (h : SameMem s t) (g : SameMem t u) : SameMem s u := fun l => (g l).trans (h l)

/-- What a repeat of MMA leaves in its entry, its type and in memory. -/
theorem mmaPut_leaves {p : Pair} {c : Nat} {pa pb : Port} {sa sb : Option (List (List Byte))} {v : State} (hs : StoresWf s)
    (ty : r.pos = 0 ∧ mmaInit k = true ∨ accTyOf s c (mmaEntry k) = pairTy p) (same : SameCells (mmaFirst p s c k r) v) :
    let u := mmaPut p k c pa pb sa sb v
    SameMem s u ∧ accTyOf u c (mmaEntry k) = pairTy p ∧ ∀ i j, i < 128 → j < 128 → accGet u c (mmaEntry k) i j =
      mmaCell p k sa sb i j (if r.pos = 0 ∧ mmaInit k = true then 0 else accGet s c (mmaEntry k) i j) (cellPairs pa.vecs pb.vecs i j) := by
  intro u
  obtain ⟨vs, ⟨regs, put⟩, cells⟩ := mmaPut_puts (p := p) (k := k) c pa pb sa sb v
  have wf : twf 0 v.acc = true := by
    rw [same.acc]
    exact acc_wf_mmaFirst hs.acc ..
  refine ⟨(sameMem_mmaFirst p c).trans (same.mem.trans ?_), ?_, fun i j hi hj => ?_⟩
  · show SameMem v (mmaPut ..)
    rw [put]
    exact fun _ => rfl
  · show accTyOf (mmaPut ..) _ _ = _
    rw [put]
    exact (accTyOf_of_accTy same.accTy ..).trans (accTyOf_mmaFirst hs.accTy ty)
  · have cell : accGet v c (mmaEntry k) i j = if r.pos = 0 ∧ mmaInit k = true then 0 else accGet s c (mmaEntry k) i j :=
      (accGet_of_acc same.acc ..).trans (accGet_mmaFirst hs.acc p c hi hj)
    show accGet (mmaPut ..) _ _ _ _ = _
    rw [put]
    refine (accGet_accPut (s := v) (vs := vs) wf hi hj).trans ?_
    rw [if_pos rfl, cells i j hi hj, cell]

/-! ### MMA.SLICE (R80-R82) -/

theorem slicePairs_index : ∀ n < 16, (slicePairs n).map (fun q => pairIx n q.1 q.2) = List.range (pairCount n) := by decide +kernel

theorem accKey_entry {c e a b : Nat} : accKey c (e + a) = accKey c (e + b) ↔ a = b := by
  unfold accKey
  omega

/-- The state after one pair of a repeat of MMA.SLICE, and the saturations met. -/
def slStep (k : Cmd) (c : Nat) (va vb : List (List (List Nat))) (q : State × List (Nat × Nat)) (tu : Nat × Nat) : State × List (Nat × Nat) :=
  let e := mmaEntry k + pairIx (slS k) tu.1 tu.2
  let pa := va.getD (tu.1 - 1) []
  let pb := vb.getD (tu.2 - 1) []
  let vs := (List.range 16384).map fun m =>
    cellInt 5 5 48 (sx 48 (accGet q.1 c e (m / 128) (m % 128)).toNat) (cellPairs pa pb (m / 128) (m % 128))
  (accPut q.1 c e (vs.map fun v => BitVec.ofInt 48 v.1), q.2 ++ vs.filterMap fun v => v.2.map fun i => (i, e))

/-- The cell that the pair (t, u) makes of what stood in it. -/
def slCell (va vb : List (List (List Nat))) (tu : Nat × Nat) (i j : Nat) (start : BitVec 48) : BitVec 48 :=
  BitVec.ofInt 48 (cellInt 5 5 48 (sx 48 start.toNat) (cellPairs (va.getD (tu.1 - 1) []) (vb.getD (tu.2 - 1) []) i j)).1

theorem slStep_puts (c : Nat) (va vb : List (List (List Nat))) (q : State × List (Nat × Nat)) (tu : Nat × Nat) :
    ∃ vs : List (BitVec 48), (slStep k c va vb q tu).1 = accPut q.1 c (mmaEntry k + pairIx (slS k) tu.1 tu.2) vs ∧
      ∀ i j, i < 128 → j < 128 → vs.getD (i * 128 + j) 0 = slCell va vb tu i j (accGet q.1 c (mmaEntry k + pairIx (slS k) tu.1 tu.2) i j) := by
  refine ⟨_, rfl, fun i j hi hj => ?_⟩
  have small : i * 128 + j < 16384 := by omega
  have row : (i * 128 + j) / 128 = i := by omega
  have col : (i * 128 + j) % 128 = j := by omega
  rw [List.getD_eq_getElem?_getD, List.getElem?_map, List.getElem?_map, List.getElem?_range small]
  simp only [Option.map_some, Option.getD_some, row, col]
  rfl

/-- Pairs with different indices each make their own entry's cells of what stood there before all of them. -/
theorem slSteps_leave (c : Nat) (va vb : List (List (List Nat))) (l : List (Nat × Nat))
    (apart : (l.map fun q => pairIx (slS k) q.1 q.2).Nodup) (q : State × List (Nat × Nat)) (wf : twf 0 q.1.acc = true) :
    let u := (l.foldl (slStep k c va vb) q).1
    SameMem q.1 u ∧ (∀ d, (∀ tu ∈ l, d ≠ pairIx (slS k) tu.1 tu.2) → ∀ i j, i < 128 → j < 128 →
        accGet u c (mmaEntry k + d) i j = accGet q.1 c (mmaEntry k + d) i j) ∧
      ∀ tu ∈ l, ∀ i j, i < 128 → j < 128 → accGet u c (mmaEntry k + pairIx (slS k) tu.1 tu.2) i j =
        slCell va vb tu i j (accGet q.1 c (mmaEntry k + pairIx (slS k) tu.1 tu.2) i j) := by
  induction l generalizing q with
  | nil => exact ⟨fun _ => rfl, fun _ _ _ _ _ _ => rfl, nofun⟩
  | cons tu l ih =>
    intro u
    rw [List.map_cons, List.nodup_cons] at apart
    obtain ⟨vs, put, cells⟩ := slStep_puts (k := k) c va vb q tu
    have wf' : twf 0 (slStep k c va vb q tu).1.acc = true := by
      rw [put]
      exact acc_wf_accPut wf vs
    obtain ⟨mem, others, mine⟩ := ih apart.2 (slStep k c va vb q tu) wf'
    have fresh : ∀ x ∈ l, pairIx (slS k) tu.1 tu.2 ≠ pairIx (slS k) x.1 x.2 := fun x hx e =>
      apart.1 (List.mem_map.mpr ⟨x, hx, e.symm⟩)
    have stays (d : Nat) (hd : d ≠ pairIx (slS k) tu.1 tu.2) {i j : Nat} (hi : i < 128) (hj : j < 128) :
        accGet (slStep k c va vb q tu).1 c (mmaEntry k + d) i j = accGet q.1 c (mmaEntry k + d) i j := by
      rw [put, accGet_accPut wf hi hj, if_neg (fun e => hd (accKey_entry.mp e))]
    refine ⟨?_, fun d hd i j hi hj => ?_, fun x hx i j hi hj => ?_⟩
    · refine SameMem.trans ?_ mem
      rw [put]
      exact fun _ => rfl
    · obtain ⟨first, rest⟩ := List.forall_mem_cons.mp hd
      exact (others d rest i j hi hj).trans (stays d first hi hj)
    · obtain rfl | hx := List.mem_cons.mp hx
      · refine (others _ fresh i j hi hj).trans ?_
        rw [put, accGet_accPut wf hi hj, if_pos rfl, cells i j hi hj]
      · exact (mine x hx i j hi hj).trans (by rw [stays _ (fresh x hx).symm hi hj])

/-- The entries of a repeat as their cells begin. -/
def slFirst (s : State) (c : Nat) (k : Cmd) (r : Run) : State :=
  if (r.pos = 0 && mmaInit k) = true then (slEntries k).foldl (fun t e => accZero t c e .int48) s else s

/-- Entries set to zero one after another. -/
theorem zeroed (c : Nat) (t : AccTy) (es : List Nat) (h : twf 0 s.acc = true) :
    let u := es.foldl (fun v e => accZero v c e t) s
    SameMem s u ∧ u.errs = s.errs ∧ u.gerrs = s.gerrs ∧ u.parAcc = s.parAcc ∧ twf 0 u.acc = true ∧
      ∀ d i j, i < 128 → j < 128 → accGet u c d i j = if d ∈ es then 0 else accGet s c d i j := by
  induction es generalizing s with
  | nil => exact ⟨fun _ => rfl, rfl, rfl, rfl, h, fun _ _ _ _ _ => rfl⟩
  | cons e es ih =>
    intro u
    obtain ⟨mem, errs, gerrs, par, wf, cells⟩ := ih (s := accZero s c e t) (acc_wf_accZero h ..)
    refine ⟨fun l => (mem l).trans rfl, errs, gerrs, par, wf, fun d i j hi hj => (cells d i j hi hj).trans ?_⟩
    have key : accKey c d = accKey c e ↔ d = e := by
      unfold accKey
      omega
    rw [accGet_accZero h _ hi hj]
    simp only [key, List.mem_cons]
    by_cases hd : d = e
    · simp [hd]
    · simp [hd]

/-- What a matrix repeat begins from: memory, codes and parity are those of before it. -/
structure Begins (s t : State) : Prop where
  mem : SameMem s t
  errs : t.errs = s.errs
  gerrs : t.gerrs = s.gerrs
  par : t.parAcc = s.parAcc
  acc : twf 0 t.acc = true

theorem Begins.clean {t : State} (h : Begins s t) : clean t = clean s := by
  unfold Machine.clean
  rw [h.errs, h.gerrs]

theorem slFirst_begins (h : twf 0 s.acc = true) (c : Nat) : Begins s (slFirst s c k r) ∧ ∀ d i j, i < 128 → j < 128 → d ∈ slEntries k →
    accGet (slFirst s c k r) c d i j = if r.pos = 0 ∧ mmaInit k = true then 0 else accGet s c d i j := by
  unfold slFirst
  simp only [Bool.and_eq_true, decide_eq_true_eq]
  split
  · obtain ⟨mem, errs, gerrs, par, wf, cells⟩ := zeroed c .int48 (slEntries k) h
    exact ⟨⟨mem, errs, gerrs, par, wf⟩, fun d i j hi hj hd => (cells d i j hi hj).trans (if_pos hd)⟩
  · exact ⟨⟨fun _ => rfl, rfl, rfl, rfl, h⟩, fun _ _ _ _ _ _ => rfl⟩

theorem slRead_same {t : State} (hs : Machine.clean s = true) (ht : Machine.clean t = true) (m : SameMem s t) (a n kl kst tst : Nat) :
    slRead t a n kl kst tst = slRead s a n kl kst tst := by
  have bytes (a len : Nat) : viewBytes t a len = viewBytes s a len :=
    List.map_congr_left fun i _ => by rw [viewByte_of_clean ht, viewByte_of_clean hs, m]
  unfold slRead
  simp only [bytes]

/-- The planes of the two operands of a repeat. -/
def slA (s : State) (w : Who) (k : Cmd) : List (List (List Nat)) :=
  slRead s (gLoc (arAddr (roleAr s w k 0))) (slS k) (mmaKlen k) (fld k.w3 31 0) (fld k.w4 31 0)
def slB (s : State) (w : Who) (k : Cmd) : List (List (List Nat)) :=
  slRead s (gLoc (arAddr (roleAr s w k 1))) (slS k) (mmaKlen k) (fld k.w3 63 32) (fld k.w4 63 32)

/-- A repeat of MMA.SLICE whose checks pass. -/
theorem slRep_done (hs : StoresWf s) (hc : Machine.clean s = true) (par : s.parAcc = [])
    (ty : r.pos = 0 ∧ mmaInit k = true ∨ ∀ d ∈ slEntries k, accTyOf s w.core d = .int48) (ranges : checkRanges s w (slRngs s w k) = none) :
    ∃ v u, slRep s w k r = .done u (mmaKlen k) ∧ SameCells (slFirst s w.core k r) v ∧
      SameCells ((slicePairs (slS k)).foldl (slStep k w.core (slA s w k) (slB s w k)) (v, [])).1 u := by
  have typed : ¬((!(decide (r.pos = 0) && mmaInit k) && !((slEntries k).all fun e => accTyOf s w.core e == .int48)) = true) := by
    obtain ⟨h1, h2⟩ | h := ty
    · simp [h1, h2]
    · simpa using fun _ => h
  obtain ⟨begins, -⟩ := slFirst_begins (k := k) (r := r) hs.acc w.core
  unfold slRep
  extract_lets c n kl ra rb fresh tys s1 a b cyc x t u2 src u3 v va vb q
  have start : s1 = slFirst s w.core k r := rfl
  have clean1 : Machine.clean s1 = true := by
    rw [start, begins.clean]
    exact hc
  have par1 : s1.parAcc = [] := by
    rw [start, begins.par]
    exact par
  have touched : t = ({ s1 with free := s1.free + 1 }, none) := eccTouch_of_clean (s := { s1 with free := s1.free + 1 }) clean1 ..
  have cells1 : SameCells s1 t.1 := by
    rw [touched]
    exact ⟨fun _ => rfl, rfl, rfl, rfl, rfl⟩
  have cells : SameCells s1 v := (((cells1.rinc ..).setCore ..).setRun ..)
  have memV : SameMem s v := (start ▸ begins.mem).trans cells.mem
  have planeA : va = slA s w k := slRead_same hc (cells.clean.trans clean1) memV ..
  have planeB : vb = slB s w k := slRead_same hc (cells.clean.trans clean1) memV ..
  have steps : q = (slicePairs (slS k)).foldl (slStep k w.core (slA s w k) (slB s w k)) (v, []) := by
    rw [← planeA, ← planeB]
    rfl
  have noted : SameCells q.1 (match firstSat q.2 with | some e => accSat q.1 c e | none => q.1) := by
    cases firstSat q.2 with
    | none => exact ⟨fun _ => rfl, rfl, rfl, rfl, rfl⟩
    | some e =>
      obtain ⟨regs, eq⟩ := accSat_eq q.1 c e
      dsimp only
      rw [eq]
      exact ⟨fun _ => rfl, rfl, rfl, rfl, rfl⟩
  refine ⟨v, _, ?_, start ▸ cells, steps ▸ noted⟩
  rw [if_neg typed, ranges]
  dsimp only
  rw [par1, if_neg (by simp), touched, ← steps] <;> rfl

/-- What a repeat of MMA.SLICE leaves in the entry of each pair. -/
theorem slice_leaves {c : Nat} {v u : State} (hs : StoresWf s) (va vb : List (List (List Nat))) (first : SameCells (slFirst s c k r) v)
    (last : SameCells ((slicePairs (slS k)).foldl (slStep k c va vb) (v, [])).1 u) :
    SameMem s u ∧ ∀ tu ∈ slicePairs (slS k), ∀ i j, i < 128 → j < 128 →
      let d := mmaEntry k + pairIx (slS k) tu.1 tu.2
      accGet u c d i j = slCell va vb tu i j (if r.pos = 0 ∧ mmaInit k = true then 0 else accGet s c d i j) := by
  obtain ⟨begins, start⟩ := slFirst_begins (k := k) (r := r) hs.acc c
  have index := slicePairs_index (slS k) (Nat.mod_lt _ (by decide))
  have wf : twf 0 v.acc = true := by
    rw [first.acc]
    exact begins.acc
  obtain ⟨mem, -, cells⟩ := slSteps_leave (k := k) c va vb (slicePairs (slS k)) (by rw [index]; exact List.nodup_range) (v, []) wf
  refine ⟨begins.mem.trans (first.mem.trans (mem.trans last.mem)), fun tu htu i j hi hj => ?_⟩
  have small : pairIx (slS k) tu.1 tu.2 < pairCount (slS k) := by
    rw [← List.mem_range, ← index]
    exact List.mem_map.mpr ⟨tu, htu, rfl⟩
  have entry : mmaEntry k + pairIx (slS k) tu.1 tu.2 ∈ slEntries k := List.mem_map.mpr ⟨_, List.mem_range.mpr small, rfl⟩
  have before := (accGet_of_acc first.acc c (mmaEntry k + pairIx (slS k) tu.1 tu.2) i j).trans (start _ i j hi hj entry)
  have after := (accGet_of_acc last.acc c (mmaEntry k + pairIx (slS k) tu.1 tu.2) i j).trans (cells tu htu i j hi hj)
  rw [before] at after
  exact after

/-! ### ACC.INIT (R83) -/

/-- A repeat of ACC.INIT that reads its rows. -/
theorem aiRep_done (hc : Machine.clean s = true) (entry : entryAt w.ctx (mmaEntry k) r.pos = none) (rows : aiZero k = false)
    (ranges : checkRanges s w [aiRng s w k] = none) :
    aiRep s w k r = .done (setTy (accPut (setRun s w { r with tys := r.tys ++ tysOf s w.core [mmaEntry k + r.pos] }) w.core
      (mmaEntry k + r.pos) ((List.range 16384).map fun m => aiAt k (aiRows s w k) (m / 128) (m % 128))) w.core (mmaEntry k + r.pos)
      ((aiTy (aiFmt k)).getD .unset)) 1 := by
  unfold aiRep
  dsimp only
  rw [entry]
  dsimp only
  rw [if_neg (by simp [rows]), ranges]
  dsimp only
  rw [eccTouch_of_clean hc]

end Sys2Proof.Machine

/-! ## ACC.DRAIN, and the matrix commands together (R79-R91) -/

namespace Sys2Proof.Machine

variable {s t : State} {w : Who} {k : Cmd} {r : Run} {m : Meet}

/-- The cell of row i and column j in a list of 16,384 cells, row after row. -/
theorem getD_map_rows {α : Type} {f : Nat → Nat → α} {d : α} {i j : Nat} (hi : i < 128) (hj : j < 128) :
    ((List.range 16384).map fun m => f (m / 128) (m % 128)).getD (i * 128 + j) d = f i j := by
  have small : i * 128 + j < 16384 := by omega
  have row : (i * 128 + j) / 128 = i := by omega
  have col : (i * 128 + j) % 128 = j := by omega
  rw [List.getD_eq_getElem?_getD, List.getElem?_map, List.getElem?_range small]
  simp only [Option.map_some, Option.getD_some, row, col]

/-! ### Rows written one after another (R87) -/

theorem sameMem_putBytes (hs : StoresWf s) (ht : StoresWf t) (h : SameMem s t) (ok : Nat → Bool) (a : Nat) (bs : List Byte) :
    SameMem (putBytes ok s a bs) (putBytes ok t a bs) := by
  induction bs generalizing s t a with
  | nil => exact h
  | cons b bs ih =>
    unfold putBytes
    split
    · refine ih ((memPut_keeps .rfl).stores hs) ((memPut_keeps .rfl).stores ht) (fun l => ?_) _
      rw [memGet_memPut ht, memGet_memPut hs, h]
    · exact ih hs ht h _

/-- A run's bytes lie in the windows of the part's cores, or in no scratchpad. -/
def RowLoc (row : Nat × List Byte) : Prop := ∀ i < row.2.length, CoreLoc (locOf (row.1 + i))

/-- On whole stores rows are written without an error, and the bytes that result depend on the bytes before alone. -/
theorem writeRows_of_whole (l : List (Nat × List Byte)) (hl : ∀ row ∈ l, RowLoc row) (hs : Whole s) (ht : Whole t)
    (ws : StoresWf s) (wt : StoresWf t) (h : SameMem s t) :
    (writeRows m l s).2 = none ∧ beyondMem (writeRows m l s).1 = beyondMem s ∧ SameMem (writeRows m l s).1 (writeRows m l t).1 := by
  induction l generalizing s t with
  | nil => exact ⟨rfl, rfl, h⟩
  | cons row l ih =>
    obtain ⟨first, rest⟩ := List.forall_mem_cons.mp hl
    have good : (writeBytes s m row.1 row.2).2 = none := by rw [writeBytes_of_clean hs.clean]
    have bytes : SameMem (writeBytes s m row.1 row.2).1 (writeBytes t m row.1 row.2).1 := fun l => by
      rw [memGet_writeBytes_of_clean ht.clean, memGet_writeBytes_of_clean hs.clean]
      exact sameMem_putBytes ws wt h _ _ _ l
    obtain ⟨none_, beyond, same⟩ := ih rest (hs.writeBytes (m := m) first) (ht.writeBytes (m := m) first)
      ((writeBytes_keeps .rfl).stores ws) ((writeBytes_keeps .rfl).stores wt) bytes
    exact ⟨(congrArg₂ Option.or good none_).trans rfl, beyond.trans (beyondMem_writeBytes ..), same⟩

/-! ### Where a drain writes (R84, R87, R188) -/

/-- A range of the command's own scratchpad that passes its checks lies in the window of its core. -/
theorem own_inside {rg : Rng} (hk : coreOk s w.core = true) (h : rngAccess s w rg = false) (own : rg.own = true) (far : rg.remote = false)
    {i : Nat} (hi : i < rg.len) : CoreLoc (locOf (gLoc rg.addr + i)) := by
  have cores := cores_le s.grade
  have core : w.core < 192 := by
    simp only [coreOk, decide_eq_true_eq] at hk
    omega
  have nonempty : rg.len ≠ 0 := by omega
  unfold rngAccess at h
  dsimp only at h
  rw [if_neg nonempty] at h
  split at h
  · simp [far] at h
  · split at h
    · cases h
    · split at h
      · cases h
      next inside =>
        simp only [own, Bool.true_and, Bool.not_eq_true', Bool.not_eq_false, Bool.and_eq_true, decide_eq_true_eq] at inside
        unfold spdWin at inside
        have high : blinBase ≤ gLoc rg.addr + i := by
          have : blinBase ≤ spdBase := by decide
          omega
        rw [locOf_eq_self high]
        intro _
        unfold locCore
        omega

theorem access_of_checkRanges {rs : List Rng} (h : checkRanges s w rs = none) : ∀ rg ∈ rs, rngAccess s w rg = false := by
  intro rg hrg
  unfold checkRanges at h
  repeat' split at h
  all_goals try cases h
  next access _ =>
    by_contra bad
    exact access (by simpa using ⟨rg, hrg, by simpa using bad⟩)

theorem pack_length_128 (b : Nat) (f : Nat → Nat) : (pack b ((List.range 128).map f)).length = 16 * b := by
  unfold pack rowBytes cdiv
  rw [leBytes_length, List.length_map, List.length_range]
  omega

theorem rowLoc_adWrites (hk : coreOk s w.core = true) (ranges : checkRanges s w (adRngs s w k) = none)
    (rows : List (List Nat × List Nat × NumFlags)) : ∀ row ∈ adWrites s w k rows, RowLoc row := by
  have access := access_of_checkRanges ranges
  unfold adRngs at access
  dsimp only at access
  intro row hrow
  unfold adWrites at hrow
  obtain out | scales := List.mem_append.mp hrow
  · obtain ⟨a, ha, rfl⟩ := List.mem_map.mp out
    intro i hi
    rw [pack_length_128] at hi
    have low : a * accStride k ≤ 127 * accStride k := Nat.mul_le_mul_right _ (by have := List.mem_range.mp ha; omega)
    rw [Nat.add_assoc]
    exact own_inside hk (access _ (List.mem_append_left _ (List.mem_append_left _ List.mem_cons_self))) rfl rfl
      (by show _ < 127 * accStride k + 16 * eltBits (adFmt k); omega)
  · split at scales
    next mx =>
      obtain rfl := List.mem_singleton.mp scales
      intro i hi
      simp only [List.length_map, List.length_range] at hi
      rw [if_pos mx] at access
      exact own_inside hk (access _ (List.mem_append_left _ (List.mem_append_right _ List.mem_cons_self))) rfl rfl hi
    next => exact nomatch scales

/-! ### A repeat of ACC.DRAIN -/

/-- The state in which a drain's rows are written: the flags of their elements are raised, and their draws taken. -/
def drained (s : State) (w : Who) (k : Cmd) (rows : List (List Nat × List Nat × NumFlags)) : State :=
  srTake (raiseNum s w.core (rows.foldl (fun f q => f ||| q.2.2) 0)) w.core (adRnd k) 16384

theorem drained_eq (s : State) (w : Who) (k : Cmd) (rows : List (List Nat × List Nat × NumFlags)) :
    ∃ v cs, drained s w k rows = { ror s (coreReg w.core 0xC00) v with cores := cs } := by
  unfold drained srTake
  split
  · exact ⟨_, _, rfl⟩
  · exact ⟨_, _, rfl⟩

theorem whole_drained (hw : Whole s) (hs : StoresWf s) (hk : coreOk s w.core = true) (rows : List (List Nat × List Nat × NumFlags)) :
    Whole (drained s w k rows) := by
  obtain ⟨v, cs, eq⟩ := drained_eq s w k rows
  have core : w.core < 192 := by
    have cores := cores_le s.grade
    simp only [coreOk, decide_eq_true_eq] at hk
    omega
  rw [eq]
  refine ⟨hw.clean, fun g hg => ?_, fun c hc => ?_⟩
  · have other : chnReg g 0x60 ≠ coreReg w.core 0xC00 := by unfold chnReg coreReg; omega
    exact (congrArg (bit · 32) ((rget_ror hs).trans (if_neg other))).trans (hw.chans g hg)
  · have other : coreReg c 0xD48 ≠ coreReg w.core 0xC00 := by unfold coreReg; omega
    exact (congrArg (bit · 8) ((rget_ror hs).trans (if_neg other))).trans (hw.cores c hc)

theorem adWrites_drained (rows rs : List (List Nat × List Nat × NumFlags)) : adWrites (drained s w k rows) w k rs = adWrites s w k rs := by
  obtain ⟨v, cs, eq⟩ := drained_eq s w k rows
  rw [eq]
  rfl

/-- A repeat of ACC.DRAIN whose checks pass. -/
theorem adRep_done (hw : Whole s) (hs : StoresWf s) (par : s.parAcc = []) (hk : coreOk s w.core = true)
    (entry : entryAt w.ctx (mmaEntry k) r.pos = none) (ty : adTyBad k (accTyOf s w.core (mmaEntry k + r.pos)) = false)
    (ranges : checkRanges s w (adRngs s w k) = none) :
    let rows := adRows s w k (mmaEntry k + r.pos)
    adRep s w k r = .done (writeRows (meetOf w k 8) (adWrites s w k rows) (drained s w k rows)).1 1 := by
  intro rows
  have good := (writeRows_of_whole (m := meetOf w k 8) _ (rowLoc_adWrites hk ranges rows) (whole_drained hw hs hk rows) hw
    ((srTake_keeps (raiseNum_keeps .rfl)).stores hs) hs (fun _ => by obtain ⟨v, cs, eq⟩ := drained_eq s w k rows; rw [eq]; rfl)).1
  unfold adRep
  dsimp only
  rw [entry]
  dsimp only
  rw [if_neg (by simp [ty]), ranges]
  dsimp only
  rw [eccTouch_of_clean hw.clean]
  dsimp only
  rw [par, if_neg (show ¬([] : List Nat).contains _ = true by simp)]
  show (match (writeRows (meetOf w k 8) (adWrites (drained s w k rows) w k rows) (drained s w k rows)).2 with
    | some _ => _
    | none => RepOut.done (writeRows (meetOf w k 8) (adWrites (drained s w k rows) w k rows) (drained s w k rows)).1 1) = _
  rw [adWrites_drained, good]

/-- What a repeat of ACC.DRAIN leaves. -/
theorem drain_leaves (hw : Whole s) (hs : StoresWf s) (hk : coreOk s w.core = true) (ranges : checkRanges s w (adRngs s w k) = none)
    (rows : List (List Nat × List Nat × NumFlags)) :
    let u := (writeRows (meetOf w k 8) (adWrites s w k rows) (drained s w k rows)).1
    u.acc = s.acc ∧ u.accTy = s.accTy ∧ u.xs = s.xs ∧ u.flags = s.flags ∧
      ∀ l, memGet u l = memGet (writeRows (meetOf w k 8) (adWrites s w k rows) s).1 l := by
  obtain ⟨v, cs, eq⟩ := drained_eq s w k rows
  have same : SameMem (drained s w k rows) s := fun _ => by rw [eq]; rfl
  have wf : StoresWf (drained s w k rows) := (srTake_keeps (raiseNum_keeps .rfl)).stores hs
  obtain ⟨-, beyond, bytes⟩ := writeRows_of_whole (m := meetOf w k 8) _ (rowLoc_adWrites hk ranges rows) (whole_drained hw hs hk rows) hw wf hs same
  refine ⟨(congrArg State.acc beyond :).trans ?_, (congrArg State.accTy beyond :).trans ?_, (congrArg State.xs beyond :).trans ?_,
    (congrArg State.flags beyond :).trans ?_, fun l => (bytes l).symm⟩
  all_goals
    rw [eq]
    rfl

/-- Settles O11: a repeat of each matrix command. -/
theorem matrixRepeatsComplete : Obligations.MatrixRepeatsComplete := by
  intro s c x r hs hw par k w e start
  refine ⟨fun p hp ty ranges maps pal good => ?mma, fun ty ranges => ?slice, fun entry rows ranges => ?init, fun entry ty ranges => ?drain⟩
  case mma =>
    refine repeatCompletes_of_rep (i := .mma c 1) (e := { core := c, n := 1, q := 0, op := 0x01, eng := mmaEng }) rfl rfl ?_
    obtain ⟨v, did, same⟩ := mmaRep_done (w := w) (k := k) (r := r) hp hw.clean par ty ranges maps pal good
    obtain ⟨mem, type, cells⟩ := mmaPut_leaves hs ty same
    exact ⟨_, _, did, rfl, mem, type, cells⟩
  case slice =>
    refine repeatCompletes_of_rep (i := .mmaSlice c 1) (e := { core := c, n := 1, q := 0, op := 0x02, eng := slEng }) rfl rfl ?_
    obtain ⟨v, u, did, first, last⟩ := slRep_done (w := w) (k := k) (r := r) hs hw.clean par ty ranges
    obtain ⟨mem, cells⟩ := slice_leaves hs _ _ first last
    exact ⟨u, _, did, rfl, mem, fun t v i j htv hi hj => cells (t, v) htv i j hi hj⟩
  case init =>
    refine repeatCompletes_of_rep (i := .accInit c 1) (e := { core := c, n := 1, q := 0, op := 0x03, eng := aiEng }) rfl rfl ?_
    have wf (v : Run) : StoresWf (setRun s w v) := (setRun_keeps .rfl).stores hs
    refine ⟨_, _, aiRep_done hw.clean entry rows ranges, rfl, fun _ => rfl, ?_, fun i j hi hj => ?_⟩
    · refine (accTyOf_setTy (by exact hs.accTy) ..).trans ?_
      exact if_pos rfl
    · refine (accGet_accPut (wf _).acc hi hj).trans ((if_pos rfl).trans ?_)
      exact getD_map_rows (f := fun i j => aiAt k (aiRows s w k) i j) hi hj
  case drain =>
    intro e' he runs
    obtain rfl := Option.some.inj he
    have did := adRep_done (w := w) (k := k) (r := r) hw hs par runs.core entry ty ranges
    exact ⟨_, _, ⟨rfl, drain_leaves hw hs runs.core ranges _⟩, engineRow_done runs rfl did⟩

end Sys2Proof.Machine

/-! ## A repeat of BFLY4 whose formats differ (R152, R169) -/

namespace Sys2Proof.Machine

/-- BFLY4 of two repeats, one butterfly each, from FP32 to FP64. R169 asks for one format: `bflyBad` refuses this command at its issue. -/
def widening : Cmd := { w0 := 0x10C, w1 := BitVec.ofNat 64 (2 * 2 ^ 24 + 2 ^ 44), w2 := BitVec.ofNat 64 (0xA * 2 ^ 8 + 0xD * 2 ^ 12 + 2 ^ 32) }

/-- Core 0 runs it for fold 0, and all its operands name one place of the core's scratchpad, whose byte 15 is 1. -/
def widened : State := { State.reset with
  boot := { state := 4, step := 8 }
  mem := [(spdBase + 0xF, 1)]
  regs := [(fldReg 0 0x00, 3), (fldReg 0 0x08, 1), (fldReg 0 0x40, 0x10000)]
  cores := [(0, { cur := [none, some 1, none, none] })]
  ctxs := [(ctxKey 0 1 1, { bound := true, run := some { cmd := widening } })]
  ars := [(ctxKey 0 1 1 * 16, { origin := BitVec.ofNat 56 spdBase, whi := -1 })] }

/-- The byte of a state that a step answers. -/
def byteAfter (o : Out State) (l : Nat) : Option Byte :=
  match o with
  | .next t => some (memGet t l)
  | _ => none

theorem widened_whole : Whole widened :=
  ⟨rfl, by decide +kernel, by decide +kernel⟩

/-- The command runs, and its next repeat is not its last. -/
theorem widened_runs : EngRuns { core := 0, n := 1, q := 1, op := 0x0C, eng := bflyEng } widened 1 { cmd := widening } :=
  ⟨by decide +kernel, rfl, ⟨rfl, rfl⟩, rfl, ⟨by decide, rfl, rfl⟩, by decide⟩

theorem widened_ranges : checkRanges widened (whoOf widened 0 1 1) (bflyRngs widened (whoOf widened 0 1 1) widening) = none := by
  decide +kernel

/-- The 16 bytes of each result reach byte 15. -/
theorem widened_byte : byteAfter (exec (.bfly4 0 1) widened) (spdBase + 0xF) = some 0 := by decide +kernel

/-- Address registers move on without a store. -/
theorem memGet_advanceAll (s : State) (c q x : Nat) (k : Cmd) (roles : List Nat) (last : Bool) (l : Nat) :
    memGet (advanceAll s c q x k roles last) l = memGet s l := by
  unfold advanceAll
  induction advancing k roles generalizing s with
  | nil => rfl
  | cons a as ih => exact ih _

theorem memGet_engineRest (s : State) (w : Who) (cyc l : Nat) : memGet (engineRest s w cyc) l = memGet s l := by
  unfold engineRest
  dsimp only
  split
  · rfl
  · rfl

/-- What a repeat leaves that is not the last stores nothing beyond what the row has. -/
theorem memGet_engDone {e : EngRow} {w : Who} {r : Run} (more : r.pos + 1 ≠ total r.cmd) (u : State) (inc l : Nat) :
    memGet (engDone e w u r inc) l = memGet u l := by
  unfold engDone
  rw [if_neg more]
  exact (memGet_advanceAll ..).trans (memGet_engineRest ..)

/-- Refutes O12: the bytes that the last clause lets BFLY4 change are those of elements of SFMT, while those it writes are of DFMT. No clause
asks that the command has passed the check of R169 that the two are one, so a run with SFMT = FP32 and DFMT = FP64 writes 8 bytes
beyond its range. -/
theorem not_vectorRepeatFrame : ¬ Obligations.VectorRepeatFrame := by
  unfold Obligations.VectorRepeatFrame
  rintro ⟨-, rows⟩
  obtain ⟨-, -, bfly⟩ := rows widened 0 1 { cmd := widening } widened_whole
  obtain ⟨u, inc, ⟨-, -, -, frame⟩, did⟩ := bfly widened_ranges _ rfl widened_runs
  have kept : memGet u (spdBase + 0xF) = memGet widened (spdBase + 0xF) := by
    refine frame _ fun q i _ hi => ?_
    have short : i < 8 := hi
    have place : vAt widened (whoOf widened 0 1 1) widening 3 = spdBase := by decide +kernel
    have stride : fld widening.w5 31 0 = 0 := by decide
    have high : blinBase ≤ spdBase := by decide
    show _ ≠ locOf (vAt widened (whoOf widened 0 1 1) widening 3 + q * fld widening.w5 31 0 + i)
    rw [place, stride, locOf_eq_self (by omega)]
    omega
  have byte : byteAfter (exec (.bfly4 0 1) widened) (spdBase + 0xF) = some 1 := by
    rw [did]
    exact congrArg some ((memGet_engDone (by decide) u inc _).trans (kept.trans (by decide +kernel)))
  exact absurd (widened_byte.symm.trans byte) (by decide)

end Sys2Proof.Machine

/-! ## The reads of a transfer's repeat (R235-R243, R253) -/

namespace Sys2Proof.Machine

variable {s : State} {w : Who} {k : Cmd} {r : Run} {io : RegIo} {op : Nat}

/-! ### A step of an engine command that goes on -/

/-- A running engine command whose repeat has not ended. -/
theorem engineRow_more {e : EngRow} {u : State} {x : Nat} (hr : EngRuns e s x r) (hn : e.n = 1)
    (hrep : e.eng.rep s (whoOf s e.core e.q x) r.cmd r = .more u) : engineRow e.eng e.q e.op e.it e.core e.n s = .next u := by
  have hrun : (getCtx s (whoOf s e.core e.q x).core (whoOf s e.core e.q x).q (whoOf s e.core e.q x).ctx).run = some r := hr.run
  unfold engineRow onCore
  rw [if_pos hr.core, hr.cur]
  dsimp only
  rw [hr.going.2, hr.run, hn]
  simp only [hr.cmd.1, hr.cmd.2.1, hr.cmd.2.2, hr.rate, Bool.false_eq_true, if_false, Bool.not_false, and_self, if_true]
  unfold repeats
  rw [hrun]
  dsimp only
  rw [hrep]
  rfl

theorem exec_more {i : Instr} {e : EngRow} {u : State} {x : Nat} (hi : engRow i = some e) (hr : EngRuns e s x r) (hn : e.n = 1)
    (hrep : e.eng.rep s (whoOf s e.core e.q x) r.cmd r = .more u) : exec i s = .next u :=
  (exec_engRow hi s).trans (engineRow_more hr hn hrep)

/-- A run that is set is the context's run. -/
theorem getCtx_setRun (s : State) (w : Who) (r : Run) : (getCtx (setRun s w r) w.core w.q w.ctx).run = some r := by
  refine (congrArg QCtx.run (tget_tput_self fun e => ?_)).trans rfl
  exact absurd (congrArg QCtx.run e) (by simp)

/-! ### What is read at once -/

theorem foldl_regPay_eq (rs : List (Nat × Nat)) (f : Nat) (write : Bool) (s : State) :
    ∃ b, rs.foldl (fun u r => regPay u f r.1 r.2 write) s = { s with folds := b } := by
  induction rs generalizing s with
  | nil => exact ⟨s.folds, rfl⟩
  | cons r rs ih =>
    obtain ⟨b, paid⟩ := regPay_eq s f r.1 r.2 write
    obtain ⟨b', rest⟩ := ih { s with folds := b }
    exact ⟨b', by rw [List.foldl_cons, paid, rest]⟩

/-- On stored data without errors, with no run that leaves the device, all plans are read. -/
theorem readPlans_atOnce (hc : clean s = true) {ps : List Plan} (own : ∀ v ∈ ps.flatMap (·.srcs), runOut s v = false) :
    ∃ b, readPlans io s w k ps = ({ s with folds := b, free := s.free + 1 },
      ps.flatMap fun p => planPieces p (p.make (p.srcs.map (ioBytes io s w s.free))), none) := by
  obtain ⟨b, paid⟩ := foldl_regPay_eq (ps.flatMap (·.srcs)) w.fold false s
  refine ⟨b, ?_⟩
  unfold readPlans
  dsimp only
  rw [outFail_of_runs own, eccTouch_of_clean hc, if_pos hc]
  dsimp only
  rw [if_neg (lt_irrefl _), List.take_length, paid]

/-- The start of a repeat all of whose reads are made at once. -/
theorem xferBegin_reads {l : Lay} {a0 a1 : Nat} {ps : List Plan} (hl : layOf r.desc = l) (h0 : arAddr (roleAr s w k 0) = a0)
    (h1 : arAddr (roleAr s w k 1) = a1) (hps : xferPlans s l a0 a1 = ps) (hc : clean s = true) (good : layBad op l a0 a1 = false)
    (extents : r.pos = 0 → ∀ d < lNdim l, (lDim l d).n ≠ 0)
    (ranges : checkRanges s w (xferRngs op l a0 a1 (roleAr s w k 0) (roleAr s w k 1)) (op == 3 && putAbsent s w k) (op == 3 && putFar s w k) = none)
    (apart : op = 2 → ∀ p q, srcSpan l a0 (roleAr s w k 0) = some p → dstSpan l a1 (roleAr s w k 1) = some q → spansMeet s p q = false)
    (asks : askOf s (.queue w.core w.q w.ctx) = none)
    (srcs : ∀ v ∈ ps.flatMap (·.srcs), runOut s v = false ∧ regOk s w.fold v.1 v.2 false = true)
    (free : ∀ v ∈ xferReads l a0 ps, rangeHeld s (gLoc v.1) v.2 = false) :
    let todo := ps.flatMap fun p => planPieces p (p.make (p.srcs.map (ioBytes io s w s.free)))
    ∃ u key, xferBegin io op s w k r =
      .more (setRun u w { r with begun := true, todo := if lZmode l = 0 then gather s todo else todo, fail := none, waiting := none, key := key }) ∧
      SameMem s u := by
  subst hl h0 h1
  intro todo
  have some_ : (r.pos = 0 && (List.range (lNdim (layOf r.desc))).any fun d => (lDim (layOf r.desc) d).n == 0) = false := by
    by_cases first : r.pos = 0
    · simpa [first] using extents first
    · simp [first]
  have paid : ((ps.flatMap (·.srcs)).all fun x => regOk s w.fold x.1 x.2 false) = true := List.all_eq_true.mpr fun v hv => (srcs v hv).2
  have runs : ∀ v ∈ ownRuns s (xferReads (layOf r.desc) (arAddr (roleAr s w k 0)) ps), rangeHeld s v.1 v.2 = false := by
    intro v hv
    obtain ⟨v0, h0, rfl⟩ := List.mem_map.mp hv
    exact free v0 (List.mem_filter.mp h0).1
  obtain ⟨b, read⟩ := readPlans_atOnce (io := io) (w := w) (k := k) hc fun v hv => (srcs v hv).1
  unfold xferBegin
  dsimp only
  rw [good, if_neg Bool.false_ne_true, some_, if_neg Bool.false_ne_true, ranges]
  dsimp only
  rw [if_neg (by
    split
    next x y hx hy =>
      by_cases perm : op = 2
      · simp [apart perm x y hx hy]
      · simp [perm]
    next => simp)]
  rw [hps, paid, if_neg (by simp), askRead_of_free asks runs]
  dsimp only
  have start : onCaps s [] (fun u => readPlans io u w k (xferPlans u (layOf r.desc) (arAddr (roleAr s w k 0)) (arAddr (roleAr s w k 1)))) =
      readPlans io s w k ps := congrArg (readPlans io s w k) hps
  rw [start, read]
  obtain ⟨as, dropped⟩ := dropAsks_eq { s with folds := b, free := s.free + 1, nextAsk := s.nextAsk + 1 } (.queue w.core w.q w.ctx)
  dsimp only
  rw [dropped]
  exact ⟨_, _, rfl, fun _ => rfl⟩

end Sys2Proof.Machine

/-! ## The writes of a transfer's repeat, and transfers together (R235-R255, R292-R294) -/

namespace Sys2Proof.Machine

variable {s u v : State} {w : Who} {k : Cmd} {r : Run} {io : RegIo} {op n : Nat} {p : Piece}

/-! ### One request -/

/-- A repeat's next request, where none before it has failed: the state, the status it fails with, and what it adds to COUNT. -/
def sendPiece (io : RegIo) (op : Nat) (w : Who) (k : Cmd) (key : Nat) (t : State × Option Nat × Nat) (p : Piece) : State × Option Nat × Nat :=
  match t.2.1 with
  | some _ => t
  | none =>
    let q := if op = 3 then putPiece t.1 w k key p else copyPiece io t.1 w k p
    (regPay q.1 w.fold p.addr p.data.length true, q.2, t.2.2 + p.weight)

/-- How a repeat goes on after its next requests. -/
def afterSends (w : Who) (r : Run) (q : State × Option Nat × Nat) : RepOut :=
  match q.2.1 with
  | some st => .fault q.1 st r.moved
  | none => .more (setRun q.1 w { r with todo := (nextPieces r.todo).2, moved := r.moved + q.2.2, waiting := none })

theorem xferRep_sends (hd : r.desc ≠ []) (begun : r.begun = true) (todo : r.todo ≠ [])
    (room : op ≠ 3 → ∀ a, postedOf s w.core w.q w.ctx = some a → a.left < 256)
    (go : ∀ p ∈ (nextPieces r.todo).1, regOk s w.fold p.addr p.data.length true = true) :
    xferRep io op s w k r = afterSends w r ((nextPieces r.todo).1.foldl (sendPiece io op w k r.key) (s, none, 0)) := by
  unfold xferRep
  dsimp only
  rw [if_neg hd, if_neg (by simp [begun]), if_neg (by simpa using todo), if_neg]
  · rw [if_neg (by simpa using go)]
    rfl
  · split
    next a ha =>
      intro full
      simp only [Bool.and_eq_true, decide_eq_true_eq] at full
      have := room full.1 a ha
      omega
    next => simp

/-! ### Requests of DMA.COPY and DMA.PERM -/

/-- The state v is s with some requests performed: nothing but memory, what goes with it and the regulators' levels differ. -/
structure Sent (s v : State) : Prop where
  beyond : ∃ b, beyondMem v = beyondMem { s with folds := b }
  whole : Whole v
  stores : StoresWf v

theorem Sent.engines (h : Sent s v) : SameEngines s v := by
  obtain ⟨b, eq⟩ := h.beyond
  exact ⟨(congrArg State.acc eq :), (congrArg State.accTy eq :), (congrArg State.ars eq :), (congrArg State.xs eq :)⟩

theorem Sent.regPay (h : Sent s v) (f a n : Nat) (write : Bool) : Sent s (regPay v f a n write) := by
  obtain ⟨b, paid⟩ := regPay_eq v f a n write
  obtain ⟨b0, eq⟩ := h.beyond
  rw [paid]
  exact ⟨⟨b, (congrArg (fun t : State => { t with folds := b }) eq :)⟩, h.whole.congr rfl rfl, { h.stores with }⟩

theorem Sent.wrote {a : Nat} {mask : Byte} {bs : List Byte} (h : Sent s v) (wrote : Wrote v u a mask bs) : Sent s u := by
  obtain ⟨b, eq⟩ := h.beyond
  exact ⟨⟨b, wrote.beyond.trans eq⟩, wrote.whole, wrote.stores⟩

theorem Sent.refl (hw : Whole s) (h : StoresWf s) : Sent s s := ⟨⟨s.folds, rfl⟩, hw, h⟩

theorem Sent.atHand {a : Nat} (h : Sent s v) (hand : AtHand s a n) : AtHand v a n := by
  obtain ⟨b, eq⟩ := h.beyond
  have grade : v.grade = s.grade := (congrArg State.grade eq :)
  refine ⟨hand.dev.trans (congrArg State.devid eq :).symm, ?_, ?_, ?_⟩
  · rw [grade]
    exact hand.memory
  · rw [grade]
    exact hand.whole
  · exact (congrArg (fun t => rangeHeld t (gLoc a) n) eq :).trans hand.free

theorem sendPiece_copy (h3 : op ≠ 3) (h : Sent s v) (hand : AtHand s p.addr p.data.length) (key : Nat) :
    ∃ u, sendPiece io op w k key (v, none, n) p = (u, none, n + p.weight) ∧ Sent s u ∧
      (∀ j, (∀ i < p.data.length, j ≠ locOf (gLoc p.addr + i)) → memGet u j = memGet v j) ∧
      (p.mask = 0xFF → ∀ i < p.data.length, memGet u (locOf (gLoc p.addr + i)) = p.data.getD i 0) := by
  obtain ⟨u, did, wrote⟩ := copyPiece_atHand (io := io) (w := w) (k := k) h.whole h.stores (h.atHand hand)
  refine ⟨regPay u w.fold p.addr p.data.length true, ?_, (h.wrote wrote).regPay .., ?_⟩
  · unfold sendPiece
    dsimp only
    rw [if_neg h3, did]
  · obtain ⟨b, paid⟩ := regPay_eq u w.fold p.addr p.data.length true
    rw [paid]
    exact ⟨wrote.outside, wrote.inside⟩

theorem sends_copy (h3 : op ≠ 3) (h : Sent s v) (l : List Piece) (hand : ∀ p ∈ l, AtHand s p.addr p.data.length) (key : Nat) :
    ∃ u, l.foldl (sendPiece io op w k key) (v, none, n) = (u, none, n + (l.map (·.weight)).sum) ∧ Sent s u ∧
      (∀ j, (∀ p ∈ l, ∀ i < p.data.length, j ≠ locOf (gLoc p.addr + i)) → memGet u j = memGet v j) := by
  induction l generalizing v n with
  | nil => exact ⟨v, rfl, h, fun _ _ => rfl⟩
  | cons p l ih =>
    obtain ⟨first, rest⟩ := List.forall_mem_cons.mp hand
    obtain ⟨u1, did, sent, outside, -⟩ := sendPiece_copy (io := io) (w := w) (k := k) (n := n) h3 h first key
    obtain ⟨u, dids, sents, outsides⟩ := ih (n := n + p.weight) sent rest
    refine ⟨u, ?_, sents, fun j out => ?_⟩
    · rw [List.foldl_cons, did, dids, List.map_cons, List.sum_cons, Nat.add_assoc]
    · obtain ⟨out1, out2⟩ := List.forall_mem_cons.mp out
      exact (outsides j out2).trans (outside j out1)

/-! ### Requests of DMA.PUT (R249) -/

theorem sends_put (h3 : op = 3) (l : List Piece) (own : ∀ p ∈ l, gDev p.addr = v.devid) (key : Nat) :
    ∃ qs b, l.foldl (sendPiece io op w k key) (v, none, n) =
        ({ v with puts := v.puts ++ qs, folds := b }, none, n + (l.map (·.weight)).sum) ∧
      qs.map (·.data) = l.map (·.data) ∧ qs.map (·.addr) = l.map (fun p => gLoc p.addr) ∧ qs.map (·.weight) = l.map (·.weight) := by
  induction l generalizing v n with
  | nil => exact ⟨[], v.folds, by simp, rfl, rfl, rfl⟩
  | cons p l ih =>
    obtain ⟨first, rest⟩ := List.forall_mem_cons.mp own
    obtain ⟨q, put, data, addr, weight⟩ : ∃ q, putPiece v w k key p = ({ v with puts := v.puts ++ [q] }, none) ∧ q.data = p.data ∧
        q.addr = gLoc p.addr ∧ q.weight = p.weight := by
      unfold putPiece
      rw [if_pos first]
      exact ⟨_, rfl, rfl, rfl, rfl⟩
    obtain ⟨b, paid⟩ := regPay_eq { v with puts := v.puts ++ [q] } w.fold p.addr p.data.length true
    obtain ⟨qs, b', dids, datas, addrs, weights⟩ := ih (v := { v with puts := v.puts ++ [q], folds := b }) (n := n + p.weight) rest
    have did : sendPiece io op w k key (v, none, n) p = ({ v with puts := v.puts ++ [q], folds := b }, none, n + p.weight) := by
      unfold sendPiece
      dsimp only
      rw [if_pos h3, put, paid]
    refine ⟨q :: qs, b', ?_, by simp [data, datas], by simp [addr, addrs], by simp [weight, weights]⟩
    rw [List.foldl_cons, did, dids, List.map_cons, List.sum_cons, Nat.add_assoc, List.append_assoc]
    rfl

/-! ### DMA.AMO (R292-R294) -/

theorem leNat_lt (bs : List Byte) : leNat bs < 256 ^ bs.length := by
  induction bs with
  | nil => decide
  | cons b bs ih =>
    have := b.isLt
    rw [leNat, List.length_cons, pow_succ]
    omega

theorem viewBytes_length (s : State) (a n : Nat) : (viewBytes s a n).length = n := by
  rw [viewBytes, List.length_map, List.length_range]

/-- An atomic at its home, by what else it leaves. -/
theorem atomicAt_sent {a : Nat} {m : Meet} (hw : Whole s) (h : StoresWf s) (size8 : Bool) (hand : AtHand s a (amoBytes size8)) (aop opd cmp : Nat) :
    ∃ u, atomicAt s m (gLoc a) size8 aop opd cmp = (u, .ok (readLe s (gLoc a) (amoBytes size8))) ∧ Sent s u ∧
      readLe u (gLoc a) (amoBytes size8) = atomicOp aop size8 (readLe s (gLoc a) (amoBytes size8)) opd cmp := by
  refine ⟨_, atomicAt_of_clean hw.clean .., ⟨⟨s.folds, beyondMem_writeBytes ..⟩, ?_, (writeBytes_keeps .rfl).stores h⟩,
    readLe_writeBytes hw h hand.inMemory hand.whole (atomicOp_lt ..)⟩
  exact hw.writeBytes fun i hi => hand.inMemory.coreLoc_run hand.whole (by rwa [leBytes_length] at hi)

theorem readLe_regPay (u : State) (f ga m : Nat) (write : Bool) (a n : Nat) : readLe (regPay u f ga m write) a n = readLe u a n := by
  obtain ⟨b, paid⟩ := regPay_eq u f ga m write
  rw [paid]
  rfl

theorem amoRep_done {a0 a1 : Nat} (h0 : arAddr (roleAr s w k 0) = a0) (h1 : arAddr (roleAr s w k 1) = a1) (hw : Whole s) (hs : StoresWf s)
    (ranges : checkRanges s w (amoRngs s w k) = none) (aligned : a1 % amoBytes (amoSize8 k) = 0) (word : AtHand s a1 (amoBytes (amoSize8 k)))
    (go : regOk s w.fold a1 (amoBytes (amoSize8 k)) true = true) (asks : askOf s (.queue w.core w.q w.ctx) = none)
    (back : amoRet k = true → AtHand s a0 (amoBytes (amoSize8 k)) ∧ regOk s w.fold a0 (amoBytes (amoSize8 k)) true = true) :
    ∃ u, amoRep io s w k r = .done u 1 ∧ SameEngines s u ∧
      (amoRet k = false → readLe u (gLoc a1) (amoBytes (amoSize8 k)) =
        atomicOp (amoOp k) (amoSize8 k) (readLe s (gLoc a1) (amoBytes (amoSize8 k))) k.w3.toNat k.w4.toNat) ∧
      (amoRet k = true → readLe u (gLoc a0) (amoBytes (amoSize8 k)) = readLe s (gLoc a1) (amoBytes (amoSize8 k))) := by
  subst h0 h1
  obtain ⟨v, did, sent, new⟩ := atomicAt_sent (m := { path := 7, tag := cTag k, core := w.core, ring := w.ring }) hw hs (amoSize8 k) word
    (amoOp k) k.w3.toNat k.w4.toNat
  have atomic := queueAtomic_atHand (k := k) (aop := amoOp k) (opd := k.w3) (cmp := k.w4) asks word
  dsimp only at atomic
  rw [did] at atomic
  have may : (regOk s w.fold (arAddr (roleAr s w k 1)) (amoBytes (amoSize8 k)) true &&
      (!(amoRet k) || regOk s w.fold (arAddr (roleAr s w k 0)) (amoBytes (amoSize8 k)) true)) = true := by
    by_cases ret : amoRet k = true
    · simp [go, ret, (back ret).2]
    · simp [go, ret]
  have bytes : (if amoSize8 k = true then 8 else 4) = amoBytes (amoSize8 k) := rfl
  unfold amoRep
  dsimp only
  simp only [bytes]
  rw [ranges]
  dsimp only
  rw [if_neg (not_not_intro aligned), may, if_neg (by simp), atomic]
  dsimp only
  split
  next ret =>
    have paid := (sent.regPay w.fold (arAddr (roleAr s w k 1)) (amoBytes (amoSize8 k)) true).regPay w.fold (arAddr (roleAr s w k 0))
      (amoBytes (amoSize8 k)) true
    have len : (leBytes (amoBytes (amoSize8 k)) (readLe s (gLoc (arAddr (roleAr s w k 1))) (amoBytes (amoSize8 k)))).length =
      amoBytes (amoSize8 k) := leBytes_length
    obtain ⟨u, copied, wrote⟩ := copyPiece_atHand (io := io) (w := w) (k := k) (p := {
      addr := arAddr (roleAr s w k 0), weight := amoBytes (amoSize8 k)
      data := leBytes (amoBytes (amoSize8 k)) (readLe s (gLoc (arAddr (roleAr s w k 1))) (amoBytes (amoSize8 k))) })
      paid.whole paid.stores (by rw [len]; exact paid.atHand (back ret).1)
    have read := wrote.viewBytes rfl
    dsimp only at read
    rw [len] at read
    rw [copied]
    refine ⟨u, rfl, (paid.wrote wrote).engines, fun h => absurd ret (by simp [h]), fun _ => ?_⟩
    rw [readLe, read, leNat_leBytes, Nat.mod_eq_of_lt]
    exact lt_of_lt_of_eq (leNat_lt _) (by rw [viewBytes_length])
  next ret =>
    refine ⟨_, rfl, (sent.regPay ..).engines, fun _ => (readLe_regPay ..).trans new, fun h => absurd h ret⟩

end Sys2Proof.Machine

/-! ## Transfers together (R235-R255, R292-R294) -/

namespace Sys2Proof.Machine

variable {s : State} {w : Who} {k : Cmd} {r : Run} {io : RegIo} {op : Nat}

/-- The row of a transfer command. -/
def xferRow (c op : Nat) : EngRow := { core := c, n := 1, q := 2, op := op, eng := xferEng regIo op }

theorem engRow_xfer {c : Nat} {i : Instr} (h : (i, op) ∈ [(.dmaCopy c 1, 1), (.dmaPerm c 1, 2), (.dmaPut c 1, 3)]) : engRow i = some (xferRow c op) := by
  simp only [List.mem_cons, Prod.mk.injEq, List.not_mem_nil, or_false] at h
  obtain ⟨rfl, rfl⟩ | ⟨rfl, rfl⟩ | ⟨rfl, rfl⟩ := h <;> rfl

theorem xferRep_begins (hd : r.desc ≠ []) (begun : r.begun = false) : xferRep io op s w k r = xferBegin io op s w k r := by
  unfold xferRep
  dsimp only
  rw [if_neg hd, if_pos (by simp [begun])]

theorem xferRep_done (hd : r.desc ≠ []) (begun : r.begun = true) (todo : r.todo = []) (fail : r.fail = none) (posts : postWaits s w = false) :
    xferRep io op s w k r = .done s r.moved := by
  unfold xferRep
  dsimp only
  rw [if_neg hd, if_neg (by simp [begun]), if_pos (by simp [todo]), fail]
  dsimp only
  rw [posts, if_neg Bool.false_ne_true]

/-- Settles O13: the reads of a transfer's repeat, its requests, its end, and an atomic. -/
theorem transferRepeatsComplete : Obligations.TransferRepeatsComplete := by
  intro s c x op i r hw hs hi k w o a0 a1 l ps
  have row := engRow_xfer hi
  refine ⟨fun e he runs hd begun good extents ranges apart asks srcs free => ?reads, fun e he runs hd begun todo room => ?sends,
    fun hd begun todo fail posts => ?ends, ?atomic⟩
  case reads =>
    intro todo
    obtain rfl := Option.some.inj (row.symm.trans he)
    obtain ⟨u, key, did, same⟩ := xferBegin_reads (io := regIo) (w := w) (k := k) rfl rfl rfl rfl hw.clean good extents ranges apart asks srcs free
    have rep := (xferRep_begins (io := regIo) (op := op) (s := s) (w := w) (k := k) hd begun).trans did
    exact ⟨_, _, exec_more he runs rfl rep, same, getCtx_setRun .., rfl, rfl, rfl⟩
  case sends =>
    intro g hand
    obtain rfl := Option.some.inj (row.symm.trans he)
    have rep := xferRep_sends (io := regIo) (w := w) (k := k) (op := op) hd begun todo room fun p hp => (hand p hp).2
    by_cases put : op = 3
    · obtain ⟨qs, b, sent, data, addr, weight⟩ := sends_put (io := regIo) (w := w) (k := k) (n := 0) put g.1 (fun p hp => (hand p hp).1.dev) r.key
      rw [sent, Nat.zero_add] at rep
      exact ⟨_, exec_more he runs rfl rep, fun h3 => absurd put h3, fun _ => ⟨fun _ => rfl, qs, rfl, data, addr, weight⟩⟩
    · have start : Sent s s := .refl hw hs
      obtain ⟨v, sent, -, outside⟩ := sends_copy (io := regIo) (w := w) (k := k) (n := 0) put start g.1 (fun p hp => (hand p hp).1) r.key
      rw [sent, Nat.zero_add] at rep
      refine ⟨v, exec_more he runs rfl rep, fun _ => ⟨outside, fun p one full _ => ?_⟩, fun h3 => absurd h3 put⟩
      obtain ⟨u, did, -, -, inside⟩ := sendPiece_copy (io := regIo) (w := w) (k := k) (n := 0) put start
        (hand p (by rw [one]; exact List.mem_cons_self)).1 r.key
      rw [one, List.foldl_cons, List.foldl_nil, did] at sent
      obtain rfl : u = v := congrArg Prod.fst sent
      exact inside full
  case ends => exact repeatCompletes_of_rep row rfl ⟨s, r.moved, xferRep_done hd begun todo fail posts, rfl, rfl⟩
  case atomic =>
    intro n ranges aligned word go asks back
    obtain ⟨u, did, engines, new, old⟩ := amoRep_done (io := regIo) (w := w) (k := k) (r := r) rfl rfl hw hs ranges aligned word go asks
      fun ret => ⟨(back ret).1, (back ret).2.1⟩
    exact repeatCompletes_of_rep (i := .dmaAmo c 1) (e := { core := c, n := 1, q := 2, op := 0x04, eng := amoEng regIo }) rfl rfl
      ⟨u, 1, did, rfl, engines, new, old⟩

end Sys2Proof.Machine
